-- ==== Sys2Proof/Word.lean ====
section
/-! DEFINITION. The word types of the Ralari Pholoth: bytes, 32-bit register words, 64-bit register pairs and
instruction words (00_scope.md R3: little-endian, bit 0 is the least significant). -/

namespace Sys2Proof

/-- One byte of memory. -/
abbrev Byte := BitVec 8

/-- A 32-bit register (04_integer.md R104). -/
abbrev Word := BitVec 32

/-- A 64-bit value: a register pair, an instruction word, a clause header. -/
abbrev DWord := BitVec 64

/-- The register index of zr (02_encoding.md R43). -/
abbrev zrIndex : Nat := 255

/-- The index of g0 among register indexes (02_encoding.md R43). -/
abbrev gBase : Nat := 192

end Sys2Proof
end

