-- ==== Sys2Proof/Syntax.lean ====
section
/-! DEFINITION. The instruction formats of 02_encoding.md (R34 to R42), one structure per format with the manual's own
field names, and `Instr`: one constructor per row of spec/opcode_table.json. A row that is an instruction carries its
format's fields; a row that is an event of another agent carries what the event is about. No word decodes to an event. -/

namespace Sys2Proof

/-- Format A (R34), opcode left out: it is the constructor. -/
structure FmtA where
  p  : BitVec 4
  d  : BitVec 9
  s1 : BitVec 10
  s2 : BitVec 10
  s3 : BitVec 10
  t  : BitVec 5
  m  : BitVec 8
  deriving DecidableEq, Repr

/-- Format I (R35). -/
structure FmtI where
  p   : BitVec 4
  d   : BitVec 9
  s1  : BitVec 10
  h   : BitVec 1
  imm : BitVec 32
  deriving DecidableEq, Repr

/-- Format M (R36). -/
structure FmtM where
  p   : BitVec 4
  d   : BitVec 9
  a   : BitVec 10
  x   : BitVec 10
  off : BitVec 12
  w   : BitVec 3
  sc  : BitVec 3
  or  : BitVec 2
  pl  : BitVec 2
  c   : BitVec 1
  deriving DecidableEq, Repr

/-- Format N (R38): format M with an 8-bit offset and the AO field. -/
structure FmtN where
  p   : BitVec 4
  d   : BitVec 9
  a   : BitVec 10
  x   : BitVec 10
  off : BitVec 8
  ao  : BitVec 4
  w   : BitVec 3
  sc  : BitVec 3
  or  : BitVec 2
  pl  : BitVec 2
  c   : BitVec 1
  deriving DecidableEq, Repr

/-- Format B (R39). -/
structure FmtB where
  p   : BitVec 4
  d   : BitVec 9
  s1  : BitVec 10
  k   : BitVec 1
  off : BitVec 32
  deriving DecidableEq, Repr

/-- Format G (R40), used only by GLZ; `z` is the reserved field [41:0]. -/
structure FmtG where
  p  : BitVec 4
  n  : BitVec 4
  msk : BitVec 4
  md : BitVec 2
  z  : BitVec 42
  deriving DecidableEq, Repr

/-- Format E (R41). -/
structure FmtE where
  p   : BitVec 4
  q   : BitVec 4
  d   : BitVec 9
  s1  : BitVec 10
  s2  : BitVec 10
  imm : BitVec 19
  deriving DecidableEq, Repr

/-- Format X (R42), MLOOP. -/
structure FmtX where
  p   : BitVec 4
  acc : BitVec 6
  sa  : BitVec 6
  eb  : BitVec 10
  ks  : BitVec 12
  ia  : BitVec 9
  ib  : BitVec 9
  deriving DecidableEq, Repr

/-- Format XS (R42), MLOOPS. -/
structure FmtXS where
  p   : BitVec 4
  acc : BitVec 6
  sa  : BitVec 6
  eb  : BitVec 10
  ks  : BitVec 8
  mv  : BitVec 8
  pat : BitVec 2
  ia  : BitVec 6
  ib  : BitVec 6
  deriving DecidableEq, Repr

/-- The rows of spec/opcode_table.json. Numbers in the events name the model's own records: a gang, an access, a request,
a grid, a team or a cluster by its model number; quads, slices and queues by their device numbers (01_machine.md R11). -/
inductive Instr where
  -- control (03_control.md)
  | nop (w : FmtA)
  | bra (w : FmtB)
  | brx (w : FmtB)
  | call (w : FmtB)
  | callRegister (w : FmtB)
  | ret (w : FmtB)
  | reform (w : FmtA)
  | exit (w : FmtA)
  | yield (w : FmtA)
  | trap (w : FmtI)
  | svc (w : FmtI)
  | brk (w : FmtA)
  | beat (w : FmtA)
  | glz (w : FmtG)
  | ppt (w : FmtI)
  | vote (w : FmtA)
  | shfl (w : FmtA)
  -- integer, address and register (04_integer.md)
  | iadd (w : FmtA)
  | isub (w : FmtA)
  | imul (w : FmtA)
  | imulh (w : FmtA)
  | imad (w : FmtA)
  | iaddi (w : FmtI)
  | imuli (w : FmtI)
  | imin (w : FmtA)
  | imax (w : FmtA)
  | iabs (w : FmtA)
  | ineg (w : FmtA)
  | and (w : FmtA)
  | or (w : FmtA)
  | xor (w : FmtA)
  | not (w : FmtA)
  | andi (w : FmtI)
  | ori (w : FmtI)
  | xori (w : FmtI)
  | shl (w : FmtA)
  | shr (w : FmtA)
  | sar (w : FmtA)
  | fsh (w : FmtA)
  | bfx (w : FmtA)
  | bfi (w : FmtA)
  | popc (w : FmtA)
  | clz (w : FmtA)
  | brev (w : FmtA)
  | isetp (w : FmtA)
  | sel (w : FmtA)
  | movi (w : FmtI)
  | mov (w : FmtA)
  | lea (w : FmtA)
  | idiv (w : FmtA)
  | irem (w : FmtA)
  | plop (w : FmtA)
  | pmovGet (w : FmtA)
  | pmovSet (w : FmtA)
  | pmovNz (w : FmtA)
  | pmovSel (w : FmtA)
  | icvt (w : FmtA)
  | idot4 (w : FmtA)
  | movs (w : FmtA)
  | movsw (w : FmtA)
  | codeSegmentSwitch (w : FmtA)
  | rget (w : FmtA)
  | rput (w : FmtA)
  -- floating point and narrow formats (05_float.md)
  | fadd (w : FmtA)
  | fsub (w : FmtA)
  | fmul (w : FmtA)
  | ffma (w : FmtA)
  | fmin (w : FmtA)
  | fmax (w : FmtA)
  | fdiv (w : FmtA)
  | fsqrt (w : FmtA)
  | frcp (w : FmtA)
  | frsq (w : FmtA)
  | fexp2 (w : FmtA)
  | flog2 (w : FmtA)
  | fsin (w : FmtA)
  | fcos (w : FmtA)
  | ftanh (w : FmtA)
  | fsetp (w : FmtA)
  | fclassPredicate (w : FmtA)
  | fclassRegister (w : FmtA)
  | fcvt (w : FmtA)
  | f2i (w : FmtA)
  | i2f (w : FmtA)
  | frnd (w : FmtA)
  | fscale (w : FmtA)
  | fdot2 (w : FmtA)
  | fpack (w : FmtA)
  | funpk (w : FmtA)
  | ncvtEnc (w : FmtA)
  | ncvtDec (w : FmtA)
  | fmtw (w : FmtI)
  /-- The event register of class `cls` of a team is cleared at its window's end (R153). -/
  | eventWindowClear (team cls : Nat)
  -- glaze layer forms (06_glaze.md)
  | tget (w : FmtA)
  | tset (w : FmtA)
  | tzero (w : FmtA)
  | tseed (w : FmtA)
  | gpln (w : FmtA)
  -- pool and synchronisation (07_pool.md)
  | ldp (w : FmtM)
  | stp (w : FmtM)
  | ldpf (w : FmtM)
  | stpe (w : FmtM)
  | feset (w : FmtM)
  | atomp (w : FmtN)
  | casp (w : FmtA)
  | mcst (w : FmtM)
  /-- The pool access numbered `id` arrives at its share (R178). -/
  | poolAccessPerform (id : Nat)
  /-- The rejected pool access numbered `id` is sent again (R185). -/
  | poolAccessRetry (id : Nat)
  | bari (w : FmtM)
  | barx (w : FmtM)
  | bara (w : FmtM)
  | barw (w : FmtM)
  | tbar (w : FmtA)
  | rngi (w : FmtM)
  | rngwWr (w : FmtM)
  | rngwRd (w : FmtM)
  | rngsWr (w : FmtM)
  | rngsRd (w : FmtM)
  -- ordering (13_ordering.md)
  | fence (w : FmtM)
  | fenceq (w : FmtE)
  | sight (w : FmtM)
  /-- The refresh of a cluster's sight vector ends (R219). -/
  | sightRefreshComplete (cluster : Nat)
  -- regions and global memory (08_global.md)
  | rmap (w : FmtE)
  | rmapUnmap (w : FmtE)
  | rflush (w : FmtM)
  | rinv (w : FmtM)
  | rpref (w : FmtM)
  /-- The fill of the region line at pool line number `line` of a cluster lands (R211). -/
  | regionFillComplete (cluster line : Nat)
  | atomg (w : FmtN)
  | casg (w : FmtA)
  | redg (w : FmtN)
  | ldk (w : FmtN)
  | sibl (w : FmtN)
  | recon (w : FmtN)
  /-- The home request numbered `id` is served at its slice (R204). -/
  | homeRequestService (id : Nat)
  /-- One acknowledgement for the busy line at physical line number `line` arrives (R202). -/
  | invalidationAck (line : Nat)
  /-- The rejected home request numbered `id` is sent again (R207). -/
  | homeRequestRetry (id : Nat)
  /-- Side log `log` replays all its entries (R374). -/
  | sideLogReplay (log : Nat)
  -- copy and stream engine (09_copy.md)
  | tcopy (w : FmtE)
  | tstore (w : FmtE)
  | tgather (w : FmtE)
  | tscat (w : FmtE)
  | tlay (w : FmtE)
  | tstream (w : FmtE)
  | tdrain (w : FmtE)
  | twait (w : FmtE)
  | tcancel (w : FmtE)
  /-- Copy queue `queue` of a quad starts its next command (R238). -/
  | copyCommandStart (quad queue : Nat)
  /-- The command numbered `cmd` issues its next line (R239). -/
  | copyLineIssue (cmd : Nat)
  /-- The issued read line `line` of command `cmd` lands (R249). -/
  | copyLineDelivery (cmd line : Nat)
  /-- The issued write line `line` of command `cmd` is accepted or side-logged (R249). -/
  | copyWriteLineAccept (cmd line : Nat)
  /-- The fault of line `line` of command `cmd` is recorded (R250). -/
  | copyLineFault (cmd line : Nat)
  /-- A stalled stream takes its next slot (R254). -/
  | streamSlotResume (cmd : Nat)
  -- matrix (10_matrix.md)
  | pres (w : FmtE)
  | presOrg (w : FmtE)
  | pfree (w : FmtE)
  | easld (w : FmtE)
  | mloop (w : FmtX)
  | mloops (w : FmtXS)
  | accal (w : FmtE)
  | accfr (w : FmtE)
  | accz (w : FmtE)
  | accrd (w : FmtE)
  | accwr (w : FmtE)
  | spkc (w : FmtA)
  | mwait (w : FmtE)
  | mclass (w : FmtE)
  | qblk (w : FmtA)
  | pwr (w : FmtE)
  | mstat (w : FmtE)
  /-- The sequencer starts the queued matrix command numbered `cmd` of a team (R264). -/
  | matrixCommandStart (team cmd : Nat)
  /-- A quad's arrays run one step (R289). -/
  | matrixStep (quad : Nat)
  -- launch and tasks (11_tasks.md)
  | spawn (w : FmtE)
  | launch (w : FmtE)
  | park (w : FmtE)
  | tqpop (w : FmtE)
  | joinw (w : FmtE)
  | steal (w : FmtE)
  /-- Die `die` places the next cluster of a grid on `quads`, in slot order (R298). -/
  | clusterPlacement (grid die : Nat) (quads : List Nat)
  | leaderProposal (grid : Nat)
  | leaderAckTimeout (grid : Nat)
  /-- The follower reports the retired cluster index `index` (R299). -/
  | retirementReport (grid index : Nat)
  | teamRetirement (team : Nat)
  -- messages, Curfew and collectives (12_messages.md)
  | chcfg (w : FmtE)
  | chcfgClear (w : FmtE)
  | send (w : FmtE)
  | recv (w : FmtE)
  | quiet (w : FmtE)
  | qpoll (w : FmtE)
  | msgh (w : FmtE)
  | msghOff (w : FmtE)
  | coll (w : FmtE)
  | cwait (w : FmtE)
  | lossn (w : FmtE)
  /-- The message numbered `id` reaches its destination queue (R318). -/
  | messageDelivery (id : Nat)
  /-- A loss note of `count` messages of a job reaches the root (R327). -/
  | lossNote (job count reporter : Nat)
  | curfewWave (job : Nat)
  | waveVerdict (job : Nat)
  /-- The match number `round` of collective group `group` completes, with the cause of a member that became
  unreachable where there is one (R341, R342). -/
  | collectiveCompletion (group round : Nat) (lost : Bool)
  -- system (14_system.md)
  | tlbiVa (w : FmtE)
  | tlbiAsid (w : FmtE)
  | tlbiAll (w : FmtE)
  | capr (w : FmtE)
  | statr (w : FmtE)
  | statw (w : FmtE)
  /-- STATW whose state number is HALT, 0x012 (R382). -/
  | halt (w : FmtE)
  | wdog (w : FmtE)
  | slogr (w : FmtE)
  | slogpReplay (w : FmtE)
  | slogpDrop (w : FmtE)
  | slogpAll (w : FmtE)
  | eret (w : FmtE)
  | eretSkip (w : FmtE)
  | eretPc (w : FmtE)
  | ctxsv (w : FmtE)
  | ctxld (w : FmtE)
  | preemptStop (w : FmtE)
  | preemptForce (w : FmtE)
  | preemptResume (w : FmtE)
  | forcedLimit (cluster : Nat)
  | watchdogFire (grid : Nat)
  -- the lane (03_control.md)
  | clauseFetch (gang : Nat)
  | clauseIssue (quad lane : Nat)
  | longResultWrite (id : Nat)
  | foldAgeLimit (fold : Nat)
  | foldIssue (fold : Nat)
  | gangDemotion (quad lane : Nat)
  -- Shegus commands (15_host.md R401): the head command of queue `q`, with Shegus's own choice where it has one
  | identify (q : Nat)
  /-- Shegus names the new job `job`. -/
  | jobOpen (q job : Nat)
  | jobClose (q : Nat)
  | shegusLaunch (q : Nat)
  /-- Shegus takes physical pages from `pa` on, at virtual address `va`. -/
  | alloc (q va pa : Nat)
  | free (q : Nat)
  /-- Shegus takes the HBM range from `pa` on. -/
  | window (q pa : Nat)
  | collgrp (q : Nat)
  | jobResume (q : Nat)
  | jobAbort (q : Nat)
  | attest (q : Nat)
  | fwload (q : Nat)
  | errors (q : Nat)
  | powercap (q : Nat)
  /-- The walk for the region line at pool line `line` of a cluster ends (R212). -/
  | pageWalkComplete (cluster line : Nat)
  /-- A wave's sample request reaches the counter set numbered `set` of a job (R324). -/
  | counterSetSample (job set : Nat)
  | wavePassB (job : Nat)
  -- from outside the device: the host over CXL (15_host.md), failures, the physical environment, and what Shegus decides of a
  -- page fault
  | cheadWrite (q : Nat) (v : DWord)
  /-- A host write of QBASE (0), CBASE (1) or another register without behaviour of its own (R398). -/
  | registerWrite (q reg : Nat) (v : DWord)
  | hostMemRead (offset n agent : Nat) (caches : Bool)
  | hostMemWrite (offset : Nat) (bytes : List (Option Byte))
  /-- A snoop of the half at physical address `pa` (R394). -/
  | snpinv (pa : Nat)
  | snpdata (pa : Nat)
  /-- The host grants the half at `pa`: in E when `own`, else in S, with the half's 64 bytes (R393). -/
  | halfGrant (pa : Nat) (own : Bool) (data : List Byte)
  | seamFailure
  | dieFailure (die : Nat)
  | supplySag (die : Nat)
  | clockRecoveryStep (die : Nat)
  | thermalThrottle
  | thermalTrip
  | correctableError (die cls : Nat)
  /-- A flit fails parity, for the second time when `again` (R24). -/
  | flitParityError (die : Nat) (again : Bool)
  | uncorrectableError (job block line : Nat)
  /-- A die leaves reset with the flash image `image` of version `version`, its signature good or not (R404). -/
  | reset (die : Nat) (image : List Byte) (version : Nat) (good : Bool)
  | tailDoorbell (q : Nat) (v : DWord)
  | qcfgWrite (q : Nat) (v : DWord)
  /-- Shegus rejects the not-present fault of an address space at a page (R370). -/
  | pageFaultReject (asid page : Nat)
  deriving DecidableEq, Repr

end Sys2Proof
end

