-- ==== Sys2Proof/WellFormed.lean ====
section
/-! DEFINITION. The checks on a word's own fields (02_encoding.md R33, R43 to R51, and the field conditions of each entry).
`Instr.opnds` says, for each instruction, what each of its fields is; `Opnd.ok` is the part of a field's check that the
bits alone decide, `Opnd.allocated` the part that needs the team's fixed state (R56 row 4): its allocated register count
A, its glaze depth D and the word's glazed set G. -/

namespace Sys2Proof

/-- What a field of a word is. Fields are given as numbers. -/
inductive Opnd where
  /-- 10-bit source: `n` registers, or a channel (R43, R45). -/
  | src (f n : Nat)
  /-- 9-bit destination: `n` registers, or a channel. -/
  | dst (f n : Nat)
  /-- 10-bit register field without channels: `n` consecutive registers aligned to `n` (R44). -/
  | reg (f n : Nat)
  /-- 9-bit register field without channels. -/
  | reg9 (f n : Nat)
  /-- 10-bit field naming `n` v registers or zr (R94, R189). -/
  | vreg (f n : Nat)
  /-- 9-bit field naming `n` v registers or zr. -/
  | vreg9 (f n : Nat)
  /-- The first of `n` consecutive v registers, aligned to `n`, where the entry names no zr and no g register (R44). -/
  | group (f n : Nat)
  /-- A predicate p0 to p7 (R46). -/
  | pred (f : Nat)
  /-- A format register f0 to f15 (R46). -/
  | fmt (f : Nat)
  /-- An unused or reserved field (R33). -/
  | zero (f : Nat)
  /-- Any other condition that the bits decide. -/
  | isTrue (b : Bool)
  /-- A glaze layer number from 1 to D (R175). -/
  | layer (k : Nat)
  /-- A glaze layer mask naming no layer above D (R40, R175). -/
  | layers (mask : Nat)
  /-- v registers from index `i` on, `n` of them, inside the allocation (R42, R307). -/
  | run (i n : Nat)
  /-- Accumulator tile and palette slot of a matrix loop, with their tangent tiles and slots (R173, R275). -/
  | tiles (acc slot : Nat)
  deriving DecidableEq, Repr

/-- A register index with `n` registers from it on: zr, an aligned v group, or g registers (a pair at most, and not from
g62 on) (R43, R44). A field of more than two registers for which R44 wants v registers alone is a `.group` operand, which
takes neither zr nor g registers (`poolData`). -/
def regOk (i n : Nat) : Bool :=
  i == 255 || (i < 192 && i % n == 0) || (192 ≤ i && i < 255 && (n == 1 || (n == 2 && i % 2 == 0 && i != 254)))

/-- A v register index below 192 stays, with the group from it on, below the allocated count (R44). -/
def regAlloc (a i n : Nat) : Bool := decide (192 ≤ i) || decide (i + n ≤ a)

/-- The part of a field's check that its bits decide (R33, R43 to R46). -/
def Opnd.ok : Opnd → Bool
  | .src f n => if 512 ≤ f then decide (f % 256 < 64) else decide (f < 256) && regOk f n
  | .dst f n => if 256 ≤ f then decide (f - 256 < 64) else regOk f n
  | .reg f n => decide (f < 256) && regOk f n
  | .reg9 f n => decide (f < 256) && regOk f n
  | .vreg f n => decide (f < 256) && regOk f n && !(decide (192 ≤ f) && decide (f < 255))
  | .vreg9 f n => decide (f < 256) && regOk f n && !(decide (192 ≤ f) && decide (f < 255))
  | .group f n => decide (f < 192) && f % n == 0
  | .pred f => decide (f < 8)
  | .fmt f => decide (f < 16)
  | .zero f => f == 0
  | .isTrue b => b
  | .layer k => decide (1 ≤ k) && decide (k ≤ 4)
  | .layers m => decide (m < 16)
  | .run i n => decide (i + n ≤ 192)
  | .tiles acc slot => decide (acc < 32) && decide (slot < 64)

/-- The part of a field's check that needs the team: `a` registers allocated, depth `d`, glazed set `g` (R44, R56). -/
def Opnd.allocated (a d : Nat) (g : List Nat) : Opnd → Bool
  | .src f n => decide (512 ≤ f) || regAlloc a f n
  | .dst f n => decide (256 ≤ f) || regAlloc a f n
  | .reg f n => regAlloc a f n
  | .reg9 f n => regAlloc a f n
  | .vreg f n => regAlloc a f n
  | .vreg9 f n => regAlloc a f n
  | .group f n => regAlloc a f n
  | .layer k => decide (k ≤ d)
  | .layers m => decide (m < 2 ^ d)
  | .run i n => decide (i + n ≤ a)
  | .tiles acc slot => g.all fun k => decide (acc + k < 32) && decide (slot + k < 64)
  | _ => true

/-- Registers of a value of type code T: two at 64 bits (R47, R111). -/
def tyRegs (t : Nat) : Nat := if t == 2 || t == 3 || t == 6 || t == 12 then 2 else 1

/-- M of an integer form: zero, or .sat alone where the entry admits it (R48). -/
def mInt (m : Nat) (sat : Bool) : Opnd := .isTrue (m == 0 || (sat && m == 16))

/-- M of a floating-point form: `mask` holds the admitted bits among S N1 N2 A Z (bits 4 to 0), `r` admits rounding
(R48, R133). -/
def mFp (m : Nat) (r : Bool) (mask : Nat) : Opnd :=
  .isTrue (Nat.land (m % 32) mask == m % 32 && (if r then decide (m / 32 ≤ 4) else m / 32 == 0))

namespace FmtA

/-- T is one of the admitted codes (R47). -/
def tyIn (w : FmtA) (ts : List Nat) : Opnd := .isTrue (ts.contains w.t.toNat)

/-- An integer form with two sources (R111, R112). -/
def int2 (w : FmtA) (ts : List Nat) (sat : Bool) : List Opnd :=
  let n := tyRegs w.t.toNat
  [.dst w.d.toNat n, .src w.s1.toNat n, .src w.s2.toNat n, .zero w.s3.toNat, w.tyIn ts, mInt w.m.toNat sat]

/-- An integer form with one source and a destination of `nd` registers. -/
def int1 (w : FmtA) (ts : List Nat) (sat : Bool) (nd : Nat) : List Opnd :=
  [.dst w.d.toNat nd, .src w.s1.toNat (tyRegs w.t.toNat), .zero w.s2.toNat, .zero w.s3.toNat, w.tyIn ts,
   mInt w.m.toNat sat]

/-- A shift: the count S2 is one 32-bit register (R115). -/
def shift (w : FmtA) : List Opnd :=
  let n := tyRegs w.t.toNat
  [.dst w.d.toNat n, .src w.s1.toNat n, .src w.s2.toNat 1, .zero w.s3.toNat, w.tyIn [11, 12], mInt w.m.toNat false]

/-- A format A word all of whose fields but OP and P are zero (R93, R96). -/
def blank (w : FmtA) : List Opnd :=
  [.zero w.d.toNat, .zero w.s1.toNat, .zero w.s2.toNat, .zero w.s3.toNat, .zero w.t.toNat, .zero w.m.toNat]

/-- A floating-point form: sources in the list's flags, types and modifiers admitted (R133). -/
def fp (w : FmtA) (ts : List Nat) (r : Bool) (mask : Nat) (two three : Bool) : List Opnd :=
  let n := tyRegs w.t.toNat
  [.dst w.d.toNat n, .src w.s1.toNat n, if two then .src w.s2.toNat n else .zero w.s2.toNat,
   if three then .src w.s3.toNat n else .zero w.s3.toNat, w.tyIn ts, mFp w.m.toNat r mask]

end FmtA

/-- A format I form on 32-bit or 64-bit values (R113). -/
def FmtI.int (w : FmtI) (s1 : Bool) : List Opnd :=
  let n := 1 + w.h.toNat
  [.reg9 w.d.toNat n, if s1 then .reg w.s1.toNat n else .zero w.s1.toNat]

/-- A narrow-format descriptor is valid (R143, R144). -/
def descValid (d : Nat) : Bool :=
  let sg := d / 32768 % 2
  let eb := d / 4096 % 8
  let mb := d / 512 % 8
  let b := sg + eb + mb
  decide (2 ≤ b) && decide (b ≤ 8) && (d % 2 == 0 || decide (2 ≤ eb))

/-- Special registers of 64 bits (R125). -/
def srWide (n : Nat) : Bool := n == 4 || n == 5 || n == 0x0E || n == 0x0F || n == 0x12

/-- The pool access codes W, SC, OR, PL of a format M or N word (R49, R50): `ws` the admitted widths, `scMax` the widest
scope, `rmw` whether it is a read-modify-write, `ords` the admitted orders, `pls` the admitted policies. -/
def memCodes (w sc or pl : Nat) (ws : List Nat) (scMax : Nat) (rmw : Bool) (ords pls : List Nat) : Opnd :=
  .isTrue (ws.contains w && decide (sc ≤ scMax) && ords.contains or && pls.contains pl &&
    (if rmw then decide (sc ≠ 0) else (sc == 0) == (or == 0)))

/-- Registers of a data operand of width code W (R44): one, a pair, four or eight. -/
def wRegs (w : Nat) : Nat := if w ≤ 2 then 1 else 2 ^ (w - 2)

/-- The count flag C: the register after the data must exist (R44). No register follows zr, nor g62 as a single register;
the spec does not say where the count goes then: the word is accepted and the count discarded (DESIGN CHOICE,
notes/assumptions/108.md). -/
def countReg (c d n : Nat) : List Opnd := if c = 1 && decide (d < 192) then [.run d (n + 1)] else []

/-- The data register of a pool form: zr too, but for 16 and 32 bytes a group of v registers (R44, R180). -/
def poolData (d n : Nat) : Opnd := if 2 < n then .group d n else .reg9 d n

/-- A pool data form (R180, R186): data register, address, index, codes. -/
def FmtM.pool (w : FmtM) (ws ords : List Nat) (cOk : Bool) : List Opnd :=
  let n := wRegs w.w.toNat
  [poolData w.d.toNat n, .reg w.a.toNat 1, .reg w.x.toNat 1, memCodes w.w.toNat w.sc.toNat w.or.toNat w.pl.toNat ws 2 false ords [0],
   .isTrue (w.c == 0 || (cOk && decide (w.w.toNat ≤ 3)))] ++ countReg w.c.toNat w.d.toNat n

/-- A barrier or ring form: SC, OR, PL and C zero, W one of `ws` (R192, R197). -/
def FmtM.sync (w : FmtM) (ws : List Nat) (dst : Opnd) : List Opnd :=
  [dst, .reg w.a.toNat 1, .reg w.x.toNat 1, .isTrue (ws.contains w.w.toNat), .zero w.sc.toNat, .zero w.or.toNat,
   .zero w.pl.toNat, .zero w.c.toNat]

/-- A region form: X is zr, C and PL zero (R230). -/
def FmtM.region (w : FmtM) (ok : Bool) : List Opnd :=
  [.reg9 w.d.toNat 1, .reg w.a.toNat 1, .isTrue (w.x.toNat == 255), .zero w.pl.toNat, .zero w.c.toNat, .isTrue ok]

/-- A global form (R225, R227, R232 to R237): data of `n` registers, address pair, index register. The four registers of
LDK and RECON are v registers with an index that is a multiple of 4 (R44, R235, R237). -/
def FmtN.glob (w : FmtN) (n : Nat) (ws ords aos : List Nat) (rmw cOk : Bool) : List Opnd :=
  [if n = 4 then .group w.d.toNat n else .reg9 w.d.toNat n, .reg w.a.toNat 2, .reg w.x.toNat 1,
   memCodes w.w.toNat w.sc.toNat w.or.toNat w.pl.toNat ws 5 rmw ords [0, 1, 2],
   .isTrue (aos.contains w.ao.toNat), .isTrue (w.c == 0 || cOk)] ++ countReg w.c.toNat w.d.toNat n

/-- A compare-and-swap: memory codes in M (R187, R234). -/
def FmtA.cas (w : FmtA) (addr scMax : Nat) : List Opnd :=
  let n := tyRegs w.t.toNat
  let sc := w.m.toNat / 4 % 8
  [.reg9 w.d.toNat n, .reg w.s1.toNat addr, .reg w.s2.toNat n, .reg w.s3.toNat n, w.tyIn [11, 12],
   .isTrue (w.m.toNat / 32 == 0 && decide (1 ≤ sc) && decide (sc ≤ scMax))]

/-- Format E fields that are zero: Q, D, S1, S2 where the flags say so, and IMM below a bound. -/
def FmtE.zeros (w : FmtE) (q d s1 s2 : Bool) (immBelow : Nat) : List Opnd :=
  [.isTrue (!q || w.q == 0), .isTrue (!d || w.d == 0), .isTrue (!s1 || w.s1 == 0), .isTrue (!s2 || w.s2 == 0),
   .isTrue (decide (w.imm.toNat < immBelow))]

/-- What each field of an instruction is (the entries of 03 to 14). Events have no fields. -/
def Instr.opnds : Instr → List Opnd
  | .nop w | .reform w | .exit w | .yield w | .brk w | .beat w => w.blank
  | .bra w => [.zero w.d.toNat, .zero w.s1.toNat, .zero w.k.toNat]
  | .brx w => [.zero w.d.toNat, .vreg w.s1.toNat 2, .isTrue (w.k == 1)]
  | .call w => [.vreg9 w.d.toNat 2, .zero w.s1.toNat, .zero w.k.toNat]
  | .callRegister w => [.vreg9 w.d.toNat 2, .vreg w.s1.toNat 2, .isTrue (w.k == 1 && w.s1.toNat != 255)]
  | .ret w => [.zero w.d.toNat, .vreg w.s1.toNat 2, .isTrue (w.k == 1 && w.s1.toNat != 255)]
  | .trap w | .svc w | .ppt w => [.zero w.d.toNat, .zero w.s1.toNat, .zero w.h.toNat]
  | .glz w => [.isTrue (w.p == 7 && w.n != 0 && decide (w.md.toNat ≤ 1) && w.z == 0), .layers w.msk.toNat]
  | .vote w =>
    let t := w.t.toNat
    [.isTrue (decide (t ≤ 7)), .zero w.s2.toNat, .zero w.s3.toNat, .zero w.m.toNat,
     if t ≤ 2 then .pred w.d.toNat else .reg9 w.d.toNat 1,
     if t = 2 then .reg w.s1.toNat 1 else if t = 5 || t = 6 then .isTrue (w.s1.toNat == 255) else .pred w.s1.toNat]
  | .shfl w =>
    let n := 1 + w.t.toNat / 4 % 2
    [.isTrue (decide (w.t.toNat ≤ 7)), .zero w.m.toNat, .vreg9 w.d.toNat n, .reg w.s1.toNat n, .reg w.s2.toNat 1,
     .reg w.s3.toNat n]
  | .iadd w | .isub w => w.int2 [0, 1, 2, 3, 4, 13] true
  | .imul w => w.int2 [0, 1, 2, 3] true
  | .imulh w => w.int2 [0, 1, 2, 3] false
  | .imad w =>
    let n := tyRegs w.t.toNat
    [.dst w.d.toNat n, .src w.s1.toNat n, .src w.s2.toNat n, .src w.s3.toNat n, w.tyIn [0, 1, 2, 3], mInt w.m.toNat true]
  | .imin w | .imax w => w.int2 [0, 1, 2, 3, 4, 13] false
  | .iabs w => w.int1 [0, 2, 4] true (tyRegs w.t.toNat)
  | .ineg w => w.int1 [0, 1, 2, 3, 4, 13] true (tyRegs w.t.toNat)
  | .iaddi w | .imuli w | .andi w | .ori w | .xori w => w.int true
  | .movi w => w.int false
  | .and w | .or w | .xor w => w.int2 [11, 12] false
  | .not w | .brev w => w.int1 [11, 12] false (tyRegs w.t.toNat)
  | .popc w | .clz w => w.int1 [11, 12] false 1
  | .shl w | .shr w | .sar w => w.shift
  | .fsh w => [.dst w.d.toNat 1, .src w.s1.toNat 1, .src w.s2.toNat 1, .src w.s3.toNat 1, w.tyIn [11], mInt w.m.toNat false]
  | .bfx w =>
    let n := tyRegs w.t.toNat
    [.dst w.d.toNat n, .src w.s1.toNat n, .src w.s2.toNat 1, .zero w.s3.toNat, w.tyIn [0, 1, 2, 3], mInt w.m.toNat false]
  | .bfi w =>
    let n := tyRegs w.t.toNat
    [.dst w.d.toNat n, .src w.s1.toNat n, .src w.s2.toNat n, .src w.s3.toNat 1, w.tyIn [11, 12], mInt w.m.toNat false]
  | .isetp w =>
    let n := tyRegs w.t.toNat
    [.pred w.d.toNat, .src w.s1.toNat n, .src w.s2.toNat n, w.tyIn [0, 1, 2, 3], .zero w.m.toNat,
     .isTrue (decide (w.s3.toNat < 128) && decide (w.s3.toNat % 8 ≤ 5))]
  | .sel w =>
    let n := tyRegs w.t.toNat
    [.dst w.d.toNat n, .src w.s1.toNat n, .src w.s2.toNat n, .pred w.s3.toNat, w.tyIn [11, 12], .zero w.m.toNat]
  | .mov w => w.int1 [11, 12] false (tyRegs w.t.toNat)
  | .lea w => [.dst w.d.toNat 2, .src w.s1.toNat 2, .src w.s2.toNat 1, .src w.s3.toNat 1, w.tyIn [0, 1], .zero w.m.toNat]
  | .idiv w => w.int2 [0, 1, 2, 3] true
  | .irem w => w.int2 [0, 1, 2, 3] false
  | .plop w => [.pred w.d.toNat, .pred w.s1.toNat, .pred w.s2.toNat, .zero w.s3.toNat, .zero w.m.toNat,
                .isTrue (decide (w.t.toNat ≤ 7))]
  | .pmovGet w => [.dst w.d.toNat 1, .zero w.s1.toNat, .zero w.s2.toNat, .zero w.s3.toNat, .zero w.m.toNat, w.tyIn [0]]
  | .pmovSet w => [.zero w.d.toNat, .src w.s1.toNat 1, .zero w.s2.toNat, .zero w.s3.toNat, .zero w.m.toNat, w.tyIn [1]]
  | .pmovNz w => [.pred w.d.toNat, .src w.s1.toNat 1, .zero w.s2.toNat, .zero w.s3.toNat, .zero w.m.toNat, w.tyIn [2]]
  | .pmovSel w => [.dst w.d.toNat 1, .pred w.s1.toNat, .zero w.s2.toNat, .zero w.s3.toNat, .zero w.m.toNat, w.tyIn [3]]
  | .icvt w => [.dst w.d.toNat (tyRegs w.t.toNat), .src w.s1.toNat (tyRegs w.s2.toNat), .isTrue (decide (w.s2.toNat ≤ 3)),
                .zero w.s3.toNat, w.tyIn [0, 1, 2, 3], mInt w.m.toNat true]
  | .idot4 w => [.dst w.d.toNat 1, .src w.s1.toNat 1, .src w.s2.toNat 1, .src w.s3.toNat 1, w.tyIn [4, 13], mInt w.m.toNat true]
  | .movs w =>
    let n := w.s1.toNat
    [.reg9 w.d.toNat (if srWide n then 2 else 1), .isTrue (decide (n ≤ 0x12) && w.t.toNat == (if srWide n then 12 else 11)),
     .zero w.s2.toNat, .zero w.s3.toNat, .zero w.m.toNat]
  | .movsw w =>
    let n := w.d.toNat
    [.reg w.s1.toNat (if srWide n then 2 else 1), .isTrue ((n == 0x0C || n == 0x0F) && w.t.toNat == (if srWide n then 12 else 11)),
     .zero w.s2.toNat, .zero w.s3.toNat, .zero w.m.toNat]
  | .codeSegmentSwitch w =>
    [.reg w.s1.toNat 1, .isTrue (w.d.toNat == 0x11), w.tyIn [11], .zero w.s2.toNat, .zero w.s3.toNat, .zero w.m.toNat]
  | .rget w => [.reg9 w.d.toNat (tyRegs w.t.toNat), .reg w.s1.toNat 1, .reg w.s2.toNat 1, .zero w.s3.toNat,
                w.tyIn [11, 12], .zero w.m.toNat]
  | .rput w => [.zero w.d.toNat, .reg w.s1.toNat (tyRegs w.t.toNat), .reg w.s2.toNat 1, .reg w.s3.toNat 1,
                w.tyIn [11, 12], .zero w.m.toNat]
  | .fadd w | .fsub w | .fmul w => w.fp [5, 6, 7, 8, 9, 10] true 31 true false
  | .ffma w => w.fp [5, 6, 7, 8, 9, 10] true 31 true true
  | .fmin w | .fmax w => w.fp [5, 6, 7, 8, 9, 10] false 15 true false
  | .fdiv w => w.fp [5, 6] true 31 true false
  | .fsqrt w | .frcp w | .frsq w => w.fp [5, 6] true 27 false false
  | .fexp2 w | .flog2 w | .fsin w | .fcos w | .ftanh w => w.fp [5, 7, 8] true 27 false false
  | .fsetp w =>
    let n := tyRegs w.t.toNat
    [.pred w.d.toNat, .src w.s1.toNat n, .src w.s2.toNat n, w.tyIn [5, 6, 7, 8], mFp w.m.toNat false 15,
     .isTrue (decide (w.s3.toNat < 256) && decide (w.s3.toNat % 16 ≤ 13))]
  | .fclassPredicate w => [.pred w.d.toNat, .src w.s1.toNat (tyRegs w.t.toNat), w.tyIn [5, 6, 7, 8], mFp w.m.toNat false 1,
                           .zero w.s3.toNat]
  | .fclassRegister w => [.reg9 w.d.toNat 1, .src w.s1.toNat (tyRegs w.t.toNat), w.tyIn [5, 6, 7, 8], mFp w.m.toNat false 1,
                          .zero w.s2.toNat, .isTrue (w.s3.toNat == 1)]
  | .fcvt w => [.dst w.d.toNat (tyRegs w.t.toNat), .src w.s1.toNat (tyRegs w.s2.toNat), w.tyIn [5, 6, 7, 8],
                .isTrue (decide (5 ≤ w.s2.toNat) && decide (w.s2.toNat ≤ 8)), .zero w.s3.toNat, mFp w.m.toNat true 27]
  | .f2i w => [.dst w.d.toNat (tyRegs w.t.toNat), .src w.s1.toNat (tyRegs w.s2.toNat), w.tyIn [0, 1, 2, 3],
               .isTrue (decide (5 ≤ w.s2.toNat) && decide (w.s2.toNat ≤ 8)), .zero w.s3.toNat, mFp w.m.toNat true 11]
  | .i2f w => [.dst w.d.toNat (tyRegs w.t.toNat), .src w.s1.toNat (tyRegs w.s2.toNat), w.tyIn [5, 6, 7, 8],
               .isTrue (decide (w.s2.toNat ≤ 3)), .zero w.s3.toNat, mFp w.m.toNat true 17]
  | .frnd w => w.fp [5, 6, 7, 8, 9, 10] true 11 false false
  | .fscale w =>
    let n := tyRegs w.t.toNat
    [.dst w.d.toNat n, .src w.s1.toNat n, .src w.s2.toNat 1, .zero w.s3.toNat, w.tyIn [5, 6, 7, 8, 9, 10], mFp w.m.toNat true 27]
  | .fdot2 w => w.fp [9, 10] true 31 true true
  | .fpack w => w.fp [9, 10] true 31 true false
  | .funpk w => [.dst w.d.toNat 1, .src w.s1.toNat 1, .isTrue (decide (w.s2.toNat ≤ 1)), .zero w.s3.toNat, w.tyIn [9, 10],
                 mFp w.m.toNat false 11]
  | .ncvtEnc w => [.reg9 w.d.toNat 1, .src w.s1.toNat 1, .src w.s2.toNat 1, w.tyIn [5], mFp w.m.toNat true 27,
                   .isTrue (w.s3.toNat / 512 == 0 && w.s3.toNat / 16 % 16 == 0 && (w.s3.toNat / 256 % 2 == 0 || w.s3.toNat % 16 == 0))]
  | .ncvtDec w => [.dst w.d.toNat 1, .src w.s1.toNat 1, .src w.s2.toNat 1, w.tyIn [5], mFp w.m.toNat true 17,
                   .isTrue (w.s3.toNat / 512 == 1 && w.s3.toNat / 16 % 16 == 0 && (w.s3.toNat / 256 % 2 == 0 || w.s3.toNat % 16 == 0))]
  | .fmtw w => [.fmt w.d.toNat, .zero w.s1.toNat, .zero w.h.toNat,
                .isTrue (decide (w.imm.toNat < 65536) && descValid w.imm.toNat)]
  | .tget w => [.dst w.d.toNat (tyRegs w.t.toNat), .reg w.s1.toNat (tyRegs w.t.toNat), .zero w.s2.toNat, .layer w.s3.toNat,
                w.tyIn [11, 12], .zero w.m.toNat]
  | .tset w => [.reg9 w.d.toNat (tyRegs w.t.toNat), .src w.s1.toNat (tyRegs w.t.toNat), .zero w.s2.toNat, .layer w.s3.toNat,
                w.tyIn [11, 12], .zero w.m.toNat]
  | .tzero w => [.reg9 w.d.toNat (tyRegs w.t.toNat), .zero w.s1.toNat, .zero w.s2.toNat, .layers w.s3.toNat,
                 w.tyIn [11, 12], .zero w.m.toNat]
  | .tseed w => [.reg9 w.d.toNat (tyRegs w.t.toNat), .src w.s1.toNat 1, .zero w.s2.toNat, .layers w.s3.toNat,
                 w.tyIn [5, 6, 7, 8], .zero w.m.toNat]
  | .gpln w => [.reg9 w.d.toNat (tyRegs w.t.toNat), .reg w.s1.toNat (tyRegs w.t.toNat), .zero w.s2.toNat,
                .isTrue (decide (w.s3.toNat ≤ 4)), w.tyIn [1, 3], .zero w.m.toNat]
  | .ldp w => w.pool [0, 1, 2, 3, 4, 5] [0, 1, 2] true
  | .stp w => w.pool [0, 1, 2, 3, 4, 5] [0, 1, 3] false
  | .ldpf w => w.pool [0, 1, 2, 3] [0, 1, 2] true
  | .stpe w => w.pool [0, 1, 2, 3] [0, 1, 3] false
  | .feset w => [.reg9 w.d.toNat 1, .reg w.a.toNat 1, .reg w.x.toNat 1,
                 memCodes w.w.toNat w.sc.toNat w.or.toNat w.pl.toNat [3] 2 false [0, 1, 3] [0], .zero w.c.toNat]
  | .mcst w => [poolData w.d.toNat (wRegs w.w.toNat), .reg w.a.toNat 1, .group w.x.toNat 2,
                memCodes w.w.toNat w.sc.toNat w.or.toNat w.pl.toNat [0, 1, 2, 3, 4, 5] 2 false [0, 1, 3] [0], .zero w.c.toNat]
  | .atomp w =>
    let n := wRegs w.w.toNat
    [.reg9 w.d.toNat n, .reg w.a.toNat 1, .reg w.x.toNat 1,
     memCodes w.w.toNat w.sc.toNat w.or.toNat w.pl.toNat [2, 3] 2 true [0, 1, 2, 3] [0], .isTrue (decide (w.ao.toNat ≤ 12))]
      ++ countReg w.c.toNat w.d.toNat n
  | .casp w => w.cas 1 2
  | .bari w | .barx w | .bara w => w.sync [4] (.reg9 w.d.toNat 1)
  | .barw w => w.sync [4] (.pred w.d.toNat)
  | .tbar w => [.zero w.d.toNat, .zero w.s1.toNat, .zero w.s2.toNat, .zero w.s3.toNat, .zero w.m.toNat,
                .isTrue (decide (w.t.toNat ≤ 3))]
  | .rngi w => w.sync [5] (.reg9 w.d.toNat 1)
  | .rngwWr w | .rngsWr w => w.sync [1] (.reg9 w.d.toNat 1)
  | .rngwRd w | .rngsRd w => w.sync [0] (.reg9 w.d.toNat 1)
  | .fence w => [.zero w.d.toNat, .zero w.a.toNat, .zero w.x.toNat, .zero w.off.toNat, .zero w.w.toNat, .zero w.pl.toNat,
                 .zero w.c.toNat, .isTrue (decide (1 ≤ w.sc.toNat) && decide (w.sc.toNat ≤ 5) && w.or != 0)]
  | .fenceq w => [.isTrue (decide (2 ≤ w.q.toNat) && decide (w.q.toNat ≤ 5)), .zero w.d.toNat, .zero w.s1.toNat,
                  .zero w.s2.toNat, .isTrue (w.imm != 0)]
  | .sight w => [.zero w.d.toNat, .zero w.a.toNat, .zero w.x.toNat, .zero w.off.toNat, .zero w.w.toNat, .zero w.sc.toNat,
                 .zero w.or.toNat, .zero w.pl.toNat, .zero w.c.toNat]
  | .rmap w => .reg w.s1.toNat 1 :: w.zeros true true false true 64
  | .rmapUnmap w => .isTrue (w.imm.toNat / 64 % 2 == 1) :: w.zeros true true true true 128
  | .rflush w => w.region (w.w == 0 && ((w.sc == 0 && w.or == 0) || (decide (3 ≤ w.sc.toNat) && decide (w.sc.toNat ≤ 5) && w.or == 3)))
  | .rinv w => w.region (decide (w.w.toNat ≤ 1) && w.sc == 0 && w.or == 0)
  | .rpref w => w.region (w.w == 0 && w.sc == 0 && w.or == 0)
  | .atomg w => w.glob (wRegs w.w.toNat) [2, 3] [0, 1, 2, 3] (List.range 13) true true
  | .redg w => w.glob (wRegs w.w.toNat) [2, 3] [0, 3] [0, 1, 2, 3, 4, 5, 6, 7, 9, 10, 11] true false
  | .casg w => w.cas 2 5
  | .ldk w => w.glob 4 [4] [0, 1, 2] [0] false false
  | .sibl w => .zero w.sc.toNat :: w.glob 2 [3] [0] [0, 1, 2] false true
  | .recon w => w.glob 4 [4] [0, 1, 2, 3] (List.range 11) true false
  | .tcopy w | .tstore w => [.reg9 w.d.toNat 1, .reg w.s1.toNat 1, .isTrue (w.s1 != 255)] ++ w.zeros false false false true 3
  | .tgather w | .tscat w => [.reg9 w.d.toNat 1, .reg w.s1.toNat 1, .reg w.s2.toNat 1, .isTrue (w.s1 != 255 && w.s2 != 255)] ++ w.zeros false false false false 3
  | .tstream w | .tdrain w => [.reg w.s1.toNat 1, .reg w.s2.toNat 1, .isTrue (w.s1 != 255 && w.s2 != 255)] ++ w.zeros false true false false 3
  | .tlay w => [.reg9 w.d.toNat 1, .reg w.s1.toNat 1, .reg w.s2.toNat 2] ++ w.zeros true false false false 4
  | .twait w => .reg9 w.d.toNat 1 :: w.zeros false false true true 1
  | .tcancel w => w.zeros false true true true 1
  | .pres w => [.pred w.d.toNat, .reg w.s1.toNat 1, .reg w.s2.toNat 1] ++ w.zeros true false false false (2 ^ 14)
  | .presOrg w => [.reg w.s1.toNat 1, .isTrue (w.imm.toNat / 64 == 256)] ++ w.zeros true true false true (2 ^ 15)
  | .pfree w => w.zeros true true true true 64
  | .easld w => .reg w.s1.toNat 1 :: w.zeros true true false true (2 ^ 19)
  | .mloop w => [.tiles w.acc.toNat w.sa.toNat]
  | .mloops w => [.tiles w.acc.toNat w.sa.toNat, .isTrue (decide (1 ≤ w.ks.toNat) && decide (w.ks.toNat ≤ 32) && decide (w.pat.toNat ≤ 1)),
                  .run w.mv.toNat (4 * w.ks.toNat)]
  | .accal w => [.pred w.d.toNat, .reg w.s1.toNat 2] ++ w.zeros true false false true 1
  | .accfr w => .reg w.s1.toNat 2 :: w.zeros true true false true 1
  | .accz w => w.zeros true true true true (2 ^ 13)
  | .accrd w => [.group w.d.toNat (2 ^ (w.imm.toNat / 32 % 4)), .reg w.s1.toNat 1] ++ w.zeros true false false true 512
  | .accwr w => [.group w.d.toNat (2 ^ (w.imm.toNat / 32 % 4)), .reg w.s1.toNat 1, .isTrue (w.imm.toNat / 128 % 2 == 0)]
      ++ w.zeros true false false true 512
  | .spkc w =>
    let n := if w.m.toNat % 2 == 0 then 2 else 4
    let kind := w.s2.toNat / 16 % 4
    (if n = 2 then [.reg9 w.d.toNat n, .reg w.s1.toNat n] else [.group w.d.toNat n, .group w.s1.toNat n]) ++
    [.zero w.s3.toNat, w.tyIn [11], .isTrue (decide (w.m.toNat ≤ 1)),
     .isTrue (decide (w.s2.toNat < 64) && (kind == 0 || w.s2.toNat % 16 == 0))]
  | .mwait w => [.reg9 w.d.toNat 1, .isTrue (w.imm.toNat / 32 % 2 == 1 || w.imm.toNat == 0)] ++ w.zeros true false true true 64
  | .mclass w => w.zeros true true true true 4
  | .qblk w => [.reg9 w.d.toNat 2, .reg w.s1.toNat 1, .isTrue (decide (w.s2.toNat < 16)), .zero w.s3.toNat, w.tyIn [5], .zero w.m.toNat]
  | .pwr w =>
    let n := 2 ^ (w.imm.toNat / 64 % 4)
    [.reg w.s1.toNat 1, if n ≤ 2 then .reg w.s2.toNat n else .group w.s2.toNat n] ++ w.zeros true true false false 256
  | .mstat w => .reg9 w.d.toNat 2 :: w.zeros true false true true 2
  | .spawn w =>
    let tr := w.imm.toNat % 2 == 1
    let ch := w.imm.toNat / 4 % 2 == 1
    [if tr then .pred w.d.toNat else .zero w.d.toNat, if ch then .zero w.s1.toNat else .reg w.s1.toNat 2,
     .group w.s2.toNat 4, .isTrue (!(tr && ch) && (ch || w.imm.toNat / 8 == 0))] ++ w.zeros true false false false 512
  | .launch w => [.reg9 w.d.toNat 1, .reg w.s1.toNat 2] ++ w.zeros true false false true 1
  | .park w => [.reg w.s1.toNat 1, .isTrue (w.s2.toNat % 8 == 0), .run w.s2.toNat 16] ++ w.zeros true true false false (2 ^ 16)
  | .tqpop w | .steal w => [.group w.d.toNat 8, .reg w.s1.toNat 2] ++ w.zeros true false false true 2
  | .joinw w => [.reg9 w.d.toNat 1, .reg w.s1.toNat 1] ++ w.zeros true false false true 1
  | .chcfg w => [.pred w.d.toNat, .reg w.s1.toNat 1] ++ w.zeros true false false true 64
  | .chcfgClear w => [.pred w.d.toNat, .isTrue (w.imm.toNat / 64 % 2 == 1)] ++ w.zeros true false true true 128
  | .send w =>
    let n := w.imm.toNat / 64 % 8
    let i := w.s1.toNat
    [if w.imm.toNat / 512 % 2 == 1 then .pred w.d.toNat else .zero w.d.toNat,
     .isTrue (decide (i < 255) && i % 2 == 0 && (decide (i < 192) || decide (i + 2 * n ≤ 255)) && n != 0),
     .isTrue (decide (w.imm.toNat / 1024 % 8 ≤ 5) && (w.imm.toNat / 1024 % 8 != 0) == (w.imm.toNat / 8192 % 2 == 1))]
      ++ (if i < 192 then [.run i (2 * n)] else []) ++ w.zeros true false false true (2 ^ 14)
  | .recv w =>
    let i := w.imm.toNat
    [.group w.d.toNat 8, .run w.d.toNat 16,
     .isTrue (i / 64 % 2 == 0 || decide (i % 64 ≤ 15)), .isTrue (i / 128 % 2 == 1 || i / 256 % 8 == 0),
     .isTrue (decide (i / 2048 % 8 ≤ 5) && (i / 2048 % 8 != 0) == (i / 16384 % 2 == 1))]
      ++ w.zeros true false true true (2 ^ 15)
  | .quiet w => .pred w.d.toNat :: w.zeros true false true true 8
  | .qpoll w => .reg9 w.d.toNat 1 :: w.zeros true false true true 1
  | .msgh w => [.pred w.d.toNat, .reg w.s1.toNat 1] ++ w.zeros true false false true 16
  | .msghOff w => [.pred w.d.toNat, .isTrue (w.imm.toNat / 16 % 2 == 1)] ++ w.zeros true false true true 32
  | .coll w => [.reg9 w.d.toNat 1, .reg w.s1.toNat 1, .isTrue (decide (w.q.toNat ≤ 3))] ++ w.zeros false false false true 1
  | .cwait w => [.reg9 w.d.toNat 1, .isTrue (decide (w.q.toNat ≤ 3))] ++ w.zeros false false true true 1
  | .lossn w => .group w.d.toNat 4 :: w.zeros true false true true 16
  | .tlbiVa w => [.reg w.s1.toNat 1, .reg w.s2.toNat 2] ++ w.zeros true true false false 1
  | .tlbiAsid w => [.reg w.s1.toNat 1, .isTrue (w.imm.toNat % 4 == 1)] ++ w.zeros true true false true 4
  | .tlbiAll w => .isTrue (w.imm.toNat % 4 == 2) :: w.zeros true true true true 4
  | .capr w => [.group w.d.toNat 4, .reg w.s1.toNat 1] ++ w.zeros true false false true 1
  | .statr w => [.reg9 w.d.toNat 2, .reg w.s1.toNat 1] ++ w.zeros true false false true (2 ^ 16)
  | .statw w => [.reg w.s1.toNat 1, .reg w.s2.toNat 2, .isTrue (w.imm.toNat != 0x12)] ++ w.zeros true true false false (2 ^ 16)
  | .halt w => [.reg w.s1.toNat 1, .reg w.s2.toNat 2, .isTrue (w.imm.toNat == 0x12)] ++ w.zeros true true false false (2 ^ 16)
  | .wdog w => [.reg9 w.d.toNat 2, .reg w.s1.toNat 1, .reg w.s2.toNat 2] ++ w.zeros true false false false 1
  | .slogr w => [.group w.d.toNat 8, .reg w.s1.toNat 1, .reg w.s2.toNat 1] ++ w.zeros true false false false 1
  | .slogpReplay w => [.reg w.s1.toNat 1, .reg w.s2.toNat 1] ++ w.zeros true true false false 1
  | .slogpDrop w => [.reg w.s1.toNat 1, .reg w.s2.toNat 1, .isTrue (w.imm.toNat == 1)] ++ w.zeros true true false false 4
  | .slogpAll w => [.reg w.s1.toNat 1, .reg w.s2.toNat 1, .isTrue (w.imm.toNat == 2)] ++ w.zeros true true false false 4
  | .eret w => w.zeros true true true true 1
  | .eretSkip w => .isTrue (w.imm.toNat == 1) :: w.zeros true true true true 4
  | .eretPc w => [.reg w.s1.toNat 2, .isTrue (w.imm.toNat == 2)] ++ w.zeros true true false true 4
  | .ctxsv w => [.reg9 w.d.toNat 1, .reg w.s1.toNat 1, .reg w.s2.toNat 2] ++ w.zeros true false false false (2 ^ 19)
  | .ctxld w => [.reg9 w.d.toNat 1, .reg w.s1.toNat 2, .reg w.s2.toNat 2] ++ w.zeros true false false false 1
  | .preemptStop w => [.reg9 w.d.toNat 1, .reg w.s1.toNat 1] ++ w.zeros true false false true 1
  | .preemptForce w => [.reg9 w.d.toNat 1, .reg w.s1.toNat 1, .isTrue (w.imm.toNat == 1)] ++ w.zeros true false false true 4
  | .preemptResume w => [.reg9 w.d.toNat 1, .reg w.s1.toNat 1, .isTrue (w.imm.toNat == 2)] ++ w.zeros true false false true 4
  | _ => []

/-- Every field of the instruction passes the checks that its bits decide. -/
def Instr.wellFormed (i : Instr) : Bool := i.opnds.all Opnd.ok

/-- Every field passes the checks that need the team: `a` registers, depth `d`, glazed set `g` (R56 row 4). -/
def Instr.allocated (i : Instr) (a d : Nat) (g : List Nat) : Bool := i.opnds.all (Opnd.allocated a d g)

end Sys2Proof
end

