-- ==== Sys2Proof/Decode.lean ====
section
/-! DEFINITION. Decoding and encoding of instruction words (02_encoding.md R32 to R42, R52 to R56). `decode` is total:
it answers an instruction, or says which check of R54 the word fails. -/

namespace Sys2Proof

/-- Bits [lo + n - 1 : lo] of a word. -/
def fieldOf (w : DWord) (lo n : Nat) : BitVec n := BitVec.ofNat n (w.toNat / 2 ^ lo)

/-- Append an `n`-bit field below the fields already joined. -/
def joinField (acc : Nat) {n : Nat} (f : BitVec n) : Nat := acc * 2 ^ n + f.toNat

/-- The fields of format A (R34). -/
def splitA (w : DWord) : FmtA :=
  { p := fieldOf w 52 4, d := fieldOf w 43 9, s1 := fieldOf w 33 10, s2 := fieldOf w 23 10, s3 := fieldOf w 13 10, t := fieldOf w 8 5, m := fieldOf w 0 8 }

/-- The word of opcode `op` with the given fields. -/
def joinA (op : Nat) (w : FmtA) : DWord :=
  BitVec.ofNat 64 (joinField (joinField (joinField (joinField (joinField (joinField (joinField (op) w.p) w.d) w.s1) w.s2) w.s3) w.t) w.m)

/-- The fields of format I (R35). -/
def splitI (w : DWord) : FmtI :=
  { p := fieldOf w 52 4, d := fieldOf w 43 9, s1 := fieldOf w 33 10, h := fieldOf w 32 1, imm := fieldOf w 0 32 }

/-- The word of opcode `op` with the given fields. -/
def joinI (op : Nat) (w : FmtI) : DWord :=
  BitVec.ofNat 64 (joinField (joinField (joinField (joinField (joinField (op) w.p) w.d) w.s1) w.h) w.imm)

/-- The fields of format M (R36). -/
def splitM (w : DWord) : FmtM :=
  { p := fieldOf w 52 4, d := fieldOf w 43 9, a := fieldOf w 33 10, x := fieldOf w 23 10, off := fieldOf w 11 12, w := fieldOf w 8 3, sc := fieldOf w 5 3, or := fieldOf w 3 2, pl := fieldOf w 1 2, c := fieldOf w 0 1 }

/-- The word of opcode `op` with the given fields. -/
def joinM (op : Nat) (w : FmtM) : DWord :=
  BitVec.ofNat 64 (joinField (joinField (joinField (joinField (joinField (joinField (joinField (joinField (joinField (joinField (op) w.p) w.d) w.a) w.x) w.off) w.w) w.sc) w.or) w.pl) w.c)

/-- The fields of format N (R38). -/
def splitN (w : DWord) : FmtN :=
  { p := fieldOf w 52 4, d := fieldOf w 43 9, a := fieldOf w 33 10, x := fieldOf w 23 10, off := fieldOf w 15 8, ao := fieldOf w 11 4, w := fieldOf w 8 3, sc := fieldOf w 5 3, or := fieldOf w 3 2, pl := fieldOf w 1 2, c := fieldOf w 0 1 }

/-- The word of opcode `op` with the given fields. -/
def joinN (op : Nat) (w : FmtN) : DWord :=
  BitVec.ofNat 64 (joinField (joinField (joinField (joinField (joinField (joinField (joinField (joinField (joinField (joinField (joinField (op) w.p) w.d) w.a) w.x) w.off) w.ao) w.w) w.sc) w.or) w.pl) w.c)

/-- The fields of format B (R39). -/
def splitB (w : DWord) : FmtB :=
  { p := fieldOf w 52 4, d := fieldOf w 43 9, s1 := fieldOf w 33 10, k := fieldOf w 32 1, off := fieldOf w 0 32 }

/-- The word of opcode `op` with the given fields. -/
def joinB (op : Nat) (w : FmtB) : DWord :=
  BitVec.ofNat 64 (joinField (joinField (joinField (joinField (joinField (op) w.p) w.d) w.s1) w.k) w.off)

/-- The fields of format G (R40). -/
def splitG (w : DWord) : FmtG :=
  { p := fieldOf w 52 4, n := fieldOf w 48 4, msk := fieldOf w 44 4, md := fieldOf w 42 2, z := fieldOf w 0 42 }

/-- The word of opcode `op` with the given fields. -/
def joinG (op : Nat) (w : FmtG) : DWord :=
  BitVec.ofNat 64 (joinField (joinField (joinField (joinField (joinField (op) w.p) w.n) w.msk) w.md) w.z)

/-- The fields of format E (R41). -/
def splitE (w : DWord) : FmtE :=
  { p := fieldOf w 52 4, q := fieldOf w 48 4, d := fieldOf w 39 9, s1 := fieldOf w 29 10, s2 := fieldOf w 19 10, imm := fieldOf w 0 19 }

/-- The word of opcode `op` with the given fields. -/
def joinE (op : Nat) (w : FmtE) : DWord :=
  BitVec.ofNat 64 (joinField (joinField (joinField (joinField (joinField (joinField (op) w.p) w.q) w.d) w.s1) w.s2) w.imm)

/-- The fields of format X (R42). -/
def splitX (w : DWord) : FmtX :=
  { p := fieldOf w 52 4, acc := fieldOf w 46 6, sa := fieldOf w 40 6, eb := fieldOf w 30 10, ks := fieldOf w 18 12, ia := fieldOf w 9 9, ib := fieldOf w 0 9 }

/-- The word of opcode `op` with the given fields. -/
def joinX (op : Nat) (w : FmtX) : DWord :=
  BitVec.ofNat 64 (joinField (joinField (joinField (joinField (joinField (joinField (joinField (op) w.p) w.acc) w.sa) w.eb) w.ks) w.ia) w.ib)

/-- The fields of format XS (R42). -/
def splitXS (w : DWord) : FmtXS :=
  { p := fieldOf w 52 4, acc := fieldOf w 46 6, sa := fieldOf w 40 6, eb := fieldOf w 30 10, ks := fieldOf w 22 8, mv := fieldOf w 14 8, pat := fieldOf w 12 2, ia := fieldOf w 6 6, ib := fieldOf w 0 6 }

/-- The word of opcode `op` with the given fields. -/
def joinXS (op : Nat) (w : FmtXS) : DWord :=
  BitVec.ofNat 64 (joinField (joinField (joinField (joinField (joinField (joinField (joinField (joinField (joinField (op) w.p) w.acc) w.sa) w.eb) w.ks) w.mv) w.pat) w.ia) w.ib)

/-- What a word reads as: an instruction whose fields pass the checks their bits decide; a word of an unassigned opcode,
or a GLZ with P other than 0x7 (R54, R56 row 2); or an assigned form with a bad field (R56 row 4), privileged or not. -/
inductive Decoded where
  | ok (i : Instr)
  | illegalInstruction
  | illegalOperand (privileged : Bool)
  deriving DecidableEq, Repr

/-- The forms that only system level may issue (R53, R54). -/
def opPrivileged (op : Nat) : Bool := op == 0xE0 || (decide (0xE2 ≤ op) && decide (op ≤ 0xEA))

/-- Assigned opcodes (R52, R54). -/
def opAssigned (op : Nat) : Bool :=
  decide (op ≤ 0x39) || (decide (0x40 ≤ op) && decide (op ≤ 0x5A)) || (decide (0x60 ≤ op) && decide (op ≤ 0x64)) ||
  (decide (0x70 ≤ op) && decide (op ≤ 0x87) && op != 0x78) || (decide (0x90 ≤ op) && decide (op ≤ 0x95)) ||
  (decide (0xA0 ≤ op) && decide (op ≤ 0xA8)) || (decide (0xB0 ≤ op) && decide (op ≤ 0xBF)) ||
  (decide (0xC0 ≤ op) && decide (op ≤ 0xC5)) || (decide (0xD0 ≤ op) && decide (op ≤ 0xD8)) ||
  (decide (0xE0 ≤ op) && decide (op ≤ 0xEA))

/-- The opcode byte of a word (R32). -/
def opcodeOf (w : DWord) : Nat := w.toNat / 2 ^ 56

/-- The instruction an opcode's word stands for, before its fields are checked; none for a reserved subfunction and for
unassigned opcodes (R52, R53 and the entries). -/
def readWord (w : DWord) : Option Instr :=
  match opcodeOf w with
  | 0x00 => some (.nop (splitA w))
  | 0x01 => some (.bra (splitB w))
  | 0x02 => some (.brx (splitB w))
  | 0x03 => (let f := splitB w; match f.k.toNat with | 0 => some (.call f) | 1 => some (.callRegister f) | _ => none)
  | 0x04 => some (.ret (splitB w))
  | 0x05 => some (.reform (splitA w))
  | 0x06 => some (.exit (splitA w))
  | 0x07 => some (.trap (splitI w))
  | 0x08 => some (.yield (splitA w))
  | 0x09 => some (.beat (splitA w))
  | 0x0A => some (.glz (splitG w))
  | 0x0B => some (.ppt (splitI w))
  | 0x0C => some (.brk (splitA w))
  | 0x0D => some (.svc (splitI w))
  | 0x0E => some (.vote (splitA w))
  | 0x0F => some (.shfl (splitA w))
  | 0x10 => some (.iadd (splitA w))
  | 0x11 => some (.isub (splitA w))
  | 0x12 => some (.imul (splitA w))
  | 0x13 => some (.imulh (splitA w))
  | 0x14 => some (.imad (splitA w))
  | 0x15 => some (.iaddi (splitI w))
  | 0x16 => some (.imuli (splitI w))
  | 0x17 => some (.imin (splitA w))
  | 0x18 => some (.imax (splitA w))
  | 0x19 => some (.iabs (splitA w))
  | 0x1A => some (.ineg (splitA w))
  | 0x1B => some (.and (splitA w))
  | 0x1C => some (.or (splitA w))
  | 0x1D => some (.xor (splitA w))
  | 0x1E => some (.not (splitA w))
  | 0x1F => some (.andi (splitI w))
  | 0x20 => some (.ori (splitI w))
  | 0x21 => some (.xori (splitI w))
  | 0x22 => some (.shl (splitA w))
  | 0x23 => some (.shr (splitA w))
  | 0x24 => some (.sar (splitA w))
  | 0x25 => some (.fsh (splitA w))
  | 0x26 => some (.bfx (splitA w))
  | 0x27 => some (.bfi (splitA w))
  | 0x28 => some (.popc (splitA w))
  | 0x29 => some (.clz (splitA w))
  | 0x2A => some (.brev (splitA w))
  | 0x2B => some (.isetp (splitA w))
  | 0x2C => some (.sel (splitA w))
  | 0x2D => some (.movi (splitI w))
  | 0x2E => some (.mov (splitA w))
  | 0x2F => some (.lea (splitA w))
  | 0x30 => some (.idiv (splitA w))
  | 0x31 => some (.irem (splitA w))
  | 0x32 => some (.plop (splitA w))
  | 0x33 => (let f := splitA w; match f.t.toNat with | 0 => some (.pmovGet f) | 1 => some (.pmovSet f) | 2 => some (.pmovNz f) | 3 => some (.pmovSel f) | _ => none)
  | 0x34 => some (.icvt (splitA w))
  | 0x35 => some (.idot4 (splitA w))
  | 0x36 => some (.movs (splitA w))
  | 0x37 => (let f := splitA w; match if f.d.toNat = 0x11 then 1 else 0 with | 0 => some (.movsw f) | 1 => some (.codeSegmentSwitch f) | _ => none)
  | 0x38 => some (.rget (splitA w))
  | 0x39 => some (.rput (splitA w))
  | 0x40 => some (.fadd (splitA w))
  | 0x41 => some (.fsub (splitA w))
  | 0x42 => some (.fmul (splitA w))
  | 0x43 => some (.ffma (splitA w))
  | 0x44 => some (.fmin (splitA w))
  | 0x45 => some (.fmax (splitA w))
  | 0x46 => some (.fdiv (splitA w))
  | 0x47 => some (.fsqrt (splitA w))
  | 0x48 => some (.frcp (splitA w))
  | 0x49 => some (.frsq (splitA w))
  | 0x4A => some (.fexp2 (splitA w))
  | 0x4B => some (.flog2 (splitA w))
  | 0x4C => some (.fsin (splitA w))
  | 0x4D => some (.fcos (splitA w))
  | 0x4E => some (.ftanh (splitA w))
  | 0x4F => some (.fsetp (splitA w))
  | 0x50 => (let f := splitA w; match f.s3.toNat with | 0 => some (.fclassPredicate f) | 1 => some (.fclassRegister f) | _ => none)
  | 0x51 => some (.fcvt (splitA w))
  | 0x52 => some (.f2i (splitA w))
  | 0x53 => some (.i2f (splitA w))
  | 0x54 => some (.frnd (splitA w))
  | 0x55 => some (.fscale (splitA w))
  | 0x56 => some (.fdot2 (splitA w))
  | 0x57 => some (.fpack (splitA w))
  | 0x58 => some (.funpk (splitA w))
  | 0x59 => (let f := splitA w; match f.s3.toNat / 512 with | 0 => some (.ncvtEnc f) | 1 => some (.ncvtDec f) | _ => none)
  | 0x5A => some (.fmtw (splitI w))
  | 0x60 => some (.tget (splitA w))
  | 0x61 => some (.tset (splitA w))
  | 0x62 => some (.tzero (splitA w))
  | 0x63 => some (.tseed (splitA w))
  | 0x64 => some (.gpln (splitA w))
  | 0x70 => some (.ldp (splitM w))
  | 0x71 => some (.stp (splitM w))
  | 0x72 => some (.ldpf (splitM w))
  | 0x73 => some (.stpe (splitM w))
  | 0x74 => some (.feset (splitM w))
  | 0x75 => some (.atomp (splitN w))
  | 0x76 => some (.casp (splitA w))
  | 0x77 => some (.mcst (splitM w))
  | 0x79 => some (.barx (splitM w))
  | 0x7A => some (.bara (splitM w))
  | 0x7B => some (.barw (splitM w))
  | 0x7C => some (.tbar (splitA w))
  | 0x7D => some (.bari (splitM w))
  | 0x7E => (let f := splitM w; match f.w.toNat with | 0 => some (.rngwRd f) | 1 => some (.rngwWr f) | _ => none)
  | 0x7F => (let f := splitM w; match f.w.toNat with | 0 => some (.rngsRd f) | 1 => some (.rngsWr f) | _ => none)
  | 0x80 => some (.rngi (splitM w))
  | 0x81 => some (.fence (splitM w))
  | 0x82 => some (.fenceq (splitE w))
  | 0x83 => some (.sight (splitM w))
  | 0x84 => (let f := splitE w; match f.imm.toNat / 64 % 2 with | 0 => some (.rmap f) | 1 => some (.rmapUnmap f) | _ => none)
  | 0x85 => some (.rflush (splitM w))
  | 0x86 => some (.rinv (splitM w))
  | 0x87 => some (.rpref (splitM w))
  | 0x90 => some (.atomg (splitN w))
  | 0x91 => some (.casg (splitA w))
  | 0x92 => some (.ldk (splitN w))
  | 0x93 => some (.sibl (splitN w))
  | 0x94 => some (.recon (splitN w))
  | 0x95 => some (.redg (splitN w))
  | 0xA0 => some (.tcopy (splitE w))
  | 0xA1 => some (.tstore (splitE w))
  | 0xA2 => some (.tgather (splitE w))
  | 0xA3 => some (.tscat (splitE w))
  | 0xA4 => some (.tlay (splitE w))
  | 0xA5 => some (.tstream (splitE w))
  | 0xA6 => some (.tdrain (splitE w))
  | 0xA7 => some (.twait (splitE w))
  | 0xA8 => some (.tcancel (splitE w))
  | 0xB0 => (let f := splitE w; match f.imm.toNat / 16384 % 2 with | 0 => some (.pres f) | 1 => some (.presOrg f) | _ => none)
  | 0xB1 => some (.pfree (splitE w))
  | 0xB2 => some (.easld (splitE w))
  | 0xB3 => some (.mloop (splitX w))
  | 0xB4 => some (.mloops (splitXS w))
  | 0xB5 => some (.accal (splitE w))
  | 0xB6 => some (.accfr (splitE w))
  | 0xB7 => some (.accz (splitE w))
  | 0xB8 => some (.accrd (splitE w))
  | 0xB9 => some (.accwr (splitE w))
  | 0xBA => some (.spkc (splitA w))
  | 0xBB => some (.mwait (splitE w))
  | 0xBC => some (.mclass (splitE w))
  | 0xBD => some (.qblk (splitA w))
  | 0xBE => some (.pwr (splitE w))
  | 0xBF => some (.mstat (splitE w))
  | 0xC0 => some (.spawn (splitE w))
  | 0xC1 => some (.launch (splitE w))
  | 0xC2 => some (.park (splitE w))
  | 0xC3 => some (.tqpop (splitE w))
  | 0xC4 => some (.joinw (splitE w))
  | 0xC5 => some (.steal (splitE w))
  | 0xD0 => (let f := splitE w; match f.imm.toNat / 64 % 2 with | 0 => some (.chcfg f) | 1 => some (.chcfgClear f) | _ => none)
  | 0xD1 => some (.send (splitE w))
  | 0xD2 => some (.recv (splitE w))
  | 0xD3 => some (.quiet (splitE w))
  | 0xD4 => some (.qpoll (splitE w))
  | 0xD5 => (let f := splitE w; match f.imm.toNat / 16 % 2 with | 0 => some (.msgh f) | 1 => some (.msghOff f) | _ => none)
  | 0xD6 => some (.coll (splitE w))
  | 0xD7 => some (.cwait (splitE w))
  | 0xD8 => some (.lossn (splitE w))
  | 0xE0 => (let f := splitE w; match f.imm.toNat % 4 with | 0 => some (.tlbiVa f) | 1 => some (.tlbiAsid f) | 2 => some (.tlbiAll f) | _ => none)
  | 0xE1 => some (.capr (splitE w))
  | 0xE2 => some (.statr (splitE w))
  | 0xE3 => (let f := splitE w; match if f.imm.toNat % 65536 = 0x12 then 1 else 0 with | 0 => some (.statw f) | 1 => some (.halt f) | _ => none)
  | 0xE4 => some (.wdog (splitE w))
  | 0xE5 => some (.slogr (splitE w))
  | 0xE6 => (let f := splitE w; match f.imm.toNat % 4 with | 0 => some (.slogpReplay f) | 1 => some (.slogpDrop f) | 2 => some (.slogpAll f) | _ => none)
  | 0xE7 => (let f := splitE w; match f.imm.toNat % 4 with | 0 => some (.eret f) | 1 => some (.eretSkip f) | 2 => some (.eretPc f) | _ => none)
  | 0xE8 => some (.ctxsv (splitE w))
  | 0xE9 => some (.ctxld (splitE w))
  | 0xEA => (let f := splitE w; match f.imm.toNat % 4 with | 0 => some (.preemptStop f) | 1 => some (.preemptForce f) | 2 => some (.preemptResume f) | _ => none)
  | _ => none

/-- MOVSW to sr.cseg is privileged although its opcode is not (R125). -/
def wordPrivileged (w : DWord) : Bool :=
  opPrivileged (opcodeOf w) || (opcodeOf w == 0x37 && w.toNat / 2 ^ 43 % 512 == 0x11)

/-- Decode one instruction word (R54, R56). -/
def decode (w : DWord) : Decoded :=
  if !opAssigned (opcodeOf w) || (opcodeOf w == 0x0A && w.toNat / 2 ^ 52 % 16 != 7) then .illegalInstruction
  else
    match readWord w with
    | some i => if i.wellFormed then .ok i else .illegalOperand (wordPrivileged w)
    | none => .illegalOperand (wordPrivileged w)

/-- The word of an instruction; an event has none. -/
def encode : Instr → Option DWord
  | .nop w => some (joinA 0x00 w)
  | .bra w => some (joinB 0x01 w)
  | .brx w => some (joinB 0x02 w)
  | .call w => some (joinB 0x03 w)
  | .callRegister w => some (joinB 0x03 w)
  | .ret w => some (joinB 0x04 w)
  | .reform w => some (joinA 0x05 w)
  | .exit w => some (joinA 0x06 w)
  | .trap w => some (joinI 0x07 w)
  | .yield w => some (joinA 0x08 w)
  | .beat w => some (joinA 0x09 w)
  | .glz w => some (joinG 0x0A w)
  | .ppt w => some (joinI 0x0B w)
  | .brk w => some (joinA 0x0C w)
  | .svc w => some (joinI 0x0D w)
  | .vote w => some (joinA 0x0E w)
  | .shfl w => some (joinA 0x0F w)
  | .iadd w => some (joinA 0x10 w)
  | .isub w => some (joinA 0x11 w)
  | .imul w => some (joinA 0x12 w)
  | .imulh w => some (joinA 0x13 w)
  | .imad w => some (joinA 0x14 w)
  | .iaddi w => some (joinI 0x15 w)
  | .imuli w => some (joinI 0x16 w)
  | .imin w => some (joinA 0x17 w)
  | .imax w => some (joinA 0x18 w)
  | .iabs w => some (joinA 0x19 w)
  | .ineg w => some (joinA 0x1A w)
  | .and w => some (joinA 0x1B w)
  | .or w => some (joinA 0x1C w)
  | .xor w => some (joinA 0x1D w)
  | .not w => some (joinA 0x1E w)
  | .andi w => some (joinI 0x1F w)
  | .ori w => some (joinI 0x20 w)
  | .xori w => some (joinI 0x21 w)
  | .shl w => some (joinA 0x22 w)
  | .shr w => some (joinA 0x23 w)
  | .sar w => some (joinA 0x24 w)
  | .fsh w => some (joinA 0x25 w)
  | .bfx w => some (joinA 0x26 w)
  | .bfi w => some (joinA 0x27 w)
  | .popc w => some (joinA 0x28 w)
  | .clz w => some (joinA 0x29 w)
  | .brev w => some (joinA 0x2A w)
  | .isetp w => some (joinA 0x2B w)
  | .sel w => some (joinA 0x2C w)
  | .movi w => some (joinI 0x2D w)
  | .mov w => some (joinA 0x2E w)
  | .lea w => some (joinA 0x2F w)
  | .idiv w => some (joinA 0x30 w)
  | .irem w => some (joinA 0x31 w)
  | .plop w => some (joinA 0x32 w)
  | .pmovGet w => some (joinA 0x33 w)
  | .pmovSet w => some (joinA 0x33 w)
  | .pmovNz w => some (joinA 0x33 w)
  | .pmovSel w => some (joinA 0x33 w)
  | .icvt w => some (joinA 0x34 w)
  | .idot4 w => some (joinA 0x35 w)
  | .movs w => some (joinA 0x36 w)
  | .movsw w => some (joinA 0x37 w)
  | .codeSegmentSwitch w => some (joinA 0x37 w)
  | .rget w => some (joinA 0x38 w)
  | .rput w => some (joinA 0x39 w)
  | .fadd w => some (joinA 0x40 w)
  | .fsub w => some (joinA 0x41 w)
  | .fmul w => some (joinA 0x42 w)
  | .ffma w => some (joinA 0x43 w)
  | .fmin w => some (joinA 0x44 w)
  | .fmax w => some (joinA 0x45 w)
  | .fdiv w => some (joinA 0x46 w)
  | .fsqrt w => some (joinA 0x47 w)
  | .frcp w => some (joinA 0x48 w)
  | .frsq w => some (joinA 0x49 w)
  | .fexp2 w => some (joinA 0x4A w)
  | .flog2 w => some (joinA 0x4B w)
  | .fsin w => some (joinA 0x4C w)
  | .fcos w => some (joinA 0x4D w)
  | .ftanh w => some (joinA 0x4E w)
  | .fsetp w => some (joinA 0x4F w)
  | .fclassPredicate w => some (joinA 0x50 w)
  | .fclassRegister w => some (joinA 0x50 w)
  | .fcvt w => some (joinA 0x51 w)
  | .f2i w => some (joinA 0x52 w)
  | .i2f w => some (joinA 0x53 w)
  | .frnd w => some (joinA 0x54 w)
  | .fscale w => some (joinA 0x55 w)
  | .fdot2 w => some (joinA 0x56 w)
  | .fpack w => some (joinA 0x57 w)
  | .funpk w => some (joinA 0x58 w)
  | .ncvtEnc w => some (joinA 0x59 w)
  | .ncvtDec w => some (joinA 0x59 w)
  | .fmtw w => some (joinI 0x5A w)
  | .tget w => some (joinA 0x60 w)
  | .tset w => some (joinA 0x61 w)
  | .tzero w => some (joinA 0x62 w)
  | .tseed w => some (joinA 0x63 w)
  | .gpln w => some (joinA 0x64 w)
  | .ldp w => some (joinM 0x70 w)
  | .stp w => some (joinM 0x71 w)
  | .ldpf w => some (joinM 0x72 w)
  | .stpe w => some (joinM 0x73 w)
  | .feset w => some (joinM 0x74 w)
  | .atomp w => some (joinN 0x75 w)
  | .casp w => some (joinA 0x76 w)
  | .mcst w => some (joinM 0x77 w)
  | .barx w => some (joinM 0x79 w)
  | .bara w => some (joinM 0x7A w)
  | .barw w => some (joinM 0x7B w)
  | .tbar w => some (joinA 0x7C w)
  | .bari w => some (joinM 0x7D w)
  | .rngwRd w => some (joinM 0x7E w)
  | .rngwWr w => some (joinM 0x7E w)
  | .rngsRd w => some (joinM 0x7F w)
  | .rngsWr w => some (joinM 0x7F w)
  | .rngi w => some (joinM 0x80 w)
  | .fence w => some (joinM 0x81 w)
  | .fenceq w => some (joinE 0x82 w)
  | .sight w => some (joinM 0x83 w)
  | .rmap w => some (joinE 0x84 w)
  | .rmapUnmap w => some (joinE 0x84 w)
  | .rflush w => some (joinM 0x85 w)
  | .rinv w => some (joinM 0x86 w)
  | .rpref w => some (joinM 0x87 w)
  | .atomg w => some (joinN 0x90 w)
  | .casg w => some (joinA 0x91 w)
  | .ldk w => some (joinN 0x92 w)
  | .sibl w => some (joinN 0x93 w)
  | .recon w => some (joinN 0x94 w)
  | .redg w => some (joinN 0x95 w)
  | .tcopy w => some (joinE 0xA0 w)
  | .tstore w => some (joinE 0xA1 w)
  | .tgather w => some (joinE 0xA2 w)
  | .tscat w => some (joinE 0xA3 w)
  | .tlay w => some (joinE 0xA4 w)
  | .tstream w => some (joinE 0xA5 w)
  | .tdrain w => some (joinE 0xA6 w)
  | .twait w => some (joinE 0xA7 w)
  | .tcancel w => some (joinE 0xA8 w)
  | .pres w => some (joinE 0xB0 w)
  | .presOrg w => some (joinE 0xB0 w)
  | .pfree w => some (joinE 0xB1 w)
  | .easld w => some (joinE 0xB2 w)
  | .mloop w => some (joinX 0xB3 w)
  | .mloops w => some (joinXS 0xB4 w)
  | .accal w => some (joinE 0xB5 w)
  | .accfr w => some (joinE 0xB6 w)
  | .accz w => some (joinE 0xB7 w)
  | .accrd w => some (joinE 0xB8 w)
  | .accwr w => some (joinE 0xB9 w)
  | .spkc w => some (joinA 0xBA w)
  | .mwait w => some (joinE 0xBB w)
  | .mclass w => some (joinE 0xBC w)
  | .qblk w => some (joinA 0xBD w)
  | .pwr w => some (joinE 0xBE w)
  | .mstat w => some (joinE 0xBF w)
  | .spawn w => some (joinE 0xC0 w)
  | .launch w => some (joinE 0xC1 w)
  | .park w => some (joinE 0xC2 w)
  | .tqpop w => some (joinE 0xC3 w)
  | .joinw w => some (joinE 0xC4 w)
  | .steal w => some (joinE 0xC5 w)
  | .chcfg w => some (joinE 0xD0 w)
  | .chcfgClear w => some (joinE 0xD0 w)
  | .send w => some (joinE 0xD1 w)
  | .recv w => some (joinE 0xD2 w)
  | .quiet w => some (joinE 0xD3 w)
  | .qpoll w => some (joinE 0xD4 w)
  | .msgh w => some (joinE 0xD5 w)
  | .msghOff w => some (joinE 0xD5 w)
  | .coll w => some (joinE 0xD6 w)
  | .cwait w => some (joinE 0xD7 w)
  | .lossn w => some (joinE 0xD8 w)
  | .tlbiVa w => some (joinE 0xE0 w)
  | .tlbiAsid w => some (joinE 0xE0 w)
  | .tlbiAll w => some (joinE 0xE0 w)
  | .capr w => some (joinE 0xE1 w)
  | .statr w => some (joinE 0xE2 w)
  | .statw w => some (joinE 0xE3 w)
  | .halt w => some (joinE 0xE3 w)
  | .wdog w => some (joinE 0xE4 w)
  | .slogr w => some (joinE 0xE5 w)
  | .slogpReplay w => some (joinE 0xE6 w)
  | .slogpDrop w => some (joinE 0xE6 w)
  | .slogpAll w => some (joinE 0xE6 w)
  | .eret w => some (joinE 0xE7 w)
  | .eretSkip w => some (joinE 0xE7 w)
  | .eretPc w => some (joinE 0xE7 w)
  | .ctxsv w => some (joinE 0xE8 w)
  | .ctxld w => some (joinE 0xE9 w)
  | .preemptStop w => some (joinE 0xEA w)
  | .preemptForce w => some (joinE 0xEA w)
  | .preemptResume w => some (joinE 0xEA w)
  | _ => none

/-- The guard field P of an instruction (R32); an event has none and reads as p7. -/
def Instr.guard : Instr → BitVec 4
  | .nop w | .reform w | .exit w | .yield w | .beat w | .brk w | .vote w | .shfl w | .iadd w | .isub w | .imul w
    | .imulh w | .imad w | .imin w | .imax w | .iabs w | .ineg w | .and w | .or w | .xor w | .not w | .shl w
    | .shr w | .sar w | .fsh w | .bfx w | .bfi w | .popc w | .clz w | .brev w | .isetp w | .sel w | .mov w | .lea w
    | .idiv w | .irem w | .plop w | .icvt w | .idot4 w | .movs w | .rget w | .rput w | .fadd w | .fsub w | .fmul w
    | .ffma w | .fmin w | .fmax w | .fdiv w | .fsqrt w | .frcp w | .frsq w | .fexp2 w | .flog2 w | .fsin w | .fcos w
    | .ftanh w | .fsetp w | .fcvt w | .f2i w | .i2f w | .frnd w | .fscale w | .fdot2 w | .fpack w | .funpk w
    | .tget w | .tset w | .tzero w | .tseed w | .gpln w | .casp w | .tbar w | .casg w | .spkc w | .qblk w
    | .pmovGet w | .pmovSet w | .pmovNz w | .pmovSel w | .movsw w | .codeSegmentSwitch w | .fclassPredicate w
    | .fclassRegister w | .ncvtEnc w | .ncvtDec w => w.p
  | .trap w | .ppt w | .svc w | .iaddi w | .imuli w | .andi w | .ori w | .xori w | .movi w | .fmtw w => w.p
  | .bra w | .brx w | .ret w | .call w | .callRegister w => w.p
  | .ldp w | .stp w | .ldpf w | .stpe w | .feset w | .mcst w | .barx w | .bara w | .barw w | .bari w | .rngi w
    | .fence w | .sight w | .rflush w | .rinv w | .rpref w | .rngwRd w | .rngwWr w | .rngsRd w | .rngsWr w => w.p
  | .atomp w | .atomg w | .ldk w | .sibl w | .recon w | .redg w => w.p
  | .fenceq w | .tcopy w | .tstore w | .tgather w | .tscat w | .tlay w | .tstream w | .tdrain w | .twait w
    | .tcancel w | .pfree w | .easld w | .accal w | .accfr w | .accz w | .accrd w | .accwr w | .mwait w | .mclass w
    | .pwr w | .mstat w | .spawn w | .launch w | .park w | .tqpop w | .joinw w | .steal w | .send w | .recv w
    | .quiet w | .qpoll w | .coll w | .cwait w | .lossn w | .capr w | .statr w | .wdog w | .slogr w | .ctxsv w
    | .ctxld w | .rmap w | .rmapUnmap w | .pres w | .presOrg w | .chcfg w | .chcfgClear w | .msgh w | .msghOff w
    | .tlbiVa w | .tlbiAsid w | .tlbiAll w | .statw w | .halt w | .slogpReplay w | .slogpDrop w | .slogpAll w
    | .eret w | .eretSkip w | .eretPc w | .preemptStop w | .preemptForce w | .preemptResume w => w.p
  | .glz w => w.p
  | .mloop w => w.p
  | .mloops w => w.p
  | _ => 7

/-- The instruction that the decoder reads from a row of the opcode table: one 64-bit word, bit 0 the least significant.
An event row has no word. -/
def decodeTableWord (_nbits w : Nat) : Option Instr :=
  match decode (BitVec.ofNat 64 w) with
  | .ok i => some i
  | _ => none

end Sys2Proof
end

