-- ==== Sys2Proof/Config.lean ====
section
/-! DEFINITION. What one implementation fixes and the free values: every value that the spec leaves open is one of the
opaque constants below, applied to a plain counter of the state or to the operands it depends on. Nothing can evaluate
them, so a statement about one holds whatever the device does. -/

namespace Sys2Proof.Config

/-- A fresh free value, applied to the state's counter `fresh` (DESIGN CHOICE, notes/assumptions/1.md). -/
opaque freeValue : Nat → Nat

/-- SHAKE256 (00_scope.md R8): the digest of a byte string, by its length in bytes. The function is named and not
restated by the spec (DESIGN CHOICE, notes/assumptions/2.md). -/
opaque shake256 : List Byte → Nat → List Byte

/-- The digest of the ROM stage of a die's management controller (15_host.md R404, DESIGN CHOICE, notes/assumptions/2.md). -/
opaque romDigest : Nat → List Byte

/-- The Falcon-1024 signature that the attestation key makes of a byte string (15_host.md, DESIGN CHOICE, notes/assumptions/2.md). -/
opaque falconSign : List Byte → List Byte

end Sys2Proof.Config
end

