-- ==== Sys2Proof/Machine/State.lean ====
section
/-! DEFINITION. The state of the device as plain data: everything the spec gives the machine, and the model's own
bookkeeping (marked MODEL in each docstring). Identifiers of gangs, teams, accesses and requests are the model's own
numbers; quads, slices, queues, jobs, grids and address spaces carry the device's own. -/

namespace Sys2Proof.Machine

open Sys2Proof

/-- The trap causes of 02_encoding.md R57; every other code is reserved and never raised. -/
inductive Cause where
  | illegalInstruction | illegalClause | illegalOperand | featureAbsent | privilegedInstruction | divideByZero
  | apertureBound | poolOutside | misaligned | notPresent | readNotAllowed | writeNotAllowed | executeNotAllowed
  | atomicNotAllowed | privilegedPage | siblingLimit | spillFull | keptConflict | bankNotAllocated | slotNotReserved
  | shapeMismatch | bandClaimed | ringMisuse | invalidBarrier | channelNotConfigured | unreachable | numericThreshold
  | watchdog | debugBreak | userTrap | seamLost
  deriving DecidableEq, Repr

/-- Why a step can stop with a fault. No meaning of this model stops with one: every trap of the spec is TAKEN, as a
next state, and an access outside the physical map is a translation failure of R369. The one constructor names an
agenda entry that names a gang the lane table does not hold; nobody raises it, since `step` passes over such an entry
(safe). -/
inductive Fault where
  | noSuchGang
  deriving DecidableEq, Repr

/-- Why a step can be refused. `notModelled` is the arm of an instruction that has no meaning yet (safe: the machine
stops where the hardware goes on). -/
inductive Refusal where
  | notModelled (mnemonic : String)
  deriving DecidableEq, Repr

/-- Why a gang is held at a word (03_control.md R89), as data that `waitDone` tests. -/
inductive Wait where
  /-- All outstanding results of the gang are written (R88, R95, R96). -/
  | counters
  /-- The accesses, requests, side-log entries and results numbered in the list are no longer in flight. -/
  | flights (ids : List Nat)
  /-- The page of an address is mapped again or its fault rejected (R370). -/
  | page (asid va : Nat)
  /-- The walk, and for an `all` wait also the fill, of a region line of a cluster ends (R212). -/
  | line (cluster line addr : Nat) (store : Bool)
  /-- The fill of a region line of a cluster ends. -/
  | fill (cluster line : Nat)
  /-- Every listed channel queue of the team holds at least so many messages (R320). -/
  | channels (team : Nat) (need : List (Nat × Nat))
  /-- The share accepts an access that it has rejected (R185, R192). -/
  | accept (access : Nat)
  /-- Room for so many messages in the send buffer of a quad port or die interface (R318). -/
  | sendRoom (port n : Nat)
  /-- Every write of the SEND of message elements of the gang is accepted. -/
  | queueRoom (quad queue : Nat)
  /-- A TBAR phase of barrier `id` of the team completes for the ranks (R195). -/
  | teamBarrier (team id : Nat) (ranks : List Nat)
  /-- The team has fewer than 64 child grids (R301). -/
  | children (team : Nat)
  /-- Room in a side log (R373). -/
  | sideLog (log : Nat)
  /-- Room in the matrix queue of a team (10_matrix.md). -/
  | matrixRoom (team : Nat)
  /-- A place in a copy queue of a quad (R245). -/
  | copyRoom (quad queue : Nat)
  /-- A counter set for the job at a port (R322). -/
  | counterSet (port job : Nat)
  /-- Room in a collective queue of a die (12_messages.md). -/
  | collRoom (die queue : Nat)
  /-- Held for Shegus: a trap with no vector, a double fault, a system-level SVC (R363). -/
  | shegus
  deriving DecidableEq, Repr

/-- The trap state of a gang (14_system.md R365), with the members at entry. The masks are lists of ranks. -/
structure TrapState where
  tpc     : Nat := 0
  taddr   : Nat := 0
  tmask   : List Nat := []
  tinfo   : Nat := 0
  tres    : Nat := 0
  done    : List Nat := []
  word    : Nat := 0
  cause   : Nat := 0
  sv      : Bool := false
  lv      : Bool := false
  members : List Nat := []
  /-- A numeric threshold that the stopped word brought about is still to be taken (R154). -/
  pend    : Bool := false
  /-- What the stopped clause had done before: its PPT masks and its BEAT (R90, R93). -/
  ppt     : Option Nat := none
  beat    : Bool := false
  deriving DecidableEq, Repr

/-- What a gang is doing. -/
inductive GangStatus where
  /-- Its next clause is to be fetched at `pc` (R28, R79). -/
  | fetch
  /-- Its clause is fetched and checked; eligible once its WAIT counters are zero (R74). -/
  | ready
  /-- Running a word of its clause (R75). -/
  | running
  /-- Held at its word (R89). -/
  | held (w : Wait)
  /-- Parked by a switch marker until its counters are zero (R76). -/
  | parked
  /-- Stopped by a pre-emption at a clause boundary or at its held word (R90, R384). -/
  | stopped (w : Option Wait)
  deriving DecidableEq, Repr

/-- What the threads of one gang keep while folds hold them (R81, R85): their level and live trap state (R362, R365), and,
of a word that they are to resume at, what its clause had done and its requests in flight. Threads that differ in it
leave a fold in gangs of their own (DESIGN CHOICE, notes/assumptions/83.md). -/
structure Carry where
  sys     : Bool := false
  trap    : Option TrapState := none
  pendWord : Bool := false
  ppt     : Option Nat := none
  beat    : Bool := false
  flight  : List Nat := []
  deriving DecidableEq, Repr

/-- A gang (03_control.md R69, R74): an entry of its lane's gang table. Its outstanding-result counters are the tickets
that name it. -/
structure Gang where
  id      : Nat := 0
  team    : Nat := 0
  /-- Quad lane 0 to 31 of the team's quad (R12). -/
  lane    : Nat := 0
  /-- Gang-table entry 0 to 16. -/
  entry   : Nat := 0
  /-- Ranks, ascending. -/
  members : List Nat := []
  /-- Header address of the current or next clause. -/
  pc      : Nat := 0
  /-- System level (R362). -/
  sys     : Bool := false
  status  : GangStatus := .fetch
  /-- The fetched clause: header and words (R26). -/
  header  : DWord := 0
  clause  : List DWord := []
  /-- The word to run next, 1 to N; at a header, 0 or the word to resume at (R83, R88). -/
  word    : Nat := 0
  /-- Ranks that have committed the word already (R87). -/
  done    : List Nat := []
  trap    : Option TrapState := none
  /-- A PPT has executed in this clause, with the OR of the masks (R90). -/
  ppt     : Option Nat := none
  /-- A BEAT has been counted in this clause (R93). -/
  beat    : Bool := false
  /-- Gangs that must start a clause or become ineligible first (YIELD, R96). -/
  behind  : List Nat := []
  /-- MODEL: the order in which the gang became eligible (R77); none when it is not. -/
  eligible : Option Nat := none
  /-- MODEL: the clock of its die at which it last became ineligible (R85). -/
  idleSince : Nat := 0
  /-- A cause to take at the next clause start or boundary: a pending numeric threshold (R154), watchdog (R380). -/
  pending : Option Cause := none
  /-- The pending cause is taken when the redone word commits (R154). -/
  pendWord : Bool := false
  /-- Live-tile mask of the clause boundary at which it stands, none where that is no pre-emption point (R90). -/
  stopMask : Option Nat := none
  /-- A pre-emption stopped it while a switch marker parked it (R76). -/
  park    : Bool := false
  /-- MODEL: the requests, accesses or fences that the word it is held at has in flight (R89). -/
  flight  : List Nat := []
  /-- MODEL: the fetch at `pc` holds on the page of an address: (asid, address) (R370). -/
  fetchHold : Option (Nat × Nat) := none
  deriving DecidableEq, Repr

/-- A fold of a lane (R81): the threads waiting to run from a header, each with its done bit and what it keeps. -/
structure Fold where
  id      : Nat := 0
  quad    : Nat := 0
  lane    : Nat := 0
  team    : Nat := 0
  pc      : Nat := 0
  word    : Nat := 0
  threads : List (Nat × Bool × Carry) := []
  /-- The clock of its die from which its age counts. -/
  since   : Nat := 0
  /-- Its age has reached the limit (R84). -/
  aged    : Bool := false
  deriving DecidableEq, Repr

/-- A thread on its way into a fold: in the lane's overflow list (R82), or still waiting for its own results (R80, R85). -/
structure Filed where
  quad : Nat := 0
  lane : Nat := 0
  team : Nat := 0
  rank : Nat := 0
  pc   : Nat := 0
  word : Nat := 0
  done : Bool := false
  carry : Carry := {}
  /-- The clock of its die at which it was filed. -/
  since : Nat := 0
  deriving DecidableEq, Repr

/-- An outstanding long result of a word (R72 to R74): its class, the gangs whose counter it holds up, and the ranks
still owed a write (once for each write owed). -/
structure Ticket where
  id    : Nat := 0
  cls   : Nat := 0
  team  : Nat := 0
  gangs : List Nat := []
  parts : List Nat := []
  deriving DecidableEq, Repr

/-- What a long result does when it is written. -/
inductive ResultAct where
  /-- Registers: (plane, register index, value). -/
  | regs (ws : List (Nat × Nat × Word))
  /-- A predicate. -/
  | pred (p : Nat) (v : Bool)
  /-- A send of one element through channel entry `q` with the target captured at issue (R320). -/
  | send (q : Nat) (image : BitVec 128) (v : DWord)
  /-- Nothing but the counter's fall. -/
  | nothing
  deriving DecidableEq, Repr

/-- A long result ready to be written for one thread (R73, R74). -/
structure LongResult where
  id     : Nat := 0
  ticket : Nat := 0
  team   : Nat := 0
  rank   : Nat := 0
  act    : ResultAct := .nothing
  deriving DecidableEq, Repr

/-- A thread (R68, R106): its registers plane by plane, predicates p0 to p6, role, sr.fault and trap window. -/
structure Thread where
  team   : Nat := 0
  rank   : Nat := 0
  regs   : List Word := []
  preds  : BitVec 7 := 0
  role   : BitVec 3 := 0
  fault  : DWord := 0
  window : List Word := []
  ended  : Bool := false
  /-- Removed by a debug halt, with its PC, the word to resume at with its done bit, and what it keeps of its gang (R382). -/
  haltPc : Option (Nat × Nat × Bool × Carry) := none
  /-- Holds a task record (R306). -/
  task   : Bool := false
  /-- Holds a handler task (R321). -/
  handler : Bool := false
  /-- Causes to take at its gang's next clause starts, each with its address: imprecise fill faults (R212), and what its
  gang had pending when it went into a fold. A numeric threshold of a matrix step stands with its event class plus 1
  (R268). -/
  pend    : List (Cause × Nat) := []
  deriving DecidableEq, Repr

/-- What a pool or aperture access does where it performs (07_pool.md). Register fields are indexes, 255 for none. -/
inductive PoolOp where
  /-- A load into register `d` of `plane`, with the layers of D that become zero, and the register the count goes to
  (R169, R181). -/
  | load (d plane : Nat) (zero : List Nat) (count : Option Nat)
  | store (bytes : List Byte)
  /-- LDPF: waits for full; with `take` it empties the word (R183). -/
  | loadFull (d : Nat) (take : Bool) (count : Option Nat)
  /-- STPE: waits for empty and fills the word. -/
  | storeEmpty (bytes : List Byte)
  /-- FESET. -/
  | setState (full : Bool)
  /-- ATOMP (R186). -/
  | atomic (ao d x : Nat) (count : Option Nat)
  /-- CASP (R187). -/
  | cas (d cmp new : Nat)
  /-- A BARW waiter: the parity it waits on, and its predicate (R193). -/
  | barrier (token p : Nat)
  /-- An RNGW waiter of a side, slot address register `d` (R197). -/
  | ring (writer : Bool) (d : Nat)
  /-- MODEL: the place in its pair of a barrier or ring word that holds its gang and that the share has not accepted yet
  (R190, R192). -/
  | place
  /-- RINV on the range of the access, with .drop (R230). -/
  | inv (drop : Bool)
  /-- RPREF on a line (R230). -/
  | prefetch
  /-- TLAY: .g, .p, coordinates, glaze depth and plane stride of the team at issue, destination (R255). -/
  | layout (g p : Bool) (coords depth stride d : Nat)
  deriving DecidableEq, Repr

/-- Where a pool access stands. -/
inductive AccessState where
  | sent
  /-- Withdrawn from its waiter list by a pre-emption (R200, R385). -/
  | withdrawn
  /-- On the waiter list of its word since the given arrival (R184). -/
  | waiting (since : Nat)
  /-- Rejected; to be sent again at the given time (R185). -/
  | rejected (retryAt : Nat)
  deriving DecidableEq, Repr

/-- A pool or aperture access in flight (R178, R343). `key` is slot × 2^20 + offset; in the aperture, a byte of the
thread's own registers. -/
structure Access where
  id     : Nat := 0
  ticket : Nat := 0
  cluster : Nat := 0
  team   : Nat := 0
  rank   : Nat := 0
  /-- Core slot of the issuing core in the cluster. -/
  src    : Nat := 0
  /-- Core slot of the share; none in the aperture. -/
  dst    : Option Nat := none
  key    : Nat := 0
  size   : Nat := 0
  sc     : Nat := 0
  ord    : Nat := 0
  /-- Level of the issuing gang (R362). -/
  sys    : Bool := false
  op     : PoolOp := .store []
  /-- Accesses of its own word that perform before it: the planes of a glazed access (R170). -/
  after  : List Nat := []
  /-- MODEL: the accesses of one thread's word have one number, other than 0. R345 orders words, not the accesses of one. -/
  grp    : Nat := 0
  /-- Its place among the accesses sent over its pair: the number at its last sending (R190). -/
  seq    : Nat := 0
  state  : AccessState := .sent
  /-- Rejections so far and, once aged, the order in which it became aged (R185). -/
  rejects : Nat := 0
  aged   : Option Nat := none
  deriving DecidableEq, Repr

/-- A team (R12, R106, R110, R149, R153, R195, R378). -/
structure Team where
  id      : Nat := 0
  cluster : Nat := 0
  grid    : Nat := 0
  job     : Nat := 0
  /-- Quad slot in the cluster, sr.team (R298). -/
  idx     : Nat := 0
  /-- Device quad number. -/
  quad    : Nat := 0
  /-- Resident slot on the quad, 0 to 3 (R378). -/
  slot    : Nat := 0
  ntid    : Nat := 0
  /-- Allocated v registers per thread, A (R105). -/
  alloc   : Nat := 8
  /-- Glaze depth D and glaze-all (R157). -/
  depth   : Nat := 0
  gall    : Bool := false
  /-- Launched at system level (R362). -/
  sys     : Bool := false
  /-- g0 to g62, plane by plane (R110, R159). -/
  gregs   : List Word := []
  gplane  : DWord := 0
  cseg    : Word := 0
  /-- f0 to f15 (R149). -/
  fregs   : List (BitVec 16) := []
  /-- Event registers of classes 0 to 4 (R153). -/
  events  : List DWord := []
  /-- MODEL: the count of the quad's core 0 at which each event register was loaded, written or cleared last. -/
  winAt   : List Nat := [0, 0, 0, 0, 0]
  /-- HALT bits (R378). -/
  halt    : BitVec 8 := 0
  /-- STAT: 0 running, 1 stopping, 2 stopped, 3 saved (R378). -/
  stat    : Nat := 0
  /-- Arrivals of the four team barriers: ranks that wait in the current phase, with their tickets and with the accesses
  and requests that must perform before the arrival counts (R195). -/
  tbar    : List (List (Nat × Nat × List Nat)) := [[], [], [], []]
  /-- The 64 channel entries (R315). -/
  chans   : List (BitVec 128) := []
  /-- Grids it launched that have not retired, and those that have, with their STATUS byte (R301, R312). -/
  children : List Nat := []
  joined  : List (Nat × Nat) := []
  retired : Bool := false
  deriving DecidableEq, Repr

/-- The state of a region line (R210). -/
inductive LineState where
  | absent | filling | clean | dirty | partialLine
  deriving DecidableEq, Repr

/-- A region line, by the key of its first byte (slot × 2^20 + offset); an unlisted line is absent (R210). -/
structure RegionLine where
  line   : Nat := 0
  st     : LineState := .absent
  /-- Dirty mask, one bit per byte. -/
  mask   : Nat := 0
  /-- Fill basis, 56 bits. -/
  basis  : Nat := 0
  /-- Level of the access that started the fill. -/
  sys    : Bool := false
  /-- MODEL: the number of its fill, in the order of their starts, and of the fill's request at the home. -/
  fid    : Nat := 0
  req    : Nat := 0
  /-- The fill's translation has completed, with the line's physical address and leaf entry (R212). -/
  walked : Option (Nat × DWord) := none
  /-- The walk found the page not present; it is retried when the page is mapped (R212). -/
  missing : Bool := false
  /-- The fill's read at the home: bytes and the cells' counts (R211). -/
  data   : Option (List Byte × List Nat) := none
  /-- Tickets of RPREF words that end with the fill (R230). -/
  prefs  : List (Nat × Nat) := []
  /-- The line turns A when its fill completes, which serves the accesses that waited before the moment given (R214). -/
  drop   : Option Nat := none
  /-- A prefetch filled it and nothing has touched it (R378 counters). -/
  prefetched : Bool := false
  deriving DecidableEq, Repr

/-- A region map entry (R208), as its 32-byte image, with the plane stride in force at its RMAP (R209). -/
structure Region where
  image  : BitVec 256 := 0
  planes : Nat := 0
  stride : Nat := 0
  deriving DecidableEq, Repr

/-- A PREEMPT result outstanding on a cluster (R386): ticket and team of the issuer, operation, destination field, ranks,
and the status that it has come to while its issuer is stopped (R385). -/
structure PreemptWait where
  ticket : Nat := 0
  team   : Nat := 0
  op     : Nat := 0
  d      : Nat := 0
  ranks  : List Nat := []
  got    : Option Nat := none
  deriving DecidableEq, Repr

/-- A cluster instance (R13, R177, R208, R218, R219, R298). -/
structure Cluster where
  id     : Nat := 0
  grid   : Nat := 0
  job    : Nat := 0
  /-- Linear index in the grid, and sr.cl (R298). -/
  index  : Nat := 0
  die    : Nat := 0
  /-- Device quads in slot order. -/
  quads  : List Nat := []
  /-- Share size in bytes (R177). -/
  share  : Nat := 0
  group  : Nat := 0
  /-- Pool bytes by key slot × 2^20 + offset; unlisted bytes are zero (R177). -/
  pool   : List Host.Cell := []
  /-- Pool words (key / 8) that are empty; the others are full (R177, R183). -/
  empties : List Nat := []
  /-- Sibling counts other than 1 (R177, R211). -/
  counts : List (Nat × Nat) := []
  regions : List (Option Region) := []
  lines  : List RegionLine := []
  /-- Sight vector: base of each die and offset of each slice (R219). -/
  bases  : List Nat := [0, 0]
  offs   : List Nat := []
  /-- A pre-emption is requested, and the time its forced limit passes (R384, R386). -/
  preempt : Option Nat := none
  /-- MODEL: the forced limit has passed (R384). -/
  forced : Bool := false
  /-- PREEMPT results outstanding (R386). -/
  pwaits : List PreemptWait := []
  /-- Its teams have retired and it writes its dirty lines back by these requests (R302). -/
  leaving : Option (List Nat) := none
  aborted : Bool := false
  retired : Bool := false
  deriving DecidableEq, Repr

/-- A grid (R295 to R301, R380). -/
structure Grid where
  /-- Grid instance number, sr.grid (R311). -/
  id     : Nat := 0
  job    : Nat := 0
  gx     : Nat := 1
  gy     : Nat := 1
  gz     : Nat := 1
  entry  : Nat := 0
  threads : Nat := 1
  teams  : Nat := 1
  regs   : Nat := 8
  pool   : Nat := 0
  depth  : Nat := 0
  gall   : Bool := false
  prio   : Nat := 0
  fage   : Nat := 0
  easel  : Nat := 0
  bond   : Nat := 0
  pers   : Bool := false
  dbg    : Bool := false
  needs  : Nat := 0
  wdw    : Nat := 0
  edges  : List (Nat × Nat) := []
  record : Nat := 0
  bitmap : Nat := 0
  evt    : List Nat := []
  ginit  : List Word := []
  /-- Nesting depth, sr.depth (R301). -/
  nest   : Nat := 0
  /-- The team that launched it, none for a host launch. -/
  parent : Option Nat := none
  /-- Shegus's own work, at system level (R362). -/
  sys    : Bool := false
  /-- The die whose queue accepted it; its leader, once decided (R299). -/
  die    : Nat := 0
  leader : Option Nat := none
  /-- The proposal is out, since the given time (R299). -/
  proposed : Option Nat := none
  alone  : Bool := false
  /-- Accepted order, and the earlier equal-JOB launches of its queue that must retire first (R297, R302). -/
  order  : Nat := 0
  after  : List Nat := []
  /-- Next index to grant; the follower's granted, unplaced indices, chunk by chunk; indices placed; indices retired on either die, as
  the leader knows them; indices retired on the follower and not yet reported (R299, R300). -/
  next   : Nat := 0
  granted : List (List Nat) := []
  placed : List (Nat × Nat) := []
  ret0   : List Nat := []
  ret1   : List Nat := []
  unreported : List Nat := []
  /-- Indices lost with a failed die (R300). -/
  lost   : List Nat := []
  /-- It stops placing (R314). -/
  stopped : Bool := false
  /-- The order of its last placement among the grids of its class (R297). -/
  turn   : Nat := 0
  /-- Its acceptance's activity has been lowered again (R323). -/
  lowered : Bool := false
  /-- STATUS and CAUSE once it ended (R313). -/
  status : Option (Nat × Nat) := none
  /-- MODEL: its record is written and its end reported. -/
  closed : Bool := false
  /-- Time of its last progress event, watchdog stop in force, second window (R380). -/
  progress : Nat := 0
  fired  : Nat := 0
  deriving DecidableEq, Repr

/-- A job (R363, R378, R379). -/
structure Job where
  id     : Nat := 0
  asid   : Nat := 0
  /-- TRAPV, SVCV, DBGV, WDGV (R363). -/
  vectors : List Nat := [0, 0, 0, 0]
  /-- The watchdog register (R379). -/
  wdog   : DWord := 0x1400140000
  /-- The watchdog's timers stand still since this time (R383). -/
  heldSince : Option Nat := none
  /-- Creation time, for ELAPSED (R378). -/
  born   : Nat := 0
  /-- Pod devices of its device set (R317). -/
  devices : List Nat := []
  /-- Curfew at the root (R324, R325): the root's die, the number of the last wave, its pass (0 none, 1 A, 2 A ended, 3 B),
  the places still to be sampled and those sampled in the pass, the four sums and X of each pass, the time from which the
  timer's period counts, its period in µs, and since when the timer stands. -/
  root   : Nat := 0
  wave   : Nat := 0
  phase  : Nat := 0
  due    : List Nat := []
  sampled : List Nat := []
  sumA   : List Nat := [0, 0, 0, 0]
  sumB   : List Nat := [0, 0, 0, 0]
  xA     : Bool := false
  xB     : Bool := false
  waveAt : Nat := 0
  period : Nat := 20
  stands : Option Nat := none
  /-- MODEL: messages of the job that have left for other devices, and the losses that reporters on other devices have
  noted (DESIGN CHOICE, notes/assumptions/28.md). -/
  sentOff : Nat := 0
  lostOff : Nat := 0
  /-- The loss total L, notes received, the first 16 notes (reporter, count), lossy, broken (R325, R327, R328). -/
  lossTotal : Nat := 0
  noted  : Nat := 0
  notes  : List (Nat × Nat) := []
  lossy  : Bool := false
  broken : Bool := false
  closed : Bool := false
  deriving DecidableEq, Repr

/-- A message (R317): 1 to 7 elements and its header, with the send target of its channel entry. -/
structure Message where
  id     : Nat := 0
  /-- Sending port: 0 to 63 the quads, 64 and 65 the fabric interfaces, 66 and 67 the command processors. -/
  port   : Nat := 0
  /-- The sender in the header: pod device and device quad (R317). -/
  dev    : Nat := 0
  quad   : Nat := 0
  /-- Sending team, 0 for a message from a peer device, thread and channel entry. -/
  team   : Nat := 0
  rank   : Nat := 0
  entry  : Nat := 0
  job    : Nat := 0
  /-- The entry's 16-byte image at acceptance (R315). -/
  image  : BitVec 128 := 0
  elems  : List DWord := []
  /-- Sent with .rel at the scope; 0 without (R331). -/
  rel    : Nat := 0
  /-- Refusals so far, the time it may be sent again, and its place among the aged (R207, R318). -/
  rejects : Nat := 0
  retryAt : Nat := 0
  aged   : Option Nat := none
  deriving DecidableEq, Repr

/-- A message in a receive queue of a team's channel, or in a handler queue of a quad (R315, R321). -/
structure Queued where
  quad    : Nat := 0
  /-- The owning team of a channel queue. -/
  team    : Nat := 0
  handler : Bool := false
  queue   : Nat := 0
  msg     : Message := {}
  deriving DecidableEq, Repr

/-- A Curfew counter set of a place for a job (R322). Places are numbered as message ports are. -/
structure CounterSet where
  port : Nat := 0
  job  : Nat := 0
  mi   : Nat := 0
  mc   : Nat := 0
  au   : Nat := 0
  ad   : Nat := 0
  chg  : Bool := true
  deriving DecidableEq, Repr

/-- One choice of the schedule: run an event, run the next word of a gang, or let clocks pass (MODEL,
DESIGN CHOICE, notes/assumptions/3.md). -/
inductive Choice where
  | event (i : Instr)
  | word (gang : Nat)
  | tick (units : Nat)
  /-- A message or a task record of a peer device comes off the fabric at a die's interface (R317, R323, R337). -/
  | message (die : Nat) (m : Message)
  /-- A write of a peer device to this device's HBM comes off the fabric: pod device, physical address of a byte and the
  bytes from there on, within one line (R220, R228, R392). -/
  | peerWrite (die dev pa : Nat) (bytes : List Byte)
  /-- The host reads, or writes with a value, the 8 bytes at an offset of function 0's memory space (R5, R398). -/
  | register (offset : Nat) (value : Option DWord)
  /-- A copy command's line serves the replica `k` of those it has left first or, where the command's fault is reported, its
  barrier object `k` (R248, R413). -/
  | replicaFirst (cmd line k : Nat)
  /-- Shegus sets the wave period of a job, in µs (R324). -/
  | wavePeriod (job us : Nat)
  deriving DecidableEq, Repr

/-- What a request does at its home slice (08_global.md, R308, R309), or in the map units of its cluster, which work
through write-backs and through the release and acquire steps of R352 as requests of their own. -/
inductive HomeOp where
  /-- The read of a region fill of a pool line (R211). -/
  | fill (line : Nat)
  /-- The read of `n` bytes for line `idx` of the copy command, or for offset `idx` of the contribution of the collective,
  that the request names (R248, R343). -/
  | read (idx n : Nat)
  /-- A byte-masked write: (offset in the line, byte). -/
  | write (bytes : List (Nat × Byte))
  /-- Kept writes of the cells of a line: (cell 0 to 15, value), with their sight (R220). -/
  | kept (cells : List (Nat × DWord)) (sight : Nat)
  /-- ATOMG and REDG: operation, size, operand, destination where there is one, count register (R232, R233). -/
  | atomic (ao size x : Nat) (d : Option Nat) (count : Option Nat)
  /-- CASG (R234). -/
  | cas (size cmp new d : Nat)
  /-- LDK (R235). -/
  | probe (d : Nat)
  /-- SIBL (R236). -/
  | sibling (field k d : Nat) (count : Option Nat)
  /-- RECON (R237). -/
  | recon (op basis : Nat) (arg : DWord) (d : Nat)
  /-- LAUNCH of the descriptor at the request's address, for the ranks listed, handle register `d` (R311). -/
  | launch (ranks : List Nat) (d : Nat)
  /-- SPAWN: records in rank order (R308). -/
  | spawn (records : List (BitVec 128)) (ranks : List Nat) (tryP : Option Nat)
  /-- TQPOP, STEAL for the threads listed, group register `d` (R309). -/
  | pop (steal : Bool) (ranks : List Nat) (d : Nat)
  /-- MODEL: the map units visit the pool lines from `lo` below `hi` in ascending order and write back each dirty one
  (R213, R214, R230). -/
  | walk (lo hi : Nat)
  /-- A host read of `n` bytes, which the host agent caches or not (R395, R396). -/
  | hostRead (n agent : Nat) (caches : Bool)
  /-- MODEL: a region map entry takes its new image once the old one is written back (R229). -/
  | mapEntry (idx : Nat) (region : Option Region)
  /-- MODEL: the invalidation and the refresh of an acquire, or the refresh alone of SIGHT (R352, R361). -/
  | acquire (invalidate : Bool)
  deriving DecidableEq, Repr

/-- Where a request stands. -/
inductive ReqState where
  | sent
  /-- In the busy line's request list since its arrival (R204). -/
  | listed (since : Nat)
  /-- Rejected; to be sent again at the given time (R207). -/
  | rejected (retryAt : Nat)
  /-- It holds its busy line and waits for acknowledgements or grants. -/
  | busy
  /-- Its read has performed; the refresh of its acquire runs (R352). -/
  | refreshing
  deriving DecidableEq, Repr

/-- What becomes of a request that a word waits for in place (R307): its refusal or translation cause. -/
inductive ReqEnd where
  | done
  | refused (cause : Cause) (addr info : Nat)
  deriving DecidableEq, Repr

/-- A request on its way to its home slice. -/
structure HomeReq where
  id     : Nat := 0
  ticket : Nat := 0
  /-- The issuing thread, where there is one. -/
  team   : Nat := 0
  rank   : Nat := 0
  cluster : Nat := 0
  job    : Nat := 0
  asid   : Nat := 0
  sys    : Bool := false
  va     : Nat := 0
  /-- Physical address and leaf entry of the page (R368). -/
  pa     : Nat := 0
  leaf   : DWord := 0
  group  : Nat := 0xFFFF
  sc     : Nat := 0
  ord    : Nat := 0
  pl     : Nat := 0
  /-- Accesses and requests that must perform first (R345, R352). -/
  after  : List Nat := []
  /-- MODEL: the release step it stands at: 0 earlier accesses, 1 write-backs, 2 its own (R352). -/
  stage  : Nat := 0
  op     : HomeOp := .write []
  /-- Dirty mask of a write-back's line (R213). -/
  mask   : Nat := 0
  /-- Source quad of its flits, and its place among them at its last sending (R205). -/
  src    : Nat := 0
  seq    : Nat := 0
  state  : ReqState := .sent
  rejects : Nat := 0
  aged   : Option Nat := none
  /-- What its last rejection was for want of: 1 a request-list entry, 2 a miss entry, 0 something else (R204, R206, R207). -/
  wants  : Nat := 0
  /-- The side log its refused write retires into, and its kind there (R228, R372). -/
  log    : Nat := 0
  kind   : Nat := 0
  /-- It is the replay of a side-log entry (R374). -/
  replay : Bool := false
  /-- It is a write-back of its cluster (R356). -/
  back   : Bool := false
  /-- Bytes of its kept cells that `mask` leaves out are taken from the lead at the home (R213, R250, R396). -/
  merge  : Bool := false
  /-- The engine command whose line it is. -/
  cmd    : Option Nat := none
  /-- The address whose page a queue step found not present (R304, R370). -/
  holdVa : Option Nat := none
  deriving DecidableEq, Repr

/-- A busy line with the request that holds it and the acknowledgements it still awaits (R202, R204). A request that
writes into several lines holds each of them. -/
structure Busy where
  line : Nat
  req  : Nat
  acks : Nat
  deriving DecidableEq, Repr

/-- A directory entry of a line (R203): agent numbers in pointer mode, a 9-bit vector in coarse mode. -/
structure DirEntry where
  line   : Nat
  coarse : Bool
  agents : List Nat
  vector : Nat
  deriving DecidableEq, Repr

/-- A kept cell that holds other versions than the one its page gave it (R217): versions (value, arrival, group) in the
order of R217, for the cell at physical address 8 × `cell`. The cells stand in the order of their last access, the latest
first (R221). -/
structure KeptCell where
  cell     : Nat
  versions : List (DWord × Nat × Nat)
  /-- How many of the versions behind the lead lie in the spill area (R221). -/
  spilled  : Nat := 0
  deriving DecidableEq, Repr

/-- A line of HBM or of host memory that its home slice holds in its L2 (R204, R222, R393), with the HBM stamp that it was
refilled with and the cells, 0 to 15, whose leads it has taken since. The lines stand in the order of their last use, the latest last. -/
structure L2Line where
  slice : Nat := 0
  line  : Nat := 0
  arr   : Nat := 0
  known : List Nat := []
  deriving DecidableEq, Repr

/-- A side-log entry (R372): the request it replays and its header fields. -/
structure SideEntry where
  log   : Nat := 0
  seq   : Nat := 0
  /-- Index of the entry in its log, 0 to 511. -/
  slot  : Nat := 0
  req   : HomeReq := {}
  bytes : Nat := 0
  att   : Nat := 0
  sight : Nat := 0
  cause : Nat := 0
  /-- MODEL: a replay is due (TLBI, wake entry, SLOGP, the 4,096-clock timer, R374). -/
  due   : Bool := false
  deriving DecidableEq, Repr

/-- A translation held by a map unit, a page walker or an engine (R371): the leaf entry of a 64 KiB page, and whether it
is a large leaf. -/
structure TlbEntry where
  asid  : Nat := 0
  page  : Nat := 0
  entry : DWord := 0
  large : Bool := false
  deriving DecidableEq, Repr

/-- The state of a host half at its home (R393). -/
inductive Half where
  | shared | exclusive | modified
  deriving DecidableEq, Repr

/-- What leaves the device. -/
inductive Output where
  /-- MSI-X interrupt of a command queue (R399). -/
  | interrupt (queue : Nat)
  /-- Requests of a host half (R393). -/
  | rdShared (half : Nat)
  | rdOwn (half : Nat)
  /-- The eviction of a host half, an M half with its data (R393). -/
  | dirtyEvict (half : Nat) (data : List Byte)
  | cleanEvict (half : Nat)
  /-- Back-invalidation of a host agent's 64-byte half of an HBM line (R395). -/
  | biSnpInv (half agent : Nat)
  /-- The answer to a snoop, with the data of a modified half (R394). -/
  | snoop (half : Nat) (data : Option (List Byte))
  /-- The answer to a host read, none for an unsupported request (R395). -/
  | hostData (data : Option (List Byte))
  /-- The completion of a host write (R395). -/
  | hostWrite (ok : Bool)
  /-- A message or a task record for a peer device, with the sender's device quad and rank of its header (R317, R337). -/
  | message (dev quad rank : Nat) (image : BitVec 128) (job : Nat) (elems : List DWord)
  /-- A write or an atomic of this device to a peer's memory (R392). -/
  | peerWrite (pa : Nat) (bytes : List Byte)
  /-- The answer to a host read of a queue register (R5, R398). -/
  | register (queue reg : Nat) (value : DWord)
  /-- A die reports that it refused its firmware image (R404). -/
  | linkStatus (die : Nat)
  deriving DecidableEq, Repr

/-- A line that a copy engine has in flight (R239). -/
structure CopyLine where
  idx   : Nat := 0
  write : Bool := false
  va    : Nat := 0
  pa    : Nat := 0
  leaf  : DWord := 0
  n     : Nat := 0
  /-- Pool addresses of its first byte: one for each replica; for a palette, none. -/
  dst   : List Nat := []
  /-- Row along dimension 1 and byte in the row, for a palette (R244). -/
  row   : Nat := 0
  off   : Nat := 0
  /-- Its request at the home. -/
  req   : Nat := 0
  /-- What a read line took from global memory (R248). -/
  data  : Option (List Byte) := none
  /-- Its fault, not yet recorded (R250). -/
  fault : Option Nat := none
  /-- Bytes of it that are written already, of a palette line (R244). -/
  put   : Nat := 0
  /-- It waits for the fill of a region line, by the line's key (R210). -/
  waits : Option Nat := none
  /-- MODEL: its fault is the failure of the fill of a pool line that it needed itself: of its replicas it leaves out the
  first. -/
  deaf  : Bool := false
  /-- Nothing but its fault is left of it. -/
  gone  : Bool := false
  deriving DecidableEq, Repr

/-- A command accepted by a copy engine (R238, R245 to R254), numbered in the order of acceptance. -/
structure CopyCommand where
  id     : Nat := 0
  quad   : Nat := 0
  queue  : Nat := 0
  team   : Nat := 0
  rank   : Nat := 0
  /-- 0 TCOPY, 1 TSTORE, 2 TGATHER, 3 TSCAT, 4 TSTREAM, 5 TDRAIN. -/
  kind   : Nat := 0
  record : BitVec 512 := 0
  pl     : Nat := 0
  /-- Planes moved and the pool plane stride at the command's issue (R171, R241). -/
  planes : Nat := 0
  stride : Nat := 0
  /-- Pool addresses of the index list, of the barrier object and of the ring header. -/
  list   : Nat := 0
  bar    : Option Nat := none
  ring   : Nat := 0
  /-- The cluster's sight vector at acceptance (R248, R250). -/
  sights : List Nat := []
  sys    : Bool := false
  started : Bool := false
  /-- The next line: row in the order of the visit, with planes, and byte in the row. -/
  row    : Nat := 0
  off    : Nat := 0
  issued : Nat := 0
  lines  : List CopyLine := []
  /-- Reservation that a palette copy writes (R244). -/
  pslot  : Nat := 0
  /-- It issues no further line: a fault or a cancellation (R250, R251); its fault is recorded. -/
  ended  : Bool := false
  faulted : Bool := false
  /-- The line whose fault was recorded, the barrier objects that are still to take FLT, and whether the ring is still to be
  let go (R250, R254). -/
  faultAt : Option Nat := none
  flts   : List Nat := []
  unbinds : Bool := false
  /-- The index word of the row in hand (R247), and the region line of its index list or ring that it waits for (R210). -/
  index  : Option Nat := none
  waits  : Option Nat := none
  /-- A stream's slot in hand, and its slot loads done (R254). -/
  slot   : Option Nat := none
  loads  : Nat := 0
  deriving DecidableEq, Repr

/-- A team's fault record for a copy queue (R253): cause of the first fault and the number of faults. -/
structure CopyRecord where
  team  : Nat := 0
  queue : Nat := 0
  cause : Nat := 0
  count : Nat := 0
  deriving DecidableEq, Repr

/-- A palette reservation (R262, R265): its record and rows. It has no name once it is released, and it lasts until the
commands that use it are complete. -/
structure PSlot where
  id     : Nat := 0
  name   : Option Nat := none
  record : BitVec 128 := 0
  /-- Bytes by row × 64 + byte. -/
  rows   : List Host.Cell := []
  deriving DecidableEq, Repr

/-- An accumulator bank that a team holds (R258, R265): 32 rows of 128 FP32 elements, by byte. -/
structure Bank where
  id    : Nat := 0
  name  : Option Nat := none
  bytes : List Host.Cell := []
  deriving DecidableEq, Repr

/-- The matrix state of a resident team (R257, R262, R286, R288, R291). -/
structure Matrix where
  team   : Nat := 0
  slots  : List PSlot := []
  banks  : List Bank := []
  /-- Its easel window on the four cores, by core × 65536 + row × 64 + byte. -/
  easel  : List Host.Cell := []
  /-- Band claims: (8 × tile + band, role). -/
  claims : List (Nat × Nat) := []
  /-- Matrix class. -/
  cls    : Nat := 0
  /-- Steps completed, modulo 2^22, and for each class the loop whose step ran last: (class, loop). -/
  steps  : Nat := 0
  last   : List (Nat × Nat) := []
  deriving DecidableEq, Repr

/-- A matrix loop's operands as recorded at acceptance (R273 to R276). -/
structure LoopArgs where
  /-- Glazed layers; reservations and bank pairs of the primal and of each glazed layer. -/
  layers : List Nat := []
  slots  : List Nat := []
  tiles  : List (Nat × Nat) := []
  org    : Nat := 0
  eb     : Nat := 0
  ks     : Nat := 0
  da     : Int := 0
  db     : Int := 0
  /-- Operand slot width, easel window and tangent offset (R259, R173). -/
  width  : Nat := 16
  window : Nat := 0
  toff   : Nat := 0
  /-- Keep masks of a sparse loop, 64 for each step (R271). -/
  masks  : Option (List DWord) := none
  /-- Matrix class and owner thread (R268, R288). -/
  cls    : Nat := 0
  owner  : Nat := 0
  /-- Steps done. -/
  done   : Nat := 0
  deriving DecidableEq, Repr

/-- A matrix command (R263): reservations and banks by their numbers. -/
inductive MOp where
  /-- EASLD: core, first row, rows, pool address; lines whose fill failed (R280). -/
  | easld (core row n addr : Nat) (failed : List Nat)
  /-- PWR: reservation, (row, offset, bytes) in rank order. -/
  | pwr (slot : Nat) (parts : List (Nat × Nat × List Byte))
  | loop (a : LoopArgs)
  /-- ACCZ: the two banks and the bands. -/
  | accz (lo hi : Nat) (bands : Nat)
  /-- ACCRD: the two banks, element count, .z, destination, and (rank, row, column). -/
  | accrd (lo hi n : Nat) (z : Bool) (d : Nat) (parts : List (Nat × Nat × Nat))
  /-- ACCWR: (row, column, bytes). -/
  | accwr (lo hi : Nat) (parts : List (Nat × Nat × List Byte))
  | accfr (banks : List Nat)
  | pfree (slot : Nat)
  deriving DecidableEq, Repr

/-- A command in a team's matrix queue, in the order of acceptance (R263, R264). Resources are numbered 4 × reservation,
4 × bank + 1 and 4 × (16 × core + block) + 2. -/
structure MCommand where
  id     : Nat := 0
  team   : Nat := 0
  ticket : Nat := 0
  op     : MOp := .accfr []
  reads  : List Nat := []
  writes : List Nat := []
  /-- The tiles it writes, by the names they had at its acceptance (R290). -/
  tiles  : List Nat := []
  started : Bool := false
  sys    : Bool := false
  deriving DecidableEq, Repr

/-- What a word that waits for engine commands does when they are complete. -/
inductive EngineAct where
  /-- TWAIT (R253): queue and destination. -/
  | twait (queue d : Nat)
  /-- TCANCEL (R251). -/
  | cancel
  /-- FENCEQ (R360): scope. -/
  | fenceq (sc : Nat)
  /-- MWAIT (R290): destination, tile form. -/
  | mwait (d : Nat) (tile : Bool)
  /-- CWAIT (R342): destination. -/
  | cwait (queue d : Nat)
  /-- JOINW (R312) before the children retire: handle, none for every child; destination. -/
  | join (h : Option Nat) (d : Nat)
  /-- FENCEQ during its acquire (R360). -/
  | fenced
  /-- JOINW during its acquire: destination and status. -/
  | joined (d status : Nat)
  /-- CTXSV while its image is written: destination and status (R387). -/
  | answer (d v : Nat)
  /-- RECV.acq during its acquire: what it then writes (R332). -/
  | write (ws : List (Nat × Nat × Word))
  /-- SLOGP while replays are due or on their way (R376). -/
  | replays
  /-- TLBI (R371): 0 an address, 1 an address space, 2 all. -/
  | tlbi (kind asid va : Nat)
  deriving DecidableEq, Repr

/-- A word that waits for engine commands, messages or collective commands by their numbers. -/
structure EngineWait where
  ticket : Nat := 0
  team   : Nat := 0
  ranks  : List Nat := []
  ids    : List Nat := []
  act    : EngineAct := .cancel
  deriving DecidableEq, Repr

/-- A handler queue that a team owns (R321, R333). -/
structure Handler where
  quad  : Nat := 0
  queue : Nat := 0
  team  : Nat := 0
  lgd   : Nat := 0
  deriving DecidableEq, Repr

/-- The last verdict that a port received for a job (R325, R335): kind 1 quiet, 2 idle. -/
structure Latch where
  port : Nat := 0
  job  : Nat := 0
  wave : Nat := 0
  kind : Nat := 0
  deriving DecidableEq, Repr

/-- A thread that waits in RECV (R332), in arrival order. -/
structure RecvWait where
  ticket  : Nat := 0
  team    : Nat := 0
  rank    : Nat := 0
  d       : Nat := 0
  handler : Bool := false
  queue   : Nat := 0
  /-- The scope of its acquire; 0 without. -/
  acq     : Nat := 0
  deriving DecidableEq, Repr

/-- A gang's threads that wait in QUIET (R334): the last wave that began before it, and its predicates. -/
structure QuietWait where
  ticket : Nat := 0
  team   : Nat := 0
  ranks  : List Nat := []
  pq     : Nat := 7
  pl     : Nat := 7
  wave   : Nat := 0
  deriving DecidableEq, Repr

/-- A collective group (R338): participants, contributors for each device, member devices in rank order. -/
structure CollGroup where
  group   : Nat := 0
  n       : Nat := 0
  c       : Nat := 0
  members : List Nat := []
  /-- COLLs issued so far by each local contributor that has issued one: (local index, number). -/
  rounds  : List (Nat × Nat) := []
  deriving DecidableEq, Repr

/-- A collective command that is not complete, in the order of acceptance (R341). -/
structure CollCommand where
  id     : Nat := 0
  team   : Nat := 0
  rank   : Nat := 0
  queue  : Nat := 0
  desc   : BitVec 512 := 0
  bar    : Option Nat := none
  sys    : Bool := false
  /-- Which COLL of its participant on the group it is, from 1. -/
  round  : Nat := 0
  /-- MODEL: how far it is: 0 not begun, 1 its contribution is read, 2 its result is written; the line requests of that,
  and what the reads took: (offset in the contribution, bytes). -/
  stage  : Nat := 0
  reqs   : List Nat := []
  got    : List (Nat × List Byte) := []
  /-- The bytes it has written at DST, or the cause of its fault; then only its barrier object is to be updated, which may
  wait for the fill of a region line (R210). -/
  ended  : Option (Nat × Option Nat) := none
  waits  : Option Nat := none
  deriving DecidableEq, Repr

/-- A Shegus command queue (R398, R399, R403). -/
structure CmdQueue where
  qbase  : Nat := 0
  cbase  : Nat := 0
  /-- Log2 of the entries. -/
  lg     : Nat := 0
  enable : Bool := false
  error  : Bool := false
  tail   : Nat := 0
  head   : Nat := 0
  chead  : Nat := 0
  /-- Position of the next completion entry, and the phase of the pass it lies in. -/
  cpos   : Nat := 0
  phase  : Bool := true
  /-- A completion that found no room: the entry without its phase, and whether it interrupts. -/
  stalled : Option (Nat × Bool) := none
  /-- Pending commands as Shegus read them after their doorbell, oldest first. -/
  entries : List (BitVec 512) := []
  deriving DecidableEq, Repr

/-- A context image that CTXSV wrote (R387, R389): its cluster, address space and address, the header and the withdrawn
waits that it wrote, the sizes of its sections and of the pieces of each team block, and the places of each team's threads. -/
structure Saved where
  cluster : Nat := 0
  quads   : List Nat := []
  asid    : Nat := 0
  va      : Nat := 0
  header  : List DWord := []
  waits   : List Byte := []
  sizes   : List Nat := []
  blocks  : List (List Nat) := []
  places  : List (List (Nat × Nat × Bool)) := []
  deriving DecidableEq, Repr

/-- An allocation of Shegus (R401): address space, virtual and physical address, bytes, large leaves. -/
structure Alloc where
  asid  : Nat := 0
  va    : Nat := 0
  pa    : Nat := 0
  bytes : Nat := 0
  large : Bool := false
  deriving DecidableEq, Repr

/-- The whole device. -/
structure State where
  /-- MODEL: the schedule's next choices; empty, the deterministic policy of Policy.lean chooses. -/
  agenda  : List Choice := []
  /-- MODEL: the gang whose word is being executed. -/
  cur     : Option Nat := none
  /-- MODEL: the time since power-on in units of 1/45,045 of a nominal 2.4 GHz clock (R4, R21, R22). -/
  now     : Nat := 0
  /-- MODEL: the counter that free values are drawn at (DESIGN CHOICE, notes/assumptions/1.md). -/
  fresh   : Nat := 0
  /-- MODEL: the next number for gangs, folds, tickets, results, accesses, requests, teams, clusters and commands. -/
  nextId  : Nat := 1
  jobs     : List Job := []
  grids    : List Grid := []
  clusters : List Cluster := []
  teams    : List Team := []
  threads  : List Thread := []
  gangs    : List Gang := []
  folds    : List Fold := []
  /-- The lanes' overflow lists (R82), oldest first, and the threads still waiting for their own results. -/
  overflow : List Filed := []
  filing   : List Filed := []
  tickets  : List Ticket := []
  results  : List LongResult := []
  accesses : List Access := []
  /-- Physical memory by byte address: HBM, host memory, peers (R16, R201, R392). -/
  mem      : List Host.Cell := []
  reqs     : List HomeReq := []
  /-- MODEL: how requests ended that a held word looks for. -/
  ends     : List (Nat × ReqEnd) := []
  /-- Ranges of HBM pages of 64 KiB and the address space each belongs to (R221, R397): (first page, pages, asid). -/
  owners   : List (Nat × Nat × Nat) := []
  /-- The keys of the address-space identifiers, and the lines that were written last under another key than their owner's:
  (line, identifier) (R397). -/
  keys     : List (Nat × Nat) := []
  lineKeys : List (Nat × Nat) := []
  busy     : List Busy := []
  dir      : List DirEntry := []
  kept     : List KeptCell := []
  /-- MODEL: what the homes hold of the leads of lines in their L2: 0 the arrival and group of a lead written there, else
  the sectors' stamps alone (R222; DESIGN CHOICE, notes/assumptions/42.md). -/
  leadMode : Nat := 0
  /-- The lines in the L2 slices (R204, R222, R393), and the HBM stamps that are not 0: (line, stamp), H in bit 56 and ARR
  below it (R222). -/
  l2       : List L2Line := []
  hbmStamps : List (Nat × Nat) := []
  /-- The wake entries of the slices: (slice, cell) (R228). -/
  wakes    : List (Nat × Nat) := []
  /-- Spill areas of the address spaces, in entries (R221). -/
  spills   : List (Nat × Nat) := []
  /-- States of the 64-byte host halves that the homes hold, by half number; an unlisted half is I (R393). -/
  halves   : List (Nat × Half) := []
  /-- Snoops of host halves that wait for the request in progress on their line, oldest first: half, and whether it is
  SnpInv (R394). -/
  snoops   : List (Nat × Bool) := []
  /-- What the device has sent to the outside, oldest first. -/
  outputs  : List Output := []
  /-- Arrival counts of the slices, those that are not zero (R216). -/
  arrivals : List (Nat × Nat) := []
  side     : List SideEntry := []
  /-- Retirement sequence numbers of the side logs (R372), those that are not zero. -/
  sideSeq  : List (Nat × Nat) := []
  /-- When each side log last replayed all its entries (R374). -/
  replays  : List (Nat × Nat) := []
  /-- Commands of the copy engines that are not complete, in order of acceptance, the teams' fault records, and the words
  that wait for engines. -/
  commands : List CopyCommand := []
  copyRecs : List CopyRecord := []
  engineWaits : List EngineWait := []
  /-- Matrix state of the resident teams, the matrix commands that are not complete, and the steps that ran last on
  each quad, one for each class, the latest first: (quad, team, class) (R289, R291). -/
  matrix   : List Matrix := []
  mcommands : List MCommand := []
  mturns   : List (Nat × Nat × Nat) := []
  /-- Translations that map units, walkers and engines hold (R371). -/
  tlb      : List TlbEntry := []
  /-- Where the root table of each address space lies (R368; DESIGN CHOICE, notes/assumptions/6.md): (asid, physical address). -/
  roots    : List (Nat × Nat) := []
  /-- Fault notices that Shegus holds: (asid, page, kind), the kind 0 a read, 1 a write, 2 a clause fetch, 3 an atomic
  (R370). -/
  pageFaults : List (Nat × Nat × Nat) := []
  /-- MODEL: where Shegus puts its next page table (DESIGN CHOICE, notes/assumptions/6.md). -/
  tableNext : Nat := 0x3F00000000
  /-- Messages accepted into send buffers and not yet delivered, oldest first (R318). -/
  sendBuf  : List Message := []
  /-- Messages in receive and handler queues, oldest first. -/
  inbox    : List Queued := []
  /-- Counter sets in use (R322). -/
  sets     : List CounterSet := []
  /-- Dies in the package, the seam works, die 0 has its host port (R9, R11, R406; DESIGN CHOICE, notes/assumptions/5.md). -/
  dies     : Nat := 2
  /-- Strapped identity of a single die (R406). -/
  strap    : Nat := 0
  /-- Dies that run: not failed and not held in reset (R300, R404, R408). -/
  up       : List Bool := [true, true]
  seam     : Bool := true
  /-- A seam link has failed: the seam does not work again before a reset of the device (R314). -/
  seamBroken : Bool := false
  hostPort : Bool := true
  /-- Clock counts of the two dies: clocks counted until a die's rate last changed, in units of 1/720,720 clock, the time of
  that change, and the rate in sixteenths of 2.4 GHz since (R22, R407; 0 for a die in reset). -/
  clocks   : List (Nat × Nat × Nat) := [(0, 0, 16), (0, 0, 16)]
  /-- Clocks that a core had received when its die's count began, by device core number, where that is not 0 (R22; DESIGN CHOICE,
  notes/assumptions/82.md). -/
  coreSkew : List (Nat × Nat) := []
  /-- The clause caches of the cores, oldest first: core, address space, header address, header and words (R79, R367;
  DESIGN CHOICE, notes/assumptions/84.md). -/
  code     : List (Nat × Nat × Nat × List DWord) := []
  /-- Feature masks of the cores, by device core number, that differ from `features` (R91). -/
  coreFeatures : List (Nat × Nat) := []
  /-- The strapped feature mask (R91; DESIGN CHOICE, notes/assumptions/5.md). -/
  features : Nat := 0x7F
  /-- The performance counters of the quads (R378), those that are not zero: (8 × quad + counter, value). -/
  counters : List (Nat × Nat) := []
  /-- MODEL: events of which Shegus still owes the host a notice, in this step: (kind, a, b). -/
  events   : List (Nat × Nat × Nat) := []
  /-- MODEL: teams aborted in this step whose threads, tasks and messages are still to be settled. -/
  killed   : List Nat := []
  /-- Activity of aborted teams that is still to be lowered, until their place has a counter set: (place, job, AD) (R322,
  R327). -/
  lateAd   : List (Nat × Nat × Nat) := []
  /-- MODEL: notices of ended grids that wait for the writes of their records, by the requests' numbers (R439). -/
  endNotices : List (Nat × List Nat) := []
  /-- The last grid instance number given (R311). -/
  gridNum  : Nat := 0
  /-- Handler queues in use, latched verdicts, loss notes on their way to their roots (job, count, reporter), and the
  threads that wait in RECV and QUIET. -/
  handlers : List Handler := []
  latches  : List Latch := []
  lossNotes : List (Nat × Nat × Nat) := []
  recvWaits : List RecvWait := []
  quiets   : List QuietWait := []
  /-- Collective groups and the collective commands that are not complete. -/
  collGroups : List CollGroup := []
  colls    : List CollCommand := []
  /-- Context images. -/
  saved    : List Saved := []
  /-- The 16 command queues (R398), the notice buffer (kind and data) and the notices not kept (R403). -/
  queues   : List CmdQueue := List.replicate 16 {}
  notices  : List (Nat × Nat) := []
  noticesLost : Nat := 0
  /-- Host halves that Shegus has asked for and not yet been granted: (half, to own it) (R393, R401). -/
  hostAsks : List (Nat × Bool) := []
  /-- Command queues and the jobs that are outside their caller's rights (R401; DESIGN CHOICE, notes/assumptions/9.md). -/
  denied   : List (Nat × Nat) := []
  /-- What ALLOC has handed out (R401). -/
  allocs   : List Alloc := []
  /-- The HDM window: address space, base and bytes (R395, R401). -/
  hdm      : Option (Nat × Nat × Nat) := none
  /-- Power cap in watts, none until the first POWERCAP (R401, R408). -/
  powercap : Option Nat := none
  /-- Corrected (even) and uncorrected (odd) error counts: (8 × die + 2 × class, count), class 0 array, 1 link,
  2 crossbar (R24, R402). -/
  ecc      : List (Nat × Nat) := []
  /-- MODEL: the last change of a die's clock was a rise (R407). -/
  rose     : List Bool := [false, false]
  /-- The image in the module flash, empty before the first FWLOAD (R401, R404). -/
  flash    : List Byte := []
  /-- The firmware images that the dies run, empty before their first reset, their versions, the rollback counter, and the
  measurement slots, slot k for stage k: 0 the ROM, 1 the firmware (R404; DESIGN CHOICE, notes/assumptions/2.md). -/
  images   : List (List Byte) := [[], []]
  firmware : List Nat := [0, 0]
  rollback : Nat := 0
  slots    : List (List Byte) := [[], []]
  /-- MODE (R378): the counters are detailed. -/
  detailed : Bool := true
  /-- Straps of the capability list (R406; DESIGN CHOICE, notes/assumptions/5.md): maximum glaze depth, largest spill area, largest HDM
  window, fabric ports, order number code, pod device number. -/
  maxDepth : Nat := 4
  spillMax : Nat := 65536
  hdmMax   : Nat := 0x3F00000000
  ports    : Nat := 12
  /-- Order number code (R406): 1 NK-P960, 2 NK-P960M, 3 NK-P480D. -/
  order    : Nat := 1
  pod      : Nat := 0
  deriving DecidableEq, Repr

/-- The machine right after reset: every field at its default, which is the value the spec gives, or the value that
notes/assumptions names (INVENTORY.md, State). -/
def State.reset : State := {}

end Sys2Proof.Machine
end

