-- ==== Sys2Proof/Machine/Memory.lean ====
section
/-! DEFINITION. Sparse byte memory: a list of (address, byte) pairs with addresses strictly rising and no zero byte,
an unlisted address reading as zero (DESIGN CHOICE, notes/assumptions/4.md). One library serves physical memory, the pool, the palette,
the easels and the accumulator tiles. -/

namespace Sys2Proof.Machine

open Sys2Proof

/-- The canonical form: addresses strictly rising, no zero byte listed. -/
def memWf : List Host.Cell → Bool
  | [] => true
  | [(_, b)] => b != 0
  | (a, b) :: (a', b') :: m => b != 0 && decide (a < a') && memWf ((a', b') :: m)

/-- The byte at an address. -/
def readByte : List Host.Cell → Nat → Byte
  | [], _ => 0
  | (a', b) :: m, a => if a = a' then b else readByte m a

/-- A cell in front of a memory, left out when its byte is zero. -/
def consCell (a : Nat) (b : Byte) (m : List Host.Cell) : List Host.Cell := if b = 0 then m else (a, b) :: m

/-- Write one byte, keeping the canonical form. -/
def writeByte : List Host.Cell → Nat → Byte → List Host.Cell
  | [], a, b => consCell a b []
  | (a', b') :: m, a, b =>
    if a < a' then consCell a b ((a', b') :: m)
    else if a = a' then consCell a b m
    else (a', b') :: writeByte m a b

/-- `n` bytes from an address on. -/
def readBytes (m : List Host.Cell) (a n : Nat) : List Byte := (List.range n).map fun i => readByte m (a + i)

/-- Write bytes from an address on. -/
def writeBytes (m : List Host.Cell) (a : Nat) : List Byte → List Host.Cell
  | [] => m
  | b :: bs => writeBytes (writeByte m a b) (a + 1) bs

/-- The little-endian number of a byte string (R3). -/
def fromBytes : List Byte → Nat
  | [] => 0
  | b :: bs => b.toNat + 256 * fromBytes bs

/-- The `n` low bytes of a number, little-endian. -/
def toBytes : Nat → Nat → List Byte
  | 0, _ => []
  | n + 1, v => BitVec.ofNat 8 v :: toBytes n (v / 256)

/-- The little-endian number of `n` bytes at an address. -/
def readNat (m : List Host.Cell) (a n : Nat) : Nat := fromBytes (readBytes m a n)

/-- Write a number as `n` little-endian bytes. -/
def writeNat (m : List Host.Cell) (a n v : Nat) : List Host.Cell := writeBytes m a (toBytes n v)

/-- A sparse map from numbers to numbers with a default. -/
def getKey (l : List (Nat × Nat)) (k dflt : Nat) : Nat := ((l.find? fun p => p.1 == k).map (·.2)).getD dflt

/-- Set a key of a sparse map; the default value is not listed. -/
def setKey (l : List (Nat × Nat)) (k v dflt : Nat) : List (Nat × Nat) :=
  let l' := l.filter fun p => p.1 != k
  if v == dflt then l' else (k, v) :: l'

/-- Bits [hi:lo] of a number. -/
def bits (v hi lo : Nat) : Nat := v / 2 ^ lo % 2 ^ (hi + 1 - lo)

/-- Bit `i` of a number. -/
def bit (v i : Nat) : Bool := v / 2 ^ i % 2 == 1

/-- Replace bits [hi:lo] of a number. -/
def setBits (v hi lo x : Nat) : Nat :=
  v - bits v hi lo * 2 ^ lo + (x % 2 ^ (hi + 1 - lo)) * 2 ^ lo

/-- A number of `w` bits read as signed. -/
def toSigned (w v : Nat) : Int := if 2 * (v % 2 ^ w) < 2 ^ w then ((v % 2 ^ w : Nat) : Int) else ((v % 2 ^ w : Nat) : Int) - (2 ^ w : Nat)

/-- An integer modulo 2^w. -/
def wrap (w : Nat) (v : Int) : Nat := (v % ((2 ^ w : Nat) : Int)).toNat

end Sys2Proof.Machine
end

