-- ==== Sys2Proof/Machine/Ops.lean ====
section
/-! DEFINITION. The named operations every meaning is written with: looking records up and updating them, registers,
long results, clause ends, splits and filing, taking a trap and aborting a job. -/

namespace Sys2Proof.Machine

open Sys2Proof

/-! ### Records -/

def State.gang? (s : State) (id : Nat) : Option Gang := s.gangs.find? fun g => g.id == id
def State.team (s : State) (id : Nat) : Team := (s.teams.find? fun t => t.id == id).getD {}
def State.cluster (s : State) (id : Nat) : Cluster := (s.clusters.find? fun c => c.id == id).getD {}
def State.grid (s : State) (id : Nat) : Grid := (s.grids.find? fun g => g.id == id).getD {}
def State.job? (s : State) (id : Nat) : Option Job := s.jobs.find? fun j => j.id == id && !j.closed
def State.job (s : State) (id : Nat) : Job := (s.job? id).getD {}
def State.thread (s : State) (team rank : Nat) : Thread :=
  (s.threads.find? fun t => t.team == team && t.rank == rank).getD {}
def State.ticket? (s : State) (id : Nat) : Option Ticket := s.tickets.find? fun t => t.id == id

def State.updGang (s : State) (id : Nat) (f : Gang → Gang) : State :=
  { s with gangs := s.gangs.map fun g => if g.id == id then f g else g }
def State.updTeam (s : State) (id : Nat) (f : Team → Team) : State :=
  { s with teams := s.teams.map fun t => if t.id == id then f t else t }
def State.updCluster (s : State) (id : Nat) (f : Cluster → Cluster) : State :=
  { s with clusters := s.clusters.map fun c => if c.id == id then f c else c }
def State.updGrid (s : State) (id : Nat) (f : Grid → Grid) : State :=
  { s with grids := s.grids.map fun g => if g.id == id then f g else g }
def State.updJob (s : State) (id : Nat) (f : Job → Job) : State :=
  { s with jobs := s.jobs.map fun j => if j.id == id && !j.closed then f j else j }
def State.updThread (s : State) (team rank : Nat) (f : Thread → Thread) : State :=
  { s with threads := s.threads.map fun t => if t.team == team && t.rank == rank then f t else t }

/-- Draw a free value: any number at all (DESIGN CHOICE, notes/assumptions/1.md). -/
def State.free (s : State) : Nat × State := (Config.freeValue s.fresh, { s with fresh := s.fresh + 1 })

/-! ### Numbers of the device (R11, R12) -/

/-- The quad lane of a thread (R12). -/
def laneOf (rank : Nat) : Nat := rank % 32
/-- The device number of the core that runs a quad lane. -/
def coreOf (quad lane : Nat) : Nat := 4 * quad + lane / 8
/-- The core slot in its cluster of a thread's core (R18). -/
def coreSlot (t : Team) (rank : Nat) : Nat := 4 * t.idx + laneOf rank / 8
/-- The feature mask of a core (R91). -/
def State.featuresOf (s : State) (core : Nat) : Nat := getKey s.coreFeatures core s.features

/-- A die is part of the product (R9, R406). -/
def State.hasDie (s : State) (die : Nat) : Bool := decide (die < 2) && (s.dies == 2 || die == s.strap)
/-- A device quad exists (R11). -/
def State.hasQuad (s : State) (q : Nat) : Bool := s.hasDie (q / 32)

/-- The units of `State.now` in a nominal clock of 2.4 GHz. A clock at each rate of R407 lasts a whole number of them, so a
duration given in clocks keeps its clock count exactly (R4). -/
def clockUnits : Nat := 45045
/-- A duration in microseconds, in units of `State.now`. -/
def micros (n : Nat) : Nat := n * (2400 * clockUnits)
/-- The clocks a die has received since it left reset, in sixteenths of a unit of `State.now` (R22). -/
def State.dieTicks (s : State) (die : Nat) : Nat :=
  let c := s.clocks.getD die (0, 0, 16)
  c.1 + (s.now - c.2.1) * c.2.2
/-- The clocks a die has received since it left reset (R22). -/
def State.dieClock (s : State) (die : Nat) : Nat := s.dieTicks die / (16 * clockUnits)
/-- The clocks a core has received since it left reset: each core has a counter of its own (R22). -/
def State.coreCount (s : State) (core : Nat) : Nat := s.dieClock (core / 128) + getKey s.coreSkew core 0
/-- sr.clk of a core (R22). -/
def State.coreClock (s : State) (core : Nat) : Nat := s.coreCount core % 2 ^ 64
/-- The rate of a die's clock, in sixteenths of 2.4 GHz. -/
def State.rate (s : State) (die : Nat) : Nat := (s.clocks.getD die (0, 0, 0)).2.2
/-- The time that `n` clocks of a die take (R4). -/
def State.span (s : State) (die n : Nat) : Nat := n * (if s.rate die = 0 then clockUnits else 16 * clockUnits / s.rate die)
/-- The die of a counter place: quad ports, fabric interfaces, command processors. -/
def placeDie (port : Nat) : Nat := if port < 64 then port / 32 else port % 2
/-- The die of a side log: quads, the host stop, fabric interfaces (R372). -/
def logDie (log : Nat) : Nat := if log < 64 then log / 32 else log - 65
/-- A lane of a quad spends `n` clocks (R4, R71). -/
def State.spend (s : State) (quad n : Nat) : State := { s with now := s.now + s.span (quad / 32) n }

/-- The cores of a quad discard their clause caches (R367). -/
def State.dropCode (s : State) (quad : Nat) : State := { s with code := s.code.filter fun c => c.1 / 4 != quad }

/-! ### Registers (R43, R44, R106, R110, R158) -/

/-- One 32-bit register of a plane: v0 to v191, g0 to g62, zr. -/
def State.reg (s : State) (team rank plane i : Nat) : Word :=
  if i < 192 then (s.thread team rank).regs.getD (plane * (s.team team).alloc + i) 0
  else if i < 255 then (s.team team).gregs.getD (plane * 63 + (i - 192)) 0
  else 0

/-- The value of `n` consecutive registers, the first in the low bits (R128); zr reads zero. -/
def State.regs (s : State) (team rank plane i : Nat) : Nat → Nat
  | 0 => 0
  | n + 1 => if i = 255 then 0 else (s.reg team rank plane i).toNat + 2 ^ 32 * s.regs team rank plane (i + 1) n

/-- Write one 32-bit register of a plane; zr discards. Every gang reads a g register's new value from the end of the word
that writes it on, where R110 gives the gangs of a clause that starts less than 8 clocks later either value
(DESIGN CHOICE, notes/assumptions/89.md). -/
def State.setReg (s : State) (team rank plane i : Nat) (v : Word) : State :=
  if i < 192 then
    s.updThread team rank fun t => { t with regs := t.regs.set (plane * (s.team team).alloc + i) v }
  else if i < 255 then
    s.updTeam team fun t => { t with gregs := t.gregs.set (plane * 63 + (i - 192)) v }
  else s

/-- Write a list of (plane, register, value). -/
def State.setRegs (s : State) (team rank : Nat) : List (Nat × Nat × Word) → State
  | [] => s
  | (k, i, v) :: ws => (s.setReg team rank k i v).setRegs team rank ws

/-- The writes of an `n`-register value with its layers: layer k takes `tan k`, and 0 above what `tan` gives (R160,
R162). zr takes nothing. -/
def valueWrites (depth i n v : Nat) (tan : Nat → Nat) : List (Nat × Nat × Word) :=
  if i = 255 then []
  else (List.range (depth + 1)).flatMap fun k =>
    (List.range n).map fun j => (k, i + j, BitVec.ofNat 32 ((if k = 0 then v else tan k) / 2 ^ (32 * j)))

/-- A predicate p0 to p7 of a thread (R46, R106). -/
def Thread.pred (t : Thread) (p : Nat) : Bool := p == 7 || t.preds.toNat.testBit p

/-- Write a predicate; p7 discards (R46). -/
def State.setPred (s : State) (team rank p : Nat) (v : Bool) : State :=
  if p < 7 then s.updThread team rank fun t =>
    { t with preds := if v then t.preds ||| (1#7 <<< p) else t.preds &&& ~~~(1#7 <<< p) }
  else s

/-- A thread passes the guard P (R32). -/
def guardPasses (p : Nat) (t : Thread) : Bool := t.pred (p % 8) != decide (8 ≤ p)

/-! ### Long results (R72 to R74, R80, R85) -/

/-- The outstanding-result counter of a gang for a class (R74). -/
def State.counter (s : State) (gang cls : Nat) : Nat :=
  (s.tickets.filter fun t => t.gangs.contains gang && t.cls == cls).length

/-- All eight counters of a gang are zero. -/
def State.quietGang (s : State) (gang : Nat) : Bool := s.tickets.all fun t => !t.gangs.contains gang

/-- A word with a long result of class `cls` issues, owing one write for each rank listed; with nothing owed there is
no result to wait for. -/
def State.issue (s : State) (gang team cls : Nat) (parts : List Nat) : Nat × State :=
  if parts.isEmpty then (0, s)
  else (s.nextId, { s with nextId := s.nextId + 1,
                            tickets := s.tickets ++ [{ id := s.nextId, cls, team, gangs := [gang], parts }] })

/-- One write owed to `rank` under a ticket has been made. When nothing is owed any more, the counters fall. -/
def State.settleTicket (s : State) (id rank : Nat) : State :=
  { s with tickets := (s.tickets.map fun t => if t.id == id then { t with parts := t.parts.erase rank } else t).filter
             fun t => !(t.id == id && t.parts.isEmpty) }

/-- A long result is ready to be written. -/
def State.addResult (s : State) (ticket team rank : Nat) (act : ResultAct) : State :=
  { s with nextId := s.nextId + 1, results := s.results ++ [{ id := s.nextId, ticket, team, rank, act }] }

/-- Owe one more write to a rank under a ticket. -/
def State.owe (s : State) (ticket rank n : Nat) : State :=
  { s with tickets := s.tickets.map fun t =>
      if t.id == ticket then { t with parts := t.parts ++ List.replicate n rank } else t }

/-- Register writes of one owed part become long results, one for each 32-bit register with its layers (R73, R168). -/
def State.addRegResults (s : State) (ticket team rank : Nat) (ws : List (Nat × Nat × Word)) : State :=
  let is := (ws.map fun w => w.2.1).eraseDups
  match is with
  | [] => s.addResult ticket team rank .nothing
  | _ => is.foldl (fun s i => s.addResult ticket team rank (.regs (ws.filter fun w => w.2.1 == i)))
           (s.owe ticket rank (is.length - 1))

/-! ### Folds and gangs (R80 to R86) -/

/-- The gang-table entry that a new gang of a lane takes (R74, R80): the lowest free one. Which free entry it is the spec
does not say (DESIGN CHOICE, notes/assumptions/85.md). -/
def State.freeEntry (s : State) (quad lane : Nat) : Option Nat :=
  (List.range 17).find? fun e =>
    s.gangs.all fun g => !(g.entry == e && g.lane == lane && (s.team g.team).quad == quad)

/-- The fold age limit of a grid in clocks (R84). -/
def foldLimit (g : Grid) : Nat := if g.fage = 0 then 256 else 2 ^ g.fage

/-- A fold's threads are keyed as a filing is (R81). -/
def Fold.keyed (x : Fold) (f : Filed) : Bool :=
  x.quad == f.quad && x.lane == f.lane && x.team == f.team && x.pc == f.pc && x.word == f.word
/-- Two filings have one key. -/
def Filed.keyed (o f : Filed) : Bool :=
  o.quad == f.quad && o.lane == f.lane && o.team == f.team && o.pc == f.pc && o.word == f.word

/-- File one thread under its key (R82). A fold's age counts from the filing of its oldest thread (R81). -/
def State.file (s : State) (f : Filed) : State :=
  match s.folds.find? fun x => x.keyed f with
  | some x =>
    { s with folds := s.folds.map fun y =>
        if y.id == x.id then { y with threads := y.threads ++ [(f.rank, f.done, f.carry)], since := min y.since f.since } else y }
  | none =>
    if (s.folds.filter fun x => x.quad == f.quad && x.lane == f.lane).length < 16 then
      let same := s.overflow.filter fun o => o.keyed f
      { s with
        nextId := s.nextId + 1,
        overflow := s.overflow.filter fun o => !o.keyed f,
        folds := s.folds ++ [{ id := s.nextId, quad := f.quad, lane := f.lane, team := f.team, pc := f.pc, word := f.word,
                               since := same.foldl (fun m o => min m o.since) f.since,
                               threads := (f.rank, f.done, f.carry) :: same.map fun o => (o.rank, o.done, o.carry) }] }
    else { s with overflow := s.overflow ++ [f] }

/-- File threads in rank order, now. -/
def State.fileAll (s : State) (fs : List Filed) : State :=
  fs.foldl (fun s f => s.file { f with since := s.dieClock (f.quad / 32) }) s

/-- A result is still owed to a thread (R85). -/
def State.owed (s : State) (team rank : Nat) : Bool :=
  s.tickets.any fun t => t.team == team && t.parts.contains rank

/-- Threads on their way into folds that are owed nothing any more are filed (R80, R85). -/
def State.fileReady (s : State) : State :=
  let ready := s.filing.filter fun f => !s.owed f.team f.rank
  { s with filing := s.filing.filter fun f => s.owed f.team f.rank }.fileAll ready

/-- Threads go into folds once their own results are written. -/
def State.sendToFolds (s : State) (fs : List Filed) : State := { s with filing := s.filing ++ fs }.fileReady

/-- A free fold of a lane is claimed by the head of the lane's overflow list (R82). -/
def State.claimFold (s : State) (quad lane : Nat) : State :=
  match s.overflow.find? fun f => f.quad == quad && f.lane == lane with
  | none => s
  | some f =>
    if (s.folds.filter fun x => x.quad == quad && x.lane == lane).length < 16 then { s with overflow := s.overflow.erase f }.file f
    else s

/-- Every free fold is claimed (R82). -/
def State.claimFolds (s : State) : State := s.overflow.foldl (fun (s : State) f => s.claimFold f.quad f.lane) s

/-- What the threads of a gang keep when they leave it at the end of a clause. -/
def Gang.leaving (g : Gang) : Carry := { sys := g.sys, trap := g.trap }
/-- What they keep when they leave it at the word where it stands. -/
def Gang.carry (g : Gang) : Carry :=
  if g.word = 0 then g.leaving
  else { sys := g.sys, trap := g.trap, pendWord := g.pendWord, ppt := g.ppt, beat := g.beat, flight := g.flight }

/-- Remove a gang's entry. Its outstanding results stay owed to their threads. -/
def State.dropGang (s : State) (id : Nat) : State :=
  { s with gangs := s.gangs.filter fun g => g.id != id,
           tickets := s.tickets.map fun t => { t with gangs := t.gangs.filter fun g => g != id } }

/-- A cause pending for a gang goes on with the thread of the given rank (R85, R154, R380). -/
def State.passPending (s : State) (g : Gang) (rank : Nat) : State :=
  match g.pending with
  | none => s
  | some cause => s.updThread g.team rank fun t => { t with pend := t.pend ++ [(cause, 0)] }

/-! ### Abort and trap entry (R314, R363, R365) -/

/-- Everything that the teams `p` own stops: gangs, folds, results, accesses, requests not yet performed, engine and
matrix commands and side-log entries (R314). Their threads, tasks and messages are settled at the end of the step
(`State.killed`). -/
def State.killTeams (s : State) (p : Nat → Bool) : State :=
  let mine := fun (team : Nat) => team != 0 && p team
  { s with
    killed := s.killed ++ (s.teams.filter fun t => p t.id && !t.retired).map (·.id),
    gangs := s.gangs.filter fun g => !p g.team,
    folds := s.folds.filter fun f => !p f.team,
    overflow := s.overflow.filter fun f => !p f.team,
    filing := s.filing.filter fun f => !p f.team,
    tickets := s.tickets.filter fun t => !p t.team,
    results := s.results.filter fun r => !p r.team,
    accesses := s.accesses.filter fun a => !p a.team,
    busy := s.busy.filter fun b => !(s.reqs.any fun r => r.id == b.req && mine r.team),
    reqs := s.reqs.filter fun r => !mine r.team,
    side := s.side.filter fun e => !mine e.req.team,
    commands := s.commands.filter fun c => !p c.team,
    copyRecs := s.copyRecs.filter fun c => !p c.team,
    engineWaits := s.engineWaits.filter fun w => !p w.team,
    matrix := s.matrix.filter fun m => !p m.team,
    mcommands := s.mcommands.filter fun c => !p c.team,
    colls := s.colls.filter fun c => !p c.team,
    recvWaits := s.recvWaits.filter fun w => !p w.team,
    clusters := s.clusters.map fun (c : Cluster) => { c with pwaits := c.pwaits.filter fun w => !p w.team },
    teams := s.teams.map fun t => if p t.id then { t with retired := true } else t }

/-- Abort a cluster: its teams cease, with its dirty lines and the write-backs on their way (R314). -/
def State.abortCluster (s : State) (cluster : Nat) : State :=
  let mine := fun (r : HomeReq) => cluster != 0 && r.cluster == cluster
  let s1 : State := { s with
    busy := s.busy.filter fun b => !(s.reqs.any fun r => r.id == b.req && mine r),
    reqs := s.reqs.filter fun r => !mine r,
    side := s.side.filter fun e => !mine e.req }
  (s1.killTeams fun t => (s1.team t).cluster == cluster).updCluster cluster fun c =>
    if c.retired then c else { c with aborted := true, lines := [] }

/-- Abort a grid: its clusters and teams cease, and it ends with the given STATUS and CAUSE (R313, R314). -/
def State.abortGrid (s : State) (grid status cause : Nat) : State :=
  ((s.clusters.filter fun c => c.grid == grid && !c.retired && !c.aborted).foldl (fun s c => s.abortCluster c.id) s).updGrid grid
    fun g => if g.status.isNone then { g with status := some (status, cause), stopped := true } else g

/-- Abort every grid of a job that has not ended (R363, R401). -/
def State.abortJob (s : State) (job status cause : Nat) : State :=
  (s.grids.filter fun g => g.job == job && g.status.isNone).foldl (fun s g => s.abortGrid g.id status cause) s

/-- The 8-bit code of a cause (R57). -/
def Cause.code : Cause → Nat
  | .illegalInstruction => 0x01 | .illegalClause => 0x02 | .illegalOperand => 0x03 | .featureAbsent => 0x04
  | .privilegedInstruction => 0x05 | .divideByZero => 0x06 | .apertureBound => 0x07 | .poolOutside => 0x08
  | .misaligned => 0x09 | .notPresent => 0x10 | .readNotAllowed => 0x11 | .writeNotAllowed => 0x12
  | .executeNotAllowed => 0x13 | .atomicNotAllowed => 0x14 | .privilegedPage => 0x15 | .siblingLimit => 0x16
  | .spillFull => 0x17 | .keptConflict => 0x18 | .bankNotAllocated => 0x20 | .slotNotReserved => 0x21
  | .shapeMismatch => 0x22 | .bandClaimed => 0x23 | .ringMisuse => 0x28 | .invalidBarrier => 0x29
  | .channelNotConfigured => 0x30 | .unreachable => 0x31 | .numericThreshold => 0x38 | .watchdog => 0x3C
  | .debugBreak => 0x3D | .userTrap => 0x3E | .seamLost => 0x3F

/-- The done-mask or member mask of a list of ranks, by gang position (R69, R365). -/
def posMask (members ranks : List Nat) : Nat :=
  ((List.range members.length).filter fun j => ranks.contains (members.getD j 0)).foldl (fun m j => m + 2 ^ j) 0

/-- sr.fault for a trap state (R365). -/
def faultWord (t : TrapState) : DWord :=
  BitVec.ofNat 64 (posMask t.members t.done * 2 ^ 32 + t.sv.toNat * 2 ^ 14 + t.lv.toNat * 2 ^ 13 + t.word * 2 ^ 8 + t.cause)

/-- The trap vector a cause or an SVC goes through (R363). -/
def vectorOf (j : Job) (cause : Option Cause) : Nat :=
  j.vectors.getD (match cause with | none => 1 | some .debugBreak => 2 | some .watchdog => 3 | some _ => 0) 0

/-- The header address that follows a gang's clause (R75). -/
def Gang.nextPc (g : Gang) : Nat := (g.pc + 8 * (g.clause.length + 1)) % 2 ^ 64

/-- Header fields (R27). -/
def hdrN (h : DWord) : Nat := bits h.toNat 63 59
def hdrCls (h : DWord) : Nat := bits h.toNat 58 56
def hdrWait (h : DWord) : Nat := bits h.toNat 55 48
def hdrPP (h : DWord) : Bool := bit h.toNat 47
def hdrSW (h : DWord) : Bool := bit h.toNat 46
def hdrTiles (h : DWord) : Nat := bits h.toNat 31 0

/-! ### Clause boundaries (R75, R76, R90, R382) -/

/-- A pre-emption is requested of a team's cluster, and whether its forced limit has passed (R384). -/
def State.stopRequested (s : State) (team : Nat) : Bool × Bool :=
  let c := s.cluster (s.team team).cluster
  (c.preempt.isSome, c.forced)

/-- The role of a thread is halted (R382). -/
def State.halted (s : State) (team rank : Nat) : Bool :=
  (s.team team).halt.toNat.testBit (s.thread team rank).role.toNat

/-- Threads of a halted role are kept with their PC, the word they resume at, their level and their trap state (R382). -/
def State.keepHaltedAt (s : State) (team : Nat) (ranks : List Nat) (pc word : Nat) (done : List Nat) (k : Carry) : State :=
  { s with threads := s.threads.map fun (t : Thread) =>
      if t.team == team && ranks.contains t.rank then { t with haltPc := some (pc, word, done.contains t.rank, k) } else t }
/-- Threads of a halted role are kept at a header (R382). -/
def State.keepHalted (s : State) (team : Nat) (ranks : List Nat) (pc : Nat) (k : Carry) : State :=
  s.keepHaltedAt team ranks pc 0 [] k

/-- At a clause boundary the threads whose role is halted leave their gang with their PC (R382). -/
def State.haltMembers (s : State) (gid : Nat) : State :=
  match s.gang? gid with
  | none => s
  | some g =>
    let out := g.members.filter fun r => s.halted g.team r
    if out.isEmpty then s
    else
      let s1 := s.keepHaltedAt g.team out g.pc g.word g.done g.carry
      if out.length = g.members.length then (s1.passPending g (out.headD 0)).dropGang gid
      else s1.updGang gid fun g => { g with members := g.members.filter fun r => !out.contains r }

/-- The live-tile mask of the end of a gang's clause, where a PPT or PP makes it a pre-emption point (R90). -/
def Gang.endMask (g : Gang) : Option Nat :=
  if hdrPP g.header || g.ppt.isSome then some (Nat.lor (if hdrPP g.header then hdrTiles g.header else 0) (g.ppt.getD 0)) else none

/-- A clause of a gang ends and the gang goes on at header `pc`: a PPT or PP makes the boundary a pre-emption point
(R90), SW parks the gang (R76), halted members leave (R382). -/
def State.endClause (s : State) (gid pc : Nat) : State :=
  match s.gang? gid with
  | none => s
  | some g =>
    let s1 := s.updGang gid fun g =>
      { g with pc, word := 0, done := [], ppt := none, beat := false, clause := [], flight := [],
               idleSince := s.dieClock ((s.team g.team).quad / 32), stopMask := g.endMask,
               status := if hdrSW g.header then .parked else .fetch }
    let s2 := s1.haltMembers gid
    let (req, forced) := s.stopRequested g.team
    if req && (g.endMask.isSome || forced) then
      s2.updGang gid fun g => { g with status := .stopped none, park := g.status == .parked } else s2

/-- The members `out` of a gang leave it for header `pc`: into a free entry of the lane, or, where none is free, into
folds (R80). They carry every outstanding result. Both sides stand at the end of the gang's clause. -/
def State.splitOff (s : State) (id : Nat) (out : List Nat) (pc : Nat) : State :=
  match s.gang? id with
  | none => s
  | some g =>
    let quad := (s.team g.team).quad
    let s1 := s.updGang id fun g => { g with members := g.members.filter fun r => !out.contains r }
    match s.freeEntry quad g.lane with
    | some e =>
      let n := s.nextId
      let g' : Gang := { g with id := n, entry := e, members := out, behind := [], eligible := none }
      let s2 : State := { s1 with
        nextId := n + 1,
        gangs := s1.gangs ++ [g'],
        tickets := s1.tickets.map fun (t : Ticket) => if t.gangs.contains id then { t with gangs := t.gangs ++ [n] } else t }
      s2.endClause n pc
    | none =>
      let stay := out.filter fun r => !s.halted g.team r
      ((s1.keepHalted g.team (out.filter fun r => s.halted g.team r) pc g.leaving).passPending g (out.headD 0)).sendToFolds
        (stay.map fun r => { quad, lane := g.lane, team := g.team, rank := r, pc, carry := g.leaving })

/-- Taking a trap, or an SVC where `cause` is none (R363, R365): `done` is the done-mask, `tmask` the members that are to
commit the redone word, `word` its index, 0 where the gang resumes at header `tres`.

With trap state live it is a double fault, and Shegus aborts the job with STATUS 5 and the second cause. With a zero
vector Shegus takes the trap: a debug break halts the roles of the Active members, any other cause aborts the job.
Otherwise the trap state and sr.fault are written, the level becomes system and the gang goes on at the vector. With no
word to redo, the trap of a running gang is the end of its clause, and so a pre-emption point where PP or a PPT makes it
one (R90); a gang that stands at a header stays at the boundary it stands at. -/
def State.takeTrap (s : State) (gid : Nat) (cause : Option Cause) (done tmask : List Nat)
    (word addr info tres : Nat) : State :=
  match s.gang? gid with
  | none => s
  | some g =>
    let job := (s.team g.team).job
    let code := (cause.map Cause.code).getD 0
    let t : TrapState := { tpc := g.pc, taddr := addr, tmask, tinfo := info, tres, done, word, cause := code,
                           sv := cause.isNone, lv := g.sys, members := g.members, pend := g.pendWord,
                           ppt := if word = 0 then none else g.ppt, beat := word ≠ 0 && g.beat }
    if g.trap.isSome then (s.updGang gid fun g => { g with status := .held .shegus }).abortJob job 5 code
    else if cause.isNone && g.sys then
      -- an SVC at system level: Shegus serves it and releases the gang at the next header
      s.endClause gid tres
    else
      let vec := vectorOf (s.job job) cause
      if vec = 0 then
        if cause = some .debugBreak then
          let roles := tmask.foldl (fun m r => Nat.lor m (2 ^ (s.thread g.team r).role.toNat)) 0
          (s.updTeam g.team fun t => { t with halt := t.halt ||| BitVec.ofNat 8 roles }).endClause gid tres
        else (s.updGang gid fun g => { g with status := .held .shegus }).abortJob job 5 code
      else
        let s1 := { s with threads := s.threads.map fun (th : Thread) =>
          if th.team == g.team && g.members.contains th.rank then { th with fault := faultWord t } else th }
        let mask := if word ≠ 0 then none else if g.word = 0 then g.stopMask else g.endMask
        let (req, forced) := s.stopRequested g.team
        s1.updGang gid fun g =>
          { g with trap := some t, pendWord := false, sys := true, pc := vec, word := 0, done := [], ppt := none,
                   beat := false, flight := [], stopMask := mask,
                   idleSince := if g.status == .running then s.dieClock ((s.team g.team).quad / 32) else g.idleSince,
                   status := if req && word = 0 && g.word ≠ 0 && (mask.isSome || forced) then .stopped none else .fetch }

/-- Move a gang past the word it has committed; the clause ends after its last word (R75). A numeric threshold that the
word brought about, or that was pending from it, is taken now with the given done-mask (R154). -/
def State.endWord (s : State) (gid occ : Nat) (done : List Nat) : State :=
  match s.gang? gid with
  | none => s
  | some g =>
    let s0 := s.spend (s.team g.team).quad occ
    if g.pendWord then
      (s0.updGang gid fun g => { g with pendWord := false }).takeTrap gid (some .numericThreshold) done []
        g.word 0 0 g.nextPc
    else if g.word < g.clause.length then s0.updGang gid fun g => { g with word := g.word + 1, done := [], flight := [] }
    else s0.endClause gid g.nextPc

/-- Insert a number in ascending order. -/
def insertNat (x : Nat) : List Nat → List Nat
  | [] => [x]
  | y :: ys => if x ≤ y then x :: y :: ys else y :: insertNat x ys
/-- Numbers in ascending order. -/
def sortNat : List Nat → List Nat
  | [] => []
  | x :: xs => insertNat x (sortNat xs)

end Sys2Proof.Machine
end

