-- ==== Sys2Proof/Machine/Operands.lean ====
section
/-! DEFINITION. How a word runs: the checks before it (R56), its Active threads (R32), its glazed set (R161), channel
operands (R45, R320), the loop over threads in rank order (R87), and what becomes of the gang when the word commits,
traps or is held. -/

namespace Sys2Proof.Machine

open Sys2Proof

/-! ### Checks -/

/-- Forms of system level alone (R53, R125). -/
def privileged : Instr → Bool
  | .tlbiVa _ | .tlbiAsid _ | .tlbiAll _ | .statr _ | .statw _ | .halt _ | .wdog _ | .slogr _ | .slogpReplay _
  | .slogpDrop _ | .slogpAll _ | .eret _ | .eretSkip _ | .eretPc _ | .ctxsv _ | .ctxld _ | .preemptStop _
  | .preemptForce _ | .preemptResume _ | .codeSegmentSwitch _ => true
  | _ => false

/-- The feature bits a form needs (R91, R138). MX8 and MX4 depend on a reservation record and are checked at the word. -/
def features : Instr → Nat
  | .fexp2 _ | .flog2 _ | .fsin _ | .fcos _ | .ftanh _ => 2
  | .fadd w | .fsub w | .fmul w | .ffma w | .fmin w | .fmax w | .fdiv w | .fsqrt w | .frcp w | .frsq w | .fsetp w
  | .fclassPredicate w | .fclassRegister w | .frnd w | .fscale w => if w.t = 6 then 1 else 0
  | .fcvt w | .f2i w => if w.t = 6 || w.s2 = 6 then 1 else 0
  | .i2f w => if w.t = 6 then 1 else 0
  | .glz _ | .tget _ | .tset _ | .tzero _ | .tseed _ | .gpln _ => 64
  | .mloops _ | .spkc _ => 36
  | .pres _ | .presOrg _ | .pfree _ | .easld _ | .mloop _ | .accal _ | .accfr _ | .accz _ | .accrd _ | .accwr _
  | .mwait _ | .mclass _ | .qblk _ | .pwr _ | .mstat _ => 4
  | _ => 0

/-- The GLZ word that covers word `i` of a clause: its mask and mode (R31, R161). -/
def coveringGlz (clause : List DWord) (i : Nat) : Option FmtG :=
  ((List.range (i - 1)).findSome? fun j =>
    let w := clause.getD j 0
    let g := splitG w
    if opcodeOf w = 0x0A && decide (i ≤ j + 1 + g.n.toNat) then some g else none)

/-- The glazed set G of word `i` of a team's clause (R161). -/
def glazedSet (t : Team) (clause : List DWord) (i : Nat) : List Nat :=
  let all := (List.range t.depth).map (· + 1)
  let base := if t.gall then all else []
  match coveringGlz clause i with
  | none => base
  | some g =>
    let mk := fun k => g.msk.toNat.testBit (k - 1)
    if g.md = 0 then all.filter fun k => base.contains k || mk k else base.filter fun k => !mk k

/-! ### The running word -/

/-- What a meaning sees of the word it runs. -/
structure Ctx where
  s   : State
  gid : Nat
  gang : Gang
  tm  : Team
  /-- Active threads in rank order (R32, R88). -/
  act : List Nat
  /-- The glazed set G (R161). -/
  g   : List Nat

/-- The lowest-ranked Active thread, whose value a g register takes (R110). -/
def Ctx.lead (c : Ctx) : Nat := c.act.headD 0
/-- The gang's lowest-ranked member, to whom results of the gang as a whole belong (R85). -/
def Ctx.first (c : Ctx) : Nat := c.gang.members.headD 0
/-- Gang position of a thread (R69). -/
def Ctx.pos (c : Ctx) (rank : Nat) : Nat := c.gang.members.findIdx (· == rank)
def Ctx.cluster (c : Ctx) : Cluster := c.s.cluster c.tm.cluster
def Ctx.grid (c : Ctx) : Grid := c.s.grid c.tm.grid
def Ctx.job (c : Ctx) : Job := c.s.job c.tm.job
/-- A thread's registers before the word (R111: all sources are read before any destination is written). -/
def Ctx.val (c : Ctx) (rank i n : Nat) : Nat := c.s.regs c.tm.id rank 0 i n
def Ctx.tan (c : Ctx) (rank k i n : Nat) : Nat := c.s.regs c.tm.id rank k i n

/-- How a word ends. -/
inductive WordOut where
  /-- Committed for every Active thread, after the given occupancy. -/
  | done (s : State) (occ : Nat)
  /-- A precise trap: the ranks that committed, cause, address and info (R87). -/
  | trap (s : State) (committed : List Nat) (cause : Cause) (addr info : Nat)
  /-- Held at the word (R89). -/
  | hold (s : State) (committed : List Nat) (w : Wait)
  /-- The word has settled where its gang goes on. -/
  | left (s : State)

/-- What one thread does at a word. -/
inductive ThreadOut where
  | ok (s : State)
  | trap (s : State) (cause : Cause) (addr info : Nat)
  | hold (s : State) (w : Wait)

/-- Run a word's Active threads in rank order: the first trap or hold stops it with the threads before it committed
(R87, R89). -/
def runThreads (f : State → Nat → ThreadOut) (occ : Nat) : State → List Nat → List Nat → WordOut
  | s, [], _ => .done s occ
  | s, r :: rs, com =>
    match f s r with
    | .ok s' => runThreads f occ s' rs (com ++ [r])
    | .trap s' c a i => .trap s' com c a i
    | .hold s' w => .hold s' com w

/-- What becomes of the gang (R75, R87, R89). The members that had already done a word that a gang resumed at stay in the
done-mask of every trap of that word, of a check of R54 too, where R55 says it is empty and R88 that they have done the
word (DESIGN CHOICE, notes/assumptions/86.md). -/
def finish (c : Ctx) : WordOut → State
  | .done s occ => s.endWord c.gid occ (if c.gang.pendWord then c.gang.members else c.gang.done ++ c.act)
  | .left s => s
  | .trap s com cause addr info =>
    let done := c.gang.done ++ com
    s.takeTrap c.gid (some cause) done (c.act.filter fun r => !com.contains r) c.gang.word addr info c.gang.nextPc
  | .hold s com w =>
    s.updGang c.gid fun g => { g with done := g.done ++ com, status := .held w, idleSince := s.dieClock (c.tm.quad / 32) }

/-- What the meaning of a word sees: the issuing gang, its team, its Active threads and the glazed set; none where no
gang issues. -/
def ctxOf (i : Instr) (s : State) : Option Ctx :=
  (s.cur.bind s.gang?).map fun gang =>
    let tm := s.team gang.team
    { s, gid := gang.id, gang, tm,
      act := gang.members.filter fun r => !gang.done.contains r && guardPasses i.guard.toNat (s.thread tm.id r),
      g := glazedSet tm gang.clause gang.word }

/-- The checks before a word runs, in the order of R56: privilege, then its own fields against the team, then the features
of its core. -/
def wordTrap (i : Instr) (c : Ctx) : Option Cause :=
  if privileged i && !c.gang.sys then some .privilegedInstruction
  else if !i.wellFormed || !i.allocated c.tm.alloc c.tm.depth c.g then some .illegalOperand
  else if Nat.land (features i) (c.s.featuresOf (coreOf c.tm.quad c.gang.lane)) ≠ features i then some .featureAbsent
  else none

/-- Run a word for the issuing gang: the checks, then `body`. With no issuing gang nothing happens. -/
def runWord (i : Instr) (s : State) (body : Ctx → WordOut) : State :=
  match ctxOf i s with
  | none => s
  | some c => finish c <| match wordTrap i c with
    | some cause => .trap s [] cause 0 0
    | none => body c

/-- A word that is no instruction (R54 to R56). -/
def runIllegal (d : Decoded) (s : State) : State :=
  match s.cur.bind s.gang? with
  | none => s
  | some gang =>
    let guard := bits (gang.clause.getD (gang.word - 1) 0).toNat 55 52
    let act := gang.members.filter fun r => !gang.done.contains r && guardPasses guard (s.thread gang.team r)
    let c : Ctx := { s, gid := gang.id, gang, tm := s.team gang.team, act, g := [] }
    finish c <| match d with
      | .illegalOperand true => if gang.sys then .trap s [] .illegalOperand 0 0 else .trap s [] .privilegedInstruction 0 0
      | .illegalOperand false => .trap s [] .illegalOperand 0 0
      | _ => .trap s [] .illegalInstruction 0 0

/-- Active members of a gang that have not committed its word. -/
def State.remaining (s : State) (g : Gang) : List Nat :=
  let p := (g.clause.getD (g.word - 1) 0).toNat / 2 ^ 52 % 16
  g.members.filter fun r => !g.done.contains r && guardPasses p (s.thread g.team r)

/-- A held gang takes a precise trap at its word (R87). -/
def State.trapHeld (s : State) (g : Gang) (cause : Cause) (addr info : Nat) : State :=
  s.takeTrap g.id (some cause) g.done (s.remaining g) g.word addr info g.nextPc

/-! ### Issue time (R71) -/

/-- Occupancy of `n` active threads at `per` threads a clock, at least 6. -/
def occOf (n per : Nat) : Nat := max 6 ((n + per - 1) / per)
/-- R71's occupancy: wide words at two threads a clock, others at four. -/
def occupancy (n : Nat) (wide : Bool) : Nat := if wide then occOf n 2 else occOf n 4

/-! ### Counter sets (R322, R323) -/

/-- A count at a place for a job finds a set (R322). -/
def State.canCount (s : State) (port job : Nat) : Bool :=
  s.sets.any (fun c => c.port == port && c.job == job) || decide ((s.sets.filter fun c => c.port == port).length < 256)

/-- Change the counts of a set in one step with its CHG bit, taking the set at its first count (R322). -/
def State.count (s : State) (port job : Nat) (f : CounterSet → CounterSet) : State :=
  if s.sets.any (fun c => c.port == port && c.job == job) then
    { s with sets := s.sets.map fun c => if c.port == port && c.job == job then { f c with chg := true } else c }
  else { s with sets := s.sets ++ [{ (f { port, job }) with chg := true }] }

/-- Counts are modulo 2^48 (R322). -/
def addCount (a n : Nat) : Nat := (a + n) % 2 ^ 48

/-! ### The end of a task and of a thread (R97, R306, R321, R323) -/

/-- The task record a thread holds retires: its record is consumed at the port of the thread's quad (R306). -/
def State.retireTask (s : State) (team rank : Nat) : State :=
  if (s.thread team rank).task then
    let t := s.team team
    (s.updThread team rank fun t => { t with task := false }).count t.quad t.job fun k => { k with mc := addCount k.mc 1 }
  else s

/-- The handler task a thread holds retires (R321). -/
def State.retireHandler (s : State) (team rank : Nat) : State :=
  if (s.thread team rank).handler then
    let t := s.team team
    (s.updThread team rank fun t => { t with handler := false }).count t.quad t.job fun k => { k with mc := addCount k.mc 1 }
  else s

/-- Shegus raises a host interrupt that names the team and the class (R154). -/
def State.hostInterrupt (s : State) (kind a b : Nat) : State := { s with events := s.events ++ [(kind, a, b)] }

/-- A port sends a loss note of so many messages of a job to the root (R327). -/
def State.postLoss (s : State) (job n reporter : Nat) : State :=
  { s with lossNotes := s.lossNotes ++ [(job, n, s.pod * 2 ^ 22 + reporter)] }

/-- The sends of some threads that have issued and wait to be accepted at their port (R306, R320, R323). -/
def State.pendingSends (s : State) (team : Nat) (ranks : List Nat) : List Nat :=
  (s.results.filter fun r => r.team == team && ranks.contains r.rank && match r.act with
    | .send .. => true
    | _ => false).map (·.ticket)

/-- The lowest of some ranks. -/
def lowest (rs : List Nat) : Nat := rs.foldl min (rs.headD 0)

/-- A thread is to take a numeric threshold of a class that a matrix step brought about (R268). -/
def State.pendThreshold (s : State) (team rank cls : Nat) : State :=
  s.updThread team rank fun t => { t with pend := t.pend ++ [(.numericThreshold, cls + 1)] }

/-- The thresholds of matrix steps that a thread leaves untaken go to the lowest-ranked live thread, or to the host
(R268). -/
def State.passThresholds (s : State) (team rank : Nat) : State :=
  let live := (s.threads.filter fun t => t.team == team && !t.ended && t.rank != rank).map (·.rank)
  ((s.thread team rank).pend.filter fun p => p.1 == .numericThreshold && p.2 != 0).foldl (fun (s : State) p =>
    if live.isEmpty then s.hostInterrupt 0 team (p.2 - 1) else s.pendThreshold team (lowest live) (p.2 - 1)) s

/-- A thread ends: its tasks retire, and its activity is lowered (R97, R323). -/
def State.endThread (s : State) (team rank : Nat) : State :=
  let t := s.team team
  ((((s.passThresholds team rank).retireTask team rank).retireHandler team rank).updThread team rank fun t => { t with ended := true }).count
    t.quad t.job fun k => { k with ad := addCount k.ad 1 }

/-! ### Channel operands (R45, R320) -/

/-- Fields of a channel entry image (R315). -/
def chKind (e : BitVec 128) : Nat := bits e.toNat 127 125
def chV (e : BitVec 128) : Bool := bit e.toNat 124
def chRX (e : BitVec 128) : Bool := bit e.toNat 123
def chLgd (e : BitVec 128) : Nat := bits e.toNat 122 120
def chDev (e : BitVec 128) : Nat := bits e.toNat 105 96
def chDq (e : BitVec 128) : Nat := bits e.toNat 95 90
def chDch (e : BitVec 128) : Nat := bits e.toNat 89 84
def chTagq (e : BitVec 128) : Nat := bits e.toNat 63 0

/-- The messages in a team's receive queue, oldest first. -/
def State.rx (s : State) (team q : Nat) : List Message :=
  (s.inbox.filter fun m => !m.handler && m.team == team && m.queue == q).map (·.msg)

/-- Take the head message out of a receive queue. -/
def State.dropRx (s : State) (team q : Nat) : State :=
  { s with inbox := s.inbox.eraseP fun m => !m.handler && m.team == team && m.queue == q }

/-- Why an entry cannot be sent through: 0x30 or 0x31, or nothing (R320). `kinds` are the admitted KIND values. -/
def State.sendFault (s : State) (t : Team) (e : BitVec 128) (kinds : List Nat) : Option Cause :=
  if !chV e || !kinds.contains (chKind e) then some .channelNotConfigured
  else match chKind e with
    | 1 => if chDq e < (s.cluster t.cluster).quads.length then none else some .unreachable
    | 2 => if s.hasQuad (chDq e) then none else some .unreachable
    | _ => if (s.job t.job).devices.contains (chDev e) then none else some .unreachable

/-- The send buffer of a port holds 256 messages (R318). -/
def State.sendRoom (s : State) (port n : Nat) : Bool :=
  decide ((s.sendBuf.filter fun m => m.port == port).length + n ≤ 256)

/-- The quad's port takes one message into its send buffer (R317, R318). -/
def State.bufferSend (s : State) (t : Team) (rank entry : Nat) (image : BitVec 128) (elems : List DWord) (rel : Nat) : State :=
  let m : Message := { id := s.nextId, port := t.quad, dev := s.pod, quad := t.quad, team := t.id, rank, entry, job := t.job, image,
                       elems, rel }
  { s with nextId := s.nextId + 1, sendBuf := s.sendBuf ++ [m] }

/-- Accept one message at the quad's port; the injection is counted (R318, R323). -/
def State.acceptSend (s : State) (t : Team) (rank entry : Nat) (image : BitVec 128) (elems : List DWord) (rel : Nat) : State :=
  (s.bufferSend t rank entry image elems rel).count t.quad t.job fun c => { c with mi := addCount c.mi 1 }

/-- The channel reads of a thread's source fields, in order: how deep into each queue they reach (R45). -/
def channelDepth : List (Nat × Nat) → List (Nat × Nat) → List (Nat × Nat) → List (Nat × Nat)
  | [], _, need => need
  | (f, _) :: fs, popped, need =>
    if f < 512 then channelDepth fs popped need
    else
      let q := f % 256
      let k := getKey popped q 0
      let need' := setKey need q (max (getKey need q 0) (k + 1)) 0
      channelDepth fs (if f / 256 % 2 = 1 then setKey popped q (k + 1) 0 else popped) need'

/-- Every pop and peek of every Active thread, together (R320). -/
def channelNeed (srcs : List (Nat × Nat)) (n : Nat) : List (Nat × Nat) :=
  channelDepth (List.replicate n srcs).flatten [] []

/-- Read one source field of a thread: registers from before the word, or a channel element at this moment (R45, R320). -/
def readSrc (c : Ctx) (s : State) (rank f n : Nat) : Nat × State :=
  if f < 512 then (c.val rank f n, s)
  else
    let q := f % 256
    let v := match s.rx c.tm.id q with
      | m :: _ => (m.elems.headD 0).toNat % 2 ^ (32 * n)
      | [] => 0
    if f / 256 % 2 = 1 then
      (v, (s.dropRx c.tm.id q).count c.tm.quad c.tm.job fun k => { k with mc := addCount k.mc 1 })
    else (v, s)

/-- Read source fields in order. -/
def readSrcs (c : Ctx) (rank : Nat) : State → List (Nat × Nat) → List Nat × State
  | s, [] => ([], s)
  | s, (f, n) :: fs =>
    let (v, s1) := readSrc c s rank f n
    let (vs, s2) := readSrcs c rank s1 fs
    (v :: vs, s2)

/-- The layer-k sources of a thread; a channel carries none (R158, R174). -/
def readTans (c : Ctx) (rank k : Nat) (srcs : List (Nat × Nat)) : List Nat :=
  srcs.map fun (f, n) => if f < 512 then c.tan rank k f n else 0

/-- The first source field that names a channel without a receive queue raises 0x30 (R320). -/
def srcFault (t : Team) (srcs : List (Nat × Nat)) : Option Cause :=
  srcs.findSome? fun (f, _) =>
    if f < 512 then none
    else
      let e := t.chans.getD (f % 256) 0
      if chV e && chRX e then none else some .channelNotConfigured

/-! ### Arithmetic words -/

/-- What a thread's computation gives: its result, its layers 1, 2, … (missing ones are zero), the numeric event classes
it counts as a bit mask, or the trap it takes. -/
structure AluOut where
  val  : Nat := 0
  tans : List Nat := []
  ev   : Nat := 0
  trap : Option Cause := none

/-- The count of the quad's core 0, to whose multiples the windows of a team's event registers are aligned (R153). -/
def State.windowClock (s : State) (t : Team) : Nat := s.coreCount (4 * t.quad)
/-- An event register as it stands now: its COUNT is cleared each time the count of its quad's core 0 reaches a multiple
of 2^WIN (R153). With WIN at another code there is no window. -/
def State.eventNow (s : State) (t : Team) (cls : Nat) : DWord :=
  let r := (t.events.getD cls 0).toNat
  let win := bits r 7 3
  if 10 ≤ win && win ≤ 30 && t.winAt.getD cls 0 / 2 ^ win < s.windowClock t / 2 ^ win then BitVec.ofNat 64 (setBits r 63 32 0)
  else t.events.getD cls 0
/-- COUNT after one more event, kept at its greatest value (R153). -/
def eventCount (r : Nat) : Nat := min (bits r 63 32 + 1) 0xFFFFFFFF
/-- The event reaches the threshold of an event register that is armed. -/
def eventHit (r : Nat) : Bool := bits r 31 8 ≠ 0 && !bit r 0 && decide (bits r 31 8 ≤ eventCount r)
/-- An event register after one more event. -/
def eventNext (r : Nat) : DWord :=
  BitVec.ofNat 64 (setBits (setBits r 63 32 (eventCount r)) 0 0 (if eventHit r then 1 else r % 2))

/-- One event of a class counts in the team's event register and takes its action: the gang traps at its word's end, the
host is interrupted, or both (R153, R154). It counts at the clock at which its word starts; the spec does not say on which
side of a window's end it falls when the word's occupancy crosses that end (DESIGN CHOICE, notes/assumptions/112.md). -/
def State.countEvent (s : State) (gid : Nat) (t : Team) (cls : Nat) : State :=
  let r := (s.eventNow (s.team t.id) cls).toNat
  let act := bits r 2 1
  { s with
    teams := s.teams.map fun (x : Team) =>
      if x.id == t.id then { x with events := x.events.set cls (eventNext r), winAt := x.winAt.set cls (s.windowClock x) } else x,
    gangs := if eventHit r && (act == 1 || act == 3) then
        s.gangs.map fun (g : Gang) => if g.id == gid then { g with pendWord := true } else g
      else s.gangs,
    events := if eventHit r && (act == 2 || act == 3) then s.events ++ [(0, t.id, cls)] else s.events }

/-- Count a thread's events, one for each class in the mask (R152). -/
def State.countEvents (s : State) (gid : Nat) (t : Team) (ev : Nat) : State :=
  (List.range 5).foldl (fun s k => if ev.testBit k then s.countEvent gid t k else s) s

/-- Write a short result: to a register with its layers, a g register for the lowest-ranked Active thread alone (R110),
or as a message of one element through a channel (R320). -/
def writeShort (c : Ctx) (s : State) (rank d n : Nat) (o : AluOut) : ThreadOut :=
  if d < 256 then
    if 192 ≤ d && d < 255 && rank ≠ c.lead then .ok s
    else .ok (s.setRegs c.tm.id rank (valueWrites c.tm.depth d n o.val fun k => o.tans.getD (k - 1) 0))
  else
    let q := d - 256
    let e := c.tm.chans.getD q 0
    match s.sendFault c.tm e [1, 2, 3] with
    | some cause => .trap s cause 0 0
    | none =>
      if !s.sendRoom c.tm.quad 1 then .hold s (.sendRoom c.tm.quad 1)
      else if !s.canCount c.tm.quad c.tm.job then .hold s (.counterSet c.tm.quad c.tm.job)
      else .ok (s.acceptSend c.tm rank q e [BitVec.ofNat 64 o.val] 0)

/-- Some source pops a channel, which counts a consumption. -/
def popsChannel (srcs : List (Nat × Nat)) : Bool := srcs.any fun f => decide (512 ≤ f.1) && f.1 / 256 % 2 == 1

/-- Sources that no channel can serve yet, or whose pops find no counter set (R322), hold the whole word; channels not
configured trap at its first thread. -/
def withSources (c : Ctx) (srcs : List (Nat × Nat)) (k : WordOut) : WordOut :=
  if c.act.isEmpty then k
  else match srcFault c.tm srcs with
    | some cause => .trap c.s [] cause 0 0
    | none =>
      let need := channelNeed srcs c.act.length
      if !(need.all fun (q, n) => decide (n ≤ (c.s.rx c.tm.id q).length)) then .hold c.s [] (.channels c.tm.id need)
      else if popsChannel srcs && !c.s.canCount c.tm.quad c.tm.job then .hold c.s [] (.counterSet c.tm.quad c.tm.job)
      else k

/-- A word whose short result goes to D: for each Active thread the sources, the computation, the write, the events
(R111, R133). -/
def aluWord (i : Instr) (s : State) (srcs : List (Nat × Nat)) (d n : Nat) (occ : Ctx → Nat)
    (f : Ctx → Nat → List Nat → AluOut) : State :=
  runWord i s fun c =>
    withSources c srcs <| runThreads (fun s rank =>
      let (xs, s1) := readSrcs c rank s srcs
      let o := f c rank xs
      match o.trap with
      | some cause => .trap s cause 0 0
      | none =>
        match writeShort c s1 rank d n o with
        | .ok s2 => .ok (s2.countEvents c.gid c.tm o.ev)
        | .trap _ cause a b => .trap s cause a b
        | .hold _ w => .hold s w) (occ c) s c.act []

/-- A word whose result is a predicate (R46). -/
def predWord (i : Instr) (s : State) (srcs : List (Nat × Nat)) (d : Nat) (occ : Ctx → Nat)
    (f : Ctx → Nat → List Nat → Bool) : State :=
  runWord i s fun c =>
    withSources c srcs <| runThreads (fun s rank =>
      let (xs, s1) := readSrcs c rank s srcs
      .ok (s1.setPred c.tm.id rank d (f c rank xs))) (occ c) s c.act []

/-- A word whose long result of class `cls` goes to D (R72, R124, R136): the value is computed at issue and written by
LONG_RESULT_WRITE; a channel destination captures its send target now (R320). A trap leaves the results of the threads
before it. -/
def longWord (i : Instr) (s : State) (cls : Nat) (srcs : List (Nat × Nat)) (d n : Nat) (occ : Ctx → Nat)
    (f : Ctx → Nat → List Nat → AluOut) : State :=
  runWord i s fun c =>
    withSources c srcs <|
      let fault := if d < 256 || c.act.isEmpty then none else s.sendFault c.tm (c.tm.chans.getD (d - 256) 0) [1, 2, 3]
      match fault with
      | some cause => .trap s [] cause 0 0
      | none =>
        let (ticket, s0) := s.issue c.gid c.tm.id cls (if c.act.isEmpty then [] else [c.lead])
        let out := runThreads (fun s rank =>
          let (xs, s1) := readSrcs c rank s srcs
          let o := f c rank xs
          match o.trap with
          | some cause => .trap s cause 0 0
          | none =>
            let s2 := s1.countEvents c.gid c.tm o.ev
            if d < 256 then
              if 192 ≤ d && d < 255 && rank ≠ c.lead then .ok s2
              else .ok ((s2.owe ticket rank 1).addRegResults ticket c.tm.id rank
                     (valueWrites c.tm.depth d n o.val fun k => o.tans.getD (k - 1) 0))
            else .ok ((s2.owe ticket rank 1).addResult ticket c.tm.id rank
                   (.send (d - 256) (c.tm.chans.getD (d - 256) 0) (BitVec.ofNat 64 o.val)))) (occ c) s0 c.act []
        -- the part owed at issue stands for the word itself and is made good at once
        match out with
        | .done s occ => .done (s.settleTicket ticket c.lead) occ
        | .trap s com cause a b => .trap (s.settleTicket ticket c.lead) com cause a b
        | .hold s com w => .hold (s.settleTicket ticket c.lead) com w
        | .left s => .left s

/-- A word that acts once for its gang when a member is Active (R93). -/
def gangWord (i : Instr) (s : State) (occ : Ctx → Nat) (f : Ctx → WordOut) : State :=
  runWord i s fun c => if c.act.isEmpty then .done s (occ c) else f c

end Sys2Proof.Machine
end

