-- ==== Sys2Proof/Machine/Flags.lean ====
section
/-! DEFINITION. The integer results and conditions that several forms share: reading a value as its type, wrapping and
clamping an exact result (04_integer.md R111), and the compare conditions (R117). The device has no flag register: a
predicate is the only condition bit, and the numeric event registers are in Operands.lean. -/

namespace Sys2Proof.Machine

open Sys2Proof

/-- Width of an integer type code in bits, of one byte for the packed types (R111). -/
def tyWidth (t : Nat) : Nat := if t == 4 || t == 13 then 8 else 32 * tyRegs t
/-- Signed type codes (R47). -/
def tySigned (t : Nat) : Bool := t == 0 || t == 2 || t == 4
/-- A raw value of `w` bits read signed or unsigned. -/
def asInt (signed : Bool) (w v : Nat) : Int := if signed then toSigned w v else ((v % 2 ^ w : Nat) : Int)
/-- Clamp an exact result to the type's range (R111). -/
def clampInt (signed : Bool) (w : Nat) (e : Int) : Int :=
  if signed then max (-(2 ^ (w - 1) : Nat) : Int) (min e ((2 ^ (w - 1) : Nat) - 1))
  else max 0 (min e ((2 ^ w : Nat) - 1))
/-- The exact result wrapped, or clamped under .sat (R111). -/
def intResult (t : Nat) (sat : Bool) (e : Int) : Nat :=
  let w := tyWidth t
  wrap w (if sat then clampInt (tySigned t) w e else e)

/-- Byte `j` of a number. -/
def byteAt (v j : Nat) : Nat := v / 256 ^ j % 256

/-- An integer form on its type's elements: one, or four bytes each on its own (R111). -/
def perElem (t : Nat) (sat : Bool) (f : Int → Int → Int → Int) (xs : List Nat) : Nat :=
  let sg := tySigned t
  let x := xs.getD 0 0
  let y := xs.getD 1 0
  let z := xs.getD 2 0
  if t == 4 || t == 13 then
    (List.range 4).foldl (fun acc j =>
      acc + intResult t sat (f (asInt sg 8 (byteAt x j)) (asInt sg 8 (byteAt y j)) (asInt sg 8 (byteAt z j))) * 256 ^ j) 0
  else
    let w := tyWidth t
    intResult t sat (f (asInt sg w x) (asInt sg w y) (asInt sg w z))

/-- The conditions of ISETP (R117) on exact integers. -/
def intCond (cond : Nat) (x y : Int) : Bool :=
  match cond with
  | 0 => x == y
  | 1 => x != y
  | 2 => decide (x < y)
  | 3 => decide (x ≤ y)
  | 4 => decide (y < x)
  | _ => decide (y ≤ x)

end Sys2Proof.Machine
end

