-- ==== Sys2Proof/Machine/Integer.lean ====
section
/-! DEFINITION. Integer, address and register instructions, opcodes 0x10 to 0x39 (04_integer.md). -/

namespace Sys2Proof.Machine

open Sys2Proof

/-- The occupancy of a typed word (R71). -/
def tyOcc (t : Nat) (c : Ctx) : Nat := occupancy c.act.length (tyRegs t == 2)

/-! ### Arithmetic (R112) -/

/-- A two-source or three-source integer form (R111). -/
def intForm (i : Instr) (w : FmtA) (srcs : List (Nat × Nat)) (f : Int → Int → Int → Int) (s : State) : State :=
  let t := w.t.toNat
  aluWord i s srcs w.d.toNat (tyRegs t) (tyOcc t) fun _ _ xs => { val := perElem t (w.m == 16) f xs }

/-- S1 and S2 of a format A word, at the type's width. -/
def src12 (w : FmtA) : List (Nat × Nat) := [(w.s1.toNat, tyRegs w.t.toNat), (w.s2.toNat, tyRegs w.t.toNat)]
/-- S1 alone. -/
def src1 (w : FmtA) : List (Nat × Nat) := [(w.s1.toNat, tyRegs w.t.toNat)]

def execIadd (w : FmtA) (s : State) : Host.Outcome State Fault Refusal :=
  .next (intForm (.iadd w) w (src12 w) (fun x y _ => x + y) s)
def execIsub (w : FmtA) (s : State) : Host.Outcome State Fault Refusal :=
  .next (intForm (.isub w) w (src12 w) (fun x y _ => x - y) s)
def execImul (w : FmtA) (s : State) : Host.Outcome State Fault Refusal :=
  .next (intForm (.imul w) w (src12 w) (fun x y _ => x * y) s)
/-- The floor of the exact product over 2^w: the high half of the two's-complement product. -/
def execImulh (w : FmtA) (s : State) : Host.Outcome State Fault Refusal :=
  .next (intForm (.imulh w) w (src12 w) (fun x y _ => (x * y).fdiv (2 ^ tyWidth w.t.toNat : Nat)) s)
def execImad (w : FmtA) (s : State) : Host.Outcome State Fault Refusal :=
  .next (intForm (.imad w) w (src12 w ++ [(w.s3.toNat, tyRegs w.t.toNat)]) (fun x y z => x * y + z) s)
def execImin (w : FmtA) (s : State) : Host.Outcome State Fault Refusal :=
  .next (intForm (.imin w) w (src12 w) (fun x y _ => min x y) s)
def execImax (w : FmtA) (s : State) : Host.Outcome State Fault Refusal :=
  .next (intForm (.imax w) w (src12 w) (fun x y _ => max x y) s)
def execIabs (w : FmtA) (s : State) : Host.Outcome State Fault Refusal :=
  .next (intForm (.iabs w) w (src1 w) (fun x _ _ => if x < 0 then -x else x) s)
def execIneg (w : FmtA) (s : State) : Host.Outcome State Fault Refusal :=
  .next (intForm (.ineg w) w (src1 w) (fun x _ _ => -x) s)

/-! ### Immediates (R113) -/

/-- The immediate of a format I word at its width: sign-extended to 64 bits with H = 1. -/
def immOf (w : FmtI) : Nat := if w.h = 1 then wrap 64 (toSigned 32 w.imm.toNat) else w.imm.toNat

/-- A format I form on S1 and the immediate, modulo 2^w. -/
def immForm (i : Instr) (w : FmtI) (f : Nat → Nat → Nat) (s : State) : State :=
  let n := 1 + w.h.toNat
  aluWord i s [(w.s1.toNat, n)] w.d.toNat n (fun c => occupancy c.act.length (n == 2)) fun _ _ xs =>
    { val := f (xs.headD 0) (immOf w) % 2 ^ (32 * n) }

def execIaddi (w : FmtI) (s : State) : Host.Outcome State Fault Refusal := .next (immForm (.iaddi w) w (· + ·) s)
def execImuli (w : FmtI) (s : State) : Host.Outcome State Fault Refusal := .next (immForm (.imuli w) w (· * ·) s)
def execAndi (w : FmtI) (s : State) : Host.Outcome State Fault Refusal := .next (immForm (.andi w) w Nat.land s)
def execOri (w : FmtI) (s : State) : Host.Outcome State Fault Refusal := .next (immForm (.ori w) w Nat.lor s)
def execXori (w : FmtI) (s : State) : Host.Outcome State Fault Refusal := .next (immForm (.xori w) w Nat.xor s)
def execMovi (w : FmtI) (s : State) : Host.Outcome State Fault Refusal :=
  .next (aluWord (.movi w) s [] w.d.toNat (1 + w.h.toNat) (fun c => occupancy c.act.length (w.h == 1))
    fun _ _ _ => { val := immOf w })

/-! ### Logic and bits (R114) -/

/-- A raw-bits form on w-bit values; `nd` destination registers. -/
def bitForm (i : Instr) (w : FmtA) (srcs : List (Nat × Nat)) (nd : Nat) (f : Nat → List Nat → Nat) (s : State) : State :=
  let t := w.t.toNat
  aluWord i s srcs w.d.toNat nd (tyOcc t) fun _ _ xs => { val := f (32 * tyRegs t) xs }

def execAnd (w : FmtA) (s : State) : Host.Outcome State Fault Refusal :=
  .next (bitForm (.and w) w (src12 w) (tyRegs w.t.toNat) (fun _ xs => Nat.land (xs.getD 0 0) (xs.getD 1 0)) s)
def execOr (w : FmtA) (s : State) : Host.Outcome State Fault Refusal :=
  .next (bitForm (.or w) w (src12 w) (tyRegs w.t.toNat) (fun _ xs => Nat.lor (xs.getD 0 0) (xs.getD 1 0)) s)
def execXor (w : FmtA) (s : State) : Host.Outcome State Fault Refusal :=
  .next (bitForm (.xor w) w (src12 w) (tyRegs w.t.toNat) (fun _ xs => Nat.xor (xs.getD 0 0) (xs.getD 1 0)) s)
def execNot (w : FmtA) (s : State) : Host.Outcome State Fault Refusal :=
  .next (bitForm (.not w) w (src1 w) (tyRegs w.t.toNat) (fun n xs => 2 ^ n - 1 - xs.getD 0 0) s)

/-- The number of set bits among the low `n`. -/
def popcount (v : Nat) : Nat → Nat
  | 0 => 0
  | n + 1 => v % 2 + popcount (v / 2) n
/-- The number of leading zero bits of an `n`-bit number. -/
def leadingZeros (v : Nat) : Nat → Nat
  | 0 => 0
  | n + 1 => if v.testBit n then 0 else 1 + leadingZeros v n
/-- An `n`-bit number with its bits in reverse order. -/
def reverseBits (v : Nat) : Nat → Nat
  | 0 => 0
  | n + 1 => v % 2 * 2 ^ n + reverseBits (v / 2) n

def execPopc (w : FmtA) (s : State) : Host.Outcome State Fault Refusal :=
  .next (bitForm (.popc w) w (src1 w) 1 (fun n xs => popcount (xs.getD 0 0) n) s)
def execClz (w : FmtA) (s : State) : Host.Outcome State Fault Refusal :=
  .next (bitForm (.clz w) w (src1 w) 1 (fun n xs => leadingZeros (xs.getD 0 0) n) s)
def execBrev (w : FmtA) (s : State) : Host.Outcome State Fault Refusal :=
  .next (bitForm (.brev w) w (src1 w) (tyRegs w.t.toNat) (fun n xs => reverseBits (xs.getD 0 0) n) s)

/-! ### Shifts (R115) -/

/-- S1 at the type's width and a 32-bit count. -/
def srcShift (w : FmtA) : List (Nat × Nat) := [(w.s1.toNat, tyRegs w.t.toNat), (w.s2.toNat, 1)]

/-- Shift left: zero once the count reaches the width. -/
def shiftLeft (n x c : Nat) : Nat := if c < n then x * 2 ^ c % 2 ^ n else 0
/-- Shift right, unsigned. -/
def shiftRight (n x c : Nat) : Nat := if c < n then x / 2 ^ c else 0
/-- Shift right, signed: all sign bits once the count reaches the width. -/
def shiftArith (n x c : Nat) : Nat :=
  let v := toSigned n x
  if c < n then wrap n (v.fdiv (2 ^ c : Nat)) else if v < 0 then 2 ^ n - 1 else 0

def execShl (w : FmtA) (s : State) : Host.Outcome State Fault Refusal :=
  .next (bitForm (.shl w) w (srcShift w) (tyRegs w.t.toNat) (fun n xs => shiftLeft n (xs.getD 0 0) (xs.getD 1 0)) s)
def execShr (w : FmtA) (s : State) : Host.Outcome State Fault Refusal :=
  .next (bitForm (.shr w) w (srcShift w) (tyRegs w.t.toNat) (fun n xs => shiftRight n (xs.getD 0 0) (xs.getD 1 0)) s)
def execSar (w : FmtA) (s : State) : Host.Outcome State Fault Refusal :=
  .next (bitForm (.sar w) w (srcShift w) (tyRegs w.t.toNat) (fun n xs => shiftArith n (xs.getD 0 0) (xs.getD 1 0)) s)
/-- The funnel shift: 32 bits of S1:S2 from bit S3 mod 64 on. -/
def execFsh (w : FmtA) (s : State) : Host.Outcome State Fault Refusal :=
  .next (bitForm (.fsh w) w [(w.s1.toNat, 1), (w.s2.toNat, 1), (w.s3.toNat, 1)] 1
    (fun _ xs => (xs.getD 0 0 * 2 ^ 32 + xs.getD 1 0) / 2 ^ (xs.getD 2 0 % 64) % 2 ^ 32) s)

/-! ### Bit fields (R116) -/

/-- Extract: the field of `len` bits from `pos` on, cut at the width. -/
def bitExtract (signed : Bool) (w x ctl : Nat) : Nat :=
  let pos := ctl % 256
  let len := ctl / 256 % 256
  if w ≤ pos || len = 0 then 0
  else
    let n := min len (w - pos)
    let f := x / 2 ^ pos % 2 ^ n
    wrap w (if signed then toSigned n f else (f : Int))

/-- Insert `len` bits at `pos`, cut at the width. -/
def bitInsert (w base ins ctl : Nat) : Nat :=
  let pos := ctl % 256
  let len := ctl / 256 % 256
  if w ≤ pos || len = 0 then base
  else
    let n := min len (w - pos)
    setBits base (pos + n - 1) pos ins

def execBfx (w : FmtA) (s : State) : Host.Outcome State Fault Refusal :=
  .next (bitForm (.bfx w) w (srcShift w) (tyRegs w.t.toNat)
    (fun n xs => bitExtract (tySigned w.t.toNat) n (xs.getD 0 0) (xs.getD 1 0)) s)
def execBfi (w : FmtA) (s : State) : Host.Outcome State Fault Refusal :=
  .next (bitForm (.bfi w) w (src12 w ++ [(w.s3.toNat, 1)]) (tyRegs w.t.toNat)
    (fun n xs => bitInsert n (xs.getD 0 0) (xs.getD 1 0) (xs.getD 2 0)) s)

/-! ### Compare, select, predicates (R117 to R119) -/

def execIsetp (w : FmtA) (s : State) : Host.Outcome State Fault Refusal :=
  let t := w.t.toNat
  let ctl := w.s3.toNat
  .next (predWord (.isetp w) s (src12 w) w.d.toNat (tyOcc t) fun c rank xs =>
    intCond (ctl % 8) (asInt (tySigned t) (tyWidth t) (xs.getD 0 0)) (asInt (tySigned t) (tyWidth t) (xs.getD 1 0)) &&
      ((c.s.thread c.tm.id rank).pred (ctl / 8 % 8) != (ctl / 64 % 2 == 1)))

/-- The layers that SHFL, MOV and SEL carry: layer k of the chosen source for each k in G, zero elsewhere (R102, R120). -/
def movedTans (c : Ctx) (rank f n : Nat) : List Nat :=
  (List.range c.tm.depth).map fun k => if c.g.contains (k + 1) && decide (f < 512) then c.tan rank (k + 1) f n else 0

/-- Occupancy of a form that carries layers: 1 + |G| times R71's (R168). -/
def tanOcc (t : Nat) (c : Ctx) : Nat := (1 + c.g.length) * tyOcc t c

def execSel (w : FmtA) (s : State) : Host.Outcome State Fault Refusal :=
  let n := tyRegs w.t.toNat
  .next (aluWord (.sel w) s (src12 w) w.d.toNat n (tanOcc w.t.toNat) fun c rank xs =>
    if (c.s.thread c.tm.id rank).pred w.s3.toNat then { val := xs.getD 0 0, tans := movedTans c rank w.s1.toNat n }
    else { val := xs.getD 1 0, tans := movedTans c rank w.s2.toNat n })

/-- The eight operations of PLOP. -/
def predOp (op : Nat) (a b : Bool) : Bool :=
  match op with
  | 0 => a && b
  | 1 => a || b
  | 2 => a != b
  | 3 => a && !b
  | 4 => a || !b
  | 5 => !(a && b)
  | 6 => !(a || b)
  | _ => a == b

/-- R71's occupancy of a 32-bit form. -/
def occ32 (c : Ctx) : Nat := occupancy c.act.length false

def execPlop (w : FmtA) (s : State) : Host.Outcome State Fault Refusal :=
  .next (predWord (.plop w) s [] w.d.toNat occ32 fun c rank _ =>
    let t := c.s.thread c.tm.id rank
    predOp w.t.toNat (t.pred w.s1.toNat) (t.pred w.s2.toNat))
def execPmovGet (w : FmtA) (s : State) : Host.Outcome State Fault Refusal :=
  .next (aluWord (.pmovGet w) s [] w.d.toNat 1 occ32 fun c rank _ =>
    { val := (c.s.thread c.tm.id rank).preds.toNat + 128 })
def execPmovSet (w : FmtA) (s : State) : Host.Outcome State Fault Refusal :=
  .next (runWord (.pmovSet w) s fun c =>
    withSources c [(w.s1.toNat, 1)] <| runThreads (fun s rank =>
      let (v, s1) := readSrc c s rank w.s1.toNat 1
      .ok (s1.updThread c.tm.id rank fun t => { t with preds := BitVec.ofNat 7 v })) (occ32 c) s c.act [])
def execPmovNz (w : FmtA) (s : State) : Host.Outcome State Fault Refusal :=
  .next (predWord (.pmovNz w) s [(w.s1.toNat, 1)] w.d.toNat occ32 fun _ _ xs => xs.getD 0 0 != 0)
def execPmovSel (w : FmtA) (s : State) : Host.Outcome State Fault Refusal :=
  .next (aluWord (.pmovSel w) s [] w.d.toNat 1 occ32 fun c rank _ =>
    { val := ((c.s.thread c.tm.id rank).pred w.s1.toNat).toNat })

/-! ### Moves, conversion, dot product, addresses (R120 to R123) -/

def execMov (w : FmtA) (s : State) : Host.Outcome State Fault Refusal :=
  let n := tyRegs w.t.toNat
  .next (aluWord (.mov w) s (src1 w) w.d.toNat n (tanOcc w.t.toNat) fun c rank xs =>
    { val := xs.getD 0 0, tans := movedTans c rank w.s1.toNat n })

def execIcvt (w : FmtA) (s : State) : Host.Outcome State Fault Refusal :=
  let t := w.t.toNat
  let f := w.s2.toNat
  .next (aluWord (.icvt w) s [(w.s1.toNat, tyRegs f)] w.d.toNat (tyRegs t) (tyOcc t) fun _ _ xs =>
    { val := intResult t (w.m == 16) (asInt (tySigned f) (tyWidth f) (xs.getD 0 0)) })

/-- The exact dot product of four bytes plus the accumulator (R122). -/
def dot4 (t x y z : Nat) : Int :=
  let sg := tySigned t
  (List.range 4).foldl (fun acc j => acc + asInt sg 8 (byteAt x j) * asInt sg 8 (byteAt y j)) (asInt sg 32 z)

def execIdot4 (w : FmtA) (s : State) : Host.Outcome State Fault Refusal :=
  let t := w.t.toNat
  .next (aluWord (.idot4 w) s [(w.s1.toNat, 1), (w.s2.toNat, 1), (w.s3.toNat, 1)] w.d.toNat 1 occ32 fun _ _ xs =>
    { val := intResult (if t = 4 then 0 else 1) (w.m == 16) (dot4 t (xs.getD 0 0) (xs.getD 1 0) (xs.getD 2 0)) })

def execLea (w : FmtA) (s : State) : Host.Outcome State Fault Refusal :=
  .next (aluWord (.lea w) s [(w.s1.toNat, 2), (w.s2.toNat, 1), (w.s3.toNat, 1)] w.d.toNat 2 occ32 fun _ _ xs =>
    { val := wrap 64 ((xs.getD 0 0 : Int) + asInt (w.t == 0) 32 (xs.getD 1 0) * (xs.getD 2 0 : Int)) })

/-! ### Division (R124) -/

/-- A division form: a zero divisor traps its thread; the others get long results of class 2. -/
def divForm (i : Instr) (w : FmtA) (f : Int → Int → Int) (s : State) : State :=
  let t := w.t.toNat
  let sg := tySigned t
  longWord i s 2 (src12 w) w.d.toNat (tyRegs t) (tyOcc t) fun _ _ xs =>
    let x := asInt sg (tyWidth t) (xs.getD 0 0)
    let y := asInt sg (tyWidth t) (xs.getD 1 0)
    if y = 0 then { trap := some .divideByZero } else { val := intResult t (w.m == 16) (f x y) }

def execIdiv (w : FmtA) (s : State) : Host.Outcome State Fault Refusal := .next (divForm (.idiv w) w Int.tdiv s)
def execIrem (w : FmtA) (s : State) : Host.Outcome State Fault Refusal := .next (divForm (.irem w) w Int.tmod s)

/-! ### Special registers (R125) -/

/-- The value that MOVS reads for a thread. -/
def specialReg (c : Ctx) (rank n : Nat) : Nat :=
  let t := c.tm
  let th := c.s.thread t.id rank
  let cl := c.cluster
  let gr := c.grid
  let xyz := fun i => i % gr.gx + i / gr.gx % gr.gy * 2 ^ 16 + i / (gr.gx * gr.gy) * 2 ^ 32
  match n with
  | 0x00 => rank
  | 0x01 => t.ntid
  | 0x02 => t.idx
  | 0x03 => cl.quads.length
  | 0x04 => xyz cl.index
  | 0x05 => gr.gx + gr.gy * 2 ^ 16 + gr.gz * 2 ^ 32
  | 0x06 => gr.id
  | 0x07 => gr.nest
  | 0x08 => t.quad % 32
  | 0x09 => laneOf rank / 8
  | 0x0A => laneOf rank % 8
  | 0x0B => t.quad / 32
  | 0x0C => th.role.toNat
  | 0x0D => t.job
  | 0x0E => c.s.coreClock (coreOf t.quad (laneOf rank))
  | 0x0F => t.gplane.toNat
  | 0x10 => t.depth
  | 0x11 => t.cseg.toNat
  | _ => th.fault.toNat

def execMovs (w : FmtA) (s : State) : Host.Outcome State Fault Refusal :=
  let n := w.s1.toNat
  .next (aluWord (.movs w) s [] w.d.toNat (if srWide n then 2 else 1)
    (fun c => occupancy c.act.length (srWide n)) fun c rank _ => { val := specialReg c rank n })

/-- Writes sr.role of each Active thread, or sr.gplane as a g register (R110, R125). -/
def execMovsw (w : FmtA) (s : State) : Host.Outcome State Fault Refusal :=
  let n := w.d.toNat
  .next (runWord (.movsw w) s fun c =>
    runThreads (fun s rank =>
      if n = 0x0C then
        .ok (s.updThread c.tm.id rank fun t => { t with role := BitVec.ofNat 3 (c.val rank w.s1.toNat 1) })
      else if rank = c.lead then
        .ok (s.updTeam c.tm.id fun t => { t with gplane := BitVec.ofNat 64 (c.val rank w.s1.toNat 2) })
      else .ok s) (occupancy c.act.length (srWide n)) s c.act [])

/-- A write of sr.cseg: the clause caches of every core of the quad are discarded, so every gang of the quad fetches its
next clause anew (R367). The privilege check is in the word's prologue. The register is held for the team, and takes the
value of the lowest-ranked Active thread, as a g register does: whose value a write takes and what holds it the spec does
not say (DESIGN CHOICE, notes/assumptions/91.md). -/
def execCodeSegmentSwitch (w : FmtA) (s : State) : Host.Outcome State Fault Refusal :=
  .next (runWord (.codeSegmentSwitch w) s fun c =>
    if c.act.isEmpty then .done s 6
    else
      let v := BitVec.ofNat 32 (c.val c.lead w.s1.toNat 1)
      let s1 := (s.updTeam c.tm.id fun t => { t with cseg := v }).dropCode c.tm.quad
      let s2 := { s1 with gangs := s1.gangs.map fun (g : Gang) =>
        if (s1.team g.team).quad == c.tm.quad && g.status == .ready then { g with status := .fetch } else g }
      .done s2 (occ32 c))

/-! ### Computed register access (R126) -/

/-- RGET and RPUT trap with aperture-bound on a plane above the depth, a register outside the allocation or an odd pair. -/
def computedBad (c : Ctx) (i k n : Nat) : Bool :=
  decide (c.tm.depth < k) || decide (c.tm.alloc < i + n) || (n == 2 && i % 2 == 1)

def execRget (w : FmtA) (s : State) : Host.Outcome State Fault Refusal :=
  let n := tyRegs w.t.toNat
  .next (aluWord (.rget w) s [] w.d.toNat n (tyOcc w.t.toNat) fun c rank _ =>
    let i := c.val rank w.s1.toNat 1
    let k := c.val rank w.s2.toNat 1
    if computedBad c i k n then { trap := some .apertureBound } else { val := c.tan rank k i n })

def execRput (w : FmtA) (s : State) : Host.Outcome State Fault Refusal :=
  let n := tyRegs w.t.toNat
  .next (runWord (.rput w) s fun c =>
    runThreads (fun s rank =>
      let i := c.val rank w.s2.toNat 1
      let k := c.val rank w.s3.toNat 1
      if computedBad c i k n then .trap s .apertureBound 0 0
      else
        let v := c.val rank w.s1.toNat n
        .ok (s.setRegs c.tm.id rank ((List.range n).map fun j => (k, i + j, BitVec.ofNat 32 (v / 2 ^ (32 * j))))))
      (tyOcc w.t.toNat c) s c.act [])

end Sys2Proof.Machine
end

