-- ==== Sys2Proof/Machine/Fp.lean ====
section
/-! DEFINITION. Floating-point numbers, exactly (05_float.md R127 to R132, R152): the interchange formats, values as exact
dyadic numbers, one rounding at the end, and the numeric events that the rounding counts. -/

namespace Sys2Proof.Machine

open Sys2Proof

/-- A binary format: exponent bits, fraction bits, bias (R127). -/
structure FpFmt where
  eb : Nat
  mb : Nat
  bias : Nat
  deriving DecidableEq, Repr

def fp64 : FpFmt := { eb := 11, mb := 52, bias := 1023 }
def fp32 : FpFmt := { eb := 8, mb := 23, bias := 127 }
def fp16 : FpFmt := { eb := 5, mb := 10, bias := 15 }
def bf16 : FpFmt := { eb := 8, mb := 7, bias := 127 }

/-- The format of a type code (R47): elements of the paired types are FP16 or BF16. -/
def fmtOf (t : Nat) : FpFmt :=
  match t with
  | 6 => fp64
  | 7 | 9 => fp16
  | 8 | 10 => bf16
  | _ => fp32

namespace FpFmt

/-- Width in bits. -/
def width (f : FpFmt) : Nat := 1 + f.eb + f.mb
/-- The all-ones exponent. -/
def eMax (f : FpFmt) : Nat := 2 ^ f.eb - 1
/-- The sign bit's weight. -/
def signBit (f : FpFmt) : Nat := 2 ^ (f.eb + f.mb)
/-- Infinity of a sign. -/
def inf (f : FpFmt) (s : Bool) : Nat := s.toNat * f.signBit + f.eMax * 2 ^ f.mb
/-- The largest finite value of a sign. -/
def largest (f : FpFmt) (s : Bool) : Nat := f.inf s - 1
/-- The default NaN (R127). -/
def defaultNaN (f : FpFmt) : Nat := f.eMax * 2 ^ f.mb + 2 ^ (f.mb - 1)
/-- Zero of a sign. -/
def zero (f : FpFmt) (s : Bool) : Nat := s.toNat * f.signBit
/-- The exponent of the last place of subnormals. -/
def qMin (f : FpFmt) : Int := 1 - (f.bias : Int) - f.mb

end FpFmt

/-- Rounding modes of M[7:5] (R48). -/
inductive Round where
  | near | zero | up | down | away
  deriving DecidableEq, Repr

/-- A decoded value: a NaN with its bits, an infinity, or (-1)^sign × m × 2^e. -/
inductive FVal where
  | nan (bits : Nat)
  | inf (sign : Bool)
  | fin (sign : Bool) (m : Nat) (e : Int)
  deriving DecidableEq, Repr

/-- Decode the bits of a format. -/
def decodeFp (f : FpFmt) (v : Nat) : FVal :=
  let v := v % 2 ^ f.width
  let s := v / f.signBit == 1
  let ex := v / 2 ^ f.mb % 2 ^ f.eb
  let fr := v % 2 ^ f.mb
  if ex = f.eMax then (if fr = 0 then .inf s else .nan v)
  else if ex = 0 then .fin s fr f.qMin
  else .fin s (2 ^ f.mb + fr) (f.qMin + (ex - 1 : Nat))

/-- A NaN with its quiet bit set (R131). -/
def quiet (f : FpFmt) (v : Nat) : Nat := if v / 2 ^ (f.mb - 1) % 2 = 1 then v else v + 2 ^ (f.mb - 1)

/-- A NaN of one format as a NaN of another: sign kept, quiet bit set, fraction bits kept from the top down (R131). -/
def convertNaN (f g : FpFmt) (v : Nat) : Nat :=
  let s := v / f.signBit % 2
  let fr := quiet f v % 2 ^ f.mb
  let fr' := if g.mb ≤ f.mb then fr / 2 ^ (f.mb - g.mb) else fr * 2 ^ (g.mb - f.mb)
  s * g.signBit + g.eMax * 2 ^ g.mb + fr'

/-- A subnormal of the format (nonzero, exponent field 0). -/
def isSubnormal (f : FpFmt) : FVal → Bool
  | .fin _ m e => m != 0 && decide (m < 2 ^ f.mb) && e == f.qMin
  | _ => false

/-- .ftz on an input: a subnormal becomes zero of its sign (R130). -/
def flushIn (f : FpFmt) (z : Bool) (v : FVal) : FVal :=
  match v with
  | .fin s _ e => if z && isSubnormal f v then .fin s 0 e else v
  | _ => v

/-- Number of bits of a number. -/
def bitLen (n : Nat) : Nat := if n = 0 then 0 else n.log2 + 1

/-- How a word rounds (R48): mode, .sat, .ftz. -/
structure RMode where
  mode : Round := .near
  sat  : Bool := false
  ftz  : Bool := false
  deriving DecidableEq, Repr

/-- The rounding fields of M. -/
def rmodeOf (m : Nat) : RMode :=
  { mode := match m / 32 with | 0 => .near | 1 => .zero | 2 => .up | 3 => .down | _ => .away,
    sat := bit m 4, ftz := bit m 0 }

/-- Event classes of R152 as mask bits. -/
def evNaN : Nat := 1
def evOverflow : Nat := 2
def evDivZero : Nat := 4
def evUnderflow : Nat := 8
def evNarrow : Nat := 16

/-- Whether a magnitude with the integer part `hi` and the remainder `rem` of `2^sh` (and `sticky` below it) rounds up. -/
def roundsUp (mode : Round) (sign : Bool) (hi rem sh : Nat) (sticky : Bool) : Bool :=
  let half := 2 ^ sh
  let inexact := rem != 0 || sticky
  match mode with
  | .near => decide (half < 2 * rem) || (2 * rem == half && (sticky || hi % 2 == 1))
  | .away => decide (half ≤ 2 * rem)
  | .zero => false
  | .up => !sign && inexact
  | .down => sign && inexact

/-- The integer nearest below or above m × 2^e / 2^q in the mode, and whether that was inexact. `sticky` says that the
value lies strictly above m × 2^e and below (m + 1) × 2^e. -/
def roundAt (mode : Round) (sign : Bool) (m : Nat) (e q : Int) (sticky : Bool) : Nat × Bool :=
  if q ≤ e then (m * 2 ^ (e - q).toNat, sticky)
  else
    let sh := (q - e).toNat
    let hi := m / 2 ^ sh
    let rem := m % 2 ^ sh
    (hi + (roundsUp mode sign hi rem sh sticky).toNat, rem != 0 || sticky)

/-- The overflowed result of a mode (R129). -/
def overflowed (f : FpFmt) (r : RMode) (sign : Bool) : Nat :=
  let toLargest := match r.mode with | .zero => true | .up => sign | .down => !sign | _ => false
  if toLargest || r.sat then f.largest sign else f.inf sign

/-- Round a nonzero magnitude m × 2^e (with more below it when `sticky`) once into the format: the bits and the events
(R129, R130, R152). -/
def roundMag (f : FpFmt) (r : RMode) (sign : Bool) (m : Nat) (e : Int) (sticky : Bool) : Nat × Nat :=
  let top : Int := e + bitLen m - 1
  let emax : Int := f.bias
  let emin : Int := 1 - (f.bias : Int)
  if emax < top then (overflowed f r sign, evOverflow)
  else if top < f.qMin - 2 then
    -- far below the last place: only direction matters
    let up := roundsUp r.mode sign 0 1 3 true
    if up && !r.ftz then (f.zero sign + 1, evUnderflow) else (f.zero sign, evUnderflow)
  else
    let q := max (top - f.mb) f.qMin
    let (n, inexact) := roundAt r.mode sign m e q sticky
    let tiny := decide (top < emin)
    if emax < q + bitLen n - 1 then (overflowed f r sign, evOverflow)
    else if n < 2 ^ f.mb then
      -- subnormal or zero after rounding
      let flush := r.ftz
      let ev := if tiny && (inexact || (flush && n != 0)) then evUnderflow else 0
      (f.zero sign + (if flush then 0 else n), ev)
    else
      -- n may be 2^(mb+1), whose encoding carries into the exponent
      let ex := (q - f.qMin).toNat + 1
      (f.zero sign + (ex - 1) * 2 ^ f.mb + n, if tiny && inexact then evUnderflow else 0)

/-- An exact dyadic number. -/
structure Dy where
  n : Int
  e : Int
  deriving DecidableEq, Repr

def Dy.add (a b : Dy) : Dy :=
  let e := min a.e b.e
  { n := a.n * 2 ^ (a.e - e).toNat + b.n * 2 ^ (b.e - e).toNat, e }
def Dy.mul (a b : Dy) : Dy := { n := a.n * b.n, e := a.e + b.e }

/-- An exact extended real with the sign its zero has. -/
inductive Ext where
  | invalid
  | inf (sign : Bool)
  | fin (zeroSign : Bool) (v : Dy)
  deriving DecidableEq, Repr

/-- The sign of an extended value, zeros included. -/
def Ext.sign : Ext → Bool
  | .invalid => false
  | .inf s => s
  | .fin z v => if v.n = 0 then z else decide (v.n < 0)

def Ext.isZero : Ext → Bool
  | .fin _ v => v.n == 0
  | _ => false

/-- A decoded value that is no NaN. -/
def FVal.ext : FVal → Ext
  | .nan _ => .invalid
  | .inf s => .inf s
  | .fin s m e => .fin s { n := if s then -(m : Int) else m, e }

/-- Negate. -/
def Ext.neg : Ext → Ext
  | .invalid => .invalid
  | .inf s => .inf !s
  | .fin z v => .fin (!z) { v with n := -v.n }

/-- A product: 0 × ∞ is invalid; the sign is the exclusive or (R131, R132). -/
def Ext.mul (a b : Ext) : Ext :=
  let s := a.sign != b.sign
  match a, b with
  | .invalid, _ => .invalid
  | _, .invalid => .invalid
  | .inf _, y => if y.isZero then .invalid else .inf s
  | x, .inf _ => if x.isZero then .invalid else .inf s
  | .fin _ x, .fin _ y => .fin s (x.mul y)

/-- A product whose first factor is a tangent: a zero tangent gives a zero even beside an infinity (R166). -/
def Ext.tmul (t b : Ext) : Ext :=
  if t.isZero then .fin (t.sign != b.sign) { n := 0, e := 0 } else t.mul b

/-- A sum: ∞ − ∞ is invalid; an exact zero sum takes the terms' common sign when all are zeros of it, and otherwise +0,
or −0 in .rd (R132, R165). -/
def sumExt (mode : Round) (ts : List Ext) : Ext :=
  if ts.any (· == .invalid) then .invalid
  else
    let infs := ts.filterMap fun t => match t with | .inf s => some s | _ => none
    match infs with
    | s :: rest => if rest.all (· == s) then .inf s else .invalid
    | [] =>
      let v := ts.foldl (fun acc t => match t with | .fin _ v => acc.add v | _ => acc) { n := 0, e := 0 }
      let allZero := ts.all Ext.isZero
      let s0 := (ts.headD (.inf false)).sign
      let z := if allZero && ts.all (fun t => t.sign == s0) then s0 else mode == .down
      .fin z v

/-- The dyadic with the smallest exponent gap: drop nothing, only move the sign out. -/
def Dy.mag (v : Dy) : Nat := v.n.natAbs

/-- Round an extended value into a format: an infinity obeys .sat, an invalid value is the default NaN (R129, R131). -/
def roundExt (f : FpFmt) (r : RMode) (v : Ext) : Nat × Nat :=
  match v with
  | .invalid => (f.defaultNaN, evNaN)
  | .inf s => (if r.sat then f.largest s else f.inf s, 0)
  | .fin z d => if d.n = 0 then (f.zero z, 0) else roundMag f r (decide (d.n < 0)) d.mag d.e false

/-- Round the exact quotient n / d × 2^e of positive numbers. -/
def roundQuot (f : FpFmt) (r : RMode) (sign : Bool) (n d : Nat) (e : Int) : Nat × Nat :=
  let k := bitLen d + f.mb + 4
  let q := n * 2 ^ k / d
  roundMag f r sign q (e - k) (n * 2 ^ k % d != 0)

/-- The integer square root, found bit by bit from bit `k` down. -/
def isqrtGo (n : Nat) : Nat → Nat → Nat
  | 0, r => r
  | k + 1, r => isqrtGo n k (if (r + 2 ^ k) * (r + 2 ^ k) ≤ n then r + 2 ^ k else r)
/-- The largest number whose square is at most `n`. -/
def isqrt (n : Nat) : Nat := isqrtGo n (bitLen n / 2 + 1) 0

/-- Round the exact square root of n / d × 2^e of positive numbers. -/
def roundRoot (f : FpFmt) (r : RMode) (sign : Bool) (n d : Nat) (e : Int) : Nat × Nat :=
  -- make the exponent even and the radicand long
  let k0 := 2 * (bitLen d + f.mb + 4)
  let k := if (e - k0) % 2 = 0 then k0 else k0 + 1
  let a := n * 2 ^ k
  let q := a / d
  let root := isqrt q
  roundMag f r sign root ((e - k) / 2) (root * root != q || a % d != 0)

/-- The first NaN of a list of decoded values (R131). -/
def firstNaN : List FVal → Option Nat
  | [] => none
  | .nan b :: _ => some b
  | _ :: vs => firstNaN vs

/-- The sign modifiers of M on the bits of S1: absolute value, then negation (R133). -/
def mod1 (f : FpFmt) (m v : Nat) : Nat :=
  let v := v % 2 ^ f.width
  let a := if bit m 1 then v % f.signBit else v
  if bit m 3 then (a + f.signBit) % 2 ^ f.width else a
/-- Negation of S2 (R133). -/
def mod2 (f : FpFmt) (m v : Nat) : Nat :=
  let v := v % 2 ^ f.width
  if bit m 2 then (v + f.signBit) % 2 ^ f.width else v

/-- Elements of a type: two halves for the paired types (R128). -/
def elemCount (t : Nat) : Nat := if t == 9 || t == 10 then 2 else 1
/-- Element `j` of a source. -/
def elemAt (t v j : Nat) : Nat := if t == 9 || t == 10 then v / 2 ^ (16 * j) % 2 ^ 16 else v % 2 ^ (fmtOf t).width

end Sys2Proof.Machine
end

