-- ==== Sys2Proof/Machine/FpReal.lean ====
section
/-! DEFINITION. Correct rounding of the transcendental forms and of their tangents (05_float.md R137, 06_glaze.md R164,
R165): fixed-point enclosures of the exact real value, taken at growing precision until every number in the enclosure
rounds to the same bits. The exact cases are decided before; every other value here is irrational, so it is never a
rounding boundary. A value `v` at precision `p` stands for v / 2^p; each function's truncation error stays below
2^`slack` units. -/

namespace Sys2Proof.Machine

open Sys2Proof

/-- The error bound, in bits, of every fixed-point function below. -/
def slack : Nat := 24

/-- The sum of z^(2k+1) / (2k+1) with signs, for |z| < 1: `sq` is z² (negative for arctangent). -/
def oddSeries (p : Nat) (sq : Int) : Nat → Nat → Int → Int → Int
  | 0, _, _, acc => acc
  | fuel + 1, k, pow, acc =>
    if pow = 0 then acc else oddSeries p sq fuel (k + 2) (pow * sq / 2 ^ p) (acc + pow / k)

/-- atanh z at precision p, for z a fixed-point number with |z| ≤ 1/2. -/
def atanhFix (p : Nat) (z : Int) : Int := oddSeries p (z * z / 2 ^ p) (p + 2) 1 z 0
/-- arctan (1 / n). -/
def atanInv (p n : Nat) : Int := oddSeries p (-((2 ^ p : Nat) / (n * n) : Nat)) (p + 2) 1 ((2 ^ p : Nat) / n : Nat) 0
/-- ln 2 = 2 atanh (1/3). -/
def ln2Fix (p : Nat) : Int := 2 * atanhFix p (((2 ^ p : Nat) / 3 : Nat) : Int)
/-- π by Machin's formula. -/
def piFix (p : Nat) : Int := 4 * (4 * atanInv p 5 - atanInv p 239)

/-- The sum of t^k / k! from term `k` on. -/
def expSeries (p : Nat) (t : Int) : Nat → Nat → Int → Int → Int
  | 0, _, _, acc => acc
  | fuel + 1, k, term, acc =>
    if term = 0 then acc else expSeries p t fuel (k + 1) (term * t / 2 ^ p / (k + 1)) (acc + term)
/-- e^t for |t| ≤ 1. -/
def expFix (p : Nat) (t : Int) : Int := expSeries p t (p + 2) 0 (2 ^ p : Nat) 0

/-- Sine and cosine series: terms of t^k / k! taken by fours. -/
def trigSeries (p : Nat) (t : Int) : Nat → Nat → Int → Int → Int → Int × Int
  | 0, _, _, sn, cs => (sn, cs)
  | fuel + 1, k, term, sn, cs =>
    if term = 0 then (sn, cs)
    else
      let (sn', cs') := match k % 4 with
        | 0 => (sn, cs + term)
        | 1 => (sn + term, cs)
        | 2 => (sn, cs - term)
        | _ => (sn - term, cs)
      trigSeries p t fuel (k + 1) (term * t / 2 ^ p / (k + 1)) sn' cs'
/-- (sin t, cos t) for 0 ≤ t ≤ 2. -/
def sinCosFix (p : Nat) (t : Int) : Int × Int := trigSeries p t (p + 2) 0 (2 ^ p : Nat) 0 0

/-- m × 2^e as a fixed-point number, rounded down. -/
def toFix (p m : Nat) (e : Int) : Int :=
  if 0 ≤ e + p then ((m * 2 ^ (e + p).toNat : Nat) : Int) else ((m / 2 ^ (-(e + p)).toNat : Nat) : Int)

/-- The real functions that a magnitude x = m × 2^e > 0 goes through. Each answers a signed fixed-point value and a
binary exponent to scale it by. -/
inductive RealFn where
  /-- 2^x and ln 2 · 2^x, of x with a sign. -/
  | exp2 (neg : Bool) | exp2Tan (neg : Bool)
  /-- log2 x and 1 / (x ln 2). -/
  | log2 | log2Tan
  | sin | cos
  | tanh | tanhTan
  deriving DecidableEq, Repr

/-- 2^±x as (fixed-point in [1, 2), exponent). -/
def exp2Fix (p m : Nat) (e : Int) (neg : Bool) : Int × Int :=
  -- whole and fractional part of x, the fraction exact
  let whole : Nat := if 0 ≤ e then m * 2 ^ e.toNat else m / 2 ^ (-e).toNat
  let fracN : Nat := if 0 ≤ e then 0 else m % 2 ^ (-e).toNat
  if neg then
    if fracN = 0 then ((2 ^ p : Nat), -(whole : Int))
    else
      let fr := toFix p fracN e
      (expFix p (((2 ^ p : Nat) - fr) * ln2Fix p / 2 ^ p), -(whole : Int) - 1)
  else (expFix p (toFix p fracN e * ln2Fix p / 2 ^ p), whole)

/-- sin and cos of m × 2^e with exact argument reduction: the quadrant and the reduced argument at precision p. -/
def reduceArg (p m : Nat) (e : Int) : Nat × Int :=
  let p' := p + 16 + (if 0 < e + bitLen m then (e + bitLen m).toNat else 0)
  let x := toFix p' m e
  let half := piFix p' / 2
  ((x / half).toNat % 4, (x % half) / 2 ^ (p' - p))

/-- A real function of x = m × 2^e at precision p. Arguments so large that the result is within 2^-4000 of a limit are
answered by that limit; the caller's rounding takes the last place from the enclosure. -/
def realFix (fn : RealFn) (p m : Nat) (e : Int) : Int × Int :=
  match fn with
  | .exp2 neg => exp2Fix p m e neg
  | .exp2Tan neg => let (v, k) := exp2Fix p m e neg; (v * ln2Fix p / 2 ^ p, k)
  | .log2 =>
    let k : Int := e + bitLen m - 1
    let x := toFix p m (-(bitLen m : Int) + 1)
    let one : Int := (2 ^ p : Nat)
    let z := (x - one) * 2 ^ p / (x + one)
    (k * 2 ^ p + 2 * atanhFix p z * 2 ^ p / ln2Fix p, 0)
  | .log2Tan =>
    -- 1 / (m' ln 2) with m' in [1, 2), scaled
    let k : Int := e + bitLen m - 1
    let x := toFix p m (-(bitLen m : Int) + 1)
    let d := x * ln2Fix p / 2 ^ p
    (((2 ^ (2 * p) : Nat) : Int) / d, -k)
  | .sin =>
    let (q, t) := reduceArg p m e
    let (sn, cs) := sinCosFix p t
    (match q with | 0 => sn | 1 => cs | 2 => -sn | _ => -cs, 0)
  | .cos =>
    let (q, t) := reduceArg p m e
    let (sn, cs) := sinCosFix p t
    (match q with | 0 => cs | 1 => -sn | 2 => -cs | _ => sn, 0)
  | .tanh =>
    -- (1 - y) / (1 + y), y = 2^(-2x / ln 2)
    let one : Int := (2 ^ p : Nat)
    let y := tanhY p m e
    ((one - y) * 2 ^ p / (one + y), 0)
  | .tanhTan =>
    -- 4 y / (1 + y)^2, with the exponent of y kept apart
    let one : Int := (2 ^ p : Nat)
    let (v, k) := expNeg p m e
    let y := if k ≤ 0 then v / 2 ^ (-k).toNat else v
    (4 * v * 2 ^ p / ((one + y) * (one + y) / 2 ^ p), k)
where
  /-- e^(-2x) as (fixed-point, exponent). -/
  expNeg (p m : Nat) (e : Int) : Int × Int :=
    let p' := p + 16 + (if 0 < e + bitLen m then (e + bitLen m).toNat else 0)
    -- 2x / ln 2 at precision p'
    let u := toFix p' m (e + 1) * 2 ^ p' / ln2Fix p'
    let whole := u / 2 ^ p'
    let fr := (u % 2 ^ p') / 2 ^ (p' - p)
    (expFix p (((2 ^ p : Nat) - fr) * ln2Fix p / 2 ^ p), -whole - 1)
  /-- e^(-2x) as a fixed-point number. -/
  tanhY (p m : Nat) (e : Int) : Int :=
    let (v, k) := expNeg p m e
    if k ≤ 0 then v / 2 ^ (-k).toNat else v

/-- Round the enclosure [v - 2^slack, v + 2^slack] × d, d = dm × 2^de exact, when all of it rounds alike. -/
def roundEnclosed (f : FpFmt) (r : RMode) (sign : Bool) (p : Nat) (v k : Int) (dm : Nat) (de : Int) : Option (Nat × Nat) :=
  let neg := decide (v < 0) != sign
  let a : Int := v.natAbs
  let lo := a - (2 ^ slack : Nat)
  let hi := a + (2 ^ slack : Nat)
  if lo ≤ 0 then none
  else
    let e := k - p + de
    let x := roundMag f r neg (lo.toNat * dm) e true
    let y := roundMag f r neg (hi.toNat * dm - 1) e true
    if x = y then some (x.1, x.2) else none

/-- Correctly rounded sign × fn(m × 2^e) × dm × 2^de, at the first of the given precisions that decides it; the last one
decides in any case. -/
def roundReal (f : FpFmt) (r : RMode) (fn : RealFn) (sign : Bool) (m : Nat) (e : Int) (dm : Nat) (de : Int) :
    List Nat → Nat × Nat
  | [] => (f.zero sign, 0)
  | p :: ps =>
    let (v, k) := realFix fn p m e
    match roundEnclosed f r sign p v k dm de with
    | some x => x
    | none =>
      if ps.isEmpty then roundMag f r (decide (v < 0) != sign) (max 1 (v.natAbs * dm)) (k - p + de) true
      else roundReal f r fn sign m e dm de ps

/-- The precisions tried. -/
def precisions : List Nat := [128, 320, 800, 1600]

/-- A positive value so small that only its direction counts. -/
def roundTiny (f : FpFmt) (r : RMode) (sign : Bool) : Nat × Nat := roundMag f r sign 1 (f.qMin - 64) true
/-- A value just below 1 (tanh of a large argument). -/
def roundBelowOne (f : FpFmt) (r : RMode) (sign : Bool) : Nat × Nat :=
  roundMag f r sign (2 ^ 64 - 1) (-64) true

end Sys2Proof.Machine
end

