-- ==== Sys2Proof/Machine/FloatOps.lean ====
section
/-! DEFINITION. The results of the floating-point forms and of their tangents, on decoded operands (05_float.md R134 to
R137, 06_glaze.md R164 to R166). Each primal function takes decoded, flushed operands none of which is a NaN; each
tangent function takes them with the layer's tangents and answers bits and numeric events. -/

namespace Sys2Proof.Machine

open Sys2Proof

/-- A form's result: bits and event mask. -/
abbrev Rounded := Nat × Nat

/-- The operand at a place, zero where the form has none. -/
def opnd (vs : List FVal) (j : Nat) : FVal := vs.getD j (.fin false 0 0)
def opndExt (vs : List FVal) (j : Nat) : Ext := (opnd vs j).ext
/-- The sign of a decoded value. -/
def FVal.sign : FVal → Bool
  | .nan _ => false
  | .inf s => s
  | .fin s _ _ => s
def FVal.isZero : FVal → Bool
  | .fin _ m _ => m == 0
  | _ => false
def FVal.isInf : FVal → Bool
  | .inf _ => true
  | _ => false
def FVal.isNaN : FVal → Bool
  | .nan _ => true
  | _ => false

/-! ### Primal results -/

def primAdd (f : FpFmt) (r : RMode) (vs : List FVal) : Rounded :=
  roundExt f r (sumExt r.mode [opndExt vs 0, opndExt vs 1])
def primSub (f : FpFmt) (r : RMode) (vs : List FVal) : Rounded :=
  roundExt f r (sumExt r.mode [opndExt vs 0, (opndExt vs 1).neg])
def primMul (f : FpFmt) (r : RMode) (vs : List FVal) : Rounded :=
  roundExt f r ((opndExt vs 0).mul (opndExt vs 1))
def primFma (f : FpFmt) (r : RMode) (vs : List FVal) : Rounded :=
  roundExt f r (sumExt r.mode [(opndExt vs 0).mul (opndExt vs 1), opndExt vs 2])

/-- Encode an exact value of the format. -/
def encodeExact (f : FpFmt) (v : FVal) : Nat :=
  match v with
  | .nan b => b
  | .inf s => f.inf s
  | .fin s m e => if m = 0 then f.zero s else (roundMag f {} s m e false).1

/-- Round to an integral value in the mode (FRND). -/
def primRnd (f : FpFmt) (r : RMode) (vs : List FVal) : Rounded :=
  match opnd vs 0 with
  | .fin s m e =>
    let n := if m = 0 then 0 else
      if e + bitLen m < -2 then (roundsUp r.mode s 0 1 3 true).toNat else (roundAt r.mode s m e 0 false).1
    (encodeExact f (.fin s n 0), 0)
  | v => (encodeExact f v, 0)

/-- x × 2^n (FSCALE). -/
def primScale (n : Int) (f : FpFmt) (r : RMode) (vs : List FVal) : Rounded :=
  match opnd vs 0 with
  | .fin s m e => if m = 0 then (f.zero s, 0) else roundMag f r s m (e + n) false
  | v => roundExt f r v.ext

/-- Order of minimumNumber and maximumNumber: −0 below +0 (R135). -/
def fvalLess (a b : FVal) : Bool :=
  match a, b with
  | .inf s, .inf s' => s && !s'
  | .inf s, _ => s
  | _, .inf s' => !s'
  | .fin s m e, .fin s' m' e' =>
    if m = 0 && m' = 0 then s && !s'
    else
      let d := Dy.add { n := if s then -(m : Int) else m, e } { n := if s' then (m' : Int) else -(m' : Int), e := e' }
      decide (d.n < 0)
  | _, _ => false

/-- The operand that FMIN or FMAX returns: 0 or 1 (R135); S1's when they are equal. -/
def pickMinMax (isMax : Bool) (x y : FVal) : Nat :=
  if y.isNaN then 0
  else if x.isNaN then 1
  else if (if isMax then fvalLess x y else fvalLess y x) then 1 else 0

/-- Quotient (FDIV): 0/0 and ∞/∞ invalid, finite nonzero / 0 divides by zero (R136). -/
def primDiv (f : FpFmt) (r : RMode) (vs : List FVal) : Rounded :=
  let x := opnd vs 0
  let y := opnd vs 1
  let s := x.sign != y.sign
  match x, y with
  | .inf _, .inf _ => (f.defaultNaN, evNaN)
  | .inf _, _ => roundExt f r (.inf s)
  | _, .inf _ => (f.zero s, 0)
  | .fin _ m e, .fin _ m' e' =>
    if m' = 0 then (if m = 0 then (f.defaultNaN, evNaN) else ((roundExt f r (.inf s)).1, evDivZero))
    else if m = 0 then (f.zero s, 0)
    else roundQuot f r s m m' (e - e')
  | _, _ => (f.defaultNaN, evNaN)

/-- Square root (FSQRT). -/
def primSqrt (f : FpFmt) (r : RMode) (vs : List FVal) : Rounded :=
  match opnd vs 0 with
  | .fin s m e => if m = 0 then (f.zero s, 0) else if s then (f.defaultNaN, evNaN) else roundRoot f r false m 1 e
  | .inf s => if s then (f.defaultNaN, evNaN) else roundExt f r (.inf false)
  | .nan b => (quiet f b, 0)

/-- Reciprocal (FRCP). -/
def primRcp (f : FpFmt) (r : RMode) (vs : List FVal) : Rounded :=
  primDiv f r [.fin false 1 0, opnd vs 0]

/-- Reciprocal square root (FRSQ). -/
def primRsq (f : FpFmt) (r : RMode) (vs : List FVal) : Rounded :=
  match opnd vs 0 with
  | .fin s m e =>
    if m = 0 then ((roundExt f r (.inf s)).1, evDivZero)
    else if s then (f.defaultNaN, evNaN)
    else
      -- √(1 / (m 2^e))
      roundRoot f r false 1 m (-e)
  | .inf s => if s then (f.defaultNaN, evNaN) else (f.zero false, 0)
  | .nan b => (quiet f b, 0)

/-- A finite magnitude beyond 2^13. -/
def isLarge (m : Nat) (e : Int) : Bool := decide (14 < e + bitLen m)

/-- x with its trailing zero bits moved into the exponent: a whole number iff the exponent is not negative. -/
def strip : Nat → Nat → Int → Nat × Int
  | 0, m, e => (m, e)
  | fuel + 1, m, e => if m != 0 && m % 2 == 0 then strip fuel (m / 2) (e + 1) else (m, e)

def primExp2 (f : FpFmt) (r : RMode) (vs : List FVal) : Rounded :=
  match opnd vs 0 with
  | .inf s => if s then (f.zero false, 0) else roundExt f r (.inf false)
  | .nan b => (quiet f b, 0)
  | .fin s m e =>
    if m = 0 then roundMag f r false 1 0 false
    else
      let (m', e') := strip 64 m e
      if 0 ≤ e' then
        -- a whole exponent: exact
        let k : Int := m' * 2 ^ e'.toNat
        roundMag f r false 1 (if s then -k else k) false
      else roundReal f r (.exp2 s) false m e 1 0 precisions

def primLog2 (f : FpFmt) (r : RMode) (vs : List FVal) : Rounded :=
  match opnd vs 0 with
  | .inf s => if s then (f.defaultNaN, evNaN) else roundExt f r (.inf false)
  | .nan b => (quiet f b, 0)
  | .fin s m e =>
    if m = 0 then ((roundExt f r (.inf true)).1, evDivZero)
    else if s then (f.defaultNaN, evNaN)
    else
      let (m', e') := strip 64 m e
      if m' = 1 then (if e' = 0 then (f.zero false, 0) else roundMag f r (decide (e' < 0)) e'.natAbs 0 false)
      else roundReal f r .log2 false m e 1 0 precisions

def primSin (f : FpFmt) (r : RMode) (vs : List FVal) : Rounded :=
  match opnd vs 0 with
  | .fin s m e => if m = 0 then (f.zero s, 0) else roundReal f r .sin s m e 1 0 precisions
  | _ => (f.defaultNaN, evNaN)
def primCos (f : FpFmt) (r : RMode) (vs : List FVal) : Rounded :=
  match opnd vs 0 with
  | .fin _ m e => if m = 0 then roundMag f r false 1 0 false else roundReal f r .cos false m e 1 0 precisions
  | _ => (f.defaultNaN, evNaN)
def primTanh (f : FpFmt) (r : RMode) (vs : List FVal) : Rounded :=
  match opnd vs 0 with
  | .inf s => roundMag f r s 1 0 false
  | .nan b => (quiet f b, 0)
  | .fin s m e =>
    if m = 0 then (f.zero s, 0)
    else if 7 < e + bitLen m then roundBelowOne f r s
    else roundReal f r .tanh s m e 1 0 precisions

/-! ### Tangents (R164 to R166) -/

/-- Tangent of a form without division: a sum of terms. -/
def tanSum (f : FpFmt) (r : RMode) (ts : List Ext) : Rounded := roundExt f r (sumExt r.mode ts)

/-- num / den over the extended reals (R166): `fin` rounds the finite quotient. -/
def tanQuot (f : FpFmt) (r : RMode) (num den : Ext) (fin : Bool → Dy → Dy → Rounded) : Rounded :=
  let s := num.sign != den.sign
  match num, den with
  | .invalid, _ => (f.defaultNaN, evNaN)
  | _, .invalid => (f.defaultNaN, evNaN)
  | .inf _, .inf _ => (f.defaultNaN, evNaN)
  | .inf _, .fin _ d => ((roundExt f r (.inf s)).1, if d.n = 0 then evDivZero else 0)
  | .fin _ _, .inf _ => (f.zero s, 0)
  | .fin _ n, .fin _ d =>
    if d.n = 0 then (if n.n = 0 then (f.defaultNaN, evNaN) else ((roundExt f r (.inf s)).1, evDivZero))
    else if n.n = 0 then (f.zero s, 0)
    else fin s n d

/-- The zero tangent that all-zero source tangents give: the sign of the formula's zero (R165, R166). -/
def tanZero (f : FpFmt) (num den : Ext) : Rounded := (f.zero (num.sign != den.sign), 0)

/-- The extended number 1. -/
def extOne : Ext := .fin false { n := 1, e := 0 }

def tanDiv (f : FpFmt) (r : RMode) (vs ds : List FVal) : Rounded :=
  let x := opndExt vs 0
  let y := opndExt vs 1
  let dx := opndExt ds 0
  let dy := opndExt ds 1
  let num := sumExt r.mode [dx.tmul y, (dy.tmul x).neg]
  let den := y.mul y
  if dx.isZero && dy.isZero then tanZero f num den
  else tanQuot f r num den fun s n d => roundQuot f r s n.mag d.mag (n.e - d.e)

/-- The square root of a value that is not negative, for its sign, zero and infinity; a finite one stays under the root. -/
def tanSqrt (f : FpFmt) (r : RMode) (vs ds : List FVal) : Rounded :=
  let x := opndExt vs 0
  let dx := opndExt ds 0
  if dx.isZero then tanZero f dx x
  else tanQuot f r dx x fun s n d =>
    -- n / (2 √d): the root of n² / (4 d)
    roundRoot f r s (n.mag * n.mag) (4 * d.mag) (2 * n.e - d.e)

def tanRcp (f : FpFmt) (r : RMode) (vs ds : List FVal) : Rounded :=
  let x := opndExt vs 0
  let num := (opndExt ds 0).neg
  let den := x.mul x
  if num.isZero then tanZero f num den
  else tanQuot f r num den fun s n d => roundQuot f r s n.mag d.mag (n.e - d.e)

def tanRsq (f : FpFmt) (r : RMode) (vs ds : List FVal) : Rounded :=
  let x := opndExt vs 0
  let num := (opndExt ds 0).neg
  -- 2 x √x has the sign of x × √x, which is +, and x's zeros and infinities
  let den := x.mul x
  if num.isZero then tanZero f num den
  else tanQuot f r num den fun s n _ =>
    match opnd vs 0 with
    | .fin _ m e => roundRoot f r s (n.mag * n.mag) (4 * m * m * m) (2 * n.e - 3 * e)
    | _ => (f.zero s, 0)

/-- An irrational factor times the tangent, or the factor's exact zero or infinity times it. -/
def tanFactor (f : FpFmt) (r : RMode) (factor : Ext) (dx : Ext) (real : Option (Bool → Nat → Int → Rounded)) : Rounded :=
  if dx.isZero then (f.zero (dx.sign != factor.sign), 0)
  else match dx, real with
    | .fin _ d, some g => g (decide (d.n < 0)) d.mag d.e
    | .inf s, some _ => roundExt f r (.inf (s != factor.sign))
    | _, _ => roundExt f r (dx.tmul factor)

def tanExp2 (f : FpFmt) (r : RMode) (vs ds : List FVal) : Rounded :=
  let dx := opndExt ds 0
  match opnd vs 0 with
  | .inf s => tanFactor f r (if s then .fin false { n := 0, e := 0 } else .inf false) dx none
  | .fin s m e => tanFactor f r extOne dx (some fun sg dm de => roundReal f r (.exp2Tan s) sg m e dm de precisions)
  | .nan _ => (f.defaultNaN, 0)

def tanLog2 (f : FpFmt) (r : RMode) (vs ds : List FVal) : Rounded :=
  let x := opndExt vs 0
  let dx := opndExt ds 0
  if dx.isZero then tanZero f dx x
  else tanQuot f r dx x fun s n _ =>
    match opnd vs 0 with
    | .fin _ m e => roundReal f r .log2Tan s m e n.mag n.e precisions
    | _ => (f.zero s, 0)

def tanSin (f : FpFmt) (r : RMode) (vs ds : List FVal) : Rounded :=
  let dx := opndExt ds 0
  match opnd vs 0 with
  | .fin _ m e =>
    if m = 0 then tanFactor f r extOne dx none
    else
      -- the sign of cos x, for zero and infinite tangents
      let neg := decide ((realFix .cos 320 m e).1 < 0)
      tanFactor f r (if neg then extOne.neg else extOne) dx (some fun sg dm de => roundReal f r .cos sg m e dm de precisions)
  | _ => (f.defaultNaN, 0)

def tanCos (f : FpFmt) (r : RMode) (vs ds : List FVal) : Rounded :=
  let dx := opndExt ds 0
  match opnd vs 0 with
  | .fin s m e =>
    if m = 0 then tanFactor f r (.fin (!s) { n := 0, e := 0 }) dx none
    else
      let neg := decide ((realFix .sin 320 m e).1 < 0) != s
      tanFactor f r (if neg then extOne else extOne.neg) dx (some fun sg dm de => roundReal f r .sin (sg == s) m e dm de precisions)
  | _ => (f.defaultNaN, 0)

def tanTanh (f : FpFmt) (r : RMode) (vs ds : List FVal) : Rounded :=
  let dx := opndExt ds 0
  match opnd vs 0 with
  | .inf _ => tanFactor f r (.fin (r.mode == .down) { n := 0, e := 0 }) dx none
  | .nan _ => (f.defaultNaN, 0)
  | .fin _ m e =>
    if m = 0 then tanFactor f r extOne dx none
    else if isLarge m e then tanFactor f r extOne dx (some fun sg _ _ => roundTiny f r sg)
    else tanFactor f r extOne dx (some fun sg dm de => roundReal f r .tanhTan sg m e dm de precisions)

/-- The tangent of one element (R166): `vs` the primal operands, `ds` their tangents, `prim` the primal result. -/
def tangent (f : FpFmt) (ds : List FVal) (primNaN : Bool) (formula : Unit → Rounded) : Rounded :=
  match firstNaN ds with
  | some b => (quiet f b, 0)
  | none => if primNaN then (f.defaultNaN, 0) else formula ()

end Sys2Proof.Machine
end

