-- ==== Sys2Proof/Machine/Narrow.lean ====
section
/-! DEFINITION. Narrow formats and block scales (05_float.md R143 to R148). -/

namespace Sys2Proof.Machine

open Sys2Proof

/-- Fields of a descriptor (R143). -/
def descSG (d : Nat) : Bool := bit d 15
def descEB (d : Nat) : Nat := bits d 14 12
def descMB (d : Nat) : Nat := bits d 11 9
def descBias (d : Nat) : Int := toSigned 8 (bits d 8 1)
def descSP (d : Nat) : Bool := bit d 0
/-- Width b of a code, and the slot it occupies (R144, R146). -/
def descWidth (d : Nat) : Nat := (descSG d).toNat + descEB d + descMB d
def slotOf (b : Nat) : Nat := if b ≤ 2 then 2 else if b ≤ 4 then 4 else 8

/-- The value of a code (R145). -/
def decodeNarrow (d code : Nat) : FVal :=
  let c := code % 2 ^ descWidth d
  let eb := descEB d
  let mb := descMB d
  let s := descSG d && c / 2 ^ (eb + mb) % 2 == 1
  let e := c / 2 ^ mb % 2 ^ eb
  let m := c % 2 ^ mb
  if descSP d && e == 2 ^ eb - 1 then (if m = 0 then .inf s else .nan 0x7FC00000)
  else if e = 0 then .fin s m (1 - descBias d - mb)
  else .fin s (2 ^ mb + m) ((e : Int) - descBias d - mb)

/-- The largest finite code without its sign, and the code of infinity (R145). -/
def narrowLargest (d : Nat) : Nat :=
  if descSP d then (2 ^ descEB d - 1) * 2 ^ descMB d - 1 else 2 ^ (descEB d + descMB d) - 1
def narrowInf (d : Nat) : Nat := (2 ^ descEB d - 1) * 2 ^ descMB d

/-- Round a nonzero magnitude onto the narrow grid: the unsigned code and whether the rounded magnitude, with an unbounded
exponent, exceeds the largest finite value; and whether the rounding was inexact and below the smallest normal. At a tie
nearest-even takes the even significand, also in a format without mantissa bits (DEDUCED, notes/assumptions/105.md). -/
def roundNarrow (d : Nat) (mode : Round) (sign : Bool) (m : Nat) (e : Int) : Nat × Bool × Bool :=
  let mb := descMB d
  let qMin : Int := 1 - descBias d - mb
  let top : Int := e + bitLen m - 1
  let small := decide (top < qMin - 2)
  let q := if descEB d = 0 then qMin else max (top - mb) qMin
  let (n, inexact) := if small then ((roundsUp mode sign 0 1 3 true).toNat, true) else roundAt mode sign m e q false
  let q := if small then qMin else q
  -- n × 2^q as a code: the exponent field counts q up from qMin
  let code := if n < 2 ^ mb && q = qMin then n else (q - qMin).toNat * 2 ^ mb + n
  let tiny := descEB d != 0 && decide (top < 1 - descBias d) && inexact
  (code, decide (narrowLargest d < code), tiny)

/-- Encode a decoded FP32 value: the code and its events (R147). A negative value in an unsigned format counts narrow
saturation alone, by its rounded code before any flush, and no underflow (DESIGN CHOICE, notes/assumptions/94.md). -/
def encodeNarrow (d : Nat) (r : RMode) (v : FVal) : Rounded :=
  let sg := descSG d
  let signBit := fun (s : Bool) => if sg && s then 2 ^ (descEB d + descMB d) else 0
  match v with
  | .nan _ => if descSP d then (2 ^ (descEB d + descMB d) - 1, 0) else (0, evNarrow)
  | .inf s =>
    if !sg && s then (0, evNarrow)
    else if descSP d then ((if r.sat then narrowLargest d else narrowInf d) + signBit s, 0)
    else (narrowLargest d + signBit s, evNarrow)
  | .fin s m e =>
    if m = 0 then (signBit s, 0)
    else
      let (code, above, tiny) := roundNarrow d r.mode s m e
      let under := if tiny then evUnderflow else 0
      if !sg && s then (0, if code = 0 then 0 else evNarrow)
      else if above then
        if descSP d then
          let toLargest := match r.mode with | .zero => true | .up => s | .down => !s | _ => false
          ((if toLargest || r.sat then narrowLargest d else narrowInf d) + signBit s, evOverflow)
        else (narrowLargest d + signBit s, evNarrow)
      else if r.ftz && descEB d != 0 && code != 0 && decide (code < 2 ^ descMB d) then (signBit s, evUnderflow)
      else (code + signBit s, under)

/-- The value of a block-scale code; code 0x00 is a zero block (R148). -/
def decodeScale (code : Nat) : FVal :=
  if code % 256 = 0 then .fin false 0 0
  else .fin false (8 + code % 8) ((code / 8 % 32 : Nat) - 18 : Int)

/-- Encode a value into a block-scale code (R148). A value below that of code 0x01 rounds on the grid of zero and that
value (DEDUCED, notes/assumptions/17.md); one that rounds up to code 0x01 counts no underflow, as R148 counts only the
values that round below it (DESIGN CHOICE, notes/assumptions/95.md). -/
def encodeScale (r : RMode) (v : FVal) : Rounded :=
  match v with
  | .nan _ => (0, evNarrow)
  | .inf s => (if s then 0 else 0xFF, evNarrow)
  | .fin s m e =>
    if m = 0 then (0, 0)
    else if s then (0, evNarrow)
    else
      let top : Int := e + bitLen m - 1
      -- m × 2^e against k × 2^f
      let cmp := fun (k : Nat) (f : Int) =>
        let lo := min e f
        compare (m * 2 ^ (e - lo).toNat) (k * 2 ^ (f - lo).toNat)
      if 17 < top || cmp 15 13 == .gt then (0xFF, evNarrow)
      else if top < -17 || cmp 9 (-18) == .lt then
        let half : Ordering := if top < -17 then .lt else cmp 9 (-19)
        let isUp : Bool := match r.mode with
          | .near => half == .gt
          | .away => half != .lt
          | .up => true
          | _ => false
        if isUp then (1, 0) else (0, evUnderflow)
      else
        let q := top - 3
        let (n, _) := roundAt r.mode false m e q false
        -- n × 2^q with 8 ≤ n ≤ 16; value (1 + m/8) 2^(c-15), c = q + 18
        (((q + 18) * 8 + (n - 8 : Nat)).toNat, 0)

end Sys2Proof.Machine
end

