-- ==== Sys2Proof/Machine/Float.lean ====
section
/-! DEFINITION. Floating-point and narrow-format instructions, opcodes 0x40 to 0x5A (05_float.md), with the tangents of
the glazed ones (06_glaze.md). -/

namespace Sys2Proof.Machine

open Sys2Proof

/-- The sign modifiers of M on the tangents: abs negates ẋ when S1's sign bit was set, negation negates (R164). -/
def tanSign (f : FpFmt) (m j raw v : Nat) : Nat :=
  let flip := match j with
    | 0 => (bit m 1 && raw % 2 ^ f.width / f.signBit == 1) != bit m 3
    | 1 => bit m 2
    | _ => false
  let v := v % 2 ^ f.width
  if flip then (v + f.signBit) % 2 ^ f.width else v

/-- One element of a form: modifiers, flushing, NaNs, the primal result (R131, R133), and the layers in G. -/
def fpElem (f g : FpFmt) (m : Nat) (raws : List Nat) (tans : List (List Nat))
    (prim : FpFmt → RMode → List FVal → Rounded) (tan : FpFmt → RMode → List FVal → List FVal → Rounded) :
    Nat × List Nat × Nat :=
  let r := rmodeOf m
  let dec := fun (v : Nat) => flushIn f r.ftz (decodeFp f v)
  let vs := (List.range raws.length).map fun j =>
    let v := raws.getD j 0
    dec (match j with | 0 => mod1 f m v | 1 => mod2 f m v | _ => v % 2 ^ f.width)
  let (res, ev) := match firstNaN vs with
    | some b => (convertNaN f g b, 0)
    | none => prim g r vs
  let primNaN := (decodeFp g res).isNaN
  let ts := tans.map fun ds =>
    let dv := (List.range ds.length).map fun j => dec (tanSign f m j (raws.getD j 0) (ds.getD j 0))
    match firstNaN dv with
    | some b => (convertNaN f g b, 0)
    | none => if primNaN then (g.defaultNaN, 0) else tan g r vs dv
  (res, ts.map (·.1), ts.foldl (fun e t => Nat.lor e t.2) ev)

/-- The layers 1 to D as a list, from the values of those in G (R162). -/
def spreadTans (c : Ctx) (vs : List Nat) : List Nat :=
  (List.range c.tm.depth).map fun k => if c.g.contains (k + 1) then vs.getD (c.g.findIdx (· == k + 1)) 0 else 0

/-- A form on values of one type: each element on its own (R128), sources S1 to S3 as listed. -/
def fpCompute (t m : Nat) (srcs : List (Nat × Nat)) (prim : FpFmt → RMode → List FVal → Rounded)
    (tan : FpFmt → RMode → List FVal → List FVal → Rounded) (c : Ctx) (rank : Nat) (xs : List Nat) : AluOut :=
  let f := fmtOf t
  let es := (List.range (elemCount t)).map fun j =>
    fpElem f f m (xs.map fun x => elemAt t x j) (c.g.map fun k => (readTans c rank k srcs).map fun x => elemAt t x j) prim tan
  let join := fun (vs : List Nat) => vs.getD 0 0 + (if elemCount t = 2 then 2 ^ 16 * vs.getD 1 0 else 0)
  { val := join (es.map (·.1)),
    tans := spreadTans c ((List.range c.g.length).map fun i => join (es.map fun e => e.2.1.getD i 0)),
    ev := es.foldl (fun a e => Nat.lor a e.2.2) 0 }

/-- A short-result floating-point form that propagates layers. -/
def fpWord (i : Instr) (w : FmtA) (srcs : List (Nat × Nat)) (prim : FpFmt → RMode → List FVal → Rounded)
    (tan : FpFmt → RMode → List FVal → List FVal → Rounded) (s : State) : State :=
  let t := w.t.toNat
  aluWord i s srcs w.d.toNat (tyRegs t) (tanOcc t) (fpCompute t w.m.toNat srcs prim tan)

/-- A long-result floating-point form of class 2 (R136, R137). -/
def fpLong (i : Instr) (w : FmtA) (srcs : List (Nat × Nat)) (prim : FpFmt → RMode → List FVal → Rounded)
    (tan : FpFmt → RMode → List FVal → List FVal → Rounded) (s : State) : State :=
  let t := w.t.toNat
  longWord i s 2 srcs w.d.toNat (tyRegs t) (tanOcc t) (fpCompute t w.m.toNat srcs prim tan)

/-- No tangent: zero layers (R155). -/
def noTan (_ : FpFmt) (_ : RMode) (_ _ : List FVal) : Rounded := (0, 0)

/-! ### Arithmetic (R134, R135) -/

def execFadd (w : FmtA) (s : State) : Host.Outcome State Fault Refusal :=
  .next (fpWord (.fadd w) w (src12 w) primAdd (fun f r _ ds => tanSum f r [opndExt ds 0, opndExt ds 1]) s)
def execFsub (w : FmtA) (s : State) : Host.Outcome State Fault Refusal :=
  .next (fpWord (.fsub w) w (src12 w) primSub (fun f r _ ds => tanSum f r [opndExt ds 0, (opndExt ds 1).neg]) s)
/-- ẋ·y + x·ẏ, unrounded between (R164, R165). -/
def prodTerms (vs ds : List FVal) : List Ext :=
  [(opndExt ds 0).tmul (opndExt vs 1), (opndExt ds 1).tmul (opndExt vs 0)]
def execFmul (w : FmtA) (s : State) : Host.Outcome State Fault Refusal :=
  .next (fpWord (.fmul w) w (src12 w) primMul (fun f r vs ds => tanSum f r (prodTerms vs ds)) s)
def execFfma (w : FmtA) (s : State) : Host.Outcome State Fault Refusal :=
  .next (fpWord (.ffma w) w (src12 w ++ [(w.s3.toNat, tyRegs w.t.toNat)]) primFma
    (fun f r vs ds => tanSum f r (prodTerms vs ds ++ [opndExt ds 2])) s)

/-- FMIN and FMAX ignore a NaN beside a number, so they choose before NaNs are looked at (R135). -/
def minMaxElem (isMax : Bool) (f : FpFmt) (m : Nat) (raws : List Nat) (tans : List (List Nat)) : Nat × List Nat × Nat :=
  let r := rmodeOf m
  let a := mod1 f m (raws.getD 0 0)
  let b := mod2 f m (raws.getD 1 0)
  let x := flushIn f r.ftz (decodeFp f a)
  let y := flushIn f r.ftz (decodeFp f b)
  let k := pickMinMax isMax x y
  let both := x.isNaN && y.isNaN
  let res := if both then quiet f a else encodeExact f (if k = 0 then x else y)
  let ts := tans.map fun ds =>
    let dv := (List.range 2).map fun j => flushIn f r.ftz (decodeFp f (tanSign f m j (raws.getD j 0) (ds.getD j 0)))
    match firstNaN dv with
    | some v => (quiet f v, 0)
    | none => if both then (f.defaultNaN, 0) else roundExt f r (opndExt dv k)
  (res, ts.map (·.1), 0)

/-- FMIN and FMAX on the elements of a type. -/
def minMaxCompute (isMax : Bool) (t m : Nat) (srcs : List (Nat × Nat)) (c : Ctx) (rank : Nat) (xs : List Nat) : AluOut :=
  let f := fmtOf t
  let es := (List.range (elemCount t)).map fun j =>
    minMaxElem isMax f m (xs.map fun x => elemAt t x j) (c.g.map fun k => (readTans c rank k srcs).map fun x => elemAt t x j)
  let join := fun (vs : List Nat) => vs.getD 0 0 + (if elemCount t = 2 then 2 ^ 16 * vs.getD 1 0 else 0)
  { val := join (es.map (·.1)),
    tans := spreadTans c ((List.range c.g.length).map fun i => join (es.map fun e => e.2.1.getD i 0)) }

def execFmin (w : FmtA) (s : State) : Host.Outcome State Fault Refusal :=
  .next (aluWord (.fmin w) s (src12 w) w.d.toNat (tyRegs w.t.toNat) (tanOcc w.t.toNat)
    (minMaxCompute false w.t.toNat w.m.toNat (src12 w)))
def execFmax (w : FmtA) (s : State) : Host.Outcome State Fault Refusal :=
  .next (aluWord (.fmax w) s (src12 w) w.d.toNat (tyRegs w.t.toNat) (tanOcc w.t.toNat)
    (minMaxCompute true w.t.toNat w.m.toNat (src12 w)))

/-- FRND writes zero layers and takes R71's occupancy (R155, R168). -/
def execFrnd (w : FmtA) (s : State) : Host.Outcome State Fault Refusal :=
  .next (aluWord (.frnd w) s (src1 w) w.d.toNat (tyRegs w.t.toNat) (tyOcc w.t.toNat) fun c rank xs =>
    { fpCompute w.t.toNat w.m.toNat (src1 w) primRnd noTan c rank xs with tans := [] })

/-- FSCALE: n is S2, a signed 32-bit integer, the same for both elements. -/
def execFscale (w : FmtA) (s : State) : Host.Outcome State Fault Refusal :=
  let t := w.t.toNat
  .next (aluWord (.fscale w) s (src1 w ++ [(w.s2.toNat, 1)]) w.d.toNat (tyRegs t) (tanOcc t) fun c rank xs =>
    let n := toSigned 32 (xs.getD 1 0)
    fpCompute t w.m.toNat (src1 w) (primScale n) (fun f r _ ds => primScale n f r ds) c rank (xs.take 1))

/-- FDOT2: z + x0 y0 + x1 y1 rounded once to FP32, with its tangents (R134, R164). -/
def dot2Elem (t m : Nat) (x y z : Nat) (tans : List (Nat × Nat × Nat)) : AluOut :=
  let f := fmtOf t
  let r := rmodeOf m
  let d1 := fun v j => flushIn f r.ftz (decodeFp f (mod1 f m (elemAt t v j)))
  let d2 := fun v j => flushIn f r.ftz (decodeFp f (mod2 f m (elemAt t v j)))
  let vs := [d1 x 0, d2 y 0, d1 x 1, d2 y 1]
  let vz := flushIn fp32 r.ftz (decodeFp fp32 z)
  let prod := fun (as bs : List FVal) (j : Nat) => (opndExt as (2 * j)).mul (opndExt bs (2 * j + 1))
  let (res, ev) := match firstNaN vs with
    | some b => (convertNaN f fp32 b, 0)
    | none => match vz with
      | .nan b => (quiet fp32 b, 0)
      | _ => roundExt fp32 r (sumExt r.mode [vz.ext, prod vs vs 0, prod vs vs 1])
  let primNaN := (decodeFp fp32 res).isNaN
  let ts := tans.map fun (dx, dy, dz) =>
    let e1 := fun j => flushIn f r.ftz (decodeFp f (tanSign f m 0 (elemAt t x j) (elemAt t dx j)))
    let e2 := fun j => flushIn f r.ftz (decodeFp f (tanSign f m 1 (elemAt t y j) (elemAt t dy j)))
    let ds := [e1 0, e2 0, e1 1, e2 1]
    let ez := flushIn fp32 r.ftz (decodeFp fp32 dz)
    match firstNaN ds with
    | some b => (convertNaN f fp32 b, 0)
    | none => match ez with
      | .nan b => (quiet fp32 b, 0)
      | _ =>
        if primNaN then (fp32.defaultNaN, 0)
        else tanSum fp32 r ([ez.ext] ++ [0, 1].flatMap fun j =>
          [(opndExt ds (2 * j)).tmul (opndExt vs (2 * j + 1)), (opndExt ds (2 * j + 1)).tmul (opndExt vs (2 * j))])
  { val := res, tans := ts.map (·.1), ev := ts.foldl (fun e q => Nat.lor e q.2) ev }

def execFdot2 (w : FmtA) (s : State) : Host.Outcome State Fault Refusal :=
  let srcs := [(w.s1.toNat, 1), (w.s2.toNat, 1), (w.s3.toNat, 1)]
  .next (aluWord (.fdot2 w) s srcs w.d.toNat 1 (tanOcc w.t.toNat) fun c rank xs =>
    let o := dot2Elem w.t.toNat w.m.toNat (xs.getD 0 0) (xs.getD 1 0) (xs.getD 2 0)
      (c.g.map fun k => let ds := readTans c rank k srcs; (ds.getD 0 0, ds.getD 1 0, ds.getD 2 0))
    { o with tans := spreadTans c o.tans })

/-! ### Division, roots and transcendentals (R136, R137) -/

def execFdiv (w : FmtA) (s : State) : Host.Outcome State Fault Refusal :=
  .next (fpLong (.fdiv w) w (src12 w) primDiv tanDiv s)
def execFsqrt (w : FmtA) (s : State) : Host.Outcome State Fault Refusal :=
  .next (fpLong (.fsqrt w) w (src1 w) primSqrt tanSqrt s)
def execFrcp (w : FmtA) (s : State) : Host.Outcome State Fault Refusal :=
  .next (fpLong (.frcp w) w (src1 w) primRcp tanRcp s)
def execFrsq (w : FmtA) (s : State) : Host.Outcome State Fault Refusal :=
  .next (fpLong (.frsq w) w (src1 w) primRsq tanRsq s)
def execFexp2 (w : FmtA) (s : State) : Host.Outcome State Fault Refusal :=
  .next (fpLong (.fexp2 w) w (src1 w) primExp2 tanExp2 s)
def execFlog2 (w : FmtA) (s : State) : Host.Outcome State Fault Refusal :=
  .next (fpLong (.flog2 w) w (src1 w) primLog2 tanLog2 s)
def execFsin (w : FmtA) (s : State) : Host.Outcome State Fault Refusal :=
  .next (fpLong (.fsin w) w (src1 w) primSin tanSin s)
def execFcos (w : FmtA) (s : State) : Host.Outcome State Fault Refusal :=
  .next (fpLong (.fcos w) w (src1 w) primCos tanCos s)
def execFtanh (w : FmtA) (s : State) : Host.Outcome State Fault Refusal :=
  .next (fpLong (.ftanh w) w (src1 w) primTanh tanTanh s)

/-! ### Compare and classify (R139, R140) -/

/-- The conditions of FSETP. -/
def fpCond (cond : Nat) (x y : FVal) : Bool :=
  let un := x.isNaN || y.isNaN
  let lt := fvalLess x y && !(x.isZero && y.isZero)
  let gt := fvalLess y x && !(x.isZero && y.isZero)
  let ord := fun k => match k with
    | 0 => !lt && !gt
    | 1 => lt || gt
    | 2 => lt
    | 3 => !gt
    | 4 => gt
    | _ => !lt
  if cond = 12 then !un
  else if cond = 13 then un
  else if un then decide (6 ≤ cond)
  else ord (cond % 6)

def execFsetp (w : FmtA) (s : State) : Host.Outcome State Fault Refusal :=
  let t := w.t.toNat
  let f := fmtOf t
  let m := w.m.toNat
  let ctl := w.s3.toNat
  .next (predWord (.fsetp w) s (src12 w) w.d.toNat (tyOcc t) fun c rank xs =>
    let x := flushIn f (bit m 0) (decodeFp f (mod1 f m (xs.getD 0 0)))
    let y := flushIn f (bit m 0) (decodeFp f (mod2 f m (xs.getD 1 0)))
    fpCond (ctl % 16) x y && ((c.s.thread c.tm.id rank).pred (ctl / 16 % 8) != bit ctl 7))

/-- The class number of a value (R140). -/
def fpClass (f : FpFmt) (z : Bool) (v : Nat) : Nat :=
  match flushIn f z (decodeFp f v) with
  | .nan b => if b / 2 ^ (f.mb - 1) % 2 = 1 then 1 else 0
  | .inf s => if s then 2 else 9
  | .fin s m e =>
    if m = 0 then (if s then 5 else 6)
    else if isSubnormal f (.fin s m e) then (if s then 4 else 7)
    else if s then 3 else 8

def execFclassPredicate (w : FmtA) (s : State) : Host.Outcome State Fault Refusal :=
  let t := w.t.toNat
  .next (predWord (.fclassPredicate w) s (src1 w) w.d.toNat (tyOcc t) fun _ _ xs =>
    w.s2.toNat.testBit (fpClass (fmtOf t) (bit w.m.toNat 0) (xs.getD 0 0)))
def execFclassRegister (w : FmtA) (s : State) : Host.Outcome State Fault Refusal :=
  let t := w.t.toNat
  .next (aluWord (.fclassRegister w) s (src1 w) w.d.toNat 1 (tyOcc t) fun _ _ xs =>
    { val := 2 ^ fpClass (fmtOf t) (bit w.m.toNat 0) (xs.getD 0 0) })

/-! ### Conversions (R141, R142) -/

/-- The value itself, rounded into the destination format. -/
def primId (f : FpFmt) (r : RMode) (vs : List FVal) : Rounded := roundExt f r (opndExt vs 0)
def tanId (f : FpFmt) (r : RMode) (_ ds : List FVal) : Rounded := roundExt f r (opndExt ds 0)

def execFcvt (w : FmtA) (s : State) : Host.Outcome State Fault Refusal :=
  let f := fmtOf w.s2.toNat
  let g := fmtOf w.t.toNat
  let srcs := [(w.s1.toNat, tyRegs w.s2.toNat)]
  .next (aluWord (.fcvt w) s srcs w.d.toNat (tyRegs w.t.toNat) (tanOcc w.t.toNat) fun c rank xs =>
    let e := fpElem f g w.m.toNat xs (c.g.map fun k => readTans c rank k srcs) primId tanId
    { val := e.1, tans := spreadTans c e.2.1, ev := e.2.2 })

/-- Round to an integer in the mode, then clamp; NaN gives 0 (R142). -/
def floatToInt (f : FpFmt) (t : Nat) (r : RMode) (v : FVal) : Rounded :=
  let w := tyWidth t
  let sg := tySigned t
  match v with
  | .nan _ => (0, evOverflow)
  | .inf s => (wrap w (if s then (if sg then -(2 ^ (w - 1) : Nat) else 0) else clampInt sg w (2 ^ w : Nat)), evOverflow)
  | .fin s m e =>
    let n := if m = 0 then 0 else
      if e + bitLen m < -2 then (roundsUp r.mode s 0 1 3 true).toNat else (roundAt r.mode s m e 0 false).1
    let _ := f
    let x : Int := if s then -(n : Int) else n
    let y := clampInt sg w x
    (wrap w y, if x = y then 0 else evOverflow)

def execF2i (w : FmtA) (s : State) : Host.Outcome State Fault Refusal :=
  let f := fmtOf w.s2.toNat
  let m := w.m.toNat
  .next (aluWord (.f2i w) s [(w.s1.toNat, tyRegs w.s2.toNat)] w.d.toNat (tyRegs w.t.toNat) (tyOcc w.t.toNat) fun _ _ xs =>
    let (v, ev) := floatToInt f w.t.toNat (rmodeOf m) (flushIn f (bit m 0) (decodeFp f (mod1 f m (xs.getD 0 0))))
    { val := v, ev })

def execI2f (w : FmtA) (s : State) : Host.Outcome State Fault Refusal :=
  let t := w.s2.toNat
  .next (aluWord (.i2f w) s [(w.s1.toNat, tyRegs t)] w.d.toNat (tyRegs w.t.toNat) (tyOcc w.t.toNat) fun _ _ xs =>
    let x := asInt (tySigned t) (tyWidth t) (xs.getD 0 0)
    let (v, ev) := roundExt (fmtOf w.t.toNat) (rmodeOf w.m.toNat) (.fin false { n := x, e := 0 })
    { val := v, ev })

/-- FPACK: S1 into element 0, S2 into element 1, each converted from FP32. -/
def execFpack (w : FmtA) (s : State) : Host.Outcome State Fault Refusal :=
  let g := fmtOf w.t.toNat
  let m := w.m.toNat
  let srcs := src12 w
  .next (aluWord (.fpack w) s srcs w.d.toNat 1 (tanOcc w.t.toNat) fun c rank xs =>
    -- element j converts operand j, whose modifiers stay those of its place
    let elem := fun (j : Nat) =>
      let prim := fun (f : FpFmt) (r : RMode) (vs : List FVal) => roundExt f r (opndExt vs j)
      let tan := fun (f : FpFmt) (r : RMode) (_ ds : List FVal) => roundExt f r (opndExt ds j)
      let only := fun (ys : List Nat) => if j = 0 then [ys.getD 0 0] else [0, ys.getD 1 0]
      fpElem fp32 g m (only xs) (c.g.map fun k => only (readTans c rank k srcs)) prim tan
    let a := elem 0
    let b := elem 1
    { val := a.1 + 2 ^ 16 * b.1,
      tans := spreadTans c ((List.range c.g.length).map fun i => a.2.1.getD i 0 + 2 ^ 16 * b.2.1.getD i 0),
      ev := Nat.lor a.2.2 b.2.2 })

/-- FUNPK: element sel of S1 widened to FP32. -/
def execFunpk (w : FmtA) (s : State) : Host.Outcome State Fault Refusal :=
  let t := w.t.toNat
  let j := w.s2.toNat
  let srcs := [(w.s1.toNat, 1)]
  .next (aluWord (.funpk w) s srcs w.d.toNat 1 (fun c => (1 + c.g.length) * occ32 c) fun c rank xs =>
    let e := fpElem (fmtOf t) fp32 w.m.toNat (xs.map fun x => elemAt t x j)
      (c.g.map fun k => (readTans c rank k srcs).map fun x => elemAt t x j) primId tanId
    { val := e.1, tans := spreadTans c e.2.1, ev := e.2.2 })

/-! ### Narrow formats (R149 to R151) -/

/-- The descriptor that a word's format field names. -/
def descOf (t : Team) (i : Nat) : Nat := (t.fregs.getD i 0).toNat

def execNcvtEnc (w : FmtA) (s : State) : Host.Outcome State Fault Refusal :=
  let ctl := w.s3.toNat
  let m := w.m.toNat
  let r := rmodeOf m
  .next (aluWord (.ncvtEnc w) s [(w.s1.toNat, 1), (w.s2.toNat, 1)] w.d.toNat 1 occ32 fun c rank xs =>
    let x := flushIn fp32 r.ftz (decodeFp fp32 (mod1 fp32 m (xs.getD 0 0)))
    let desc := descOf c.tm (ctl % 16)
    let sl := if bit ctl 8 then 8 else slotOf (descWidth desc)
    let k := xs.getD 1 0 % (32 / sl)
    let (code, ev) := if bit ctl 8 then encodeScale r x else encodeNarrow desc r x
    { val := setBits (c.val rank w.d.toNat 1) (k * sl + sl - 1) (k * sl) code, ev })

/-- NCVT.dec (R151). .ftz flushes a subnormal FP32 result and no narrow subnormal code (DESIGN CHOICE,
notes/assumptions/93.md). -/
def execNcvtDec (w : FmtA) (s : State) : Host.Outcome State Fault Refusal :=
  let ctl := w.s3.toNat
  let r := rmodeOf w.m.toNat
  .next (aluWord (.ncvtDec w) s [(w.s1.toNat, 1), (w.s2.toNat, 1)] w.d.toNat 1 occ32 fun c _ xs =>
    let desc := descOf c.tm (ctl % 16)
    let sl := if bit ctl 8 then 8 else slotOf (descWidth desc)
    let k := xs.getD 1 0 % (32 / sl)
    let code := xs.getD 0 0 / 2 ^ (k * sl) % 2 ^ sl
    match (if bit ctl 8 then decodeScale code else decodeNarrow desc code) with
    | .nan _ => { val := fp32.defaultNaN }
    | v => let (b, ev) := roundExt fp32 r v.ext
           { val := b, ev })

/-- FMTW (R149). Every gang reads the new value from the end of the word on, where R110 lets a clause of another gang that
starts less than 8 clocks later read either value (DESIGN CHOICE, notes/assumptions/89.md). -/
def execFmtw (w : FmtI) (s : State) : Host.Outcome State Fault Refusal :=
  .next (gangWord (.fmtw w) s (fun _ => 6) fun c =>
    .done (s.updTeam c.tm.id fun t => { t with fregs := t.fregs.set w.d.toNat (BitVec.ofNat 16 w.imm.toNat) }) 6)

/-- EVENT_WINDOW_CLEAR: COUNT of a team's event register of class `cls`, whose window has ended since the register was
loaded, written or cleared, is cleared in the register itself. Whoever reads or counts in between finds it cleared already
(`State.eventNow`, R153). -/
def execEventWindowClear (team cls : Nat) (s : State) : Host.Outcome State Fault Refusal :=
  let v := s.eventNow (s.team team) cls
  .next (if v = (s.team team).events.getD cls 0 then s
    else s.updTeam team fun t => { t with events := t.events.set cls v, winAt := t.winAt.set cls (s.windowClock t) })

end Sys2Proof.Machine
end

