-- ==== Sys2Proof/Machine/Glaze.lean ====
section
/-! DEFINITION. The glaze layer forms, opcodes 0x60 to 0x64 (06_glaze.md R175, R176), and GLZ, whose whole effect is on
the glazed set of the words it covers (`glazedSet`). The layer forms ignore that set. -/

namespace Sys2Proof.Machine

open Sys2Proof

/-- GLZ does nothing itself: the words it covers find it in their clause (R161). -/
def execGlz (w : FmtG) (s : State) : Host.Outcome State Fault Refusal :=
  .next (runWord (.glz w) s fun _ => .done s 0)

/-- The writes of a layer value to `n` registers from `i` on, in the layers given; zr takes nothing. -/
def layerWrites (i n v : Nat) (ks : List Nat) : List (Nat × Nat × Word) :=
  if i = 255 then []
  else ks.flatMap fun k => (List.range n).map fun j => (k, i + j, BitVec.ofNat 32 (v / 2 ^ (32 * j)))

/-- The layers that a four-bit mask names. -/
def layersOf (mask : Nat) : List Nat := [1, 2, 3, 4].filter fun k => mask.testBit (k - 1)

/-- A form that writes layers and leaves the primal (R176): a g register takes the lowest-ranked Active thread's value
(R159). `f` gives a layer's value from the sources. -/
def layerWord (i : Instr) (w : FmtA) (srcs : List (Nat × Nat)) (ks : List Nat) (f : List Nat → Nat → Nat) (s : State) :
    State :=
  let d := w.d.toNat
  runWord i s fun c =>
    withSources c srcs <| runThreads (fun s rank =>
      let (xs, s1) := readSrcs c rank s srcs
      if 192 ≤ d && d < 255 && rank ≠ c.lead then .ok s1
      else .ok (s1.setRegs c.tm.id rank (ks.flatMap fun k => layerWrites d (tyRegs w.t.toNat) (f xs k) [k])))
      (tyOcc w.t.toNat c) s c.act []

def execTget (w : FmtA) (s : State) : Host.Outcome State Fault Refusal :=
  let n := tyRegs w.t.toNat
  .next (aluWord (.tget w) s [] w.d.toNat n (tyOcc w.t.toNat) fun c rank _ =>
    { val := c.tan rank w.s3.toNat w.s1.toNat n })
def execTset (w : FmtA) (s : State) : Host.Outcome State Fault Refusal :=
  .next (layerWord (.tset w) w [(w.s1.toNat, tyRegs w.t.toNat)] [w.s3.toNat] (fun xs _ => xs.getD 0 0) s)
def execTzero (w : FmtA) (s : State) : Host.Outcome State Fault Refusal :=
  .next (layerWord (.tzero w) w [] (layersOf w.s3.toNat) (fun _ _ => 0) s)

/-- One in a floating-point type (R176). -/
def oneOf (t : Nat) : Nat :=
  match t with
  | 5 => 0x3F800000
  | 6 => 0x3FF0000000000000
  | 7 => 0x3C00
  | _ => 0x3F80

/-- The selector S1 is one 32-bit register at every type. -/
def execTseed (w : FmtA) (s : State) : Host.Outcome State Fault Refusal :=
  .next (layerWord (.tseed w) w [(w.s1.toNat, 1)] (layersOf w.s3.toNat)
    (fun xs k => if xs.getD 0 0 = k then oneOf w.t.toNat else 0) s)

/-- Adds k plane strides to an address; D's layers become zero. -/
def execGpln (w : FmtA) (s : State) : Host.Outcome State Fault Refusal :=
  let n := tyRegs w.t.toNat
  .next (aluWord (.gpln w) s [] w.d.toNat n (tyOcc w.t.toNat) fun c rank _ =>
    { val := (c.val rank w.s1.toNat n + w.s3.toNat * (c.tm.gplane.toNat % 2 ^ (32 * n))) % 2 ^ (32 * n) })

end Sys2Proof.Machine
end

