-- ==== Sys2Proof/Machine/PoolCore.lean ====
section
/-! DEFINITION. The pool and the register aperture where accesses perform (07_pool.md, 04_integer.md R107, R108, the line
states of 08_global.md R210): address checks, the order in which accesses perform (R190, R345), the full/empty bits and
waiter lists, barrier objects and ring headers. The instructions are in Pool.lean and Sync.lean. -/

namespace Sys2Proof.Machine

open Sys2Proof

/-! ### Addresses (R18, R107, R179) -/

/-- The key of a pool address: slot × 2^20 + offset. -/
def keyOf (ea : Nat) : Nat := bits ea 29 24 * 2 ^ 20 + ea % 2 ^ 20
/-- The pool address of a key. -/
def addrOfKey (key : Nat) : Nat := key / 2 ^ 20 * 2 ^ 24 + key % 2 ^ 20

/-- The checks of R18 on a pool address: aperture addresses are refused with 0x07. -/
def poolCheck (cl : Cluster) (ea : Nat) : Option Cause :=
  match ea / 2 ^ 30 with
  | 0 => if bits ea 23 20 = 0 && decide (bits ea 29 24 < 4 * cl.quads.length) && decide (ea % 2 ^ 20 < cl.share) then none
         else some .poolOutside
  | 3 => some .apertureBound
  | _ => some .poolOutside

/-- The checks of R107 and R108 on an aperture address, for `size` bytes. -/
def apertureCheck (t : Team) (sys : Bool) (ea size : Nat) : Option Cause :=
  let plane := bits ea 18 16
  let last := ea % 2 ^ 16 + size
  if bits ea 29 19 ≠ 0 then some .apertureBound
  else if plane = 5 then (if sys && decide (last ≤ 256) then none else some .apertureBound)
  else if plane ≤ t.depth && decide (last ≤ 4 * t.alloc) then none
  else some .apertureBound

/-- Alignment first, then the address (R179). `ap` says whether the form may address the aperture. -/
def accessCheck (c : Ctx) (ea size : Nat) (ap : Bool) : Option Cause :=
  if ea % size ≠ 0 then some .misaligned
  else if ap && ea / 2 ^ 30 == 3 then apertureCheck c.tm c.gang.sys ea size
  else poolCheck c.cluster ea

/-! ### The register aperture (R107, R364) -/

/-- One 32-bit register of a thread's own file: plane 5 is the trap window. -/
def State.apWord (s : State) (team rank plane i : Nat) : Word :=
  if plane = 5 then (s.thread team rank).window.getD i 0
  else (s.thread team rank).regs.getD (plane * (s.team team).alloc + i) 0

/-- Write one 32-bit register of a thread's own file. -/
def State.setApWord (s : State) (team rank plane i : Nat) (v : Word) : State :=
  if plane = 5 then s.updThread team rank fun t => { t with window := t.window.set i v }
  else s.updThread team rank fun t => { t with regs := t.regs.set (plane * (s.team team).alloc + i) v }

/-- One byte of a thread's own file, by key plane × 2^16 + byte. -/
def State.apByte (s : State) (team rank key : Nat) : Byte :=
  BitVec.ofNat 8 ((s.apWord team rank (key / 2 ^ 16) (key % 2 ^ 16 / 4)).toNat / 256 ^ (key % 4))

/-- Write bytes of a thread's own file. -/
def State.setApBytes (s : State) (team rank key : Nat) : List Byte → State
  | [] => s
  | b :: bs =>
    let plane := key / 2 ^ 16
    let i := key % 2 ^ 16 / 4
    let v := (s.apWord team rank plane i).toNat
    let lo := 8 * (key % 4)
    (s.setApWord team rank plane i (BitVec.ofNat 32 (setBits v (lo + 7) lo b.toNat))).setApBytes team rank (key + 1) bs

/-! ### Pool bytes, full/empty bits, counts (R177, R183) -/

def State.poolNat (s : State) (cluster key n : Nat) : Nat := readNat (s.cluster cluster).pool key n
def Cluster.full (c : Cluster) (key : Nat) : Bool := !c.empties.contains (key / 8)
/-- The sibling count of the word that holds a byte (R177). -/
def Cluster.countAt (c : Cluster) (key : Nat) : Nat := getKey c.counts (key / 8) 1
def State.setFull (s : State) (cluster key : Nat) (full : Bool) : State :=
  s.updCluster cluster fun c =>
    let rest := c.empties.filter (· != key / 8)
    { c with empties := if full then rest else key / 8 :: rest }

/-- Count an event of a quad's performance counters (R378). -/
def State.bump (s : State) (quad i : Nat) : State :=
  { s with counters := setKey s.counters (8 * quad + i) ((getKey s.counters (8 * quad + i) 0 + 1) % 2 ^ 64) 0 }

/-! ### Region lines where pool accesses perform (R209, R210) -/

def regV (r : Region) : Bool := bit r.image.toNat 15
def regVbase (r : Region) : Nat := bits r.image.toNat 248 192
def regPbase (r : Region) : Nat := bits r.image.toNat 191 160
def regLen (r : Region) : Nat := bits r.image.toNat 159 128
def regGps (r : Region) : Nat := bits r.image.toNat 127 64
def regIsc (r : Region) : Nat := bits r.image.toNat 14 12
def regPl (r : Region) : Nat := bits r.image.toNat 11 10
def regGl (r : Region) : Bool := bit r.image.toNat 9

/-- The pool key at which plane `k` of a region starts. -/
def planeStart (r : Region) (k : Nat) : Nat := keyOf ((regPbase r + k * r.stride) % 2 ^ 32)

/-- The first key of the line of a valid region that holds a pool byte, with the number of its plane. A plane's lines start
at the plane's first byte (R209, R211). -/
def Region.lineOf (r : Region) (key : Nat) : Option (Nat × Nat) :=
  if !regV r then none
  else (List.range (r.planes + 1)).findSome? fun k =>
    let a := planeStart r k
    if a ≤ key && key < a + regLen r then some (a + (key - a) / 128 * 128, k) else none

/-- The valid region that maps a region line, with its index, and the virtual address of the line. -/
def Cluster.mapping (c : Cluster) (line : Nat) : Option (Nat × Region × Nat) :=
  (List.range c.regions.length).findSome? fun i =>
    match (c.regions[i]?).join with
    | none => none
    | some r => match r.lineOf line with
      | some (a, k) => if a = line then some (i, r, (regVbase r + k * regGps r + (line - planeStart r k)) % 2 ^ 64) else none
      | none => none

/-- The region lines that a range of `n` pool bytes from `key` on meets, by their first keys in ascending order. -/
def Cluster.linesIn (c : Cluster) (key n : Nat) : List Nat :=
  (c.regions.filterMap fun r => r).flatMap fun r =>
    if !regV r then []
    else (List.range (r.planes + 1)).flatMap fun k =>
      let a := planeStart r k
      let lo := max key a
      let hi := min (key + n) (a + regLen r)
      if hi ≤ lo then []
      else (List.range ((hi - 1 - a) / 128 + 1 - (lo - a) / 128)).map fun i => a + ((lo - a) / 128 + i) * 128

def Cluster.line (c : Cluster) (line : Nat) : RegionLine := (c.lines.find? fun l => l.line == line).getD { line }

/-- Change a region line; an absent line is not listed. -/
def State.setLine (s : State) (cluster : Nat) (l : RegionLine) : State :=
  s.updCluster cluster fun c =>
    let rest := c.lines.filter fun x => x.line != l.line
    { c with lines := if l.st == .absent then rest else l :: rest }

/-- The quad whose share holds a region line. -/
def Cluster.quadOf (c : Cluster) (line : Nat) : Nat := c.quads.getD (line / 2 ^ 22) 0

/-- The fill slots of a quad in use: 1,024, of which 32 are kept for aged accesses (R206). -/
def State.fillsOf (s : State) (quad : Nat) : Nat :=
  (s.clusters.map fun c => (c.lines.filter fun l => l.st == .filling && c.quadOf l.line == quad).length).foldl (· + ·) 0

/-- A fill slot of the line's quad is free for one that may use `limit` of them (R206, R207). -/
def State.fillRoom (s : State) (cluster line limit : Nat) : Bool := decide (s.fillsOf ((s.cluster cluster).quadOf line) < limit)

/-- Start the fill of a line: its walk is to come (R210, R211). -/
def State.startFill (s : State) (cluster line : Nat) (sys : Bool) : State :=
  let l := (s.cluster cluster).line line
  (({ s with nextId := s.nextId + 1 } : State).setLine cluster
    { l with st := .filling, sys, fid := s.nextId, req := 0, walked := none, missing := false, data := none }).bump
    ((s.cluster cluster).quadOf line) 0

/-- Bits of a line's dirty mask for the bytes of a range. -/
def maskBits (line key n : Nat) : Nat :=
  let lo := max key line - line
  let hi := min (key + n) (line + 128) - line
  (2 ^ (hi - lo) - 1) * 2 ^ lo

/-- A partial line holds every byte of a range that lies in it. -/
def RegionLine.holds (l : RegionLine) (key n : Nat) : Bool :=
  Nat.land l.mask (maskBits l.line key n) == maskBits l.line key n

/-- A line needs a fill before it serves a range (R210). -/
def RegionLine.needsFill (l : RegionLine) (key n : Nat) (reads : Bool) : Bool :=
  l.st == .absent || (l.st == .partialLine && reads && !l.holds key n)

/-- Whether the lines of a pool range serve an access now; an absent line, or a partial one read in clean bytes, starts
its fill where a fill slot is free (R206, R210). -/
def State.lineServes (s : State) (cluster key n : Nat) (reads sys : Bool) (limit : Nat := 992) : Bool × State :=
  ((s.cluster cluster).linesIn key n).foldl (fun (p : Bool × State) line =>
    let l := (p.2.cluster cluster).line line
    if l.needsFill key n reads then (false, if p.2.fillRoom cluster line limit then p.2.startFill cluster line sys else p.2)
    else (p.1 && l.st != .filling, p.2)) (true, s)

/-- Some line of a pool range needs a fill, and no fill slot is free for it (R206). -/
def State.lacksSlot (s : State) (cluster key n : Nat) (reads : Bool) : Bool :=
  ((s.cluster cluster).linesIn key n).any fun line => ((s.cluster cluster).line line).needsFill key n reads

/-- The line whose fill an access to a pool range waits for. -/
def State.fillingIn (s : State) (cluster key n : Nat) : Nat :=
  (((s.cluster cluster).linesIn key n).find? fun line => ((s.cluster cluster).line line).st == .filling).getD key

/-- Write pool bytes; a mapped line becomes dirty, or stays partial (R210). -/
def State.poolWrite (s : State) (cluster key : Nat) (bs : List Byte) : State :=
  let s1 := s.updCluster cluster fun c => { c with pool := writeBytes c.pool key bs }
  ((s.cluster cluster).linesIn key bs.length).foldl (fun (s : State) line =>
    let l := (s.cluster cluster).line line
    s.setLine cluster { l with
      st := if l.st == .clean then .dirty else l.st,
      mask := Nat.lor l.mask (maskBits line key bs.length) }) s1

/-- The first touch of a prefetched line counts (R378). -/
def State.touch (s : State) (cluster key n : Nat) : State :=
  ((s.cluster cluster).linesIn key n).foldl (fun (s : State) line =>
    let c := s.cluster cluster
    let l := c.line line
    if l.prefetched && l.st != .absent then (s.setLine cluster { l with prefetched := false }).bump (c.quadOf line) 1 else s) s

/-- Prefetched lines that are dropped untouched count (R378). -/
def State.countUnused (s : State) (cluster : Nat) (gone : RegionLine → Bool) : State :=
  let c := s.cluster cluster
  (c.lines.filter fun l => gone l && l.prefetched).foldl (fun (s : State) l => s.bump (c.quadOf l.line) 3) s

/-- Discard the clean data of the lines that `hit` selects: C to A, D to P; a line in F serves those that waited before
the first such moment and is then absent (R214). -/
def State.dropClean (s : State) (cluster : Nat) (hit : RegionLine → Bool) : State :=
  ({ s.countUnused cluster (fun l => hit l && l.st == .clean) with nextId := s.nextId + 1 } : State).updCluster cluster fun c =>
    { c with lines := (c.lines.filter fun l => !(hit l && l.st == .clean)).map fun (l : RegionLine) =>
        if !hit l then l
        else if l.st == .dirty then { l with st := .partialLine }
        else if l.st == .filling then { l with drop := l.drop.orElse fun _ => some s.nextId }
        else l }

/-- RINV on the lines that a range of keys meets, at one moment (R230). -/
def State.invalidateRange (s : State) (cluster key n : Nat) (drop : Bool) : State :=
  let c := s.cluster cluster
  let hit := fun (l : RegionLine) => (c.mapping l.line).isSome && decide (key < l.line + 128) && decide (l.line < key + n)
  let s1 := s.dropClean cluster hit
  if !drop then s1
  else
    (s1.countUnused cluster fun l => hit l && l.st == .partialLine).updCluster cluster fun c =>
      { c with lines := (c.lines.filter fun l => !(hit l && l.st == .partialLine)).map fun (l : RegionLine) =>
          if hit l then { l with mask := 0 } else l }

/-! ### Layout records (R240 to R243, R255) -/

def layTag (v : Nat) : Nat := bits v 511 508
def layGL (v : Nat) : Bool := bit v 504
def layDst (v : Nat) : Nat := bits v 503 502
def layNdim (v : Nat) : Nat := bits v 501 499
/-- Element size in bytes. -/
def layEsz (v : Nat) : Nat := 2 ^ bits v 498 496
def layMask (v : Nat) : Nat := bits v 239 192
def layPbase (v : Nat) : Nat := bits v 127 96
def layGps (v : Nat) : Nat := bits v 95 64
def layGbase (v : Nat) : Nat := bits v 56 0
/-- Extent minus 1, pool stride and global stride of a dimension. -/
def layExt (v d : Nat) : Nat :=
  match d with
  | 0 => bits v 143 128 | 1 => bits v 159 144 | 2 => bits v 175 160 | 3 => bits v 191 176 | _ => bits v 255 240
def layPs (v d : Nat) : Nat :=
  match d with
  | 0 => 0 | 1 => bits v 403 384 | 2 => bits v 423 404 | 3 => bits v 443 424 | _ => bits v 467 448
def layGs (v d : Nat) : Int :=
  match d with
  | 0 => 0 | 1 => toSigned 32 (bits v 287 256) | 2 => toSigned 32 (bits v 319 288) | 3 => toSigned 32 (bits v 351 320)
  | _ => toSigned 32 (bits v 383 352)
/-- Planes that a record moves. -/
def layPlanes (v depth : Nat) : Nat := if layGL v then depth else 0
/-- Bytes of a dim-0 row. -/
def layRow (v : Nat) : Nat := (layExt v 0 + 1) * layEsz v
/-- Slots of the replicas; none where there is no multicast. -/
def laySlots (v : Nat) : List Nat := (List.range 48).filter fun k => (layMask v).testBit k

/-- The pool ranges of a record lie each within one share (R242). -/
def layRange (c : Cluster) (v depth stride : Nat) : Bool :=
  let span := layRow v + ([1, 2, 3, 4].map fun d => layExt v d * layPs v d).foldl (· + ·) 0
  let bases := if layMask v = 0 then [layPbase v] else (laySlots v).map fun k => setBits (layPbase v) 29 24 k
  bases.all fun b => (List.range (layPlanes v depth + 1)).all fun k =>
    let a := (b + k * stride) % 2 ^ 32
    (poolCheck c a).isNone && (poolCheck c (a + span - 1)).isNone && a / 2 ^ 24 == (a + span - 1) / 2 ^ 24

/-- The status of a record (R243). Fields that R240 says to be zero in some records, GPS without GL and PBASE[31:19] with DST 1,
count as reserved there (DESIGN CHOICE, notes/assumptions/118.md). -/
def layStatus (c : Cluster) (v depth stride : Nat) : Nat :=
  let high := (List.range 5).filter fun d => decide (layNdim v ≤ d)
  if layTag v ≠ 9 then 1
  else if 2 ≤ layDst v || layNdim v == 0 || decide (5 < layNdim v) || decide (5 < bits v 498 496) then 2
  else if bits v 507 505 ≠ 0 || bits v 495 468 ≠ 0 || bits v 447 444 ≠ 0 || bits v 63 57 ≠ 0 || (!layGL v && layGps v != 0) ||
      (layDst v == 1 && layPbase v / 2 ^ 19 != 0) || high.any (fun d => layExt v d != 0 || layPs v d != 0 || layGs v d != 0) then 3
  else if layGbase v % layEsz v ≠ 0 || [1, 2, 3, 4].any (fun d => layGs v d % (layEsz v : Int) != 0) ||
      (layDst v == 0 && (layPbase v % layEsz v != 0 || [1, 2, 3, 4].any fun d => layPs v d % layEsz v != 0)) then 4
  else if layMask v / 2 ^ (4 * c.quads.length) ≠ 0 || (layDst v == 0 && (layPbase v / 2 ^ 30 != 0 || !layRange c v depth stride)) then 5
  else if layGL v && (layGps v == 0 || layDst v == 1 || layMask v != 0) then 6
  else if layDst v = 1 && (layNdim v != 2 || layMask v != 0 || layRow v % 64 != 0) then 7
  else 0

/-- TLAY's move of a record (R255). -/
def layMove (v : Nat) (g p : Bool) (coords : Nat) : Nat :=
  let c := fun i => toSigned 16 (bits coords (16 * i + 15) (16 * i))
  let v1 := if !g then v
    else setBits v 56 0 (wrap 57 ((layGbase v : Int) + c 0 * layEsz v + c 1 * layGs v 1 + c 2 * layGs v 2 + c 3 * layGs v 3))
  if !p then v1
  else if layDst v = 0 then
    setBits v1 115 96 (wrap 20 ((layPbase v % 2 ^ 20 : Nat) + c 0 * layEsz v + c 1 * layPs v 1 + c 2 * layPs v 2 + c 3 * layPs v 3))
  else setBits v1 114 102 (wrap 13 ((bits v 114 102 : Nat) + c 1))

/-! ### The order of accesses (R190, R345) -/

/-- A read-modify-write. -/
def PoolOp.rmw : PoolOp → Bool
  | .atomic .. | .cas .. | .layout .. => true
  | _ => false
/-- An acquire keeps later accesses of its thread behind it; a read-modify-write of order 3 acquires too. -/
def Access.acquires (a : Access) : Bool := a.ord == 2 || (a.ord == 3 && a.op.rmw)
def HomeOp.rmw : HomeOp → Bool
  | .atomic _ _ _ d _ => d.isSome
  | .cas .. | .recon .. => true
  | _ => false
def HomeReq.acquires (r : HomeReq) : Bool := r.ord == 2 || (r.ord == 3 && r.op.rmw)

/-- Requests that the map units of a cluster work through, and not a home. -/
def HomeOp.local : HomeOp → Bool
  | .walk .. | .mapEntry .. | .acquire .. => true
  | _ => false

/-- A wait for engines whose end is an acquire. -/
def EngineAct.acquires : EngineAct → Bool
  | .twait .. | .fenceq .. | .cwait .. => true
  | .join .. | .joined .. | .fenced | .write _ => true
  | .cancel | .mwait .. | .tlbi .. | .answer .. | .replays => false

/-- A wait for engines that is a release's. -/
def EngineAct.releases : EngineAct → Bool
  | .fenceq _ => true
  | _ => false

/-- Two accesses touch a common byte. -/
def Access.overlaps (a b : Access) : Bool :=
  a.dst == b.dst && a.cluster == b.cluster && decide (a.key < b.key + b.size) && decide (b.key < a.key + a.size)

/-- The access `e` has its place before `a` in the order of their pair (R190). The order is that of issue, also for an
access that its own thread still holds back (DEDUCED, notes/assumptions/37.md). -/
def Access.ahead (e a : Access) : Bool :=
  e.cluster == a.cluster && e.src == a.src && e.dst == a.dst && a.dst.isSome && e.state == .sent && decide (e.seq < a.seq)

/-- The earlier access `e` of its thread keeps `a` back, by the rows of R345. They order one word's access after another
word's; the replicas of one MCST are ordered only in their pairs (R189), the planes of one access by `Access.after`. -/
def Access.before (e a : Access) : Bool :=
  e.team == a.team && e.rank == a.rank && decide (e.id < a.id) && (a.grp == 0 || e.grp != a.grp) &&
    (a.ord == 3 || e.acquires || (e.ord == 1 && a.ord == 1) || e.overlaps a || (e.dst.isNone && a.dst.isNone))

/-- The ranks whose queue word a request serves. -/
def HomeOp.ranks : HomeOp → List Nat
  | .spawn _ rs _ => rs
  | .pop _ rs _ => rs
  | _ => []
/-- A request is an access of a thread: its issuer's, or that of every thread of a queue word. A LAUNCH is its leader's
(R311). -/
def HomeReq.isOf (r : HomeReq) (team rank : Nat) : Bool :=
  r.team == team && team != 0 && (r.rank == rank || r.op.ranks.contains rank)

/-- An engine command has not completed. -/
def State.commandRuns (s : State) (cmd : Nat) : Bool := (s.commands.any fun c => c.id == cmd) || s.colls.any fun k => k.id == cmd

/-- The side-log entries that a release of a thread at scope `sc` covers (R356): the thread's own, from scope 3 on the
write-backs of its cluster, and the write lines of its engine commands that have completed. -/
def State.covered (s : State) (team rank cluster sc : Nat) (running : Nat → Bool) : List Nat :=
  (s.side.filter fun e =>
    (e.req.team == team && e.req.rank == rank && !e.req.back &&
      match e.req.cmd with
      | some c => !running c
      | none => true) ||
    (decide (3 ≤ sc) && e.req.back && e.req.cluster == cluster)).map (·.req.id)

/-- Team barriers that a thread waits in, its waits for engines that are acquires, and its RECV.acq that still waits,
before number `id` (R195, R253, R332, R342, R360). -/
def State.gates (s : State) (team rank id : Nat) : List Nat :=
  (((s.team team).tbar.flatten.filter fun p => p.1 == rank && decide (p.2.1 < id)).map (·.2.1)) ++
  ((s.engineWaits.filter fun w => w.team == team && w.ranks.contains rank && decide (w.ticket < id) && w.act.acquires).map (·.ticket)) ++
  (s.recvWaits.filter fun w => w.team == team && w.rank == rank && decide (w.ticket < id) && w.acq != 0).map (·.ticket)

/-- What a thread has under way that acquires: accesses, requests and waits after which its later accesses start (R352). -/
def State.acquiring (s : State) (team rank : Nat) : List Nat :=
  ((s.accesses.filter fun a => a.team == team && a.rank == rank && a.acquires).map (·.id)) ++
  ((s.reqs.filter fun r => r.isOf team rank && r.acquires && r.cmd.isNone && !r.back && !r.op.local).map (·.id)) ++
  s.gates team rank s.nextId

/-- What keeps an access from starting: accesses and requests of its thread, side-log entries that its release covers
(R356), team barriers that the thread waits in (R195), and the planes before it. -/
def State.holds (s : State) (a : Access) : List Nat :=
  ((s.accesses.filter fun e => e.id != a.id && (e.before a || a.after.contains e.id)).map (·.id)) ++
  ((s.reqs.filter fun r => r.isOf a.team a.rank && decide (r.id < a.id) && r.cmd.isNone && !r.back && !r.op.local &&
      (a.ord == 3 || r.acquires || (r.ord == 1 && a.ord == 1))).map (·.id)) ++
  (if a.ord == 3 then s.covered a.team a.rank a.cluster a.sc s.commandRuns else []) ++
  s.gates a.team a.rank a.id

/-! ### Waiter lists (R184, R185) -/

/-- The bank of a pool word: its share and bank number (R104). -/
def bankOf (key : Nat) : Nat × Nat := (key / 2 ^ 20, key / 8 % 8)

def Access.isWaiting (a : Access) : Bool :=
  match a.state with
  | .waiting _ => true
  | _ => false
def Access.waitSince (a : Access) : Nat :=
  match a.state with
  | .waiting n => n
  | _ => 0

/-- An access has been rejected and waits to be sent again. -/
def Access.isRejected (a : Access) : Bool :=
  match a.state with
  | .rejected _ => true
  | _ => false

/-! ### Atomics (R186) -/

/-- An integer atomic on `n` bits. -/
def atomicInt (ao n old x : Nat) : Nat :=
  match ao with
  | 0 => (old + x) % 2 ^ n
  | 1 => if toSigned n x < toSigned n old then x else old
  | 2 => if toSigned n old < toSigned n x then x else old
  | 3 => min old x
  | 4 => max old x
  | 5 => Nat.land old x
  | 6 => Nat.lor old x
  | 7 => Nat.xor old x
  | 8 => x
  | _ => old

/-- FMIN and FMAX of two raw values under R135. -/
def fpPick (isMax : Bool) (f : FpFmt) (a b : Nat) : Nat :=
  let x := decodeFp f a
  let y := decodeFp f b
  if x.isNaN && y.isNaN then quiet f a else if pickMinMax isMax x y = 0 then a else b

/-- The new value of an atomic of `size` bytes: FADD rounds to nearest-even and keeps subnormals. -/
def atomicOp (ao size old x : Nat) : Nat :=
  let f := if size = 4 then fp32 else fp64
  match ao with
  | 9 =>
    match firstNaN [decodeFp f old, decodeFp f x] with
    | some b => convertNaN f f b
    | none => (primAdd f (rmodeOf 0) [decodeFp f old, decodeFp f x]).1
  | 10 => fpPick false f old x
  | 11 => fpPick true f old x
  | _ => atomicInt ao (8 * size) old x

/-! ### Performing (R181, R183, R186, R187, R199) -/

/-- The register writes of a load: `n` bytes into registers from `d` on, with the layers that become zero and the count. -/
def loadWrites (t : Team) (d plane size v : Nat) (zero : List Nat) (count : Option (Nat × Nat)) : List (Nat × Nat × Word) :=
  let n := max 1 (size / 4)
  (if d = 255 then []
   else (List.range n).flatMap fun j =>
     (plane, d + j, BitVec.ofNat 32 (v / 2 ^ (32 * j))) :: zero.map fun k => (k, d + j, 0)) ++
  match count with
  | some (r, k) => if r ≥ 255 then [] else (0, r, BitVec.ofNat 32 k) :: ((List.range t.depth).map fun i => (i + 1, r, 0))
  | none => []

/-- All layers of a team. -/
def allLayers (t : Team) : List Nat := (List.range t.depth).map (· + 1)

/-- Ring header fields (R196). -/
def ringTag (h : Nat) : Nat := bits h 123 120
def ringLgn (h : Nat) : Nat := bits h 119 116
def ringLgsz (h : Nat) : Nat := bits h 115 112
def ringFree (h : Nat) : Nat := bits h 95 80
def ringFilled (h : Nat) : Nat := bits h 79 64
def ringClaim (h : Nat) : Nat := bits h 63 32
def ringResv (h : Nat) : Nat := bits h 31 0
/-- The pool key of slot `i` of a ring. -/
def slotKey (key h i : Nat) : Nat := key + 32 + i * 2 ^ ringLgsz h

/-- The service of RNGW on a header (R197): the new header and the slot. -/
def ringTake (h : Nat) (writer : Bool) : Option (Nat × Nat) :=
  let n := 2 ^ ringLgn h
  if ringTag h ≠ 5 then none
  else if writer then
    if ringFree h = 0 then none
    else some (setBits (setBits h 31 0 (ringResv h + 1)) 95 80 (ringFree h - 1), ringResv h % n)
  else
    if ringFilled h = 0 then none
    else some (setBits (setBits h 63 32 (ringClaim h + 1)) 79 64 (ringFilled h - 1), ringClaim h % n)

/-- Barrier object fields (R191). -/
def objTag (o : Nat) : Nat := bits o 7 4
def objPh (o : Nat) : Nat := bits o 1 1
def objLf (o : Nat) : Nat := bits o 0 0
def objPend (o : Nat) : Nat := bits o 63 48

/-- The access is over: its ticket's part is made good and its thread filed if it waits for that. -/
def State.retireAccess (s : State) (a : Access) : State :=
  { s with accesses := s.accesses.filter fun e => e.id != a.id }
/-- An access without a register result is acknowledged (R182). -/
def State.ackAccess (s : State) (a : Access) : State :=
  ((s.retireAccess a).settleTicket a.ticket a.rank).fileReady

/-- An operation that reads pool bytes. -/
def PoolOp.reads : PoolOp → Bool
  | .store _ | .storeEmpty _ | .setState _ | .inv _ | .prefetch | .place => false
  | .load .. | .loadFull .. | .atomic .. | .cas .. | .barrier .. | .ring .. | .layout .. => true
/-- An operation that waits for the region line it touches (R210): every one but RINV and RPREF. -/
def PoolOp.touches : PoolOp → Bool
  | .inv _ | .prefetch | .place => false
  | _ => true
/-- A wait on a barrier object. -/
def PoolOp.isBarrier : PoolOp → Bool
  | .barrier .. => true
  | _ => false

/-- How many fill slots of its quad an access may use: 32 are for aged accesses, and while an access that became aged
before it waits for one, none (R206, R207). -/
def State.fillLimit (s : State) (a : Access) : Nat :=
  let quad := fun (e : Access) => (s.cluster e.cluster).quadOf e.key
  if s.accesses.any fun e => e.id != a.id && e.isRejected && e.dst.isSome && quad e == quad a &&
      s.lacksSlot e.cluster e.key e.size e.op.reads &&
      match e.aged, a.aged with
      | some x, some y => decide (x < y)
      | some _, none => true
      | none, _ => false
  then 0 else if a.aged.isSome then 1024 else 992

/-- An access needs a fill slot and finds none. -/
def State.noSlot (s : State) (a : Access) : Bool :=
  a.dst.isSome && (a.op.touches || a.op == .prefetch) && s.lacksSlot a.cluster a.key a.size (a.op.reads || a.op == .prefetch)

/-- An access may take a waiter entry: 64 in a bank, the last 8 for aged accesses, which go first in the order in which
they became aged; an access that waits for a fill slot waits for no such entry. -/
def State.entryFor (s : State) (a : Access) : Bool :=
  let bank := s.accesses.filter fun e => e.cluster == a.cluster && e.dst.isSome && bankOf e.key == bankOf a.key && e.id != a.id
  let used := (bank.filter Access.isWaiting).length
  let agedAhead := bank.any fun e => (e.isRejected || e.state == .sent) && !s.noSlot e &&
    match e.aged, a.aged with
    | some x, some y => decide (x < y)
    | some _, none => true
    | none, _ => false
  !agedAhead && decide (used < if a.aged.isSome then 64 else 56)

/-- Try to serve an access at its share: its line must serve it and its condition hold. Answers whether it performed. A
BARW that waits is released by the completion of its phase or by BARI alone, whatever its object's bytes become (R193). -/
def State.serve (s : State) (a : Access) : Bool × State :=
  let t := s.team a.team
  let c := s.cluster a.cluster
  let res := fun (s : State) (ws : List (Nat × Nat × Word)) => (s.retireAccess a).addRegResults a.ticket a.team a.rank ws
  match a.dst with
  | none =>
    match a.op with
    | .load d plane zero count =>
      let v := fromBytes ((List.range a.size).map fun i => s.apByte a.team a.rank (a.key + i))
      (true, res s (loadWrites t d plane a.size v zero (count.map fun r => (r, 1))))
    | .store bs => (true, (s.setApBytes a.team a.rank a.key bs).ackAccess a)
    | _ => (true, s.ackAccess a)
  | some _ =>
    let cnt := c.countAt a.key
    let (ok, s1) := if a.op.isBarrier && a.isWaiting then (false, s) else if a.op.touches then s.lineServes a.cluster a.key a.size a.op.reads a.sys (s.fillLimit a) else (true, s)
    if !ok then (false, s1)
    else
      let s2 := if a.op.touches then s1.touch a.cluster a.key a.size else s1
      let v := s2.poolNat a.cluster a.key a.size
      match a.op with
      | .load d plane zero count => (true, res s2 (loadWrites t d plane a.size v zero (count.map fun r => (r, cnt))))
      | .store bs => (true, (s2.poolWrite a.cluster a.key bs).ackAccess a)
      | .loadFull d take count =>
        if c.full a.key then
          (true, res (if take then s2.setFull a.cluster a.key false else s2)
            (loadWrites t d 0 a.size v (allLayers t) (count.map fun r => (r, cnt))))
        else (false, s1)
      | .storeEmpty bs =>
        if c.full a.key then (false, s1)
        else (true, ((s2.poolWrite a.cluster a.key bs).setFull a.cluster a.key true).ackAccess a)
      | .setState full => (true, (s2.setFull a.cluster a.key full).ackAccess a)
      | .atomic ao d x count =>
        let s3 := if ao = 12 then s2 else s2.poolWrite a.cluster a.key (toBytes a.size (atomicOp ao a.size v x))
        (true, res s3 (loadWrites t d 0 a.size v (allLayers t) (count.map fun r => (r, cnt))))
      | .cas d cmp new =>
        let s3 := if v = cmp then s2.poolWrite a.cluster a.key (toBytes a.size new) else s2
        (true, res s3 (loadWrites t d 0 a.size v (allLayers t) none))
      | .barrier token p =>
        if objTag v = 0xA && token ≠ objPh v then (true, (s2.retireAccess a).addResult a.ticket a.team a.rank (.pred p (objLf v == 0)))
        else (false, s1)
      | .prefetch =>
        let l := c.line a.key
        if (c.mapping a.key).isSome && (l.st == .absent || l.st == .partialLine) then
          if s.fillRoom a.cluster a.key (s.fillLimit a) then
            let s3 := (s2.startFill a.cluster a.key a.sys).retireAccess a
            let l3 := (s3.cluster a.cluster).line a.key
            (true, s3.setLine a.cluster { l3 with prefetched := true, prefs := l3.prefs ++ [(a.ticket, a.rank)] })
          else (false, s1)
        else (true, s2.ackAccess a)
      | .place => (false, s1)
      | .inv drop => (true, (s2.invalidateRange a.cluster a.key a.size drop).ackAccess a)
      | .layout g p coords depth stride d =>
        let v' := layMove v g p coords
        (true, res (s2.poolWrite a.cluster a.key (toBytes 64 v'))
          (loadWrites t d 0 4 (layStatus c v' depth stride) (allLayers t) none))
      | .ring writer d =>
        match ringTake v writer with
        | none => (false, s1)
        | some (h, slot) =>
          let s3 := s2.poolWrite a.cluster a.key (toBytes 16 h)
          (true, res s3 (loadWrites t d 0 4 (addrOfKey (slotKey a.key v slot)) (allLayers t) none))

/-- Serve the first of the listed waiters that can be served. -/
def serveFirst : List Access → State → Bool × State
  | [], s => (false, s)
  | a :: as, s =>
    match s.serve a with
    | (true, s') => (true, s')
    | (false, s') => serveFirst as s'

/-- Waiters in arrival order. -/
def insertWaiter (a : Access) : List Access → List Access
  | [] => [a]
  | b :: bs => if a.waitSince ≤ b.waitSince then a :: b :: bs else b :: insertWaiter a bs
def State.waiters (s : State) (cluster : Nat) : List Access :=
  (s.accesses.filter fun a => a.cluster == cluster && a.isWaiting).foldr insertWaiter []

/-- Scan a cluster's waiters after a change of state: each is served, in arrival order, as soon as its condition holds
(R184, R199). -/
def State.rescanN (cluster : Nat) : Nat → State → State
  | 0, s => s
  | n + 1, s =>
    match serveFirst (s.waiters cluster) s with
    | (true, s') => State.rescanN cluster n s'
    | (false, s') => s'
def State.rescan (s : State) (cluster : Nat) : State := State.rescanN cluster (s.accesses.length + 1) s

/-- Serve once, in arrival order, the waiters on a line that have waited since before a moment (R214). -/
def State.serveLine (s : State) (cluster line before : Nat) : State :=
  ((s.waiters cluster).filter fun a => decide (a.waitSince < before) && decide (a.key < line + 128) && decide (line < a.key + a.size)).foldl
    (fun (s : State) a => (s.serve a).2) s

/-! ### Barrier objects (R191, R193) -/

/-- The completion test: the object after it and, where the phase completed, whether it completed without a fault. -/
def objTest (o : Nat) : Nat × Option Bool :=
  let flt := bits o 3 3
  if bit o 2 && objPend o == 0 && (bits o 127 80 == 0 || flt == 1) then
    let o1 := setBits (setBits (setBits o 0 0 flt) 3 3 0) 127 80 0
    let o2 := setBits (setBits o1 63 48 (bits o 79 64)) 2 2 (bits o 8 8)
    (setBits o2 1 1 (1 - objPh o), some (flt == 0))
  else (o, none)

/-- Release the BARW waiters of an object that wait on `token`, or all of them, with the predicate `v`. -/
def State.releaseBarrier (s : State) (cluster key : Nat) (token : Option Nat) (v : Bool) : State :=
  let hit := s.accesses.filter fun a => a.cluster == cluster && a.key == key && a.dst.isSome && a.isWaiting &&
    match a.op with
    | .barrier k _ => token.isNone || token == some k
    | _ => false
  hit.foldl (fun s a =>
    match a.op with
    | .barrier _ p => (s.retireAccess a).addResult a.ticket a.team a.rank (.pred p v)
    | _ => s) s

/-- Store a barrier object, apply the completion test, and release the waiters of a completed phase. -/
def State.putObject (s : State) (cluster key o : Nat) : State :=
  let (o', done) := objTest o
  let s1 := s.poolWrite cluster key (toBytes 16 o')
  let s2 := match done with
    | some ok => s1.releaseBarrier cluster key (some (objPh o)) ok
    | none => s1
  s2.rescan cluster

/-- Delivery of `n` bytes by an engine (R193, R194). -/
def State.deliverBytes (s : State) (cluster key n : Nat) : State :=
  let o := s.poolNat cluster key 16
  s.putObject cluster key (setBits o 127 80 (bits o 127 80 + 2 ^ 48 - n % 2 ^ 48))
/-- The fault of a delivering copy (R193). -/
def State.deliverFault (s : State) (cluster key : Nat) : State :=
  s.putObject cluster key (setBits (s.poolNat cluster key 16) 3 3 1)

/-! ### Sending and arriving (R178, R184, R185) -/

/-- Send one access: it is numbered, and the number is its place in its pair. -/
def State.sendAccess (s : State) (a : Access) : Nat × State :=
  (s.nextId, { s with nextId := s.nextId + 1, accesses := s.accesses ++ [{ a with id := s.nextId, seq := s.nextId }] })

/-- The die on which an access retries: that of its issuing team (R4, R185). -/
def State.accessDie (s : State) (a : Access) : Nat := (s.team a.team).quad / 32

/-- An access that cannot be served joins its word's waiters, or is rejected: for want of a fill slot for 64 clocks, for
want of a waiter entry for 32 (R184, R185, R206, R207). -/
def State.waitOrReject (s : State) (a : Access) : State :=
  let upd := fun (f : Access → Access) => s.accesses.map fun (e : Access) => if e.id == a.id then f e else e
  if !s.noSlot a && s.entryFor a then
    { s with nextId := s.nextId + 1, accesses := upd fun e => { e with state := .waiting s.nextId } }
  else
    let s1 : State := { s with
      nextId := s.nextId + 1,
      accesses := upd fun e =>
        { e with state := .rejected (s.dieClock (s.accessDie a) + if s.noSlot a then 64 else 32), rejects := e.rejects + 1,
                 aged := if e.aged.isNone && decide (8 ≤ e.rejects + 1) then some s.nextId else e.aged } }
    s1.bump (s.team a.team).quad 6

end Sys2Proof.Machine
end

