-- ==== Sys2Proof/Machine/Translate.lean ====
section
/-! DEFINITION. Translation of global virtual addresses (14_system.md R368 to R370, 15_host.md R392): the walk of the
three-level page table, the checks in their order, and the translations that map units, walkers and engines hold. -/

namespace Sys2Proof.Machine

open Sys2Proof

/-- The physical address is HBM of a die the product has, peer memory, or host memory (R392). -/
def State.inMap (s : State) (pa : Nat) : Bool :=
  (decide (pa < 2 ^ 39) && s.hasDie (pa / 2 ^ 38)) ||
  (decide (0x4000000000000 ≤ pa) && decide (pa < 0x8000000000000)) ||
  (decide (0x8000000000000 ≤ pa) && decide (pa < 0x10000000000000))

/-- Fields of a leaf entry (R368). -/
def leafK (e : DWord) : Bool := bit e.toNat 7
def leafCA (e : DWord) : Nat := bits e.toNat 9 8
def leafHD (e : DWord) : Nat := bits e.toNat 10 10

/-- A leaf entry that has V set is malformed at its level (R369). -/
def State.leafBad (s : State) (e : Nat) (large : Bool) : Bool :=
  let pa := bits e 51 16 * 2 ^ 16
  bits e 63 52 != 0 || bits e 15 11 != 0 || (large && bits e 28 16 != 0) || bits e 9 8 == 3 ||
  (decide (pa < 2 ^ 39) && bits e 10 10 != pa / 2 ^ 38) || !s.inMap pa || (bit e 7 && decide (2 ^ 39 ≤ pa))

/-- A table pointer that has V set and L clear is malformed (R368, R369). -/
def pointerBad (e : Nat) : Bool := bits e 63 52 != 0 || bits e 15 2 != 0

/-- The walk of an address space's table: the leaf entry and whether it is large, or the level of the failure and
whether the entry was malformed. -/
def State.walk (s : State) (asid va : Nat) : Except (Nat × Bool) (DWord × Bool) :=
  match s.roots.find? fun r => r.1 == asid with
  | none => .error (0, false)
  | some (_, root) =>
    let e0 := readNat s.mem (root + 8 * bits va 56 42) 8
    if !bit e0 0 then .error (0, false)
    else if bit e0 1 || pointerBad e0 then .error (0, true)
    else
      let e1 := readNat s.mem (bits e0 51 16 * 2 ^ 16 + 8 * bits va 41 29) 8
      if !bit e1 0 then .error (1, false)
      else if bit e1 1 then
        if s.leafBad e1 true then .error (1, true) else .ok (BitVec.ofNat 64 e1, true)
      else if pointerBad e1 then .error (1, true)
      else
        let e2 := readNat s.mem (bits e1 51 16 * 2 ^ 16 + 8 * bits va 28 16) 8
        if !bit e2 0 then .error (2, false)
        else if !bit e2 1 || s.leafBad e2 false then .error (2, true)
        else .ok (BitVec.ofNat 64 e2, false)

/-- What an access needs of a page (R225, R369). -/
structure Need where
  r : Bool := false
  w : Bool := false
  x : Bool := false
  a : Bool := false
  k : Bool := false

/-- The kind of a fault notice (R370): 0 a read, 1 a write, 2 a clause fetch, 3 an atomic. -/
def Need.kind (n : Need) : Nat := if n.a then 3 else if n.x then 2 else if n.w then 1 else 0

/-- A translation's outcome: the physical address and the leaf entry, or the cause with its TINFO (R365). -/
inductive Trans where
  | ok (pa : Nat) (e : DWord)
  | fail (cause : Cause) (info : Nat)

/-- The checks on a leaf entry, in the order of R369. -/
def checkLeaf (e : DWord) (large sys : Bool) (need : Need) (va : Nat) : Trans :=
  let v := e.toNat
  let info := if large then 1 else 2
  if bit v 6 && !sys then .fail .privilegedPage info
  else if need.r && !bit v 2 then .fail .readNotAllowed info
  else if need.w && !bit v 3 then .fail .writeNotAllowed info
  else if need.x && !bit v 4 then .fail .executeNotAllowed info
  else if need.a && !bit v 5 then .fail .atomicNotAllowed info
  else if need.k && !bit v 7 then .fail .keptConflict info
  else .ok (bits v 51 16 * 2 ^ 16 + (if large then va % 2 ^ 29 else va % 2 ^ 16)) e

/-- Translate an address for an access (R17, R369), by a held translation where there is one, else by a walk whose
translation is then held. -/
def State.translate (s : State) (asid va : Nat) (sys : Bool) (need : Need) : Trans × State :=
  if 2 ^ 57 ≤ va then (.fail .notPresent 0, s)
  else
    match s.tlb.find? fun t => t.asid == asid && t.page == va / 2 ^ 16 with
    | some t => (checkLeaf t.entry t.large sys need va, s)
    | none =>
      match s.walk asid va with
      | .error (level, bad) => (.fail .notPresent (level + (if bad then 256 else 0)), s)
      | .ok (e, large) =>
        (checkLeaf e large sys need va, { s with tlb := s.tlb ++ [{ asid, page := va / 2 ^ 16, entry := e, large }] })

/-- The failure that holds a weak access and goes to Shegus (R370): not-present, of an address that passes R17. -/
def Trans.holds (t : Trans) (va : Nat) : Bool :=
  match t with
  | .fail .notPresent _ => decide (va < 2 ^ 57)
  | _ => false

/-- A not-present page holds an access of a kind; Shegus is told once (R370). -/
def State.notePage (s : State) (asid va kind : Nat) : State :=
  let p := (asid, va / 2 ^ 16, kind)
  { s with pageFaults := if s.pageFaults.contains p then s.pageFaults else s.pageFaults ++ [p] }

/-- Translate every 64 KiB page that a run of bytes touches, the first failure first. Answers the physical address of
each page's first byte in the run. -/
def State.translateRun (s : State) (asid : Nat) (sys : Bool) (need : Need) : Nat → Nat → Nat → Except (Cause × Nat × Nat) (List (Nat × Nat)) × State
  | 0, _, _ => (.ok [], s)
  | fuel + 1, va, n =>
    if n = 0 then (.ok [], s)
    else
      let here := min n (2 ^ 16 - va % 2 ^ 16)
      match s.translate asid va sys need with
      | (.fail c i, s1) => (.error (c, i, va), s1)
      | (.ok pa _, s1) =>
        match s1.translateRun asid sys need fuel (va + here) (n - here) with
        | (.ok ps, s2) => (.ok ((pa, here) :: ps), s2)
        | (.error e, s2) => (.error e, s2)

end Sys2Proof.Machine
end

