-- ==== Sys2Proof/Machine/Home.lean ====
section
/-! DEFINITION. The home slices (08_global.md R201 to R207, R216 to R223, R232 to R237): where a line is homed, version
sets and sights, the operations performed at a home, side logs, and the order in which requests are served. -/

namespace Sys2Proof.Machine

open Sys2Proof

/-! ### Homes (R201) -/

/-- The home die of a physical address: bit 38 of an HBM address, else the leaf entry's bit. -/
def homeDie (pa : Nat) (leaf : DWord) : Nat := if pa < 2 ^ 39 then pa / 2 ^ 38 else leafHD leaf
/-- The device number of the home slice. -/
def homeSlice (pa : Nat) (leaf : DWord) : Nat :=
  let l := bits pa 37 7
  64 * homeDie pa leaf + Nat.xor (Nat.xor (bits l 5 0) (bits l 11 6)) (Nat.xor (bits l 17 12) (bits l 23 18))

/-- The memory controller of an HBM line on its die (R201), whose directory records the line's holders (R203). -/
def memController (pa : Nat) : Nat :=
  let l := bits pa 37 7
  Nat.xor (bits l 2 0) (bits l 8 6)

def isHost (pa : Nat) : Bool := decide (0x8000000000000 ≤ pa)
def isPeer (pa : Nat) : Bool := decide (0x4000000000000 ≤ pa) && decide (pa < 0x8000000000000)

/-! ### Data at the home (R397; DESIGN CHOICE, notes/assumptions/15.md) -/

/-- Free bytes. -/
def State.freeBytes (s : State) : Nat → List Byte × State
  | 0 => ([], s)
  | n + 1 =>
    let (v, s1) := s.free
    let (bs, s2) := s1.freeBytes n
    (BitVec.ofNat 8 v :: bs, s2)

/-- The owner of a page: the address space for which Shegus handed it out (R221). -/
def State.owner? (s : State) (pa : Nat) : Option Nat :=
  (s.owners.find? fun p => decide (p.1 ≤ pa / 2 ^ 16) && decide (pa / 2 ^ 16 < p.1 + p.2.1)).map (·.2.2)

/-- The address space under whose key a line stands: the last writer's, else its page's owner (R397). -/
def State.lineKey? (s : State) (pa : Nat) : Option Nat :=
  match s.lineKeys.find? fun k => k.1 == pa / 128 with
  | some k => some k.2
  | none => s.owner? pa

/-- A line stands under another key than that of `asid` (R397). -/
def State.foreign (s : State) (asid pa : Nat) : Bool := (s.lineKey? pa).any fun k => k != asid

/-- Read bytes at a home for an address space: free values under another key, and from a peer's memory. -/
def State.homeRead (s : State) (asid pa n : Nat) : List Byte × State :=
  if isPeer pa then s.freeBytes n
  else
    let bs := readBytes s.mem pa n
    if (List.range (n / 128 + 2)).any fun i => decide ((pa / 128 + i) * 128 < pa + n) && s.foreign asid ((pa / 128 + i) * 128) then
      let (fs, s1) := s.freeBytes n
      ((List.range n).map fun i => if s.foreign asid (pa + i) then fs.getD i 0 else bs.getD i 0, s1)
    else (bs, s)

/-- The first write of an address space to a line under another key puts the whole line, the unit of encryption, under its
own: the line's other bytes, leads of kept cells among them, become free values (R397). -/
def State.claimLine (s : State) (asid pa : Nat) : State :=
  if !s.foreign asid pa then s
  else
    let (bs, s1) := s.freeBytes 128
    let line := pa / 128
    let rest := s1.lineKeys.filter fun k => k.1 != line
    { s1 with
      mem := writeBytes s1.mem (128 * line) bs,
      kept := s1.kept.map fun (k : KeptCell) =>
        if k.cell / 16 = line then
          { k with versions := k.versions.take 1 |>.map (fun v => (BitVec.ofNat 64 (fromBytes ((bs.drop (8 * (k.cell % 16))).take 8)), v.2)) |>
              (· ++ k.versions.drop 1) }
        else k,
      lineKeys := if s.owner? pa = some asid then rest else (line, asid) :: rest }

/-- Write one byte at a home for an address space. -/
def State.homeByte (s : State) (asid pa : Nat) (b : Byte) : State :=
  if isPeer pa then { s with outputs := s.outputs ++ [.peerWrite pa [b]] }
  else
    let s1 := s.claimLine asid pa
    { s1 with mem := writeByte s1.mem pa b }

/-- Write bytes at a home. -/
def State.homeWrite (s : State) (asid pa : Nat) : List Byte → State
  | [] => s
  | b :: bs => (s.homeByte asid pa b).homeWrite asid (pa + 1) bs

/-! ### Version sets (R216 to R221) -/

def State.keptCell? (s : State) (pa : Nat) : Option KeptCell := s.kept.find? fun k => k.cell == pa / 8

/-- The versions of the cell at a physical address, in the order of R217: the lead first. -/
def State.versions (s : State) (pa : Nat) : List (DWord × Nat × Nat) :=
  match s.keptCell? pa with
  | some k => k.versions
  | none => [(BitVec.ofNat 64 (readNat s.mem (pa / 8 * 8) 8), 0, 0xFFFF)]

/-- Put a version into the order of R217: descending arrival, ties by ascending group. -/
def insertVersion (v : DWord × Nat × Nat) : List (DWord × Nat × Nat) → List (DWord × Nat × Nat)
  | [] => [v]
  | u :: us => if u.2.1 < v.2.1 || (u.2.1 == v.2.1 && decide (v.2.2 ≤ u.2.2)) then v :: u :: us else u :: insertVersion v us

/-- Set a cell's versions; the lead's value is the line's data (R221). A cell with its page's first version alone is not
listed. -/
def State.setVersions (s : State) (pa : Nat) (vs : List (DWord × Nat × Nat)) (spilled : Nat) : State :=
  let cell := pa / 8
  let lead := (vs.headD (0, 0, 0)).1.toNat
  let rest := s.kept.filter fun k => k.cell != cell
  let listed := match vs with
    | [(_, 0, 0xFFFF)] => rest
    | _ => { cell, versions := vs, spilled } :: rest
  { s with kept := listed, mem := writeNat s.mem (cell * 8) 8 lead }

/-- The arrival count of a slice (R216). -/
def State.arrival (s : State) (slice : Nat) : Nat := getKey s.arrivals slice 0
/-- A slice can assign no `n` further arrivals. -/
def State.exhausted (s : State) (slice : Nat) (n : Nat := 1) : Bool := decide (2 ^ 56 ≤ s.arrival slice + n)

/-- The next arrival of a slice; Shegus reports when it reaches 2^55 (R216, R402). -/
def State.nextArrival (s : State) (slice : Nat) : Nat × State :=
  let a := s.arrival slice + 1
  let s1 : State := { s with arrivals := setKey s.arrivals slice a 0 }
  (a, if a = 2 ^ 55 then s1.hostInterrupt 2 slice 0 else s1)

/-- ARR of a line's HBM stamp (R222). -/
def State.stampArr (s : State) (line : Nat) : Nat := getKey s.hbmStamps line 0 % 2 ^ 56

/-- The HBM stamp of a line with the given largest arrival: H is set where some cell of the line has versions behind its
lead (R222). -/
def State.putStamp (s : State) (line arr : Nat) : State :=
  let h := s.kept.any fun k => k.cell / 16 == line && decide (1 < k.versions.length)
  { s with hbmStamps := setKey s.hbmStamps line ((if h then 2 ^ 56 else 0) + arr) 0 }

/-- The line of an address in its home slice's L2. -/
def State.l2Line? (s : State) (pa : Nat) : Option L2Line := s.l2.find? fun x => x.line == pa / 128

/-- What the home holds of a cell's lead in a line of its L2: the arrival and group of a lead taken there, else the HBM
stamp that the line was refilled with and no group (R222). -/
def State.knownLead (s : State) (x : L2Line) (j : Nat) : Nat × Nat :=
  if x.known.contains j then ((s.versions (128 * x.line + 8 * j)).headD (0, 0, 0)).2 else (x.arr, 0xFFFF)

/-- The stamp of sector `i` of a line in L2: the largest arrival of its leads, and their group, or 0xFFFF if they differ
(R222). -/
def State.sectorStamp (s : State) (x : L2Line) (i : Nat) : Nat × Nat :=
  let ls := (List.range 4).map fun j => s.knownLead x (4 * i + j)
  let g := (ls.headD (0, 0xFFFF)).2
  (ls.foldl (fun m l => max m l.1) 0, if ls.all fun l => l.2 == g then g else 0xFFFF)

/-- What the home uses of a lead's arrival and group (R222): exactly what it holds of a line in its L2 (DESIGN CHOICE,
notes/assumptions/42.md), else the sector's stamp; of a line outside, the HBM stamp. -/
def State.leadStamp (s : State) (pa : Nat) : Nat × Nat :=
  match s.l2Line? pa with
  | none => (s.stampArr (pa / 128), 0xFFFF)
  | some x =>
    let j := pa % 128 / 8
    if s.leadMode = 0 && x.known.contains j then s.knownLead x j else s.sectorStamp x (j / 4)

/-- What an evicted host line sends: a DirtyEvict for each M half and a CleanEvict for each E half (R393). -/
def State.evictions (s : State) (line : Nat) : List Output :=
  (s.halves.filter fun x => x.1 / 2 == line).filterMap fun x =>
    match x.2 with
    | .modified => some (.dirtyEvict x.1 (readBytes s.mem (64 * x.1) 64))
    | .exclusive => some (.cleanEvict x.1)
    | .shared => none

/-- A line leaves L2: a host line is evicted with its halves (R393), an HBM line's sector stamps collapse into its HBM stamp
(R222). -/
def State.leaveL2 (s : State) (line : Nat) : State :=
  match s.l2.find? fun x => x.line == line with
  | none => s
  | some x =>
    if isHost (128 * line) then
      { s with l2 := s.l2.filter fun y => y.line != line,
               halves := s.halves.filter fun h => h.1 / 2 != line,
               outputs := s.outputs ++ s.evictions line }
    else
    { s with l2 := s.l2.filter fun y => y.line != line }.putStamp line
      ((List.range 4).foldl (fun m i => max m (s.sectorStamp x i).1) 0)

/-- A line is used in its home slice's L2, which holds 16,384 lines; the least recently used one that is not busy makes room
(DESIGN CHOICE, notes/assumptions/42.md). -/
def State.enterL2 (s : State) (slice line : Nat) : State :=
  match s.l2.find? fun x => x.line == line with
  | some x => { s with l2 := (s.l2.filter fun y => y.line != line) ++ [x] }
  | none =>
    let mine := s.l2.filter fun x => x.slice == slice
    let s1 := if mine.length < 16384 then s else
      match mine.find? fun x => s.busy.all fun b => b.line != x.line with
      | some x => s.leaveL2 x.line
      | none => s
    { s1 with l2 := s1.l2 ++ [{ slice, line, arr := s1.stampArr line }] }

/-- The home takes a lead: it knows its arrival and group while the line is in L2; of a line outside, the HBM stamp
follows (R222). -/
def State.noteLead (s : State) (pa : Nat) : State :=
  let lead := (s.versions pa).headD (0, 0, 0)
  if s.l2.any fun x => x.line == pa / 128 then
    { s with l2 := s.l2.map fun (x : L2Line) =>
        if x.line == pa / 128 && !x.known.contains (pa % 128 / 8) then { x with known := pa % 128 / 8 :: x.known } else x }
  else s.putStamp (pa / 128) (max (s.stampArr (pa / 128)) lead.2.1)

/-- The versions of a cell that a write of group `g` with sight `sight` does not see (R220). -/
def State.unseen (s : State) (pa sight g : Nat) : List (DWord × Nat × Nat) :=
  match s.versions pa with
  | [] => []
  | lead :: rest =>
    let st := s.leadStamp pa
    let seen := fun (arr grp : Nat) => decide (arr ≤ sight) || grp == g
    (if seen st.1 st.2 then [] else [lead]) ++ rest.filter fun v => !seen v.2.1 v.2.2

/-- The address space whose spill area a cell uses: its page's owner (R221). -/
def State.ownerOf (s : State) (pa : Nat) : Nat := (s.owner? pa).getD 0

/-- Versions of a cell behind its lead. -/
def KeptCell.behind (k : KeptCell) : Nat := k.versions.length - 1
/-- Versions behind the leads in the Hayloft of a slice (R221). -/
def State.hayloft (s : State) (slice : Nat) : Nat :=
  ((s.kept.filter fun k => homeSlice (8 * k.cell) 0 == slice).map fun k => k.behind - k.spilled).foldl (· + ·) 0
/-- Versions in the spill area of an address space. -/
def State.spillUse (s : State) (asid : Nat) : Nat :=
  ((s.kept.filter fun k => s.ownerOf (8 * k.cell) == asid).map (·.spilled)).foldl (· + ·) 0

/-- A slice moves its least recently used version to the spill area of its cell's address space; none where no version
has room there (R221). -/
def State.spillOne (s : State) (slice : Nat) : Option State :=
  (s.kept.reverse.find? fun k => homeSlice (8 * k.cell) 0 == slice && decide (k.spilled < k.behind) &&
      decide (s.spillUse (s.ownerOf (8 * k.cell)) < getKey s.spills (s.ownerOf (8 * k.cell)) 0)).map fun k =>
    { s with kept := s.kept.map fun (x : KeptCell) => if x.cell == k.cell then { x with spilled := x.spilled + 1 } else x }

/-- Move versions out of a Hayloft of 12,288 entries until it holds them all: at most `n` of them. -/
def State.fitHayloft (slice : Nat) : Nat → State → Option State
  | 0, s => if s.hayloft slice ≤ 12288 then some s else none
  | n + 1, s =>
    if s.hayloft slice ≤ 12288 then some s
    else match s.spillOne slice with
      | some s1 => State.fitHayloft slice n s1
      | none => none

/-- Free Hayloft and spill entries wake the side logs for the cells in wake entries that were refused for want of one
(R228). -/
def State.wakeFreed (s : State) : State :=
  let hit := fun (e : SideEntry) => e.cause == 0x17 && match e.req.op with
    | .kept cells _ => cells.any fun c => s.wakes.any fun w => w.2 == e.req.pa / 128 * 16 + c.1
    | _ => false
  let woken := (s.side.filter hit).flatMap fun e => match e.req.op with
    | .kept cells _ => cells.map fun c => e.req.pa / 128 * 16 + c.1
    | _ => []
  { s with side := s.side.map fun (e : SideEntry) => if hit e then { e with due := true } else e,
           wakes := s.wakes.filter fun w => !woken.contains w.2 }

/-- A RECON that lowers a cell's count wakes the side logs for that cell, where a wake entry holds it (R228). -/
def State.wakeCell (s : State) (pa : Nat) : State :=
  let cell := pa / 8
  if s.wakes.any fun w => w.2 == cell then
    { s with side := s.side.map fun (e : SideEntry) => match e.req.op with
        | .kept cells _ =>
          if (e.cause == 0x16 || e.cause == 0x17) && cells.any fun c => e.req.pa / 128 * 16 + c.1 == cell then { e with due := true } else e
        | _ => e,
             wakes := s.wakes.filter fun w => w.2 != cell }
  else s

/-- Place a cell's new version set: its versions are in the Hayloft, from which the least recently used ones make room;
none where that cannot be (R221). The home takes the lead, and entries that fell free wake the side logs (R228). -/
def State.placeVersions (s : State) (pa : Nat) (vs : List (DWord × Nat × Nat)) : Option State :=
  (State.fitHayloft (homeSlice pa 0) 16 (s.setVersions pa vs 0)).map fun s1 =>
    let s2 := s1.noteLead pa
    if vs.length < (s.versions pa).length then s2.wakeFreed else s2

/-- An access to a cell returns its spilled versions to the Hayloft and makes it the latest (R221); the spill entries that
fell free wake the side logs (R228). -/
def State.touchKept (s : State) (pa : Nat) : State :=
  match s.keptCell? pa with
  | none => s
  | some k =>
    let s1 : State := { s with kept := { k with spilled := 0 } :: s.kept.filter fun x => x.cell != k.cell }
    match State.fitHayloft (homeSlice pa 0) 16 s1 with
    | none => s
    | some s2 => if k.spilled = 0 then s2 else s2.wakeFreed

/-- An access to the kept cells among `n` bytes (R221). -/
def State.touchRange (s : State) (pa n : Nat) : State :=
  ((s.kept.filter fun k => decide (pa / 8 ≤ k.cell) && decide (8 * k.cell < pa + n)).map fun k => 8 * k.cell).foldl State.touchKept s

/-- A kept write (R220) of an address space: the state after it, or the cause with which the home does not accept it. -/
def State.keptWrite (s : State) (asid pa : Nat) (value : DWord) (sight g slice : Nat) : Except Cause State :=
  let keep := (s.claimLine asid pa).unseen pa sight g
  if 15 < keep.length + 1 then .error .siblingLimit
  else
    let (a, s1) := (s.claimLine asid pa).nextArrival slice
    match s1.placeVersions pa ((value, a, g) :: keep) with
    | some s2 => .ok s2
    | none => .error .spillFull

/-- Replace a kept cell's lead and the versions that sight `sight` and group `g` see by a new version (R232), under the
key of `asid`. -/
def State.replaceLead (s : State) (asid pa sight g slice new : Nat) : State :=
  let s0 := s.claimLine asid pa
  let vs := s0.versions pa
  let keep := (s0.unseen pa sight g).filter fun v => v != vs.headD (0, 0, 0)
  let (a, s1) := s0.nextArrival slice
  (s1.placeVersions pa ((BitVec.ofNat 64 new, a, g) :: keep)).getD s1

/-- A cell's lead as a read of an address space finds it: a free value under another key (R397). -/
def State.leadRead (s : State) (asid pa : Nat) : DWord × State :=
  if s.foreign asid pa then
    let (v, s1) := s.free
    (BitVec.ofNat 64 v, s1)
  else (((s.versions pa).headD (0, 0, 0)).1, s)

/-- A cluster's sight of a slice (R219). -/
def Cluster.sight (c : Cluster) (slice : Nat) : Nat := c.bases.getD (slice / 64) 0 + c.offs.getD slice 0

/-- A refresh of a sight vector from the slices' counts now (R219): compaction only lowers an entry. -/
def State.refreshSight (s : State) (cluster : Nat) : State :=
  let c := s.cluster cluster
  let n := fun i => max (c.sight i) (s.arrival i)
  let base := fun d => (List.range 63).foldl (fun m j => min m (n (64 * d + j + 1))) (n (64 * d))
  let bases := [base 0, base 1]
  s.updCluster cluster fun c =>
    { c with bases, offs := (List.range 128).map fun i => min (n i - bases.getD (i / 64) 0) 0xFFFFFF }

/-- Raise the low entry of a sight vector: the lowest of all (R213). -/
def Cluster.lowSight (c : Cluster) : Nat := (List.range 127).foldl (fun m i => min m (c.sight (i + 1))) (c.sight 0)

/-! ### Acquire steps on regions (R214) -/

/-- Change the state of the lines of the regions that `p` selects, by the rule of an acquire. -/
def State.invalidate (s : State) (cluster : Nat) (p : Nat → Region → Bool) : State :=
  let c := s.cluster cluster
  s.dropClean cluster fun l => match c.mapping l.line with
    | some (i, r, _) => p i r
    | none => false

/-- The invalidation of an acquire at scope `sc` (R214). -/
def State.acquireRegions (s : State) (cluster sc : Nat) : State :=
  s.invalidate cluster fun _ r => regIsc r != 0 && decide (regIsc r ≤ sc)

/-! ### Side logs (R228, R372, R373) -/

def State.logRoom (s : State) (log : Nat) : Bool := decide ((s.side.filter fun e => e.log == log).length < 512)
/-- The lowest free slot of a log. -/
def State.logSlot (s : State) (log : Nat) : Nat :=
  ((List.range 512).find? fun i => s.side.all fun e => !(e.log == log && e.slot == i)).getD 0

/-- The cells of a refused kept write go into wake entries of its slice, of which there are 64 (R228). -/
def State.noteWakes (s : State) (r : HomeReq) (cause : Nat) : State :=
  let slice := homeSlice r.pa r.leaf
  match r.op with
  | .kept cells _ =>
    if cause = 0x16 || cause = 0x17 then
      cells.foldl (fun (s : State) c =>
        let w := (slice, r.pa / 128 * 16 + c.1)
        if s.wakes.contains w || 64 ≤ (s.wakes.filter fun x => x.1 == slice).length then s else { s with wakes := s.wakes ++ [w] }) s
    else s
  | _ => s

/-- Retire a refused write into its side log, with its cause (R228). A replay that fails stays where it is, with one
more attempt (R374). -/
def State.retireWrite (s : State) (r : HomeReq) (cause bytes sight : Nat) : State :=
  let s0 : State := { s with reqs := s.reqs.filter fun x => x.id != r.id }.noteWakes r cause
  if r.replay then
    { s0 with side := s0.side.map fun (e : SideEntry) =>
        if e.req.id == r.id then { e with att := min 0xFFFF (e.att + 1), cause, bytes, req := { r with replay := false }, due := false }
        else e }
  else
    let e : SideEntry := { log := r.log, seq := getKey s.sideSeq r.log 0, slot := s.logSlot r.log,
                           req := { r with state := .sent }, bytes, sight, cause }
    let s1 : State := { s0 with side := s0.side ++ [e], sideSeq := setKey s.sideSeq r.log ((e.seq + 1) % 2 ^ 32) 0 }
    if r.log < 64 then s1.bump r.log 7 else s1

/-- A side-log entry whose replay is accepted leaves its log. -/
def State.dropEntry (s : State) (id : Nat) : State := { s with side := s.side.filter fun e => e.req.id != id }

/-! ### The directory (R202, R203) -/

def State.dirEntry? (s : State) (line : Nat) : Option DirEntry := s.dir.find? fun d => d.line == line
/-- The agents that an invalidation goes to. -/
def DirEntry.targets (d : DirEntry) : List Nat :=
  if d.coarse then (List.range 17).filter fun a => d.vector.testBit ((a + 1) / 2) else d.agents
/-- Record an agent that takes a line: pointers up to four, then a coarse vector. -/
def State.takeLine (s : State) (line agent : Nat) : State :=
  match s.dirEntry? line with
  | none => { s with dir := { line, coarse := false, agents := [agent], vector := 0 } :: s.dir }
  | some d =>
    let d' : DirEntry :=
      if d.coarse then { d with vector := Nat.lor d.vector (2 ^ ((agent + 1) / 2)) }
      else if d.agents.contains agent then d
      else if d.agents.length < 4 then { d with agents := d.agents ++ [agent] }
      else { d with coarse := true, vector := (d.agents ++ [agent]).foldl (fun v a => Nat.lor v (2 ^ ((a + 1) / 2))) 0, agents := [] }
    { s with dir := d' :: s.dir.filter fun x => x.line != line }

/-! ### Host halves (R393) -/

def State.half (s : State) (h : Nat) : Option Half := (s.halves.find? fun x => x.1 == h).map (·.2)
def State.setHalf (s : State) (h : Nat) (v : Option Half) : State :=
  let rest := s.halves.filter fun x => x.1 != h
  { s with halves := match v with
      | some v => (h, v) :: rest
      | none => rest }
def owned : Option Half → Bool
  | some .exclusive | some .modified => true
  | _ => false

/-- A snoop acts on a half (R394): SnpInv makes it I, SnpData makes an M or E half S; M data goes to the host. A line with
both halves I is absent (R393). -/
def State.snoopNow (s : State) (h : Nat) (inv : Bool) : State :=
  let data := if s.half h = some .modified then some (readBytes s.mem (64 * h) 64) else none
  let s1 := s.setHalf h (if inv then none else (s.half h).map fun _ => .shared)
  { s1 with outputs := s.outputs ++ [.snoop h data],
            l2 := if s1.halves.any fun x => x.1 / 2 == h / 2 then s.l2 else s.l2.filter fun x => x.line != h / 2 }

/-- The snoops that waited for a line take effect once no request is in progress there, before its list is served (R394). -/
def State.settleSnoops (s : State) : State :=
  let ready := s.snoops.filter fun p => s.busy.all fun b => b.line != p.1 / 2
  if ready.isEmpty then s
  else ready.foldl (fun (s : State) p => s.snoopNow p.1 p.2)
    { s with snoops := s.snoops.filter fun p => s.busy.any fun b => b.line == p.1 / 2 }

/-- The halves, by number and by whether to own them, that an access to bytes of a host line still needs. -/
def State.halfNeeds (s : State) (pa n : Nat) (write : Bool) : List (Nat × Bool) :=
  let lo := pa / 64
  let hs := if (pa + n - 1) / 64 = lo then [lo] else [lo, lo + 1]
  let line := pa / 128 * 2
  if write then (hs.filter fun h => !owned (s.half h)).map fun h => (h, true)
  else if (s.half line).isNone && (s.half (line + 1)).isNone then [(line, false), (line + 1, false)]
  else (hs.filter fun h => (s.half h).isNone).map fun h => (h, false)

end Sys2Proof.Machine
end

