-- ==== Sys2Proof/Machine/TaskQueue.lean ====
section
/-! DEFINITION. The task-queue step at the home of a queue's header (11_tasks.md R303 to R309). -/

namespace Sys2Proof.Machine

open Sys2Proof

/-- How a queue step ends: performed, refused with a cause, its address and its TINFO (R365), or to be tried again (not present, or no room). -/
inductive QueueOut where
  | done (s : State)
  | refused (cause : Cause) (addr info : Nat)
  | retry (s : State)
  | hold (s : State) (va : Nat)

/-- Header fields (R304). -/
def tqTag (h : Nat) : Nat := bits h 511 508
def tqLgn (h : Nat) : Nat := bits h 504 500
def tqNtype (h : Nat) : Nat := bits h 459 448
def tqTtab (h : Nat) : Nat := bits h 440 384
def tqRing (h : Nat) : Nat := bits h 376 320
def tqTail (h : Nat) : Nat := bits h 127 64
def tqHead (h : Nat) : Nat := bits h 63 0

/-- The checks on a header. -/
def tqValid (h : Nat) : Bool :=
  tqTag h == 6 && bits h 507 505 == 0 && decide (5 ≤ tqLgn h) && decide (tqLgn h ≤ 20) && bits h 499 460 == 0 &&
  bits h 447 441 == 0 && bits h 383 377 == 0 && bits h 319 128 == 0

/-- The physical addresses of a list of global addresses with their leaf entries, or the first failure: a hold, or a cause. -/
def State.translateAll (s : State) (asid : Nat) (sys weak : Bool) (need : Need) :
    List Nat → Except (Option Cause × Nat × Nat) (List (Nat × DWord)) × State
  | [] => (.ok [], s)
  | va :: vas =>
    match s.translate asid va sys need with
    | (.fail c i, s1) =>
      (if weak && (Trans.fail c i).holds va then .error (none, va, i) else .error (some c, va, i), s1)
    | (.ok pa leaf, s1) =>
      match s1.translateAll asid sys weak need vas with
      | (.ok pas, s2) => (.ok ((pa, leaf) :: pas), s2)
      | (.error e, s2) => (.error e, s2)

/-- A translation failure of a queue step: held weak operations send a fault notice (R304, R370). -/
def State.queueFail (s : State) (asid : Nat) : Option Cause × Nat × Nat → QueueOut
  | (some c, va, info) => .refused c va info
  | (none, va, _) => .hold (s.notePage asid va 3) va

/-- Read a number of `n` bytes of a queue at its home: the leads of kept cells, whose spilled versions return (R221). -/
def State.homeNat (s : State) (asid pa n : Nat) : Nat × State :=
  let (bs, s1) := (s.touchRange pa n).homeRead asid pa n
  (fromBytes bs, s1)

/-- A queue step writes a number of 8-byte words at a home. In a page that has K each of them replaces the cell's lead, as
an atomic's write does (R220, R232; DESIGN CHOICE, notes/assumptions/115.md). -/
def State.queueWrite (s : State) (r : HomeReq) (pa : Nat) (leaf : DWord) (words v : Nat) : State :=
  if leafK leaf then
    (List.range words).foldl (fun (s : State) i =>
      let slice := homeSlice pa leaf
      s.replaceLead r.asid (pa + 8 * i) ((s.cluster r.cluster).sight slice) r.group slice (v / 2 ^ (64 * i) % 2 ^ 64)) s
  else s.homeWrite r.asid pa (toBytes (8 * words) v)

/-- The slices have the arrivals that the writes of a queue step take: (physical address, leaf entry, words) (R216). -/
def State.hasArrivals (s : State) (writes : List (Nat × DWord × Nat)) : Bool :=
  let kept := writes.filter fun w => leafK w.2.1
  kept.all fun w =>
    let slice := homeSlice w.1 w.2.1
    !s.exhausted slice (((kept.filter fun x => homeSlice x.1 x.2.1 == slice).map fun x => x.2.2).foldl (· + ·) 0)

/-- The places of a SPAWN's records in its ring (R304), where they translate. -/
def State.ringCells (s : State) (r : HomeReq) : List Nat :=
  match r.op with
  | .spawn records _ _ =>
    let h := fromBytes (s.homeRead r.asid r.pa 64).1
    if !tqValid h then []
    else
      match (s.translateAll r.asid r.sys true { w := true }
          ((List.range records.length).map fun i => tqRing h + 16 * ((tqTail h + i) % 2 ^ tqLgn h))).1 with
      | .ok pas => pas.map (·.1)
      | .error _ => []
  | _ => []

/-- The other lines that a SPAWN's step writes: those of its ring records (R202, R304). -/
def State.ringLines (s : State) (r : HomeReq) : List Nat :=
  ((s.ringCells r).map (· / 128)).eraseDups.filter fun l => l != r.pa / 128

/-- SPAWN at the home (R308). -/
def State.spawnStep (s : State) (r : HomeReq) (records : List (BitVec 128)) (ranks : List Nat) (tryP : Option Nat) : QueueOut :=
  let (h, s1) := s.homeNat r.asid r.pa 64
  let n := records.length
  let t := s.team r.team
  let answer := fun (s : State) (v : Bool) => match tryP with
    | some p => ranks.foldl (fun s rank => s.addResult r.ticket r.team rank (.pred p v)) s
    | none => ranks.foldl (fun s rank => s.addResult r.ticket r.team rank .nothing) s
  if !tqValid h then .refused .illegalOperand r.va 0
  else if 2 ^ tqLgn h < (tqTail h + 2 ^ 64 - tqHead h) % 2 ^ 64 + n then
    match tryP with
    | some _ => .done (answer (s1.count t.quad t.job fun k => { k with mc := addCount k.mc n }) false)
    | none => .retry s1
  else
    let at_ := fun i => tqRing h + 16 * ((tqTail h + i) % 2 ^ tqLgn h)
    match s1.translateAll r.asid r.sys (r.ord == 0) { w := true } ((List.range n).map at_) with
    | (.error e, s2) => s2.queueFail r.asid e
    | (.ok pas, s2) =>
      if !s2.hasArrivals ((r.pa + 8, r.leaf, 1) :: pas.map fun p => (p.1, p.2, 2)) then .retry s2
      else
        let s3 := (pas.zip records).foldl (fun (s : State) p => s.queueWrite r p.1.1 p.1.2 2 p.2.toNat) s2
        .done (answer (s3.queueWrite r (r.pa + 8) r.leaf 1 (tqTail h + n)) true)

/-- Task-type entry fields (R305). -/
def ttPc (e : Nat) : Nat := bits e 248 192

/-- A record does not fit the thread that takes it (R309). -/
def State.misfit (s : State) (t : Team) (rank e : Nat) : Bool :=
  decide (t.ntid < bits e 177 165) || decide (t.alloc < bits e 164 157) || decide ((s.cluster t.cluster).share < bits e 156 137) ||
  bits e 180 178 != t.depth ||
  Nat.land (bits e 187 181) (s.featuresOf (coreOf t.quad (laneOf rank))) != bits e 187 181

/-- The registers that a taken record fills (R309). -/
def popWrites (s : State) (t : Team) (rank d ntype : Nat) (rec : Nat) (entry : Option Nat) : List (Nat × Nat × Word) :=
  let unknown := decide (ntype ≤ bits rec 59 48)
  let flags := 1 + (if unknown then 2 else 0) + (if entry.any (s.misfit t rank) then 4 else 0)
  valueWrites t.depth d 8 (rec + (if unknown then 0 else ttPc (entry.getD 0)) * 2 ^ 128 + flags * 2 ^ 192) fun _ => 0

/-- TQPOP and STEAL at the home (R309): the first `m` threads take a record each. -/
def State.popStep (s : State) (r : HomeReq) (steal : Bool) (ranks : List Nat) (d : Nat) : QueueOut :=
  let (h, s1) := s.homeNat r.asid r.pa 64
  let t := s.team r.team
  if !tqValid h then .refused .illegalOperand r.va 0
  else
    let a := (tqTail h + 2 ^ 64 - tqHead h) % 2 ^ 64
    let m := min ranks.length (if steal then (a + 1) / 2 else a)
    let pos := fun i => if steal then tqTail h + 2 ^ 64 - 1 - i else tqHead h + i
    let read := fun (n : Nat) (p : List Nat × State) (pa : Nat × DWord) =>
      let (v, s) := p.2.homeNat r.asid pa.1 n
      (p.1 ++ [v], s)
    match s1.translateAll r.asid r.sys (r.ord == 0) { r := true } ((List.range m).map fun i => tqRing h + 16 * (pos i % 2 ^ tqLgn h)) with
    | (.error e, s2) => s2.queueFail r.asid e
    | (.ok pas, s2) =>
      let (recs, s3) := pas.foldl (read 16) (([] : List Nat), s2)
      match s3.translateAll r.asid r.sys (r.ord == 0) { r := true } (recs.map fun x => tqTtab h + 32 * bits x 59 48) with
      | (.error e, s4) => s4.queueFail r.asid e
      | (.ok tabs, s4) =>
        if m != 0 && !s4.hasArrivals [(r.pa, r.leaf, 1)] then .retry s4
        else
          let (ents, s5) := tabs.foldl (read 32) (([] : List Nat), s4)
          let s6 := if m = 0 then s5
            else if steal then s5.queueWrite r (r.pa + 8) r.leaf 1 ((tqTail h + 2 ^ 64 - m) % 2 ^ 64)
            else s5.queueWrite r r.pa r.leaf 1 ((tqHead h + m) % 2 ^ 64)
          .done ((List.range ranks.length).foldl (fun (s : State) i =>
            let rank := ranks.getD i 0
            if i < m then
              let x := recs.getD i 0
              (s.updThread r.team rank fun t => { t with task := true }).addRegResults r.ticket r.team rank
                (if 192 ≤ d && i != 0 then [] else popWrites s t rank d (tqNtype h) x ents[i]?)
            else s.addRegResults r.ticket r.team rank
              (if 192 ≤ d && i != 0 then [] else valueWrites t.depth d 8 0 fun _ => 0)) s6)

end Sys2Proof.Machine
end

