-- ==== Sys2Proof/Machine/LaunchCore.lean ====
section
/-! DEFINITION. Launch descriptors and their acceptance (11_tasks.md R295 to R297, R311, R313), and where a cluster fits
(R298, 01_machine.md R10 to R13, 04_integer.md R105). -/

namespace Sys2Proof.Machine

open Sys2Proof

/-! ### Dies that run -/

/-- A die runs. -/
def State.dieUp (s : State) (die : Nat) : Bool := s.hasDie die && s.up.getD die false
/-- Both dies run and the seam between them works. -/
def State.spans (s : State) : Bool := s.seam && s.dieUp 0 && s.dieUp 1

/-- The host port answers: die 0, which has it, runs (R10, R404, R408). -/
def State.hostPortUp (s : State) : Bool := s.hostPort && s.dieUp 0

/-! ### Quads and room (R10, R92, R105, R257, R298) -/

/-- Two quads are neighbours: their stops are adjacent in one die's mesh, or both are quad q of the two dies, q below 8. -/
def State.neighbours (s : State) (a b : Nat) : Bool :=
  let x := fun q => q % 8
  let y := fun q => q % 32 / 8
  if a / 32 = b / 32 then
    (x a == x b && (y a == y b + 1 || y b == y a + 1)) || (y a == y b && (x a == x b + 1 || x b == x a + 1))
  else s.seam && a % 32 == b % 32 && decide (a % 32 < 8)

/-- Threads of a team of `ntid` in a quad lane (R12). -/
def laneThreads (ntid lane : Nat) : Nat := (ntid + 31 - lane) / 32

/-- Bytes of a lane's bank that a team takes (R105): its allocation, depth and share. -/
def bankBytes (ntid lane alloc depth share : Nat) : Nat := laneThreads ntid lane * alloc * 4 * (1 + depth) + share / 8

/-- A size rounded up to a multiple of `k`. -/
def roundUp (n k : Nat) : Nat := (n + k - 1) / k * k

/-- Easel rows of a window code (R257). -/
def easelRows (code : Nat) : Nat := if code = 0 then 0 else 128 * 2 ^ code

/-- The teams resident on a quad. A retired team leaves its bank space to others even while its cluster lives on, whose
pool keeps the share (R200): R105 counts resident teams (DESIGN CHOICE, notes/assumptions/92.md). -/
def State.residents (s : State) (quad : Nat) : List Team := s.teams.filter fun t => t.quad == quad && !t.retired && t.stat != 3

/-- What a placement needs of every quad. -/
structure Fit where
  ntid  : Nat
  alloc : Nat
  depth : Nat
  share : Nat
  easel : Nat
  needs : Nat

def Grid.fit (g : Grid) : Fit :=
  { ntid := g.threads, alloc := roundUp g.regs 8, depth := g.depth, share := roundUp g.pool 64, easel := easelRows g.easel,
    needs := g.needs }

/-- A quad has room for a team beside the given residents, and its cores have what it needs. -/
def State.fits (s : State) (f : Fit) (residents : List Team) (quad : Nat) : Bool :=
  s.hasQuad quad && s.up.getD (quad / 32) false && decide (residents.length < 4) &&
  ((List.range 4).all fun c => Nat.land f.needs (s.featuresOf (4 * quad + c)) == f.needs) &&
  decide (((residents.map fun t => easelRows (s.grid t.grid).easel).foldl (· + ·) 0) + f.easel ≤ 1024) &&
  (List.range 32).all fun lane =>
    decide (((residents.map fun t => bankBytes t.ntid lane t.alloc t.depth (s.cluster t.cluster).share).foldl (· + ·) 0) +
      bankBytes f.ntid lane f.alloc f.depth f.share ≤ 131072)

/-- Grow a connected set of quads, from those allowed, to at most `n`. -/
def State.grow (s : State) (allowed : List Nat) (n : Nat) : Nat → List Nat → List Nat
  | 0, set => set
  | fuel + 1, set =>
    if n ≤ set.length then set
    else match allowed.find? fun q => !set.contains q && set.any fun p => s.neighbours p q with
      | none => set
      | some q => s.grow allowed n fuel (set ++ [q])

/-- A list of distinct quads is a connected set. -/
def State.connected (s : State) (quads : List Nat) : Bool :=
  match quads with
  | [] => false
  | q :: _ => quads.eraseDups.length == quads.length && (s.grow quads quads.length quads.length [q]).length == quads.length

/-- A connected set of `n` of the allowed quads, grown from one of the seeds. -/
def State.findSet (s : State) (allowed : List Nat) (n : Nat) (seeds : List (List Nat)) : Option (List Nat) :=
  seeds.findSome? fun seed =>
    let set := s.grow allowed n n seed
    if set.length == n && decide (seed.length ≤ n) then some set else none

/-- A set on one die, and a bonded set. -/
def State.findOn (s : State) (ok : Nat → Bool) (n die : Nat) : Option (List Nat) :=
  let qs := ((List.range 32).map fun q => 32 * die + q).filter ok
  s.findSet qs n (qs.map fun q => [q])
def State.findBonded (s : State) (ok : Nat → Bool) (n : Nat) : Option (List Nat) :=
  let qs := (List.range 64).filter ok
  s.findSet qs n (((List.range 8).filter fun q => s.seam && ok q && ok (q + 32)).map fun q => [q, q + 32])

/-! ### Descriptors (R295, R296) -/

/-- The write requests of the device itself for bytes at a physical address, one for each line they touch. A kept cell
takes them with sight 0 as group 0xFFFE, and one that its home refuses goes to the host stop's log (DEDUCED,
notes/assumptions/20.md). -/
def writeReqs (die asid pa : Nat) (leaf : DWord) (bs : List Byte) : List HomeReq :=
  (List.range ((pa % 128 + bs.length + 127) / 128)).map fun i =>
    let base := (pa / 128 + i) * 128
    let en := (List.range bs.length).filterMap fun k =>
      if base ≤ pa + k && pa + k < base + 128 then some (pa + k - base, bs.getD k 0) else none
    let cells := (List.range 16).filter fun j => en.any fun p => p.1 / 8 == j
    let cell := fun (j : Nat) => (j, BitVec.ofNat 64 (en.foldl (fun v p => if p.1 / 8 = j then v + p.2.toNat * 256 ^ (p.1 % 8) else v) 0))
    { asid, pa := base, leaf, group := 0xFFFE, src := 66 + die, log := 64, kind := 4,
      mask := en.foldl (fun m p => Nat.lor m (2 ^ p.1)) 0, op := if leafK leaf then .kept (cells.map cell) 0 else .write en }

/-- Send requests that no thread has issued. -/
def State.postReqs (s : State) (rs : List HomeReq) : State :=
  rs.foldl (fun (s : State) r =>
    { s with nextId := s.nextId + 1, reqs := s.reqs ++ [{ r with id := s.nextId, seq := s.nextId }] }) s

/-- Physical runs of a range with their leaf entries: address, length, entry. -/
def State.leafRuns (s : State) (asid : Nat) (sys : Bool) (need : Need) : Nat → Nat → Nat → Except Cause (List (Nat × Nat × DWord)) × State
  | 0, _, _ => (.ok [], s)
  | fuel + 1, va, n =>
    if n = 0 then (.ok [], s)
    else
      let here := min n (2 ^ 16 - va % 2 ^ 16)
      match s.translate asid va sys need with
      | (.fail c _, s1) => (.error c, s1)
      | (.ok pa e, s1) =>
        match s1.leafRuns asid sys need fuel (va + here) (n - here) with
        | (.ok rs, s2) => (.ok ((pa, here, e) :: rs), s2)
        | (.error c, s2) => (.error c, s2)

/-- Send the device's own weak writes of bytes at a global address (R313); false, and no write, where some page does not
allow them. -/
def State.globalWrite (s : State) (die asid va : Nat) (bs : List Byte) : Bool × State :=
  match s.leafRuns asid false { w := true } (bs.length / 65536 + 2) va bs.length with
  | (.error _, s1) => (false, s1)
  | (.ok runs, s1) =>
    (true, (runs.foldl (fun (p : List Byte × State) r =>
      (p.1.drop r.2.1, p.2.postReqs (writeReqs die asid r.1 r.2.2 (p.1.take r.2.1)))) (bs, s1)).2)

/-- Read bytes at a global address, over as many pages as they touch. -/
def State.globalRead (s : State) (asid : Nat) (need : Need) (va n : Nat) : Option Nat × State :=
  match s.translateRun asid false need (n / 65536 + 2) va n with
  | (.error _, s1) => (none, s1)
  | (.ok runs, s1) =>
    let (bs, s2) := runs.foldl (fun (p : List Byte × State) r =>
      let (b, s) := (p.2.touchRange r.1 r.2).homeRead asid r.1 r.2
      (p.1 ++ b, s)) (([] : List Byte), s1)
    (some (fromBytes bs), s2)

def dNedge (v : Nat) : Nat := bits v 223 220
def dEdges (v : Nat) : Nat := bits v 312 256
def dEntry (v : Nat) : Nat := bits v 56 0
def dRecord (v : Nat) : Nat := bits v 376 320
def dBitmap (v : Nat) : Nat := bits v 440 384

/-- Entry `i` of an edge list: base and length. -/
def edgeOf (list i : Nat) : Nat × Nat := (bits (list / 2 ^ (128 * i)) 56 0, bits (list / 2 ^ (128 * i)) 95 64)
/-- An edge entry keeps R302. -/
def edgeOk (list i : Nat) : Bool :=
  let e := list / 2 ^ (128 * i) % 2 ^ 128
  bits e 63 57 == 0 && bits e 127 96 == 0 && bits e 95 64 != 0

/-- An event register's initial value (R295). -/
def eventInit (f : Nat) : DWord :=
  let t := f % 32
  BitVec.ofNat 64 ((if t = 0 then 0 else 2 ^ (t - 1)) * 2 ^ 8 + bits f 11 7 * 2 ^ 3 + bits f 6 5 * 2)

/-- The grid that a descriptor `v` and its kernel record `k` describe, without what acceptance adds. -/
def gridOf (v k list : Nat) : Grid :=
  let depth := bits v 175 173
  { gx := bits v 79 64, gy := bits v 95 80, gz := bits v 111 96, entry := dEntry v, threads := bits v 140 128,
    teams := bits v 144 141, regs := bits v 152 145, pool := bits v 172 153, depth, gall := bit v 176, prio := bits v 178 177,
    fage := bits v 182 179, easel := bits v 184 183, bond := bits v 186 185, pers := bit v 187, dbg := bit v 188,
    needs := Nat.lor (Nat.lor (bits v 198 192) (bits k 118 112)) (if depth = 0 then 0 else 64), wdw := bits v 203 199,
    edges := (List.range (dNedge v)).map (edgeOf list), record := dRecord v, bitmap := dBitmap v,
    evt := (List.range 5).map fun i => bits v (459 + 12 * i) (448 + 12 * i),
    ginit := (List.range 8).map fun i => BitVec.ofNat 32 (bits v (543 + 32 * i) (512 + 32 * i)) }

/-- Clusters of a grid. -/
def Grid.total (g : Grid) : Nat := g.gx * g.gy * g.gz

/-- The rows of R296's table on what was read, but for the last. -/
def State.launchCause (s : State) (v k list nest : Nat) : Option Nat :=
  let g := gridOf v k list
  let ok := s.fits g.fit []
  let somewhere := match g.bond with
    | 2 => (s.findBonded ok g.teams).isSome
    | b => (s.findOn ok g.teams 0).isSome || (s.findOn ok g.teams 1).isSome || (b == 1 && (s.findBonded ok g.teams).isSome)
  if bits v 1023 768 ≠ 0 || bits v 511 508 ≠ 0 || bits v 447 441 ≠ 0 || bits v 383 377 ≠ 0 || bits v 319 313 ≠ 0 ||
      bits v 255 224 ≠ 0 || bits v 207 204 ≠ 0 || bits v 191 189 ≠ 0 || bits v 127 112 ≠ 0 || bits v 63 57 ≠ 0 ||
      dRecord v % 64 ≠ 0 || dBitmap v % 8 ≠ 0 || bits k 63 48 ≠ 0x4E4B || bits k 47 40 ≠ 1 || bits k 39 0 ≠ 0 ||
      bits k 255 119 ≠ 0 then some 1
  else if g.total = 0 then some 2
  else if g.threads = 0 || 4096 < g.threads || g.teams = 0 || 12 < g.teams || g.regs = 0 || 192 < g.regs ||
      g.regs < bits k 88 81 || g.pool < bits k 108 89 || g.bond = 3 then some 3
  else if bits k 111 109 < g.depth || s.maxDepth < g.depth then some 4
  else if !(g.fage == 0 || (decide (4 ≤ g.fage) && decide (g.fage ≤ 12))) ||
      !(g.wdw == 0 || (decide (4 ≤ g.wdw) && decide (g.wdw ≤ 24))) then some 5
  else if !somewhere then some 6
  else if 8 < dNedge v || (List.range (dNedge v)).any (fun i => !edgeOk list i) then some 7
  else if g.evt.any fun f => decide (24 < f % 32) then some 8
  else if 9 < nest then some 9
  else none

/-- A nonzero record or bitmap lies in pages that may be written. -/
def State.recordsOk (s : State) (asid v : Nat) : Bool × State :=
  let ok := fun (s : State) (va n : Nat) =>
    if va = 0 then (true, s)
    else match s.translateRun asid false { w := true } (n / 65536 + 2) va n with
      | (.ok _, s1) => (true, s1)
      | (.error _, s1) => (false, s1)
  let (a, s1) := ok s (dRecord v) 64
  let (b, s2) := ok s1 (dBitmap v) ((bits v 79 64 * bits v 95 80 * bits v 111 96 + 7) / 8)
  (a && b, s2)

/-- What the dispatcher finds: the descriptor's grid, or the cause of an invalid launch. -/
def State.checkLaunch (s : State) (asid : Nat) (desc : Option Nat) (nest : Nat) : Except Nat Grid × State :=
  match desc with
  | none => (.error 10, s)
  | some v =>
    if dEntry v % 32 ≠ 0 || dEdges v % 16 ≠ 0 then (.error 1, s)
    else
      let (k, s1) := s.globalRead asid { x := true } (dEntry v) 32
      let (list, s2) := s1.globalRead asid { r := true } (dEdges v) (16 * dNedge v)
      match k, list with
      | some k, some list =>
        match s2.launchCause v k list nest with
        | some cause => (.error cause, s2)
        | none =>
          let (ok, s3) := s2.recordsOk asid v
          (if ok then .ok (gridOf v k list) else .error 10, s3)
      | _, _ => (.error 10, s2)

/-- The launch record (R313). -/
def launchRecord (g : Grid) (id status cause lost : Nat) : Nat :=
  g.next * 2 ^ 256 + lost * 2 ^ 192 + g.ret1.length * 2 ^ 128 + g.ret0.length * 2 ^ 64 + id * 2 ^ 32 + cause * 2 ^ 8 + status

/-! ### Acceptance (R297, R299, R301, R311, R323) -/

/-- Who launches: the job, the die whose queue takes the grid, and for a child its parent team. -/
structure Launcher where
  job    : Nat
  die    : Nat
  parent : Option Nat := none

/-- The counter set of the command processor of a die. -/
def cpPort (die : Nat) : Nat := 66 + die

/-- Accept a launch whose descriptor is `desc` where it could be read: the handle of R311, and the state after it. The
activity of an invalid launch is raised and lowered at once. -/
def State.acceptLaunch (s : State) (l : Launcher) (desc : Option Nat) : Nat × State :=
  let j := s.job l.job
  let parent := (l.parent.map fun t => s.grid (s.team t).grid)
  let nest := match parent with
    | some g => g.nest + 1
    | none => 0
  match s.checkLaunch j.asid desc nest with
  | (.error cause, s1) =>
    let s2 := match desc with
      | none => s1
      | some v =>
        if dRecord v = 0 || dRecord v % 64 ≠ 0 then s1
        else (s1.globalWrite l.die j.asid (dRecord v) (toBytes 64 (launchRecord {} 0 4 cause 0))).2
    (2 ^ 31 + cause, s2.count (cpPort l.die) l.job fun c => { c with au := addCount c.au 1, ad := addCount c.ad 1 })
  | (.ok g, s1) =>
    let id := if s1.gridNum + 1 = 2 ^ 31 then 1 else s1.gridNum + 1
    let prio := match parent with
      | some p => min g.prio p.prio
      | none => g.prio
    let before := s1.grids.filter fun x => x.die == l.die && x.prio == prio && x.job == l.job && x.status.isNone
    let g' : Grid := { g with id, job := l.job, prio, nest, parent := l.parent, die := l.die, order := s1.nextId,
                              after := if l.parent.isNone then before.map (·.id) else [], progress := s1.now }
    let s2 : State := { s1 with gridNum := id, nextId := s1.nextId + 1, grids := s1.grids ++ [g'] }
    let s3 := match l.parent with
      | some t => s2.updTeam t fun t => { t with children := t.children ++ [id] }
      | none => s2
    (id, s3.count (cpPort l.die) l.job fun c => { c with au := addCount c.au 1 })

/-- The descriptor that a LAUNCH names, where it can be read (R296). -/
def State.readDesc (s : State) (r : HomeReq) : Option Nat × State :=
  match s.translate r.asid r.va r.sys { r := true } with
  | (.ok pa _, s1) =>
    let (bs, s2) := s1.homeRead r.asid pa 128
    (some (fromBytes bs), s2)
  | (.fail _ _, s1) => (none, s1)

/-- A LAUNCH word's acceptance: none while the command processor has no counter set for the job. -/
def State.launchStep (s : State) (r : HomeReq) (ranks : List Nat) (d : Nat) : Option State :=
  let t := s.team r.team
  let die := t.quad / 32
  if !s.canCount (cpPort die) r.job then none
  else
    let (desc, s1) := s.readDesc r
    let (h, s2) := s1.acceptLaunch { job := r.job, die, parent := some r.team } desc
    some (ranks.foldl (fun (s : State) rank =>
      s.addRegResults r.ticket r.team rank (if 192 ≤ d && d < 255 && rank ≠ ranks.headD 0 then []
        else valueWrites t.depth d 1 h fun _ => 0)) s2)

end Sys2Proof.Machine
end

