-- ==== Sys2Proof/Machine/HomeService.lean ====
section
/-! DEFINITION. How requests are ordered and served at the home slices (08_global.md R202 to R207, R227, 13_ordering.md
R345, R352, R356): the rows HOME_REQUEST_SERVICE, INVALIDATION_ACK, HOME_REQUEST_RETRY, HALF_GRANT, SIDE_LOG_REPLAY and
SIGHT_REFRESH_COMPLETE. -/

namespace Sys2Proof.Machine

open Sys2Proof

def State.updReq (s : State) (id : Nat) (f : HomeReq → HomeReq) : State :=
  { s with reqs := s.reqs.map fun r => if r.id == id then f r else r }
def State.dropReq (s : State) (id : Nat) : State := { s with reqs := s.reqs.filter fun r => r.id != id }

/-! ### Order (R205, R227, R345) -/

/-- The request `e` has its place before `r` among the flits of their pair of stops (R205). A request that its own thread
holds back has no place, number 0, until it starts (DEDUCED, notes/assumptions/37.md). -/
def HomeReq.ahead (e r : HomeReq) : Bool :=
  !e.op.local && !r.op.local && e.src == r.src && e.state == .sent && e.seq != 0 && decide (e.seq < r.seq) &&
  homeSlice e.pa e.leaf / 2 == homeSlice r.pa r.leaf / 2

/-- The earlier request `e` of its thread keeps `r` back, by the rows of R345 and in one line (R227). -/
def HomeReq.before (e r : HomeReq) : Bool :=
  !e.op.local && !r.op.local && (e.isOf r.team r.rank || r.isOf e.team e.rank) && !e.back && !r.back && e.cmd.isNone &&
  r.cmd.isNone && decide (e.id < r.id) && (r.ord == 3 || e.acquires || (e.ord == 1 && r.ord == 1) || e.pa / 128 == r.pa / 128)

/-- The request `e` of a lower thread of the word of `r` has not left, or is to be sent again: the threads of a word act
in rank order on a line (R227). -/
def HomeReq.first (e r : HomeReq) : Bool :=
  !e.op.local && !r.op.local && e.ticket != 0 && e.ticket == r.ticket && decide (e.id < r.id) && e.pa / 128 == r.pa / 128 &&
  match e.state with
  | .sent => e.seq == 0
  | .rejected _ => true
  | _ => false

/-- Numbers of a list that are still in flight; with `logs`, side-log entries count (R356). -/
def State.flying (s : State) (logs : Bool) (ids : List Nat) : List Nat :=
  ids.filter fun i => (s.accesses.any fun a => a.id == i) || (s.reqs.any fun r => r.id == i) ||
    (logs && s.side.any fun e => e.req.id == i)

/-- The bytes that an access of a thread touches at its home. -/
def HomeReq.size (r : HomeReq) : Nat :=
  match r.op with
  | .atomic _ size _ _ _ => size
  | .cas size _ _ _ => size
  | .probe _ | .sibling .. | .recon .. => 8
  | .spawn .. | .pop .. => 64
  | .launch .. => 128
  | _ => 0
/-- Two requests of one address space touch a common byte. -/
def HomeReq.overlaps (e r : HomeReq) : Bool :=
  e.asid == r.asid && decide (e.va < r.va + r.size) && decide (r.va < e.va + e.size)

/-- What keeps a request from starting: earlier requests and accesses of its threads by the rows of R345, lower threads of
its own word on its line (R227), a REDG of its threads in a side log on overlapping bytes, which has not performed (R356),
and what gates its threads. -/
def State.reqHolds (s : State) (r : HomeReq) : List Nat :=
  ((s.reqs.filter fun e => e.id != r.id && (e.before r || e.first r)).map (·.id)) ++
  (if r.op.local || r.team = 0 || r.back || r.cmd.isSome then []
   else
      ((s.accesses.filter fun a => r.isOf a.team a.rank && decide (a.id < r.id) &&
          (r.ord == 3 || a.acquires || (a.ord == 1 && r.ord == 1))).map (·.id)) ++
      ((s.side.filter fun e => r.isOf e.req.team e.req.rank && !e.req.back && e.req.cmd.isNone && decide (e.req.id < r.id) &&
          e.req.overlaps r).map (·.req.id)) ++
      (r.rank :: r.op.ranks).eraseDups.flatMap fun k => s.gates r.team k r.id) ++
  (if r.stage = 0 || (r.ord == 3 && r.stage == 1 && !r.op.local) then s.flying (r.ord == 3) r.after else [])

/-- The requests that have their place before a request. -/
def State.reqAhead (s : State) (r : HomeReq) : List Nat := (s.reqs.filter fun e => e.id != r.id && e.ahead r).map (·.id)

/-- A release that has steps of R352 before its own. -/
def HomeReq.releasing (r : HomeReq) : Bool := r.ord == 3 && !r.op.local && decide (r.stage < 2)

/-- Send one request: it is numbered, and takes its place unless its thread holds it back or a release must come first. -/
def State.sendReq (s : State) (r : HomeReq) : Nat × State :=
  let r1 := { r with id := s.nextId, seq := s.nextId }
  let r2 := if (s.reqHolds r1).isEmpty && !r1.releasing then r1 else { r1 with seq := 0 }
  (s.nextId, { s with nextId := s.nextId + 1, reqs := s.reqs ++ [r2] })

/-- A request that nothing holds back any longer takes its place. -/
def State.startReq (s : State) (r : HomeReq) : HomeReq × State :=
  if r.seq = 0 then ({ r with seq := s.nextId }, { s with nextId := s.nextId + 1 }.updReq r.id fun r => { r with seq := s.nextId })
  else (r, s)

/-- A write-back walk over every line of a cluster, as the release of a thread needs it (R214). -/
def walkReq (r : HomeReq) : HomeReq :=
  { team := r.team, rank := r.rank, cluster := r.cluster, job := r.job, asid := r.asid, sys := r.sys, group := r.group,
    ord := 3, op := .walk 0 (48 * 2 ^ 20) }

/-- A global range meets one of the edge ranges (R302). -/
def meetsEdges (edges : List (Nat × Nat)) (va n : Nat) : Bool :=
  edges.any fun e => decide (va < e.1 + e.2) && decide (e.1 < va + n)

/-- The region lines of a cluster that meet the edge ranges. -/
def State.edgeLines (s : State) (cluster : Nat) (edges : List (Nat × Nat)) : List Nat :=
  let c := s.cluster cluster
  (c.lines.filter fun l => match c.mapping l.line with
    | some (_, _, va) => meetsEdges edges va 128
    | none => false).map (·.line)

/-- The edge ranges of the descriptor that a LAUNCH names. -/
def State.launchEdges (s : State) (r : HomeReq) : List (Nat × Nat) × State :=
  let (desc, s1) := s.readDesc r
  let v := desc.getD 0
  match s1.globalRead r.asid { r := true } (dEdges v) (16 * dNedge v) with
  | (some list, s2) => ((List.range (dNedge v)).map (edgeOf list), s2)
  | (none, s2) => ([], s2)

/-- Send write-back walks over single lines. -/
def State.sendWalks (s : State) (r : HomeReq) (lines : List Nat) : List Nat × State :=
  lines.foldl (fun (p : List Nat × State) l =>
    let (id, s) := p.2.sendReq { walkReq r with op := .walk l (l + 1) }
    (p.1 ++ [id], s)) (([] : List Nat), s)

/-- The steps of a release before its own write (R352): earlier accesses, which the blockers see to, write-backs at
scope 3 and wider, and the covered side-log entries. The release of a LAUNCH with edges writes back the lines that meet
them alone (R302). -/
def State.releaseStep (s : State) (r : HomeReq) : State :=
  if r.stage = 0 && decide (3 ≤ r.sc) then
    match r.op with
    | .launch .. =>
      let (edges, s1) := s.launchEdges r
      let (ids, s2) := if edges.isEmpty then
          let (w, s2) := s1.sendReq (walkReq r)
          ([w], s2)
        else s1.sendWalks r (s1.edgeLines r.cluster edges)
      s2.updReq r.id fun r => { r with stage := 1, after := ids }
    | _ =>
      let (w, s1) := s.sendReq (walkReq r)
      s1.updReq r.id fun r => { r with stage := 1, after := [w] }
  else if (s.covered r.team r.rank r.cluster r.sc s.commandRuns).isEmpty then s.updReq r.id fun r => { r with stage := 2 }
  else s

/-! ### The end of a request -/

/-- A request has performed. An acquire at scope 3 or wider now invalidates the cluster's regions and waits for a
refresh of its sight (R352). -/
def State.reqOver (s : State) (r : HomeReq) : State :=
  let s0 : State := { s with busy := s.busy.filter fun b => b.req != r.id }
  let s1 := if r.replay then s0.dropEntry r.id else s0
  if r.acquires && decide (3 ≤ r.sc) && !r.op.local then
    (s1.acquireRegions r.cluster r.sc).updReq r.id fun r => { r with state := .refreshing }
  else s1.dropReq r.id

/-- Reject a request, for want of an entry or for another reason: it is sent again 64 clocks later, and after its eighth
rejection it is aged (R207). -/
def State.rejectReq (s : State) (r : HomeReq) (wants : Nat := 0) : State :=
  let s1 : State := { s with nextId := s.nextId + 1, busy := s.busy.filter fun b => b.req != r.id }
  s1.updReq r.id fun r =>
    { r with state := .rejected (s.dieClock (placeDie r.src) + 64), rejects := r.rejects + 1, holdVa := none, wants,
             aged := if r.aged.isNone && decide (8 ≤ r.rejects + 1) then some s.nextId else r.aged }

/-! ### Operations at a home (R211, R220, R232 to R237) -/

/-- Registers of a global result: all layers of the destination become zero (R174). -/
def globalWrites (t : Team) (d size v : Nat) (count : Option (Nat × Nat)) : List (Nat × Nat × Word) :=
  loadWrites t d 0 size v (allLayers t) count

/-- The choice of RECON among the versions it collapses (R237). -/
def reconValue (op : Nat) (vals : List Nat) (arg : DWord) : Nat :=
  let pick := fun (better : Nat → Nat → Bool) => (vals.drop 1).foldl (fun m v => if better v m then v else m) (vals.headD 0)
  match op with
  | 0 => pick fun a b => decide (toSigned 64 b < toSigned 64 a)
  | 1 => pick fun a b => decide (toSigned 64 a < toSigned 64 b)
  | 2 => pick fun a b => decide (b < a)
  | 3 => pick fun a b => decide (a < b)
  | 4 => vals.headD 0
  | 5 => vals.getD (arg.toNat % 2 ^ 32) 0
  | 6 => arg.toNat
  | 7 => (vals.drop 1).foldl (fun m v => fpPick true fp64 m v) (vals.headD 0)
  | 8 => (vals.drop 1).foldl (fun m v => fpPick false fp64 m v) (vals.headD 0)
  | 9 => (vals.drop 1).foldl Nat.lor (vals.headD 0)
  | _ => (vals.drop 1).foldl Nat.land (vals.headD 0)

/-- The current value that an atomic finds: of the lead of a kept cell, or of memory. -/
def State.atomicOld (s : State) (r : HomeReq) (size : Nat) : Nat × State :=
  if leafK r.leaf then
    let (v, s1) := s.leadRead r.asid r.pa
    (v.toNat / 256 ^ (r.pa % 8) % 256 ^ size, s1)
  else
    let (bs, s1) := s.homeRead r.asid r.pa size
    (fromBytes bs, s1)

/-- Store an atomic's new value. -/
def State.atomicStore (s : State) (r : HomeReq) (size new : Nat) : State :=
  if leafK r.leaf then
    let s1 := s.claimLine r.asid r.pa
    let old := ((s1.versions r.pa).headD (0, 0, 0)).1.toNat
    let lo := 8 * (r.pa % 8)
    let slice := homeSlice r.pa r.leaf
    s1.replaceLead r.asid r.pa ((s1.cluster r.cluster).sight slice) r.group slice (setBits old (lo + 8 * size - 1) lo new)
  else s.homeWrite r.asid r.pa (toBytes size new)

/-- The count of a cell as an atomic or a probe gives it. -/
def State.cellCount (s : State) (r : HomeReq) : Nat := if leafK r.leaf then (s.versions r.pa).length else 1

/-- The versions that a RECON collapses, none where it changes nothing (R237). -/
def State.reconSet (s : State) (r : HomeReq) (op basis : Nat) (arg : DWord) : List (DWord × Nat × Nat) :=
  let b := min basis (s.arrival (homeSlice r.pa r.leaf))
  let old := (s.versions r.pa).filter fun v => decide (v.2.1 ≤ b)
  if old.isEmpty || (old.length == 1 && op != 6) || (op == 5 && decide (old.length ≤ arg.toNat % 2 ^ 32)) then [] else old

/-- A RECON's change at the home: one version in the place of those it collapses; it wakes the side logs that wait on the
cell (R228, R237). -/
def State.collapse (s : State) (r : HomeReq) (op : Nat) (arg : DWord) (old : List (DWord × Nat × Nat)) : State :=
  if old.isEmpty then s
  else
    let vs := s.versions r.pa
    let (a, s1) := s.nextArrival (homeSlice r.pa r.leaf)
    let rest := vs.filter fun v => !(old.map (·.2)).contains v.2
    let s2 := (s1.placeVersions r.pa ((BitVec.ofNat 64 (reconValue op (old.map fun v => v.1.toNat) arg), a, r.group) :: rest)).getD s1
    if rest.length + 1 < vs.length then s2.wakeCell r.pa else s2

/-- Kept writes of cells of one line in order: the state after the accepted ones, the refused ones, the first cause, and
those left from where the slice has no further arrival (R216). -/
def keptCells (asid pa sight g slice : Nat) :
    List (Nat × DWord) → State → State × List (Nat × DWord) × Nat × List (Nat × DWord)
  | [], s => (s, [], 0, [])
  | (j, v) :: cs, s =>
    if s.exhausted slice then (s, [], 0, (j, v) :: cs)
    else match s.keptWrite asid (pa + 8 * j) v sight g slice with
    | .ok s1 => keptCells asid pa sight g slice cs s1
    | .error c =>
      let (s1, bad, _, late) := keptCells asid pa sight g slice cs s
      (s1, (j, v) :: bad, c.code, late)

/-- The quads' die that reads a region line. -/
def State.readDie (s : State) (r : HomeReq) (line : Nat) : Nat := (s.cluster r.cluster).quadOf line / 32

/-- A queue word's request ends with a refusal: its results are owed no longer (R307). -/
def State.refuseWord (s : State) (r : HomeReq) (cause : Cause) (addr info : Nat) : State :=
  let s1 := r.op.ranks.foldl (fun (s : State) rank => s.settleTicket r.ticket rank) s
  { s1 with ends := s1.ends ++ [(r.id, ReqEnd.refused cause addr info)] }

/-- A host write is complete at its home or in the host stop's log (R228, R395). -/
def State.hostDone (s : State) (r : HomeReq) : State :=
  if r.kind = 4 && r.src = 64 && !r.replay then { s with outputs := s.outputs ++ [.hostWrite true] } else s

/-- The cells of a host or peer write, or of one that holds part of a cell: bytes that are not enabled are taken from the
lead (R396, R213). -/
def State.mergeLead (s : State) (r : HomeReq) (lineBase : Nat) (cells : List (Nat × DWord)) : List (Nat × DWord) :=
  if r.kind ≠ 4 && r.kind ≠ 5 && !r.merge then cells
  else cells.map fun c =>
    let lead := ((s.versions (lineBase + 8 * c.1)).headD (0, 0, 0)).1.toNat
    (c.1, BitVec.ofNat 64 (fromBytes ((List.range 8).map fun i =>
      BitVec.ofNat 8 ((if r.mask.testBit (8 * c.1 + i) then c.2.toNat else lead) / 256 ^ i))))

/-- The line of a request that writes it stands under the key of the request's address space from now on (R397). -/
def State.claimFor (s : State) (r : HomeReq) : State := if isPeer r.pa then s else s.claimLine r.asid r.pa

/-- What a request does at its home. Answers the state after it, with the request over, rejected or side-logged. -/
def State.homePerform (s : State) (r : HomeReq) : State :=
  let t := s.team r.team
  let slice := homeSlice r.pa r.leaf
  let lineBase := r.pa / 128 * 128
  let give := fun (s : State) (ws : List (Nat × Nat × Word)) => (s.addRegResults r.ticket r.team r.rank ws).reqOver r
  match r.op with
  | .fill line =>
    let l := (s.cluster r.cluster).line line
    let (bs, s1) := s.homeRead r.asid lineBase 128
    let counts := (List.range 16).map fun j => if leafK r.leaf then (s.versions (lineBase + 8 * j)).length else 1
    let l' : RegionLine := { l with data := some (bs, counts), basis := if r.pl = 2 then l.basis else s.arrival slice }
    let s2 := if l.st == .filling && l.req == r.id then s1.setLine r.cluster l' else s1
    let s3 := if r.pl = 0 && s.readDie r line != homeDie r.pa r.leaf && decide (r.pa < 2 ^ 39) then s2.takeLine (r.pa / 128) 0 else s2
    s3.reqOver r
  | .read idx n =>
    let (bs, s1) := s.homeRead r.asid r.pa n
    let s2 : State := { s1 with
      commands := s1.commands.map fun (c : CopyCommand) =>
      if r.cmd == some c.id then
        { c with lines := c.lines.map fun (l : CopyLine) => if l.idx == idx then { l with data := some bs } else l }
      else c,
      colls := s1.colls.map fun (k : CollCommand) => if r.cmd == some k.id then { k with got := k.got ++ [(idx, bs)] } else k }
    let guest := r.pl = 0 && r.src / 32 != homeDie r.pa r.leaf && decide (r.pa < 2 ^ 39)
    if guest then (s2.takeLine (r.pa / 128) 0).reqOver r else s2.reqOver r
  | .write bytes =>
    let s1 := bytes.foldl (fun (s : State) p => s.homeByte r.asid (lineBase + p.1) p.2) s
    ((s1.settleTicket r.ticket r.rank).hostDone r).reqOver r
  | .kept cells sight =>
    match keptCells r.asid lineBase sight r.group slice (s.mergeLead r lineBase cells) s with
    | (s1, [], _, []) => ((s1.settleTicket r.ticket r.rank).hostDone r).reqOver r
    | (s1, bad, _, c :: late) => (s1.updReq r.id fun r => { r with op := .kept (bad ++ c :: late) sight }).rejectReq r
    | (s1, bad, cause, []) =>
      if r.replay || s1.logRoom r.log then
        ({ s1.hostDone r with busy := s1.busy.filter fun b => b.req != r.id }.retireWrite { r with op := .kept bad sight } cause
          (8 * bad.length) sight).settleTicket r.ticket r.rank
      else (s1.updReq r.id fun r => { r with op := .kept bad sight }).rejectReq r
  | .atomic ao size x d count =>
    let (old, s1) := (if ao = 12 then s else s.claimFor r).atomicOld r size
    let s2 := if ao = 12 then s1 else s1.atomicStore r size (atomicOp ao size old x)
    match d with
    | none => (s2.settleTicket r.ticket r.rank).reqOver r
    | some d => give s2 (globalWrites t d size old (count.map fun c => (c, s2.cellCount r)))
  | .cas size cmp new d =>
    let (old, s1) := (s.claimFor r).atomicOld r size
    give (if old = cmp then s1.atomicStore r size new else s1) (globalWrites t d size old none)
  | .probe d =>
    let (lead, s1) := s.leadRead r.asid r.pa
    give s1 (globalWrites t d 16 (lead.toNat + 2 ^ 64 * (s.arrival slice + 2 ^ 56 * s.cellCount r)) none)
  | .sibling field k d count =>
    let (lead, s1) := s.leadRead r.asid r.pa
    let v := match (s.versions r.pa)[k]? with
      | none => 0
      | some (v, arr, grp) => match field with
        | 0 => if k = 0 then lead.toNat else v.toNat
        | 1 => arr
        | _ => grp
    give s1 (globalWrites t d 8 v (count.map fun c => (c, s.cellCount r)))
  | .recon op basis arg d =>
    let s0 := if (s.reconSet r op basis arg).isEmpty then s else s.claimFor r
    let s1 := s0.collapse r op arg (s0.reconSet r op basis arg)
    let now := s1.versions r.pa
    let lead := now.headD (0, 0, 0)
    let (value, s2) := s1.leadRead r.asid r.pa
    give s2 (globalWrites t d 16 (value.toNat + 2 ^ 64 * (lead.2.1 + 2 ^ 56 * now.length)) none)
  | .launch ranks d =>
    match s.launchStep r ranks d with
    | some s1 => s1.reqOver r
    | none => s.rejectReq r
  | .spawn records ranks tryP =>
    match s.spawnStep r records ranks tryP with
    | .done s1 => ({ s1 with ends := s1.ends ++ [(r.id, ReqEnd.done)] } : State).reqOver r
    | .refused c a i =>
      -- a record off the fabric that its queue refuses is dropped with a loss note of the interface (R319)
      if r.team = 0 then (s.postLoss r.job records.length (r.src - 4)).reqOver { r with ord := 0 }
      else (s.refuseWord r c a i).reqOver { r with ord := 0 }
    | .retry s1 => s1.rejectReq r
    | .hold s1 va => (s1.rejectReq r).updReq r.id fun r => { r with holdVa := some va }
  | .pop steal ranks d =>
    match s.popStep r steal ranks d with
    | .done s1 => ({ s1 with ends := s1.ends ++ [(r.id, ReqEnd.done)] } : State).reqOver r
    | .refused c a i => (s.refuseWord r c a i).reqOver { r with ord := 0 }
    | .retry s1 => s1.rejectReq r
    | .hold s1 va => (s1.rejectReq r).updReq r.id fun r => { r with holdVa := some va }
  | .hostRead n agent caches =>
    let (bs, s1) := s.homeRead r.asid r.pa n
    let s2 := if caches && decide (agent < 16) then s1.takeLine (r.pa / 128) (agent + 1) else s1
    ({ s2 with outputs := s2.outputs ++ [Output.hostData (some bs)] } : State).reqOver r
  | .walk .. | .mapEntry .. | .acquire .. => s

/-! ### Service (R204) -/

/-- The bytes of its line that a request touches, and whether it writes. -/
def HomeReq.touches (r : HomeReq) : Nat × Nat × Bool :=
  match r.op with
  | .fill _ => (r.pa / 128 * 128, 128, false)
  | .read _ n | .hostRead n _ _ => (r.pa, n, false)
  | .write bytes =>
    let lo := bytes.foldl (fun m p => min m p.1) 127
    let hi := bytes.foldl (fun m p => max m p.1) 0
    (r.pa / 128 * 128 + lo, hi + 1 - lo, true)
  | .atomic ao size _ _ _ => (r.pa, size, ao != 12)
  | .cas size _ _ _ => (r.pa, size, true)
  | .probe _ | .sibling .. => (r.pa, 8, false)
  | .launch .. => (r.pa, 128, false)
  | .spawn .. | .pop .. => (r.pa, 64, true)
  | _ => (r.pa, 8, true)

/-- A slice whose arrival count is exhausted rejects every request that would take an arrival (R216). -/
def State.noArrival (s : State) (r : HomeReq) : Bool :=
  s.exhausted (homeSlice r.pa r.leaf) && leafK r.leaf &&
    match r.op with
    | .kept .. => true
    | .cas size cmp _ _ => ((s.claimFor r).atomicOld r size).1 == cmp
    | .recon op basis arg _ => !(s.reconSet r op basis arg).isEmpty
    | .atomic ao _ _ _ _ => ao != 12
    | _ => false

/-- Acknowledgements that a write waits for, with the snoops sent (R202, R395): one from the guest slice, one for each
half from each recorded host agent. -/
def State.invalidations (s : State) (line : Nat) : Nat × List Output :=
  match s.dirEntry? line with
  | none => (0, [])
  | some d =>
    let hosts := d.targets.filter (· != 0)
    ((if d.targets.contains 0 then 1 else 0) + 2 * hosts.length,
     hosts.flatMap fun a => [.biSnpInv (2 * line) a, .biSnpInv (2 * line + 1) a])

/-- The kept cells that a request acts on. -/
def HomeReq.cells (r : HomeReq) : List Nat :=
  match r.op with
  | .fill _ | .launch .. => (List.range 16).map fun j => r.pa / 128 * 16 + j
  | .read _ n | .hostRead n _ _ => (List.range ((r.pa % 8 + n + 7) / 8)).map fun j => r.pa / 8 + j
  | .spawn .. | .pop .. => (List.range 8).map fun j => r.pa / 8 + j
  | .kept cells _ => cells.map fun c => r.pa / 128 * 16 + c.1
  | .atomic .. | .cas .. | .probe _ | .sibling .. | .recon .. => [r.pa / 8]
  | _ => []

/-- Kept writes that leave more versions behind the leads than the Hayloft of their slice holds, so that some move to the
spill area (R221). -/
def State.mustSpill (s : State) (r : HomeReq) : Bool :=
  match r.op with
  | .kept cells sight =>
    let more := cells.map fun c =>
      let pa := r.pa / 128 * 128 + 8 * c.1
      (s.unseen pa sight r.group).length - ((s.versions pa).length - 1)
    decide (12288 < s.hayloft (homeSlice r.pa r.leaf) + more.foldl (· + ·) 0)
  | _ => false

/-- A request needs memory or a spill access: a line of HBM that it touches is not in L2 or its policy goes to the memory
controller, a version of its cell lies in the spill area, or one must move there (R204, R221, R354). -/
def State.needsMemory (s : State) (r : HomeReq) : Bool :=
  (decide (r.pa < 2 ^ 39) &&
    (r.pl == 2 || (s.l2Line? r.pa).isNone || (r.cells.any fun c => ((s.keptCell? (8 * c)).map (·.spilled)).getD 0 != 0) ||
     s.mustSpill r)) ||
  (s.ringLines r).any fun l => decide (128 * l < 2 ^ 39) && (s.l2Line? (128 * l)).isNone

/-- A request of the same slice became aged before this one and waits for an entry of the same kind, which it takes first
(R207). -/
def State.agedAhead (s : State) (r : HomeReq) (wants : Nat) : Bool :=
  s.reqs.any fun e => e.id != r.id && e.wants == wants && homeSlice e.pa e.leaf == homeSlice r.pa r.leaf &&
    (match e.state with
      | .rejected _ | .sent => true
      | _ => false) &&
    match e.aged, r.aged with
    | some x, some y => decide (x < y)
    | some _, none => true
    | none, _ => false

/-- A request takes a miss entry, of which a slice has 2,048, 64 of them for aged requests, and holds its busy lines until
the acknowledgements or grants have come for which the outputs ask (R202, R204, R206). -/
def State.makeBusy (s : State) (r : HomeReq) (lines : List (Nat × Nat)) (out : List Output) : State :=
  let used := (s.reqs.filter fun e => e.id != r.id && e.state == .busy && homeSlice e.pa e.leaf == homeSlice r.pa r.leaf).length
  if r.state != .busy && ((if r.aged.isSome then 2048 else 1984) ≤ used || s.agedAhead r 2) then s.rejectReq r 2
  else
    let s1 : State := { s with
      busy := (s.busy.filter fun b => b.req != r.id) ++ lines.map fun p => { line := p.1, req := r.id, acks := p.2 }
      outputs := s.outputs ++ out }
    s1.updReq r.id fun r => { r with state := .busy }

/-- The bytes that a request writes in its own line and in its ring lines turn their host halves from E to M (R393). -/
def State.ownHalves (s : State) (r : HomeReq) : State :=
  let (a, n, w) := r.touches
  let mine := if w && isHost r.pa then (List.range 2).filterMap fun i =>
      if a / 64 + i ≤ (a + n - 1) / 64 then some (a / 64 + i) else none
    else []
  let ring := ((s.ringCells r).filter isHost).map (· / 64)
  (mine ++ ring).foldl (fun (s : State) h => s.setHalf h (some .modified)) s

/-- A request performs at its home: the lines that it touches come into L2, or leave it for a write under policy 2 (R354), and
the versions of its cells are in the Hayloft (R221). -/
def State.atHome (s : State) (r : HomeReq) : State :=
  if s.noArrival r then s.rejectReq r
  else
    let s0 := ((s.ringLines r).filter fun l => isHost (128 * l) || decide (128 * l < 2 ^ 39)).foldl
      (fun (s : State) l => s.enterL2 (homeSlice (128 * l) 0) l) (s.ownHalves r)
    if isHost r.pa then (s0.enterL2 (homeSlice r.pa r.leaf) (r.pa / 128)).homePerform r
    else if 2 ^ 39 ≤ r.pa then s0.homePerform r
    else
      let s1 := if r.pl ≠ 2 then s0.enterL2 (homeSlice r.pa r.leaf) (r.pa / 128)
        else if r.touches.2.2 then s0.leaveL2 (r.pa / 128) else s0
      (r.cells.foldl (fun (s : State) c => s.touchKept (8 * c)) s1).homePerform r

/-- A busy request whose acknowledgements and grants have come performs at its next service, when memory has answered. -/
def State.memoryDue (s : State) (r : HomeReq) : Bool :=
  r.state == .busy && s.busy.all fun b => b.req != r.id || b.acks == 0

/-- What a request needs before it performs, for each line that it touches: the line, the acknowledgements or grants, and
what asks for them (R202, R393). A SPAWN writes into the lines of its ring records too. -/
def State.lineNeeds (s : State) (r : HomeReq) : List (Nat × Nat × List Output) :=
  let (a, n, w) := r.touches
  let grants := fun (hs : List (Nat × Bool)) => (hs.length, hs.map fun p => if p.2 then Output.rdOwn p.1 else Output.rdShared p.1)
  let own := if isHost r.pa then grants (s.halfNeeds a n w) else if w then s.invalidations (r.pa / 128) else (0, [])
  (r.pa / 128, own) :: (s.ringLines r).map fun l =>
    (l, if isHost (128 * l) then
          grants ((((s.ringCells r).filter fun pa => pa / 128 == l).flatMap fun pa => s.halfNeeds pa 16 true).eraseDups)
        else s.invalidations l)

/-- A request whose line is free is served: at once, or after the grants, acknowledgements or memory it needs, with every
line busy that it touches (R202, R204). -/
def State.serveReq (s : State) (r : HomeReq) : State :=
  let needs := s.lineNeeds r
  if s.noArrival r then s.rejectReq r
  else if needs.any fun p => s.busy.any fun b => b.line == p.1 && b.req != r.id then s
  else if (needs.all fun p => p.2.1 == 0) && (r.state == .busy || !s.needsMemory r) then s.atHome r
  else s.makeBusy r (needs.map fun p => (p.1, p.2.1)) (needs.flatMap fun p => p.2.2)

/-- The requests listed at a line, and those of a slice. -/
def HomeReq.isListed (r : HomeReq) : Bool :=
  match r.state with
  | .listed _ => true
  | _ => false
def HomeReq.listedAt (r : HomeReq) : Nat :=
  match r.state with
  | .listed n => n
  | _ => 0

/-- A request arrives at its slice: served, listed behind a busy line, or rejected when the list is full (R204, R207). -/
def State.arriveReq (s : State) (r : HomeReq) : State :=
  let line := r.pa / 128
  let ahead := s.reqs.filter fun e => e.id != r.id && e.isListed && e.pa / 128 == line &&
    (!r.isListed || decide (e.listedAt < r.listedAt))
  if (s.busy.any fun b => b.line == line && b.req != r.id) || !ahead.isEmpty then
    if r.isListed then s
    else
      let used := (s.reqs.filter fun e => e.isListed && homeSlice e.pa e.leaf == homeSlice r.pa r.leaf).length
      if used < (if r.aged.isSome then 512 else 480) && !s.agedAhead r 1 then
        { s with nextId := s.nextId + 1 }.updReq r.id fun r => { r with state := .listed s.nextId }
      else s.rejectReq r 1
  else s.serveReq r

/-! ### The map units' own steps (R213, R214, R229) -/

/-- Take a dirty line's data in one step at the share and send it home, or retire it where its page does not translate
or does not allow the write (R213, R228). The clean bytes of a partial line, which its page does not let a fill read, are
taken from the leads at the home (DEDUCED, notes/assumptions/98.md). -/
def State.takeLineData (s : State) (r : HomeReq) (l : RegionLine) (hi : Nat) : State :=
  let c := s.cluster r.cluster
  match c.mapping l.line with
  | none => s.updReq r.id fun r => { r with op := .walk (l.line + 1) hi }
  | some (_, reg, va) =>
    let data := readBytes c.pool l.line 128
    let cells := (List.range 16).filter fun j => bits l.mask (8 * j + 7) (8 * j) != 0
    let vals := cells.map fun j => (j, BitVec.ofNat 64 (fromBytes ((data.drop (8 * j)).take 8)))
    let bytes := ((List.range 128).filter fun i => l.mask.testBit i).map fun i => (i, data.getD i 0)
    let quad := c.quadOf l.line
    let clean := fun (s : State) =>
      (s.setLine r.cluster { l with mask := 0, st := if l.st == .dirty then .clean else l.st }).updReq r.id
        fun r => { r with op := .walk (l.line + 1) hi }
    let base : HomeReq := { team := r.team, rank := r.rank, cluster := r.cluster, job := r.job, asid := r.asid, sys := r.sys,
                            va, group := c.group, pl := regPl reg, back := true, log := quad, mask := l.mask, src := quad,
                            merge := l.st == .partialLine }
    match s.translate r.asid va r.sys { w := true } with
    | (.ok pa e, s1) =>
      let sight := max (c.sight (homeSlice pa e)) l.basis
      let op := if leafK e then HomeOp.kept vals sight else .write bytes
      let (id, s2) := (clean s1).sendReq { base with pa, leaf := e, op, kind := if leafK e then 2 else 0 }
      s2.updReq r.id fun r => { r with after := r.after ++ [id] }
    | (.fail cause _, s1) =>
      if s1.logRoom quad then
        let sight := max l.basis c.lowSight
        let id := s1.nextId
        let s2 : State := { clean s1 with nextId := id + 1 }
        (s2.retireWrite { base with id, op := .kept vals sight } cause.code bytes.length sight).updReq r.id
          fun r => { r with after := r.after ++ [id] }
      else s

/-- One visit of a write-back walk: the next dirty line in ascending order; a partial one is made whole first where its
page can be read (R213). With no line left the walk ends once its writes are accepted, or side-logged where it is no
release. -/
def State.walkStep (s : State) (r : HomeReq) (lo hi : Nat) : State :=
  if r.stage = 0 then s.updReq r.id fun r => { r with stage := 1, after := [] }
  else
    let c := s.cluster r.cluster
    let due := c.lines.filter fun l => l.mask != 0 && decide (lo ≤ l.line) && decide (l.line < hi)
    match due.foldl (fun (b : Option RegionLine) l => match b with
        | none => some l
        | some x => if l.line < x.line then some l else b) none with
    | none =>
      if (s.flying (r.ord == 3) r.after).isEmpty then (s.settleTicket r.ticket r.rank).dropReq r.id else s
    | some l =>
      if l.st == .filling then s
      else if l.st == .partialLine then
        match c.mapping l.line with
        | some (_, _, va) =>
          match s.translate r.asid va r.sys { r := true } with
          | (.ok _ _, s1) => if s1.fillRoom r.cluster l.line 992 then s1.startFill r.cluster l.line r.sys else s1
          | (.fail _ _, s1) => s1.takeLineData r l hi
        | none => s.takeLineData r l hi
      else s.takeLineData r l hi

/-- Dirty region lines of entry `idx` of a cluster (R213, R229). -/
def Cluster.dirtyOf (c : Cluster) (idx : Nat) : List RegionLine :=
  c.lines.filter fun l => l.mask != 0 && match c.mapping l.line with
    | some (i, _, _) => i == idx
    | none => false

/-- A region map entry takes its new image: the lines of the old and of the new ranges are absent, their fills are
cancelled, and the accesses that wait on them are served as the new map says (R229). -/
def State.putEntry (s : State) (cluster idx : Nat) (reg : Option Region) : State :=
  let old := s.cluster cluster
  let now : Cluster := { old with regions := old.regions.set idx reg }
  let gone := fun (l : RegionLine) => match old.mapping l.line, now.mapping l.line with
    | some (i, _, _), some (j, _, _) => !(i == j && i != idx)
    | _, _ => true
  let s1 := (s.countUnused cluster gone).updCluster cluster fun c =>
    { c with regions := c.regions.set idx reg, lines := c.lines.filter fun l => !gone l }
  let s2 := (old.lines.filter gone).foldl (fun (s : State) l => l.prefs.foldl (fun (s : State) p => s.settleTicket p.1 p.2) s) s1
  s2.rescan cluster

/-- The pool ranges of a region: first key and length. -/
def Region.ranges (r : Region) : List (Nat × Nat) := (List.range (r.planes + 1)).map fun k => (planeStart r k, regLen r)

/-- A step of the change of a map entry (R229): every dirty line of the entry as it stands now is written back, and once
they are accepted or side-logged and none is dirty, the entry is replaced. -/
def State.mapStep (s : State) (r : HomeReq) (idx : Nat) (reg : Option Region) : State :=
  let c := s.cluster r.cluster
  let ranges := match (c.regions[idx]?).join with
    | some old => if regV old then old.ranges else []
    | none => []
  if !(s.flying false r.after).isEmpty then s
  else if (r.stage = 0 && !ranges.isEmpty) || !(c.dirtyOf idx).isEmpty then
    let (ids, s1) := ranges.foldl (fun (p : List Nat × State) q =>
      let (id, s) := p.2.sendReq { r with ticket := 0, after := [], stage := 0, op := .walk q.1 (q.1 + q.2) }
      (p.1 ++ [id], s)) (([] : List Nat), s)
    s1.updReq r.id fun r => { r with stage := 1, after := ids }
  else ((s.putEntry r.cluster idx reg).addResult r.ticket r.team r.rank .nothing).dropReq r.id

/-- A request reaches its home: the home's die runs and the seam, where it lies between, works. -/
def State.reaches (s : State) (r : HomeReq) : Bool :=
  let home := homeDie r.pa r.leaf
  s.hasDie home && s.up.getD home false && (s.seam || home == placeDie r.src)

/-- HOME_REQUEST_SERVICE: a request that nothing must precede is served at its slice, or the next step of a release, of
a write-back walk, of a map entry or of an acquire is taken. A busy request that has its acknowledgements performs. -/
def execHomeRequestService (id : Nat) (s : State) : Host.Outcome State Fault Refusal :=
  .next <| match s.reqs.find? fun r => r.id == id && (r.state == .sent || r.isListed || s.memoryDue r) with
  | none => s
  | some r =>
    if r.state == .busy then s.atHome r
    else if !(s.reqHolds r).isEmpty then s
    else match r.op with
      | .walk lo hi => s.walkStep r lo hi
      | .mapEntry idx reg => s.mapStep r idx reg
      | .acquire inv =>
        (if inv then s.acquireRegions r.cluster r.sc else s).updReq r.id fun r => { r with state := .refreshing }
      | _ =>
        if r.releasing then s.releaseStep r
        else
          let (r1, s1) := s.startReq r
          if (s1.reqAhead r1).isEmpty && s1.reaches r1 then s1.arriveReq r1 else s1

/-- INVALIDATION_ACK: one acknowledgement for a busy line; after the last the directory forgets the line, and the request
performs once none of its lines waits for another (R202). -/
def execInvalidationAck (line : Nat) (s : State) : Host.Outcome State Fault Refusal :=
  .next <| match s.busy.find? fun b => b.line == line && b.acks != 0 with
  | none => s
  | some b =>
    if isHost (128 * line) then s
    else
      let s1 : State := { s with
        busy := s.busy.map fun (x : Busy) => if x.line == line then { x with acks := x.acks - 1 } else x,
        dir := if b.acks = 1 then s.dir.filter fun d => d.line != line else s.dir }
      match s1.reqs.find? fun r => r.id == b.req with
      | none => { s1 with busy := s1.busy.filter fun x => x.req != b.req }
      | some r => if s1.memoryDue r then s1.serveReq r else s1

/-- HOME_REQUEST_RETRY: a rejected request is sent again 64 clocks later (R207). -/
def execHomeRequestRetry (id : Nat) (s : State) : Host.Outcome State Fault Refusal :=
  .next <| match s.reqs.find? fun r => r.id == id with
  | none => s
  | some r =>
    match r.state with
    | .rejected t =>
      if t ≤ s.dieClock (placeDie r.src) then { s with nextId := s.nextId + 1 }.updReq id fun r => { r with state := .sent, seq := s.nextId } else s
    | _ => s

/-- SIGHT_REFRESH_COMPLETE: the vector takes the slices' counts, and what waited for the refresh ends (R219, R352). -/
def execSightRefreshComplete (cluster : Nat) (s : State) : Host.Outcome State Fault Refusal :=
  let gone := s.reqs.filter fun r => r.cluster == cluster && r.state == .refreshing
  .next <|
    if gone.isEmpty then s
    else gone.foldl (fun (s : State) r =>
      (if r.op.local && r.ticket != 0 then s.addResult r.ticket r.team r.rank .nothing else s).dropReq r.id)
      (s.refreshSight cluster)

/-! ### Replay (R374) -/

/-- Two entries of one log are for the same line. -/
def SideEntry.sameLine (x e : SideEntry) : Bool :=
  x.log == e.log &&
    if e.req.kind = 4 || e.req.kind = 5 then x.req.pa / 128 == e.req.pa / 128 else x.req.asid == e.req.asid && x.req.va / 128 == e.req.va / 128

/-- Replay one side-log entry that is due: its line is translated anew and, where that succeeds, the write is sent to its
home. While an earlier entry for its line is due or on its way the entry waits for that one, since they perform in SEQ order;
behind an earlier entry that stays in the log its replay has failed, with no attempt of its own (R374; DESIGN CHOICE,
notes/assumptions/116.md). -/
def State.replayEntry (s : State) (e : SideEntry) : State :=
  let set := fun (s : State) (f : SideEntry → SideEntry) =>
    { s with side := s.side.map fun (x : SideEntry) => if x.req.id == e.req.id then f { x with due := false } else x }
  let fail := fun (s : State) (cause : Nat) => set s fun x => { x with att := min 0xFFFF (x.att + 1), cause }
  let send := fun (s : State) (r : HomeReq) =>
    { set s id with
      nextId := s.nextId + 1,
      reqs := s.reqs ++ [{ r with state := .sent, seq := s.nextId, replay := true, after := [], stage := 2, ticket := 0 }] }
  let flies := fun (x : SideEntry) => s.reqs.any fun r => r.id == x.req.id
  let before := (s.side.takeWhile fun x => x.req.id != e.req.id).filter fun x => x.sameLine e
  if flies e || before.any (fun x => x.due || flies x) then s
  else if !before.isEmpty then set s id
  else if e.req.kind = 4 || e.req.kind = 5 then send s e.req
  else
    match s.translate e.req.asid e.req.va e.req.sys { w := true, a := e.req.kind == 1 } with
    | (.fail c _, s1) => fail s1 c.code
    | (.ok pa leaf, s1) =>
      match e.req.op with
      | .kept cells sight =>
        if leafK leaf then send s1 { e.req with pa, leaf, op := .kept cells sight }
        else
          let bytes := cells.flatMap fun c => (List.range 8).filterMap fun i =>
            if e.req.mask.testBit (8 * c.1 + i) then some (8 * c.1 + i, BitVec.ofNat 8 (c.2.toNat / 256 ^ i)) else none
          send s1 { e.req with pa, leaf, op := .write bytes }
      | op => send s1 { e.req with pa, leaf, op }

/-- Side-log entries become due for replay. -/
def State.markDue (s : State) (p : SideEntry → Bool) : State :=
  { s with side := s.side.map fun (e : SideEntry) => if p e then { e with due := true } else e }

/-- Replay the entries of a log that are due, in SEQ order. -/
def State.tryLog (s : State) (log : Nat) : State :=
  (s.side.filter fun e => e.log == log).foldl (fun (s : State) e =>
    if s.side.any fun x => x.req.id == e.req.id && x.due then s.replayEntry e else s) s

/-- SIDE_LOG_REPLAY: the entries of a log that are due are replayed; every 4,096 clocks all of them are (R374). -/
def execSideLogReplay (log : Nat) (s : State) : Host.Outcome State Fault Refusal :=
  let now := s.dieClock (logDie log)
  .next <|
    if getKey s.replays log 0 + 4096 ≤ now then
      ({ s with replays := setKey s.replays log now 0 }.markDue fun e => e.log == log).tryLog log
    else s.tryLog log

/-- The host grants a half that Shegus asked for (R393, R401). -/
def State.grantAsked (s : State) (h : Nat) (own : Bool) (data : List Byte) : State :=
  if s.hostAsks.any fun a => a.1 == h then
    (({ s with mem := writeBytes s.mem (64 * h) (data.take 64),
               hostAsks := s.hostAsks.filter fun a => a.1 != h } : State).setHalf h (some (if own then .exclusive else .shared))).enterL2
      (homeSlice (64 * h) 0) (h / 2)
  else s

/-- HALF_GRANT: the host grants a half, with its data; the request goes on once its lines have all that they need (R393). -/
def execHalfGrant (pa : Nat) (own : Bool) (data : List Byte) (s : State) : Host.Outcome State Fault Refusal :=
  let h := pa / 64
  .next <| if !s.hostPortUp then s else match s.busy.find? fun b => b.line == h / 2 && b.acks != 0 with
  | none => s.grantAsked h own data
  | some b =>
    match s.reqs.find? fun r => r.id == b.req with
    | none => s
    | some r =>
      if !isHost pa then s
      else
        let s1 : State := { s with
          mem := writeBytes s.mem (64 * h) (data.take 64),
          busy := s.busy.map fun (x : Busy) => if x.line == b.line then { x with acks := x.acks - 1 } else x }
        let s2 := (s1.setHalf h (some (if own then .exclusive else .shared))).enterL2 (homeSlice (64 * h) r.leaf) (h / 2)
        if s2.memoryDue r then s2.serveReq r else s2

end Sys2Proof.Machine
end

