-- ==== Sys2Proof/Machine/Pool.lean ====
section
/-! DEFINITION. Pool loads, stores, full/empty forms, atomics and multicast stores, opcodes 0x70 to 0x77 (07_pool.md R180
to R189), and the arrival of their accesses at the shares. -/

namespace Sys2Proof.Machine

open Sys2Proof

/-! ### What comes first -/

/-- An access or request not yet started that the order of its thread keeps behind one of a list (R345). -/
def State.heldBehind (s : State) (kept : List Nat) (i : Nat) : Bool :=
  match s.accesses.find? fun a => a.id == i, s.reqs.find? fun r => r.id == i with
  | some a, _ => a.state == .sent && (s.holds a).any kept.contains
  | none, some r => r.state == .sent && (s.reqHolds r).any kept.contains
  | none, none => false

/-- A list, and the accesses and requests of a team that the order of their thread keeps behind something in it, from the
earliest on. -/
def State.allBehind (s : State) (team : Nat) (first : List Nat) : List Nat :=
  (sortNat (((s.accesses.filter fun a => a.team == team).map (·.id)) ++ (s.reqs.filter fun r => r.team == team).map (·.id))).foldl
    (fun kept i => if s.heldBehind kept i = true then kept ++ [i] else kept) first

/-- The accesses and requests of a team that wait behind an access of their own thread that is in a waiter list or has been
rejected, or behind a wait of their own thread for other threads or engines. -/
def State.resting (s : State) (team : Nat) : List Nat :=
  s.allBehind team (((s.accesses.filter fun a => a.team == team && a.state != .sent).map (·.id)) ++
    ((s.team team).tbar.flatten.map (·.2.1)) ++
    ((s.engineWaits.filter fun w => w.team == team && w.act.acquires).map (·.ticket)) ++
    (s.recvWaits.filter fun w => w.team == team && w.acq != 0).map (·.ticket))

/-- What is in flight and performs before an access. An access that a wait of its own thread keeps back takes no place in
its pair before that wait is over, or the thread that would end the wait could stand behind it for ever (R195, R199; DEDUCED,
notes/assumptions/37.md). -/
def State.blockers (s : State) (a : Access) : List Nat :=
  ((s.accesses.filter fun e => e.id != a.id && e.ahead a && !(s.resting e.team).contains e.id).map (·.id)) ++ s.holds a

/-! ### Issue -/

/-- The effective address of a format M or N pool word, the offset scaled by `size` (R37). -/
def poolEa (c : Ctx) (rank a x off offBits size : Nat) : Nat :=
  wrap 32 ((c.val rank a 1 : Int) + (c.val rank x 1 : Int) + toSigned offBits off * (size : Int))

/-- Occupancy of a pool word of so many bytes (R71, R182). -/
def poolOcc (size n : Nat) : Nat :=
  if size ≤ 4 then occOf n 4 else if size = 8 then occOf n 2 else if size = 16 then occOf n 1 else max 6 (2 * n)

/-- The layers whose planes a word moves (R169): none when the stride is zero. -/
def planesOf (c : Ctx) : List Nat := if c.tm.gplane.toNat % 2 ^ 32 = 0 then [] else c.g

/-- The address of plane `k` of a datum (R169). -/
def planeAddr (c : Ctx) (ea k : Nat) : Nat := (ea + k * (c.tm.gplane.toNat % 2 ^ 32)) % 2 ^ 32

/-- The first failing check of a list of addresses. -/
def firstFault (c : Ctx) (size : Nat) (ap : Bool) (eas : List Nat) : Option (Cause × Nat) :=
  eas.findSome? fun ea => (accessCheck c ea size ap).map fun cause => (cause, ea)

/-- A mapped line that an access of `size` bytes finds in need of a fill, or filling before its translation has ended,
holds the gang (R212): the first such line, with the access's address. A weak store goes on once the page is found not
present. Where no fill slot is free the access goes to its share, which rejects it (R206). -/
def lineHold (c : Ctx) (s : State) (eas : List Nat) (size : Nat) (reads weakStore : Bool) : Option (Nat × Nat) :=
  let cl := s.cluster c.tm.cluster
  eas.findSome? fun ea =>
    if ea / 2 ^ 30 ≠ 0 then none
    else (cl.linesIn (keyOf ea) size).findSome? fun line =>
      let l := cl.line line
      if (l.needsFill (keyOf ea) size reads && s.fillRoom cl.id line 992) ||
          (l.st == .filling && l.walked.isNone && !(l.missing && weakStore)) then some (line, ea)
      else none

/-- Hold a thread's access at its word for the walk of a line, whose fill starts if it has not (R212); it starts no fill
before the thread's acquires are complete (R352). -/
def holdLine (c : Ctx) (s : State) (rank line ea : Nat) (weakStore : Bool) : ThreadOut :=
  if ((s.cluster c.tm.cluster).line line).st == .filling then .hold s (.line c.tm.cluster line ea weakStore)
  else
    let ids := s.acquiring c.tm.id rank
    if !ids.isEmpty then .hold s (.flights ids)
    else .hold (s.startFill c.tm.cluster line c.gang.sys) (.line c.tm.cluster line ea weakStore)

/-- A word that reads an object in pool itself is held until the object's lines serve it (R210). -/
def State.fillWait (s : State) (cid key n : Nat) : Wait := .fill cid (s.fillingIn cid key n)

/-- The region line that an engine's access to a pool range must wait for, if any; its fill starts (R210, R248). An access
that is served touches its lines (R378). -/
def State.lineFor (s : State) (cid key n : Nat) (reads sys : Bool) : Option Nat × State :=
  match s.lineServes cid key n reads sys with
  | (true, s1) => (none, s1.touch cid key n)
  | (false, s1) => (some (s1.fillingIn cid key n), s1)

/-- The first region line that an engine must wait for before it can update the objects of `n` bytes at some pool
addresses. -/
def State.objectsFor (s : State) (cid n : Nat) (sys : Bool) (addrs : List Nat) : Option Nat × State :=
  addrs.foldl (fun (p : Option Nat × State) a => match p.1 with
    | some _ => p
    | none => p.2.lineFor cid (keyOf a) n true sys) (none, s)

/-- A word reads an object of `n` bytes at pool address `a` itself: why that keeps it, or the state in which it reads. -/
def objectWait (c : Ctx) (s : State) (rank a n : Nat) : Option ThreadOut × State :=
  match lineHold c s [a] n true false with
  | some (line, ea) => (some (holdLine c s rank line ea false), s)
  | none =>
    match s.lineServes c.tm.cluster (keyOf a) n true c.gang.sys with
    | (false, s1) => (some (.hold s1 (s1.fillWait c.tm.cluster (keyOf a) n)), s1)
    | (true, s1) => (none, s1.touch c.tm.cluster (keyOf a) n)

/-- One access that a word sends: address, size and operation. -/
structure Piece where
  ea   : Nat
  size : Nat
  op   : PoolOp

/-- Cut a pool access of 16 or 32 bytes into its 8-byte words, which perform on their own (R179). An aperture access
performs whole, at one moment (R108). -/
def cutLoad (ea size d plane : Nat) (zero : List Nat) (count : Option Nat) : List Piece :=
  if size ≤ 8 || ea / 2 ^ 30 = 3 then [{ ea, size, op := .load d plane zero count }]
  else (List.range (size / 8)).map fun j =>
    { ea := ea + 8 * j, size := 8, op := .load (if d = 255 then 255 else d + 2 * j) plane zero none }
def cutStore (ea size v : Nat) : List Piece :=
  if size ≤ 8 || ea / 2 ^ 30 = 3 then [{ ea, size, op := .store (toBytes size v) }]
  else (List.range (size / 8)).map fun j =>
    { ea := ea + 8 * j, size := 8, op := .store (toBytes 8 (v / 2 ^ (64 * j))) }

/-- Send the accesses of one plane, which perform after the accesses `after`; the numbers they take come with the state. -/
def sendPlane (c : Ctx) (rank ticket sc ord grp : Nat) (after : List Nat) : State → List Piece → List Nat × State
  | s, [] => ([], s)
  | s, p :: ps =>
    let ap := p.ea / 2 ^ 30 == 3
    let (id, s1) := (s.owe ticket rank 1).sendAccess
      { ticket, cluster := c.tm.cluster, team := c.tm.id, rank, src := coreSlot c.tm rank,
        dst := if ap then none else some (bits p.ea 29 24),
        key := if ap then p.ea % 2 ^ 19 else keyOf p.ea,
        size := p.size, sc, ord, sys := c.gang.sys, op := p.op, after, grp }
    let (ids, s2) := sendPlane c rank ticket sc ord grp after s1 ps
    (id :: ids, s2)

/-- Send planes, each of which performs after the one before it (R170). -/
def sendPlanes (c : Ctx) (rank ticket sc ord grp : Nat) : State → List (List Piece) → List Nat → State
  | s, [], _ => s
  | s, p :: ps, after =>
    let (ids, s1) := sendPlane c rank ticket sc ord grp after s p
    sendPlanes c rank ticket sc ord grp s1 ps ids

/-- Send the accesses of a thread's word: the planes of each set in their order, the sets in no order of their own
(R189). -/
def sendSets (c : Ctx) (rank ticket sc ord : Nat) (s : State) (sets : List (List (List Piece))) : State :=
  sets.foldl (fun (s1 : State) ps => sendPlanes c rank ticket sc ord s.nextId s1 ps []) s

/-- The g register of a word takes the lowest-ranked Active thread's value alone (R110). -/
def destFor (c : Ctx) (rank d : Nat) : Nat := if 192 ≤ d && d < 255 && rank ≠ c.lead then 255 else d

/-- A pool word: each Active thread's addresses are checked, its lines looked at, and its accesses sent (R179, R182). -/
def poolWord (i : Instr) (s : State) (occ : Ctx → Nat) (sc ord : Nat) (ap reads weakStore : Bool)
    (check : Ctx → Nat → Except (Cause × Nat) (List Nat × Nat)) (sets : Ctx → Nat → List (List (List Piece))) : State :=
  runWord i s fun c =>
    let (ticket, s0) := s.issue c.gid c.tm.id 0 (if c.act.isEmpty then [] else [c.lead])
    let out := runThreads (fun s rank =>
      match check c rank with
      | .error (cause, a) => .trap s cause a 0
      | .ok (eas, size) =>
        match firstFault c size ap eas with
        | some (cause, a) => .trap s cause a 0
        | none =>
          match lineHold c s eas size reads weakStore with
          | some (line, ea) => holdLine c s rank line ea weakStore
          | none => .ok (sendSets c rank ticket sc ord s (sets c rank))) (occ c) s0 c.act []
    match out with
    | .done s o => .done (s.settleTicket ticket c.lead) o
    | .trap s com cause a b => .trap (s.settleTicket ticket c.lead) com cause a b
    | .hold s com w => .hold (s.settleTicket ticket c.lead) com w
    | .left s => .left s

/-- The layers L whose planes a plain access moves: none in the aperture (R169). -/
def movedPlanes (c : Ctx) (ea : Nat) : List Nat := if ea / 2 ^ 30 = 3 then [] else planesOf c

/-- Addresses of a plain word: the primal and, under glaze and outside the aperture, its planes (R169). -/
def glazedEas (c : Ctx) (ea : Nat) : List Nat := ea :: (movedPlanes c ea).map fun k => planeAddr c ea k

/-- A plain word occupies 1 + |L| times R71's time, with the layers L that its threads move (R170). -/
def glazedOcc (c : Ctx) (size : Nat) (ea : Nat → Nat) : Nat :=
  (1 + (if c.act.all fun r => ea r / 2 ^ 30 == 3 then 0 else (planesOf c).length)) * poolOcc size c.act.length

/-- LDP. The count of C goes to the register after the data, and nowhere after zr or g62 (R44; DESIGN CHOICE,
notes/assumptions/108.md). -/
def execLdp (w : FmtM) (s : State) : Host.Outcome State Fault Refusal :=
  let size := 2 ^ w.w.toNat
  let n := wRegs w.w.toNat
  let ea := fun (c : Ctx) rank => poolEa c rank w.a.toNat w.x.toNat w.off.toNat 12 size
  .next (poolWord (.ldp w) s (fun c => glazedOcc c size (ea c)) w.sc.toNat w.or.toNat
    true true false (fun c rank => .ok (glazedEas c (ea c rank), size)) fun c rank =>
      let a := ea c rank
      let d := destFor c rank w.d.toNat
      let ks := movedPlanes c a
      let zero := (allLayers c.tm).filter fun k => !ks.contains k
      let count := if w.c = 1 && d < 255 then some (d + n) else none
      [cutLoad a size d 0 zero count :: ks.map fun k => cutLoad (planeAddr c a k) size d k [] none])

/-- The primal and plane values that a store writes, plane by plane. -/
def storePlanes (c : Ctx) (rank d n size a : Nat) (ks : List Nat) : List (List Piece) :=
  cutStore a size (c.val rank d n) :: ks.map fun k => cutStore (planeAddr c a k) size (c.tan rank k d n)

def execStp (w : FmtM) (s : State) : Host.Outcome State Fault Refusal :=
  let size := 2 ^ w.w.toNat
  let n := wRegs w.w.toNat
  let ea := fun (c : Ctx) rank => poolEa c rank w.a.toNat w.x.toNat w.off.toNat 12 size
  .next (poolWord (.stp w) s (fun c => glazedOcc c size (ea c)) w.sc.toNat w.or.toNat
    true false (w.or == 0) (fun c rank => .ok (glazedEas c (ea c rank), size)) fun c rank =>
      let a := ea c rank
      [storePlanes c rank w.d.toNat n size a (movedPlanes c a)])

/-- A form of one plain access per thread with an operation of its own. -/
def singleWord (i : Instr) (s : State) (size sc ord : Nat) (occ : Ctx → Nat) (reads weakStore : Bool) (ea : Ctx → Nat → Nat)
    (op : Ctx → Nat → PoolOp) : State :=
  poolWord i s occ sc ord false reads weakStore (fun c rank => .ok ([ea c rank], size)) fun c rank =>
    [[[{ ea := ea c rank, size, op := op c rank }]]]

def execLdpf (w : FmtM) (s : State) : Host.Outcome State Fault Refusal :=
  let size := 2 ^ w.w.toNat
  .next (singleWord (.ldpf w) s size w.sc.toNat w.or.toNat (fun c => poolOcc size c.act.length) true false
    (fun c rank => poolEa c rank w.a.toNat w.x.toNat w.off.toNat 12 size) fun c rank =>
      let d := destFor c rank w.d.toNat
      .loadFull d (w.c == 1) (if w.c = 1 && d < 255 then some (d + wRegs w.w.toNat) else none))

def execStpe (w : FmtM) (s : State) : Host.Outcome State Fault Refusal :=
  let size := 2 ^ w.w.toNat
  .next (singleWord (.stpe w) s size w.sc.toNat w.or.toNat (fun c => poolOcc size c.act.length) false (w.or == 0)
    (fun c rank => poolEa c rank w.a.toNat w.x.toNat w.off.toNat 12 size) fun c rank =>
      .storeEmpty (toBytes size (c.val rank w.d.toNat (wRegs w.w.toNat))))

/-- FESET occupies the time of a 4-byte store (R183). -/
def execFeset (w : FmtM) (s : State) : Host.Outcome State Fault Refusal :=
  .next (singleWord (.feset w) s 8 w.sc.toNat w.or.toNat (fun c => poolOcc 4 c.act.length) false (w.or == 0)
    (fun c rank => poolEa c rank w.a.toNat w.x.toNat w.off.toNat 12 8) fun c rank =>
      .setState (bit (c.val rank w.d.toNat 1) 0))

def execAtomp (w : FmtN) (s : State) : Host.Outcome State Fault Refusal :=
  let size := 2 ^ w.w.toNat
  let n := wRegs w.w.toNat
  .next (singleWord (.atomp w) s size w.sc.toNat w.or.toNat (fun c => poolOcc size c.act.length) true false
    (fun c rank => poolEa c rank w.a.toNat w.x.toNat w.off.toNat 8 size) fun c rank =>
      let d := destFor c rank w.d.toNat
      .atomic w.ao.toNat d (c.val rank w.d.toNat n) (if w.c = 1 && d < 255 then some (d + n) else none))

def execCasp (w : FmtA) (s : State) : Host.Outcome State Fault Refusal :=
  let n := tyRegs w.t.toNat
  .next (singleWord (.casp w) s (4 * n) (w.m.toNat / 4 % 8) (w.m.toNat % 4) (fun c => poolOcc (4 * n) c.act.length) true false
    (fun c rank => c.val rank w.s1.toNat 1) fun c rank =>
      .cas (destFor c rank w.d.toNat) (c.val rank w.s2.toNat n) (c.val rank w.s3.toNat n))

/-- The slots of a multicast mask. -/
def slotsOf (mask : Nat) : List Nat := (List.range 48).filter fun k => mask.testBit k

/-- A pool address with another slot. -/
def replica (a k : Nat) : Nat := setBits a 29 24 k

/-- R189's checks on the primal address and the mask, and then R169's on each plane's address: the first failing address
traps. -/
def mcstFault (c : Ctx) (size a mask : Nat) (planes : List Nat) : Option (Cause × Nat) :=
  let space := fun (x : Nat) =>
    if x % size ≠ 0 then some Cause.misaligned
    else if x / 2 ^ 30 = 3 then some .apertureBound
    else if x / 2 ^ 30 ≠ 0 then some .poolOutside
    else none
  let shares := fun (x : Nat) => (slotsOf (mask % 2 ^ 48)).findSome? fun k => accessCheck c (replica x k) size false
  (a :: planes).findSome? fun x =>
    (match space x with
      | some cause => some cause
      | none => if mask / 2 ^ 48 ≠ 0 then some .illegalOperand else shares x).map fun cause => (cause, x)

/-- MCST: one separate store per replica and plane; a mask of zero stores nothing and raises no trap (R189). The planes
of one replica perform in their order (R170). -/
def execMcst (w : FmtM) (s : State) : Host.Outcome State Fault Refusal :=
  let size : Nat := 2 ^ w.w.toNat
  let n := wRegs w.w.toNat
  let ea := fun (c : Ctx) rank => wrap 32 ((c.val rank w.a.toNat 1 : Int) + toSigned 12 w.off.toNat * (size : Int))
  let mask := fun (c : Ctx) rank => c.val rank w.x.toNat 2
  let planes := fun (c : Ctx) rank => (planesOf c).map fun k => planeAddr c (ea c rank) k
  .next (poolWord (.mcst w) s (fun c => (1 + (planesOf c).length) * poolOcc size c.act.length) w.sc.toNat w.or.toNat
    false false (w.or == 0) (fun c rank =>
      if mask c rank = 0 then .ok ([], size)
      else match mcstFault c size (ea c rank) (mask c rank) (planes c rank) with
        | some f => .error f
        | none => .ok ((slotsOf (mask c rank)).flatMap fun k => (ea c rank :: planes c rank).map fun x => replica x k, size)) fun c rank =>
      (slotsOf (mask c rank % 2 ^ 48)).map fun k =>
        cutStore (replica (ea c rank) k) size (c.val rank w.d.toNat n) ::
          (planesOf c).map fun l => cutStore (replica (planeAddr c (ea c rank) l) k) size (c.tan rank l w.d.toNat n))

/-! ### Arrival (R178, R183 to R185) -/

/-- The gang that is held until the share accepts an access (R192). -/
def State.acceptGang (s : State) (id : Nat) : Option Gang :=
  s.gangs.find? fun g => g.status == .held (.accept id) || g.status == .stopped (some (.accept id))

/-- Why the share refuses a barrier or ring wait that arrives again (R192, R197). -/
def State.refusal (s : State) (a : Access) : Option Cause :=
  let o := s.poolNat a.cluster a.key 16
  match a.op with
  | .barrier .. => if objTag o ≠ 0xA then some .invalidBarrier else none
  | .ring writer _ => if ringTag o ≠ 5 || bit o (if writer then 127 else 126) then some .ringMisuse else none
  | _ => none

/-- An access that its share refuses is over, and its thread's word traps precisely (R192). -/
def State.refuseAccess (s : State) (a : Access) (g : Gang) (cause : Cause) : State :=
  let s1 := (s.retireAccess a).settleTicket a.ticket a.rank
  let g1 := { g with done := g.done.erase a.rank }
  (s1.trapHeld g1 cause (addrOfKey a.key) 0).updGang g.id fun x =>
    if g.status == .stopped (some (.accept a.id)) && x.status == .fetch then { x with status := .stopped none } else x

/-- POOL_ACCESS_PERFORM: an access that nothing must precede arrives at its share. It is served, or it waits, or it is
rejected; one that its gang is held for may be refused. Every change of state makes the waiters be scanned. -/
def execPoolAccessPerform (id : Nat) (s : State) : Host.Outcome State Fault Refusal :=
  .next <| match s.accesses.find? fun a => a.id == id && a.state == .sent with
  | none => s
  | some a =>
    if a.op == .place || !(s.blockers a).isEmpty then s
    else match s.acceptGang id, s.refusal a with
      | some g, some cause => s.refuseAccess a g cause
      | _, _ =>
        match s.serve a with
        | (true, s1) => if a.dst.isSome then s1.rescan a.cluster else s1
        | (false, s1) =>
          let cl := s1.cluster a.cluster
          let late := (cl.linesIn a.key a.size).any fun x => (cl.line x).st == .filling && (cl.line x).prefetched
          let s2 := if late then s1.bump (s1.team a.team).quad 2 else s1
          s2.waitOrReject a

/-- POOL_ACCESS_RETRY: a rejected access is sent again once its time has come (R185, R207). -/
def execPoolAccessRetry (id : Nat) (s : State) : Host.Outcome State Fault Refusal :=
  .next <| match s.accesses.find? fun a => a.id == id with
  | none => s
  | some a =>
    match a.state with
    | .rejected t =>
      if t ≤ s.dieClock (s.accessDie a) then
        { s with nextId := s.nextId + 1,
                 accesses := s.accesses.map fun (e : Access) => if e.id == id then { e with state := .sent, seq := s.nextId } else e }
      else s
    | _ => s

end Sys2Proof.Machine
end

