-- ==== Sys2Proof/Machine/Global.lean ====
section
/-! DEFINITION. The global memory forms ATOMG, CASG, REDG, LDK, SIBL and RECON, opcodes 0x90 to 0x95 (08_global.md R225 to
R237): what they check and send at issue. Their work at the home is `State.homePerform`. -/

namespace Sys2Proof.Machine

open Sys2Proof

/-- The effective address of a global form: 64-bit base, sign-extended 32-bit index, scaled offset (R37). -/
def globalEa (c : Ctx) (rank a x off offBits size : Nat) : Nat :=
  wrap 64 ((c.val rank a 2 : Int) + toSigned 32 (c.val rank x 1) + toSigned offBits off * (size : Int))

/-- What a global word asks of each thread's access. -/
structure GlobalForm where
  align : Nat
  need  : Need
  sc    : Nat
  ord   : Nat
  pl    : Nat
  /-- A weak access to a page not present goes to the side log (REDG, R225). -/
  logs  : Bool := false

/-- A global word: each Active thread's address is checked and translated and its request sent (R225, R226). -/
def globalWord (i : Instr) (s : State) (occ : Ctx → Nat) (f : GlobalForm) (ea : Ctx → Nat → Nat)
    (op : Ctx → Nat → HomeOp) : State :=
  runWord i s fun c =>
    let (ticket, s0) := s.issue c.gid c.tm.id 1 (if c.act.isEmpty then [] else [c.lead])
    let asid := c.job.asid
    let out := runThreads (fun s rank =>
      let a := ea c rank
      let base : HomeReq :=
        { ticket, team := c.tm.id, rank, cluster := c.tm.cluster, job := c.tm.job, asid, sys := c.gang.sys, va := a,
          group := c.cluster.group, sc := f.sc, ord := f.ord, pl := f.pl, op := op c rank, src := c.tm.quad, log := c.tm.quad,
          kind := if f.logs then 1 else 0 }
      if a % f.align ≠ 0 then .trap s .misaligned a 0
      else
        match s.translate asid a c.gang.sys f.need with
        | (.ok pa e, s1) => .ok ((s1.owe ticket rank 1).sendReq { base with pa, leaf := e }).2
        | (.fail cause info, s1) =>
          if f.ord = 0 && (Trans.fail cause info).holds a then
            let s2 := s1.notePage asid a f.need.kind
            if !f.logs then .hold s2 (.page asid a)
            else if s2.logRoom c.tm.quad then
              let id := s2.nextId
              let s3 : State := { s2 with nextId := id + 1 }
              .ok (s3.retireWrite { base with id, ticket := 0 } cause.code (match base.op with
                | .atomic _ size _ _ _ => size
                | _ => 8) 0)
            else .hold s2 (.sideLog c.tm.quad)
          else .trap s1 cause a info) (occ c) s0 c.act []
    match out with
    | .done s o => .done (s.settleTicket ticket c.lead) o
    | .trap s com cause a b => .trap (s.settleTicket ticket c.lead) com cause a b
    | .hold s com w => .hold (s.settleTicket ticket c.lead) com w
    | .left s => .left s

/-- The register that takes a count, if any: none after zr, and what follows g62 is zr (R44; DESIGN CHOICE,
notes/assumptions/108.md). -/
def countOf (cbit d n : Nat) : Option Nat := if cbit = 1 && d < 255 then some (d + n) else none

def execAtomg (w : FmtN) (s : State) : Host.Outcome State Fault Refusal :=
  let size := 2 ^ w.w.toNat
  let n := wRegs w.w.toNat
  .next (globalWord (.atomg w) s (fun c => poolOcc size c.act.length)
    { align := size, need := { r := true, w := true, a := true }, sc := w.sc.toNat, ord := w.or.toNat, pl := w.pl.toNat }
    (fun c rank => globalEa c rank w.a.toNat w.x.toNat w.off.toNat 8 size) fun c rank =>
      let d := destFor c rank w.d.toNat
      .atomic w.ao.toNat size (c.val rank w.d.toNat n) (some d) (countOf w.c.toNat d n))

def execRedg (w : FmtN) (s : State) : Host.Outcome State Fault Refusal :=
  let size := 2 ^ w.w.toNat
  .next (globalWord (.redg w) s (fun c => poolOcc size c.act.length)
    { align := size, need := { w := true, a := true }, sc := w.sc.toNat, ord := w.or.toNat, pl := w.pl.toNat, logs := true }
    (fun c rank => globalEa c rank w.a.toNat w.x.toNat w.off.toNat 8 size) fun c rank =>
      .atomic w.ao.toNat size (c.val rank w.d.toNat (wRegs w.w.toNat)) none none)

/-- CASG: T names the width, M the scope and the order (R234). -/
def execCasg (w : FmtA) (s : State) : Host.Outcome State Fault Refusal :=
  let size := if w.t = 12 then 8 else 4
  let n := size / 4
  .next (globalWord (.casg w) s (fun c => poolOcc size c.act.length)
    { align := size, need := { r := true, w := true, a := true }, sc := bits w.m.toNat 4 2, ord := bits w.m.toNat 1 0, pl := 0 }
    (fun c rank => c.val rank w.s1.toNat 2) fun c rank =>
      .cas size (c.val rank w.s2.toNat n) (c.val rank w.s3.toNat n) (destFor c rank w.d.toNat))

def execLdk (w : FmtN) (s : State) : Host.Outcome State Fault Refusal :=
  .next (globalWord (.ldk w) s (fun c => poolOcc 16 c.act.length)
    { align := 8, need := { r := true, k := true }, sc := w.sc.toNat, ord := w.or.toNat, pl := w.pl.toNat }
    (fun c rank => globalEa c rank w.a.toNat w.x.toNat w.off.toNat 8 16) fun c rank => .probe (destFor c rank w.d.toNat))

/-- SIBL: X holds the version index and is not added to the address (R236). -/
def execSibl (w : FmtN) (s : State) : Host.Outcome State Fault Refusal :=
  .next (globalWord (.sibl w) s (fun c => poolOcc 8 c.act.length)
    { align := 8, need := { r := true, k := true }, sc := 0, ord := 0, pl := w.pl.toNat }
    (fun c rank => globalEa c rank w.a.toNat 255 w.off.toNat 8 8) fun c rank =>
      let d := destFor c rank w.d.toNat
      .sibling w.ao.toNat (c.val rank w.x.toNat 1) d (countOf w.c.toNat d 2))

/-- RECON: D:D+1 hold the basis, D+2:D+3 the index or the value (R237). -/
def execRecon (w : FmtN) (s : State) : Host.Outcome State Fault Refusal :=
  .next (globalWord (.recon w) s (fun c => poolOcc 16 c.act.length)
    { align := 8, need := { r := true, w := true, a := true, k := true }, sc := w.sc.toNat, ord := w.or.toNat, pl := w.pl.toNat }
    (fun c rank => globalEa c rank w.a.toNat w.x.toNat w.off.toNat 8 16) fun c rank =>
      let v := c.val rank w.d.toNat 4
      .recon w.ao.toNat (v % 2 ^ 56) (BitVec.ofNat 64 (v / 2 ^ 64)) (destFor c rank w.d.toNat))

end Sys2Proof.Machine
end

