-- ==== Sys2Proof/Machine/Regions.lean ====
section
/-! DEFINITION. The region forms RMAP, RFLUSH, RINV and RPREF, opcodes 0x84 to 0x87, and the two events of a region
line's fill (08_global.md R208 to R214, R229 to R231). -/

namespace Sys2Proof.Machine

open Sys2Proof

/-! ### RMAP (R208, R209, R229) -/

/-- The region entries that other entries of a cluster hold, or are on their way to (R209). -/
def State.otherRegions (s : State) (cluster idx : Nat) : List Region :=
  let c := s.cluster cluster
  ((List.range c.regions.length).filterMap fun j => if j = idx then none else (c.regions[j]?).join) ++
  s.reqs.filterMap fun r => if r.cluster = cluster then
      match r.op with
      | .mapEntry j (some o) => if j = idx then none else some o
      | _ => none
    else none

/-- The image is admitted as an entry of a cluster beside other entries (R208, R209). -/
def regionOk (c : Cluster) (others : List Region) (r : Region) : Bool :=
  let v := r.image.toNat
  !regV r ||
  (bits v 255 249 == 0 && bits v 63 16 == 0 && bits v 8 0 == 0 && regVbase r % 128 == 0 && regPbase r % 128 == 0 &&
   regLen r % 128 == 0 && decide (128 ≤ regLen r) && decide (regLen r ≤ 0x100000) && regGps r % 128 == 0 &&
   (regGl r || regGps r == 0) && [0, 3, 4, 5].contains (regIsc r) && decide (regPl r ≤ 2) &&
   ((List.range (r.planes + 1)).all fun k =>
     let a := (regPbase r + k * r.stride) % 2 ^ 32
     (poolCheck c a).isNone && (poolCheck c (a + regLen r - 1)).isNone && a / 2 ^ 24 == (a + regLen r - 1) / 2 ^ 24) &&
   others.all fun o => !regV o || r.ranges.all fun p => o.ranges.all fun q =>
     decide (p.1 + p.2 ≤ q.1) || decide (q.1 + q.2 ≤ p.1))

/-- A map unit's own request for a cluster. -/
def mapReq (c : Ctx) (rank ticket : Nat) (after : List Nat) (op : HomeOp) : HomeReq :=
  { ticket, team := c.tm.id, rank, cluster := c.tm.cluster, job := c.tm.job, asid := c.job.asid, sys := c.gang.sys,
    group := c.cluster.group, src := c.tm.quad, after, op }

/-- Send the change of an entry after the changes `earlier`; the entry's lines are written back before it (R229). -/
def sendMap (c : Ctx) (s : State) (rank ticket idx : Nat) (earlier : List Nat) (reg : Option Region) : Nat × State :=
  (s.owe ticket rank 1).sendReq (mapReq c rank ticket earlier (.mapEntry idx reg))

/-- Requests in flight that change entry `idx` of a cluster. -/
def State.mapping (s : State) (cluster idx : Nat) : List Nat :=
  (s.reqs.filter fun r => r.cluster == cluster && match r.op with
    | .mapEntry i _ => i == idx
    | _ => false).map (·.id)

/-- RMAP: the image of each Active thread is read and checked, then its entry is written back and replaced. -/
def execRmap (w : FmtE) (s : State) : Host.Outcome State Fault Refusal :=
  let idx := w.imm.toNat % 64
  .next (runWord (.rmap w) s fun c =>
    let cid := c.tm.cluster
    let (ticket, s0) := s.issue c.gid c.tm.id 5 (if c.act.isEmpty then [] else [c.lead])
    let out := runThreads (fun s rank =>
      let a := c.val rank w.s1.toNat 1
      match accessCheck c a 32 false with
      | some cause => .trap s cause a 0
      | none =>
        let probe : Access := { id := s.nextId, cluster := cid, team := c.tm.id, rank, src := coreSlot c.tm rank,
                                dst := some (bits a 29 24), key := keyOf a, size := 32, seq := s.nextId }
        let ids := s.blockers probe
        if !ids.isEmpty then .hold s (.flights ids)
        else
          match objectWait c s rank a 32 with
          | (some out, _) => out
          | (none, s1) =>
            let image := BitVec.ofNat 256 (s1.poolNat cid (keyOf a) 32)
            let r : Region := { image, planes := if bit image.toNat 9 then c.tm.depth else 0, stride := c.tm.gplane.toNat % 2 ^ 32 }
            if !regionOk (s1.cluster cid) (s1.otherRegions cid idx) r then .trap s1 .illegalOperand a 0
            else .ok (sendMap c s1 rank ticket idx (s1.mapping cid idx) (some r)).2) (occupancy c.act.length false) s0 c.act []
    match out with
    | .done s o => .done (s.settleTicket ticket c.lead) o
    | .trap s com cause a b => .trap (s.settleTicket ticket c.lead) com cause a b
    | .hold s com w => .hold (s.settleTicket ticket c.lead) com w
    | .left s => .left s)

/-- RMAP.unmap: the entry is written back and its V cleared. -/
def execRmapUnmap (w : FmtE) (s : State) : Host.Outcome State Fault Refusal :=
  let idx := w.imm.toNat % 64
  .next (runWord (.rmapUnmap w) s fun c =>
    let (ticket, s0) := s.issue c.gid c.tm.id 5 (if c.act.isEmpty then [] else [c.lead])
    match runThreads (fun s rank =>
      let old := ((s.cluster c.tm.cluster).regions[idx]?).join
      let off := old.map fun (r : Region) => { r with image := BitVec.ofNat 256 (setBits r.image.toNat 15 15 0) }
      .ok (sendMap c s rank ticket idx (s.mapping c.tm.cluster idx) off).2)
        (occupancy c.act.length false) s0 c.act [] with
    | .done s o => .done (s.settleTicket ticket c.lead) o
    | out => out)

/-! ### RFLUSH, RINV, RPREF (R230, R231) -/

/-- The range of a region form for a thread: none for every valid region. -/
def regionRange (c : Ctx) (w : FmtM) (rank : Nat) : Option (Nat × Nat) :=
  let ea := wrap 32 ((c.val rank w.a.toNat 1 : Int) + toSigned 12 w.off.toNat)
  let len := c.val rank w.d.toNat 1
  if len = 0 then none else some (ea, len)

/-- The checks of a range at its two ends. -/
def rangeFault (c : Ctx) : Option (Nat × Nat) → Option Cause
  | none => none
  | some (ea, len) =>
    let last := (ea + len - 1) % 2 ^ 32
    if ea / 2 ^ 30 = 3 || last / 2 ^ 30 = 3 then some .apertureBound
    else if (poolCheck c.cluster ea).isSome || (poolCheck c.cluster last).isSome || last < ea then some .poolOutside
    else none

/-- The keys of a range: first and one past the last. -/
def rangeKeys : Option (Nat × Nat) → Nat × Nat
  | none => (0, 48 * 2 ^ 20)
  | some (ea, len) => (keyOf ea, keyOf (ea + len - 1) + 1)

/-- A region form: each Active thread's range is checked and `f` runs on its keys with the word's ticket. -/
def regionWord (i : Instr) (w : FmtM) (s : State) (cls : Nat) (f : Ctx → State → Nat → Nat → Nat → Nat → State) : State :=
  runWord i s fun c =>
    let (ticket, s0) := s.issue c.gid c.tm.id cls (if c.act.isEmpty then [] else [c.lead])
    let out := runThreads (fun s rank =>
      let r := regionRange c w rank
      match rangeFault c r with
      | some cause => .trap s cause (r.getD (0, 0)).1 0
      | none => .ok (f c s rank ticket (rangeKeys r).1 (rangeKeys r).2)) (occupancy c.act.length false) s0 c.act []
    match out with
    | .done s o => .done (s.settleTicket ticket c.lead) o
    | .trap s com cause a b => .trap (s.settleTicket ticket c.lead) com cause a b
    | .hold s com w => .hold (s.settleTicket ticket c.lead) com w
    | .left s => .left s

/-- Accesses and requests of a thread that are in flight. -/
def State.earlier (s : State) (team rank : Nat) : List Nat :=
  ((s.accesses.filter fun a => a.team == team && a.rank == rank).map (·.id)) ++
  ((s.reqs.filter fun r => r.team == team && r.rank == rank && !r.back && r.cmd.isNone && !r.op.local).map (·.id))

/-- RFLUSH sends a walker over the lines that its range meets, which starts once the thread's earlier accesses have performed (R231). -/
def execRflush (w : FmtM) (s : State) : Host.Outcome State Fault Refusal :=
  .next (regionWord (.rflush w) w s 1 fun c s rank ticket lo hi =>
    let r := mapReq c rank ticket (s.earlier c.tm.id rank) (.walk (lo - 127) hi)
    ((s.owe ticket rank 1).sendReq { r with sc := w.sc.toNat, ord := w.or.toNat }).2)

/-- RINV travels to the shares it names as accesses of its own, one for each share. -/
def execRinv (w : FmtM) (s : State) : Host.Outcome State Fault Refusal :=
  .next (regionWord (.rinv w) w s 0 fun c s rank ticket lo hi =>
    (List.range (4 * c.cluster.quads.length)).foldl (fun (s : State) slot =>
      let a := max lo (slot * 2 ^ 20)
      let b := min hi ((slot + 1) * 2 ^ 20)
      if b ≤ a then s
      else ((s.owe ticket rank 1).sendAccess
        { ticket, cluster := c.tm.cluster, team := c.tm.id, rank, src := coreSlot c.tm rank, dst := some slot, key := a,
          size := b - a, op := .inv (w.w == 1) }).2) s)

/-- RPREF goes to the shares as one access for each line that its range meets, which starts the fill of an absent or
partial line; its counter falls with the ends of its fills. -/
def execRpref (w : FmtM) (s : State) : Host.Outcome State Fault Refusal :=
  .next (regionWord (.rpref w) w s 7 fun c s rank ticket lo hi =>
    ((s.cluster c.tm.cluster).linesIn lo (hi - lo)).foldl (fun (s : State) line =>
      ((s.owe ticket rank 1).sendAccess
        { ticket, cluster := c.tm.cluster, team := c.tm.id, rank, src := coreSlot c.tm rank, dst := some (line / 2 ^ 20),
          key := line, size := 128, sys := c.gang.sys, op := .prefetch }).2) s)

/-! ### The end of a walk (R212, R370) -/

/-- A line's fill ends without data: it is absent again, or partial where it holds dirty bytes. -/
def State.endFill (s : State) (cluster : Nat) (l : RegionLine) : State :=
  let s1 := s.setLine cluster { l with st := if l.mask = 0 then .absent else .partialLine, walked := none, missing := false,
                                       data := none, prefs := [], prefetched := false, drop := none }
  l.prefs.foldl (fun (s : State) p => s.settleTicket p.1 p.2) s1

/-- The gangs held at their word for the fill of a line. -/
def State.lineGangs (s : State) (cluster line : Nat) : List Gang :=
  s.gangs.filter fun g => match g.status with
    | .held (.line c l _ _) => c == cluster && l == line
    | .held (.fill c l) => c == cluster && l == line
    | _ => false

/-- The accesses on their way to the share, or at it, that wait for a region line. -/
def State.lineAccesses (s : State) (cluster line : Nat) : List Access :=
  s.accesses.filter fun a => a.cluster == cluster && a.dst.isSome && a.op.touches && decide (a.key < line + 128) &&
    decide (line < a.key + a.size)

/-- A weak store, which does not hold its gang while its page is not present (R212). -/
def Access.weakStore (a : Access) : Bool :=
  a.ord == 0 && match a.op with
    | .store _ | .storeEmpty _ | .setState _ => true
    | _ => false

/-- Discard an access unperformed; its thread takes the cause at its gang's next clause start (R212). -/
def State.discardAccess (s : State) (a : Access) (cause : Cause) : State :=
  (((s.retireAccess a).settleTicket a.ticket a.rank).updThread a.team a.rank fun t =>
    { t with pend := t.pend ++ [(cause, addrOfKey a.key)] }).fileReady

/-- An access that waits at the share for a line whose fill fails is over, unperformed: its gang, where the share has not
accepted the access yet and holds it at its word, takes the cause there; else its thread takes it at the gang's next clause
start, as for a weak store (R212; DESIGN CHOICE, notes/assumptions/99.md). -/
def State.failAccess (s : State) (a : Access) (cause : Cause) (info : Nat) : State :=
  match s.gangs.find? fun g => g.status == .held (.accept a.id) with
  | some g => ((s.retireAccess a).settleTicket a.ticket a.rank).trapHeld g cause (addrOfKey a.key) info
  | none => s.discardAccess a cause

/-- The accesses that a failed fill ends: weak stores, and those that wait at the share and cannot be served without it. -/
def State.failed (s : State) (cluster : Nat) (l : RegionLine) : List Access :=
  (s.lineAccesses cluster l.line).filter fun a => a.weakStore || (a.isWaiting && !a.op.isBarrier &&
    (((s.cluster cluster).line l.line).needsFill a.key a.size a.op.reads))

/-- The fill of a line fails with a cause other than not-present: the precise traps of the gangs held for it, the accesses
that it ends, and the engine lines and commands that wait for it (R212). -/
def State.failLine (s : State) (cluster : Nat) (l : RegionLine) (cause : Cause) (info : Nat) : State :=
  let s1 := s.endFill cluster l
  let s2 := (s.lineGangs cluster l.line).foldl (fun (s : State) g =>
    match g.status with
    | .held (.line _ _ addr _) => s.trapHeld g cause addr info
    | .held (.fill _ _) => s.trapHeld g cause (addrOfKey l.line) info
    | _ => s) s1
  let s3 := (s1.failed cluster l).foldl (fun (s : State) a => s.failAccess a cause info) s2
  let mine := fun (team : Nat) (w : Option Nat) => w == some l.line && (s.team team).cluster == cluster
  ({ s3 with
    commands := s3.commands.map fun (c : CopyCommand) =>
      let fail := fun (x : CopyLine) =>
        if !mine c.team x.waits then x
        else if c.faultAt == some x.idx then { x with waits := none }
        else { x with waits := none, deaf := true, fault := some cause.code }
      -- the object or ring that a faulted command cannot reach is left out (DESIGN CHOICE, notes/assumptions/100.md)
      let lost := c.lines.any fun x => c.faultAt == some x.idx && mine c.team x.waits
      let c1 : CopyCommand := { c with lines := c.lines.map fail, flts := if lost then c.flts.drop 1 else c.flts,
                                       unbinds := c.unbinds && !(lost && c.flts.isEmpty) }
      if mine c.team c.waits then
        { c1 with waits := none, ended := true, issued := c.issued + 1,
                  lines := c1.lines ++ [{ idx := c.issued, deaf := true, fault := some cause.code, gone := true }] }
      else c1,
    mcommands := s3.mcommands.map fun (c : MCommand) => match c.op with
      | .easld core row n addr failed =>
        if (s.team c.team).cluster == cluster && decide (keyOf addr < l.line + 128) && decide (l.line < keyOf addr + 64 * n)
        then { c with op := .easld core row n addr (l.line :: failed) } else c
      | _ => c,
    colls := s3.colls.map fun (k : CollCommand) =>
      if mine k.team k.waits then { k with waits := none, bar := none, ended := some (0, some cause.code) } else k } : State).rescan
    cluster

/-- Somebody waits for a line's fill: a gang, an access at the share, an engine, or a write-back walk (R213). -/
def State.lineWanted (s : State) (cluster line : Nat) : Bool :=
  !(s.lineGangs cluster line).isEmpty || !(s.lineAccesses cluster line).isEmpty ||
  (s.commands.any fun c => (s.team c.team).cluster == cluster && (c.waits == some line || c.lines.any fun l => l.waits == some line)) ||
  (s.colls.any fun k => (s.team k.team).cluster == cluster && k.waits == some line) ||
  (s.mcommands.any fun c => (s.team c.team).cluster == cluster && match c.op with
    | .easld _ _ n addr _ => decide (keyOf addr < line + 128) && decide (line < keyOf addr + 64 * n)
    | _ => false) ||
  s.reqs.any fun r => r.cluster == cluster && match r.op with
    | .walk lo hi => decide (lo ≤ line) && decide (line < hi)
    | _ => false

/-- A page walker is free for a fill: each die has 256, which take the fills in the order of their starts (R206). -/
def State.walkerFree (s : State) (die fid : Nat) : Bool :=
  decide (((s.clusters.map fun c => (c.lines.filter fun l => l.st == .filling && l.walked.isNone && !l.missing &&
    decide (l.fid < fid) && c.quadOf l.line / 32 == die).length).foldl (· + ·) 0) < 256)

/-- PAGE_WALK_COMPLETE: the walk for a filling line ends. A translation sends the read to the home; a page that is not
present keeps the line waiting where somebody wants it, and any other cause ends the fill. A fill under policy 2 issues its
memory read here, and takes its basis then (R211; DESIGN CHOICE, notes/assumptions/117.md). -/
def execPageWalkComplete (cluster line : Nat) (s : State) : Host.Outcome State Fault Refusal :=
  let c := s.cluster cluster
  let l := c.line line
  .next <|
    if l.st != .filling || l.walked.isSome || l.missing || !s.walkerFree (c.quadOf line / 32) l.fid then s
    else
      match c.mapping line with
      | none => s.endFill cluster l
      | some (_, r, va) =>
        let asid := (s.job c.job).asid
        match s.translate asid va l.sys { r := true } with
        | (.ok pa e, s1) =>
          let pl := max (regPl r) (leafCA e)
          let (id, s2) := s1.sendReq { cluster, job := c.job, asid, sys := l.sys, va, pa, leaf := e, group := c.group, pl, op := .fill line,
                                       src := c.quadOf line }
          s2.setLine cluster { l with walked := some (pa, e), req := id, basis := if pl = 2 then s1.arrival (homeSlice pa e) else l.basis }
        | (.fail cause info, s1) =>
          if !(Trans.fail cause info).holds va then s1.failLine cluster l cause info
          else if s1.lineWanted cluster line then (s1.setLine cluster { l with missing := true }).notePage asid va 0
          else s1.endFill cluster l

/-! ### The fill lands (R210, R211, R214) -/

/-- REGION_FILL_COMPLETE: the bytes with clear dirty bits, the words' counts and the line's state are set, and waiting
accesses are served. A line that an acquire met while it filled serves those that waited before the acquire, and is then
discarded but for its dirty bytes (R214). -/
def execRegionFillComplete (cluster line : Nat) (s : State) : Host.Outcome State Fault Refusal :=
  let c := s.cluster cluster
  let l := c.line line
  .next <| match l.st, l.data with
    | .filling, some (bs, counts) =>
      let pool := (List.range 128).foldl (fun m i =>
        if l.mask.testBit i then m else writeByte m (line + i) (bs.getD i 0)) c.pool
      let cnts := (List.range 16).foldl (fun m j => setKey m (line / 8 + j) (counts.getD j 1) 1) c.counts
      let s1 := s.updCluster cluster fun c => { c with pool, counts := cnts }
      let s2 := s1.setLine cluster { l with st := if l.mask = 0 then .clean else .dirty, walked := none, data := none, prefs := [],
                                            drop := none }
      let s3 := l.prefs.foldl (fun (s : State) p => s.settleTicket p.1 p.2) s2
      match l.drop with
      | none => s3.rescan cluster
      | some before =>
        let s4 := s3.serveLine cluster line before
        let l1 := (s4.cluster cluster).line line
        let s5 := if l1.prefetched then s4.bump (c.quadOf line) 3 else s4
        (s5.setLine cluster { l1 with st := if l1.mask = 0 then .absent else .partialLine, prefetched := false }).rescan cluster
    | _, _ => s

end Sys2Proof.Machine
end

