-- ==== Sys2Proof/Machine/MatrixCore.lean ====
section
/-! DEFINITION. The matrix complex (10_matrix.md R256 to R276, R289): reservations, banks, claims, one step of a loop, and
the commands of a team's queue. The instructions are in MatrixWords.lean. -/

namespace Sys2Proof.Machine

open Sys2Proof

/-! ### Records, names and resources (R257, R258, R262, R264) -/

def recNP (r : BitVec 128) : Nat := bits r.toNat 115 108
def recORG (r : BitVec 128) : Nat := bits r.toNat 107 95
def recSCB (r : BitVec 128) : Nat := bits r.toNat 94 85
def recSCA (r : BitVec 128) : Nat := bits r.toNat 84 72
def recBL (r : BitVec 128) : Nat := bits r.toNat 71 69
def recKB (r : BitVec 128) : Nat := bits r.toNat 68 67
def recKA (r : BitVec 128) : Nat := bits r.toNat 66 65
def recFB (r : BitVec 128) : Nat := bits r.toNat 63 48
def recFA (r : BitVec 128) : Nat := bits r.toNat 47 32

/-- Block length in elements (R262). -/
def blockLen (bl : Nat) : Nat := if bl = 0 then 0 else 2 ^ (bl + 2)

/-- The operand slot width of a kind and descriptor (R259). -/
def kindWidth (kind desc : Nat) : Nat :=
  match kind with
  | 0 => slotOf (descWidth desc)
  | 3 => 8
  | _ => 16

/-- A record is consistent (R262). -/
def recOk (r : BitVec 128) : Bool :=
  kindWidth (recKA r) (recFA r) == kindWidth (recKB r) (recFB r) && (recBL r == 0 || (recKA r == 0 && recKB r == 0)) &&
  decide (recBL r ≤ 4)

def State.matrixOf (s : State) (team : Nat) : Matrix := (s.matrix.find? fun m => m.team == team).getD { team }
def State.updMatrix (s : State) (team : Nat) (f : Matrix → Matrix) : State :=
  { s with matrix := s.matrix.map fun (m : Matrix) => if m.team == team then f m else m }

/-- The reservation that a slot name holds, and the bank that a bank name holds. -/
def Matrix.slot? (m : Matrix) (name : Nat) : Option PSlot := m.slots.find? fun p => p.name == some name
def Matrix.bank? (m : Matrix) (name : Nat) : Option Bank := m.banks.find? fun b => b.name == some name
def Matrix.slotId (m : Matrix) (id : Nat) : PSlot := (m.slots.find? fun p => p.id == id).getD {}
def Matrix.bankId (m : Matrix) (id : Nat) : Bank := (m.banks.find? fun b => b.id == id).getD {}
/-- The two banks of a tile, by their numbers. -/
def Matrix.tile? (m : Matrix) (t : Nat) : Option (Nat × Nat) :=
  match m.bank? (2 * t), m.bank? (2 * t + 1) with
  | some lo, some hi => some (lo.id, hi.id)
  | _, _ => none

/-- The easel window of a team in rows (R257). -/
def State.window (s : State) (team : Nat) : Nat :=
  match (s.grid (s.team team).grid).easel with
  | 0 => 0
  | k => 128 * 2 ^ k

/-- Panels and banks of a quad that are free. -/
def State.freePanels (s : State) (quad : Nat) : Nat :=
  128 - ((s.matrix.filter fun m => (s.team m.team).quad == quad).flatMap fun m => m.slots.map fun p => recNP p.record).foldl (· + ·) 0
def State.freeBanks (s : State) (quad : Nat) : Nat :=
  64 - ((s.matrix.filter fun m => (s.team m.team).quad == quad).map fun m => m.banks.length).foldl (· + ·) 0

def resSlot (id : Nat) : Nat := 4 * id
def resBank (id : Nat) : Nat := 4 * id + 1
def resEasel (core block : Nat) : Nat := 4 * (16 * core + block) + 2

/-- The team's commands. -/
def State.teamCommands (s : State) (team : Nat) : List MCommand := s.mcommands.filter fun c => c.team == team

/-- Reservations and banks without a name go once no command uses them (R265). -/
def State.sweepMatrix (s : State) (team : Nat) : State :=
  let used := (s.teamCommands team).flatMap fun c => c.reads ++ c.writes
  s.updMatrix team fun m =>
    { m with slots := m.slots.filter fun p => p.name.isSome || used.contains (resSlot p.id),
             banks := m.banks.filter fun b => b.name.isSome || used.contains (resBank b.id) }

/-- Set the bytes of a reservation, of a bank, or of an easel window. -/
def State.setRows (s : State) (team id : Nat) (f : List Host.Cell → List Host.Cell) : State :=
  s.updMatrix team fun m => { m with slots := m.slots.map fun (p : PSlot) => if p.id == id then { p with rows := f p.rows } else p }
def State.setBank (s : State) (team id : Nat) (f : List Host.Cell → List Host.Cell) : State :=
  s.updMatrix team fun m => { m with banks := m.banks.map fun (b : Bank) => if b.id == id then { b with bytes := f b.bytes } else b }

/-- The bank and the byte of element (row, column) of a tile (R258). -/
def tileAt (lo hi row col : Nat) : Nat × Nat := (if row < 32 then lo else hi, (row % 32 * 128 + col) * 4)
def Matrix.elem (m : Matrix) (lo hi row col : Nat) : Nat :=
  let p := tileAt lo hi row col
  readNat (m.bankId p.1).bytes p.2 4

/-! ### One step (R259 to R261, R267 to R270) -/

/-- The bits of a list of bytes as codes of width `w`, `n` of them. -/
def codesOf (bs : List Byte) (w n : Nat) : List Nat :=
  let v := fromBytes bs
  (List.range n).map fun i => v / 2 ^ (w * i) % 2 ^ w

/-- An operand: its value and sign bit, and whether its block's scale is 0x00. -/
structure MOpnd where
  val  : FVal := .fin false 0 0
  sign : Bool := false
  zero : Bool := false

/-- Decode a code of a kind, times its scale code where there is one (R127, R145, R148, R267). -/
def mOpnd (kind desc code : Nat) (scale : Option Nat) : MOpnd :=
  let v := match kind with
    | 0 => decodeNarrow desc code
    | 1 => decodeFp fp16 code
    | 2 => decodeFp bf16 code
    | _ => .fin (128 ≤ code) (if 128 ≤ code then 256 - code else code) 0
  let sign := match kind with
    | 0 => descSG desc && code / 2 ^ (descEB desc + descMB desc) % 2 == 1
    | 3 => decide (128 ≤ code)
    | _ => decide (2 ^ 15 ≤ code)
  match scale, v with
  | some 0, _ => { val := v, sign, zero := true }
  | some c, .fin s m e => { val := .fin s (m * (8 + c % 8)) (e + ((c / 8 : Nat) : Int) - 18), sign }
  | _, _ => { val := v, sign }

/-- The addends of one element: NaN codes, 0 × ∞, infinities and finite terms. -/
structure Addends where
  nan    : Bool := false
  made   : Bool := false
  infs   : List Bool := []
  terms  : List (Bool × Nat × Int) := []
  allNeg : Bool := true

/-- Add one term to the addends: a number with its sign. -/
def Addends.term (x : Addends) (v : FVal) : Addends :=
  match v with
  | .nan _ => { x with nan := true }
  | .inf s => { x with infs := s :: x.infs }
  | .fin s m e => if m = 0 then { x with allNeg := x.allNeg && s } else { x with terms := (s, m, e) :: x.terms }

/-- Add the product of two operands. -/
def Addends.product (x : Addends) (a b : MOpnd) : Addends :=
  if a.zero || b.zero then x.term (.fin (a.sign != b.sign) 0 0)
  else match a.val, b.val with
    | .nan _, _ | _, .nan _ => { x with nan := true }
    | .inf s, .inf t => x.term (.inf (s != t))
    | .inf s, .fin t m _ => if m = 0 then { x with made := true } else x.term (.inf (s != t))
    | .fin s m _, .inf t => if m = 0 then { x with made := true } else x.term (.inf (s != t))
    | .fin s m e, .fin t n f => x.term (.fin (s != t) (m * n) (e + f))

/-- The new value of an element and its events (R267, R268). -/
def Addends.sum (x : Addends) : Nat × Nat :=
  let mixed := x.infs.contains true && x.infs.contains false
  if x.nan then (0x7FC00000, 0)
  else if x.made || mixed then (0x7FC00000, evNaN)
  else match x.infs with
    | s :: _ => (fp32.inf s, 0)
    | [] =>
      if x.terms.isEmpty then (fp32.zero x.allNeg, 0)
      else
        let tops := x.terms.map fun t => t.2.2 + (bitLen t.2.1 : Int) - 1
        let q := tops.foldl max (tops.headD 0) - 56
        let total := x.terms.foldl (fun (acc : Int) t =>
          let k : Int := t.2.2 - q
          let mag : Nat := if 0 ≤ k then t.2.1 * 2 ^ k.toNat else t.2.1 / 2 ^ (-k).toNat
          if t.1 then acc - mag else acc + mag) 0
        if total = 0 then (0, 0)
        else
          let r := roundMag fp32 (rmodeOf 0) (decide (total < 0)) total.natAbs q false
          -- a matrix step counts an underflow only where the rounded result is subnormal
          if r.2 = evUnderflow && (bits r.1 22 0 == 0 || bits r.1 30 23 != 0) then (r.1, 0) else r

/-- K of a dense step, and its easel rows (R259). -/
def stepK (w : Nat) : Nat := match w with | 16 => 32 | 8 => 64 | _ => 128
def stepRows (w : Nat) : Nat := if w = 2 then 16 else 32

/-- One pass of a step: tile (`lo`, `hi`) takes A of reservation `slot` at row `p`, half `half`, times B at easel row `e`
(R173, R267 to R270). Answers the two banks and the events. -/
def matrixPass (m : Matrix) (a : LoopArgs) (lo hi slot p half : Nat) (e : Int) (step : Nat) : List Host.Cell × List Host.Cell × Nat :=
  let ps := m.slotId slot
  let r := ps.record
  let w := a.width
  let u := 16 / w
  let sparse := a.masks.isSome
  let k := stepK w * (if sparse then 2 else 1)
  let rows := stepRows w * (if sparse then 2 else 1)
  let bl := blockLen (recBL r)
  let rowBytes := if w = 2 then 32 else 64
  let nA := if sparse then k / 2 else k
  let easelRow := fun (c : Nat) (x : Int) => readBytes m.easel (c * 65536 + (x % (max a.window 1 : Nat)).toNat * 64) 64
  -- B by column, then by row of the step
  let bCol := (List.range 4).flatMap fun c =>
    let data := (List.range rows).map fun (i : Nat) => easelRow c (e + (i : Int))
    let scales := (List.range rows).map fun (i : Nat) => (List.range u).map fun (o : Nat) =>
      if bl = 0 then [] else easelRow c ((recSCB r : Int) + ((e + (i : Int)) * (u : Int) + (o : Int)) / (bl : Int))
    (List.range 32).map fun j => (List.range k).map fun x =>
      let i := x / u
      let o := x % u
      let unit := fromBytes (((data.getD i []).drop (2 * j)).take 2)
      mOpnd (recKB r) (recFB r) (unit / 2 ^ (w * o) % 2 ^ w)
        (if bl = 0 then none else some (((scales.getD i []).getD o []).getD j 0).toNat)
  let aRow := fun (i : Nat) =>
    let row := p + i
    let codes := codesOf (readBytes ps.rows (row * 64 + 32 * half) rowBytes) w nA
    let sc := readBytes ps.rows ((recSCA r + row) * 64) 64
    let ops := (List.range nA).map fun x =>
      mOpnd (recKA r) (recFA r) (codes.getD x 0) (if bl = 0 then none else some (sc.getD ((128 * half + x) / bl) 0).toNat)
    match a.masks with
    | none => ops
    | some ms =>
      let mask := (ms.getD (64 * step + i) 0).toNat
      let kept := (List.range (k / u)).filter fun d => mask.testBit d
      (List.range k).map fun x => match kept.findIdx? (· == x / u) with
        | some n => ops.getD (n * u + x % u) {}
        | none => {}
  let rowsOf := fun (bank base : Nat) => (List.range 32).foldl (fun (acc : List Host.Cell × Nat) i =>
    let as := aRow (base + i)
    (List.range 128).foldl (fun (acc : List Host.Cell × Nat) n =>
      let c := readNat (m.bankId bank).bytes ((i * 128 + n) * 4) 4
      let x0 : Addends := ({} : Addends).term (decodeFp fp32 c)
      let (v, ev) := ((as.zip (bCol.getD n [])).foldl (fun (x : Addends) q => x.product q.1 q.2) x0).sum
      (writeNat acc.1 ((i * 128 + n) * 4) 4 v, Nat.lor acc.2 ev)) acc) ((m.bankId bank).bytes, 0)
  let (l, e1) := rowsOf lo 0
  let (h, e2) := rowsOf hi 32
  (l, h, Nat.lor e1 e2)

/-- One step of a loop with its glazed passes: the matrix state after it and the classes of its events (R173, R274). -/
def matrixStep (m : Matrix) (a : LoopArgs) : Matrix × Nat :=
  let j := a.done
  let h := if a.width = 2 then 2 else 1
  let p := ((a.org : Int) + (j / h : Nat) * a.da).toNat
  let half := if h = 2 then j % 2 else 0
  let e : Int := (a.eb : Int) + j * a.db
  let put := fun (m : Matrix) (tile : Nat × Nat) (x : List Host.Cell × List Host.Cell × Nat) =>
    { m with banks := m.banks.map fun (b : Bank) =>
        if b.id == tile.1 then { b with bytes := x.1 } else if b.id == tile.2 then { b with bytes := x.2.1 } else b }
  let pass := fun (acc : Matrix × Nat) (tile : Nat × Nat) (slot : Nat) (e : Int) =>
    let x := matrixPass acc.1 a tile.1 tile.2 slot p half e j
    (put acc.1 tile x, Nat.lor acc.2 x.2.2)
  let tile := fun i => a.tiles.getD i (0, 0)
  let slot := fun i => a.slots.getD i 0
  (List.range a.layers.length).foldl (fun acc i =>
    let k := a.layers.getD i 0
    let acc1 := pass acc (tile (i + 1)) (slot (i + 1)) e
    pass acc1 (tile (i + 1)) (slot 0) (e + k * a.toff)) (pass (m, 0) (tile 0) (slot 0) e)

/-! ### Events of a step (R268) -/

/-- One numeric event of a class counts for a team; its action reaches the owner thread, or the lowest-ranked live
thread, or else the host. -/
def State.matrixEvent (s : State) (team owner cls : Nat) : State :=
  let r := (s.eventNow (s.team team) cls).toNat
  let s1 := s.updTeam team fun t => { t with events := t.events.set cls (eventNext r), winAt := t.winAt.set cls (s.windowClock t) }
  let act := bits r 2 1
  let trap := eventHit r && (act == 1 || act == 3)
  let live := (s.threads.filter fun t => t.team == team && !t.ended).map (·.rank)
  let s2 := if trap && !live.isEmpty then s1.pendThreshold team (if live.contains owner then owner else lowest live) cls else s1
  if (eventHit r && (act == 2 || act == 3)) || (trap && live.isEmpty) then s2.hostInterrupt 0 team cls else s2

/-! ### Running commands (R264, R280, R281, R284, R285, R289) -/

/-- A command is complete. -/
def State.endCommand (s : State) (c : MCommand) : State :=
  { s with mcommands := s.mcommands.filter fun x => x.id != c.id }.sweepMatrix c.team

/-- Every earlier command that shares a resource in a way that orders the two is complete. -/
def State.commandFree (s : State) (c : MCommand) : Bool :=
  (s.teamCommands c.team).all fun e =>
    !decide (e.id < c.id) || ((e.writes.all fun r => !c.reads.contains r && !c.writes.contains r) && e.reads.all fun r => !c.writes.contains r)

/-- The matrix queue of a team that is to stop runs on for a command while an accumulator read at or behind it is still owed
its results, for which the pre-emption waits (R292, R384, R385; DEDUCED, notes/assumptions/101.md). A command that has started completes, but a
loop. -/
def State.matrixRuns (s : State) (c : MCommand) : Bool :=
  let loop := match c.op with
    | .loop _ => true
    | _ => false
  let stat := (s.team c.team).stat
  stat == 0 || (c.started && !loop) || (stat == 1 && (s.teamCommands c.team).any fun e => decide (c.id ≤ e.id) && match e.op with
    | .accrd .. => true
    | _ => false)

/-- The next row of an EASLD is read, once its pool line serves; a line whose fill has failed is read as it stands (R280).
With its last row the command is complete. -/
def State.easelRow (s : State) (c : MCommand) (core row n addr : Nat) (failed : List Nat) : State :=
  let cid := (s.team c.team).cluster
  let due := ((s.cluster cid).linesIn (keyOf addr) 64).filter fun l => !failed.contains l
  let go := due.foldl (fun (p : Bool × State) l =>
    let lo := max (keyOf addr) l
    let (ok, s1) := p.2.lineServes cid lo (min (keyOf addr + 64) (l + 128) - lo) true c.sys
    (p.1 && ok, s1)) (true, s)
  let s1 := if go.1 then go.2.touch cid (keyOf addr) 64 else go.2
  if !go.1 then s1
  else
    let at_ := core * 65536 + row % max (s1.window c.team) 1 * 64
    let s2 := s1.updMatrix c.team fun m => { m with easel := writeBytes m.easel at_ (readBytes (s1.cluster cid).pool (keyOf addr) 64) }
    if n ≤ 1 then s2.endCommand c
    else { s2 with mcommands := s2.mcommands.map fun (x : MCommand) =>
      if x.id == c.id then { x with started := true, op := .easld core (row + 1) (n - 1) (addr + 64) failed } else x }

/-- MATRIX_COMMAND_START: a command whose resources are free starts; all but a loop and an EASLD run and complete in this
step. An EASLD reads one row at a time (R343). -/
def execMatrixCommandStart (team cmd : Nat) (s : State) : Host.Outcome State Fault Refusal :=
  .next <| match s.mcommands.find? fun c => c.id == cmd && c.team == team with
  | none => s
  | some c =>
    if !s.commandFree c || !s.matrixRuns c then s
    else
      match c.op with
      | .loop _ => { s with mcommands := s.mcommands.map fun (x : MCommand) => if x.id == cmd then { x with started := true } else x }
      | .easld core row n addr failed => s.easelRow c core row n addr failed
      | .pwr slot parts =>
        (parts.foldl (fun (s : State) p => s.setRows team slot fun mem => writeBytes mem (p.1 * 64 + p.2.1) p.2.2) s).endCommand c
      | .accz lo hi bands =>
        let zero := fun (base : Nat) (mem : List Host.Cell) => mem.filter fun x => !bands.testBit ((base + x.1 / 512) / 8)
        ((s.setBank team lo (zero 0)).setBank team hi (zero 32)).endCommand c
      | .accwr lo hi parts =>
        (parts.foldl (fun (s : State) p =>
          let at_ := tileAt lo hi p.1 p.2.1
          s.setBank team at_.1 fun mem => writeBytes mem at_.2 p.2.2) s).endCommand c
      | .accrd lo hi n z d parts =>
        (parts.foldl (fun (s : State) p =>
          let m := s.matrixOf team
          let vals := (List.range n).map fun i => m.elem lo hi p.2.1 (p.2.2 + i)
          let ws := if d = 255 then [] else (List.range n).flatMap fun i =>
            (List.range ((s.team team).depth + 1)).map fun k => (k, d + i, BitVec.ofNat 32 (if k = 0 then vals.getD i 0 else 0))
          let s1 := s.addRegResults c.ticket team p.1 ws
          if z then
            let at_ := tileAt lo hi p.2.1 p.2.2
            s1.setBank team at_.1 fun mem => writeBytes mem at_.2 (List.replicate (4 * n) 0)
          else s1) s).endCommand c
      | .accfr _ | .pfree _ => s.endCommand c

/-- The loops of a quad that may take a step now: of its teams that are not stopped. -/
def State.readyLoops (s : State) (quad : Nat) : List (MCommand × LoopArgs) :=
  s.mcommands.filterMap fun c => match c.op with
    | .loop a => if c.started && (s.team c.team).quad == quad && s.matrixRuns c then some (c, a) else none
    | _ => none

/-- How many slots after the team of the quad's last loop of this class the loop's team comes (R289). -/
def State.classPlace (s : State) (quad : Nat) (x : MCommand × LoopArgs) : Nat :=
  match s.mturns.find? fun t => t.1 == quad && t.2.2 == x.2.cls with
  | some l => ((s.team x.1.team).slot + 3 - (s.team l.2.1).slot) % 4
  | none => (s.team x.1.team).slot

/-- The next step's loop: the highest class, in it the team after the one that ran a step of that class last, by resident
slot, then the team's loops of the class in turn (R289). -/
def State.pickLoop (s : State) (quad : Nat) : Option (MCommand × LoopArgs) :=
  let ls := s.readyLoops quad
  let turn (x : MCommand × LoopArgs) : Nat :=
    if getKey (s.matrixOf x.1.team).last x.2.cls 0 < x.1.id then x.1.id else x.1.id + s.nextId
  ls.foldl (fun (b : Option (MCommand × LoopArgs)) (x : MCommand × LoopArgs) => match b with
    | none => some x
    | some y =>
      let worse : Bool :=
        if y.2.cls != x.2.cls then decide (y.2.cls < x.2.cls)
        else if y.1.team != x.1.team then decide (s.classPlace quad x < s.classPlace quad y)
        else decide (turn x < turn y)
      if worse then some x else some y) none

/-- MATRIX_STEP: the arrays of a quad run one step of the loop whose turn it is (R289), which a counter counts (R378). -/
def execMatrixStep (quad : Nat) (s : State) : Host.Outcome State Fault Refusal :=
  .next <| match s.pickLoop quad with
  | none => s
  | some (c, a) =>
    let (m, ev) := matrixStep (s.matrixOf c.team) a
    let s1 := s.updMatrix c.team fun _ => { m with steps := (m.steps + 1) % 2 ^ 22, last := setKey m.last a.cls c.id 0 }
    let a' := { a with done := a.done + 1 }
    let s2 : State := { s1 with
      mcommands := s1.mcommands.map fun (x : MCommand) => if x.id == c.id then { x with op := .loop a' } else x,
      mturns := (quad, c.team, a.cls) :: s1.mturns.filter fun t => !(t.1 == quad && t.2.2 == a.cls) }
    let s3 := (List.range 5).foldl (fun (s : State) k => if ev.testBit k then s.matrixEvent c.team a.owner k else s) s2
    let s4 := s3.bump quad 5
    if a.ks ≤ a.done + 1 then s4.endCommand c else s4

end Sys2Proof.Machine
end

