-- ==== Sys2Proof/Machine/MatrixWords.lean ====
section
/-! DEFINITION. The matrix instructions, opcodes 0xB0 to 0xBF (10_matrix.md R272 to R291). -/

namespace Sys2Proof.Machine

open Sys2Proof

/-! ### Acceptance (R263, R265) -/

/-- A command enters the team's queue, or holds its gang while the queue is full. -/
def acceptMatrix (c : Ctx) (s : State) (com : List Nat) (ticket occ : Nat) (op : MOp) (reads writes : List Nat)
    (tiles : List Nat := []) : WordOut :=
  if 32 ≤ (s.teamCommands c.tm.id).length then .hold c.s com (.matrixRoom c.tm.id)
  else .done { s with
    nextId := s.nextId + 1,
    mcommands := s.mcommands ++ [{ id := s.nextId, team := c.tm.id, ticket, op, reads, writes, tiles, sys := c.gang.sys }] } occ

def Ctx.matrix (c : Ctx) : Matrix := c.s.matrixOf c.tm.id

/-! ### PRES, PFREE (R277 to R279) -/

/-- The record that a reservation's config and offset registers describe, none where they are not admitted. -/
def presRecord (t : Team) (np cfg off : Nat) : Option (BitVec 128) :=
  let ka := bits cfg 9 8
  let kb := bits cfg 11 10
  let fa := if ka = 0 then (t.fregs.getD (bits cfg 3 0) 0).toNat else 0
  let fb := if kb = 0 then (t.fregs.getD (bits cfg 7 4) 0).toNat else 0
  let r := BitVec.ofNat 128 (np * 2 ^ 108 + bits off 25 16 * 2 ^ 85 + bits off 12 0 * 2 ^ 72 + bits cfg 14 12 * 2 ^ 69 +
    kb * 2 ^ 67 + ka * 2 ^ 65 + fb * 2 ^ 48 + fa * 2 ^ 32)
  if cfg / 2 ^ 15 ≠ 0 || bits off 15 13 ≠ 0 || off / 2 ^ 26 ≠ 0 || !recOk r then none else some r

/-- PRES reserves panels for a slot name, or says that the quad has too few. -/
def execPres (w : FmtE) (s : State) : Host.Outcome State Fault Refusal :=
  let name := w.imm.toNat % 64
  let np := bits w.imm.toNat 13 6 + 1
  .next (gangWord (.pres w) s (fun _ => 6) fun c =>
    match presRecord c.tm np (c.val c.lead w.s1.toNat 1) (c.val c.lead w.s2.toNat 1) with
    | none => .trap s [] .illegalOperand 0 0
    | some record =>
      let ok := decide (np ≤ s.freePanels c.tm.quad)
      let s1 := c.act.foldl (fun (s : State) r => s.setPred c.tm.id r w.d.toNat ok) s
      if !ok then .done s1 6
      else
        let s2 := (s1.updMatrix c.tm.id fun m =>
          { m with slots := m.slots.map fun (p : PSlot) => if p.name == some name then { p with name := none } else p }).sweepMatrix c.tm.id
        let s3 : State := { s2 with nextId := s2.nextId + 1 }
        .done (s3.updMatrix c.tm.id fun m => { m with slots := m.slots ++ [{ id := s2.nextId, name := some name, record }] }) 6)

/-- PRES.org sets the A origin of a reserved slot. -/
def execPresOrg (w : FmtE) (s : State) : Host.Outcome State Fault Refusal :=
  let name := w.imm.toNat % 64
  .next (gangWord (.presOrg w) s (fun _ => 6) fun c =>
    let row := c.val c.lead w.s1.toNat 1
    if row / 2 ^ 13 ≠ 0 then .trap s [] .illegalOperand 0 0
    else if (c.matrix.slot? name).isNone then .trap s [] .slotNotReserved 0 0
    else .done (s.updMatrix c.tm.id fun m =>
      { m with slots := m.slots.map fun (p : PSlot) =>
          if p.name == some name then { p with record := BitVec.ofNat 128 (setBits p.record.toNat 107 95 row) } else p }) 6)

def execPfree (w : FmtE) (s : State) : Host.Outcome State Fault Refusal :=
  let name := w.imm.toNat % 64
  .next (gangWord (.pfree w) s (fun _ => 6) fun c =>
    match c.matrix.slot? name with
    | none => .trap s [] .slotNotReserved 0 0
    | some p =>
      let s1 := s.updMatrix c.tm.id fun m =>
        { m with slots := m.slots.map fun (x : PSlot) => if x.id == p.id then { x with name := none } else x }
      acceptMatrix c s1 [] 0 6 (.pfree p.id) [] [resSlot p.id])

/-! ### EASLD, PWR (R280, R281) -/

/-- Pool stores in flight of the members of a gang. -/
def storesOf (s : State) (team : Nat) (ranks : List Nat) : List Nat :=
  (s.accesses.filter fun a => a.team == team && ranks.contains a.rank && match a.op with
    | .store _ | .storeEmpty _ | .setState _ => true
    | _ => false).map (·.id)

/-- EASLD loads rows of the issuing core's easel from pool. -/
def execEasld (w : FmtE) (s : State) : Host.Outcome State Fault Refusal :=
  let row := w.imm.toNat % 1024
  let n := bits w.imm.toNat 18 10 + 1
  .next (gangWord (.easld w) s (fun _ => 6) fun c =>
    let win := s.window c.tm.id
    let a := c.val c.lead w.s1.toNat 1
    let core := c.gang.lane / 8
    let stores := storesOf s c.tm.id c.gang.members
    if win = 0 then .trap s [] .shapeMismatch 0 0
    else if a % 64 ≠ 0 then .trap s [] .misaligned a 0
    else if a / 2 ^ 30 = 3 then .trap s [] .apertureBound a 0
    else if (poolCheck c.cluster a).isSome || (poolCheck c.cluster (a + 64 * n - 1)).isSome || a / 2 ^ 24 ≠ (a + 64 * n - 1) / 2 ^ 24
    then .trap s [] .poolOutside a 0
    else if !stores.isEmpty then .hold s [] (.flights stores)
    else
      let blocks := ((List.range n).map fun i => resEasel core ((row + i) % win / 64)).eraseDups
      acceptMatrix c s [] 0 6 (.easld core row n a []) [] blocks)

/-- The first thread at which a per-thread check fails, with the parts of the threads before it (R87, R294). -/
def collectParts {α : Type} (f : Nat → Except Cause α) : List Nat → List α × List Nat × Option Cause
  | [] => ([], [], none)
  | r :: rs =>
    match f r with
    | .error c => ([], [], some c)
    | .ok x =>
      let (xs, com, c) := collectParts f rs
      (x :: xs, r :: com, c)

/-- Accept the parts of the threads before a trap as one command, then take the trap. -/
def acceptParts (c : Ctx) (s : State) (com : List Nat) (trap : Option Cause) (ticket occ : Nat) (op : MOp) (reads writes : List Nat)
    (tiles : List Nat) : WordOut :=
  match trap with
  | none => acceptMatrix c s [] ticket occ op reads writes tiles
  | some cause =>
    if com.isEmpty then .trap c.s [] cause 0 0
    else match acceptMatrix c s [] ticket occ op reads writes tiles with
      | .done s1 _ => .trap s1 com cause 0 0
      | out => out

/-- PWR writes palette bytes for each Active thread. -/
def execPwr (w : FmtE) (s : State) : Host.Outcome State Fault Refusal :=
  let n := 2 ^ bits w.imm.toNat 7 6
  .next (gangWord (.pwr w) s (fun c => occupancy c.act.length false) fun c =>
    match c.matrix.slot? (w.imm.toNat % 64) with
    | none => .trap s [] .slotNotReserved 0 0
    | some p =>
      let (parts, com, trap) := collectParts (fun r =>
        let pos := c.val r w.s1.toNat 1
        let off := bits pos 18 13
        if off % (4 * n) ≠ 0 then .error .misaligned
        else if 64 * recNP p.record ≤ bits pos 12 0 then .error .shapeMismatch
        else .ok (bits pos 12 0, off, toBytes (4 * n) (c.val r w.s2.toNat n))) c.act
      acceptParts c s com trap 0 (occupancy c.act.length false) (.pwr p.id parts) [] [resSlot p.id] [])

/-! ### Loops (R273 to R276) -/

/-- A keep mask is admitted (R271). -/
def maskOk (mask group width : Nat) : Bool :=
  let n := if width = 2 then 32 else 64
  (width != 2 || mask / 2 ^ 32 == 0) &&
  (List.range (n / group)).all fun g => ((List.range group).filter fun i => mask.testBit (g * group + i)).length * 2 == group

/-- The rows that a loop reads of a slot lie in it, and so do their scale rows: at the first and at the last step. -/
def rowsInSlot (r : BitVec 128) (org : Nat) (h ks : Nat) (da : Int) : Bool :=
  [0, ks - 1].all fun j =>
    let p : Int := (org : Int) + (j / h : Nat) * da
    decide (0 ≤ p) && decide (p + 64 ≤ (64 * recNP r : Nat)) &&
      (recBL r == 0 || decide (p + 64 + recSCA r ≤ (64 * recNP r : Nat)))

/-- The easel blocks that a loop reads on each core (R264). -/
def loopBlocks (win eb ks : Nat) (db : Int) (rows u bl toff : Nat) (layers scbs : List Nat) : List Nat :=
  let win := max win 1
  let block := fun (x : Int) => (x % (win : Int)).toNat / 64
  let bs := ((List.range ks).flatMap fun (j : Nat) => (0 :: layers).flatMap fun (k : Nat) =>
    let e : Int := (eb : Int) + j * db + (k * toff : Nat)
    let last := e + (rows : Int) - 1
    [block e, block last] ++ if bl = 0 then [] else scbs.flatMap fun (scb : Nat) =>
      [block ((scb : Int) + e * u / bl), block ((scb : Int) + ((last + 1) * u - 1) / bl)]).eraseDups
  (List.range 4).flatMap fun c => bs.map fun b => resEasel c b

/-- A loop form: the checks of R275 in their order, then acceptance. `masks` gives a sparse loop's masks from the members
and the slot width, none where they break R271. -/
def loopWord (i : Instr) (s : State) (acc sa eb ks : Nat) (da db : Int) (masks : Option (Ctx → Nat → Option (List DWord))) : State :=
  gangWord i s (fun _ => 6) fun c =>
    let m := c.matrix
    let layers := c.g
    let names := 0 :: layers
    let slots := names.map fun k => m.slot? (sa + k)
    let tiles := names.map fun k => m.tile? (acc + k)
    let rec0 : BitVec 128 := ((m.slot? sa).map (·.record)).getD 0
    let width := kindWidth (recKA rec0) (recFA rec0)
    let mx := if (m.slot? sa).isNone then 0 else if width = 8 then 8 else if width ≤ 4 then 16 else 0
    let h := if width = 2 then 2 else 1
    let win := s.window c.tm.id
    let same := fun (p : PSlot) =>
      recKA p.record == recKA rec0 && recKB p.record == recKB rec0 && recFA p.record == recFA rec0 && recFB p.record == recFB rec0 &&
      recBL p.record == recBL rec0 && recNP p.record == recNP rec0
    let ps := slots.filterMap id
    let ts := tiles.filterMap id
    if Nat.land mx (s.featuresOf (coreOf c.tm.quad c.gang.lane)) ≠ mx then .trap s [] .featureAbsent 0 0
    else if ts.length < names.length then .trap s [] .bankNotAllocated 0 0
    else if ps.length < names.length then .trap s [] .slotNotReserved 0 0
    else if win = 0 || !recOk rec0 || !ps.all same || !(ps.all fun p => rowsInSlot p.record (recORG rec0) h ks da) then
      .trap s [] .shapeMismatch 0 0
    else
      let ms := masks.map fun f => f c width
      if ms == some none then .trap s [] .shapeMismatch 0 0
      else if m.claims.any fun q => names.any fun k => q.1 / 8 == acc + k then .trap s [] .bandClaimed 0 0
      else
        let toff := win / (1 + c.tm.depth) / 8 * 8
        let sparse := masks.isSome
        let rows := stepRows width * (if sparse then 2 else 1)
        let a : LoopArgs :=
          { layers, slots := ps.map (·.id), tiles := ts, org := recORG rec0, eb, ks, da, db, width, window := win, toff,
            masks := ms.join, cls := m.cls, owner := c.lead }
        let reads := (ps.map fun p => resSlot p.id) ++
          loopBlocks win eb ks db rows (16 / width) (blockLen (recBL rec0)) toff layers (ps.map fun p => recSCB p.record)
        acceptMatrix c s [] 0 6 (.loop a) reads (ts.flatMap fun t => [resBank t.1, resBank t.2])
          (names.map fun k => acc + k)

def execMloop (w : FmtX) (s : State) : Host.Outcome State Fault Refusal :=
  .next (loopWord (.mloop w) s w.acc.toNat w.sa.toNat w.eb.toNat (if w.ks = 0 then 4096 else w.ks.toNat)
    (toSigned 9 w.ia.toNat) (toSigned 9 w.ib.toNat) none)

/-- The masks of an MLOOPS, read from the gang's registers (R271). -/
def loopMasks (mv ks group : Nat) (c : Ctx) (width : Nat) : Option (List DWord) :=
  if c.gang.members.length < 32 then none
  else
    let ms := (List.range (64 * ks)).map fun x =>
      let j := x / 64
      let row := x % 64
      c.val (c.gang.members.getD (row / 2) 0) (mv + 4 * j + 2 * (row % 2)) 2
    if ms.all fun v => maskOk v group width then some (ms.map fun v => BitVec.ofNat 64 v) else none

def execMloops (w : FmtXS) (s : State) : Host.Outcome State Fault Refusal :=
  .next (loopWord (.mloops w) s w.acc.toNat w.sa.toNat w.eb.toNat w.ks.toNat
    (32 * toSigned 6 w.ia.toNat) (32 * toSigned 6 w.ib.toNat)
    (some (loopMasks w.mv.toNat w.ks.toNat (if w.pat = 0 then 4 else 8))))

/-! ### Accumulator forms (R282 to R286) -/

/-- The bank names of a mask. -/
def bankNames (mask : Nat) : List Nat := (List.range 64).filter fun i => mask.testBit i

/-- ACCAL binds the named banks that the team does not hold, or none. -/
def execAccal (w : FmtE) (s : State) : Host.Outcome State Fault Refusal :=
  .next (gangWord (.accal w) s (fun _ => 6) fun c =>
    let new := (bankNames (c.val c.lead w.s1.toNat 2)).filter fun b => (c.matrix.bank? b).isNone
    let ok := decide (new.length ≤ s.freeBanks c.tm.quad)
    let s1 := c.act.foldl (fun (s : State) r => s.setPred c.tm.id r w.d.toNat ok) s
    if !ok then .done s1 6
    else
      let s2 : State := { s1 with nextId := s1.nextId + new.length }
      .done (s2.updMatrix c.tm.id fun m =>
        { m with banks := m.banks ++ (List.range new.length).map fun i => ({ id := s1.nextId + i, name := new[i]? } : Bank) }) 6)

/-- ACCFR unbinds banks and clears the claims of the tiles they belong to. -/
def execAccfr (w : FmtE) (s : State) : Host.Outcome State Fault Refusal :=
  .next (gangWord (.accfr w) s (fun _ => 6) fun c =>
    let names := bankNames (c.val c.lead w.s1.toNat 2)
    let hit : Bank → Bool := fun b => match b.name with
      | some n => names.contains n
      | none => false
    let ids := (c.matrix.banks.filter hit).map (·.id)
    let s1 := s.updMatrix c.tm.id fun m =>
      { m with banks := m.banks.map fun (b : Bank) => if hit b then { b with name := none } else b,
               claims := m.claims.filter fun q => !names.any fun n => n / 2 == q.1 / 8 }
    acceptMatrix c s1 [] 0 6 (.accfr ids) [] (ids.map resBank))

/-- ACCZ zeroes bands of a tile and clears their claims. -/
def execAccz (w : FmtE) (s : State) : Host.Outcome State Fault Refusal :=
  let tile := w.imm.toNat % 32
  let bands := if bits w.imm.toNat 12 5 = 0 then 0xFF else bits w.imm.toNat 12 5
  .next (gangWord (.accz w) s (fun _ => 6) fun c =>
    let role := (s.thread c.tm.id c.lead).role.toNat
    let named := fun (q : Nat × Nat) => q.1 / 8 == tile && bands.testBit (q.1 % 8)
    match c.matrix.tile? tile with
    | none => .trap s [] .bankNotAllocated 0 0
    | some (lo, hi) =>
      if c.matrix.claims.any fun q => named q && q.2 != role then .trap s [] .bandClaimed 0 0
      else
        let s1 := s.updMatrix c.tm.id fun m => { m with claims := m.claims.filter fun q => !named q }
        acceptMatrix c s1 [] 0 6 (.accz lo hi bands) [] [resBank lo, resBank hi] [tile])

/-- The checks and claims of one ACCRD or ACCWR thread after another: the claims, the parts, the ranks before a trap. -/
def claimParts {α : Type} (c : Ctx) (tile n : Nat) (rel : Bool) (s1 : Nat) (mk : Nat → Nat → Nat → α) :
    List Nat → List (Nat × Nat) → List (Nat × Nat) × List α × List Nat × Option Cause
  | [], claims => (claims, [], [], none)
  | r :: rs, claims =>
    let co := c.val r s1 1
    let row := co % 64
    let col := bits co 12 6
    let band := 8 * tile + row / 8
    let role := (c.s.thread c.tm.id r).role.toNat
    if col % n ≠ 0 then (claims, [], [], some .misaligned)
    else if claims.any fun q => q.1 == band && q.2 != role then (claims, [], [], some .bandClaimed)
    else
      let rest := claims.filter fun q => q.1 != band
      let (cl, ps, com, t) := claimParts c tile n rel s1 mk rs (if rel then rest else (band, role) :: rest)
      (cl, mk r row col :: ps, r :: com, t)

/-- ACCRD and ACCWR. -/
def accWord (i : Instr) (w : FmtE) (read : Bool) (s : State) : State :=
  let tile := w.imm.toNat % 32
  let n := 2 ^ bits w.imm.toNat 6 5
  let rel := bit w.imm.toNat 8
  let occ := fun (c : Ctx) => max 6 ((c.act.length * n + 3) / 4)
  gangWord i s occ fun c =>
    match c.matrix.tile? tile with
    | none => .trap s [] .bankNotAllocated 0 0
    | some (lo, hi) =>
      let res := [resBank lo, resBank hi]
      if read then
        let (claims, parts, com, trap) := claimParts c tile n rel w.s1.toNat (fun r row col => (r, row, col)) c.act c.matrix.claims
        let (ticket, s1) := s.issue c.gid c.tm.id 3 com
        acceptParts c (s1.updMatrix c.tm.id fun m => { m with claims }) com trap ticket (occ c)
          (.accrd lo hi n (bit w.imm.toNat 7) w.d.toNat parts) res (if bit w.imm.toNat 7 then res else [])
          (if bit w.imm.toNat 7 then [tile] else [])
      else
        let (claims, parts, com, trap) := claimParts c tile n rel w.s1.toNat
          (fun r row col => (row, col, toBytes (4 * n) (c.val r w.d.toNat n))) c.act c.matrix.claims
        acceptParts c (s.updMatrix c.tm.id fun m => { m with claims }) com trap 0 (occ c) (.accwr lo hi parts) [] res [tile]

def execAccrd (w : FmtE) (s : State) : Host.Outcome State Fault Refusal := .next (accWord (.accrd w) w true s)
def execAccwr (w : FmtE) (s : State) : Host.Outcome State Fault Refusal := .next (accWord (.accwr w) w false s)

/-! ### SPKC, QBLK (R272, R287) -/

/-- The magnitude of a code for SPKC: a NaN ranks above every number. -/
def magLess (a b : FVal) : Bool :=
  match a, b with
  | _, .nan _ => !a.isNaN
  | .nan _, _ => false
  | .inf _, _ => false
  | .fin .., .inf _ => true
  | .fin _ m e, .fin _ n f => fvalLess (.fin false m e) (.fin false n f)

/-- The largest magnitude of a unit's codes. -/
def unitMag (kind desc unit : Nat) : FVal :=
  let w := kindWidth kind desc
  let vs := (List.range (16 / w)).map fun o => (mOpnd kind desc (unit / 2 ^ (w * o) % 2 ^ w) none).val
  vs.foldl (fun m v => if magLess m v then v else m) (.fin false 0 0)

/-- The units that SPKC keeps: those with fewer than `h` units of larger magnitude, or of equal magnitude and lower index. -/
def keptUnits (mags : List FVal) (h : Nat) : List Nat :=
  (List.range mags.length).filter fun i =>
    let v := mags.getD i (.fin false 0 0)
    decide (((List.range mags.length).filter fun j =>
      let u := mags.getD j (.fin false 0 0)
      magLess v u || (decide (j < i) && !magLess u v)).length < h)

def execSpkc (w : FmtA) (s : State) : Host.Outcome State Fault Refusal :=
  let p48 := bit w.m.toNat 0
  let units := if p48 then 8 else 4
  let n := units / 2
  let kind := bits w.s2.toNat 5 4
  .next (longWord (.spkc w) s 2 [(w.s1.toNat, n)] w.d.toNat n
    (fun c => occupancy c.act.length false * (if p48 then 2 else 1)) fun c _ xs =>
      let desc := if kind = 0 then (c.tm.fregs.getD (w.s2.toNat % 16) 0).toNat else 0
      let us := (List.range units).map fun i => xs.getD 0 0 / 2 ^ (16 * i) % 2 ^ 16
      let kept := keptUnits (us.map fun u => unitMag kind desc u) (units / 2)
      let data := (List.range kept.length).foldl (fun v i => v + us.getD (kept.getD i 0) 0 * 2 ^ (16 * i)) 0
      let mask := kept.foldl (fun v i => v + 2 ^ i) 0
      { val := data + mask * 2 ^ (8 * units) })

/-- The block scale that a magnitude over a largest value needs, rounded up (R148). -/
def blockScale (x l : FVal) : Rounded :=
  match x, l with
  | .nan p, _ => encodeScale { mode := .up, sat := false, ftz := false } (.nan p)
  | .inf _, _ => encodeScale { mode := .up, sat := false, ftz := false } (.inf false)
  | .fin _ m e, .fin _ d f =>
    if m = 0 then (0, 0)
    else if d = 0 then (0xFF, evNarrow)
    else
      let sh := 64 + bitLen d
      let q := m * 2 ^ sh / d
      let sticky := m * 2 ^ sh % d != 0
      encodeScale { mode := .up, sat := false, ftz := false }
        (.fin false (2 * q + sticky.toNat) (e - f - sh - 1))
  | _, _ => (0, 0)

def execQblk (w : FmtA) (s : State) : Host.Outcome State Fault Refusal :=
  .next (longWord (.qblk w) s 2 [(w.s1.toNat, 1)] w.d.toNat 2 (fun c => occupancy c.act.length false) fun c _ xs =>
    let desc := (c.tm.fregs.getD (w.s2.toNat % 16) 0).toNat
    let (code, ev) := blockScale (decodeFp fp32 (xs.getD 0 0)) (decodeNarrow desc (narrowLargest desc))
    let recip := if code = 0 then 0 else (roundQuot fp32 (rmodeOf 0) false 1 (8 + code % 8) (18 - ((code / 8 : Nat) : Int))).1
    { val := code + 2 ^ 32 * recip, ev })

/-! ### MCLASS, MWAIT, MSTAT (R288, R290, R291) -/

def execMclass (w : FmtE) (s : State) : Host.Outcome State Fault Refusal :=
  .next (gangWord (.mclass w) s (fun _ => 6) fun c =>
    .done (s.updMatrix c.tm.id fun m => { m with cls := min (w.imm.toNat % 4) c.grid.prio }) 6)

/-- MWAIT: the commands accepted before the word, or those of them that write the tile. -/
def execMwait (w : FmtE) (s : State) : Host.Outcome State Fault Refusal :=
  let tile := bit w.imm.toNat 5
  .next (gangWord (.mwait w) s (fun _ => 6) fun c =>
    let (ticket, s1) := s.issue c.gid c.tm.id 6 c.act
    let t := w.imm.toNat % 32
    let ids := ((s.teamCommands c.tm.id).filter fun k => !tile || k.tiles.contains t).map (·.id)
    .done { s1 with engineWaits := s1.engineWaits ++
      [{ ticket, team := c.tm.id, ranks := c.act, ids, act := .mwait w.d.toNat tile }] } 6)

/-- The status word of a team or of its quad. -/
def matrixStatus (s : State) (t : Team) (quad : Bool) : Nat :=
  let m := s.matrixOf t.id
  if quad then
    let cls := ((s.mturns.find? fun x => x.1 == t.quad).map (·.2.2)).getD 0
    s.freeBanks t.quad * 2 ^ 50 + s.freePanels t.quad * 2 ^ 42 + cls * 2 ^ 34
  else
    let cmds := s.teamCommands t.id
    let left := (cmds.findSome? fun c => match c.op with
      | .loop a => if c.started then some (a.ks - a.done) else none
      | _ => none).getD 0
    (m.banks.filter fun b => b.name.isSome).length * 2 ^ 50 +
    ((m.slots.filter fun p => p.name.isSome).map fun p => recNP p.record).foldl (· + ·) 0 * 2 ^ 42 +
    cmds.length * 2 ^ 36 + m.cls * 2 ^ 34 + m.steps * 2 ^ 12 + min left 0xFFF

def execMstat (w : FmtE) (s : State) : Host.Outcome State Fault Refusal :=
  .next (aluWord (.mstat w) s [] w.d.toNat 2 (fun c => occupancy c.act.length true) fun c _ _ =>
    { val := matrixStatus c.s c.tm (bit w.imm.toNat 0) })

end Sys2Proof.Machine
end

