-- ==== Sys2Proof/Machine/Control.lean ====
section
/-! DEFINITION. Control instructions, opcodes 0x00 to 0x0F but GLZ (03_control.md R93 to R102). -/

namespace Sys2Proof.Machine

open Sys2Proof

/-! ### NOP, BEAT, PPT (R93) -/

def execNop (w : FmtA) (s : State) : Host.Outcome State Fault Refusal :=
  .next (runWord (.nop w) s fun _ => .done s 6)

/-- A job is persistent while a grid of it that has not ended was launched with PERS (R295). -/
def State.persistent (s : State) (job : Nat) : Bool := s.grids.any fun g => g.job == job && g.pers && g.status.isNone

/-- Restart the watchdog timers of the grids that `p` admits (R380). -/
def State.progress (s : State) (p : Grid → Bool) : State :=
  { s with grids := s.grids.map fun (g : Grid) => if p g then { g with progress := s.now } else g }

/-- BEAT sends one beat to the job's watchdog, once per clause; in a job that is not persistent it has no effect
(R93, R380; DEDUCED, notes/assumptions/12.md). -/
def execBeat (w : FmtA) (s : State) : Host.Outcome State Fault Refusal :=
  .next (gangWord (.beat w) s (fun _ => 6) fun c =>
    if c.gang.beat || !s.persistent c.tm.job then .done s 6
    else .done ((s.updGang c.gid fun g => { g with beat := true }).progress fun g => g.job == c.tm.job) 6)

/-- PPT makes the clause's end a pre-emption point and adds its mask (R90). -/
def execPpt (w : FmtI) (s : State) : Host.Outcome State Fault Refusal :=
  .next (gangWord (.ppt w) s (fun _ => 6) fun c =>
    .done (s.updGang c.gid fun g => { g with ppt := some (Nat.lor (g.ppt.getD 0) w.imm.toNat) }) 6)

/-! ### Branches (R39, R94, R95) -/

/-- The target of an Active thread. -/
def branchTarget (c : Ctx) (w : FmtB) (rank : Nat) : Nat :=
  let base := if w.k = 1 then c.val rank w.s1.toNat 2 else c.gang.pc
  wrap 64 ((base : Int) + 8 * toSigned 32 w.off.toNat)

/-- A branch form: `link` writes the return address to D of each Active thread. -/
def branchWord (i : Instr) (w : FmtB) (link : Bool) (s : State) : State :=
  runWord i s fun c =>
    let next := c.gang.nextPc
    let tgt := fun r => if c.act.contains r then branchTarget c w r else next
    let dests := (c.gang.members.map tgt).eraseDups
    let occ := occupancy c.act.length link
    if c.act.any fun r => tgt r % 8 != 0 then .trap s [] .misaligned 0 0
    else if 2 < dests.length && !s.quietGang c.gid then .hold s [] .counters
    else
      let s1 := s.spend c.tm.quad occ
      let s2 := if link then c.act.foldl (fun s r => s.setRegs c.tm.id r (valueWrites c.tm.depth w.d.toNat 2 next fun _ => 0)) s1
                else s1
      match dests with
      | [pc] => .left (s2.endClause c.gid pc)
      | [pc, other] =>
        -- the members are in rank order, so the first target is the lowest-ranked member's
        .left ((s2.splitOff c.gid (c.gang.members.filter fun r => tgt r == other) other).endClause c.gid pc)
      | _ =>
        let stay := c.gang.members.filter fun r => !s.halted c.tm.id r
        let s3 := (c.gang.members.filter fun r => s.halted c.tm.id r).foldl
          (fun s r => s.keepHalted c.tm.id [r] (tgt r) c.gang.leaving) (s2.passPending c.gang c.first)
        .left ((s3.fileAll (stay.map fun r =>
          { quad := c.tm.quad, lane := c.gang.lane, team := c.tm.id, rank := r, pc := tgt r, carry := c.gang.leaving })).dropGang c.gid)

def execBra (w : FmtB) (s : State) : Host.Outcome State Fault Refusal := .next (branchWord (.bra w) w false s)
def execBrx (w : FmtB) (s : State) : Host.Outcome State Fault Refusal := .next (branchWord (.brx w) w false s)
def execCall (w : FmtB) (s : State) : Host.Outcome State Fault Refusal := .next (branchWord (.call w) w true s)
def execCallRegister (w : FmtB) (s : State) : Host.Outcome State Fault Refusal :=
  .next (branchWord (.callRegister w) w true s)
/-- The return stack is for prefetch alone and is not visible (R95). -/
def execRet (w : FmtB) (s : State) : Host.Outcome State Fault Refusal := .next (branchWord (.ret w) w false s)

/-! ### REFORM, EXIT, YIELD (R96, R97) -/

/-- The gang waits until its counters are zero; its Active members leave it by `out`; the others go on at the next
header. What its members count when they leave needs a counter set (R322). -/
def leaveWord (i : Instr) (s : State) (counts : Bool) (out : Ctx → State → State) : State :=
  runWord i s fun c =>
    if !s.quietGang c.gid then .hold s [] .counters
    else if counts && !c.act.isEmpty && !s.canCount c.tm.quad c.tm.job then .hold s [] (.counterSet c.tm.quad c.tm.job)
    else
      let s1 := out c (s.spend c.tm.quad 6)
      let stay := c.gang.members.filter fun r => !c.act.contains r
      if stay.isEmpty then .left ((s1.passPending c.gang c.first).dropGang c.gid)
      else .left ((s1.updGang c.gid fun g => { g with members := stay }).endClause c.gid c.gang.nextPc)

def execReform (w : FmtA) (s : State) : Host.Outcome State Fault Refusal :=
  .next (leaveWord (.reform w) s false fun c s =>
    let halted := c.act.filter fun r => s.halted c.tm.id r
    let free := c.act.filter fun r => !s.halted c.tm.id r
    (s.keepHalted c.tm.id halted c.gang.nextPc c.gang.leaving).fileAll (free.map fun r =>
      { quad := c.tm.quad, lane := c.gang.lane, team := c.tm.id, rank := r, pc := c.gang.nextPc, carry := c.gang.leaving }))

def execExit (w : FmtA) (s : State) : Host.Outcome State Fault Refusal :=
  .next (leaveWord (.exit w) s true fun c s => c.act.foldl (fun s r => s.endThread c.tm.id r) s)

/-- The gang goes on at the next header, behind every gang of its lane that is eligible now. -/
def execYield (w : FmtA) (s : State) : Host.Outcome State Fault Refusal :=
  .next (gangWord (.yield w) s (fun _ => 6) fun c =>
    let others := s.gangs.filter fun g =>
      g.id != c.gid && g.lane == c.gang.lane && (s.team g.team).quad == c.tm.quad && g.eligible.isSome
    .done (s.updGang c.gid fun g => { g with behind := others.map (·.id) }) 6)

/-! ### TRAP, SVC, BRK (R98, R99) -/

/-- A transfer: every earlier word has committed, the mask is the set of Active members, and the gang resumes at the
next header. -/
def transfer (c : Ctx) (s : State) (cause : Option Cause) (info : Nat) : WordOut :=
  .left ((s.spend c.tm.quad 6).takeTrap c.gid cause [] c.act 0 0 info c.gang.nextPc)

def execTrap (w : FmtI) (s : State) : Host.Outcome State Fault Refusal :=
  .next (gangWord (.trap w) s (fun _ => 6) fun c => transfer c s (some .userTrap) w.imm.toNat)
def execSvc (w : FmtI) (s : State) : Host.Outcome State Fault Refusal :=
  .next (gangWord (.svc w) s (fun _ => 6) fun c => transfer c s none w.imm.toNat)
/-- BRK without the debug enable goes on at the next header. -/
def execBrk (w : FmtA) (s : State) : Host.Outcome State Fault Refusal :=
  .next (gangWord (.brk w) s (fun _ => 6) fun c =>
    if c.grid.dbg then transfer c s (some .debugBreak) 0 else .done s 6)

/-! ### VOTE and SHFL (R100 to R102) -/

/-- The Active threads for which predicate `p` holds. -/
def votes (c : Ctx) (p : Nat) : List Nat := c.act.filter fun r => (c.s.thread c.tm.id r).pred p

def execVote (w : FmtA) (s : State) : Host.Outcome State Fault Refusal :=
  let occ := fun (c : Ctx) => occ32 c + 4
  let p := w.s1.toNat
  let d := w.d.toNat
  .next <| match w.t.toNat with
    | 0 => predWord (.vote w) s [] d occ fun c _ _ => !(votes c p).isEmpty
    | 1 => predWord (.vote w) s [] d occ fun c _ _ => (votes c p).length == c.act.length
    | 2 => predWord (.vote w) s [] d occ fun c _ _ => c.act.all fun r => c.val r p 1 == c.val c.lead p 1
    | t => aluWord (.vote w) s [] d 1 occ fun c rank _ =>
        { val := match t with
            | 3 => posMask c.gang.members (votes c p)
            | 4 => (votes c p).length
            | 5 => c.pos rank
            | 6 => posMask c.gang.members c.act
            | _ => ((votes c p).filter fun r => decide (r < rank)).length }

/-- The thread whose value SHFL takes, if it is Active. -/
def shflFrom (c : Ctx) (mode rank sel : Nat) : Option Nat :=
  let pos := c.pos rank
  let j : Int := match mode with
    | 0 => (sel % 32 : Nat)
    | 1 => (pos : Int) - (sel : Int)
    | 2 => (pos : Int) + (sel : Int)
    | _ => (Nat.xor pos (sel % 32) : Nat)
  if j < 0 then none
  else (c.gang.members[j.toNat]?).filter fun u => c.act.contains u

def execShfl (w : FmtA) (s : State) : Host.Outcome State Fault Refusal :=
  let t := w.t.toNat
  let n := 1 + t / 4 % 2
  .next (aluWord (.shfl w) s [] w.d.toNat n
    (fun c => (1 + c.g.length) * occOf c.act.length (if n = 1 then 2 else 1)) fun c rank _ =>
      match shflFrom c (t % 4) rank (c.val rank w.s2.toNat 1) with
      | some u => { val := c.val u w.s1.toNat n, tans := movedTans c u w.s1.toNat n }
      | none => { val := c.val rank w.s3.toNat n, tans := movedTans c rank w.s3.toNat n })

end Sys2Proof.Machine
end

