-- ==== Sys2Proof/Machine/Lane.lean ====
section
/-! DEFINITION. The lane's own rows (03_control.md R74 to R86): fetching and checking a clause, choosing and starting
the next one, writing long results, and the folds. -/

namespace Sys2Proof.Machine

open Sys2Proof

/-! ### Fetch (R26 to R31, R79, R370) -/

/-- The class admits the opcode (R29); an unassigned opcode belongs to no group (R30). -/
def classAdmits (cls op : Nat) : Bool :=
  !opAssigned op || cls == 3 || op ≤ 0x39 ||
  (if op ≤ 0x64 then cls == 0 else if op ≤ 0x95 then cls == 1 else cls == 2)

/-- Terminators (R31). -/
def isTerminator (op : Nat) : Bool := op == 1 || op == 2 || op == 3 || op == 4 || op == 5 || op == 6 || op == 7 || op == 8 || op == 0x0C || op == 0x0D || op == 0xE7

/-- The span rule of GLZ words (R31): the covered words lie in the clause, and no GLZ lies among them. -/
def glzRule : List DWord → Bool
  | [] => true
  | w :: ws =>
    (opcodeOf w != 0x0A ||
      (let n := (splitG w).n.toNat
       !ws.isEmpty && decide (n ≤ ws.length) && (ws.take n).all fun x => opcodeOf x != 0x0A)) && glzRule ws

/-- The checks of R28 on a header and its words. -/
def clauseLegal (h : DWord) (ws : List DWord) : Bool :=
  decide (1 ≤ hdrN h) && decide (hdrN h ≤ 24) && decide (hdrCls h ≤ 3) && bits h.toNat 45 32 == 0 &&
  (hdrPP h || hdrTiles h == 0) && (ws.all fun w => classAdmits (hdrCls h) (opcodeOf w)) &&
  (ws.dropLast.all fun w => !isTerminator (opcodeOf w)) && glzRule ws

/-- Words of 64 bits from physical runs. -/
def readRuns (mem : List Host.Cell) (runs : List (Nat × Nat)) : List Byte := runs.flatMap fun (pa, n) => readBytes mem pa n

/-- The 64-bit words of a byte string. -/
def wordsOf (n : Nat) (bs : List Byte) : List DWord :=
  (List.range n).map fun i => BitVec.ofNat 64 (fromBytes ((bs.drop (8 * i)).take 8))

/-- A gang's fetch is due: it stands at a header, no page holds it, and it is not parked on results (R76). -/
def State.fetchDue (s : State) (g : Gang) : Bool :=
  (g.status == .fetch || (g.status == .parked && s.quietGang g.id)) && g.fetchHold.isNone

/-- A trap of a fetch: a gang that was to resume at a word still does so after ERET. -/
def fetchTrap (s : State) (g : Gang) (cause : Cause) (addr info : Nat) : State :=
  s.takeTrap g.id (some cause) g.done (g.members.filter fun r => !g.done.contains r) g.word addr info g.pc

/-- A fetch fails: not-present holds the gang and goes to Shegus, any other cause is a trap with the header as the
faulting PC (R28, R370). A fetch trap has no word, so ERET resumes at the same header. -/
def fetchFail (s : State) (g : Gang) (cause : Cause) (info va : Nat) : State :=
  if cause = .notPresent && decide (va < 2 ^ 57) then
    let asid := (s.job (s.team g.team).job).asid
    (s.updGang g.id fun g => { g with fetchHold := some (asid, va) }).notePage asid va 2
  else fetchTrap s g cause va info

/-- Bytes that a list of clauses takes in a clause cache. -/
def codeBytes (cs : List (Nat × Nat × Nat × List DWord)) : Nat := cs.foldl (fun n c => n + 8 * c.2.2.2.length) 0

/-- The clause that a core's clause cache holds for a header address. -/
def State.cachedClause (s : State) (core asid pc : Nat) : Option (List DWord) :=
  (s.code.find? fun c => c.1 == core && c.2.1 == asid && c.2.2.1 == pc).map fun c => c.2.2.2

/-- A core's cache takes a clause; the oldest clauses leave it while it holds more than 64 KiB (R79). -/
def State.cacheClause (s : State) (core asid pc : Nat) (ws : List DWord) : State :=
  let mine := s.code.filter fun c => c.1 == core
  let excess := codeBytes mine + 8 * ws.length - 65536
  let drop := (List.range mine.length).find? fun n => decide (excess ≤ codeBytes (mine.take n))
  let gone := mine.take (drop.getD mine.length)
  { s with code := (s.code.filter fun c => !gone.contains c) ++ [(core, asid, pc, ws)] }

/-- A gang takes the clause that it fetched. One that resumes at a word waits there for its counters (R88); a clause that
has become shorter than that word is behind it. -/
def State.takeClause (s : State) (gid : Nat) (h : DWord) (ws : List DWord) : State :=
  s.updGang gid fun g =>
    if ws.length < g.word then { g with pc := (g.pc + 8 * (ws.length + 1)) % 2 ^ 64, word := 0, done := [] }
    else { g with header := h, clause := ws, status := if g.word = 0 then .ready else .held .counters }

/-- CLAUSE_FETCH: the header and its words are read through pages that grant execution, and checked. A clause that the
core's cache holds is not read again, so a store to it is not seen before a code-segment switch (R79, R367; DESIGN CHOICE,
notes/assumptions/84.md). A bad word count is found first, for without it the clause has no end; then the pages, all of them; then
the other checks of the header and the words. Which of execute-not-allowed and illegal-clause a clause with both raises
the spec does not say (DESIGN CHOICE, notes/assumptions/87.md). -/
def execClauseFetch (gang : Nat) (s : State) : Host.Outcome State Fault Refusal :=
  .next <| match s.gang? gang with
  | none => s
  | some g =>
    if !s.fetchDue g then s
    else
      let asid := (s.job (s.team g.team).job).asid
      let core := coreOf (s.team g.team).quad g.lane
      let hit := s.cachedClause core asid g.pc
      match s.translateRun asid g.sys { x := true } 2 g.pc 8 with
      | (.error (c, i, va), s1) => fetchFail s1 g c i va
      | (.ok runs, s1) =>
        let h := (hit.getD (wordsOf 1 (readRuns s1.mem runs))).headD 0
        if !(decide (1 ≤ hdrN h) && decide (hdrN h ≤ 24)) then fetchTrap s1 g .illegalClause 0 0
        else
          match s1.translateRun asid g.sys { x := true } 3 g.pc (8 * (hdrN h + 1)) with
          | (.error (c, i, va), s2) => fetchFail s2 g c i va
          | (.ok runs, s2) =>
            let all := hit.getD (wordsOf (hdrN h + 1) (readRuns s2.mem runs))
            if !clauseLegal h (all.drop 1) then fetchTrap s2 g .illegalClause 0 0
            else (if hit.isSome then s2 else s2.cacheClause core asid g.pc all).takeClause g.id h (all.drop 1)

/-! ### Arbitration (R74 to R77, R96) -/

/-- The gangs of a lane. -/
def State.laneGangs (s : State) (quad lane : Nat) : List Gang :=
  s.gangs.filter fun g => g.lane == lane && (s.team g.team).quad == quad

/-- Priority class of a gang (R77). -/
def State.gangPrio (s : State) (g : Gang) : Nat := (s.grid (s.team g.team).grid).prio

/-- The gang that a lane chooses: the highest priority class, and in it the one that became eligible first. -/
def State.choose (s : State) (gs : List Gang) : Option Gang :=
  gs.foldl (fun best g =>
    match best with
    | none => some g
    | some b =>
      if s.gangPrio b < s.gangPrio g || (s.gangPrio b == s.gangPrio g && decide (g.eligible.getD 0 < b.eligible.getD 0))
      then some g else best) none

/-- A gang is no longer in the way of a gang that yielded to it (R96). -/
def State.passed (s : State) (id : Nat) : State :=
  { s with gangs := s.gangs.map fun (g : Gang) => { g with behind := g.behind.filter (· != id) } }

/-- CLAUSE_ISSUE: an idle lane starts the next clause of the gang it chooses, or lets a held gang go on at its word. A
pending cause of the gang (R154, R380), or the late fault of a store of one of its threads (R212), is taken at the start
of a clause, with WORD 0. -/
def execClauseIssue (quad lane : Nat) (s : State) : Host.Outcome State Fault Refusal :=
  let gs := s.laneGangs quad lane
  .next <|
    if gs.any fun g => g.status == .running then s
    else
      match s.choose (gs.filter fun g => g.eligible.isSome && g.behind.isEmpty) with
      | none => s
      | some g =>
        let s1 := (s.passed g.id).updGang g.id fun g => { g with eligible := none, idleSince := s.dieClock (quad / 32) }
        let s2 := if g.word = 0 then s1.haltMembers g.id else s1
        match s2.gang? g.id with
        | none => s2
        | some g1 =>
          let late := g1.members.findSome? fun r => (s2.thread g1.team r).pend.head?.map fun p => (r, p)
          let run := s2.updGang g.id fun g => { g with status := .running, word := max 1 g.word, stopMask := none }
          if g1.word ≠ 0 then run
          else match g1.pending, late with
            | some cause, _ =>
              (s2.updGang g.id fun g => { g with pending := none }).takeTrap g.id (some cause) [] g1.members 0 0 0 g1.pc
            | none, some (r, (cause, addr)) =>
              (s2.updThread g1.team r fun t => { t with pend := t.pend.drop 1 }).takeTrap g.id (some cause) [] g1.members 0
                (if cause = .numericThreshold then 0 else addr) 0 g1.pc
            | none, none => run

/-! ### Long results (R73, R74, R320) -/

/-- The g registers that a result writes. -/
def ResultAct.gregs : ResultAct → List Nat
  | .regs ws => (ws.map fun w => w.2.1).filter fun i => 192 ≤ i && i < 255
  | _ => []

/-- An access loads into a g register. -/
def Access.loadsG (a : Access) : Bool :=
  match a.op with
  | .load d _ _ _ => decide (192 ≤ d) && decide (d < 255)
  | _ => false

/-- The results that are written with a result: what one word writes to g registers, primal and layers, becomes visible to
other gangs in the same clause (R159). -/
def State.mates (s : State) (r : LongResult) : List LongResult :=
  s.results.filter fun x => x.id == r.id ||
    (x.ticket == r.ticket && x.team == r.team && x.rank == r.rank && !x.act.gregs.isEmpty && !r.act.gregs.isEmpty)

/-- A part of what the result's word writes to g registers is still to come. -/
def State.matesDue (s : State) (r : LongResult) : Bool :=
  !r.act.gregs.isEmpty && s.accesses.any fun a =>
    a.ticket == r.ticket && a.team == r.team && a.rank == r.rank && a.loadsG

/-- LONG_RESULT_WRITE: the result is written and, when it was the last of its word, the counter falls. A send waits for
room in the port's buffer. -/
def execLongResultWrite (id : Nat) (s : State) : Host.Outcome State Fault Refusal :=
  .next <| match s.results.find? fun r => r.id == id with
  | none => s
  | some r =>
    let s0 := { s with results := s.results.filter fun x => x.id != id }
    let done := fun (s : State) => (s.settleTicket r.ticket r.rank).fileReady
    match r.act with
    | .regs _ =>
      if s.matesDue r then s
      else (s.mates r).foldl (fun (s : State) x =>
        let s1 := match x.act with
          | .regs ws => s.setRegs x.team x.rank ws
          | _ => s
        ({ s1 with results := s1.results.filter fun y => y.id != x.id }.settleTicket x.ticket x.rank).fileReady) s
    | .pred p v => done (s0.setPred r.team r.rank p v)
    | .nothing => done s0
    | .send q image v =>
      let t := s.team r.team
      if s.sendRoom t.quad 1 && s.canCount t.quad t.job then done (s0.acceptSend t r.rank q image [v] 0) else s

/-! ### Folds (R81 to R86) -/

def State.fold? (s : State) (id : Nat) : Option Fold := s.folds.find? fun f => f.id == id

/-- The threads of a team in a lane that have not ended. -/
def State.liveInLane (s : State) (team lane : Nat) : List Nat :=
  (s.threads.filter fun t => t.team == team && laneOf t.rank == lane && !t.ended).map (·.rank)

/-- A thread is held in a fold or in the overflow list. -/
def State.inFolds (s : State) (team rank : Nat) : Bool :=
  (s.folds.any fun f => f.team == team && f.threads.any fun t => t.1 == rank) ||
  s.overflow.any fun f => f.team == team && f.rank == rank

/-- A pre-emption of a team's cluster is requested; its folds issue no gang meanwhile (DEDUCED, notes/assumptions/13.md). -/
def State.stopping (s : State) (team : Nat) : Bool := (s.stopRequested team).1 || (s.team team).stat != 0

/-- A fold is ready to issue (R83). -/
def State.foldReady (s : State) (f : Fold) : Bool :=
  (decide (32 ≤ f.threads.length) || f.aged || (s.liveInLane f.team f.lane).all fun r => s.inFolds f.team r) &&
  !s.stopping f.team

/-- The ready folds of a lane. -/
def State.readyFolds (s : State) (quad lane : Nat) : List Fold :=
  s.folds.filter fun f => f.quad == quad && f.lane == lane && s.foldReady f

/-- FOLD_AGE_LIMIT: a fold's age has reached its limit (R83, R84). -/
def execFoldAgeLimit (fold : Nat) (s : State) : Host.Outcome State Fault Refusal :=
  .next <| match s.fold? fold with
  | none => s
  | some f =>
    if foldLimit (s.grid (s.team f.team).grid) ≤ s.dieClock (f.quad / 32) - f.since then
      { s with folds := s.folds.map fun (x : Fold) => if x.id == fold then { x with aged := true } else x }
    else s

/-- What a thread of a fold keeps. -/
def Fold.kept (f : Fold) (rank : Nat) : Carry := ((f.threads.find? fun t => t.1 == rank).map fun t => t.2.2).getD {}

/-- FOLD_ISSUE: the oldest ready fold of its lane issues its lowest-ranked threads, at most 32, as a gang with no
outstanding results (R83). A gang has one level and one trap state, so the threads that differ from the lowest-ranked one in
what they keep stay in the fold (DESIGN CHOICE, notes/assumptions/83.md). -/
def execFoldIssue (fold : Nat) (s : State) : Host.Outcome State Fault Refusal :=
  .next <| match s.fold? fold with
  | none => s
  | some f =>
    let oldest := (s.readyFolds f.quad f.lane).all fun x => decide (f.since ≤ x.since)
    match s.freeEntry f.quad f.lane with
    | none => s
    | some e =>
      if !(s.foldReady f && oldest) then s
      else
        let ranks := sortNat (f.threads.map (·.1))
        let k := f.kept (ranks.headD 0)
        let out := (ranks.filter fun r => f.kept r == k).take 32
        let g : Gang := { id := s.nextId, team := f.team, lane := f.lane, entry := e, members := out, pc := f.pc,
                          word := f.word, done := out.filter fun r => f.threads.contains (r, true, k),
                          sys := k.sys, trap := k.trap, pendWord := k.pendWord, ppt := k.ppt,
                          beat := k.beat, flight := k.flight, idleSince := s.dieClock (f.quad / 32) }
        let rest := f.threads.filter fun t => !out.contains t.1
        let s1 : State := { s with nextId := s.nextId + 1, gangs := s.gangs ++ [g] }
        if rest.isEmpty then
          { s1 with folds := s1.folds.filter fun x => x.id != fold }.claimFold f.quad f.lane
        else
          { s1 with folds := s1.folds.map fun (x : Fold) =>
              if x.id == fold then { x with threads := rest, since := s.dieClock (f.quad / 32), aged := false } else x }

/-- A gang that may be demoted (R85): ineligible, at a header or held at a word, and not for a trap, a debugger halt or
a pre-emption. -/
def Gang.demotable (g : Gang) : Bool :=
  g.eligible.isNone &&
  match g.status with
  | .fetch | .ready | .parked => true
  | .held .shegus => false
  | .held _ => true
  | .running | .stopped _ => false

/-- GANG_DEMOTION: a ready fold finds no entry, and the gang that has been ineligible longest gives its entry up; its
threads are filed once none of their results is outstanding (R85). Each gang's time is held against the fold age limit of
its own grid, where grids of several limits share the lane (DESIGN CHOICE, notes/assumptions/88.md). -/
def execGangDemotion (quad lane : Nat) (s : State) : Host.Outcome State Fault Refusal :=
  let old := fun (g : Gang) => decide (foldLimit (s.grid (s.team g.team).grid) ≤ s.dieClock (quad / 32) - g.idleSince)
  let cands := (s.laneGangs quad lane).filter fun g => g.demotable && old g
  let pick := cands.foldl (fun (b : Option Gang) g =>
    match b with
    | none => some g
    | some x => if g.idleSince < x.idleSince || (g.idleSince == x.idleSince && decide (g.entry < x.entry)) then some g else b) none
  .next <|
    if (s.readyFolds quad lane).isEmpty || (s.freeEntry quad lane).isSome then s
    else
      match pick with
      | none => s
      | some g =>
        ((s.passPending g (g.members.headD 0)).dropGang g.id).sendToFolds (g.members.map fun r =>
          { quad, lane, team := g.team, rank := r, pc := g.pc, word := g.word, done := g.done.contains r, carry := g.carry })

end Sys2Proof.Machine
end

