-- ==== Sys2Proof/Machine/Sync.lean ====
section
/-! DEFINITION. Barrier objects, team barriers and rings, opcodes 0x79 to 0x80 (07_pool.md R191 to R199). Their accesses
are accepted at the word: the gang is held until nothing must precede them. -/

namespace Sys2Proof.Machine

open Sys2Proof

/-- What a synchronisation access does at its share, for one thread: performed, refused, or joining the waiters. -/
inductive SyncOut where
  | done (s : State)
  | refused (cause : Cause)
  | wait (op : PoolOp)

/-- The place that a thread's barrier or ring word already has in its pair. -/
def placeOf (c : Ctx) (s : State) (rank : Nat) : Option Access :=
  s.accesses.find? fun a => a.op == .place && a.team == c.tm.id && a.rank == rank

/-- The threads of a barrier or ring word that is held keep its place in their pairs: the order of a pair is that of issue
(R190). A thread whose address is refused takes none. -/
def keepPlaces (c : Ctx) (ea : Ctx → Nat → Nat) (size ord : Nat) (s : State) (ranks : List Nat) : State :=
  ranks.foldl (fun (s : State) rank =>
    let a := ea c rank
    if (accessCheck c a size false).isSome || (placeOf c s rank).isSome then s
    else
      let (id, s1) := s.sendAccess { cluster := c.tm.cluster, team := c.tm.id, rank, src := coreSlot c.tm rank, dst := some (bits a 29 24),
                                     key := keyOf a, size, ord, sys := c.gang.sys, op := .place }
      s1.updGang c.gid fun g => { g with flight := g.flight ++ [id] }) s

/-- A barrier or ring word (R192): for each Active thread in rank order the address checks, the line (R210, R212), the
accesses that precede it, then the operation on the object at `key`. `size` is the object's, `ord` its ordering. -/
def syncWord (i : Instr) (s : State) (size ord cls : Nat) (occ : Ctx → Nat) (ea : Ctx → Nat → Nat)
    (op : Ctx → State → Nat → Nat → Nat → SyncOut) : State :=
  runWord i s fun c =>
    let cid := c.tm.cluster
    let (ticket, s0) := s.issue c.gid c.tm.id cls (if c.act.isEmpty || cls = 8 then [] else [c.lead])
    let out := runThreads (fun s rank =>
      let a := ea c rank
      match accessCheck c a size false with
      | some cause => .trap s cause a 0
      | none =>
        match lineHold c s [a] size true false with
        | some (line, ea) => holdLine c s rank line ea false
        | none =>
          let mine := placeOf c s rank
          let probe : Access := { id := (mine.map (·.id)).getD s.nextId, ticket, cluster := cid, team := c.tm.id, rank,
                                  src := coreSlot c.tm rank, dst := some (bits a 29 24), key := keyOf a, size, ord, sys := c.gang.sys,
                                  seq := (mine.map (·.seq)).getD s.nextId }
          let ids := s.blockers probe
          if !ids.isEmpty then .hold s (.flights ids)
          else
            match s.lineServes cid (keyOf a) size true c.gang.sys with
            | (false, s1) => .hold s1 (s1.fillWait cid (keyOf a) size)
            | (true, s0) =>
              let s1 := (mine.map s0.retireAccess).getD s0
              match op c s1 rank (keyOf a) ticket with
              | .done s2 => .ok s2
              | .refused cause => .trap s1 cause a 0
              | .wait op =>
                let (id, s2) := (s1.owe ticket rank 1).sendAccess { probe with op }
                let s3 := s2.waitOrReject { probe with op, id }
                -- a rejected access is this thread's own: it is sent again while the gang is held (R185)
                if s1.entryFor probe then .ok s3
                else .hold (s3.updGang c.gid fun g => { g with done := g.done ++ [rank], flight := g.flight ++ [ticket] }) (.accept id))
      (occ c) s0 c.act []
    match out with
    | .done s o => .done (s.settleTicket ticket c.lead) o
    | .trap s com cause a b => .trap (s.settleTicket ticket c.lead) com cause a b
    | .hold s com w =>
      let took := ((s.gang? c.gid).map (·.done)).getD []
      .hold (keepPlaces c ea size ord (s.settleTicket ticket c.lead) (c.act.filter fun r => !com.contains r && !took.contains r)) com w
    | .left s => .left s

/-- Occupancy of a word of 16-byte objects (R71). -/
def objOcc (c : Ctx) : Nat := occOf c.act.length 2

/-- The address of a barrier word: BARW's X is its token register and is not added (R192). -/
def objEa (w : FmtM) (c : Ctx) (rank : Nat) : Nat := poolEa c rank w.a.toNat w.x.toNat w.off.toNat 12 16

/-! ### Barrier objects (R192, R193) -/

/-- BARI writes a fresh object and releases its waiters with false; it is strong (R194). -/
def execBari (w : FmtM) (s : State) : Host.Outcome State Fault Refusal :=
  .next (syncWord (.bari w) s 16 1 8 objOcc (objEa w) fun c s rank key _ =>
    let cfg := c.val rank w.d.toNat 1
    if cfg / 2 ^ 17 ≠ 0 then .refused .invalidBarrier
    else
      let exp := cfg % 2 ^ 16
      let nb := bits cfg 16 16
      let o := exp * 2 ^ 64 + exp * 2 ^ 48 + nb * 2 ^ 8 + 0xA0 + nb * 4
      .done ((s.releaseBarrier c.tm.cluster key none false).putObject c.tm.cluster key o))

/-- BARX adds to the byte balance and posts the expect; it is strong. -/
def execBarx (w : FmtM) (s : State) : Host.Outcome State Fault Refusal :=
  .next (syncWord (.barx w) s 16 1 8 objOcc (objEa w) fun c s rank key _ =>
    let o := s.poolNat c.tm.cluster key 16
    if objTag o ≠ 0xA then .refused .invalidBarrier
    else .done (s.putObject c.tm.cluster key (setBits (setBits o 127 80 (bits o 127 80 + c.val rank w.d.toNat 1)) 2 2 1)))

/-- BARA gives the phase parity and arrives; it is a release of the thread's earlier accesses. -/
def execBara (w : FmtM) (s : State) : Host.Outcome State Fault Refusal :=
  .next (syncWord (.bara w) s 16 3 8 objOcc (objEa w) fun c s rank key _ =>
    let o := s.poolNat c.tm.cluster key 16
    if objTag o ≠ 0xA || objPend o == 0 then .refused .invalidBarrier
    else
      let s1 := s.setRegs c.tm.id rank (valueWrites c.tm.depth (destFor c rank w.d.toNat) 1 (objPh o) fun _ => 0)
      .done (s1.putObject c.tm.cluster key (setBits o 63 48 (objPend o - 1))))

/-- BARW waits for the phase of its token; its result is of class 6 and an acquire. -/
def execBarw (w : FmtM) (s : State) : Host.Outcome State Fault Refusal :=
  .next (syncWord (.barw w) s 16 2 6 objOcc (fun c rank => poolEa c rank w.a.toNat 255 w.off.toNat 12 16)
    fun c s rank key ticket =>
      let o := s.poolNat c.tm.cluster key 16
      let token := c.val rank w.x.toNat 1 % 2
      if objTag o ≠ 0xA then .refused .invalidBarrier
      else if token ≠ objPh o then .done ((s.owe ticket rank 1).addResult ticket c.tm.id rank (.pred w.d.toNat (objLf o == 0)))
      else .wait (.barrier token w.d.toNat))

/-! ### Team barriers (R195) -/

/-- The team's threads that have not ended. -/
def State.liveThreads (s : State) (team : Nat) : List Nat := (s.threads.filter fun t => t.team == team && !t.ended).map (·.rank)

/-- A number is still in flight: an access, a request, a side-log entry or a result. -/
def State.outstanding (s : State) (i : Nat) : Bool :=
  (s.accesses.any fun a => a.id == i) || (s.reqs.any fun r => r.id == i) || (s.side.any fun e => e.req.id == i) ||
  s.tickets.any fun t => t.id == i

/-- Complete a phase of a team barrier whose arrivals equal the number of the team's threads that have not ended. An
arrival counts once what it releases has performed. -/
def State.tbarTest (s : State) (team id : Nat) : State :=
  let here := (s.team team).tbar.getD id []
  if here.isEmpty || here.length < (s.liveThreads team).length || (here.any fun p => p.2.2.any s.outstanding) then s
  else here.foldl (fun s p => s.addResult p.2.1 team p.1 .nothing)
    (s.updTeam team fun t => { t with tbar := t.tbar.set id [] })

/-- TBAR: each Active thread arrives, by a release of its earlier accesses (R195); a thread whose earlier arrival has not
completed holds the gang. -/
def execTbar (w : FmtA) (s : State) : Host.Outcome State Fault Refusal :=
  let id := w.t.toNat
  .next (runWord (.tbar w) s fun c =>
    let (ticket, s0) := s.issue c.gid c.tm.id 6 (if c.act.isEmpty then [] else [c.lead])
    let out := runThreads (fun s rank =>
      let here := (s.team c.tm.id).tbar.getD id []
      if here.any fun p => p.1 == rank then .hold s (.teamBarrier c.tm.id id [rank])
      else
        let waits := (s.team c.tm.id).tbar.flatten.map (·.2.1)
        let ids := (s.holds { id := s.nextId, cluster := c.tm.cluster, team := c.tm.id, rank, ord := 3, dst := some 64 }).filter
          fun i => !waits.contains i
        let s1 := (s.owe ticket rank 1).updTeam c.tm.id fun t =>
          { t with tbar := t.tbar.set id (t.tbar.getD id [] ++ [(rank, ticket, ids)]) }
        .ok (s1.tbarTest c.tm.id id)) 6 s0 c.act []
    match out with
    | .done s o => .done (s.settleTicket ticket c.lead) o
    | .trap s com cause a b => .trap (s.settleTicket ticket c.lead) com cause a b
    | .hold s com w => .hold (s.settleTicket ticket c.lead) com w
    | .left s => .left s)

/-! ### Rings (R196 to R199) -/

/-- Set or clear the full bits of the first words of a ring's slots. -/
def State.markSlots (s : State) (cluster key h : Nat) (full : Bool) : State :=
  (List.range (2 ^ ringLgn h)).foldl (fun s i => s.setFull cluster (slotKey key h i) full) s

/-- The address of a ring word: OFF is scaled by 32 (R197). -/
def ringEa (w : FmtM) (c : Ctx) (rank : Nat) : Nat := poolEa c rank w.a.toNat w.x.toNat w.off.toNat 12 32

/-- RNGI is strong, as BARI is; the spec states no order for it (DESIGN CHOICE, notes/assumptions/114.md). It writes a
header and empties the slots' first words. Waiters of an earlier ring stay (R199). It is refused for a
bad configuration, a ring beyond the share, or a bound side of a valid header. -/
def execRngi (w : FmtM) (s : State) : Host.Outcome State Fault Refusal :=
  .next (syncWord (.rngi w) s 32 1 8 objOcc (ringEa w) fun c s rank key _ =>
    let cfg := c.val rank w.d.toNat 1
    let lgn := cfg % 16
    let lgsz := cfg / 16 % 16
    let old := s.poolNat c.tm.cluster key 16
    if cfg / 256 ≠ 0 || 12 < lgn || lgsz < 3 || 12 < lgsz then .refused .ringMisuse
    else if c.cluster.share < key % 2 ^ 20 + 32 + 2 ^ lgn * 2 ^ lgsz then .refused .ringMisuse
    else if ringTag old = 5 && (bit old 127 || bit old 126) then .refused .ringMisuse
    else
      let h := 5 * 2 ^ 120 + lgn * 2 ^ 116 + lgsz * 2 ^ 112 + 2 ^ lgn * 2 ^ 80
      .done (((s.poolWrite c.tm.cluster key (toBytes 32 h)).markSlots c.tm.cluster key h false).rescan c.tm.cluster))

/-- RNGW of a side: a slot address when one is free or filled, else a wait. Its result is of class 6 and an acquire. -/
def ringWait (i : Instr) (w : FmtM) (writer : Bool) (s : State) : State :=
  syncWord i s 32 2 6 (fun c => occOf c.act.length 4) (ringEa w) fun c s rank key ticket =>
    let h := s.poolNat c.tm.cluster key 16
    if ringTag h ≠ 5 || bit h (if writer then 127 else 126) then .refused .ringMisuse
    else
      let d := destFor c rank w.d.toNat
      match ringTake h writer with
      | some (h', slot) =>
        let s1 := (s.poolWrite c.tm.cluster key (toBytes 16 h')).rescan c.tm.cluster
        .done ((s1.owe ticket rank 1).addRegResults ticket c.tm.id rank
          (loadWrites c.tm d 0 4 (addrOfKey (slotKey key h slot)) (allLayers c.tm) none))
      | none => .wait (.ring writer d)

def execRngwWr (w : FmtM) (s : State) : Host.Outcome State Fault Refusal := .next (ringWait (.rngwWr w) w true s)
def execRngwRd (w : FmtM) (s : State) : Host.Outcome State Fault Refusal := .next (ringWait (.rngwRd w) w false s)

/-- Distance of positions (R196). -/
def dist (a b : Nat) : Nat := (a + 2 ^ 32 - b % 2 ^ 32) % 2 ^ 32

/-- Publish slots that have become full in order (R198): `fuel` bounds the slots. -/
def ringPublish (c : Cluster) (key : Nat) : Nat → Nat → Nat
  | 0, h => h
  | n + 1, h =>
    if ringFilled h < dist (ringResv h) (ringClaim h) &&
        c.full (slotKey key h ((ringClaim h + ringFilled h) % 2 ^ ringLgn h))
    then ringPublish c key n (setBits h 79 64 (ringFilled h + 1)) else h
/-- Release slots that have become empty in order (R198). -/
def ringRelease (c : Cluster) (key : Nat) : Nat → Nat → Nat
  | 0, h => h
  | n + 1, h =>
    if ringFree h < dist (ringClaim h + 2 ^ ringLgn h) (ringResv h) &&
        !c.full (slotKey key h ((ringResv h + ringFree h) % 2 ^ ringLgn h))
    then ringRelease c key n (setBits h 95 80 (ringFree h + 1)) else h

/-- The slot number that a key names as a slot's start, if any. -/
def ringSlot (key h k : Nat) : Option Nat :=
  let off := k - (key + 32)
  if key + 32 ≤ k && off % 2 ^ ringLgsz h == 0 && decide (off / 2 ^ ringLgsz h < 2 ^ ringLgn h) then some (off / 2 ^ ringLgsz h)
  else none

/-- A slot number whose position lies in [lo, lo + n). -/
def slotIn (h lo n i : Nat) : Bool := (List.range n).any fun j => (lo + j) % 2 ^ ringLgn h == i

/-- Publish or release a slot at the header (R197, R198): the header and full bits after it. -/
def State.ringSignal (s : State) (cluster key k : Nat) (writer : Bool) : State :=
  let s1 := s.setFull cluster k writer
  let h := s1.poolNat cluster key 16
  let n := 2 ^ ringLgn h
  let h' := if writer then ringPublish (s1.cluster cluster) key n h else ringRelease (s1.cluster cluster) key n h
  (s1.poolWrite cluster key (toBytes 16 h')).rescan cluster

/-- RNGS of a side: a release; refused unless the operand is the start of a reserved, unpublished slot or of a claimed,
unreleased one. -/
def ringSignalWord (i : Instr) (w : FmtM) (writer : Bool) (s : State) : State :=
  syncWord i s 32 3 8 (fun c => occOf c.act.length 4) (ringEa w) fun c s rank key _ =>
    let h := s.poolNat c.tm.cluster key 16
    let a := c.val rank w.d.toNat 1
    let k := keyOf a
    let cl := s.cluster c.tm.cluster
    let n := 2 ^ ringLgn h
    let ok := match (poolCheck cl a), ringSlot key h k with
      | none, some i =>
        if writer then slotIn h (ringClaim h + ringFilled h) (dist (ringResv h) (ringClaim h + ringFilled h)) i && !cl.full k
        else
          let lo := (ringResv h + ringFree h + 2 ^ 32 - n) % 2 ^ 32
          slotIn h lo (dist (ringClaim h) lo) i && cl.full k
      | _, _ => false
    if ringTag h ≠ 5 || bit h (if writer then 127 else 126) || !ok then .refused .ringMisuse
    else .done (s.ringSignal c.tm.cluster key k writer)

def execRngsWr (w : FmtM) (s : State) : Host.Outcome State Fault Refusal := .next (ringSignalWord (.rngsWr w) w true s)
def execRngsRd (w : FmtM) (s : State) : Host.Outcome State Fault Refusal := .next (ringSignalWord (.rngsRd w) w false s)

end Sys2Proof.Machine
end

