-- ==== Sys2Proof/Machine/CopyCore.lean ====
section
/-! DEFINITION. The copy engines (09_copy.md R238 to R254): acceptance, the lines of a command, barriers and streams, and
the engines' own rows. The instructions are in CopyWords.lean. -/

namespace Sys2Proof.Machine

open Sys2Proof

def State.command? (s : State) (id : Nat) : Option CopyCommand := s.commands.find? fun c => c.id == id
def State.updCommand (s : State) (id : Nat) (f : CopyCommand → CopyCommand) : State :=
  { s with commands := s.commands.map fun (c : CopyCommand) => if c.id == id then f c else c }
def CopyCommand.reads (c : CopyCommand) : Bool := c.kind == 0 || c.kind == 2 || c.kind == 4
def CopyCommand.stream (c : CopyCommand) : Bool := decide (4 ≤ c.kind)
def CopyCommand.gather (c : CopyCommand) : Bool := c.kind == 2 || c.kind == 3
def CopyCommand.v (c : CopyCommand) : Nat := c.record.toNat
def CopyCommand.line (c : CopyCommand) (idx : Nat) : Option CopyLine := c.lines.find? fun l => l.idx == idx
def State.setLineOf (s : State) (cmd : Nat) (l : CopyLine) : State :=
  s.updCommand cmd fun c => { c with lines := c.lines.map fun (x : CopyLine) => if x.idx == l.idx then l else x }
def State.dropLineOf (s : State) (cmd idx : Nat) : State :=
  s.updCommand cmd fun c => { c with lines := c.lines.filter fun x => x.idx != idx }

/-! ### Rows and lines (R239, R241, R247) -/

/-- Rows of a command with their planes. -/
def CopyCommand.rows (c : CopyCommand) : Nat :=
  (c.planes + 1) * if c.gather then layExt c.v 1 + 1
    else (layExt c.v 1 + 1) * (layExt c.v 2 + 1) * (layExt c.v 3 + 1) * (layExt c.v 4 + 1)
/-- Bytes of a command's sequence. -/
def CopyCommand.total (c : CopyCommand) : Nat := c.rows * layRow c.v

/-- Plane and indices i1 to i4 of row number `r`. -/
def CopyCommand.indices (c : CopyCommand) (r : Nat) : Nat × Nat × Nat × Nat × Nat :=
  let n := fun d => layExt c.v d + 1
  let k := r % (c.planes + 1)
  let x := r / (c.planes + 1)
  if c.gather then (k, x, 0, 0, 0)
  else (k, x % n 1, x / n 1 % n 2, x / (n 1 * n 2) % n 3, x / (n 1 * n 2 * n 3))

/-- Global and pool address of row number `r` (R241, R247); a gather or scatter row goes by its index word, which was read
when the row was issued. -/
def CopyCommand.rowAt (c : CopyCommand) (r : Nat) : Nat × Nat × Nat :=
  let (k, i1, i2, i3, i4) := c.indices r
  let g1 : Int := if c.gather then (c.index.getD 0 : Nat) else (i1 : Nat)
  let g := wrap 64 ((layGbase c.v : Int) + g1 * layGs c.v 1 + i2 * layGs c.v 2 + i3 * layGs c.v 3 + i4 * layGs c.v 4 +
    k * layGps c.v * 128)
  let p := (layPbase c.v + i1 * layPs c.v 1 + i2 * layPs c.v 2 + i3 * layPs c.v 3 + i4 * layPs c.v 4 + k * c.stride) % 2 ^ 32
  (g, p, i1)

/-- Replica addresses of a pool address. -/
def CopyCommand.replicas (c : CopyCommand) (p : Nat) : List Nat :=
  if layMask c.v = 0 then [p] else (laySlots c.v).map fun k => setBits p 29 24 k

/-! ### Barriers and faults (R249, R250) -/

/-- The barrier object that a replica in share `slot` reports to. -/
def CopyCommand.barrierFor (c : CopyCommand) (slot : Nat) : Option Nat :=
  c.bar.map fun b => if layMask c.v = 0 then b else setBits b 29 24 slot

/-- The barrier objects that a command reports to. -/
def CopyCommand.barriers (c : CopyCommand) : List Nat :=
  match c.bar with
  | none => []
  | some b => if layMask c.v = 0 then [b] else (laySlots c.v).map fun k => setBits b 29 24 k

/-- Report `n` bytes to a barrier whose line serves; an address without a valid object gives the cause 0x29. -/
def State.report (s : State) (c : CopyCommand) (bar : Option Nat) (n : Nat) : State × Option Nat :=
  match bar with
  | none => (s, none)
  | some b =>
    let cid := (s.team c.team).cluster
    if objTag (s.poolNat cid (keyOf b) 16) ≠ 0xA then (s, some 0x29) else (s.deliverBytes cid (keyOf b) n, none)

/-- Clear the BW or BR bit that a stream holds (R254). -/
def State.unbind (s : State) (c : CopyCommand) : State :=
  if !c.stream then s
  else
    let cid := (s.team c.team).cluster
    let h := s.poolNat cid (keyOf c.ring) 16
    let i := if c.kind = 4 then 127 else 126
    s.poolWrite cid (keyOf c.ring) (toBytes 16 (setBits h i i 0))

/-- A barrier object may take FLT: its line does not serve yet, or it is valid (R250). -/
def State.mayFlt (s : State) (c : CopyCommand) (b : Nat) : Bool :=
  let cid := (s.team c.team).cluster
  !(s.lineServes cid (keyOf b) 16 true c.sys).1 || objTag (s.poolNat cid (keyOf b) 16) == 0xA

/-- Record the fault of a command's line with its cause: its queue's fault record, once, the barrier objects that are to take
FLT, and a stream's ring, which is to be let go (R250, R251, R254). -/
def State.recordFault (s : State) (c : CopyCommand) (line cause : Nat) : State :=
  let mine := fun (r : CopyRecord) => r.team == c.team && r.queue == c.queue
  let s1 : State :=
    if s.copyRecs.any mine then
      { s with copyRecs := s.copyRecs.map fun (r : CopyRecord) => if mine r then { r with count := min 0xFFFF (r.count + 1) } else r }
    else { s with copyRecs := s.copyRecs ++ [{ team := c.team, queue := c.queue, cause, count := 1 }] }
  s1.updCommand c.id fun k =>
    { k with ended := true, faulted := true, faultAt := some line, flts := c.barriers.filter (s.mayFlt c), unbinds := c.stream }

/-- A line faults: its command issues no further line. -/
def State.faultLine (s : State) (cmd : Nat) (l : CopyLine) (cause : Nat) (gone : Bool) : State :=
  (s.setLineOf cmd { l with fault := some cause, gone, waits := none }).updCommand cmd fun c => { c with ended := true }

/-- A line waits for the fill of a region line. -/
def State.lineWaits (s : State) (cmd : Nat) (l : CopyLine) (line : Nat) : State := s.setLineOf cmd { l with waits := some line }

/-- A command waits for the fill of a region line of its ring or index list. -/
def State.commandWaits (s : State) (cmd line : Nat) : State := s.updCommand cmd fun c => { c with waits := some line }

/-! ### Streams (R254) -/

/-- Bytes of a ring's slot, and the sequence range of the slot load in hand. -/
def CopyCommand.slotRange (c : CopyCommand) (h : Nat) : Nat × Nat :=
  let size := 2 ^ ringLgsz h
  (c.loads * size, min ((c.loads + 1) * size) c.total)

/-- A stream without a slot takes the next one that the ring has. -/
def State.takeSlot (s : State) (c : CopyCommand) : State :=
  let cid := (s.team c.team).cluster
  if c.slot.isSome || c.ended || !c.stream then s
  else match s.lineFor cid (keyOf c.ring) 32 true c.sys with
    | (some line, s1) => s1.commandWaits c.id line
    | (none, s1) =>
      let h := s1.poolNat cid (keyOf c.ring) 16
      match ringTake h (c.kind == 4) with
      | none => s1.updCommand c.id fun c => { c with waits := none }
      | some (h', i) =>
        (s1.poolWrite cid (keyOf c.ring) (toBytes 16 h')).updCommand c.id fun c =>
          { c with slot := some (slotKey (keyOf c.ring) h i), waits := none }

/-- A stream hands over the slot whose last line is done, once the lines of its ring serve; after the last slot it is
complete. -/
def State.handSlot (s : State) (c : CopyCommand) (k : Nat) : State :=
  let cid := (s.team c.team).cluster
  match s.lineFor cid (keyOf c.ring) 32 true c.sys with
  | (some line, s1) => s1.commandWaits c.id line
  | (none, s1) =>
    let h := s1.poolNat cid (keyOf c.ring) 16
    let (lo, hi) := c.slotRange h
    let size := 2 ^ ringLgsz h
    let tail := if c.kind = 4 then size - (hi - lo) else 0
    if c.row * layRow c.v + c.off < hi then s1
    else match s1.lineFor cid (k + (hi - lo)) tail false c.sys with
      | (some line, s2) => s2.commandWaits c.id line
      | (none, s2) =>
        let s3 := if tail = 0 then s2 else s2.poolWrite cid (k + (hi - lo)) (List.replicate tail 0)
        let s4 := s3.ringSignal cid (keyOf c.ring) k (c.kind == 4)
        if c.total ≤ hi then
          let s5 := s4.unbind c
          { s5 with commands := s5.commands.filter fun x => x.id != c.id }
        else s4.updCommand c.id fun c => { c with slot := none, loads := c.loads + 1, waits := none }

/-- A command with no line left to issue or to report is complete; a stream hands its slot over first and goes on. -/
def State.settleCommand (s : State) (id : Nat) : State :=
  match s.command? id with
  | none => s
  | some c =>
    if !c.started || !c.lines.isEmpty then s
    else if c.ended then { s with commands := s.commands.filter fun x => x.id != id }
    else if !c.stream then
      if c.rows ≤ c.row then { s with commands := s.commands.filter fun x => x.id != id } else s
    else match c.slot with
      | none => s
      | some k => s.handSlot c k

/-! ### The engines' rows (R238, R239, R248 to R250) -/

/-- A pre-emption stops a stream at a slot boundary (R252). -/
def State.streamStopped (s : State) (c : CopyCommand) : Bool := (s.stopRequested c.team).1 || (s.team c.team).stat != 0

/-- COPY_COMMAND_START: the head of a queue starts. -/
def execCopyCommandStart (quad queue : Nat) (s : State) : Host.Outcome State Fault Refusal :=
  .next <| match s.commands.find? fun c => c.quad == quad && c.queue == queue with
  | none => s
  | some c =>
    if c.started || s.streamStopped c then s
    else (s.updCommand c.id fun c => { c with started := true }).takeSlot { c with started := true }

/-- The next line of a command: global address, pool addresses, palette row, byte in the row, length. -/
def CopyCommand.next (c : CopyCommand) (h : Nat) : Option CopyLine :=
  if c.rows ≤ c.row then none
  else
    let (g, p, i1) := c.rowAt c.row
    let va := (g + c.off) % 2 ^ 64
    let n0 := min (layRow c.v - c.off) (128 - va % 128)
    if c.stream then
      let pos := c.row * layRow c.v + c.off
      let (lo, hi) := c.slotRange h
      match c.slot with
      | none => none
      | some k =>
        if hi ≤ pos then none
        else some { idx := c.issued, write := !c.reads, va, n := min n0 (hi - pos), dst := [addrOfKey (k + (pos - lo))] }
    else if layDst c.v = 1 then some { idx := c.issued, va, n := n0, row := i1, off := c.off }
    else some { idx := c.issued, write := !c.reads, va, n := n0, dst := c.replicas ((p + c.off) % 2 ^ 32) }

/-- A command takes a line into flight, which a counter counts (R378), and moves on. -/
def State.takeCopyLine (s : State) (c : CopyCommand) (l : CopyLine) (ended : Bool) : State :=
  (s.bump c.quad 4).updCommand c.id fun c =>
    let off := c.off + l.n
    let past := !decide (off < layRow c.v)
    { c with lines := c.lines ++ [l], issued := c.issued + 1, ended := c.ended || ended, waits := none,
             row := if past then c.row + 1 else c.row, off := if past then 0 else off, index := if past then none else c.index }

/-- A request of an engine for a line. -/
def lineReq (s : State) (c : CopyCommand) (l : CopyLine) (op : HomeOp) : HomeReq :=
  let t := s.team c.team
  { team := c.team, rank := c.rank, cluster := t.cluster, job := t.job, asid := (s.job t.job).asid, sys := c.sys, va := l.va,
    pa := l.pa, leaf := l.leaf, group := (s.cluster t.cluster).group, pl := max c.pl (leafCA l.leaf), op, src := c.quad,
    log := c.quad, kind := 3, cmd := some c.id, mask := (2 ^ l.n - 1) * 2 ^ (l.va % 128) }

/-- The cells of a line of bytes that starts at a cell. -/
def cellsOf (va : Nat) (bs : List Byte) : List (Nat × DWord) :=
  (List.range (bs.length / 8)).map fun j => (va % 128 / 8 + j, BitVec.ofNat 64 (fromBytes ((bs.drop (8 * j)).take 8)))

/-- What a command reads of pool before it can issue a line of its row: the ring header of a stream, and the index word of
a gather or scatter row, once for the row (R247, R254). Answers the line to wait for. -/
def State.readRow (s : State) (c : CopyCommand) : Option Nat × CopyCommand × State :=
  let cid := (s.team c.team).cluster
  if c.stream then
    let (w, s1) := s.lineFor cid (keyOf c.ring) 32 true c.sys
    (w, c, s1)
  else if c.gather && c.index.isNone && decide (c.row < c.rows) then
    let key := keyOf (c.list + 4 * (c.indices c.row).2.1)
    match s.lineFor cid key 4 true c.sys with
    | (some line, s1) => (some line, c, s1)
    | (none, s1) =>
      let c1 : CopyCommand := { c with index := some (s1.poolNat cid key 4) }
      (none, c1, s1.updCommand c.id fun c => { c with index := c1.index })
  else (none, c, s)

/-- COPY_LINE_ISSUE: a running command issues its next line while a line slot is free. A read goes to the home; a write
goes on by rows of its own. A line that faults is the last that its command issues. -/
def execCopyLineIssue (cmd : Nat) (s : State) : Host.Outcome State Fault Refusal :=
  .next <| match s.command? cmd with
  | none => s
  | some c0 =>
    let used := ((s.commands.filter fun x => x.quad == c0.quad).map fun x => x.lines.length).foldl (· + ·) 0
    if !c0.started || c0.ended || 4096 ≤ used then s
    else match s.readRow c0 with
      | (some line, _, s1) => s1.commandWaits cmd line
      | (none, c, s1) =>
        match c.next (s1.poolNat (s1.team c.team).cluster (keyOf c.ring) 16) with
        | none => s1.settleCommand cmd
        | some l =>
          if !c.reads then s1.takeCopyLine c l false
          else match s1.translate (s1.job (s1.team c.team).job).asid l.va c.sys { r := true } with
            | (.fail cause _, s2) => s2.takeCopyLine c { l with fault := some cause.code, gone := true } true
            | (.ok pa e, s2) =>
              let l1 : CopyLine := { l with pa, leaf := e }
              let (id, s3) := s2.sendReq (lineReq s2 c l1 (.read l.idx l.n))
              s3.takeCopyLine c { l1 with req := id } false

/-- A write line takes its bytes from pool and goes to its home, or retires into the side log where its page is not
present (R248, R250). That of an address which fails R17 retires too, since R369 makes it not-present; the VA of its entry
shows the low 57 bits, and no replay of it is accepted (DEDUCED, notes/assumptions/96.md). The cells that a logged line holds
in part take the rest from the lead if the replay finds a kept page (DESIGN CHOICE, notes/assumptions/97.md). -/
def State.sendCopyLine (s : State) (c : CopyCommand) (l : CopyLine) : State :=
  let cid := (s.team c.team).cluster
  let key := keyOf (l.dst.headD 0)
  match s.lineFor cid key l.n true c.sys with
  | (some line, s1) => s1.lineWaits c.id l line
  | (none, s0) =>
    let asid := (s0.job (s0.team c.team).job).asid
    let bs := readBytes (s0.cluster cid).pool key l.n
    let l0 : CopyLine := { l with dst := [], waits := none }
    match s0.translate asid l.va c.sys { w := true } with
    | (.ok pa e, s1) =>
      let l1 : CopyLine := { l0 with pa, leaf := e }
      if leafK e && (l.va % 8 != 0 || l.n % 8 != 0) then s1.faultLine c.id l1 0x18 true
      else
        let op := if leafK e then HomeOp.kept (cellsOf l.va bs) (c.sights.getD (homeSlice pa e) 0)
          else .write ((List.range l.n).map fun i => (l.va % 128 + i, bs.getD i 0))
        let (id, s2) := s1.sendReq (lineReq s1 c l1 op)
        s2.setLineOf c.id { l1 with req := id }
    | (.fail cause info, s1) =>
      let noted := if (Trans.fail cause info).holds l.va then s1.notePage asid l.va 1 else s1
      if cause ≠ .notPresent || !(c.kind == 1 || c.kind == 3) then s1.faultLine c.id l0 cause.code true
      else if !s1.logRoom c.quad then noted
      else
        let low := c.sights.foldl min (c.sights.headD 0)
        let id := s1.nextId
        let s2 : State := { noted with nextId := id + 1 }
        let pad := List.replicate (l.va % 8) (0 : Byte) ++ bs
        let padded := pad ++ List.replicate ((8 - pad.length % 8) % 8) 0
        let r := lineReq s2 c l (.kept (cellsOf (l.va / 8 * 8) padded) low)
        (s2.retireWrite { r with id, merge := true } cause.code l.n low).setLineOf c.id { l0 with req := id }

/-- Write a piece of a palette row (R244): palette rows of 64 bytes from the record's first row on. -/
def paletteAt (v row off : Nat) : Nat :=
  let p := layRow v / 64
  (bits (layPbase v) 18 6 + 64 * p * (row / 64) + 64 * (off / 64) + row % 64) * 64 + off % 64

/-- The next 8-byte word of a line that goes to the palette is written (R244); with the last one the line reports. -/
def State.putPalette (s : State) (c : CopyCommand) (l : CopyLine) (bs : List Byte) : State :=
  let held := (s.matrixOf c.team).slots.any fun p => p.id == c.pslot && p.name.isSome
  let n := min (l.n - l.put) (8 - (l.off + l.put) % 8)
  if !held then s.faultLine c.id l 0x21 true
  else
    let s1 := (List.range n).foldl (fun (s : State) i =>
      s.setRows c.team c.pslot fun m => writeByte m (paletteAt c.v l.row (l.off + l.put + i)) (bs.getD (l.put + i) 0)) s
    let l1 : CopyLine := { l with put := l.put + n, waits := none }
    if l1.put < l.n then s1.setLineOf c.id l1
    else match s1.report c c.bar l.n with
      | (s2, none) => (s2.dropLineOf c.id l.idx).settleCommand c.id
      | (s2, some f) => s2.faultLine c.id l1 f true

/-- A line is written to its next replica and reports its bytes there. -/
def State.putReplica (s : State) (c : CopyCommand) (l : CopyLine) (a : Nat) (rest : List Nat) (bs : List Byte) : State :=
  let cid := (s.team c.team).cluster
  match s.lineFor cid (keyOf a) l.n false c.sys with
  | (some line, s1) => s1.lineWaits c.id l line
  | (none, s1) =>
    let s2 := (s1.poolWrite cid (keyOf a) bs).rescan cid
    let l1 : CopyLine := { l with dst := rest, waits := none }
    match s2.report c (c.barrierFor (bits a 29 24)) l.n with
    | (s3, none) => if rest.isEmpty then (s3.dropLineOf c.id l.idx).settleCommand c.id else s3.setLineOf c.id l1
    | (s3, some f) => s3.faultLine c.id l1 f rest.isEmpty

/-- COPY_LINE_DELIVERY: a line that has been read is written to its next replica, or to the palette, and reports its
bytes, once the region line of the barrier object serves (R210). -/
def execCopyLineDelivery (cmd line : Nat) (s : State) : Host.Outcome State Fault Refusal :=
  .next <| match s.command? cmd with
  | none => s
  | some c =>
    match c.line line with
    | none => s
    | some l =>
      match l.data with
      | none => s
      | some bs =>
        if l.gone || l.fault.isSome then s
        else
          let bar := if layDst c.v = 1 then c.bar else c.barrierFor (bits (l.dst.headD 0) 29 24)
          match s.objectsFor (s.team c.team).cluster 16 c.sys bar.toList with
          | (some w, s1) => s1.lineWaits cmd l w
          | (none, s1) =>
            if layDst c.v = 1 then s1.putPalette c l bs
            else match l.dst with
              | [] => s1
              | a :: rest => s1.putReplica c l a rest bs

/-- COPY_WRITE_LINE_ACCEPT: a write line goes to its home, in any order among its command's lines (R248), and once its
home has accepted it, or it has retired into the side log, it reports its bytes. -/
def execCopyWriteLineAccept (cmd line : Nat) (s : State) : Host.Outcome State Fault Refusal :=
  .next <| match s.command? cmd with
  | none => s
  | some c =>
    match c.line line with
    | none => s
    | some l =>
      if !l.write || l.gone || l.fault.isSome then s
      else if l.req = 0 then s.sendCopyLine c l
      else if s.reqs.any fun r => r.id == l.req && !r.replay then s
      else match s.objectsFor (s.team c.team).cluster 16 c.sys c.bar.toList with
        | (some w, s1) => s1.lineWaits cmd l w
        | (none, s1) =>
          match s1.report c c.bar l.n with
          | (s2, none) => (s2.dropLineOf cmd line).settleCommand cmd
          | (s2, some f) => s2.faultLine cmd l f true

/-- A line whose fault has been reported is over, or goes on with its other replicas. -/
def State.afterFault (s : State) (cmd : Nat) (l : CopyLine) : State :=
  let dst := if l.deaf then l.dst.drop 1 else l.dst
  (if l.gone || dst.isEmpty then s.dropLineOf cmd l.idx
   else s.setLineOf cmd { l with dst, fault := none, deaf := false, waits := none }).settleCommand cmd

/-- The next barrier object of a faulted command takes FLT, if it is valid, once its line serves (R250). -/
def State.nextFlt (s : State) (c : CopyCommand) (l : CopyLine) (b : Nat) (rest : List Nat) : State :=
  let cid := (s.team c.team).cluster
  match s.lineFor cid (keyOf b) 16 true c.sys with
  | (some w, s1) => s1.lineWaits c.id l w
  | (none, s1) =>
    let s2 := if objTag (s1.poolNat cid (keyOf b) 16) = 0xA then s1.deliverFault cid (keyOf b) else s1
    (s2.setLineOf c.id { l with waits := none }).updCommand c.id fun k => { k with flts := rest }

/-- A faulted stream lets its ring go once the header's line serves (R254). -/
def State.letGo (s : State) (c : CopyCommand) (l : CopyLine) : State :=
  match s.lineFor (s.team c.team).cluster (keyOf c.ring) 16 true c.sys with
  | (some w, s1) => s1.lineWaits c.id l w
  | (none, s1) => ((s1.unbind c).setLineOf c.id { l with waits := none }).updCommand c.id fun k => { k with unbinds := false }

/-- COPY_LINE_FAULT: the first fault of a command is recorded; then its barrier objects take FLT one by one, in any order
(R413), and a stream lets its ring go. After that, as after any later fault, the line is over, or goes on with the replicas
that have not failed. -/
def execCopyLineFault (cmd line : Nat) (s : State) : Host.Outcome State Fault Refusal :=
  .next <| match s.command? cmd with
  | none => s
  | some c =>
    match c.line line with
    | none => s
    | some l =>
      match l.fault with
      | none => s
      | some cause =>
        if !c.faulted then s.recordFault c line cause
        else if c.faultAt != some line then s.afterFault cmd l
        else match c.flts with
          | b :: rest => s.nextFlt c l b rest
          | [] => if c.unbinds then s.letGo c l else s.afterFault cmd l

/-- Take the element `k` of a list to its front. -/
def toFront {α : Type} (k : Nat) (xs : List α) : List α := (xs[k]?).toList ++ xs.take k ++ xs.drop (k + 1)

/-- A command's line takes another replica first, or a faulted command another barrier object. -/
def State.replicaFirst (s : State) (cmd line k : Nat) : State :=
  match s.command? cmd with
  | none => s
  | some c =>
    if c.faultAt == some line then s.updCommand cmd fun c => { c with flts := toFront k c.flts }
    else match c.line line with
      | none => s
      | some l => if l.fault.isSome then s else s.setLineOf cmd { l with dst := toFront k l.dst }

/-- STREAM_SLOT_RESUME: a stream without a slot takes the next one. -/
def execStreamSlotResume (cmd : Nat) (s : State) : Host.Outcome State Fault Refusal :=
  .next <| match s.command? cmd with
  | none => s
  | some c => if !c.started || s.streamStopped c then s else s.takeSlot c

end Sys2Proof.Machine
end

