-- ==== Sys2Proof/Machine/CopyWords.lean ====
section
/-! DEFINITION. The copy and stream instructions, opcodes 0xA0 to 0xA8 (09_copy.md R245 to R255). -/

namespace Sys2Proof.Machine

open Sys2Proof

/-- The address checks of a list of (address, alignment): alignments first, then R18 (R246). -/
def addressesFault (c : Ctx) (as : List (Nat × Nat)) : Option Cause :=
  if as.any fun p => p.1 % p.2 != 0 then some .misaligned
  else as.findSome? fun p => poolCheck c.cluster p.1

/-- What an engine refuses about a record, with its cause: R242, R244, R246, R247, R254. Of several refusals the first in this
order is raised: the record's, the index list's, the palette reservation's, the ring's (DESIGN CHOICE,
notes/assumptions/120.md). -/
def recordRefusal (c : Ctx) (m : Matrix) (kind v list ring : Nat) (hdr : Nat) : Option Cause :=
  let cl := c.cluster
  let last := list + 4 * (layExt v 1 + 1) - 1
  if layStatus cl v c.tm.depth (c.tm.gplane.toNat % 2 ^ 32) ≠ 0 then some .illegalOperand
  else if layDst v = 1 && kind != 0 && kind != 2 then some .illegalOperand
  else if layGL v && decide (2 ≤ kind) then some .illegalOperand
  else if (kind = 1 || kind = 2 || kind = 3) && layMask v != 0 then some .illegalOperand
  else if (kind = 2 || kind = 3) && layNdim v != 2 then some .illegalOperand
  else if 4 ≤ kind && (layPbase v != 0 || layMask v != 0 || [1, 2, 3, 4].any fun d => layPs v d != 0) then some .illegalOperand
  else if (kind = 2 || kind = 3) && ((poolCheck cl last).isSome || last / 2 ^ 24 != list / 2 ^ 24) then some .poolOutside
  else if layDst v = 1 then
    let p := layRow v / 64
    let j := layExt v 1
    let top := bits (layPbase v) 18 6 + 64 * p * (j / 64) + 64 * (p - 1) + j % 64
    match m.slot? (layPbase v % 64) with
    | none => some .slotNotReserved
    | some ps => if 64 * recNP ps.record ≤ top then some .shapeMismatch else none
  else if 4 ≤ kind && (ringTag hdr != 5 || bit hdr (if kind = 4 then 127 else 126)) then some .ringMisuse
  else if ring % 32 ≠ 0 then some .misaligned
  else none

/-- A transfer command (R245): for each Active thread in rank order its addresses are checked, its earlier pool stores
performed, its record read and checked, and the command accepted into queue Q. The TADDR of its address traps is the record's
address (DESIGN CHOICE, notes/assumptions/119.md). -/
def copyWord (i : Instr) (w : FmtE) (kind : Nat) (s : State) : State :=
  let q := w.q.toNat
  runWord i s fun c =>
    let cid := c.tm.cluster
    runThreads (fun s rank =>
      let rec_ := c.val rank w.s1.toNat 1
      let second := c.val rank w.s2.toNat 1
      let bar := if 4 ≤ kind || w.d.toNat = 255 then none else some (c.val rank w.d.toNat 1)
      let as := [(rec_, 64)] ++ (if kind = 2 || kind = 3 then [(second, 4)] else []) ++ (if 4 ≤ kind then [(second, 32)] else []) ++
        bar.toList.map fun b => (b, 16)
      match addressesFault c as with
      | some cause => .trap s cause rec_ 0
      | none =>
        let stores := storesOf s c.tm.id [rank]
        if !stores.isEmpty then .hold s (.flights stores)
        else match objectWait c s rank rec_ 64 with
          | (some out, _) => out
          | (none, s0) =>
            match if 4 ≤ kind then objectWait c s0 rank second 32 else (none, s0) with
            | (some out, _) => out
            | (none, s1) =>
              let v := s1.poolNat cid (keyOf rec_) 64
              let h := s1.poolNat cid (keyOf second) 16
              match recordRefusal c (s1.matrixOf c.tm.id) kind v second (if 4 ≤ kind then second else 0) h with
              | some cause => .trap s1 cause rec_ 0
              | none =>
                if 64 ≤ (s1.commands.filter fun x => x.quad == c.tm.quad && x.queue == q).length then .hold s1 (.copyRoom c.tm.quad q)
                else
                  let cl := s1.cluster cid
                  let pslot := (((s1.matrixOf c.tm.id).slot? (layPbase v % 64)).map (·.id)).getD 0
                  let cmd : CopyCommand :=
                    { id := s1.nextId, quad := c.tm.quad, queue := q, team := c.tm.id, rank, kind, record := BitVec.ofNat 512 v,
                      pl := w.imm.toNat % 4, planes := layPlanes v c.tm.depth, stride := c.tm.gplane.toNat % 2 ^ 32,
                      list := second, bar, ring := second, sights := (List.range 128).map cl.sight, sys := c.gang.sys, pslot }
                  let s2 : State := { s1 with nextId := s1.nextId + 1, commands := s1.commands ++ [cmd] }
                  let side := if kind = 4 then 127 else 126
                  .ok (if 4 ≤ kind then s2.poolWrite cid (keyOf second) (toBytes 16 (setBits h side side 1)) else s2))
      (occupancy c.act.length false) s c.act []

def execTcopy (w : FmtE) (s : State) : Host.Outcome State Fault Refusal := .next (copyWord (.tcopy w) w 0 s)
def execTstore (w : FmtE) (s : State) : Host.Outcome State Fault Refusal := .next (copyWord (.tstore w) w 1 s)
def execTgather (w : FmtE) (s : State) : Host.Outcome State Fault Refusal := .next (copyWord (.tgather w) w 2 s)
def execTscat (w : FmtE) (s : State) : Host.Outcome State Fault Refusal := .next (copyWord (.tscat w) w 3 s)
def execTstream (w : FmtE) (s : State) : Host.Outcome State Fault Refusal := .next (copyWord (.tstream w) w 4 s)
def execTdrain (w : FmtE) (s : State) : Host.Outcome State Fault Refusal := .next (copyWord (.tdrain w) w 5 s)

/-- TLAY moves a record's window at its share and reports its status (R255). Its occupancy is that of a word of 4 bytes a
thread (R71; DESIGN CHOICE, notes/assumptions/113.md). -/
def execTlay (w : FmtE) (s : State) : Host.Outcome State Fault Refusal :=
  .next (poolWord (.tlay w) s (fun c => occupancy c.act.length false) 2 1 false true false
    (fun c rank => .ok ([c.val rank w.s1.toNat 1], 64)) fun c rank =>
      let op := PoolOp.layout (bit w.imm.toNat 0) (bit w.imm.toNat 1) (c.val rank w.s2.toNat 2) c.tm.depth
        (c.tm.gplane.toNat % 2 ^ 32) (destFor c rank w.d.toNat)
      [[[{ ea := c.val rank w.s1.toNat 1, size := 64, op }]]])

/-- TWAIT waits for the team's commands accepted in a queue before the word (R253). -/
def execTwait (w : FmtE) (s : State) : Host.Outcome State Fault Refusal :=
  .next (gangWord (.twait w) s (fun _ => 6) fun c =>
    let (ticket, s1) := s.issue c.gid c.tm.id 6 c.act
    let ids := (s.commands.filter fun k => k.team == c.tm.id && k.queue == w.q.toNat).map (·.id)
    .done { s1 with engineWaits := s1.engineWaits ++
      [{ ticket, team := c.tm.id, ranks := c.act, ids, act := .twait w.q.toNat w.d.toNat }] } 6)

/-- TCANCEL ends the started command of the team in a queue as a fault with cause 0, and those that have not started,
whose data does not move (R251). -/
def execTcancel (w : FmtE) (s : State) : Host.Outcome State Fault Refusal :=
  .next (gangWord (.tcancel w) s (fun _ => 6) fun c =>
    let mine := s.commands.filter fun k => k.team == c.tm.id && k.queue == w.q.toNat
    let s3 := mine.foldl (fun (s : State) k => s.updCommand k.id fun k =>
      { k with started := true, ended := true, issued := k.issued + 1, waits := none,
               lines := k.lines ++ [{ idx := k.issued, fault := some 0, gone := true }] }) s
    let (ticket, s4) := s3.issue c.gid c.tm.id 5 [c.first]
    .done { s4 with engineWaits := s4.engineWaits ++
      [{ ticket, team := c.tm.id, ranks := [c.first], ids := mine.map (·.id), act := .cancel }] } 6)

end Sys2Proof.Machine
end

