-- ==== Sys2Proof/Machine/Ordering.lean ====
section
/-! DEFINITION. FENCE, FENCEQ and SIGHT, opcodes 0x81 to 0x83 (13_ordering.md R352, R358 to R361). -/

namespace Sys2Proof.Machine

open Sys2Proof

/-! ### Scopes (R349, R350) -/

/-- The instance of a scope that an event belongs to (R349): a team, a cluster, a pod device, or the devices of a job's
device set without and with the host agents. -/
inductive ScopeInstance where
  | team (id : Nat)
  | cluster (id : Nat)
  | device (pod : Nat)
  | fabric (devices : List Nat)
  | system (devices : List Nat)
  deriving DecidableEq, Repr

/-- The instance of scope code `sc` of a thread's event, or of an event of an engine at work for a team, which belongs to
no team instance (R349). -/
def State.scopeOf (s : State) (team sc : Nat) (engine : Bool) : Option ScopeInstance :=
  let t := s.team team
  match sc with
  | 1 => if engine then none else some (.team team)
  | 2 => some (.cluster t.cluster)
  | 3 => some (.device s.pod)
  | 4 => some (.fabric (s.job t.job).devices)
  | 5 => some (.system (s.job t.job).devices)
  | _ => none

/-- A release of team `a`'s thread at scope `sa` and an acquire of team `b`'s at scope `sb`, which reads what it wrote,
synchronise: each lies in the other's instance (R350). The model keeps the orders of R345 for every observer, also where
this fails (DESIGN CHOICE, notes/assumptions/102.md). -/
def State.synchronises (s : State) (a sa b sb : Nat) : Bool :=
  (s.scopeOf a sa false).isSome && s.scopeOf b sa false == s.scopeOf a sa false &&
  (s.scopeOf b sb false).isSome && s.scopeOf a sb false == s.scopeOf b sb false

/-! ### What a fence waits for -/

/-- A request that reads. -/
def HomeOp.reads : HomeOp → Bool
  | .probe _ | .sibling .. | .recon .. | .cas .. | .pop .. => true
  | .atomic _ _ _ d _ => d.isSome
  | _ => false

/-- Earlier accesses of the Active threads that a fence orders: all, or for an acquire fence the reads. -/
def fenceIds (c : Ctx) (s : State) (acq : Bool) : List Nat :=
  ((s.accesses.filter fun a => a.team == c.tm.id && c.act.contains a.rank && (!acq || a.op.reads)).map (·.id)) ++
  ((s.reqs.filter fun r => r.team == c.tm.id && c.act.contains r.rank && !r.back && r.cmd.isNone && !r.op.local &&
      (!acq || r.op.reads)).map (·.id))

/-- The side-log entries that a release of the Active threads covers (R356). -/
def fenceLogs (c : Ctx) (s : State) (sc : Nat) : List Nat :=
  c.act.flatMap fun r => s.covered c.tm.id r c.tm.cluster sc s.commandRuns

/-- FENCE: the earlier accesses perform; beyond the cluster a release runs the write-backs and then the covered replays,
and an acquire after that the invalidation and the refresh (R352, R358). The gang is held all the while; its `flight`
holds the requests of these steps: the write-backs, 0 where there are none, and the acquire. -/
def execFence (w : FmtM) (s : State) : Host.Outcome State Fault Refusal :=
  let sc := w.sc.toNat
  let rel := w.or != 2
  let acq := w.or != 3
  .next (runWord (.fence w) s fun c =>
    if c.act.isEmpty then .done s 6
    else
      let wait := fun (s : State) (ids : List Nat) => WordOut.hold s [] (.flights ids)
      let launch := fun (s : State) (before : List Nat) (op : HomeOp) =>
        let (id, s1) := s.sendReq { mapReq c c.lead 0 [] op with sc, ord := if rel then 3 else 0 }
        wait (s1.updGang c.gid fun g => { g with flight := before ++ [id] }) [id]
      let goAcquire := fun (before : List Nat) => if acq then launch s before (.acquire true) else .done s 6
      match c.gang.flight with
      | [] =>
        let ids := fenceIds c s (!rel) ++ (if rel then fenceLogs c s 2 else [])
        if !ids.isEmpty then wait s ids
        else if sc < 3 then .done s 6
        else if rel then launch s [] (.walk 0 (48 * 2 ^ 20))
        else goAcquire [0]
      | [back] =>
        let ids := s.flying true [back] ++ fenceLogs c s sc
        if !ids.isEmpty then wait s ids else goAcquire [back]
      | ids =>
        let ids := s.flying false (ids.drop 1)
        if !ids.isEmpty then wait s ids else .done s 6)

/-- SIGHT starts one refresh of the cluster's sight vector once the earlier accesses of the Active threads have performed;
it is a long result of class 1 (R361). -/
def execSight (w : FmtM) (s : State) : Host.Outcome State Fault Refusal :=
  .next (gangWord (.sight w) s (fun _ => 6) fun c =>
    let (ticket, s1) := s.issue c.gid c.tm.id 1 [c.first]
    let logged := (s.side.filter fun e => e.req.team == c.tm.id && c.act.contains e.req.rank && !e.req.back && e.req.cmd.isNone).map (·.req.id)
    .done (s1.sendReq { mapReq c c.first ticket (fenceIds c s false ++ logged) (.acquire false) with ord := 3 }).2 6)

/-- The messages of a team that are neither delivered nor reported lost. -/
def State.sentBy (s : State) (team : Nat) : List Nat := (s.sendBuf.filter fun m => m.team == team).map (·.id)

/-- FENCEQ waits for the team's commands of the named queues and is then an acquire for every Active thread (R359,
R360). Its result belongs to the gang as a whole (R85). -/
def execFenceq (w : FmtE) (s : State) : Host.Outcome State Fault Refusal :=
  let m := w.imm.toNat
  .next (gangWord (.fenceq w) s (fun _ => 6) fun c =>
    let (ticket, s1) := s.issue c.gid c.tm.id 6 [c.first]
    let ids :=
      ((s.commands.filter fun k => k.team == c.tm.id && m.testBit k.queue).map (·.id)) ++
      (if m.testBit 16 then (s.mcommands.filter fun k => k.team == c.tm.id).map (·.id) else []) ++
      (if m.testBit 17 then s.sentBy c.tm.id else []) ++
      (if m.testBit 18 then (s.colls.filter fun k => k.team == c.tm.id).map (·.id) else [])
    .done { s1 with engineWaits := s1.engineWaits ++
      [{ ticket, team := c.tm.id, ranks := c.act, ids, act := .fenceq w.q.toNat }] } 6)

end Sys2Proof.Machine
end

