-- ==== Sys2Proof/Machine/Tasks.lean ====
section
/-! DEFINITION. The task and launch forms SPAWN, LAUNCH, PARK, TQPOP, JOINW and STEAL, opcodes 0xC0 to 0xC5 (11_tasks.md
R303 to R312). Their work at a home is `State.homePerform`. -/

namespace Sys2Proof.Machine

open Sys2Proof

/-- A word's result of `n` registers for each rank of a gang, the same value: a g register takes it once (R110). -/
def State.answerAll (s : State) (ticket team : Nat) (ranks : List Nat) (d n v : Nat) : State :=
  ranks.foldl (fun (s : State) rank =>
    s.addRegResults ticket team rank (if 192 ≤ d && d < 255 && rank ≠ ranks.headD 0 then []
      else valueWrites (s.team team).depth d n v fun _ => 0)) s

/-- Every part of a ticket that is owed to the ranks listed is made good without a result. -/
def State.settleAll (s : State) (ticket : Nat) (ranks : List Nat) : State :=
  ranks.foldl (fun (s : State) rank => s.settleTicket ticket rank) s

/-- The release of a word at scope `sc` before its own effect (R352): the Active threads' earlier accesses perform, at
scope 3 and wider the cluster writes back, and the covered replays are accepted. The gang is held meanwhile; its
`flight` holds the write-back's request, after a 0 where the word has counted its records. -/
def releaseThen (c : Ctx) (s : State) (sc : Nat) (k : State → WordOut) : WordOut :=
  match c.gang.flight.filter (· != 0) with
  | [] =>
    let ids := fenceIds c s false ++ fenceLogs c s 2
    if !ids.isEmpty then .hold s [] (.flights ids)
    else if sc < 3 then k s
    else
      let (id, s1) := s.sendReq { mapReq c c.lead 0 [] (.walk 0 (48 * 2 ^ 20)) with sc, ord := 3 }
      .hold (s1.updGang c.gid fun g => { g with flight := g.flight ++ [id] }) [] (.flights [id])
  | ids =>
    let ids := s.flying true ids ++ fenceLogs c s sc
    if !ids.isEmpty then .hold s [] (.flights ids) else k s

/-- A queue word (R307): once for the gang, at the header that the lowest-ranked Active thread names. At its first
execution `before` does what comes before the home step and gives the request; the gang is held until the home has
performed the step or refused it, and `refused` undoes what a refusal undoes. -/
def queueWord (i : Instr) (w : FmtE) (s : State) (cls : Nat) (strong : Bool) (before : Ctx → State → Except WordOut State)
    (op : Ctx → HomeOp) (ord : Nat) (refused : Ctx → State → State) : State :=
  gangWord i s (fun c => occupancy c.act.length true) fun c =>
    let va := c.val c.lead w.s1.toNat 2
    match c.gang.flight with
    | id :: _ =>
      match s.ends.find? fun e => e.1 == id with
      | none => .hold s [] (.flights [id])
      | some e =>
        let s1 : State := { s with ends := s.ends.filter fun e => e.1 != id }
        match e.2 with
        | .done => .done s1 (occupancy c.act.length true)
        | .refused cause a info => .trap (refused c s1) [] cause a info
    | _ =>
      if va % 64 ≠ 0 then .trap s [] .misaligned va 0
      else
        match s.translate c.job.asid va c.gang.sys { r := true, w := true, a := true } with
        | (.fail cause info, s1) =>
          if !strong && (Trans.fail cause info).holds va then .hold (s1.notePage c.job.asid va 3) [] (.page c.job.asid va)
          else .trap s1 [] cause va info
        | (.ok pa e, s1) =>
          match before c s1 with
          | .error out => out
          | .ok s2 =>
            let (ticket, s3) := s2.issue c.gid c.tm.id cls c.act
            let after := if ord = 3 then fenceIds c s3 false ++ fenceLogs c s3 2 else []
            let (id, s4) := s3.sendReq { mapReq c c.lead ticket after (op c) with va, pa, leaf := e, sc := 3, ord }
            .hold (s4.updGang c.gid fun g => { g with flight := [id, ticket] }) [] (.flights [id])

/-- The record of a thread: the 16 bytes of four registers. -/
def recordOf (c : Ctx) (w : FmtE) (rank : Nat) : BitVec 128 := BitVec.ofNat 128 (c.val rank w.s2.toNat 4)

/-- The port counts the records of a SPAWN as injected when the word issues, local or remote (R306). -/
def countSpawn (c : Ctx) (s : State) : State :=
  s.count c.tm.quad c.tm.job fun k => { k with mi := addCount k.mi c.act.length }

/-- SPAWN through a channel entry of KIND 4 (R307, R337): one message of two elements for each Active thread. -/
def spawnSends (c : Ctx) (w : FmtE) (s : State) : WordOut :=
  let q := w.imm.toNat / 8 % 64
  runThreads (fun s rank =>
    if !s.sendRoom c.tm.quad 1 then .hold s (.sendRoom c.tm.quad 1)
    else
      let v := (recordOf c w rank).toNat
      .ok (s.bufferSend c.tm rank q (c.tm.chans.getD q 0) [BitVec.ofNat 64 v, BitVec.ofNat 64 (v / 2 ^ 64)]
        (if w.imm.toNat / 2 % 2 = 1 then 3 else 0)))
    (occupancy c.act.length true) s c.act []

/-- SPAWN (R308): the records count as injected when the word issues, and as consumed where the step does not place them
(R306). With CH the gang's `flight` tells by a 0 that they have been counted. -/
def execSpawn (w : FmtE) (s : State) : Host.Outcome State Fault Refusal :=
  let rel := w.imm.toNat / 2 % 2 = 1
  .next <|
    if w.imm.toNat / 4 % 2 = 1 then
      gangWord (.spawn w) s (fun _ => 6) fun c =>
        let send := fun (s : State) => if rel then releaseThen c s 3 (spawnSends c w) else spawnSends c w s
        if !c.gang.flight.isEmpty then send s
        else match s.sendFault c.tm (c.tm.chans.getD (w.imm.toNat / 8 % 64) 0) [4] with
          | some cause => .trap s [] cause 0 0
          | none =>
            if !s.canCount c.tm.quad c.tm.job then .hold s [] (.counterSet c.tm.quad c.tm.job)
            else send ((countSpawn c s).updGang c.gid fun g => { g with flight := [0] })
    else
      queueWord (.spawn w) w s 5 rel
        (fun c s =>
          if !s.canCount c.tm.quad c.tm.job then .error (.hold s [] (.counterSet c.tm.quad c.tm.job)) else .ok (countSpawn c s))
        (fun c => .spawn (c.act.map (recordOf c w)) c.act (if w.imm.toNat % 2 = 1 then some w.d.toNat else none))
        (if rel then 3 else 0)
        (fun c s => s.count c.tm.quad c.tm.job fun k => { k with mc := addCount k.mc c.act.length })

/-- TQPOP and STEAL (R309): the tasks that the Active threads hold retire first, after the sends that these threads have
issued are counted (R306). -/
def popWord (i : Instr) (w : FmtE) (steal : Bool) (s : State) : State :=
  let acq := w.imm.toNat % 2 = 1
  queueWord i w s 1 acq
    (fun c s =>
      let held := c.act.filter fun r => (s.thread c.tm.id r).task
      let sends := s.pendingSends c.tm.id held
      if !sends.isEmpty then .error (.hold s [] (.flights sends))
      else if !held.isEmpty && !s.canCount c.tm.quad c.tm.job then
        .error (.hold s [] (.counterSet c.tm.quad c.tm.job))
      else .ok (c.act.foldl (fun s r => s.retireTask c.tm.id r) s))
    (fun c => .pop steal c.act w.d.toNat) (if acq then 2 else 0) fun _ s => s

def execTqpop (w : FmtE) (s : State) : Host.Outcome State Fault Refusal := .next (popWord (.tqpop w) w false s)
def execSteal (w : FmtE) (s : State) : Host.Outcome State Fault Refusal := .next (popWord (.steal w) w true s)

/-- The LAUNCH requests of a team that have not been accepted. -/
def State.launching (s : State) (team : Nat) : List Nat :=
  (s.reqs.filter fun r => r.team == team && match r.op with
    | .launch .. => true
    | _ => false).map (·.id)

/-- LAUNCH (R311): by the team leader alone. The request releases at device scope and then submits the child, whose
handle is the word's result; a descriptor that cannot be read makes an invalid launch (R296), which goes to the dispatcher of
the team's own die. -/
def execLaunch (w : FmtE) (s : State) : Host.Outcome State Fault Refusal :=
  .next (gangWord (.launch w) s (fun c => occupancy c.act.length true) fun c =>
    let va := c.val c.lead w.s1.toNat 2
    if c.lead ≠ 0 then .trap s [] .illegalOperand 0 0
    else if va % 128 ≠ 0 then .trap s [] .misaligned va 0
    else if 64 ≤ c.tm.children.length + (s.launching c.tm.id).length then .hold s [] (.children c.tm.id)
    else
      let (pa, leaf) := match (s.translate c.job.asid va c.gang.sys { r := true }).1 with
        | .ok pa e => (pa, e)
        | .fail _ _ => (2 ^ 39, BitVec.ofNat 64 (c.tm.quad / 32 * 2 ^ 10))
      let (ticket, s1) := s.issue c.gid c.tm.id 5 c.act
      let (_, s2) := s1.sendReq { mapReq c c.lead ticket [] (.launch c.act w.d.toNat) with va, pa, leaf, sc := 3, ord := 3 }
      .done s2 (occupancy c.act.length true))

/-- JOINW (R312): the wait for the child named, or for every child launched so far; a handle that names no child answers
at once. -/
def execJoinw (w : FmtE) (s : State) : Host.Outcome State Fault Refusal :=
  .next (gangWord (.joinw w) s (fun c => occupancy c.act.length false) fun c =>
    let h := if w.s1.toNat = 255 then none else some (c.val c.lead w.s1.toNat 1)
    let (ticket, s1) := s.issue c.gid c.tm.id 6 c.act
    let occ := occupancy c.act.length false
    match h with
    | some n =>
      if c.tm.children.contains n || c.tm.joined.any fun p => p.1 == n then
        .done { s1 with engineWaits := s1.engineWaits ++ [{ ticket, team := c.tm.id, ranks := c.act, act := .join h w.d.toNat }] } occ
      else .done (s1.answerAll ticket c.tm.id c.act w.d.toNat 1 0xFF) occ
    | none =>
      .done { s1 with engineWaits := s1.engineWaits ++ [{ ticket, team := c.tm.id, ranks := c.act, act := .join none w.d.toNat }] } occ)

/-- The words of a continuation object of a thread (R310). -/
def parkWords (c : Ctx) (w : FmtE) (rank : Nat) : List Nat :=
  let mask := w.imm.toNat % 2 ^ 16
  let base := w.s2.toNat
  c.gang.nextPc % 2 ^ 57 :: (mask + base * 2 ^ 16 + c.tm.depth * 2 ^ 24 + rank * 2 ^ 32) ::
  (List.range (c.tm.depth + 1)).flatMap fun k => (List.range 8).map fun j =>
    let v := fun i => if mask.testBit i then c.tan rank k (base + i) 1 else 0
    v (2 * j) + 2 ^ 32 * v (2 * j + 1)

/-- PARK (R310): each Active thread's object is written by weak stores in ascending order, and its tasks retire, after the
sends that it has issued are counted (R306). -/
def execPark (w : FmtE) (s : State) : Host.Outcome State Fault Refusal :=
  .next (runWord (.park w) s fun c =>
    let (ticket, s0) := s.issue c.gid c.tm.id 0 (if c.act.isEmpty then [] else [c.lead])
    let out := runThreads (fun s rank =>
      let a := c.val rank w.s1.toNat 1
      let ws := parkWords c w rank
      let addrs := (List.range ws.length).map fun i => (a + 8 * i) % 2 ^ 32
      let fault := if a % 16 ≠ 0 then some (Cause.misaligned, a)
        else addrs.findSome? fun x => (poolCheck c.cluster x).map fun cause => (cause, x)
      match fault with
      | some (cause, x) => .trap s cause x 0
      | none =>
        match lineHold c s addrs 8 false true with
        | some (line, ea) => holdLine c s rank line ea true
        | none =>
          let t := s.thread c.tm.id rank
          let sends := s.pendingSends c.tm.id [rank]
          if t.task && !sends.isEmpty then .hold s (.flights sends)
          else if (t.task || t.handler) && !s.canCount c.tm.quad c.tm.job then .hold s (.counterSet c.tm.quad c.tm.job)
          else
            let pieces := (addrs.zip ws).map fun p => ({ ea := p.1, size := 8, op := .store (toBytes 8 p.2) } : Piece)
            .ok (((sendSets c rank ticket 0 0 s [pieces.map fun p => [p]]).retireTask c.tm.id rank).retireHandler c.tm.id rank))
      (occupancy c.act.length true) s0 c.act []
    match out with
    | .done s o => .done (s.settleTicket ticket c.lead) o
    | .trap s com cause a b => .trap (s.settleTicket ticket c.lead) com cause a b
    | .hold s com w => .hold (s.settleTicket ticket c.lead) com w
    | .left s => .left s)

end Sys2Proof.Machine
end

