-- ==== Sys2Proof/Machine/Launch.lean ====
section
/-! DEFINITION. The dispatchers and the lives of grids, clusters and teams (11_tasks.md R297 to R302, R313): the rows
CLUSTER_PLACEMENT, LEADER_PROPOSAL, LEADER_ACK_TIMEOUT, RETIREMENT_REPORT and TEAM_RETIREMENT. -/

namespace Sys2Proof.Machine

open Sys2Proof

/-! ### Leaders (R299) -/

/-- LEADER_PROPOSAL: the accepting die proposes itself; while the seam works the other die acknowledges at once. -/
def execLeaderProposal (grid : Nat) (s : State) : Host.Outcome State Fault Refusal :=
  let g := s.grid grid
  .next <|
    if g.id ≠ grid || g.leader.isSome || g.proposed.isSome || g.status.isSome || !s.dieUp g.die then s
    else s.updGrid grid fun g => if s.spans then { g with leader := some g.die } else { g with proposed := some s.now }

/-- LEADER_ACK_TIMEOUT: 10 µs without an acknowledgement, and the proposer runs the grid alone. -/
def execLeaderAckTimeout (grid : Nat) (s : State) : Host.Outcome State Fault Refusal :=
  let g := s.grid grid
  .next <| match g.proposed with
  | some t =>
    if g.leader.isNone && g.status.isNone && decide (t + micros 10 ≤ s.now) then
      s.updGrid grid fun g => { g with leader := some g.die, alone := true }
    else s
  | none => s

/-! ### Placement (R297, R298) -/

/-- A grid has an index for a die to place: the leader's next, or one of those granted to the follower. -/
def State.hasIndex (s : State) (g : Grid) (die : Nat) : Bool :=
  g.status.isNone && !g.stopped && s.dieUp die &&
  match g.leader with
  | none => false
  | some l =>
    if l = die then decide (g.next < g.total) || (g.alone && !g.granted.isEmpty) else !g.alone && s.spans && !g.granted.isEmpty

/-- The earlier launches that a grid follows have retired (R302). -/
def State.startable (s : State) (g : Grid) : Bool := g.turn != 0 || g.after.all fun a => (s.grid a).status.isSome

/-- The leader may grant a chunk of indices to the other die, which holds at most two that it has not yet placed (R299).
Bonded clusters are the leader's to place. -/
def State.mayGrant (s : State) (g : Grid) (die : Nat) : Bool :=
  g.status.isNone && !g.stopped && g.leader.isSome && g.leader != some die && !g.alone && g.bond != 2 && s.dieUp die && s.spans &&
  s.startable g && decide (g.granted.length < 2) && decide (g.next < g.total)

/-- Grant a chunk of 16 indices, or fewer at the end of the grid. -/
def Grid.grant (g : Grid) : Grid :=
  let n := min 16 (g.total - g.next)
  { g with next := g.next + n, granted := g.granted ++ [(List.range n).map fun i => g.next + i] }

/-- The granted indices without the first, which is placed. -/
def dropGranted : List (List Nat) → List (List Nat)
  | (_ :: i :: is) :: cs => (i :: is) :: cs
  | _ :: cs => cs
  | [] => []

/-- The grid of a class whose turn it is on a die: one cluster each, started in acceptance order. One that finds no room holds
the others of its class (R297; DEDUCED, notes/assumptions/106.md). -/
def State.turnOf (s : State) (die prio : Nat) : Option Grid :=
  let mine := s.grids.filter fun g => g.prio == prio && g.status.isNone && (g.die == die || g.turn != 0 || g.leader.isSome)
  let waits := mine.filter fun g => g.turn == 0 && g.die == die && (g.leader.isNone || !s.startable g)
  let cands := mine.filter fun g => s.hasIndex g die && s.startable g &&
    (g.turn != 0 || waits.all fun w => decide (g.order < w.order))
  cands.foldl (fun (b : Option Grid) g => match b with
    | none => some g
    | some x => if g.turn < x.turn || (g.turn == x.turn && decide (g.order < x.order)) then some g else b) none

/-- A quad has room for a team of a grid now. -/
def State.quadRoom (s : State) (g : Grid) (quad : Nat) : Bool := s.fits g.fit (s.residents quad) quad

/-- A set of quads on which a die can place a cluster of a grid now. -/
def State.roomFor (s : State) (g : Grid) (die : Nat) : Option (List Nat) :=
  let ok := s.quadRoom g
  let bonded := if g.leader = some die then s.findBonded ok g.teams else none
  match g.bond with
  | 0 => s.findOn ok g.teams die
  | 2 => bonded
  | _ =>
    match s.findOn ok g.teams die with
    | some qs => some qs
    | none => if (s.findOn ok g.teams (1 - die)).isSome then none else bonded

/-- A set of quads is one on which the die may place a cluster of the grid. -/
def State.setOk (s : State) (g : Grid) (die : Nat) (quads : List Nat) : Bool :=
  let here := quads.all fun q => q / 32 == die
  let both := (quads.any fun q => q / 32 == 0) && quads.any fun q => q / 32 == 1
  let alone := fun d => (s.findOn (s.quadRoom g) g.teams d).isSome
  quads.length == g.teams && s.connected quads && (quads.all (s.quadRoom g)) &&
  match g.bond with
  | 0 => here
  | 2 => both && g.leader == some die
  | _ => here || (both && g.leader == some die && !alone 0 && !alone 1)

/-- Nothing of a higher class can be placed on a die, and the grid's turn has come. -/
def State.mayPlace (s : State) (g : Grid) (die : Nat) : Bool :=
  (s.turnOf die g.prio).map (·.id) == some g.id &&
  ([0, 1, 2, 3].filter fun p => decide (g.prio < p)).all fun p => match s.turnOf die p with
    | none => true
    | some h => (s.roomFor h die).isNone

/-- A cluster has write-backs that are neither accepted nor discarded (R218). -/
def State.writesBack (s : State) (cluster : Nat) : Bool :=
  (s.reqs.any fun r => r.cluster == cluster && (r.back || r.op.local)) || s.side.any fun e => e.req.cluster == cluster && e.req.back

/-- The lowest free writer group of a die's parity (R218, R298; which free one the spec does not say: DESIGN CHOICE,
notes/assumptions/106.md). -/
def State.freeGroup (s : State) (die : Nat) : Nat :=
  let used := fun n => s.clusters.any fun c => c.group == n && (!(c.retired || c.aborted) || s.writesBack c.id)
  (((List.range (s.clusters.length + 1)).map fun i => 2 * i + die).find? fun n => !used n).getD die

/-- The initial gangs of a team in a lane (R70). Split gangs of other teams can hold the entries of the lane; the spec does
not say what becomes of an initial gang then: its threads are filed (DESIGN CHOICE, notes/assumptions/109.md). -/
def State.formLane (s : State) (t : Team) (entry lane : Nat) : State :=
  let ranks := (List.range (laneThreads t.ntid lane)).map fun i => lane + 32 * i
  (List.range ((ranks.length + 31) / 32)).foldl (fun (s : State) j =>
    let members := (ranks.drop (32 * j)).take 32
    match s.freeEntry t.quad lane with
    | some e => { s with
        nextId := s.nextId + 1,
        gangs := s.gangs ++ [{ id := s.nextId, team := t.id, lane, entry := e, members, pc := entry, sys := t.sys, idleSince := s.dieClock (t.quad / 32) }] }
    | none => s.sendToFolds (members.map fun r => { quad := t.quad, lane, team := t.id, rank := r, pc := entry, carry := { sys := t.sys } })) s

/-- A thread at its start (R106, R364). -/
def freshThread (team rank alloc depth : Nat) : Thread :=
  { team, rank, regs := List.replicate (alloc * (depth + 1)) 0, window := List.replicate 64 0 }

/-- A team of a cluster starts on a quad (R70, R106, R110, R149, R153, R315, R323). sr.gplane and sr.cseg start at zero:
R125 gives them the reset "launch", and no field of a descriptor supplies them (DESIGN CHOICE, notes/assumptions/90.md). -/
def State.startTeam (s : State) (g : Grid) (cluster idx quad : Nat) : State :=
  let f := g.fit
  let id := s.nextId
  let slot := ((List.range 4).find? fun i => (s.residents quad).all fun t => t.slot != i).getD 0
  let t : Team :=
    { id, cluster, grid := g.id, job := g.job, idx, quad, slot, ntid := g.threads, alloc := f.alloc, depth := g.depth,
      gall := g.gall, sys := g.sys, gregs := g.ginit ++ List.replicate (63 * (g.depth + 1) - g.ginit.length) 0,
      fregs := List.replicate 16 0xC60E, events := g.evt.map eventInit,
      winAt := List.replicate 5 (s.coreCount (4 * quad)), chans := List.replicate 64 0 }
  let s1 : State := { s with
    nextId := id + 1,
    teams := s.teams ++ [t],
    matrix := s.matrix ++ [{ team := id, cls := g.prio }],
    threads := s.threads ++ (List.range g.threads).map fun r => freshThread id r f.alloc g.depth }
  ((List.range 32).foldl (fun s lane => s.formLane t (g.entry + 32) lane) s1).count quad g.job
    fun c => { c with au := addCount c.au g.threads }

/-- A cluster of a grid starts (R177, R208, R218, R219, R298). -/
def State.startCluster (s : State) (g : Grid) (die index : Nat) (quads : List Nat) : State :=
  let id := s.nextId
  let qs := sortNat quads
  let group := s.freeGroup die
  let c : Cluster := { id, grid := g.id, job := g.job, index, die, quads := qs, share := g.fit.share, group,
                       regions := List.replicate 64 none, offs := List.replicate 128 0 }
  let s1 : State := { s with nextId := id + 1, clusters := s.clusters ++ [c] }
  let s2 := (List.range qs.length).foldl (fun s i => s.startTeam g id i (qs.getD i 0)) s1
  let (r, s3) := s2.sendReq { cluster := id, job := g.job, asid := (s.job g.job).asid, group, op := .acquire false }
  s3.updReq r fun r => { r with state := .refreshing }

/-- The activity of a grid's acceptance is lowered, once (R323). -/
def State.lowerGrid (s : State) (grid : Nat) : State :=
  let g := s.grid grid
  if g.lowered then s
  else (s.updGrid grid fun g => { g with lowered := true }).count (cpPort g.die) g.job fun c => { c with ad := addCount c.ad 1 }

/-- A grid has no cluster left to place. -/
def Grid.placedAll (g : Grid) : Bool := g.next == g.total && g.granted.isEmpty

/-- CLUSTER_PLACEMENT: a die whose dispatcher may place the grid's next index there does so. With no quads named, the
leader grants a chunk of indices to the die instead (R299). -/
def execClusterPlacement (grid die : Nat) (quads : List Nat) (s : State) : Host.Outcome State Fault Refusal :=
  let g := s.grid grid
  .next <|
    if g.id ≠ grid then s
    else if quads.isEmpty then if s.mayGrant g die then s.updGrid grid Grid.grant else s
    else if !s.mayPlace g die || !s.setOk g die quads || !(quads.all fun q => s.canCount q g.job) ||
        !s.canCount (cpPort g.die) g.job then s
    else
      -- a survivor that leads first places what it had been granted (R300)
      let leads := g.leader == some die && !(g.alone && !g.granted.isEmpty)
      let index := if leads then g.next else g.granted.flatten.headD 0
      let s1 := s.startCluster g die index quads
      let s2 := s1.updGrid grid fun g =>
        { g with
          next := if leads then g.next + 1 else g.next, granted := if leads then g.granted else dropGranted g.granted,
          placed := g.placed ++ [(index, die)], turn := s1.nextId }
      let s3 : State := { s2 with nextId := s2.nextId + 1 }
      let s4 := if (s3.grid grid).placedAll then s3.lowerGrid grid else s3
      -- a team's start and a cluster's placement are progress (R380)
      s4.progress fun x => x.job == g.job && !x.pers

/-! ### Retirement (R301, R302, R327) -/

/-- Messages in a team's receive queues and in the handler queues it owns. -/
def State.heldMessages (s : State) (team : Nat) : Nat :=
  (s.inbox.filter fun m => if m.handler then s.handlers.any fun h => h.team == team && h.quad == m.quad && h.queue == m.queue
    else m.team == team).length

/-- A team's queues are freed and what it held goes. -/
def State.freeTeam (s : State) (team : Nat) : State :=
  let mine := s.handlers.filter fun h => h.team == team
  { s with
    inbox := s.inbox.filter fun m => !(if m.handler then mine.any fun h => h.quad == m.quad && h.queue == m.queue else m.team == team),
    handlers := s.handlers.filter fun h => h.team != team,
    threads := s.threads.filter fun t => t.team != team,
    matrix := s.matrix.filter fun m => m.team != team,
    copyRecs := s.copyRecs.filter fun r => r.team != team }

/-- Nothing of a team is left to do, write-backs of its words in side logs among it (R97, R301, R356, R357). -/
def State.teamDone (s : State) (team : Nat) : Bool :=
  let t := s.team team
  (s.threads.all fun x => x.team != team || x.ended) && t.children.isEmpty &&
  (s.commands.all fun c => c.team != team) && (s.mcommands.all fun c => c.team != team) &&
  (s.colls.all fun c => c.team != team) && (s.accesses.all fun a => a.team != team) &&
  (s.reqs.all fun r => r.team != team) && (s.side.all fun e => e.req.team != team) &&
  (s.tickets.all fun x => x.team != team) && s.engineWaits.all fun w => w.team != team

/-- Write-back walks of a retiring cluster over single lines. Those that come before its retirement end when the writes
have performed, replays included (R356, R357). -/
def State.retireWalks (s : State) (c : Cluster) (first : Bool) (lines : List Nat) : List Nat × State :=
  lines.foldl (fun (p : List Nat × State) l =>
    let (id, s) := p.2.sendReq { cluster := c.id, job := c.job, asid := (s.job c.job).asid, group := c.group,
                                 ord := if first then 3 else 0, op := .walk l (l + 1) }
    (p.1 ++ [id], s)) (([] : List Nat), s)

/-- Dirty lines of a cluster. -/
def Cluster.dirty (c : Cluster) : List Nat := (c.lines.filter fun l => l.mask != 0).map (·.line)

/-- The record of a grid whose clusters have all retired, as its leader knows, is due (R301); where a die failed, those
that were not lost (R300). -/
def State.gridTest (s : State) (grid : Nat) : State :=
  s.updGrid grid fun g =>
    if g.status.isNone && g.ret0.length + g.ret1.length + g.lost.length == g.total then
      { g with status := some (if g.lost.isEmpty then 1 else 3, 0) } else g

/-- A cluster index retires on a die: its leader knows at once, or by the follower's report (R299). -/
def State.retireIndex (s : State) (grid die index : Nat) : State :=
  (s.updGrid grid fun g =>
    if g.leader.getD die = die then
      if die = 0 then { g with ret0 := g.ret0 ++ [index] } else { g with ret1 := g.ret1 ++ [index] }
    else { g with unreported := g.unreported ++ [index] }).gridTest grid

/-- TEAM_RETIREMENT: a team with nothing left to do retires. When it is the cluster's last, the cluster writes back its
dirty lines, or those that meet the grid's edges, and retires after that; the row is then enabled once more. -/
def execTeamRetirement (team : Nat) (s : State) : Host.Outcome State Fault Refusal :=
  let t := s.team team
  let c := s.cluster t.cluster
  let g := s.grid t.grid
  .next <|
    if t.id ≠ team then s
    else if t.retired then
      match c.leaving with
      | none => s
      | some ids =>
        if c.retired || !(s.flying false ids).isEmpty then s
        else
          let s1 := (s.retireWalks c false c.dirty).2
          (s1.updCluster c.id fun c => { c with retired := true, leaving := none }).retireIndex c.grid c.die c.index
    else if !s.teamDone team || t.stat != 0 then s
    else
      let held := s.heldMessages team
      let s1 := (if held = 0 then s else s.postLoss t.job held t.quad).freeTeam team
      let s2 := s1.updTeam team fun t => { t with retired := true }
      let s3 := s2.progress fun x => x.job == t.job && !x.pers
      if s3.teams.any fun x => x.cluster == c.id && !x.retired then s3
      else
        let lines := if g.edges.isEmpty then c.dirty
          else (s3.edgeLines c.id g.edges).filter fun l => c.dirty.contains l
        let (ids, s4) := s3.retireWalks c true lines
        s4.updCluster c.id fun c => { c with leaving := some ids }

/-- RETIREMENT_REPORT: the leader learns of an index that retired on the other die (R299). -/
def execRetirementReport (grid index : Nat) (s : State) : Host.Outcome State Fault Refusal :=
  let g := s.grid grid
  .next <|
    if g.id ≠ grid || !g.unreported.contains index || !s.spans then s
    else (s.updGrid grid fun g =>
      let g1 := { g with unreported := g.unreported.erase index }
      if g.leader = some 1 then { g1 with ret0 := g1.ret0 ++ [index] } else { g1 with ret1 := g1.ret1 ++ [index] }).gridTest grid

end Sys2Proof.Machine
end

