-- ==== Sys2Proof/Machine/Messages.lean ====
section
/-! DEFINITION. Channels, messages and handler queues (12_messages.md R315 to R321, R330 to R333, R337): CHCFG, SEND, RECV,
MSGH and the delivery of messages. -/

namespace Sys2Proof.Machine

open Sys2Proof

/-- A gang-level read of the pool at its word (R179): checked, its lines present, earlier accesses performed. -/
def poolReadThen (c : Ctx) (s : State) (a size : Nat) (k : State → Nat → WordOut) : WordOut :=
  match accessCheck c a size false with
  | some cause => .trap s [] cause a 0
  | none =>
    match objectWait c s c.lead a size with
    | (some (.hold s1 w), _) => .hold s1 [] w
    | (some (.trap s1 cause x i), _) => .trap s1 [] cause x i
    | (some (.ok s1), _) => .left s1
    | (none, s1) =>
      let ids := s1.blockers { id := s1.nextId, cluster := c.tm.cluster, team := c.tm.id, rank := c.lead, src := coreSlot c.tm c.lead,
                               dst := some (bits a 29 24), key := keyOf a, size, seq := s1.nextId }
      if !ids.isEmpty then .hold s1 [] (.flights ids) else k s1 (s1.poolNat c.tm.cluster (keyOf a) size)

/-- Write one predicate of every Active thread. -/
def setPreds (c : Ctx) (s : State) (p : Nat) (v : Bool) : State := c.act.foldl (fun s r => s.setPred c.tm.id r p v) s

/-! ### Channel entries (R315, R316, R330) -/

/-- A channel image is valid in a cluster of `nteam` teams (R316). -/
def chanOk (v nteam : Nat) : Bool :=
  let kind := bits v 127 125
  let e := BitVec.ofNat 128 v
  if !chV e then v == 0
  else
    decide (kind ≤ 4) && bits v 119 106 == 0 && bits v 83 64 == 0 && decide (chLgd e ≤ 6) && (chRX e || chLgd e == 0) &&
    ((kind == 3 || kind == 4) || chDev e == 0) &&
    match kind with
    | 0 => chDq e == 0 && chDch e == 0 && chTagq e == 0
    | 1 => decide (chDq e < nteam) && bits v 31 0 == 0
    | 4 => chDq e == 0 && chDch e == 0 && bits v 63 57 == 0 && v % 64 == 0
    | _ => decide (chDch e < 16) && bits v 31 0 == 0

/-- The slots that a team's receive queues take (R316). -/
def Team.slotsTaken (t : Team) : Nat :=
  ((List.range 64).map fun i =>
    let e := t.chans.getD i 0
    if chV e && chRX e then 2 ^ chLgd e else 0).foldl (· + ·) 0

/-- Message slots of a quad's port in use (R316). -/
def State.slotsUsed (s : State) (quad : Nat) : Nat :=
  let hs := (s.handlers.filter fun h => h.quad == quad).map fun h => 2 ^ h.lgd
  (((s.residents quad).map Team.slotsTaken) ++ hs).foldl (· + ·) 0

def State.setChan (s : State) (team ch : Nat) (e : BitVec 128) : State :=
  s.updTeam team fun t => { t with chans := t.chans.set ch e }

/-- The entry's receive queue holds a message. -/
def chanBusy (c : Ctx) (s : State) (ch : Nat) : Bool := chRX (c.tm.chans.getD ch 0) && !(s.rx c.tm.id ch).isEmpty

/-- CHCFG (R330), once for the gang: a busy queue is found first, then the image is read and checked. An image with RX
takes its slots beside those that the entry holds; one without takes none (DEDUCED, notes/assumptions/103.md). -/
def execChcfg (w : FmtE) (s : State) : Host.Outcome State Fault Refusal :=
  let ch := w.imm.toNat % 64
  .next (gangWord (.chcfg w) s (fun _ => 20) fun c =>
    let a := c.val c.lead w.s1.toNat 1
    let put := fun (s : State) (ok : Bool) => WordOut.done (setPreds c s w.d.toNat ok) 20
    if chanBusy c s ch then put s false
    else poolReadThen c s a 16 fun s v =>
      if !chanOk v c.cluster.quads.length then .trap s [] .illegalOperand a 0
      else
        let e := BitVec.ofNat 128 v
        let need := if chRX e then 2 ^ chLgd e else 0
        if need ≠ 0 && 4096 < s.slotsUsed c.tm.quad + need then put s false else put (s.setChan c.tm.id ch e) true)

def execChcfgClear (w : FmtE) (s : State) : Host.Outcome State Fault Refusal :=
  let ch := w.imm.toNat % 64
  .next (gangWord (.chcfgClear w) s (fun _ => 20) fun c =>
    if chanBusy c s ch then .done (setPreds c s w.d.toNat false) 20
    else .done (setPreds c (s.setChan c.tm.id ch 0) w.d.toNat true) 20)

/-! ### SEND (R331) -/

def execSend (w : FmtE) (s : State) : Host.Outcome State Fault Refusal :=
  let q := w.imm.toNat % 64
  let n := w.imm.toNat / 64 % 8
  let tr := w.imm.toNat / 512 % 2 == 1
  let sc := w.imm.toNat / 1024 % 8
  let i := w.s1.toNat
  .next (gangWord (.send w) s (fun c => occupancy c.act.length true) fun c =>
    let sends := fun (s : State) => runThreads (fun s rank =>
      let e := c.tm.chans.getD q 0
      match s.sendFault c.tm e [1, 2, 3] with
      | some cause => .trap s cause 0 0
      | none =>
        if !s.sendRoom c.tm.quad 1 then
          if tr then .ok (s.setPred c.tm.id rank w.d.toNat false) else .hold s (.sendRoom c.tm.quad 1)
        else if !s.canCount c.tm.quad c.tm.job then .hold s (.counterSet c.tm.quad c.tm.job)
        else
          let elems := (List.range n).map fun k => BitVec.ofNat 64 (c.val rank (i + 2 * k) 2)
          let s1 := s.acceptSend c.tm rank q e elems sc
          .ok (if tr then s1.setPred c.tm.id rank w.d.toNat true else s1)) (occupancy c.act.length true) s c.act []
    if w.imm.toNat / 8192 % 2 = 1 then releaseThen c s sc sends else sends s)

/-! ### RECV (R321, R332) -/

/-- The handler queue of a quad, where a team owns it. -/
def State.handler? (s : State) (quad queue : Nat) : Option Handler := s.handlers.find? fun h => h.quad == quad && h.queue == queue

/-- The head message of a receive or handler queue. -/
def State.headMessage (s : State) (t : Team) (handler : Bool) (queue : Nat) : Option Message :=
  (s.inbox.find? fun m => m.handler == handler && m.queue == queue && (if handler then m.quad == t.quad else m.team == t.id)).map (·.msg)

/-- Take the head message for a thread: from a handler queue it becomes the thread's handler task, else it counts as
consumed at once. -/
def State.takeMessage (s : State) (t : Team) (rank : Nat) (handler : Bool) (queue : Nat) : State :=
  let s1 : State := { s with
    inbox := s.inbox.eraseP fun m => m.handler == handler && m.queue == queue && (if handler then m.quad == t.quad else m.team == t.id) }
  if handler then s1.updThread t.id rank fun x => { x with handler := true }
  else s1.count t.quad t.job fun k => { k with mc := addCount k.mc 1 }

/-- The number that RECV writes for a message (R332). -/
def recvValue (handler : Bool) (m : Message) : Nat :=
  let n := m.elems.length
  let head := chTagq m.image / 2 ^ 32 * 2 ^ 32 + m.dev % 2 ^ 10 * 2 ^ 22 + m.quad % 2 ^ 6 * 2 ^ 16 + m.rank % 2 ^ 12 * 2 ^ 4 +
    handler.toNat * 8 + n
  head + 2 ^ 64 * ((List.range n).foldl (fun v i => v + (m.elems.getD i 0).toNat * 2 ^ (64 * i)) 0)

/-- Write the registers of a RECV. With .acq at scope 3 or wider they are written once the acquire's steps are done
(R332, R352). -/
def State.recvWrite (s : State) (w : RecvWait) (v : Nat) : State :=
  let t := s.team w.team
  let ws := valueWrites t.depth w.d 16 v fun _ => 0
  if w.acq < 3 then s.addRegResults w.ticket w.team w.rank ws
  else
    let j := s.job t.job
    let (id, s1) := s.sendReq { team := t.id, rank := w.rank, cluster := t.cluster, job := t.job, asid := j.asid, sc := w.acq,
                                group := (s.cluster t.cluster).group, src := t.quad, op := .acquire true }
    { s1 with engineWaits := s1.engineWaits ++ [{ ticket := w.ticket, team := w.team, ranks := [w.rank], ids := [id], act := .write ws }] }

/-- Give a message to a waiting thread. -/
def State.giveMessage (s : State) (w : RecvWait) (m : Message) : State :=
  (s.takeMessage (s.team w.team) w.rank w.handler w.queue).recvWrite w (recvValue w.handler m)

/-- Serve the waiting receivers, in arrival order, that find a message; those of a saved team wait on (R385). -/
def State.serveRecv (s : State) : State :=
  s.recvWaits.foldl (fun (s : State) w =>
    let t := s.team w.team
    if 2 ≤ t.stat then s
    else match s.headMessage t w.handler w.queue with
      | none => s
      | some m =>
        if !w.handler && !s.canCount t.quad t.job then s
        else ({ s with recvWaits := s.recvWaits.filter fun x => x != w } : State).giveMessage w m) s

/-- RECV: each Active thread takes a message, in rank order, or waits; with .try it takes zeros and a false predicate. -/
def execRecv (w : FmtE) (s : State) : Host.Outcome State Fault Refusal :=
  let i := w.imm.toNat
  let q := i % 64
  let h := i / 64 % 2 == 1
  let tr := i / 128 % 2 == 1
  let acq := if i / 16384 % 2 = 1 then i / 2048 % 8 else 0
  .next (runWord (.recv w) s fun c =>
    let (ticket, s0) := s.issue c.gid c.tm.id 4 (if c.act.isEmpty then [] else [c.lead])
    let ok := if h then (s.handler? c.tm.quad q).any fun x => x.team == c.tm.id
      else chV (c.tm.chans.getD q 0) && chRX (c.tm.chans.getD q 0)
    let out := runThreads (fun s rank =>
      if !ok then .trap s .channelNotConfigured 0 0
      else if !s.canCount c.tm.quad c.tm.job then .hold s (.counterSet c.tm.quad c.tm.job)
      else
        let s1 := (if h then s.retireHandler c.tm.id rank else s).owe ticket rank 1
        let wait : RecvWait := { ticket, team := c.tm.id, rank, d := w.d.toNat, handler := h, queue := q, acq }
        let ahead := s1.recvWaits.any fun x =>
          x.handler == h && x.queue == q && (s1.team x.team).quad == c.tm.quad && (h || x.team == c.tm.id) && (s1.team x.team).stat < 2
        let found := if ahead then none else s1.headMessage c.tm h q
        let p := i / 256 % 8
        let s2 := if tr then (s1.owe ticket rank 1).addResult ticket c.tm.id rank (.pred p found.isSome) else s1
        match found with
        | some m => .ok (s2.giveMessage wait m)
        | none =>
          if tr then .ok (s2.recvWrite wait 0)
          else .ok { s2 with recvWaits := s2.recvWaits ++ [wait] }) (occupancy c.act.length true) s0 c.act []
    match out with
    | .done s o => .done (s.settleTicket ticket c.lead) o
    | .trap s com cause a b => .trap (s.settleTicket ticket c.lead) com cause a b
    | .hold s com w => .hold (s.settleTicket ticket c.lead) com w
    | .left s => .left s)

/-! ### MSGH (R333) -/

def execMsgh (w : FmtE) (s : State) : Host.Outcome State Fault Refusal :=
  let q := w.imm.toNat % 16
  .next (gangWord (.msgh w) s (fun c => occupancy c.act.length false) fun c =>
    let cfg := c.val c.lead w.s1.toNat 1
    let occ := occupancy c.act.length false
    if 8 < cfg then .trap s [] .illegalOperand 0 0
    else
      let old := s.handler? c.tm.quad q
      let empty := (s.headMessage c.tm true q).isNone
      let mine := match old with
        | none => true
        | some h => h.team == c.tm.id && empty
      let own := (old.map fun h => 2 ^ h.lgd).getD 0
      if mine && decide (s.slotsUsed c.tm.quad - own + 2 ^ cfg ≤ 4096) then
        .done (setPreds c { s with handlers := (s.handlers.filter fun h => !(h.quad == c.tm.quad && h.queue == q)) ++
          [{ quad := c.tm.quad, queue := q, team := c.tm.id, lgd := cfg }] } w.d.toNat true) occ
      else .done (setPreds c s w.d.toNat false) occ)

def execMsghOff (w : FmtE) (s : State) : Host.Outcome State Fault Refusal :=
  let q := w.imm.toNat % 16
  .next (gangWord (.msghOff w) s (fun c => occupancy c.act.length false) fun c =>
    let occ := occupancy c.act.length false
    if ((s.handler? c.tm.quad q).any fun h => h.team == c.tm.id) && (s.headMessage c.tm true q).isNone then
      .done (setPreds c { s with handlers := s.handlers.filter fun h => !(h.quad == c.tm.quad && h.queue == q) } w.d.toNat true) occ
    else .done (setPreds c s w.d.toNat false) occ)

/-! ### Delivery (R317 to R319, R337) -/

/-- A message leaves its send buffer. -/
def State.dropSend (s : State) (id : Nat) : State := { s with sendBuf := s.sendBuf.filter fun m => m.id != id }

/-- A port refuses a message: it is sent again 64 clocks later (R207, R318). -/
def State.refuseMessage (s : State) (m : Message) : State :=
  { s with
    nextId := s.nextId + 1,
    sendBuf := s.sendBuf.map fun (x : Message) => if x.id == m.id then
      { x with retryAt := s.dieClock (placeDie m.port) + 64, rejects := x.rejects + 1,
               aged := if x.aged.isNone && decide (8 ≤ x.rejects + 1) then some s.nextId else x.aged } else x }

/-- What a destination does with an arriving message: take it, refuse it for now, or drop it, or it leaves for a peer, or it
is a record for the home of a task queue (R318, R319, R337). -/
inductive Arrival where
  | take (q : Queued) (depth : Nat)
  | refuse
  | drop (quad : Nat)
  | leave (dev : Nat)
  | record
  deriving DecidableEq, Repr

/-- A message came off the fabric (R337). -/
def Message.offFabric (m : Message) : Bool := decide (64 ≤ m.port)

/-- Where a message goes. A handler queue takes it whichever job its owner belongs to (R319, R321; DEDUCED,
notes/assumptions/107.md). -/
def State.arrival? (s : State) (m : Message) : Arrival :=
  let e := m.image
  match chKind e with
  | 1 =>
    let src := s.team m.team
    match s.teams.find? fun t => t.cluster == src.cluster && t.idx == chDq e with
    | none => .drop m.port
    | some t =>
      let d := t.chans.getD (chDch e) 0
      if t.retired || !(chV d && chRX d) then .drop t.quad
      else if 2 ≤ t.stat then .refuse
      else .take { quad := t.quad, team := t.id, queue := chDch e, msg := m } (2 ^ chLgd d)
  | k =>
    if k ≠ 2 && !m.offFabric then .leave (chDev e)
    else if k = 4 then .record
    else match s.handler? (chDq e) (chDch e) with
      | none => .drop (chDq e)
      | some h => .take { quad := h.quad, handler := true, queue := h.queue, msg := m } (2 ^ h.lgd)

/-- A message crosses the seam: its entry names a quad of the other die. -/
def State.crosses (s : State) (m : Message) : Bool :=
  match chKind m.image with
  | 1 => match (s.cluster (s.team m.team).cluster).quads[chDq m.image]? with
    | some q => q / 32 != placeDie m.port
    | none => false
  | 2 => chDq m.image / 32 != placeDie m.port
  | 3 => m.offFabric && chDq m.image / 32 != placeDie m.port
  | _ => false

/-- Two messages were sent through one channel entry, of a team here or of a sender on a peer device. -/
def Message.sameEntry (x m : Message) : Bool :=
  if m.offFabric then x.offFabric && x.dev == m.dev && x.quad == m.quad && x.image == m.image
  else !x.offFabric && x.team == m.team && x.entry == m.entry

/-- Messages for a queue. -/
def Queued.sameQueue (x q : Queued) : Bool := x.handler == q.handler && x.queue == q.queue && x.quad == q.quad && x.team == q.team

/-- Aged messages for a queue that come before a message when a slot is freed: those that became aged earlier (R207, R318). -/
def State.agedFor (s : State) (q : Queued) (m : Message) : Nat :=
  (s.sendBuf.filter fun x => x.id != m.id && (match x.aged, m.aged with
      | some i, some j => decide (i < j)
      | some _, none => true
      | none, _ => false) &&
    match s.arrival? x with
    | .take p _ => p.sameQueue q
    | _ => false).length

/-- The interface's R308 step for one record off the fabric is sent to the home of its queue's header; the record of a
later message of the queue waits for it (R318, R337). An address that is not present keeps the record; another failure
drops it with a loss note (DESIGN CHOICE, notes/assumptions/78.md). -/
def State.sendRecord (s : State) (m : Message) : State :=
  let asid := (s.job m.job).asid
  let va := chTagq m.image % 2 ^ 57
  let src := m.port + 4
  if s.reqs.any fun r => r.src == src && r.va == va then s
  else match s.translate asid va false { r := true, w := true, a := true } with
    | (.fail cause info, s1) =>
      if (Trans.fail cause info).holds va then (s1.notePage asid va 3).refuseMessage m
      else (s1.dropSend m.id).postLoss m.job 1 m.port
    | (.ok pa e, s1) =>
      let rec_ := BitVec.ofNat 128 ((m.elems.getD 0 0).toNat + 2 ^ 64 * (m.elems.getD 1 0).toNat)
      (s1.dropSend m.id).postReqs [{ job := m.job, asid, va, pa, leaf := e, sc := 3, src, op := .spawn [rec_] [] none }]

/-- MESSAGE_DELIVERY: the oldest message of a channel entry reaches its destination queue, is refused and kept, is
dropped with a loss note, or leaves for a peer device; one that crosses a lost seam is discarded (R328). -/
def execMessageDelivery (id : Nat) (s : State) : Host.Outcome State Fault Refusal :=
  .next <| match s.sendBuf.find? fun m => m.id == id with
  | none => s
  | some m =>
    if s.dieClock (placeDie m.port) < m.retryAt || (s.sendBuf.any fun x => x.sameEntry m && decide (x.id < m.id)) then s
    else if s.crosses m && !s.spans then s.dropSend id
    else match s.arrival? m with
      | .refuse => s.refuseMessage m
      | .drop port => (s.dropSend id).postLoss m.job 1 port
      | .leave dev => ({ s.dropSend id with outputs := s.outputs ++ [.message dev m.quad m.rank m.image m.job m.elems] } : State).updJob m.job
          fun j => { j with sentOff := j.sentOff + 1 }
      | .record => s.sendRecord m
      | .take q depth =>
        let used := (s.inbox.filter fun x => x.sameQueue q).length
        if depth ≤ used + s.agedFor q m then s.refuseMessage m
        else { s.dropSend id with inbox := s.inbox ++ [q] }

/-- A message comes off the fabric at a die's interface, which counts it as injected and consumed in one step and takes it
into its buffer (R317, R323). One that the interface cannot take yet waits outside. -/
def State.takeMessageOff (s : State) (die : Nat) (m : Message) : State :=
  let port := 64 + die
  let k := chKind m.image
  if !s.dieUp die || (s.job? m.job).isNone || !(s.job m.job).devices.contains m.dev || !(k == 3 || k == 4) || m.elems.isEmpty ||
      7 < m.elems.length || !s.sendRoom port 1 || !s.canCount port m.job then s
  else
    ({ s with nextId := s.nextId + 1, sendBuf := s.sendBuf ++ [{ m with id := s.nextId, port, team := 0, entry := 0, rejects := 0, retryAt := 0, aged := none }] }
      : State).count port m.job fun c => { c with mi := addCount c.mi 1, mc := addCount c.mc 1 }

end Sys2Proof.Machine
end

