-- ==== Sys2Proof/Machine/Curfew.lean ====
section
/-! DEFINITION. Curfew (12_messages.md R322 to R328, R334 to R336): QUIET, QPOLL, LOSSN, the waves, their samples and
verdicts, and loss notes. -/

namespace Sys2Proof.Machine

open Sys2Proof

/-- The last verdict that a port holds for a job. -/
def State.latch? (s : State) (port job : Nat) : Option Latch := s.latches.find? fun l => l.port == port && l.job == job

/-- QUIET (R334): each Active thread lowers its activity once its earlier sends are counted, and the gang waits. -/
def execQuiet (w : FmtE) (s : State) : Host.Outcome State Fault Refusal :=
  .next (gangWord (.quiet w) s (fun c => occupancy c.act.length false) fun c =>
    let sends := s.pendingSends c.tm.id c.act
    if !sends.isEmpty then .hold s [] (.flights sends)
    else if !s.canCount c.tm.quad c.tm.job then .hold s [] (.counterSet c.tm.quad c.tm.job)
    else
      let s1 := s.count c.tm.quad c.tm.job fun k => { k with ad := addCount k.ad c.act.length }
      let (ticket, s2) := s1.issue c.gid c.tm.id 6 (c.act ++ c.act)
      .done { s2 with quiets := s2.quiets ++
        [{ ticket, team := c.tm.id, ranks := c.act, pq := w.d.toNat, pl := w.imm.toNat, wave := c.job.wave }] }
        (occupancy c.act.length false))

/-- Release the threads that wait in QUIET and whose verdict has come, or whose job is broken; those of a saved team wait
on (R337, R385). -/
def State.serveQuiet (s : State) : State :=
  s.quiets.foldl (fun (s : State) w =>
    let t := s.team w.team
    let j := s.job t.job
    let verdict := (s.latch? t.quad t.job).filter fun l => decide (w.wave < l.wave)
    if 2 ≤ t.stat || (verdict.isNone && !j.broken) || !s.canCount t.quad t.job then s
    else
      let quiet := !j.broken && (verdict.map (·.kind)) == some 1
      let s1 : State := { s with quiets := s.quiets.filter fun x => x != w }
      (w.ranks.foldl (fun (s : State) r =>
        (s.addResult w.ticket w.team r (.pred w.pq quiet)).addResult w.ticket w.team r (.pred w.pl (j.lossy || j.broken))) s1).count
        t.quad t.job fun k => { k with au := addCount k.au w.ranks.length }) s

/-- QPOLL (R335). -/
def execQpoll (w : FmtE) (s : State) : Host.Outcome State Fault Refusal :=
  .next (gangWord (.qpoll w) s (fun c => occupancy c.act.length false) fun c =>
    let (ticket, s1) := s.issue c.gid c.tm.id 4 c.act
    let j := c.job
    let flags := j.broken.toNat * 16 + j.lossy.toNat * 8
    let v := match s.latch? c.tm.quad c.tm.job with
      | none => flags
      | some l => l.wave % 2 ^ 16 * 2 ^ 16 + flags + (l.kind == 2).toNat * 4 + (l.kind == 1).toNat * 2 + 1
    .done (s1.answerAll ticket c.tm.id c.act w.d.toNat 1 v) (occupancy c.act.length false))

/-- LOSSN (R336): the root's loss record and its note k, whose reporter is this pod's device and the place's number. -/
def execLossn (w : FmtE) (s : State) : Host.Outcome State Fault Refusal :=
  .next (gangWord (.lossn w) s (fun c => occupancy c.act.length true) fun c =>
    let (ticket, s1) := s.issue c.gid c.tm.id 4 c.act
    let j := c.job
    let head := j.broken.toNat * 2 ^ 63 + j.lossy.toNat * 2 ^ 62 + min 255 j.noted * 2 ^ 48 + j.lossTotal % 2 ^ 48
    let note := match j.notes[w.imm.toNat]? with
      | none => 0
      | some (reporter, n) => reporter * 2 ^ 32 + n % 2 ^ 32
    .done (s1.answerAll ticket c.tm.id c.act w.d.toNat 4 (head + 2 ^ 64 * note)) (occupancy c.act.length true))

/-- LOSS_NOTE: a note reaches the root, which adds its count, marks the job lossy and keeps the first 16 (R327). The
reporter is 2^22 times a pod device number plus a number within that device. -/
def execLossNote (job count reporter : Nat) (s : State) : Host.Outcome State Fault Refusal :=
  .next <| match s.job? job with
  | none => { s with lossNotes := s.lossNotes.erase (job, count, reporter) }
  | some _ =>
    { s with lossNotes := s.lossNotes.erase (job, count, reporter) }.updJob job fun j =>
      { j with lossTotal := (j.lossTotal + count) % 2 ^ 48, lossy := true, noted := j.noted + 1,
               lostOff := if reporter / 2 ^ 22 = s.pod then j.lostOff else j.lostOff + count,
               notes := if j.notes.length < 16 then j.notes ++ [(reporter, count)] else j.notes }

/-! ### Waves (R324, R325) -/

/-- The places of the device that hold a set of a job. -/
def State.places (s : State) (job : Nat) : List Nat := (s.sets.filter fun c => c.job == job).map (·.port)

/-- The places that the root still reaches: their die runs, and the seam where it lies between. The root does not wait for
the others, which are lost (R328). -/
def State.reached (s : State) (j : Job) : List Nat :=
  (s.places j.id).filter fun p => s.dieUp (placeDie p) && (placeDie p == j.root || s.seam)

/-- The sums that the fabric returns from the other devices of a job's device set, and the OR of their CHG bits: free
values, but that no device has lowered more activity than it raised, nor consumed more than was injected: what the other
devices have consumed beyond what they injected is at most what left this device for them, less what came from them and
what they have reported lost (R324, R326; DESIGN CHOICE, notes/assumptions/28.md). -/
def State.remoteSums (s : State) (j : Job) : List Nat × Bool × State :=
  if j.devices.all (· == s.pod) then ([0, 0, 0, 0], false, s)
  else
    let v := fun i => Config.freeValue (s.fresh + i)
    let taken := ((s.sets.filter fun c => c.job == j.id && (c.port == 64 || c.port == 65)).map (·.mi)).foldl (· + ·) 0
    let mi := v 0 % 2 ^ 48
    let au := v 2 % 2 ^ 48
    let less := fun (a n : Nat) => (a + 2 ^ 48 - n % 2 ^ 48) % 2 ^ 48
    ([mi, less (mi + j.sentOff) (v 1 % 2 ^ 47 + taken + j.lostOff), au, less au (v 3 % 2 ^ 47)], v 4 % 2 == 1,
     { s with fresh := s.fresh + 5 })

/-- The root's wave timer runs: a grid has not retired or a thread waits in QUIET, and the root's die runs. -/
def State.waveRuns (s : State) (j : Job) : Bool :=
  s.dieUp j.root &&
  ((s.grids.any fun g => g.job == j.id && g.status.isNone) || s.quiets.any fun w => (s.team w.team).job == j.id)

/-- The wave timers of the jobs stand, and go on from where they stood (R324). -/
def State.serveTimers (s : State) : State :=
  (s.jobs.filter fun j => !j.closed).foldl (fun (s : State) j =>
    match j.stands, s.waveRuns j with
    | none, false => s.updJob j.id fun j => { j with stands := some s.now }
    | some t, true => s.updJob j.id fun j => { j with stands := none, waveAt := j.waveAt + (s.now - t) }
    | _, _ => s) s

/-- CURFEW_WAVE: the timer, of 20 µs where Shegus has set no other period, expires and pass A of the next wave starts. -/
def execCurfewWave (job : Nat) (s : State) : Host.Outcome State Fault Refusal :=
  .next <| match s.job? job with
  | none => s
  | some j =>
    if j.phase ≠ 0 || !s.waveRuns j || j.stands.isSome || s.now < j.waveAt + micros j.period then s
    else s.updJob job fun j => { j with wave := j.wave + 1, phase := 1, due := s.reached j, sampled := [],
                                        sumA := [0, 0, 0, 0], sumB := [0, 0, 0, 0], xA := false, xB := false,
                                        waveAt := s.now }

/-- Sums modulo 2^48 with a set's counts. -/
def addSums (sums : List Nat) (c : CounterSet) : List Nat :=
  List.zipWith addCount sums [c.mi, c.mc, c.au, c.ad]

/-- COUNTER_SET_SAMPLE: a pass samples the set at place `set` once, and clears its CHG. -/
def execCounterSetSample (job set : Nat) (s : State) : Host.Outcome State Fault Refusal :=
  .next <| match s.job? job, s.sets.find? fun c => c.port == set && c.job == job with
  | some j, some c =>
    if (j.phase ≠ 1 && j.phase ≠ 3) || j.sampled.contains set || !(s.reached j).contains set then s
    else
      let s1 : State := { s with
        sets := s.sets.map fun (x : CounterSet) => if x.port == set && x.job == job then { x with chg := false } else x }
      s1.updJob job fun j =>
        { j with due := j.due.filter (· != set), sampled := set :: j.sampled,
                 sumA := if j.phase = 1 then addSums j.sumA c else j.sumA,
                 sumB := if j.phase = 3 then addSums j.sumB c else j.sumB,
                 xA := if j.phase = 1 then j.xA || c.chg else j.xA,
                 xB := if j.phase = 3 then j.xB || c.chg else j.xB }
  | _, _ => s

/-- No place that the root still reaches is left to sample in the pass. -/
def State.passOver (s : State) (j : Job) : Bool := j.due.all fun p => !(s.reached j).contains p

/-- WAVE_PASS_B: pass A's sums are back, those of the other devices with them, and pass B starts. -/
def execWavePassB (job : Nat) (s : State) : Host.Outcome State Fault Refusal :=
  .next <| match s.job? job with
  | none => s
  | some j =>
    if j.phase ≠ 1 || !s.passOver j then s
    else
      let (sums, x, s1) := s.remoteSums j
      s1.updJob job fun j => { j with phase := 3, due := s.reached j, sampled := [], sumA := List.zipWith addCount j.sumA sums,
                                      xA := j.xA || x }

/-- The verdict of R325: 0 none, 1 quiet, 2 idle. -/
def verdictOf (j : Job) : Nat :=
  let sum := fun i => j.sumB.getD i 0
  if j.sumA == j.sumB && !j.xB && sum 2 == sum 3 then
    if sum 0 = (sum 1 + j.lossTotal) % 2 ^ 48 then 1 else 2
  else 0

/-- WAVE_VERDICT: after pass B the root broadcasts a quiet or idle verdict, which each port with a set of the job latches.
A quiet verdict restarts the watchdog of the job's grids that are not persistent (R380). -/
def execWaveVerdict (job : Nat) (s : State) : Host.Outcome State Fault Refusal :=
  .next <| match s.job? job with
  | none => s
  | some j =>
    if j.phase ≠ 3 || !s.passOver j then s
    else
      let (sums, x, s0) := s.remoteSums j
      let k := verdictOf { j with sumB := List.zipWith addCount j.sumB sums, xB := j.xB || x }
      let s1 := s0.updJob job fun j => { j with phase := 0, due := [] }
      if k = 0 then s1
      else
        let ports := s.reached j
        let s2 : State := { s1 with
          latches := (s1.latches.filter fun l => !(l.job == job && ports.contains l.port)) ++
            ports.map fun p => ({ port := p, job, wave := j.wave, kind := k } : Latch) }
        if k = 1 then s2.progress fun g => g.job == job && !g.pers else s2

end Sys2Proof.Machine
end

