-- ==== Sys2Proof/Machine/Collective.lean ====
section
/-! DEFINITION. Collectives (12_messages.md R338 to R342): COLL, CWAIT and COLLECTIVE_COMPLETION. The contributions of
other devices are free values. -/

namespace Sys2Proof.Machine

open Sys2Proof

/-! ### Descriptors (R339) -/

def coOpk (v : Nat) : Nat := bits v 507 504
def coRop (v : Nat) : Nat := bits v 503 500
def coEty (v : Nat) : Nat := bits v 499 496
def coGrp (v : Nat) : Nat := bits v 495 490
def coLoc (v : Nat) : Nat := bits v 489 483
def coRoot (v : Nat) : Nat := bits v 479 464
def coCount (v : Nat) : Nat := bits v 447 416
def coDst (v : Nat) : Nat := bits v 376 320
def coSrc (v : Nat) : Nat := bits v 312 256
/-- Bytes of an element. -/
def coSize (v : Nat) : Nat := if coEty v = 7 || coEty v = 8 then 2 else if coEty v = 2 || coEty v = 3 || coEty v = 6 then 8 else 4

/-- The checks of a descriptor. -/
def collOk (v : Nat) : Bool :=
  let reduces := coOpk v == 0 || coOpk v == 1 || coOpk v == 4
  bits v 511 508 == 3 && decide (coOpk v ≤ 5) && decide (coRop v ≤ 5) && decide (coEty v ≤ 8) && coEty v != 4 &&
  bits v 482 480 == 0 && bits v 463 448 == 0 && bits v 415 377 == 0 && bits v 319 313 == 0 && bits v 255 0 == 0 &&
  (reduces || coRop v == 0) && !(decide (3 ≤ coRop v) && decide (5 ≤ coEty v)) && (coCount v != 0 || coOpk v == 5)

def State.collGroup? (s : State) (g : Nat) : Option CollGroup := s.collGroups.find? fun x => x.group == g

/-! ### COLL and CWAIT (R341, R342) -/

/-- COLL: after a release at device scope each Active thread's descriptor is read and checked and its command accepted. A
local index or a root rank, where the operation has one, that the group does not have is refused as a reserved value is
(DESIGN CHOICE, notes/assumptions/104.md). -/
def execColl (w : FmtE) (s : State) : Host.Outcome State Fault Refusal :=
  let q := w.q.toNat
  .next (gangWord (.coll w) s (fun c => occupancy c.act.length false) fun c =>
    releaseThen c s 3 fun s => runThreads (fun s rank =>
      let a := c.val rank w.s1.toNat 1
      let bar := if w.d.toNat = 255 then none else some (c.val rank w.d.toNat 1)
      match addressesFault c ((a, 64) :: bar.toList.map fun b => (b, 16)) with
      | some cause => .trap s cause a 0
      | none =>
        match objectWait c s rank a 64 with
        | (some out, _) => out
        | (none, s1) =>
            let v := s1.poolNat c.tm.cluster (keyOf a) 64
            if !collOk v then .trap s1 .illegalOperand a 0
            else match s1.collGroup? (coGrp v) with
              | none => .trap s1 .unreachable a 0
              | some g =>
                if g.c ≤ coLoc v || ((coOpk v = 1 || coOpk v = 2) && g.n ≤ coRoot v) then .trap s1 .illegalOperand a 0
                else if 16 ≤ (s1.colls.filter fun k => k.team == c.tm.id && k.queue == q).length then
                  .hold s1 (.collRoom (c.tm.quad / 32) q)
                else
                  let round := getKey g.rounds (coLoc v) 0 + 1
                  .ok { s1 with
                    nextId := s1.nextId + 1,
                    colls := s1.colls ++ [{ id := s1.nextId, team := c.tm.id, rank, queue := q, desc := BitVec.ofNat 512 v, bar,
                                            sys := c.gang.sys, round }],
                    collGroups := s1.collGroups.map fun (x : CollGroup) =>
                      if x.group == g.group then { x with rounds := setKey x.rounds (coLoc v) round 0 } else x })
      (occupancy c.act.length false) s c.act [])

/-- CWAIT waits for the team's commands accepted in a collective queue before the word (R342). -/
def execCwait (w : FmtE) (s : State) : Host.Outcome State Fault Refusal :=
  .next (gangWord (.cwait w) s (fun _ => 6) fun c =>
    let (ticket, s1) := s.issue c.gid c.tm.id 6 c.act
    let ids := (s.colls.filter fun k => k.team == c.tm.id && k.queue == w.q.toNat).map (·.id)
    .done { s1 with engineWaits := s1.engineWaits ++
      [{ ticket, team := c.tm.id, ranks := c.act, ids, act := .cwait w.q.toNat w.d.toNat }] } 6)

/-! ### Reduction (R340) -/

/-- Combine two widened elements of type `t`. -/
def collCombine (t rop a b : Nat) : Nat :=
  if t < 4 then
    let n := if t < 2 then 32 else 64
    let signed := t == 0 || t == 2
    atomicInt (match rop with
      | 0 => 0
      | 1 => if signed then 1 else 3
      | 2 => if signed then 2 else 4
      | 3 => 5
      | 4 => 6
      | _ => 7) n a b
  else
    let size := if t = 6 then 8 else 4
    atomicOp (match rop with
      | 0 => 9
      | 1 => 10
      | _ => 11) size a b

/-- One level of the tree. -/
def collLevel (t rop : Nat) : List Nat → List Nat
  | a :: b :: vs => collCombine t rop a b :: collLevel t rop vs
  | vs => vs
/-- The tree over so many levels. -/
def collTree (t rop : Nat) : Nat → List Nat → Nat
  | 0, vs => vs.headD 0
  | n + 1, vs => if vs.length ≤ 1 then vs.headD 0 else collTree t rop n (collLevel t rop vs)

/-- Change the format of a floating element, exactly where it widens, to nearest-even where it narrows. -/
def reformat (f g : FpFmt) (v : Nat) : Nat :=
  match decodeFp f v with
  | x => match firstNaN [x] with
    | some b => convertNaN f g b
    | none => (roundExt g (rmodeOf 0) x.ext).1

/-- The reduction of one element over the contributions in rank order. -/
def collReduce (t rop : Nat) (vs : List Nat) : Nat :=
  if t < 5 then collTree t rop vs.length vs
  else
    let g := if t = 6 then fp64 else fp32
    reformat g (fmtOf t) (collTree t rop vs.length (vs.map (reformat (fmtOf t) g)))

/-- Elements of a byte string. -/
def elemsOf (size : Nat) (bs : List Byte) : List Nat :=
  (List.range (bs.length / size)).map fun i => fromBytes ((bs.drop (size * i)).take size)

/-- What participant `rank` of a group writes at DST, from all contributions in rank order. -/
def collResult (v n rank : Nat) (parts : List (List Byte)) : List Byte :=
  let size := coSize v
  let es := parts.map (elemsOf size)
  let at_ := fun i => collReduce (coEty v) (coRop v) (es.map fun e => e.getD i 0)
  let out := fun (lo cnt : Nat) => (List.range cnt).flatMap fun i => toBytes size (at_ (lo + i))
  match coOpk v with
  | 0 => out 0 (coCount v)
  | 1 => if rank = coRoot v then out 0 (coCount v) else []
  | 2 => parts.getD (coRoot v) []
  | 3 => (parts.take n).flatten
  | 4 => out (rank * coCount v) (coCount v)
  | _ => []

/-- Bytes that a participant of a rank reads at SRC, and those that it writes at DST. -/
def collReads (v n rank : Nat) : Nat :=
  match coOpk v with
  | 2 => if rank = coRoot v then coCount v * coSize v else 0
  | 4 => n * coCount v * coSize v
  | 5 => 0
  | _ => coCount v * coSize v
def collWrites (v n rank : Nat) : Nat :=
  match coOpk v with
  | 1 => if rank = coRoot v then coCount v * coSize v else 0
  | 3 => n * coCount v * coSize v
  | 5 => 0
  | _ => coCount v * coSize v

/-! ### Engine accesses (R343) -/

/-- A request of the collective engine for bytes of a command. -/
def collReq (s : State) (k : CollCommand) (va pa : Nat) (leaf : DWord) (op : HomeOp) : HomeReq :=
  let t := s.team k.team
  { team := k.team, rank := k.rank, cluster := t.cluster, job := t.job, asid := (s.job t.job).asid, sys := k.sys, va, pa, leaf,
    group := (s.cluster t.cluster).group, pl := leafCA leaf, src := t.quad, log := t.quad, kind := 3, cmd := some k.id, op }

/-- The pieces of a physical range in its lines: address and bytes. -/
def lineSpans (pa n : Nat) : List (Nat × Nat) :=
  (List.range ((pa % 128 + n + 127) / 128)).map fun i =>
    let lo := max pa ((pa / 128 + i) * 128)
    (lo, min (pa + n) ((pa / 128 + i + 1) * 128) - lo)

/-- The reads of a command's contribution, one for each line, over page runs from its start. -/
def collReadReqs (s : State) (k : CollCommand) : Nat → List (Nat × Nat × DWord) → List HomeReq
  | _, [] => []
  | at_, (pa, n, leaf) :: runs =>
    ((lineSpans pa n).map fun p => collReq s k (coSrc k.desc.toNat + at_ + (p.1 - pa)) p.1 leaf (.read (at_ + (p.1 - pa)) p.2)) ++
      collReadReqs s k (at_ + n) runs

/-- The writes of a command's result, one for each line. In a kept page they are kept writes of the cells touched, whose
other bytes come from the lead at the home; a refused one retires into the quad's side log (R220, R228, R250). -/
def collWriteReqs (s : State) (k : CollCommand) : Nat → List (Nat × Nat × DWord) → List Byte → List HomeReq
  | _, [], _ => []
  | va, (pa, n, leaf) :: runs, bs =>
    let cl := s.cluster (s.team k.team).cluster
    ((writeReqs 0 0 pa leaf (bs.take n)).map fun r =>
      let op := match r.op with
        | .kept cells _ => HomeOp.kept cells (cl.sight (homeSlice r.pa leaf))
        | o => o
      { collReq s k (va + r.pa - pa) r.pa leaf op with mask := r.mask, merge := leafK leaf }) ++
      collWriteReqs s k (va + n) runs (bs.drop n)

/-! ### COLLECTIVE_COMPLETION (R341, R342) -/

def State.updColl (s : State) (id : Nat) (f : CollCommand → CollCommand) : State :=
  { s with colls := s.colls.map fun k => if k.id == id then f k else k }

/-- Send an engine's requests for a command, which stands at the stage given while they are in flight. -/
def State.collSend (s : State) (k : CollCommand) (stage : Nat) (rs : List HomeReq) : State :=
  (s.postReqs rs).updColl k.id fun k => { k with stage, reqs := (List.range rs.length).map (s.nextId + ·) }

/-- A fault of a collective for a team's queue (R253, R342): collective queue `q` is record 16 + q. -/
def State.collFault (s : State) (team q cause : Nat) : State :=
  let mine := fun (r : CopyRecord) => r.team == team && r.queue == 16 + q
  if s.copyRecs.any mine then
    { s with copyRecs := s.copyRecs.map fun (r : CopyRecord) => if mine r then { r with count := min 0xFFFF (r.count + 1) } else r }
  else { s with copyRecs := s.copyRecs ++ [{ team, queue := 16 + q, cause, count := 1 }] }

/-- Commands end faulted with a cause. -/
def State.collFail (s : State) (cmds : List CollCommand) (cause : Nat) : State :=
  cmds.foldl (fun (s : State) k => s.updColl k.id fun k => if k.ended.isSome then k else { k with ended := some (0, some cause) }) s

/-- The end of a command: once the region lines of its barrier object serve, the object takes the bytes written, or the
fault, if it is valid (R193, R210), and the command leaves its queue. -/
def State.collEnd (s : State) (k : CollCommand) : State :=
  match k.ended with
  | none => s
  | some (n, fault) =>
    let cid := (s.team k.team).cluster
    match s.objectsFor cid 16 k.sys k.bar.toList with
    | (some line, s1) => s1.updColl k.id fun k => { k with waits := some line }
    | (none, s1) =>
      let s2 : State := { s1 with colls := s1.colls.filter fun x => x.id != k.id }
      let bad := k.bar.any fun b => objTag (s2.poolNat cid (keyOf b) 16) != 0xA
      match fault, k.bar with
      | some cause, some b => if bad then s2.collFault k.team k.queue cause else (s2.collFault k.team k.queue cause).deliverFault cid (keyOf b)
      | some cause, none => s2.collFault k.team k.queue cause
      | none, some b => if bad then s2.collFault k.team k.queue 0x29 else s2.deliverBytes cid (keyOf b) n
      | none, none => s2

/-- The commands of one match by local index, where every local contributor's is at the head of its queue. -/
def State.collMatch (s : State) (g : CollGroup) (round : Nat) : Option (List CollCommand) :=
  let found := (List.range g.c).filterMap fun loc => s.colls.find? fun k =>
    coGrp k.desc.toNat == g.group && coLoc k.desc.toNat == loc && k.round == round
  let head := fun (k : CollCommand) => s.colls.all fun x => !(x.team == k.team && x.queue == k.queue && decide (x.id < k.id))
  if found.length == g.c && found.all head then some found else none

/-- Page runs of a command's contribution or result. -/
def State.collRuns (s : State) (k : CollCommand) (need : Need) (va n : Nat) : Except Cause (List (Nat × Nat × DWord)) × State :=
  s.leafRuns (s.job (s.team k.team).job).asid k.sys need (n / 65536 + 2) va n

/-- The rank and the fault of the lowest-ranked local participant whose SRC or DST does not translate; commands with their
ranks. -/
def State.collTest (s : State) (g : CollGroup) (v : Nat) : List (CollCommand × Nat) → Option (Nat × Nat) × State
  | [] => (none, s)
  | (k, rank) :: ks =>
    match s.collRuns k { r := true } (coSrc k.desc.toNat) (collReads v g.n rank) with
    | (.error c, s1) => (some (rank, c.code), s1)
    | (.ok _, s1) =>
      match s1.collRuns k { w := true } (coDst k.desc.toNat) (collWrites v g.n rank) with
      | (.error c, s2) => (some (rank, c.code), s2)
      | (.ok _, s2) => s2.collTest g v ks

/-- A participant of another device that faults: its rank and its cause, a descriptor that disagrees or a translation of its
SRC or DST. Whether one does is a free value (R342; DESIGN CHOICE, notes/assumptions/29.md). -/
def State.peerFault (s : State) (g : CollGroup) : Option (Nat × Nat) × State :=
  if g.members.all (· == s.pod) then (none, s)
  else
    let (v, s1) := s.free
    let rank := v / 16 % g.n
    let cause := [0x03, 0x10, 0x11, 0x12, 0x15].getD (v / 2 % 8) 0x03
    (if v % 2 = 0 || g.members.getD (rank / g.c) s.pod = s.pod then none else some (rank, cause), s1)

/-- The cause of the lowest-ranked participant that faults, here or on another device. -/
def State.matchFault (s : State) (g : CollGroup) (v : Nat) (ks : List (CollCommand × Nat)) : Option Nat × State :=
  let (mine, s1) := s.collTest g v ks
  let (theirs, s2) := s1.peerFault g
  (match mine, theirs with
    | some a, some b => some (if b.1 < a.1 then b.2 else a.2)
    | some a, none => some a.2
    | none, some b => some b.2
    | none, none => none, s2)

/-- The bytes of a contribution in their order. -/
def CollCommand.contribution (k : CollCommand) : List Byte :=
  (sortNat (k.got.map (·.1))).flatMap fun o => ((k.got.find? fun p => p.1 == o).map (·.2)).getD []

/-- Contributions in rank order: local ones as they were read, the others free values. -/
def State.collGather (s : State) (g : CollGroup) (v : Nat) (cmds : List CollCommand) : Nat → Nat → List (List Byte) × State
  | 0, _ => ([], s)
  | n + 1, rank =>
    let mine := if g.members.getD (rank / g.c) 0 = s.pod then cmds[rank % g.c]? else none
    let (bs, s1) := match mine with
      | some k => (k.contribution, s)
      | none => s.freeBytes (collReads v g.n rank)
    let (rest, s2) := s1.collGather g v cmds n (rank + 1)
    (bs :: rest, s2)

/-- Fields that the descriptors of one match share. -/
def collKey (v : Nat) : List Nat := [coOpk v, coRop v, coEty v, coCount v, coRoot v]

/-- The next stage of a match whose commands have ranks: the reads of the contributions, then the writes of the results,
then the end. -/
def State.collStep (s : State) (g : CollGroup) (v : Nat) (ks : List (CollCommand × Nat)) : State :=
  let cmds := ks.map (·.1)
  if cmds.any fun k => k.reqs.any fun i => s.reqs.any fun r => r.id == i then s
  else match (cmds.map (·.stage)).headD 0 with
    | 0 =>
      match s.matchFault g v ks with
      | (some cause, s1) => s1.collFail cmds cause
      | (none, s1) => ks.foldl (fun (s : State) p =>
          match s.collRuns p.1 { r := true } (coSrc p.1.desc.toNat) (collReads v g.n p.2) with
          | (.ok runs, s2) => s2.collSend p.1 1 (collReadReqs s2 p.1 0 runs)
          | (.error _, s2) => s2) s1
    | 1 =>
      match s.matchFault g v ks with
      | (some cause, s1) => s1.collFail cmds cause
      | (none, s1) =>
        let (parts, s2) := s1.collGather g v cmds g.n 0
        ks.foldl (fun (s : State) p =>
          let out := collResult v g.n p.2 parts
          match s.collRuns p.1 { w := true } (coDst p.1.desc.toNat) out.length with
          | (.ok runs, s3) => s3.collSend p.1 2 (collWriteReqs s3 p.1 (coDst p.1.desc.toNat) runs out)
          | (.error _, s3) => s3) s2
    | _ => ks.foldl (fun (s : State) p => s.updColl p.1.id fun k => { k with ended := some (collWrites v g.n p.2, none) }) s

/-- COLLECTIVE_COMPLETION: a match whose local commands all head their queues goes on by one stage: the lines of the
contributions are read, those of every local participant's result are written, the commands end. All end faulted with the
cause of the lowest rank that faulted, with 0x31 where a member device became unreachable, or 0x3F where the seam is lost.
Then each command's barrier object is updated. -/
def execCollectiveCompletion (group round : Nat) (lost : Bool) (s : State) : Host.Outcome State Fault Refusal :=
  let ended := s.colls.filter fun k => coGrp k.desc.toNat == group && k.round == round && k.ended.isSome
  .next <|
    if !ended.isEmpty then ended.foldl (fun (s : State) k => s.collEnd k) s
    else match s.collGroup? group with
    | none => s
    | some g =>
      match s.collMatch g round with
      | none => s
      | some [] => s
      | some (k0 :: ks) =>
        let cmds := k0 :: ks
        let v := k0.desc.toNat
        let base := g.c * g.members.findIdx (· == s.pod)
        if lost then s.collFail cmds 0x31
        else if s.dies == 2 && !s.seam then s.collFail cmds 0x3F
        else if ks.any fun k => collKey k.desc.toNat != collKey v then s.collFail cmds 0x03
        else s.collStep g v ((List.range cmds.length).map fun i => (cmds.getD i k0, base + i))

end Sys2Proof.Machine
end

