-- ==== Sys2Proof/Machine/Image.lean ====
section
/-! DEFINITION. The bytes of a context image (14_system.md R389). The order and the sizes of the sections are the spec's;
where in a section each of its contents stands the model lays out (DESIGN CHOICE, notes/assumptions/73.md): every number
is little-endian, and unused bytes are zero. CTXLD takes the values back from the bytes. What joins them to the rest of
the model, the withdrawn waits, the places of the threads and the matrix queue, it compares with what it holds: an image in
which they differ is not one that CTXSV wrote. -/

namespace Sys2Proof.Machine

open Sys2Proof

/-- Pack fields, each with its width in bits, from bit 0 up. -/
def packFields : List (Nat × Nat) → Nat
  | [] => 0
  | (w, v) :: fs => v % 2 ^ w + 2 ^ w * packFields fs

/-- A section's bytes, cut or filled up to its size. -/
def sized (n : Nat) (bs : List Byte) : List Byte := (bs ++ List.replicate (n - bs.length) 0).take n

/-- The part of an image from an offset on, as bytes or as a number. -/
def part (bs : List Byte) (at_ n : Nat) : List Byte := (bs.drop at_).take n
def partNat (bs : List Byte) (at_ n : Nat) : Nat := fromBytes (part bs at_ n)

/-- Little-endian 32-bit registers, to bytes and back. -/
def wordBytes (ws : List Word) : List Byte := ws.flatMap fun w => toBytes 4 w.toNat
def bytesWords (n : Nat) (bs : List Byte) : List Word := (List.range n).map fun i => BitVec.ofNat 32 (partNat bs (4 * i) 4)

/-! ### Withdrawn waits (R385, R389) -/

/-- A withdrawn wait: rank, form by its opcode, address and operand. -/
structure WaitRecord where
  rank    : Nat
  form    : Nat
  address : Nat := 0
  operand : Nat := 0

/-- The wait of an access. -/
def Access.waitRecord (a : Access) : WaitRecord :=
  let r := fun (form operand : Nat) => ({ rank := a.rank, form, address := addrOfKey a.key, operand } : WaitRecord)
  match a.op with
  | .loadFull d take _ => r 0x72 (d + 2 ^ 8 * take.toNat)
  | .storeEmpty bs => r 0x73 (fromBytes bs)
  | .barrier token p => r 0x7B (p + 2 ^ 8 * token)
  | .ring writer d => r 0x7E (d + 2 ^ 8 * writer.toNat)
  | .load d .. => r 0x70 d
  | .store bs => r 0x71 (fromBytes bs)
  | .setState full => r 0x74 full.toNat
  | .atomic ao d x _ => r 0x75 (d + 2 ^ 8 * ao + 2 ^ 16 * x)
  | .cas d cmp new => r 0x76 (d + 2 ^ 8 * cmp + 2 ^ 72 * new)
  | .place => r 0x7B 0
  | .inv drop => r 0x85 drop.toNat
  | .prefetch => r 0x86 0
  | .layout _ _ _ _ _ d => r 0xA6 d

/-- The wait of a word for engines: its form and its operand. -/
def EngineAct.waitForm : EngineAct → Nat × Nat
  | .twait q d => (0xA7, d + 2 ^ 8 * q)
  | .fenceq sc => (0x82, sc)
  | .fenced => (0x82, 8)
  | .mwait d tile => (0xBB, d + 2 ^ 8 * tile.toNat)
  | .cwait q d => (0xD7, d + 2 ^ 8 * q)
  | .join h d => (0xC4, d + 2 ^ 8 * (h.getD (2 ^ 32)))
  | .joined d v => (0xC4, d + 2 ^ 8 * (2 ^ 33 + v))
  | .answer d v => (0xE8, d + 2 ^ 8 * v)
  | .cancel => (0xA8, 0)
  | .write _ => (0xD2, 0)
  | .tlbi kind asid _ => (0xE0, kind + 2 ^ 8 * asid)
  | .replays => (0xE6, 0)

/-- The withdrawn waits of a team in a fixed order. -/
def State.waitRecords (s : State) (team : Nat) : List WaitRecord :=
  ((s.accesses.filter fun a => a.team == team).map Access.waitRecord) ++
  ((List.range 4).flatMap fun i => (((s.team team).tbar.getD i []).map fun p => { rank := p.1, form := 0x7C, operand := i })) ++
  ((s.recvWaits.filter fun w => w.team == team).map fun w =>
    { rank := w.rank, form := 0xD2, operand := w.d + 2 ^ 8 * (w.queue + 2 ^ 6 * w.handler.toNat + 2 ^ 7 * w.acq) }) ++
  ((s.quiets.filter fun w => w.team == team).flatMap fun w => w.ranks.map fun r =>
    { rank := r, form := 0xD3, operand := w.pq + 2 ^ 3 * w.pl + 2 ^ 8 * w.wave }) ++
  ((s.engineWaits.filter fun w => w.team == team).flatMap fun w => w.ranks.map fun r =>
    { rank := r, form := w.act.waitForm.1, operand := w.act.waitForm.2 }) ++
  (s.clusters.flatMap fun c => (c.pwaits.filter fun w => w.team == team).flatMap fun w => w.ranks.map fun r =>
    { rank := r, form := 0xEA, operand := w.d + 2 ^ 8 * w.op })

/-- A wait's 32 bytes. -/
def WaitRecord.bytes (idx : Nat) (w : WaitRecord) : List Byte :=
  toBytes 32 (packFields [(8, idx), (8, w.form), (16, w.rank), (32, 0), (64, w.address), (128, w.operand)])

/-- The waits section of a cluster's image. -/
def State.waitBytes (s : State) (teams : List Team) : List Byte :=
  teams.flatMap fun t => (s.waitRecords t.id).flatMap (WaitRecord.bytes t.idx)

/-! ### Threads (R389) -/

/-- Where a thread stands: place (0 gang, 1 fold, 2 overflow, 3 halted, 4 ended), number of the gang or fold in its lane,
PC, word, done bit, level, and trap state. -/
structure Standing where
  place  : Nat
  number : Nat := 0
  pc     : Nat := 0
  word   : Nat := 0
  done   : Bool := false
  sys    : Bool := false
  trap   : Option TrapState := none

def State.standing (s : State) (team rank : Nat) : Standing :=
  match s.gangs.find? fun g => g.team == team && g.members.contains rank with
  | some g => { place := 0, number := g.entry, pc := g.pc, word := g.word, done := g.done.contains rank, sys := g.sys, trap := g.trap }
  | none =>
    let mine := s.folds.filter fun f => f.team == team && f.lane == laneOf rank
    match mine.find? fun f => f.threads.any fun t => t.1 == rank with
    | some f => { place := 1, number := mine.findIdx (·.id == f.id), pc := f.pc, word := f.word,
                  done := f.threads.any fun t => t.1 == rank && t.2.1, sys := (f.kept rank).sys, trap := (f.kept rank).trap }
    | none =>
      match (s.overflow ++ s.filing).find? fun f => f.team == team && f.rank == rank with
      | some f => { place := 2, pc := f.pc, word := f.word, done := f.done, sys := f.carry.sys, trap := f.carry.trap }
      | none => match (s.thread team rank).haltPc with
        | some (pc, word, done, k) => { place := 3, pc, word, done, sys := k.sys, trap := k.trap }
        | none => { place := 4 }

/-- A thread's record of 64 bytes. -/
def State.threadRecord (s : State) (team rank : Nat) : Nat :=
  let t := s.thread team rank
  let x := s.standing team rank
  let tr := x.trap.getD {}
  packFields [(57, x.pc), (3, x.place), (4, 0), (16, x.number), (5, x.word), (1, x.done.toNat), (7, t.preds.toNat), (3, t.role.toNat),
    (1, x.sys.toNat), (1, x.trap.isSome.toNat), (30, 0), (64, t.fault.toNat), (64, tr.tpc), (64, tr.taddr), (64, tr.tres),
    (32, posMask tr.members tr.tmask), (32, tr.tinfo)]

/-- The part of a record that says where its thread stands, by which the model finds the thread again. -/
def recordPlace (v : Nat) : Nat × Nat × Bool := (bits v 59 57, bits v 79 64, bit v 97)

/-- The members whose positions a mask names. -/
def maskRanks (members : List Nat) (mask : Nat) : List Nat :=
  ((List.range members.length).filter fun j => mask.testBit j).map fun j => members.getD j 0

/-- A trap state with the values that its thread's record holds (R365). -/
def TrapState.take (t : TrapState) (v : Nat) : TrapState :=
  let f := bits v 191 128
  { t with tpc := bits v 255 192, taddr := bits v 319 256, tres := bits v 383 320, tmask := maskRanks t.members (bits v 415 384),
           tinfo := bits v 447 416, done := maskRanks t.members (bits f 63 32), word := bits f 12 8, cause := bits f 7 0,
           sv := bit f 14, lv := bit f 13 }

/-- A thread takes what its record holds. -/
def State.takeRecord (s : State) (team rank v : Nat) : State :=
  let pc := bits v 56 0
  let word := bits v 84 80
  let done := bit v 85
  let sys := bit v 96
  let carry := fun (k : Carry) => ({ k with sys, trap := k.trap.map fun t => t.take v } : Carry)
  { s with
    threads := s.threads.map fun (t : Thread) =>
      if t.team == team && t.rank == rank then
        { t with preds := BitVec.ofNat 7 (bits v 92 86), role := BitVec.ofNat 3 (bits v 95 93), fault := BitVec.ofNat 64 (bits v 191 128),
                 haltPc := t.haltPc.map fun h => (pc, word, done, carry h.2.2.2) }
      else t,
    gangs := s.gangs.map fun (g : Gang) =>
      if g.team == team && g.members.contains rank then
        { g with pc, word, sys, done := if done then (if g.done.contains rank then g.done else g.done ++ [rank]) else g.done.filter (· != rank),
                 trap := g.trap.map fun t => t.take v }
      else g,
    folds := s.folds.map fun (f : Fold) =>
      if f.team == team && f.threads.any fun t => t.1 == rank then
        { f with pc, word, threads := f.threads.map fun t => if t.1 == rank then (rank, done, carry t.2.2) else t }
      else f,
    overflow := s.overflow.map fun (f : Filed) =>
      if f.team == team && f.rank == rank then { f with pc, word, done, carry := carry f.carry } else f }

/-! ### The team block's own section (R389) -/

/-- Sizes of a team block's sections after the first: g registers, thread records, v registers, trap windows, the four
shares, matrix, channels. -/
def State.savedTiles (s : State) (team : Nat) : Nat :=
  (s.gangs.filter fun g => g.team == team).foldl (fun m g => Nat.lor m (match g.status, g.stopMask with
    | .stopped none, some k => k
    | _, _ => 2 ^ 32 - 1)) 0

/-- The tiles that are saved, in ascending order. -/
def State.tilesSaved (s : State) (team : Nat) : List Nat :=
  (List.range 32).filter fun k => (s.savedTiles team).testBit k && ((s.matrixOf team).tile? k).isSome

/-- The messages of a team's receive queues, and of the handler queues that it owns. -/
def State.queuedFor (s : State) (team : Nat) : List Queued :=
  s.inbox.filter fun q => if q.handler then s.handlers.any fun h => h.team == team && h.quad == q.quad && h.queue == q.queue else q.team == team

def State.blockSizes (s : State) (t : Team) : List Nat :=
  let share := (s.cluster t.cluster).share
  let m := s.matrixOf t.id
  let matrix := 64 * (s.mcommands.filter fun c => c.team == t.id).length +
    ((m.slots.map fun p => 16 + 4096 * recNP p.record).foldl (· + ·) 0) + 4 * 64 * s.window t.id + 256 + 32768 * (s.tilesSaved t.id).length
  let chans := 1024 + 80 * (s.queuedFor t.id).length + 16 * (s.handlers.filter fun h => h.team == t.id).length
  [1024, 252 * (t.depth + 1), 64 * t.ntid, 4 * t.alloc * (t.depth + 1) * t.ntid, 256 * t.ntid] ++
  List.replicate 4 (share + share / 8 + share / 4) ++ [matrix, chans]

def sumSizes (ns : List Nat) : Nat := ns.foldl (· + ·) 0

/-- Offsets of pieces of the given sizes, from `at_` on. -/
def offsetsFrom : Nat → List Nat → List Nat
  | _, [] => []
  | at_, n :: ns => at_ :: offsetsFrom (at_ + n) ns

/-- The first 1,024 bytes: the directory, as offsets in the block, then sr.gplane and sr.cseg, the event, format and HALT
registers, matrix class, tile mask, and the arrivals of the team barriers. -/
def State.blockHead (s : State) (t : Team) : List Byte :=
  ((offsetsFrom 0 (s.blockSizes t)).flatMap (toBytes 8)) ++ toBytes 8 0 ++ toBytes 8 t.gplane.toNat ++ toBytes 8 t.cseg.toNat ++
  ((List.range 5).flatMap fun k => toBytes 8 (s.eventNow t k).toNat) ++ ((List.range 16).flatMap fun i => toBytes 2 (t.fregs.getD i 0).toNat) ++
  toBytes 1 t.halt.toNat ++ toBytes 1 (s.matrixOf t.id).cls ++ toBytes 2 0 ++ toBytes 4 (s.savedTiles t.id) ++
  (List.range 4).flatMap fun i => toBytes 2 ((t.tbar.getD i []).length)

/-- A team takes the registers of its block's head. -/
def State.takeHead (s : State) (team : Nat) (bs : List Byte) : State :=
  (s.updTeam team fun t =>
    { t with gplane := BitVec.ofNat 64 (partNat bs 96 8), cseg := BitVec.ofNat 32 (partNat bs 104 8),
             events := (List.range 5).map fun k => BitVec.ofNat 64 (partNat bs (112 + 8 * k) 8),
             fregs := (List.range 16).map fun i => BitVec.ofNat 16 (partNat bs (152 + 2 * i) 2),
             halt := BitVec.ofNat 8 (partNat bs 184 1) }).updMatrix team fun m => { m with cls := partNat bs 185 1 }

/-! ### Pool shares (R389) -/

/-- A line's record of 32 bytes: dirty mask, fill basis, state (0 A, 2 C, 3 D, 4 P), and the model's own bits. A line whose
fill has not landed is saved as it is without the fill. -/
def lineRecord (l : RegionLine) : Nat :=
  let st := match l.st with
    | .absent => 0
    | .clean => 2
    | .dirty => 3
    | .partialLine => 4
    | .filling => if l.mask = 0 then 0 else 4
  packFields [(128, l.mask), (56, l.basis), (8, st), (1, l.sys.toNat), (1, l.prefetched.toNat)]

/-- The line that a record describes, none where it is absent. -/
def takeLine (line v : Nat) : Option RegionLine :=
  let st : Option LineState := match bits v 191 184 with
    | 2 => some .clean
    | 3 => some .dirty
    | 4 => some .partialLine
    | _ => none
  st.map fun st => { line, st, mask := bits v 127 0, basis := bits v 183 128, sys := bit v 192, prefetched := bit v 193 }

/-- One share: its data, a tag byte for each word, a record for each line. -/
def shareBytes (c : Cluster) (slot : Nat) : List Byte :=
  let base := slot * 2 ^ 20
  readBytes c.pool base c.share ++
  ((List.range (c.share / 8)).map fun i =>
    BitVec.ofNat 8 ((c.full (base + 8 * i)).toNat + 16 * (c.countAt (base + 8 * i) % 16))) ++
  (List.range (c.share / 128)).flatMap fun i => toBytes 32 (lineRecord (c.line (base + 128 * i)))

/-- A cluster takes a share's bytes. -/
def Cluster.takeShare (c : Cluster) (slot : Nat) (bs : List Byte) : Cluster :=
  let base := slot * 2 ^ 20
  let here := fun (key : Nat) => key / 2 ^ 20 == slot
  let tag := fun (i : Nat) => partNat bs (c.share + i) 1
  let words := List.range (c.share / 8)
  { c with
    pool := writeBytes c.pool base (part bs 0 c.share),
    empties := (c.empties.filter fun w => !here (8 * w)) ++ (words.filter fun i => !bit (tag i) 0).map fun i => base / 8 + i,
    counts := (c.counts.filter fun p => !here (8 * p.1)) ++ (words.filter fun i => tag i / 16 % 16 != 1).map fun i => (base / 8 + i, tag i / 16 % 16),
    lines := (c.lines.filter fun l => !here l.line) ++ (List.range (c.share / 128)).filterMap fun i =>
      takeLine (base + 128 * i) (partNat bs (c.share + c.share / 8 + 32 * i) 32) }

/-! ### Matrix state and channels (R389) -/

/-- A matrix command's 64 bytes: which it is, how far a loop is, and the numbers of what it uses. -/
def MCommand.bytes (c : MCommand) : List Byte :=
  let n := fun (form : Nat) (fs : List (Nat × Nat)) => packFields ([(8, form), (1, c.started.toNat), (1, c.sys.toNat), (22, 0)] ++ fs)
  sized 64 <| toBytes 64 <| match c.op with
    | .easld core row k addr _ => n 0xB2 [(8, core), (24, row), (32, k), (32, addr)]
    | .pwr slot _ => n 0xBE [(32, slot)]
    | .loop a => n 0xB3 [(32, a.org), (32, a.eb), (32, a.ks), (32, a.done), (32, wrap 32 a.da), (32, wrap 32 a.db), (8, a.width),
        (24, a.window), (32, a.toff), (8, a.cls), (24, a.owner)]
    | .accz lo hi bands => n 0xB7 [(32, lo), (32, hi), (8, bands)]
    | .accrd lo hi k z d _ => n 0xB8 [(32, lo), (32, hi), (8, k), (8, z.toNat), (16, d)]
    | .accwr lo hi _ => n 0xB9 [(32, lo), (32, hi)]
    | .accfr banks => n 0xB6 [(32, banks.length)]
    | .pfree slot => n 0xB1 [(32, slot)]

def State.queueBytes (s : State) (team : Nat) : List Byte := (s.mcommands.filter fun c => c.team == team).flatMap MCommand.bytes

/-- The matrix section: queue, records and rows, the easel window on the four cores, band claims, saved tiles. -/
def State.matrixBytes (s : State) (team : Nat) : List Byte :=
  let m := s.matrixOf team
  let w := s.window team
  s.queueBytes team ++ (m.slots.flatMap fun p => toBytes 16 p.record.toNat ++ readBytes p.rows 0 (4096 * recNP p.record)) ++
  ((List.range 4).flatMap fun k => readBytes m.easel (65536 * k) (64 * w)) ++
  ((List.range 256).map fun i => BitVec.ofNat 8 (getKey (m.claims.map fun p => (p.1, p.2 + 1)) i 0)) ++
  (s.tilesSaved team).flatMap fun t => match m.tile? t with
    | some (lo, hi) => readBytes (m.bankId lo).bytes 0 16384 ++ readBytes (m.bankId hi).bytes 0 16384
    | none => []

/-- The reservations take their records and rows, one after the other; what is left of the bytes. -/
def takeSlots : List PSlot → List Byte → List PSlot × List Byte
  | [], bs => ([], bs)
  | p :: ps, bs =>
    let n := 4096 * recNP p.record
    let (qs, rest) := takeSlots ps (bs.drop (16 + n))
    ({ p with record := BitVec.ofNat 128 (partNat bs 0 16), rows := writeBytes [] 0 (part bs 16 n) } :: qs, rest)

/-- The banks of the saved tiles take their bytes. -/
def takeTiles (m : Matrix) : List Nat → List Byte → Matrix
  | [], _ => m
  | t :: ts, bs =>
    let m1 : Matrix := match m.tile? t with
      | some (lo, hi) => { m with banks := m.banks.map fun (b : Bank) =>
          if b.id == lo then { b with bytes := writeBytes [] 0 (part bs 0 16384) }
          else if b.id == hi then { b with bytes := writeBytes [] 0 (part bs 16384 16384) } else b }
      | none => m
    takeTiles m1 ts (bs.drop 32768)

/-- A team takes its matrix section back after the queue. -/
def State.takeMatrix (s : State) (team : Nat) (bs : List Byte) : State :=
  let w := s.window team
  let (slots, rest) := takeSlots (s.matrixOf team).slots (bs.drop (s.queueBytes team).length)
  let easel := (List.range 4).foldl (fun m k => writeBytes m (65536 * k) (part rest (64 * w * k) (64 * w))) ([] : List Host.Cell)
  let claims := (List.range 256).filterMap fun i =>
    let v := partNat rest (256 * w + i) 1
    if v = 0 then none else some (i, v - 1)
  let tiles := s.tilesSaved team
  s.updMatrix team fun m => takeTiles { m with slots, easel, claims } tiles (rest.drop (256 * w + 256))

/-- A message's 80 bytes: header and elements. -/
def Queued.bytes (q : Queued) : List Byte :=
  sized 80 (toBytes 8 (chTagq q.msg.image) ++
    toBytes 16 (packFields [(10, q.msg.dev), (6, q.msg.quad), (12, q.msg.rank), (4, q.msg.elems.length), (12, q.msg.job), (8, q.queue),
      (1, q.handler.toNat), (3, q.msg.rel)]) ++ q.msg.elems.flatMap fun e => toBytes 8 e.toNat)

/-- A message takes the values of its bytes. -/
def Queued.take (q : Queued) (bs : List Byte) : Queued :=
  let h := partNat bs 8 16
  { q with msg := { q.msg with
      image := BitVec.ofNat 128 (q.msg.image.toNat / 2 ^ 64 * 2 ^ 64 + partNat bs 0 8), dev := bits h 9 0, quad := bits h 15 10,
      rank := bits h 27 16, elems := (List.range (min 7 (bits h 31 28))).map fun i => BitVec.ofNat 64 (partNat bs (24 + 8 * i) 8) } }

/-- The channels section: the entries, the messages of the team's receive queues and of the handler queues it owns, and
the bindings of these. -/
def State.channelBytes (s : State) (t : Team) : List Byte :=
  ((List.range 64).flatMap fun i => toBytes 16 (t.chans.getD i 0).toNat) ++ ((s.queuedFor t.id).flatMap Queued.bytes) ++
  (s.handlers.filter fun h => h.team == t.id).flatMap fun h => toBytes 16 (packFields [(8, h.quad), (8, h.queue), (8, h.lgd)])

/-- Messages of a team's receive queues take their bytes in order. Its handler queues have gone on receiving, and stay as
they are (R337). -/
def takeMessages (mine : Queued → Bool) : List Queued → List Byte → List Queued
  | [], _ => []
  | q :: qs, bs =>
    if mine q then (if q.handler then q else q.take (bs.take 80)) :: takeMessages mine qs (bs.drop 80) else q :: takeMessages mine qs bs

/-! ### Team blocks and images -/

/-- The sections of a team block after its head, in the order of R389's table. -/
def State.blockSections (s : State) (t : Team) : List (List Byte) :=
  let ts := (List.range t.ntid).map fun r => s.thread t.id r
  let c := s.cluster t.cluster
  [s.blockHead t, wordBytes t.gregs, (List.range t.ntid).flatMap fun r => toBytes 64 (s.threadRecord t.id r),
   ts.flatMap fun x => wordBytes x.regs, ts.flatMap fun x => wordBytes x.window] ++
  ((List.range 4).map fun k => shareBytes c (4 * t.idx + k)) ++ [s.matrixBytes t.id, s.channelBytes t]

/-- A team block. -/
def State.blockBytes (s : State) (t : Team) : List Byte :=
  ((s.blockSizes t).zip (s.blockSections t)).flatMap fun p => sized p.1 p.2

/-- The teams of a cluster. -/
def State.clusterTeams (s : State) (cluster : Nat) : List Team := s.teams.filter fun t => t.cluster == cluster && !t.retired

/-- Sizes of an image's sections after its header: region map, sight, withdrawn waits, and a block for each team. -/
def State.imageSizes (s : State) (c : Cluster) : List Nat :=
  let teams := s.clusterTeams c.id
  [2048, 1024, 32 * sumSizes (teams.map fun t => (s.waitRecords t.id).length)] ++ teams.map fun t => sumSizes (s.blockSizes t)

/-- The size of an image in units of 256 bytes. -/
def State.imageUnits (s : State) (c : Cluster) : Nat := (256 + sumSizes (s.imageSizes c) + 255) / 256

def regionImage (r : Option Region) : List Byte := toBytes 32 ((r.map fun x => x.image.toNat).getD 0)

/-- The header of an image, 32 words (R389). -/
def State.imageHeader (s : State) (c : Cluster) : List DWord :=
  let g := s.grid c.grid
  let teams := s.clusterTeams c.id
  let w0 := 0xC7 * 2 ^ 56 + 2 ^ 48 + teams.length * 2 ^ 40 + g.depth * 2 ^ 32 + s.imageUnits c
  let cl := c.index % g.gx + c.index / g.gx % g.gy * 2 ^ 16 + c.index / (g.gx * g.gy) * 2 ^ 32
  let w4 := g.prio + g.fage * 4 + g.easel * 64 + g.needs * 256 + g.gall.toNat * 2 ^ 15 + g.dbg.toNat * 2 ^ 16 +
    g.pers.toNat * 2 ^ 17 + g.wdw * 2 ^ 18
  let words := [w0, c.group + c.job * 2 ^ 16, cl, g.id, w4, 0, 0, 0] ++ offsetsFrom 256 (s.imageSizes c)
  ((words ++ List.replicate (32 - words.length) 0).take 32).map (BitVec.ofNat 64)

/-- The bytes of an image. -/
def State.imageBytes (s : State) (c : Cluster) : List Byte :=
  let teams := s.clusterTeams c.id
  ((s.imageHeader c).flatMap fun x => toBytes 8 x.toNat) ++ (c.regions.flatMap regionImage) ++
  ((List.range 128).flatMap fun i => toBytes 8 (c.sight i)) ++ s.waitBytes teams ++ teams.flatMap s.blockBytes

/-! ### Taking an image back (R388) -/

/-- A team takes its block, whose pieces have the given sizes. -/
def State.takeBlock (s : State) (t : Team) (sizes : List Nat) (bs : List Byte) : State :=
  let at_ := fun (i : Nat) => (offsetsFrom 0 sizes).getD i 0
  let vn := t.alloc * (t.depth + 1)
  let s1 := (s.takeHead t.id bs).updTeam t.id fun x =>
    { x with gregs := bytesWords (63 * (t.depth + 1)) (bs.drop (at_ 1)),
             chans := (List.range 64).map fun i => BitVec.ofNat 128 (partNat bs (at_ 10 + 16 * i) 16) }
  let s2 : State := { s1 with
    threads := s1.threads.map fun (x : Thread) =>
      if x.team == t.id then
        { x with regs := bytesWords vn (bs.drop (at_ 3 + 4 * vn * x.rank)), window := bytesWords 64 (bs.drop (at_ 4 + 256 * x.rank)) }
      else x,
    inbox := takeMessages (fun q => (s.queuedFor t.id).contains q) s1.inbox (bs.drop (at_ 10 + 1024)) }
  let s3 := (List.range t.ntid).foldl (fun (s : State) r => s.takeRecord t.id r (partNat bs (at_ 2 + 64 * r) 64)) s2
  let s4 := s3.updCluster t.cluster fun c =>
    (List.range 4).foldl (fun (c : Cluster) k => c.takeShare (4 * t.idx + k) (bs.drop (at_ (5 + k)))) c
  s4.takeMatrix t.id (bs.drop (at_ 9))

/-- A team block agrees with where CTXSV found its threads and with the team's matrix queue. -/
def State.blockAgrees (s : State) (t : Team) (sizes : List Nat) (places : List (Nat × Nat × Bool)) (bs : List Byte) : Bool :=
  let at_ := fun (i : Nat) => (offsetsFrom 0 sizes).getD i 0
  let q := s.queueBytes t.id
  ((List.range t.ntid).map fun r => recordPlace (partNat bs (at_ 2 + 64 * r) 64)) == places && part bs (at_ 9) q.length == q

/-- An image is the one that CTXSV wrote of a cluster, as far as the model can tell (R388, R389): its header, its withdrawn
waits, the places of its threads and its matrix queues are those that were written. -/
def State.imageAgrees (s : State) (k : Saved) (bs : List Byte) : Bool :=
  let teams := s.clusterTeams k.cluster
  let at_ := fun (i : Nat) => (offsetsFrom 256 k.sizes).getD i 0
  part bs 0 256 == k.header.flatMap (fun x => toBytes 8 x.toNat) && part bs (at_ 2) k.waits.length == k.waits &&
  (List.range teams.length).all fun i => s.blockAgrees (teams.getD i {}) (k.blocks.getD i []) (k.places.getD i []) (bs.drop (at_ (3 + i)))

/-- What CTXSV keeps of an image that it writes, by which CTXLD knows it again. -/
def State.savedAs (s : State) (c : Cluster) (asid va : Nat) : Saved :=
  let teams := s.clusterTeams c.id
  { cluster := c.id, quads := c.quads, asid, va, header := s.imageHeader c, waits := s.waitBytes teams, sizes := s.imageSizes c,
    blocks := teams.map s.blockSizes,
    places := teams.map fun t => (List.range t.ntid).map fun r => recordPlace (s.threadRecord t.id r) }

/-- A cluster takes its sections and its teams their blocks; the sight vector is compacted again (R219). -/
def State.takeImage (s : State) (k : Saved) (bs : List Byte) : State :=
  let teams := s.clusterTeams k.cluster
  let at_ := fun (i : Nat) => (offsetsFrom 256 k.sizes).getD i 0
  let sight := fun i => partNat bs (2304 + 8 * i) 8
  let base := fun d => (List.range 63).foldl (fun m j => min m (sight (64 * d + j + 1))) (sight (64 * d))
  let s1 := (List.range teams.length).foldl (fun (s : State) i => s.takeBlock (teams.getD i {}) (k.blocks.getD i []) (bs.drop (at_ (3 + i)))) s
  s1.updCluster k.cluster fun c =>
    { c with
      bases := [base 0, base 1],
      offs := (List.range 128).map fun i => min (sight i - base (i / 64)) 0xFFFFFF,
      regions := (List.range 64).map fun i =>
        let v := BitVec.ofNat 256 (partNat bs (256 + 32 * i) 32)
        match (c.regions[i]?).join with
        | some r => some { r with image := v }
        | none => if v = 0 then none else some { image := v } }

end Sys2Proof.Machine
end

