-- ==== Sys2Proof/Machine/Preempt.lean ====
section
/-! DEFINITION. Pre-emption, context images and debug halts (14_system.md R382 to R389): stopping and resuming a cluster,
HALT, PREEMPT, FORCED_LIMIT, CTXSV and CTXLD. -/

namespace Sys2Proof.Machine

open Sys2Proof

/-- The resident team that a handle names: [5:0] the device quad, [7:6] the slot (R378). -/
def State.handleTeam (s : State) (h : Nat) : Option Team :=
  if h / 256 ≠ 0 then none
  else s.teams.find? fun t => t.quad == h % 64 && t.slot == h / 64 && !t.retired && t.stat != 3
def handleOf (t : Team) : Nat := t.quad % 64 + 64 * (t.slot % 4)

/-- The saved team that a handle still names, since no team has taken its slot (R378, R387). -/
def State.savedTeam (s : State) (h : Nat) : Option Team :=
  s.saved.findSome? fun k => s.teams.find? fun t =>
    t.cluster == k.cluster && !t.retired && t.stat == 3 && k.quads.getD t.idx 64 == h % 64 && t.slot == h / 64

/-! ### Stopping (R90, R384) -/

/-- A gang stands at a clause boundary. -/
def Gang.atBoundary (g : Gang) : Bool :=
  match g.status with
  | .fetch | .ready | .parked => g.word == 0
  | _ => false

/-- A gang that a pre-emption stops where it stands at a clock of its die: at a header, or at its held word. -/
def Gang.halt (g : Gang) (clock : Nat) : Gang :=
  let since := if g.eligible.isSome then clock else g.idleSince
  match g.status with
  | .held w => { g with status := .stopped (some w), eligible := none, idleSince := since }
  | .fetch | .ready | .parked =>
    { g with status := .stopped none, park := g.status == .parked, clause := [], eligible := none, fetchHold := none, idleSince := since }
  | _ => g

/-- Stop the gangs of a cluster that can stop now: those at a pre-emption point, and once the forced limit has passed
those at any boundary or held at a word. -/
def State.stopGangs (s : State) (cluster : Nat) (forced : Bool) : State :=
  { s with gangs := s.gangs.map fun (g : Gang) =>
      if (s.team g.team).cluster == cluster && (forced || (g.atBoundary && g.stopMask.isSome)) then
        g.halt (s.dieClock ((s.team g.team).quad / 32)) else g }

/-- Request a stop of a cluster (R384, R386). -/
def State.requestStop (s : State) (cluster : Nat) (force : Bool) : State :=
  let s1 := s.updCluster cluster fun c =>
    { c with preempt := some (c.preempt.getD s.now), forced := c.forced || force }
  let s2 : State := { s1 with teams := s1.teams.map fun (t : Team) =>
    if t.cluster == cluster && !t.retired && t.stat == 0 then { t with stat := 1 } else t }
  s2.stopGangs cluster (s2.cluster cluster).forced

/-- A wait that a pre-emption withdraws (R385). -/
def EngineAct.withdrawn : EngineAct → Bool
  | .twait .. | .fenceq _ | .mwait .. | .cwait .. | .join .. | .answer .. => true
  | .cancel | .joined .. | .fenced | .write _ | .tlbi .. | .replays => false

/-- The accesses, requests and tickets on whose end a pre-emption of a team does not wait: what it withdraws (R385), and
what these keep back by the order of their thread, from the earliest on. -/
def State.keptBack (s : State) (team : Nat) : List Nat :=
  let waits := (s.accesses.filter fun a => a.team == team && (a.isWaiting || a.isRejected || a.state == .withdrawn)).map (·.id)
  let gates := ((s.team team).tbar.flatten.map (·.2.1)) ++ ((s.recvWaits.filter fun w => w.team == team).map (·.ticket)) ++
    (s.engineWaits.filter fun w => w.team == team && w.act.withdrawn).map (·.ticket)
  s.allBehind team (waits ++ gates)

/-- The tickets of what a pre-emption of a team does not wait for, once for each part that is owed so. -/
def State.withdrawable (s : State) (team : Nat) : List Nat :=
  let kept := s.keptBack team
  ((s.accesses.filter fun a => a.team == team && kept.contains a.id).map (·.ticket)) ++
  ((s.reqs.filter fun r => r.team == team && kept.contains r.id).flatMap fun r =>
    List.replicate (max 1 r.op.ranks.length) r.ticket) ++
  ((s.team team).tbar.flatten.map (·.2.1)) ++
  ((s.recvWaits.filter fun w => w.team == team).map (·.ticket)) ++
  ((s.quiets.filter fun w => w.team == team).flatMap fun w => (w.ranks ++ w.ranks).map fun _ => w.ticket) ++
  ((s.engineWaits.filter fun w => w.team == team && w.act.withdrawn).flatMap fun w => w.ranks.map fun _ => w.ticket) ++
  (s.clusters.flatMap fun c => (c.pwaits.filter fun w => w.team == team).flatMap fun w => w.ranks.map fun _ => w.ticket)

/-- Every gang of a team has stopped and nothing of it is outstanding but what is withdrawn, access by access; its engines
have stopped (R252, R292, R384). -/
def State.teamStopped (s : State) (team : Nat) : Bool :=
  let out := s.withdrawable team
  (s.gangs.all fun g => g.team != team || match g.status with
    | .stopped _ => true
    | _ => false) &&
  (s.filing.all fun f => f.team != team) &&
  (s.tickets.all fun t => t.team != team || decide (t.parts.length ≤ (out.filter (· == t.id)).length)) &&
  (s.results.all fun r => r.team != team) &&
  (s.commands.all fun c => c.team != team || !c.started || (c.stream && c.lines.isEmpty && c.slot.isNone)) &&
  s.mcommands.all fun c => c.team != team || !c.started || match c.op with
    | .loop _ => true
    | _ => false

/-- A team has stopped: its waiters leave their lists (R200, R385). -/
def State.markStopped (s : State) (team : Nat) : State :=
  { s with accesses := s.accesses.map fun (a : Access) => if a.team == team && (a.isWaiting || a.isRejected) then { a with state := .withdrawn } else a
         }.updTeam team fun t => { t with stat := 2 }

/-- A PREEMPT word of a cluster comes to a status. That of a team which has itself been stopped is withdrawn, and keeps the
status until its team resumes (R385). -/
def State.answerPreempt (s : State) (cluster : Nat) (p : Nat → Bool) (status : Nat) : State :=
  let kept := fun (w : PreemptWait) => decide (2 ≤ (s.team w.team).stat)
  let ws := (s.cluster cluster).pwaits.filter fun w => p w.op && w.got.isNone && !kept w
  ws.foldl (fun (s : State) w => s.answerAll w.ticket w.team w.ranks w.d 1 status)
    (s.updCluster cluster fun c =>
      { c with pwaits := (c.pwaits.filter fun w => !(p w.op && w.got.isNone && !kept w)).map fun (w : PreemptWait) =>
          if (p w.op && w.got.isNone) then { w with got := some status } else w })

/-- The PREEMPT words that came to a status while their team was stopped are answered once it runs again (R385). -/
def State.answerKept (s : State) (cluster : Nat) : State :=
  let due := fun (w : PreemptWait) => w.got.isSome && decide ((s.team w.team).stat < 2)
  ((s.cluster cluster).pwaits.filter due).foldl (fun (s : State) w => s.answerAll w.ticket w.team w.ranks w.d 1 (w.got.getD 0))
    (s.updCluster cluster fun c => { c with pwaits := c.pwaits.filter fun w => !due w })

/-- Teams that have come to a stop are marked, and the words that wait for whole clusters are answered; an aborted
cluster answers 3 (R386). -/
def State.settleStops (s : State) : State :=
  -- a gang that comes to be held once the forced limit has passed stops at its word too
  let s0 := (s.clusters.filter fun c => c.preempt.isSome && c.forced).foldl (fun (s : State) c => s.stopGangs c.id true) s
  let s1 := (s0.teams.filter fun t => t.stat == 1 && !t.retired && s0.teamStopped t.id).foldl (fun (s : State) t => s.markStopped t.id) s0
  (s1.clusters.filter fun c => !c.pwaits.isEmpty).foldl (fun (s : State) c =>
    (if c.aborted || c.retired then s.answerPreempt c.id (fun _ => true) 3
    else if (s.clusterTeams c.id).all fun t => t.stat == 2 then s.answerPreempt c.id (fun op => op != 2) 0
    else s).answerKept c.id) s1

/-! ### Resuming (R385, R388) -/

/-- Requeue a withdrawn access behind the waiters present, under R184 and R185; a barrier wait whose phase has passed
meanwhile ends (R200, R385). -/
def State.requeue (s : State) (a : Access) : State :=
  match a.op with
  | .barrier token p =>
    let o := s.poolNat a.cluster a.key 16
    if objTag o = 0xA && token = objPh o then s.waitOrReject a
    else (s.retireAccess a).addResult a.ticket a.team a.rank (.pred p (objLf o == 0))
  | _ => s.waitOrReject a

/-- A stopped gang goes on. -/
def Gang.resume (g : Gang) : Gang :=
  match g.status with
  | .stopped none => { g with status := if g.park then .parked else .fetch, park := false, stopMask := none }
  | .stopped (some w) => { g with status := .held w, stopMask := none }
  | _ => g

/-- Restart a cluster's teams. The folds and the ineligible gangs of a cluster that CTXLD has placed anew start their time
at 0 (R388); in place, it has gone on (R81, R85). -/
def State.resumeCluster (s : State) (cluster : Nat) (placed : Bool) : State :=
  let mine := fun (team : Nat) => (s.team team).cluster == cluster
  let s1 : State := { s with
    gangs := s.gangs.map fun (g : Gang) =>
      if !mine g.team then g
      else if placed then { g.resume with idleSince := s.dieClock ((s.team g.team).quad / 32) } else g.resume,
    teams := s.teams.map fun (t : Team) => if t.cluster == cluster then { t with stat := 0 } else t,
    folds := s.folds.map fun (f : Fold) =>
      if placed && mine f.team then { f with since := s.dieClock (f.quad / 32), aged := false } else f,
    overflow := s.overflow.map fun (f : Filed) =>
      if placed && mine f.team then { f with since := s.dieClock (f.quad / 32) } else f }
  let s2 := s1.updCluster cluster fun c => { c with preempt := none, forced := false }
  ((s2.accesses.filter fun a => a.cluster == cluster && a.state == .withdrawn).foldl (fun (s : State) a => s.requeue a) s2).rescan cluster

/-! ### PREEMPT and FORCED_LIMIT (R384, R386) -/

/-- PREEMPT.stop and .force. -/
def preemptWord (i : Instr) (w : FmtE) (force : Bool) (s : State) : State :=
  gangWord i s (fun c => occupancy c.act.length false) fun c =>
    let (ticket, s1) := s.issue c.gid c.tm.id 6 c.act
    let occ := occupancy c.act.length false
    match s.handleTeam (c.val c.lead w.s1.toNat 1) with
    | none => .done (s1.answerAll ticket c.tm.id c.act w.d.toNat 1 1) occ
    | some t =>
      let s2 := s1.requestStop t.cluster force
      .done (s2.updCluster t.cluster fun k =>
        { k with pwaits := k.pwaits ++ [{ ticket, team := c.tm.id, op := force.toNat, d := w.d.toNat, ranks := c.act }] }) occ

def execPreemptStop (w : FmtE) (s : State) : Host.Outcome State Fault Refusal := .next (preemptWord (.preemptStop w) w false s)
def execPreemptForce (w : FmtE) (s : State) : Host.Outcome State Fault Refusal := .next (preemptWord (.preemptForce w) w true s)

/-- PREEMPT.resume withdraws a request, which answers the words that wait for it with 2, and restarts the cluster. -/
def execPreemptResume (w : FmtE) (s : State) : Host.Outcome State Fault Refusal :=
  .next (gangWord (.preemptResume w) s (fun c => occupancy c.act.length false) fun c =>
    let (ticket, s1) := s.issue c.gid c.tm.id 6 c.act
    let occ := occupancy c.act.length false
    match s.handleTeam (c.val c.lead w.s1.toNat 1) with
    | none => .done (s1.answerAll ticket c.tm.id c.act w.d.toNat 1 1) occ
    | some t =>
      let s2 := (s1.answerPreempt t.cluster (fun _ => true) 2).resumeCluster t.cluster false
      .done (s2.answerAll ticket c.tm.id c.act w.d.toNat 1 0) occ)

/-- The forced limit of a job (R379). -/
def forcedLimit (j : Job) : Nat := micros (10 * max 1 (bits j.wdog.toNat 39 32))

/-- FORCED_LIMIT: the limit passes, and what is held stops at its word. -/
def execForcedLimit (cluster : Nat) (s : State) : Host.Outcome State Fault Refusal :=
  let c := s.cluster cluster
  .next <| match c.preempt with
  | none => s
  | some t =>
    if c.forced || c.id ≠ cluster || s.now < t + forcedLimit (s.job c.job) then s
    else (s.updCluster cluster fun c => { c with forced := true }).stopGangs cluster true

/-! ### HALT (R382, R383) -/

/-- Roles whose threads have all stopped. -/
def State.stoppedRoles (s : State) (team : Nat) : Nat :=
  let t := s.team team
  ((List.range 8).filter fun r => t.halt.toNat.testBit r && s.threads.all fun x =>
    x.team != team || x.ended || x.role.toNat != r || x.haltPc.isSome).foldl (fun m r => m + 2 ^ r) 0

/-- Write a team's HALT register: newly halted roles leave the gangs that stand at a boundary, and the threads of a role
whose bit is cleared are filed at their PCs. -/
def State.writeHalt (s : State) (team v : Nat) : State :=
  let s1 := s.updTeam team fun t => { t with halt := BitVec.ofNat 8 v }
  let s2 := ((s1.gangs.filter fun g => g.team == team && g.atBoundary).foldl (fun (s : State) g => s.haltMembers g.id) s1)
  let quad := (s.team team).quad
  let back := s2.threads.filter fun x => x.team == team && x.haltPc.isSome && !v.testBit x.role.toNat
  let s3 : State := { s2 with threads := s2.threads.map fun (x : Thread) =>
    if x.team == team && !v.testBit x.role.toNat then { x with haltPc := none } else x }
  s3.sendToFolds ((sortNat (back.map (·.rank))).filterMap fun r =>
    ((back.find? fun x => x.rank == r).bind fun x => x.haltPc).map fun (pc, word, done, k) =>
      { quad, lane := laneOf r, team, rank := r, pc, word, done, carry := k })

/-- HALT: STATW of state 0x012, for each Active thread in rank order. -/
def execHalt (w : FmtE) (s : State) : Host.Outcome State Fault Refusal :=
  .next (runWord (.halt w) s fun c =>
    let (ticket, s0) := s.issue c.gid c.tm.id 5 (if c.act.isEmpty then [] else [c.lead])
    let out := runThreads (fun s rank =>
      let t := if w.s1.toNat = 255 then some c.tm else s.handleTeam (c.val rank w.s1.toNat 1)
      match t with
      | none => .trap s .illegalOperand 0 0
      | some t => .ok (((s.owe ticket rank 1).addResult ticket c.tm.id rank .nothing).writeHalt t.id (c.val rank w.s2.toNat 2 % 256)))
      (occupancy c.act.length true) s0 c.act []
    match out with
    | .done s o => .done (s.settleTicket ticket c.lead) o
    | .trap s com cause a b => .trap (s.settleTicket ticket c.lead) com cause a b
    | .hold s com w => .hold (s.settleTicket ticket c.lead) com w
    | .left s => .left s)

/-! ### Context images (R387 to R389) -/

/-- Send the device's writes of bytes at a global address (R387), and their requests. -/
def State.postBytes (s : State) (die asid : Nat) (sys : Bool) (va : Nat) (bs : List Byte) : List Nat × State :=
  match s.leafRuns asid sys { w := true } (bs.length / 65536 + 2) va bs.length with
  | (.error _, s1) => ([], s1)
  | (.ok runs, s1) =>
    let rs := (runs.foldl (fun (p : List Byte × List HomeReq) r =>
      (p.1.drop r.2.1, p.2 ++ writeReqs die asid r.1 r.2.2 (p.1.take r.2.1))) (bs, [])).2
    ((List.range rs.length).map (s1.nextId + ·), s1.postReqs rs)

/-- Read bytes at a global address as a level may; none where a page does not allow it. -/
def State.fetchBytes (s : State) (asid : Nat) (sys : Bool) (va n : Nat) : Option (List Byte) × State :=
  match s.leafRuns asid sys { r := true } (n / 65536 + 2) va n with
  | (.error _, s1) => (none, s1)
  | (.ok runs, s1) =>
    let (bs, s2) := runs.foldl (fun (p : List Byte × State) (r : Nat × Nat × DWord) =>
      let (b, s) := (p.2.touchRange r.1 r.2.1).homeRead asid r.1 r.2.1
      (p.1 ++ b, s)) (([] : List Byte), s1)
    (some bs, s2)

/-- The threads of a fold, as filings. -/
def Fold.filed (f : Fold) : List Filed :=
  f.threads.map fun t => { quad := f.quad, lane := f.lane, team := f.team, rank := t.1, pc := f.pc, word := f.word, done := t.2.1,
                           carry := t.2.2, since := f.since }

/-- A team moves to another quad: its folds' threads and its threads in overflow lists are filed there anew (R81, R82),
and everything else that names its quad follows. -/
def State.leaveQuad (s : State) (team : Nat) (quad : Nat) : State :=
  let filed := ((s.folds.filter fun f => f.team == team).flatMap Fold.filed) ++ s.overflow.filter fun f => f.team == team
  let s1 : State := { s with
    folds := s.folds.filter fun f => f.team != team,
    overflow := s.overflow.filter fun f => f.team != team }
  let s2 := filed.foldl (fun (s : State) f => s.file { f with quad := quad }) s1
  { s2 with
    filing := s.filing.map fun (f : Filed) => if f.team == team then { f with quad } else f,
    inbox := s.inbox.map fun (q : Queued) => if !q.handler && q.team == team then { q with quad } else q,
    commands := s.commands.map fun (c : CopyCommand) => if c.team == team then { c with quad } else c }.updTeam team
      fun t => { t with quad }

/-- Tiles that are not saved read zero from now on (R292, R388). -/
def State.dropTiles (s : State) (team : Nat) : State :=
  let keep := s.savedTiles team
  s.updMatrix team fun m => { m with banks := m.banks.map fun (b : Bank) =>
    match b.name with
    | some n => if keep.testBit (n / 2) then b else { b with bytes := [] }
    | none => b }

/-- CTXSV (R387): its counter falls once the writes of the image are accepted. Saved teams stand on quad 64, which no device
has, until CTXLD places them. -/
def execCtxsv (w : FmtE) (s : State) : Host.Outcome State Fault Refusal :=
  .next (gangWord (.ctxsv w) s (fun c => occupancy c.act.length true) fun c =>
    let (ticket, s1) := s.issue c.gid c.tm.id 6 c.act
    let va := c.val c.lead w.s2.toNat 2
    let answer := fun (s : State) (size result : Nat) =>
      WordOut.done (s.answerAll ticket c.tm.id c.act w.d.toNat 1 (size + result * 2 ^ 28)) (occupancy c.act.length true)
    match s.handleTeam (c.val c.lead w.s1.toNat 1) with
    | none => answer s1 0 1
    | some t =>
      let cl := s.cluster t.cluster
      let teams := s.clusterTeams t.cluster
      let size := s.imageUnits cl
      let asid := c.job.asid
      if !teams.all fun t => t.stat == 2 then answer s1 0 1
      else if w.imm = 0 then answer s1 size 4
      else if 256 * w.imm.toNat < size then answer s1 size 2
      else match s1.translateRun asid c.gang.sys { w := true } (size / 256 + 2) (va / 256 * 256) (256 * size) with
        | (.error _, s2) => answer s2 size 3
        | (.ok _, s2) =>
          let (ids, s3) := s2.postBytes (c.tm.quad / 32) asid c.gang.sys (va / 256 * 256) (sized (256 * size) (s2.imageBytes cl))
          let s4 := teams.foldl (fun (s : State) t => ((s.dropTiles t.id).leaveQuad t.id 64).updTeam t.id fun t => { t with stat := 3 }) s3
          let s5 : State := { s4 with
            saved := s4.saved ++ [s2.savedAs cl asid (va / 256 * 256)],
            engineWaits := s4.engineWaits ++ [{ ticket, team := c.tm.id, ranks := c.act, ids, act := .answer w.d.toNat size }] }
          .done (s5.updCluster cl.id fun c => { c with quads := [] }) (occupancy c.act.length true))

/-- A resumed gang takes an entry of its new lane. The spec does not say what becomes of a gang for which the lane has none
free: its threads are filed as a demoted gang's are (R86, R388; DESIGN CHOICE, notes/assumptions/109.md). -/
def State.seatGang (s : State) (gid quad : Nat) : State :=
  match s.gang? gid with
  | none => s
  | some g =>
    let others : State := { s with gangs := s.gangs.filter fun x => x.id != gid }
    match others.freeEntry quad g.lane with
    | some e => s.updGang gid fun g => { g with entry := e }
    | none => ((s.passPending g (g.members.headD 0)).dropGang gid).sendToFolds (g.members.map fun r =>
        { quad, lane := g.lane, team := g.team, rank := r, pc := g.pc, word := g.word, done := g.done.contains r, carry := g.carry })

/-- Place a saved team on a quad. -/
def State.enterQuad (s : State) (team quad : Nat) : State :=
  let slot := ((List.range 4).find? fun i => (s.residents quad).all fun t => t.slot != i).getD 0
  let gs := (s.gangs.filter fun g => g.team == team).map (·.id)
  gs.foldl (fun (s : State) g => s.seatGang g quad) ((s.leaveQuad team quad).updTeam team fun t =>
    { t with slot, stat := 2, winAt := List.replicate 5 (s.coreCount (4 * quad)) })

/-- The quads on which a saved cluster may resume, or the status that refuses them: the mask's, or the dispatcher's own
choice, which takes the old quads where it can. A port without slots for the receive queues that the team brings (R316)
counts as lack of room, for which R388 names no status (DESIGN CHOICE, notes/assumptions/111.md). -/
def State.resumeQuads (s : State) (c : Cluster) (old : List Nat) (mask : Nat) : Except Nat (List Nat) :=
  let g := s.grid c.grid
  let n := (s.clusterTeams c.id).length
  let most := (s.clusterTeams c.id).foldl (fun m t => max m t.slotsTaken) 0
  let room := fun (q : Nat) => s.fits { g.fit with needs := 0 } (s.residents q) q
  let slots := fun (qs : List Nat) => (s.clusterTeams c.id).all fun t => decide (s.slotsUsed (qs.getD t.idx 64) + t.slotsTaken ≤ 4096)
  let able := fun (q : Nat) => s.fits { g.fit with needs := g.needs } (s.residents q) q
  let free := fun (q : Nat) => able q && decide (s.slotsUsed q + most ≤ 4096)
  let chosen := if mask ≠ 0 then (List.range 64).filter fun q => mask.testBit q
    else if old.all able && slots old then old
    else ((s.findOn free n 0).orElse fun _ => (s.findOn free n 1).orElse fun _ => if g.bond = 0 then none else s.findBonded free n).getD old
  let both := (chosen.any fun q => q / 32 == 0) && chosen.any fun q => q / 32 == 1
  let moves := (s.clusterTeams c.id).any fun t => s.handlers.any fun h => h.team == t.id && chosen.getD t.idx 64 != h.quad
  if chosen.length ≠ n || !s.connected chosen || (g.bond == 0 && both) || (g.bond == 2 && !both) || !chosen.all s.hasQuad then .error 1
  else if !(chosen.all room && slots chosen) then .error 2
  else if !chosen.all able then .error 3
  else if moves then .error 5
  else .ok chosen

/-- CTXLD (R388). An image is valid when its header is one that CTXSV wrote for a cluster still saved, at this address or
at another, and it agrees with what the model holds of that cluster. Its values are then taken from memory. -/
def execCtxld (w : FmtE) (s : State) : Host.Outcome State Fault Refusal :=
  .next (gangWord (.ctxld w) s (fun c => occupancy c.act.length true) fun c =>
    let (ticket, s1) := s.issue c.gid c.tm.id 6 c.act
    let va := c.val c.lead w.s2.toNat 2
    let asid := c.job.asid
    let answer := fun (s : State) (status : Nat) =>
      WordOut.done (s.answerAll ticket c.tm.id c.act w.d.toNat 1 status) (occupancy c.act.length true)
    let (head, s2) := s1.fetchBytes asid c.gang.sys va 256
    match s2.saved.find? fun k => some (k.header.flatMap fun x => toBytes 8 x.toNat) == head && !(s2.cluster k.cluster).aborted with
    | none => answer s2 4
    | some k =>
      let cl := s2.cluster k.cluster
      match s2.fetchBytes asid c.gang.sys va ((256 + sumSizes k.sizes + 255) / 256 * 256) with
      | (none, s3) => answer s3 4
      | (some bs, s3) =>
        if !s3.imageAgrees k bs then answer s3 4
        else match s3.resumeQuads cl k.quads (c.val c.lead w.s1.toNat 2) with
          | .error status => answer s3 status
          | .ok quads =>
            let s4 := (s3.takeImage k bs).updCluster cl.id fun c => { c with quads }
            let s5 := (s3.clusterTeams cl.id).foldl (fun (s : State) (t : Team) => s.enterQuad t.id (quads.getD t.idx 0)) s4
            answer (({ s5 with saved := s5.saved.filter fun x => x != k } : State).resumeCluster cl.id true) 0)

end Sys2Proof.Machine
end

