-- ==== Sys2Proof/Machine/System.lean ====
section
/-! DEFINITION. The remaining system forms, opcodes 0xE0 to 0xE7 (14_system.md R366, R371 to R381, R390): TLBI, CAPR with
the capability list of 15_host.md R406, STATR, STATW, WDOG, SLOGR, SLOGP, ERET, and the rows WATCHDOG_FIRE and
PAGE_FAULT_REJECT. -/

namespace Sys2Proof.Machine

open Sys2Proof

/-! ### TLBI (R370, R371) -/

/-- A translation of address space `a` at page `p` is one that TLBI of the given kind names: 0 an address, 1 an address
space, 2 all. -/
def tlbiHits (kind asid va a p : Nat) (large : Bool) : Bool :=
  kind == 2 || (a == asid && (kind == 1 || p == va / 2 ^ 16 || (large && p / 2 ^ 13 == va / 2 ^ 29)))

/-- TLBI performs: matching translations go, every access held on a matching page, a large one where the table has one now,
retries its translation, and side-log entries on such pages are due for replay (R370, R371, R374). -/
def State.tlbiPerform (s : State) (kind asid va : Nat) : State :=
  let large := match s.walk asid va with
    | .ok (_, l) => l
    | .error _ => false
  let page := fun (a p : Nat) => tlbiHits kind asid va a p large
  let mineC := fun (c : Cluster) => kind == 2 || (s.job c.job).asid == asid
  { s with
    tlb := s.tlb.filter fun t => !tlbiHits kind asid va t.asid t.page t.large,
    pageFaults := s.pageFaults.filter fun p => !page p.1 p.2.1,
    gangs := s.gangs.map fun (g : Gang) =>
      let g1 := match g.fetchHold with
        | some (a, v) => if page a (v / 2 ^ 16) then { g with fetchHold := none } else g
        | none => g
      match g1.status with
      | .held (.page a v) => if page a (v / 2 ^ 16) then { g1 with status := .held (.flights []) } else g1
      | .stopped (some (.page a v)) => if page a (v / 2 ^ 16) then { g1 with status := .stopped (some (.flights [])) } else g1
      | _ => g1,
    clusters := s.clusters.map fun (c : Cluster) =>
      if mineC c then { c with lines := c.lines.map fun (l : RegionLine) => { l with missing := false } } else c,
    side := s.side.map fun (e : SideEntry) => if page e.req.asid (e.req.va / 2 ^ 16) then { e with due := true } else e }

/-- Entries in side logs of the Active threads' own accesses, which have not performed (R356). -/
def ownLogs (c : Ctx) (s : State) : List Nat :=
  (s.side.filter fun e => e.req.team == c.tm.id && c.act.contains e.req.rank && !e.req.back && e.req.cmd.isNone).map (·.req.id)

/-- A TLBI word: it starts when the gang's earlier accesses have performed, and its result is written when it has
performed. -/
def tlbiWord (i : Instr) (w : FmtE) (kind : Nat) (s : State) : State :=
  gangWord i s (fun c => occupancy c.act.length (kind == 0)) fun c =>
    let x := if kind = 2 then 0 else c.val c.lead w.s1.toNat 1
    let va := if kind = 0 then c.val c.lead w.s2.toNat 2 else 0
    if 512 ≤ x then .trap s [] .illegalOperand 0 0
    else
      let (ticket, s1) := s.issue c.gid c.tm.id 5 [c.first]
      .done { s1 with engineWaits := s1.engineWaits ++
        [{ ticket, team := c.tm.id, ranks := [c.first], ids := fenceIds c s false ++ ownLogs c s, act := .tlbi kind x va }] }
        (occupancy c.act.length (kind == 0))

def execTlbiVa (w : FmtE) (s : State) : Host.Outcome State Fault Refusal := .next (tlbiWord (.tlbiVa w) w 0 s)
def execTlbiAsid (w : FmtE) (s : State) : Host.Outcome State Fault Refusal := .next (tlbiWord (.tlbiAsid w) w 1 s)
def execTlbiAll (w : FmtE) (s : State) : Host.Outcome State Fault Refusal := .next (tlbiWord (.tlbiAll w) w 2 s)

/-- PAGE_FAULT_REJECT: not-present is raised precisely in every gang held on the page, at its word, its fetch or a line
that it waits for, and in the queue words whose home step holds on it (R370). A record off the fabric has no gang: it is
dropped with a loss note (DESIGN CHOICE, notes/assumptions/78.md). -/
def execPageFaultReject (asid page : Nat) (s : State) : Host.Outcome State Fault Refusal :=
  let hit := fun (a v : Nat) => a == asid && v / 2 ^ 16 == page
  let info := match s.walk asid (page * 2 ^ 16) with
    | .error (level, bad) => level + (if bad then 256 else 0)
    | .ok _ => 2
  .next <|
    if !s.pageFaults.any (fun p => p.1 == asid && p.2.1 == page) then s
    else
      let s0 : State := { s with pageFaults := s.pageFaults.filter fun p => !(p.1 == asid && p.2.1 == page) }
      let s1 := s0.gangs.foldl (fun (s : State) g =>
        match g.status, g.fetchHold with
        | .held (.page a v), _ => if hit a v then s.trapHeld g .notPresent v info else s
        | .stopped (some (.page a v)), _ =>
          if hit a v then (s.trapHeld g .notPresent v info).updGang g.id fun g =>
            if g.status == .fetch then { g with status := .stopped none } else g
          else s
        | _, some (a, v) =>
          if hit a v then fetchTrap (s.updGang g.id fun g => { g with fetchHold := none }) g .notPresent v info else s
        | _, none => s) s0
      let s2 := s1.clusters.foldl (fun (s : State) c =>
        if (s.job c.job).asid != asid then s
        else c.lines.foldl (fun (s : State) l =>
          match c.mapping l.line with
          | some (_, _, va) => if l.missing && va / 2 ^ 16 == page then s.failLine c.id l .notPresent info else s
          | none => s) s) s1
      let gone := s2.reqs.filter fun r => r.asid == asid && match r.holdVa with
        | some v => v / 2 ^ 16 == page
        | none => false
      gone.foldl (fun (s : State) r =>
        (if r.team = 0 then s.postLoss r.job 1 (r.src - 4) else s.refuseWord r .notPresent (r.holdVa.getD 0) info).dropReq r.id) s2

/-! ### CAPR and the capability list (R25, R390, R406) -/

/-- The bodies of the list's entries after the root, with their kinds. The ranges of entry 3 are each die's HBM, seen by
its own die, by the other and as memory, peer memory and host memory (DESIGN CHOICE, notes/assumptions/5.md). -/
def State.capBodies (s : State) : List (Nat × Nat × Nat) :=
  let two := s.dies == 2
  let mask := fun i => if s.hasDie (i / 128) then s.featuresOf i else 0
  let rec128 := fun (base cls obs len : Nat) => base + cls * 2 ^ 52 + obs * 2 ^ 56 + len * 2 ^ 64
  let dies := (List.range 2).filter s.hasDie
  let ranges := (dies.flatMap fun d =>
      [rec128 (d * 2 ^ 38) 5 d (2 ^ 38)] ++ (if two then [rec128 (d * 2 ^ 38) 6 (1 - d) (2 ^ 38)] else []) ++
      [rec128 (d * 2 ^ 38) 7 2 (2 ^ 38)]) ++
    [rec128 0x4000000000000 9 2 (2 ^ 50), rec128 0x8000000000000 8 2 (2 ^ 51)]
  let packed := fun (width : Nat) (vs : List Nat) => (vs.reverse).foldl (fun a v => a * 2 ^ width + v) 0
  [(1, 16, s.order + s.dies * 2 ^ 8 + s.seam.toNat * 2 ^ 10 + s.hostPort.toNat * 2 ^ 11 + (if two then 0 else s.strap) * 2 ^ 12),
   (2, 1024, packed 32 ((List.range 256).map mask)),
   (3, 16 * ranges.length, packed 128 ranges),
   (4, 16, s.maxDepth),
   (5, 16, s.detailed.toNat),
   (6, 16, s.spillMax + s.hdmMax * 2 ^ 64),
   (7, 16, s.ports + s.pod * 2 ^ 16)]

/-- Entries one after the other, from a byte offset on. -/
def capEntries : Nat → List (Nat × Nat × Nat) → List Byte
  | _, [] => []
  | off, (id, len, body) :: rest =>
    let next := if rest.isEmpty then 0 else off + 16 + len
    toBytes 16 (id + next * 2 ^ 16 + len * 2 ^ 32 + 2 ^ 48) ++ toBytes len body ++ capEntries (off + 16 + len) rest

/-- The capability list. -/
def State.capList (s : State) : List Byte :=
  let bodies := s.capBodies
  let total := 32 + (bodies.map fun b => 16 + b.2.1).foldl (· + ·) 0
  capEntries 0 ((0, 16, total) :: bodies)

def execCapr (w : FmtE) (s : State) : Host.Outcome State Fault Refusal :=
  .next (longWord (.capr w) s 1 [(w.s1.toNat, 1)] w.d.toNat 4 (fun c => occupancy c.act.length true) fun c _ xs =>
    let off := xs.headD 0
    if off % 16 ≠ 0 then { trap := some .misaligned }
    else { val := fromBytes ((c.s.capList.drop off).take 16) })

/-! ### STATR, STATW (R365, R377, R378) -/

/-- What a state number and a handle name. -/
inductive StateRef where
  | event (team cls : Nat)
  | stat (team : Nat)
  | halt (team : Nat)
  | trap (i : Nat)
  | vector (job i : Nat)
  | elapsed (job : Nat)
  | mode
  | counter (quad i : Nat)

/-- The state that a number names with a handle, `none` for zr; reserved numbers and handles that name nothing give
none. -/
def stateRef (c : Ctx) (n : Nat) (h : Option Nat) : Option StateRef :=
  let team : Option Nat := match h with
    | none => some c.tm.id
    | some v => (c.s.handleTeam v).map fun (t : Team) => t.id
  let job : Option Nat := match h with
    | none => (c.s.job? c.tm.job).map fun (j : Job) => j.id
    | some v => if v < 4096 then (c.s.job? v).map (fun (j : Job) => j.id) else none
  let quad : Option Nat := match h with
    | none => some c.tm.quad
    | some v => if v < 64 && c.s.hasQuad v then some v else none
  if n ≤ 4 then team.map fun t => .event t n
  else if n = 0x10 then (team.orElse fun _ => (h.bind c.s.savedTeam).map fun (t : Team) => t.id).map .stat
  else if n = 0x12 then team.map .halt
  else if 0x100 ≤ n && n ≤ 0x104 then (if h.isNone then some (.trap (n - 0x100)) else none)
  else if 0x200 ≤ n && n ≤ 0x203 then job.map fun j => .vector j (n - 0x200)
  else if n = 0x204 then job.map .elapsed
  else if n = 0x300 then (if h.isNone then some .mode else none)
  else if 0x310 ≤ n && n ≤ 0x317 then quad.map fun q => .counter q (n - 0x310)
  else none

/-- The handle operand of a thread. -/
def handleArg (c : Ctx) (w : FmtE) (rank : Nat) : Option Nat := if w.s1.toNat = 255 then none else some (c.val rank w.s1.toNat 1)

/-- The value of a state. Trap state that is not live reads zero. -/
def readState (c : Ctx) : StateRef → Nat
  | .event t k => (c.s.eventNow (c.s.team t) k).toNat
  | .stat t => (c.s.team t).stat
  | .halt t => (c.s.team t).halt.toNat + 2 ^ 8 * c.s.stoppedRoles t
  | .trap i =>
    match c.gang.trap with
    | none => 0
    | some t => match i with
      | 0 => t.tpc % 2 ^ 57
      | 1 => t.taddr
      | 2 => posMask t.members t.tmask
      | 3 => t.tinfo
      | _ => t.tres % 2 ^ 57
  | .vector j i => (c.s.job j).vectors.getD i 0 % 2 ^ 57
  | .elapsed j => (c.s.now - (c.s.job j).born) * 5 / (12 * clockUnits)
  | .mode => c.s.detailed.toNat
  | .counter q i => if c.s.detailed then getKey c.s.counters (8 * q + i) 0 % 2 ^ 64 else 0

def execStatr (w : FmtE) (s : State) : Host.Outcome State Fault Refusal :=
  .next (longWord (.statr w) s 5 [] w.d.toNat 2 (fun c => occupancy c.act.length true) fun c rank _ =>
    match stateRef c (w.imm.toNat % 2 ^ 16) (handleArg c w rank) with
    | none => { trap := some .illegalOperand }
    | some r => { val := readState c r })

/-- Write a state by the access codes of its fields. -/
def State.writeState (s : State) (r : StateRef) (v : Nat) : State :=
  match r with
  | .event t k => s.updTeam t fun t =>
      let old := (s.eventNow t k).toNat
      { t with events := t.events.set k (BitVec.ofNat 64 (setBits v 0 0 (if bit v 0 then 0 else old % 2))),
               winAt := t.winAt.set k (s.coreCount (4 * t.quad)) }
  | .halt t => s.writeHalt t (v % 256)
  | .vector j i => s.updJob j fun j => { j with vectors := j.vectors.set i (v % 2 ^ 57) }
  | .counter q i => if s.detailed && v == 0 then { s with counters := setKey s.counters (8 * q + i) 0 0 } else s
  | .stat _ | .trap _ | .elapsed _ | .mode => s

/-- A word that acts for each Active thread in rank order and owes each an acknowledgement of class 5; a thread that traps
is owed nothing. -/
def effectWord (i : Instr) (s : State) (occ : Ctx → Nat) (f : Ctx → Nat → State → Nat → ThreadOut) : State :=
  runWord i s fun c =>
    let (ticket, s0) := s.issue c.gid c.tm.id 5 (if c.act.isEmpty then [] else [c.lead])
    let out := runThreads (fun s rank => match f c ticket (s.owe ticket rank 1) rank with
      | .ok s1 => .ok s1
      | .trap _ cause a b => .trap s cause a b
      | .hold _ w => .hold s w) (occ c) s0 c.act []
    match out with
    | .done s o => .done (s.settleTicket ticket c.lead) o
    | .trap s com cause a b => .trap (s.settleTicket ticket c.lead) com cause a b
    | .hold s com w => .hold (s.settleTicket ticket c.lead) com w
    | .left s => .left s

def execStatw (w : FmtE) (s : State) : Host.Outcome State Fault Refusal :=
  .next (effectWord (.statw w) s (fun c => occupancy c.act.length true) fun c ticket s rank =>
    match stateRef c (w.imm.toNat % 2 ^ 16) (handleArg c w rank) with
    | none => .trap s .illegalOperand 0 0
    | some r => .ok ((s.writeState r (c.val rank w.s2.toNat 2)).addResult ticket c.tm.id rank .nothing))

/-! ### Side logs (R372, R375, R376) -/

/-- The entry of a log in a slot. -/
def State.sideEntry? (s : State) (log slot : Nat) : Option SideEntry := s.side.find? fun e => e.log == log && e.slot == slot

/-- A release waits for an entry to perform: a gang held, or stopped so, by a release or a fence, a request's release or
its write-backs, a pool release at its own step, an arrival at a team barrier, a word's wait, a thread's end, or a cluster's
(R302, R356, R357, R372). -/
def State.entryHeld (s : State) (e : SideEntry) : Bool :=
  let waits := fun (w : Wait) => match w with
    | .flights ids => ids.contains e.req.id
    | _ => false
  (s.gangs.any fun g => match g.status with
    | .held w | .stopped (some w) => waits w
    | _ => false) ||
  (s.reqs.any fun r => r.ord == 3 && (r.after.contains e.req.id ||
    (!r.op.local && (s.covered r.team r.rank r.cluster r.sc s.commandRuns).contains e.req.id))) ||
  (s.accesses.any fun a => a.ord == 3 && (s.covered a.team a.rank a.cluster a.sc s.commandRuns).contains e.req.id) ||
  (s.teams.any fun t => t.tbar.any fun b => b.any fun p => p.2.2.contains e.req.id) ||
  (s.engineWaits.any fun w => w.act.releases && w.ids.contains e.req.id) ||
  (s.threads.any fun t => t.ended && (s.covered t.team t.rank 0 1 s.commandRuns).contains e.req.id) ||
  (s.clusters.any fun c => c.id == e.req.cluster && e.req.back && c.leaving.isSome)

/-- The header of an entry. -/
def State.sideHeader (s : State) (e : SideEntry) : Nat :=
  let ao := match e.req.op with
    | .atomic ao .. => ao
    | _ => 0
  let va := if e.req.kind = 4 || e.req.kind = 5 then 0 else e.req.va / 128 * 128
  va % 2 ^ 57 + 2 ^ 77 + (s.entryHeld e).toNat * 2 ^ 78 + e.cause * 2 ^ 79 + e.req.kind * 2 ^ 87 + e.req.job % 2 ^ 12 * 2 ^ 91 +
    e.req.asid % 2 ^ 9 * 2 ^ 103 + e.req.group % 2 ^ 16 * 2 ^ 112 + e.sight % 2 ^ 56 * 2 ^ 128 + ao * 2 ^ 188 + e.att * 2 ^ 192 +
    e.bytes % 2 ^ 16 * 2 ^ 208 + e.seq * 2 ^ 224

def execSlogr (w : FmtE) (s : State) : Host.Outcome State Fault Refusal :=
  .next (longWord (.slogr w) s 5 [(w.s1.toNat, 1), (w.s2.toNat, 1)] w.d.toNat 8 (fun c => occupancy c.act.length true) fun c _ xs =>
    let log := xs.getD 0 0
    let idx := xs.getD 1 0
    if 66 < log || 511 < idx then { trap := some .illegalOperand }
    else { val := ((c.s.sideEntry? log idx).map c.s.sideHeader).getD 0 })

/-- A SLOGP word: 0 replays an entry, 1 drops it, 2 replays every entry of the log. Its counter falls when each replay has
been accepted or has failed (R376). -/
def slogpWord (i : Instr) (w : FmtE) (op : Nat) (s : State) : State :=
  effectWord i s (fun c => occupancy c.act.length false) fun c ticket s rank =>
    let log := c.val rank w.s1.toNat 1
    let idx := c.val rank w.s2.toNat 1
    if 66 < log || (op ≠ 2 && 511 < idx) then .trap s .illegalOperand 0 0
    else
      let es := s.side.filter fun e => e.log == log && (op == 2 || e.slot == idx)
      if op = 1 then
        .ok ({ s with side := s.side.filter fun e => !(e.log == log && e.slot == idx),
                      busy := s.busy.filter fun b => !es.any fun e => e.req.id == b.req,
                      reqs := s.reqs.filter fun r => !(r.replay && es.any fun e => e.req.id == r.id)
             }.addResult ticket c.tm.id rank .nothing)
      else
        let s1 := (s.markDue fun e => e.log == log && (op == 2 || e.slot == idx)).tryLog log
        .ok { s1 with engineWaits := s1.engineWaits ++
          [{ ticket, team := c.tm.id, ranks := [rank], ids := es.map (·.req.id), act := .replays }] }

def execSlogpReplay (w : FmtE) (s : State) : Host.Outcome State Fault Refusal := .next (slogpWord (.slogpReplay w) w 0 s)
def execSlogpDrop (w : FmtE) (s : State) : Host.Outcome State Fault Refusal := .next (slogpWord (.slogpDrop w) w 1 s)
def execSlogpAll (w : FmtE) (s : State) : Host.Outcome State Fault Refusal := .next (slogpWord (.slogpAll w) w 2 s)

/-! ### ERET (R366) -/

/-- One more cause for a gang's next clause start. -/
def State.addPending (s : State) (gid : Nat) (cause : Cause) : State :=
  match s.gang? gid with
  | none => s
  | some g =>
    match g.pending with
    | none => s.updGang gid fun g => { g with pending := some cause }
    | some _ => s.updThread g.team (g.members.headD 0) fun t => { t with pend := t.pend ++ [(cause, 0)] }

/-- A gang leaves the clause of its ERET for a word of the clause that the trap stopped, with a done-mask and what that
clause had done before (R90, R93, R366). The end of its own clause is a clause boundary (R382). -/
def State.enterWord (s : State) (gid pc word : Nat) (done : List Nat) (ppt : Option Nat) (beat : Bool) : State :=
  match s.gang? gid with
  | none => s
  | some g =>
    let (req, forced) := s.stopRequested g.team
    let stop := req && (g.endMask.isSome || forced)
    (s.updGang gid fun g =>
      { g with pc, word, done, ppt, beat, clause := [], flight := [], idleSince := s.dieClock ((s.team g.team).quad / 32),
               stopMask := g.endMask, park := stop && hdrSW g.header,
               status := if stop then .stopped none else if hdrSW g.header then .parked else .fetch }).haltMembers gid

/-- An ERET word: `to` says where the gang goes on from its trap state, as a header with a word and a done-mask. -/
def eretWord (i : Instr) (s : State) (keep : Bool) (dest : Ctx → TrapState → Nat × Nat × List Nat) : State :=
  runWord i s fun c =>
    match c.gang.trap with
    | none => .trap s [] .illegalOperand 0 0
    | some t =>
      if c.act != c.gang.members || t.members != c.gang.members then .trap s [] .illegalOperand 0 0
      else
        let (pc, word, done) := dest c t
        let s0 := s.spend c.tm.quad 6
        let s1 := s0.updGang c.gid fun g => { g with sys := t.lv, trap := none, pendWord := keep && word != 0 && t.pend }
        let s2 := if t.pend && !(keep && word != 0) then s1.addPending c.gid .numericThreshold else s1
        .left (if word = 0 then s2.endClause c.gid pc else s2.enterWord c.gid pc word done t.ppt t.beat)

def execEret (w : FmtE) (s : State) : Host.Outcome State Fault Refusal :=
  .next (eretWord (.eret w) s true fun _ t => if t.word = 0 then (t.tres, 0, []) else (t.tpc, t.word, t.done))
def execEretSkip (w : FmtE) (s : State) : Host.Outcome State Fault Refusal :=
  .next (eretWord (.eretSkip w) s false fun _ t =>
    if t.word = 0 || (t.tpc + 8 * (t.word + 1)) % 2 ^ 64 = t.tres then (t.tres, 0, []) else (t.tpc, t.word + 1, []))
def execEretPc (w : FmtE) (s : State) : Host.Outcome State Fault Refusal :=
  .next (eretWord (.eretPc w) s false fun c _ => (c.val c.lead w.s1.toNat 2, 0, []))

/-! ### The watchdog (R379 to R381) -/

/-- The watchdog register of a job as it reads, with HOLD. -/
def watchdogOf (j : Job) : Nat := setBits j.wdog.toNat 26 26 j.heldSince.isSome.toNat

/-- The register after a write. -/
def watchdogWrite (old v : Nat) : Nat :=
  let a := setBits (setBits old 39 32 (bits v 39 32)) 24 24 (bits v 24 24)
  let b := setBits a 20 16 (bits v 20 16)
  if bit v 25 then setBits b 25 25 0 else b

def execWdog (w : FmtE) (s : State) : Host.Outcome State Fault Refusal :=
  .next (gangWord (.wdog w) s (fun c => occupancy c.act.length true) fun c =>
    let id := c.val c.lead w.s1.toNat 1 % 2 ^ 12
    match s.job? id with
    | none => .trap s [] .illegalOperand 0 0
    | some j =>
      let (ticket, s1) := s.issue c.gid c.tm.id 5 c.act
      let s2 := if w.s2.toNat = 255 then s1
        else s1.updJob id fun j => { j with wdog := BitVec.ofNat 64 (watchdogWrite j.wdog.toNat (c.val c.lead w.s2.toNat 2)) }
      .done (s2.answerAll ticket c.tm.id c.act w.d.toNat 2 (watchdogOf j)) (occupancy c.act.length true))

/-- The watchdog window of a grid, none where it is disabled. -/
def State.watchdogWindow (s : State) (g : Grid) : Option Nat :=
  let win := bits (s.job g.job).wdog.toNat 20 16
  if g.pers && g.wdw != 0 then some (micros (2 ^ g.wdw))
  else if win = 0 then none
  else some (micros (2 ^ (if 4 ≤ win && win ≤ 24 then win else 24)))

/-- A grid's watchdog may fire: its window has passed since its last progress event, it has not stopped the grid
already, and no debug halt holds it. -/
def State.watchdogDue (s : State) (g : Grid) : Bool :=
  g.status.isNone && g.fired != 1 && (s.job? g.job).isSome && (s.job g.job).heldSince.isNone &&
  match s.watchdogWindow g with
  | none => false
  | some n => decide (g.progress + n ≤ s.now)

/-- WATCHDOG_FIRE: FIRED is set and Shegus tells the host. The grid's clusters are stopped by force, or its gangs take
the watchdog trap at their next clause boundary. -/
def execWatchdogFire (grid : Nat) (s : State) : Host.Outcome State Fault Refusal :=
  .next <| match s.grids.find? fun g => g.id == grid with
  | none => s
  | some g =>
    if !s.watchdogDue g then s
    else
      let mine := s.gangs.filter fun x => (s.team x.team).grid == grid
      let stop := !bit (s.job g.job).wdog.toNat 24 || (g.fired == 2 && mine.any (·.sys))
      let s1 := ((s.updJob g.job fun j => { j with wdog := BitVec.ofNat 64 (setBits j.wdog.toNat 25 25 1) }).hostInterrupt 3 g.job 0).updGrid
        grid fun g => { g with progress := s.now, fired := if stop then 1 else 2 }
      if stop then
        (s1.clusters.filter fun c => c.grid == grid && !c.retired && !c.aborted).foldl (fun (s : State) c => s.requestStop c.id true) s1
      else mine.foldl (fun (s : State) x => s.addPending x.id .watchdog) s1

end Sys2Proof.Machine
end

