-- ==== Sys2Proof/Machine/Shegus.lean ====
section
/-! DEFINITION. Shegus (15_host.md R398 to R405): the command queues with their doorbells, completions and notices, and
the fourteen commands. Where Shegus has a choice of its own (a job's number, an address), the row carries it, and a
choice that breaks the rules has no effect. -/

namespace Sys2Proof.Machine

open Sys2Proof

/-! ### Shegus's own accesses to physical memory (R392, R393, R396, R401) -/

/-- Bytes from a physical address lie in HBM of the product or in host memory. -/
def State.physOk (s : State) (pa n : Nat) : Bool :=
  (decide (pa + n ≤ 2 ^ 39) && s.hasDie (pa / 2 ^ 38) && s.hasDie ((pa + n - 1) / 2 ^ 38)) ||
  (decide (0x8000000000000 ≤ pa) && decide (pa + n ≤ 0x10000000000000))

/-- Entries of a page table of so many bytes that are not zero. -/
def State.tableEntries (s : State) (base size : Nat) : List Nat :=
  ((s.mem.filter fun c => decide (base ≤ c.1) && decide (c.1 < base + size)).map fun c => (c.1 - base) / 8).eraseDups

/-- Some leaf entry of the page's address space gives the page at a physical address the K attribute (R216, R221). -/
def State.pageKept (s : State) (pa : Nat) : Bool :=
  let owner := s.owners.find? fun p => decide (p.1 ≤ pa / 2 ^ 16) && decide (pa / 2 ^ 16 < p.1 + p.2.1)
  let roots := s.roots.filter fun r => match owner with
    | some p => p.2.2 == r.1
    | none => true
  let entry := fun (base i : Nat) => readNat s.mem (base + 8 * i) 8
  let next := fun (e : Nat) => bits e 51 16 * 2 ^ 16
  decide (pa < 2 ^ 39) && roots.any fun r => (s.tableEntries r.2 (2 ^ 18)).any fun i =>
    let e0 := entry r.2 i
    bit e0 0 && !bit e0 1 && (s.tableEntries (next e0) (2 ^ 16)).any fun j =>
      let e1 := entry (next e0) j
      bit e1 0 && (if bit e1 1 then bit e1 7 && next e1 / 2 ^ 29 == pa / 2 ^ 29
        else (s.tableEntries (next e1) (2 ^ 16)).any fun k =>
          let e2 := entry (next e1) k
          bit e2 0 && bit e2 1 && bit e2 7 && next e2 / 2 ^ 16 == pa / 2 ^ 16)

/-- Host halves that Shegus lacks for an access: those that it writes, or that it reads, both halves of an absent line
(R393). -/
def State.lacksHalves (s : State) (pa n : Nat) (write : Bool) : List (Nat × Bool) :=
  if !isHost pa || n = 0 then []
  else (((List.range ((pa + n - 1) / 128 - pa / 128 + 1)).map fun i => max pa ((pa / 128 + i) * 128)).flatMap fun a =>
    s.halfNeeds a (min (pa + n) ((a / 128 + 1) * 128) - a) write).eraseDups

/-- A line of the bytes is busy: a request to it is in progress (R204). -/
def State.lineBusy (s : State) (pa n : Nat) : Bool :=
  s.busy.any fun b => decide (pa / 128 ≤ b.line) && decide (128 * b.line < pa + n)

/-- Ask the host for halves, once each. -/
def State.askHalves (s : State) (hs : List (Nat × Bool)) : State :=
  let new := hs.filter fun h => !s.hostAsks.contains h
  { s with hostAsks := s.hostAsks ++ new, outputs := s.outputs ++ new.map fun h => if h.2 then Output.rdOwn h.1 else Output.rdShared h.1 }

/-- HBM lines of a write of Shegus that are busy or that some agent holds (R202). -/
def State.heldLines (s : State) (pa n : Nat) : List Nat :=
  if isHost pa || n = 0 then []
  else ((List.range ((pa + n - 1) / 128 - pa / 128 + 1)).map fun i => pa / 128 + i).filter fun l =>
    (s.busy.any fun b => b.line == l) || decide ((s.invalidations l).1 ≠ 0)

/-- Recall HBM lines before Shegus writes them, once each: the write of no byte at each line's home (R202). -/
def State.recallLines (s : State) (ls : List Nat) : State :=
  let recalled := fun (l : Nat) => ({ pa := 128 * l, group := 0xFFFE, src := 66 + l / 2 ^ 31, op := .write [] } : HomeReq)
  s.postReqs ((ls.filter fun l => s.reqs.all fun r => r.op != .write [] || r.pa != 128 * l).map recalled)

/-- Nothing keeps Shegus from writing bytes now. -/
def State.mayWrite (s : State) (pa n : Nat) : Bool := (s.lacksHalves pa n true).isEmpty && (s.heldLines pa n).isEmpty
/-- Ask for what keeps Shegus from writing bytes. -/
def State.askWrite (s : State) (pa n : Nat) : State := (s.askHalves (s.lacksHalves pa n true)).recallLines (s.heldLines pa n)

/-- Write bytes at a physical address whose halves Shegus owns, or whose HBM lines nobody else holds. In a kept page each
cell takes a kept write as a host write does; one that its home refuses goes on as a request and ends in the host stop's
log (R228; DEDUCED, notes/assumptions/20.md). -/
def State.physWrite (s : State) (pa : Nat) (bs : List Byte) : State :=
  if isHost pa then
    ((List.range ((pa + bs.length - 1) / 64 - pa / 64 + 1)).foldl (fun (s : State) i => s.setHalf (pa / 64 + i) (some .modified))
      { s with mem := writeBytes s.mem pa bs })
  else if bs.isEmpty || !s.pageKept pa then { s with mem := writeBytes s.mem pa bs }
  else
    (List.range ((pa + bs.length - 1) / 8 - pa / 8 + 1)).foldl (fun (s : State) i =>
      let cell := (pa / 8 + i) * 8
      let v := (List.range 8).map fun j =>
        if pa ≤ cell + j && decide (cell + j < pa + bs.length) then bs.getD (cell + j - pa) 0 else readByte s.mem (cell + j)
      match s.keptWrite (s.ownerOf cell) cell (BitVec.ofNat 64 (fromBytes v)) 0 0xFFFE (homeSlice cell 0) with
      | .ok s1 => s1
      | .error _ => s.postReqs (writeReqs (cell / 2 ^ 38) (s.ownerOf cell) cell 0x80 v)) s

/-! ### Completions and notices (R399, R402, R403) -/

def State.queue (s : State) (q : Nat) : CmdQueue := s.queues.getD q {}
def State.updQueue (s : State) (q : Nat) (f : CmdQueue → CmdQueue) : State := { s with queues := s.queues.set q (f (s.queue q)) }

def CmdQueue.cap (c : CmdQueue) : Nat := 2 ^ c.lg
/-- The queue is enabled, with a ring size that R398 admits. -/
def CmdQueue.on (c : CmdQueue) : Bool := c.enable && decide (4 ≤ c.lg) && decide (c.lg ≤ 12)
/-- Where the next completion entry goes. -/
def CmdQueue.slot (c : CmdQueue) : Nat := c.cbase + 16 * (c.cpos % c.cap)
/-- The completion ring has room. -/
def CmdQueue.room (c : CmdQueue) : Bool := c.on && decide ((c.cpos + 2 ^ 64 - c.chead) % 2 ^ 64 < c.cap)

/-- A completion entry (R399), without its phase. -/
def completionOf (tag status res : Nat) : Nat := res % 2 ^ 64 * 2 ^ 64 + tag % 2 ^ 16 * 2 ^ 32 + status % 2 ^ 8 * 2 ^ 24

/-- Write an entry into a completion ring, with its phase, and step to the next position. -/
def State.writeEntry (s : State) (q v : Nat) : State :=
  let c := s.queue q
  (s.physWrite c.slot (toBytes 16 (v + c.phase.toNat * 2 ^ 48))).updQueue q fun c =>
    { c with cpos := (c.cpos + 1) % 2 ^ 64, phase := if (c.cpos + 1) % c.cap = 0 then !c.phase else c.phase }

/-- An entry can be written to a queue now: the ring has room, and in host memory the half is owned, in HBM nobody else
holds the line. -/
def State.canWrite (s : State) (q : Nat) : Bool :=
  let c := s.queue q
  c.room && s.mayWrite c.slot 16
/-- Ask for the half or the line that the next entry of a ring with room lies in. -/
def State.askSlot (s : State) (q : Nat) : State :=
  let c := s.queue q
  if c.room then s.askWrite c.slot 16 else s

/-- Write a notice; a numeric threshold interrupts the host (R154, R402). -/
def State.writeNotice (s : State) (res : Nat) : State :=
  let s1 := s.writeEntry 0 (completionOf 0xFFFF 0 res)
  if res % 256 = 4 then { s1 with outputs := s1.outputs ++ [.interrupt 0] } else s1

/-- A notice of Shegus: written, kept in the buffer, or counted (R403). -/
def State.notice (s : State) (res : Nat) : State :=
  if s.notices.isEmpty && s.noticesLost = 0 && s.canWrite 0 then s.writeNotice res
  else if s.notices.length < 64 then { s with notices := s.notices ++ [(res % 256, res)] }
  else { s with noticesLost := min (2 ^ 56 - 1) (s.noticesLost + 1) }

/-- Write what waits for room in queue 0's ring: the notice of kind 7 first, then the buffered ones. -/
def State.flushNotices (s : State) : Nat → State
  | 0 => s
  | n + 1 =>
    if !s.canWrite 0 then (if s.notices.isEmpty && s.noticesLost = 0 then s else s.askSlot 0)
    else if s.noticesLost ≠ 0 then (({ s with noticesLost := 0 } : State).writeNotice (7 + s.noticesLost * 2 ^ 8)).flushNotices n
    else match s.notices with
      | [] => s
      | (_, res) :: rest => (({ s with notices := rest } : State).writeNotice res).flushNotices n

/-- HEAD passes the oldest command of a queue. -/
def State.passHead (s : State) (q : Nat) : State :=
  s.updQueue q fun c => { c with head := (c.head + 1) % 2 ^ 64, entries := c.entries.drop 1, stalled := none }

/-- Try to write a queue's completion, after which HEAD passes its command and the host is interrupted if it asked. -/
def State.flushQueue (s : State) (q : Nat) : State :=
  let s0 := if q = 0 then s.flushNotices 66 else s
  match (s0.queue q).stalled with
  | none => s0
  | some (v, int) =>
    if !s0.canWrite q || (q = 0 && !(s0.notices.isEmpty && s0.noticesLost = 0)) then s0.askSlot q
    else
      let s1 := (s0.writeEntry q v).passHead q
      if int then { s1 with outputs := s1.outputs ++ [.interrupt q] } else s1

/-- Command entry fields (R399). -/
def cmdOp (e : BitVec 512) : Nat := bits e.toNat 7 0
def cmdTag (e : BitVec 512) : Nat := bits e.toNat 31 16
def cmdAddr (e : BitVec 512) : Nat := bits e.toNat 127 64
def cmdArg (e : BitVec 512) (i : Nat) : Nat := bits e.toNat (191 + 64 * i) (128 + 64 * i)
/-- Reserved fields of an entry are zero and its tag is no notice's. -/
def cmdOk (e : BitVec 512) : Bool := bits e.toNat 63 33 == 0 && bits e.toNat 15 8 == 0 && cmdTag e != 0xFFFF

/-- Complete the oldest command of a queue. -/
def State.complete (s : State) (q : Nat) (e : BitVec 512) (status res : Nat) : State :=
  (s.updQueue q fun c => { c with stalled := some (completionOf (cmdTag e) status res, bit e.toNat 32) }).flushQueue q

/-- The command that a queue may start now (R400, R403). -/
def State.headCommand (s : State) (q : Nat) : Option (BitVec 512) :=
  let c := s.queue q
  if c.on && !c.error && c.stalled.isNone then c.entries.head? else none

/-- Complete commands whose OP is unknown, while they head their queue. -/
def State.skipUnknown (s : State) (q : Nat) : Nat → State
  | 0 => s
  | n + 1 =>
    match s.headCommand q with
    | none => s
    | some e => if 1 ≤ cmdOp e && decide (cmdOp e ≤ 14) then s else (s.complete q e 1 0).skipUnknown q n

/-- Write what waits in a queue and pass commands with an unknown OP. -/
def State.kickQueue (s : State) (q : Nat) : State :=
  let s1 := s.flushQueue q
  s1.skipUnknown q (s1.queue q).entries.length

/-- Read the entries that a doorbell covers and that have not been read, once each (R400). -/
def State.readEntries (s : State) (q : Nat) : State :=
  let c := s.queue q
  if !c.on || c.error then s
  else
    let have_ := c.entries.length
    let want := (c.tail + 2 ^ 64 - c.head) % 2 ^ 64
    s.updQueue q fun c =>
      { c with entries := c.entries ++ (List.range (want - have_)).map fun i =>
          BitVec.ofNat 512 (readNat s.mem (c.qbase + 64 * ((c.head + have_ + i) % c.cap)) 64) }

/-! ### The queue registers (R398 to R400, R403) -/

/-- Shegus runs: some die is out of reset (R404, R408). -/
def State.shegusUp (s : State) : Bool := s.dieUp 0 || s.dieUp 1

/-- TAIL_DOORBELL: the entries up to the new position are read; a position more than the capacity ahead of HEAD sets the
error bit and is not taken (DEDUCED, notes/assumptions/30.md). -/
def execTailDoorbell (q : Nat) (v : DWord) (s : State) : Host.Outcome State Fault Refusal :=
  let c := s.queue q
  .next <|
    if 16 ≤ q || !s.hostPortUp then s
    else if c.cap < (v.toNat + 2 ^ 64 - c.head) % 2 ^ 64 then s.updQueue q fun c => { c with error := true }
    else ((s.updQueue q fun c => { c with tail := v.toNat }).readEntries q).kickQueue q

/-- QCFG_WRITE: the size, the enable with a new first pass of the completion ring, and the error bit, cleared by 1. -/
def execQcfgWrite (q : Nat) (v : DWord) (s : State) : Host.Outcome State Fault Refusal :=
  let x := v.toNat
  .next <|
    if 16 ≤ q || !s.hostPortUp then s
    else
      let s1 := s.updQueue q fun c =>
        { c with lg := x % 16, enable := bit x 4, error := c.error && !bit x 5, phase := if bit x 4 && !c.enable then true else c.phase }
      (s1.readEntries q).kickQueue q

/-- CHEAD_WRITE: the host has consumed completions, and what waited for room is written. -/
def execCheadWrite (q : Nat) (v : DWord) (s : State) : Host.Outcome State Fault Refusal :=
  .next (if 16 ≤ q || !s.hostPortUp then s else (s.updQueue q fun c => { c with chead := v.toNat }).kickQueue q)

/-- REGISTER_WRITE: QBASE (0) and CBASE (1), 4 KiB-aligned; HEAD is read only. -/
def execRegisterWrite (q reg : Nat) (v : DWord) (s : State) : Host.Outcome State Fault Refusal :=
  let x := v.toNat / 4096 * 4096
  .next <|
    if 16 ≤ q || !s.hostPortUp then s
    else match reg with
      | 0 => s.updQueue q fun c => { c with qbase := x }
      | 1 => s.updQueue q fun c => { c with cbase := x }
      | _ => s

/-- What a read of a queue register answers (R5, R398): QBASE, QCFG, CBASE, TAIL, HEAD, CHEAD in the order of their
offsets. TAIL is write only, and reserved bits read as zero. -/
def CmdQueue.register (c : CmdQueue) (reg : Nat) : DWord :=
  BitVec.ofNat 64 (match reg with
    | 0 => c.qbase
    | 1 => c.lg + c.enable.toNat * 2 ^ 4 + c.error.toNat * 2 ^ 5
    | 2 => c.cbase
    | 4 => c.head
    | 5 => c.chead
    | _ => 0)

/-- The queue and the register that lie at an offset of function 0's memory space: queue n's six registers from 0x1000 +
0x40 × n on (R398). -/
def registerAt (offset : Nat) : Option (Nat × Nat) :=
  let n := (offset - 0x1000) / 0x40
  let reg := offset % 0x40 / 8
  if offset < 0x1000 || 16 ≤ n || offset % 8 ≠ 0 || 6 ≤ reg then none else some (n, reg)

/-- The host reads a queue register. -/
def State.readRegister (s : State) (q reg : Nat) : State :=
  if q < 16 && reg < 6 && s.hostPortUp then { s with outputs := s.outputs ++ [.register q reg ((s.queue q).register reg)] } else s

/-- The host reads or writes at an offset of function 0's memory space. A write takes effect by the access code of its
register. -/
def registerAccess (offset : Nat) (value : Option DWord) (s : State) : Host.Outcome State Fault Refusal :=
  match registerAt offset, value with
  | some (q, reg), none => .next (s.readRegister q reg)
  | some (q, 0), some v => execRegisterWrite q 0 v s
  | some (q, 1), some v => execQcfgWrite q v s
  | some (q, 2), some v => execRegisterWrite q 1 v s
  | some (q, 3), some v => execTailDoorbell q v s
  | some (q, 5), some v => execCheadWrite q v s
  | _, _ => .next s

/-- Shegus sets the wave period of a job (R324). -/
def State.setPeriod (s : State) (job us : Nat) : State :=
  if us = 0 || !s.shegusUp then s else s.updJob job fun j => { j with period := us }

/-! ### Commands -/

/-- What a command does: complete with a status and a result, or wait. -/
inductive CmdOut where
  | done (status res : Nat) (s : State)
  | wait (s : State)

/-- Run the oldest command of a queue if it is the given one and Shegus runs: a bad entry completes with STATUS 2 (R401). -/
def shegusCommand (q op : Nat) (s : State) (f : BitVec 512 → State → CmdOut) : State :=
  match s.headCommand q with
  | none => s
  | some e =>
    if cmdOp e ≠ op || !s.shegusUp then s
    else if !cmdOk e then (s.complete q e 2 0).kickQueue q
    else match f e s with
      | .done status res s1 => (s1.complete q e status res).kickQueue q
      | .wait s1 => s1

/-- Go on when Shegus can read bytes at a physical address: STATUS 2 where it never can. -/
def withRead (pa n : Nat) (s : State) (k : List Byte → CmdOut) : CmdOut :=
  if !s.physOk pa n then .done 2 0 s
  else if s.lineBusy pa n then .wait s
  else match s.lacksHalves pa n false with
    | [] => k (readBytes s.mem pa n)
    | hs => .wait (s.askHalves hs)

/-- Write bytes at a physical address and complete with a result. -/
def withWrite (pa : Nat) (bs : List Byte) (res : Nat) (s : State) : CmdOut :=
  if !s.physOk pa bs.length then .done 2 0 s
  else if s.mayWrite pa bs.length then .done 0 res (s.physWrite pa bs)
  else .wait (s.askWrite pa bs.length)

/-- IDENTIFY. -/
def execIdentify (q : Nat) (s : State) : Host.Outcome State Fault Refusal :=
  .next (shegusCommand q 1 s fun e s => withWrite (cmdAddr e) s.capList s.capList.length s)

/-- An identifier that Shegus has not given out yet takes a new key from the device's random source, a free value (R397). -/
def State.drawKey (s : State) (asid : Nat) : State :=
  if s.keys.any fun k => k.1 == asid then s
  else
    let (v, s1) := s.free
    { s1 with keys := s1.keys ++ [(asid, v)] }

/-- A job is outside the rights of a queue's caller. -/
def State.denies (s : State) (q job : Nat) : Bool := s.denied.contains (q, job)

/-- JOB.OPEN under the number `job`: the spill area is sized by the first job of the address space (R221), the device set
comes from the bitmap (R317). -/
def execJobOpen (q job : Nat) (s : State) : Host.Outcome State Fault Refusal :=
  .next (shegusCommand q 2 s fun e s =>
    let asid := cmdArg e 0
    if 512 ≤ asid then .done 2 0 s
    else withRead (cmdArg e 1) 128 s fun bs =>
      let free := fun j => (s.job? j).isNone
      let sized := s.spills.any fun p => p.1 == asid
      if !((List.range 4096).any free) then .done 3 0 s
      else if !sized && decide (s.spillMax < cmdArg e 2) then .done 3 0 s
      else if 4096 ≤ job || !free job then .wait s
      else
        let devices := (List.range 1024).filter fun d => (bs.getD (d / 8) 0).toNat.testBit (d % 8) || d == s.pod
        .done 0 job { s.drawKey asid with
          jobs := s.jobs ++ [{ id := job, asid, born := s.now, devices, root := if s.dieUp 0 then 0 else 1, waveAt := s.now,
                               stands := some s.now }],
          spills := if sized then s.spills else s.spills ++ [(asid, cmdArg e 2)] })

/-- JOB.CLOSE frees the job's counter sets; a job with a grid that has not ended is a bad argument
(DEDUCED, notes/assumptions/31.md). -/
def execJobClose (q : Nat) (s : State) : Host.Outcome State Fault Refusal :=
  .next (shegusCommand q 3 s fun e s =>
    let id := cmdArg e 0
    if (s.job? id).isNone then .done 2 0 s
    else if s.denies q id then .done 4 0 s
    else if s.grids.any fun g => g.job == id && g.status.isNone then .done 2 0 s
    else .done 0 0 { s.updJob id (fun j => { j with closed := true }) with
      code := s.code.filter fun c => c.2.1 != (s.job id).asid,
      sets := s.sets.filter fun c => c.job != id,
      lateAd := s.lateAd.filter fun x => x.2.1 != id,
      latches := s.latches.filter fun l => l.job != id })

/-- LAUNCH by the host: the descriptor's job is [219:208] (R295); it completes at acceptance (R400). -/
def execShegusLaunch (q : Nat) (s : State) : Host.Outcome State Fault Refusal :=
  .next (shegusCommand q 4 s fun e s =>
    if cmdAddr e % 128 ≠ 0 then .done 2 0 s
    else withRead (cmdAddr e) 128 s fun bs =>
      let v := fromBytes bs
      let id := bits v 219 208
      if (s.job? id).isNone then .done 2 0 s
      else if s.denies q id then .done 4 0 s
      else if !s.canCount (cpPort 0) id then .wait s
      else
        let (h, s1) := s.acceptLaunch { job := id, die := 0 } (some v)
        .done 0 h s1)

/-! ### ALLOC, FREE and WINDOW (R216, R221, R368, R401) -/

/-- Where the Shegus area begins in a die's HBM (DESIGN CHOICE, notes/assumptions/6.md). -/
def shegusBase : Nat := 0x3F00000000

/-- A range of HBM pages below the Shegus areas that belongs to nobody. -/
def State.freeRange (s : State) (page n : Nat) : Bool :=
  let lo := page * 2 ^ 16
  let hi := lo + n * 2 ^ 16
  decide (hi ≤ 2 ^ 39) && s.hasDie (lo / 2 ^ 38) && s.hasDie ((hi - 1) / 2 ^ 38) &&
  decide (lo % 2 ^ 38 + n * 2 ^ 16 ≤ shegusBase) &&
  s.owners.all fun o => decide (o.1 + o.2.1 ≤ page) || decide (page + n ≤ o.1)

/-- The range takes a new owner, under whose key it stands: it reads as memory that nothing has written. -/
def State.giveRange (s : State) (page n asid : Nat) : State :=
  { s.drawKey asid with
           owners := s.owners ++ [(page, n, asid)],
           lineKeys := s.lineKeys.filter fun k => decide (128 * k.1 < page * 2 ^ 16) || decide ((page + n) * 2 ^ 16 ≤ 128 * k.1),
           mem := s.mem.filter fun c => decide (c.1 < page * 2 ^ 16) || decide ((page + n) * 2 ^ 16 ≤ c.1),
           kept := s.kept.filter fun k => decide (8 * k.cell < page * 2 ^ 16) || decide ((page + n) * 2 ^ 16 ≤ 8 * k.cell),
           l2 := s.l2.filter fun l => decide (128 * l.line < page * 2 ^ 16) || decide ((page + n) * 2 ^ 16 ≤ 128 * l.line),
           hbmStamps := s.hbmStamps.filter fun h => decide (128 * h.1 < page * 2 ^ 16) || decide ((page + n) * 2 ^ 16 ≤ 128 * h.1),
           wakes := s.wakes.filter fun w => decide (8 * w.2 < page * 2 ^ 16) || decide ((page + n) * 2 ^ 16 ≤ 8 * w.2) }

/-- The versions of a range that nobody owns any longer leave the Hayloft and the spill area, which wakes the side logs
(R221, R228). -/
def State.leaveRange (s : State) (page n : Nat) : State :=
  let out := fun (k : KeptCell) => decide (page * 2 ^ 16 ≤ 8 * k.cell) && decide (8 * k.cell < (page + n) * 2 ^ 16)
  let s1 : State := { s with kept := s.kept.filter fun k => !out k }
  if s.kept.any out then s1.wakeFreed else s1

/-- The next page table of so many bytes, aligned to its size; none where the area is full. -/
def State.newTable (s : State) (size : Nat) : Option (Nat × State) :=
  let at_ := roundUp s.tableNext size
  if at_ + size ≤ 2 ^ 38 then some (at_, { s with tableNext := at_ + size }) else none

/-- The table that an entry points to, made where the entry is not valid. -/
def State.childTable (s : State) (entry : Nat) : Option (Nat × State) :=
  let e := readNat s.mem entry 8
  if bit e 0 then (if bit e 1 then none else some (bits e 51 16 * 2 ^ 16, s))
  else (s.newTable (2 ^ 16)).map fun p => (p.1, { p.2 with mem := writeNat p.2.mem entry 8 (p.1 + 1) })

/-- Set the leaf entry of a page (R368), making tables on the way. -/
def State.mapPage (s : State) (asid va leaf : Nat) (large : Bool) : Option State :=
  let root : Option (Nat × State) := match s.roots.find? fun r => r.1 == asid with
    | some r => some (r.2, s)
    | none => (s.newTable (2 ^ 18)).map fun p => (p.1, { p.2 with roots := p.2.roots ++ [(asid, p.1)] })
  match root with
  | none => none
  | some (r, s1) =>
    match s1.childTable (r + 8 * bits va 56 42) with
    | none => none
    | some (m, s2) =>
      let e1 := m + 8 * bits va 41 29
      if large then some { s2 with mem := writeNat s2.mem e1 8 leaf }
      else match s2.childTable e1 with
        | none => none
        | some (l, s3) => some { s3 with mem := writeNat s3.mem (l + 8 * bits va 28 16) 8 leaf }

/-- The leaf entry that ALLOC makes: read, write, execute and atomics allowed, K unless plain (DESIGN CHOICE, notes/assumptions/32.md). -/
def allocLeaf (pa : Nat) (plain : Bool) : Nat :=
  pa + (pa / 2 ^ 38 % 2) * 2 ^ 10 + (if plain then 0 else 2 ^ 7) + 0x3F

/-- Map consecutive pages. -/
def State.mapRange (s : State) (asid va pa step : Nat) (plain large : Bool) (n : Nat) : Option State :=
  (List.range n).foldl (fun (o : Option State) i =>
    o.bind fun s => s.mapPage asid (va + i * step) (allocLeaf (pa + i * step) plain) large) (some s)

/-- ALLOC: Shegus takes physical pages from `pa` on for virtual addresses from `va` on; with both 0 it finds no room. -/
def execAlloc (q va pa : Nat) (s : State) : Host.Outcome State Fault Refusal :=
  .next (shegusCommand q 5 s fun e s =>
    let asid := cmdArg e 0
    let bytes := cmdArg e 1
    let opt := cmdArg e 2
    let large := bit opt 2
    let step := if large then 2 ^ 29 else 2 ^ 16
    let n := (bytes + step - 1) / step
    let pages := n * (step / 2 ^ 16)
    if 512 ≤ asid || bytes = 0 || 8 ≤ opt || !s.hasDie (bits opt 1 1) then .done 2 0 s
    else if va = 0 && pa = 0 then .done 3 0 s
    else if va % step ≠ 0 || pa % step ≠ 0 || va + n * step > 2 ^ 57 || pa / 2 ^ 38 ≠ bits opt 1 1 || !s.freeRange (pa / 2 ^ 16) pages ||
        s.allocs.any (fun a => a.asid == asid && decide (va < a.va + a.bytes) && decide (a.va < va + n * step)) then .wait s
    else match s.mapRange asid va pa step (bit opt 0) large n with
      | none => .done 3 0 s
      | some s1 =>
        .done 0 va (({ s1 with allocs := s1.allocs ++ [{ asid, va, pa, bytes := n * step, large }] } : State).giveRange
          (pa / 2 ^ 16) pages asid |>.tlbiPerform 1 asid 0))

/-- FREE of what ALLOC gave at an address: its leaf entries and its range go. -/
def execFree (q : Nat) (s : State) : Host.Outcome State Fault Refusal :=
  .next (shegusCommand q 6 s fun e s =>
    let asid := cmdArg e 0
    match s.allocs.find? fun a => a.asid == asid && a.va == cmdAddr e with
    | none => .done 2 0 s
    | some a =>
      let step := if a.large then 2 ^ 29 else 2 ^ 16
      let s1 := (List.range (a.bytes / step)).foldl (fun (s : State) i => (s.mapPage asid (a.va + i * step) 0 a.large).getD s) s
      .done 0 0 (({ s1 with
        code := s1.code.filter fun c => c.2.1 != asid,
        allocs := s1.allocs.filter fun x => x != a,
        owners := s1.owners.filter fun o => o.1 != a.pa / 2 ^ 16 } : State).leaveRange (a.pa / 2 ^ 16) (a.bytes / 2 ^ 16) |>.tlbiPerform 1 asid 0))

/-- WINDOW: Shegus takes the range from `pa` on; a `pa` inside a page says that it finds none. -/
def execWindow (q pa : Nat) (s : State) : Host.Outcome State Fault Refusal :=
  .next (shegusCommand q 7 s fun e s =>
    let asid := cmdArg e 0
    let pages := (cmdArg e 1 + 2 ^ 16 - 1) / 2 ^ 16
    if 512 ≤ asid || pages = 0 then .done 2 0 s
    else if s.hdmMax < cmdArg e 1 || pa % 2 ^ 16 ≠ 0 then .done 3 0 s
    else
      let s0 : State := match s.hdm with
        | none => s
        | some (_, b, n) => ({ s with owners := s.owners.filter fun o => o.1 != b / 2 ^ 16 } : State).leaveRange (b / 2 ^ 16) (n / 2 ^ 16)
      if !s0.freeRange (pa / 2 ^ 16) pages then .wait s
      else .done 0 pa { s0.giveRange (pa / 2 ^ 16) pages asid with hdm := some (asid, pa, pages * 2 ^ 16) })

/-- COLLGRP (R338): the members are pod device numbers of 16 bits in rank order (DESIGN CHOICE, notes/assumptions/33.md). -/
def execCollgrp (q : Nat) (s : State) : Host.Outcome State Fault Refusal :=
  .next (shegusCommand q 8 s fun e s =>
    let g := cmdArg e 0
    let n := cmdArg e 1
    let c := cmdArg e 2
    if 64 ≤ g || n < 2 || 65536 < n || c = 0 || 128 < c || n % c ≠ 0 then .done 2 0 s
    else withRead (cmdAddr e) (2 * (n / c)) s fun bs =>
      let members := (List.range (n / c)).map fun i => fromBytes ((bs.drop (2 * i)).take 2)
      if !members.contains s.pod || members.any (fun d => decide (1024 ≤ d)) || s.colls.any (fun k => coGrp k.desc.toNat == g) then
        .done 2 0 s
      else .done 0 0 { s with collGroups := (s.collGroups.filter fun x => x.group != g) ++ [{ group := g, n, c, members }] })

/-- JOB.RESUME: the clusters that the job's watchdog stopped go on (R380). -/
def execJobResume (q : Nat) (s : State) : Host.Outcome State Fault Refusal :=
  .next (shegusCommand q 9 s fun e s =>
    let id := cmdArg e 0
    if (s.job? id).isNone then .done 2 0 s
    else if s.denies q id then .done 4 0 s
    else
      let gs := (s.grids.filter fun g => g.job == id && g.fired == 1 && g.status.isNone).map (·.id)
      let s1 := gs.foldl (fun (s : State) g => s.updGrid g fun g => { g with fired := 0, progress := s.now }) s
      .done 0 0 ((s1.clusters.filter fun c => gs.contains c.grid && !c.retired && !c.aborted).foldl
        (fun (s : State) c => (s.answerPreempt c.id (fun _ => true) 2).resumeCluster c.id false) s1))

/-- JOB.ABORT: every grid of the job ends with STATUS 5, with CAUSE 0x3C where its watchdog stopped it (R313, R401). -/
def execJobAbort (q : Nat) (s : State) : Host.Outcome State Fault Refusal :=
  .next (shegusCommand q 10 s fun e s =>
    let id := cmdArg e 0
    if (s.job? id).isNone then .done 2 0 s
    else if s.denies q id then .done 4 0 s
    else .done 0 0 ((s.grids.filter fun g => g.job == id && g.status.isNone).foldl
      (fun (s : State) g => s.abortGrid g.id 5 (if g.fired = 1 then 0x3C else 0)) s))

/-- ATTEST (R405): nonce, measurement slots, order number, die count, digest of the capability list, signature
(DESIGN CHOICE, notes/assumptions/2.md). -/
def execAttest (q : Nat) (s : State) : Host.Outcome State Fault Refusal :=
  .next (shegusCommand q 11 s fun e s =>
    let body := ((List.range 4).flatMap fun i => toBytes 8 (cmdArg e i)) ++ s.slots.flatten ++ toBytes 1 s.order ++ toBytes 1 s.dies ++
      Config.shake256 s.capList 64
    let report := body ++ Config.falconSign body
    withWrite (cmdAddr e) report report.length s)

/-- FWLOAD: the image goes into the module flash; which of its bytes give its version is open. -/
def execFwload (q : Nat) (s : State) : Host.Outcome State Fault Refusal :=
  .next (shegusCommand q 12 s fun e s =>
    if cmdArg e 0 = 0 then .done 2 0 s
    else withRead (cmdAddr e) (cmdArg e 0) s fun bs =>
      let (v, s1) := s.free
      .done 0 (v % 2 ^ 64) { s1 with flash := bs })

/-- ERRORS: the counts as 8-byte words, corrected and uncorrected for each class of each die
(DESIGN CHOICE, notes/assumptions/34.md). -/
def execErrors (q : Nat) (s : State) : Host.Outcome State Fault Refusal :=
  .next (shegusCommand q 13 s fun e s =>
    withWrite (cmdAddr e) ((List.range 32).flatMap fun i => toBytes 8 (getKey s.ecc i 0)) 0 s)

/-- POWERCAP: the cap in force is the smaller of the one asked for and a two-die product's 2,000 W (R401, R408). -/
def execPowercap (q : Nat) (s : State) : Host.Outcome State Fault Refusal :=
  .next (shegusCommand q 14 s fun e s =>
    let cap := if s.dies = 2 then min 2000 (cmdArg e 0) else cmdArg e 0
    .done 0 cap { s with powercap := some cap })

end Sys2Proof.Machine
end

