-- ==== Sys2Proof/Machine/HostPort.lean ====
section
/-! DEFINITION. The host over CXL (15_host.md R394 to R396): reads and writes of HBM in its window and snoops of the host
lines that the device holds. -/

namespace Sys2Proof.Machine

open Sys2Proof

/-- The physical address of a range in the host's window; none outside it, or for an access that leaves its half. -/
def State.windowPa (s : State) (offset n : Nat) : Option Nat :=
  s.hdm.bind fun (_, base, len) =>
    if n = 0 || len < offset + n || (base + offset) / 64 ≠ (base + offset + n - 1) / 64 then none else some (base + offset)

/-- The identifier whose key the host's accesses use: that of its window (R395, R397). -/
def State.windowAsid (s : State) : Nat := (s.hdm.map (·.1)).getD 0

/-- HOST_MEM_READ: a read request goes to the home, where it takes a kept cell's lead (R396); an agent that caches the data is
recorded (R203). -/
def execHostMemRead (offset n agent : Nat) (caches : Bool) (s : State) : Host.Outcome State Fault Refusal :=
  .next <| match s.windowPa offset n with
  | none => { s with outputs := s.outputs ++ [.hostData none] }
  | some pa =>
    if !s.hostPortUp then s
    else (s.sendReq { asid := s.windowAsid, pa, leaf := if s.pageKept pa then 0x80 else 0, group := 0xFFFE, src := 64,
                      kind := 4, op := .hostRead n agent caches }).2

/-- The write request of bytes of one line that comes from outside the device, a byte where there is one; in a kept page a
kept write of each cell that has an enabled byte, with sight 0 (R220, R228, R396). -/
def State.outerWrite (s : State) (asid pa : Nat) (bytes : List (Option Byte)) (group src log kind : Nat) : HomeReq :=
  let lo := pa % 128
  let en := (List.range bytes.length).filterMap fun i => (bytes.getD i none).map fun b => (lo + i, b)
  let kept := s.pageKept pa
  let cells := (List.range 16).filter fun j => en.any fun p => p.1 / 8 == j
  let cell := fun (j : Nat) => (j, BitVec.ofNat 64 (en.foldl (fun v p => if p.1 / 8 = j then v + p.2.toNat * 256 ^ (p.1 % 8) else v) 0))
  { asid, pa := pa / 128 * 128, leaf := if kept then 0x80 else 0, group, src, log, kind,
    mask := en.foldl (fun m p => Nat.lor m (2 ^ p.1)) 0, op := if kept then .kept (cells.map cell) 0 else .write en }

/-- HOST_MEM_WRITE: a masked write of a half, sent to its home with group 0xFFFE (R396). -/
def execHostMemWrite (offset : Nat) (bytes : List (Option Byte)) (s : State) : Host.Outcome State Fault Refusal :=
  .next <| match s.windowPa offset bytes.length with
  | none => { s with outputs := s.outputs ++ [.hostWrite false] }
  | some pa =>
    if bytes.all (·.isNone) then { s with outputs := s.outputs ++ [.hostWrite true] }
    else if !s.hostPortUp then s
    else (s.sendReq (s.outerWrite s.windowAsid pa bytes 0xFFFE 64 64 4)).2

/-- A write of a peer device comes off the fabric at a die's interface (R218, R220, R228, R392): its group is the peer's,
and one that its home refuses goes to the interface's log. -/
def State.peerWriteIn (s : State) (die dev pa : Nat) (bytes : List Byte) : State :=
  if !s.dieUp die || 1024 ≤ dev || dev = s.pod || bytes.isEmpty || pa % 128 + bytes.length > 128 || pa ≥ 2 ^ 39 ||
      !s.dieUp (pa / 2 ^ 38) then s
  else (s.sendReq (s.outerWrite (s.ownerOf pa) pa (bytes.map some) (0x8000 + dev) (68 + die) (65 + die) 5)).2

/-- A snoop of a half waits for the request in progress on its line, and is served before the line's list (R394). -/
def snoopHalf (pa : Nat) (inv : Bool) (s : State) : State :=
  let h := pa / 64
  if !isHost pa || !s.hostPortUp then s
  else if s.busy.any fun b => b.line == h / 2 then { s with snoops := s.snoops ++ [(h, inv)] }
  else s.snoopNow h inv

/-- SNPINV: the half turns I and its data goes to the host if it was M. -/
def execSnpinv (pa : Nat) (s : State) : Host.Outcome State Fault Refusal := .next (snoopHalf pa true s)
/-- SNPDATA: an M or E half turns S and M data goes to the host. -/
def execSnpdata (pa : Nat) (s : State) : Host.Outcome State Fault Refusal := .next (snoopHalf pa false s)

end Sys2Proof.Machine
end

