-- ==== Sys2Proof/Machine/Failure.lean ====
section
/-! DEFINITION. Failures and the physical environment (01_machine.md R24, 11_tasks.md R300, R314, 12_messages.md R328,
15_host.md R404, R407, R408). -/

namespace Sys2Proof.Machine

open Sys2Proof

/-! ### Loss of the seam or of a die -/

/-- Jobs with counter sets on both dies become broken (R328). -/
def State.breakJobs (s : State) : State :=
  { s with jobs := s.jobs.map fun (j : Job) =>
      if (s.places j.id).any (fun p => placeDie p == 0) && (s.places j.id).any (fun p => placeDie p == 1) then { j with broken := true }
      else j }

/-- A cluster lies on both dies. -/
def Cluster.bonded (c : Cluster) : Bool := (c.quads.any fun q => q / 32 == 0) && c.quads.any fun q => q / 32 == 1

/-- Nothing crosses between the dies any more: messages on their way are discarded (R200, R328), guest copies are gone
from the directories, and collectives end faulted (R342). -/
def State.cutSeam (s : State) : State :=
  let s1 : State := { s with
    seam := false,
    sendBuf := s.sendBuf.filter fun m => !s.crosses m,
    dir := s.dir.map fun (d : DirEntry) =>
      { d with agents := d.agents.filter (· != 0), vector := if d.vector % 2 = 1 then d.vector - 1 else d.vector } }
  s1.breakJobs.collFail s1.colls 0x3F

/-- A grid has clusters placed or granted on both dies; a bonded cluster lies on both. -/
def State.onBothDies (s : State) (g : Grid) : Bool :=
  let on := fun d => (g.placed.any fun p => p.2 == d) || (!g.granted.isEmpty && g.leader != some d && g.leader.isSome)
  (on 0 && on 1) || s.clusters.any fun c => c.grid == g.id && c.bonded

/-- A gang takes seam lost where it stands (R200, R252, R314): its trap state and sr.fault are written, and its level and
its PC are those of the handler. Its cluster is aborted at once, so neither a live trap nor a missing vector aborts its job
(DESIGN CHOICE, notes/assumptions/22.md). -/
def State.takeSeamLost (s : State) (g : Gang) : State :=
  let t : TrapState := { tpc := g.pc, tmask := s.remaining g, done := g.done, word := g.word, cause := Cause.seamLost.code, lv := g.sys,
                         tres := g.nextPc, members := g.members, pend := g.pendWord, ppt := g.ppt, beat := g.beat }
  ({ s with threads := s.threads.map fun (th : Thread) =>
      if th.team == g.team && g.members.contains th.rank then { th with fault := faultWord t } else th } : State).updGang g.id fun g =>
    { g with trap := some t, sys := true, pc := vectorOf (s.job (s.team g.team).job) (some .seamLost), word := 0, done := [],
             flight := [], pendWord := false, status := .fetch }

/-- A bonded cluster faults with seam lost in every gang of its teams and is aborted. -/
def State.seamLost (s : State) (cluster : Nat) : State :=
  ((s.gangs.filter fun g => (s.team g.team).cluster == cluster).foldl (fun (s : State) g => s.takeSeamLost g) s).abortCluster cluster

/-- SEAM_FAILURE (R314): bonded clusters fault with seam lost and are aborted, and grids on both dies end partial. -/
def execSeamFailure (s : State) : Host.Outcome State Fault Refusal :=
  .next <|
    if !s.seam || s.dies != 2 then s
    else
      let both := (s.grids.filter fun g => g.status.isNone && s.onBothDies g).map (·.id)
      let s1 := (s.clusters.filter fun c => c.bonded && !c.retired && !c.aborted).foldl (fun (s : State) c => s.seamLost c.id) s
      let s2 := both.foldl (fun (s : State) g => s.abortGrid g 2 0) s1
      let s3 : State := { s2 with grids := s2.grids.map fun (g : Grid) => if g.status.isNone && g.leader.isSome then { g with alone := true } else g }
      ({ s3.cutSeam with seamBroken := true } : State).notice (6 + 2 * 2 ^ 8)

/-- A grid after the failure of a die: the survivor leads, and what the failed die had and had not reported is lost, and
with it the indices `split` of bonded clusters that had not retired (R300). -/
def Grid.afterDeath (g : Grid) (die : Nat) (split : List Nat) : Grid :=
  let live := 1 - die
  let led := g.leader.getD g.die = die
  -- what the survivor knows to have retired: its own, and the failed die's as far as they were reported to it
  let own := (if live = 0 then g.ret0 else g.ret1) ++ g.unreported
  let theirs := if led then [] else if die = 0 then g.ret0 else g.ret1
  let own1 := if led then own else if live = 0 then g.ret0 else g.ret1
  let goneD := ((g.placed.filter fun p => p.2 == die).map (·.1)) ++ (if led then [] else g.granted.flatten)
  let gone := (goneD.filter fun i => !theirs.contains i) ++ split.filter fun i => !goneD.contains i
  { g with leader := some live, alone := true, proposed := none, unreported := [],
           granted := if led then g.granted else [], lost := g.lost ++ gone,
           ret0 := if live = 0 then own1 else theirs, ret1 := if live = 1 then own1 else theirs }

/-- A die stops: its teams and bonded clusters cease, and the survivor leads every grid and continues it. -/
def State.loseDie (s : State) (die : Nat) : State :=
    if !s.dieUp die then s
    else
      let s0 : State := { s with
        up := s.up.set die false, clocks := s.clocks.set die (s.dieTicks die, s.now, 0),
        hostPort := s.hostPort && die != 0,
        jobs := s.jobs.map fun (j : Job) => if j.root == die then { j with root := 1 - die } else j }
      let s1 := (s0.clusters.filter fun c => !c.retired && !c.aborted && c.quads.any fun q => q / 32 == die).foldl
        (fun (s : State) c => s.abortCluster c.id) s0
      if s1.dies = 2 then
        let split := fun (g : Nat) => (s.clusters.filter fun c => c.grid == g && c.bonded && !c.retired && !c.aborted).map (·.index)
        let open_ := (s1.grids.filter fun g => g.status.isNone).map (·.id)
        (open_.foldl (fun (s : State) g =>
          let s2 := (s.updGrid g fun x => x.afterDeath die (split g)).gridTest g
          if (s2.grid g).placedAll then s2.lowerGrid g else s2) s1).cutSeam
      else (s1.jobs.filter fun j => !j.closed).foldl (fun (s : State) j => s.abortJob j.id 3 0) s1

/-- DIE_FAILURE, after the die-down notice. -/
def execDieFailure (die : Nat) (s : State) : Host.Outcome State Fault Refusal :=
  .next (if s.dieUp die then (s.loseDie die).notice (6 + die * 2 ^ 8) else s)

/-! ### Errors (R24) -/

/-- Count an error: class 0 array, 1 link, 2 crossbar. -/
def State.countError (s : State) (die cls : Nat) (bad : Bool) : State :=
  let k := 8 * (die % 2) + 2 * (cls % 4) + bad.toNat
  { s with ecc := setKey s.ecc k ((getKey s.ecc k 0 + 1) % 2 ^ 64) 0 }

/-- An uncorrectable error is reported to the host, and the job that owns the data is aborted. -/
def State.uncorrectable (s : State) (job block line cause : Nat) : State :=
  (s.notice (1 + job % 2 ^ 12 * 2 ^ 8 + block % 2 ^ 8 * 2 ^ 20 + line % 2 ^ 36 * 2 ^ 28)).abortJob job 5 cause

/-- CORRECTABLE_ERROR is corrected in place and counted. -/
def execCorrectableError (die cls : Nat) (s : State) : Host.Outcome State Fault Refusal :=
  .next (if s.hasDie die && decide (cls < 3) then s.countError die cls false else s)

/-- FLIT_PARITY_ERROR: the first failure of a flit is a retransmission, the second is uncorrectable; whose data it
carried, the CAUSE and the block's number are open. -/
def execFlitParityError (die : Nat) (again : Bool) (s : State) : Host.Outcome State Fault Refusal :=
  .next <|
    if !s.hasDie die then s
    else if !again then s.countError die 2 false
    else
      let (job, s1) := s.free
      let (block, s2) := s1.free
      let (line, s3) := s2.free
      let (cause, s4) := s3.free
      (s4.countError die 2 true).uncorrectable (job % 2 ^ 12) block line (cause % 256)

/-- UNCORRECTABLE_ERROR of a physical line: which class counts it and the CAUSE of the abort are open. -/
def execUncorrectableError (job block line : Nat) (s : State) : Host.Outcome State Fault Refusal :=
  let (cls, s1) := s.free
  let (cause, s2) := s1.free
  .next ((s2.countError (line / 2 ^ 31) (cls % 2) true).uncorrectable job block line (cause % 256))

/-! ### Clocks and temperature (R22, R407, R408) -/

/-- A die's clock changes its rate, in sixteenths of 2.4 GHz; its counters go on from where they stand. -/
def State.setRate (s : State) (die rate : Nat) (up : Bool) : State :=
  { s with clocks := s.clocks.set die (s.dieTicks die, s.now, rate), rose := s.rose.set die up }

/-- One step slower, no lower than 8/16. -/
def State.slower (s : State) (die : Nat) : State :=
  if s.dieUp die && decide (8 < s.rate die) then s.setRate die (s.rate die - 1) false else s

def execSupplySag (die : Nat) (s : State) : Host.Outcome State Fault Refusal := .next (s.slower die)

/-- CLOCK_RECOVERY_STEP: 1 µs after the last fall or 2 µs after the last rise the clock rises by one step. -/
def execClockRecoveryStep (die : Nat) (s : State) : Host.Outcome State Fault Refusal :=
  let wait := micros (if s.rose.getD die false then 2 else 1)
  .next <|
    if s.dieUp die && decide (s.rate die < 16) && decide ((s.clocks.getD die (0, 0, 0)).2.1 + wait ≤ s.now) then
      s.setRate die (s.rate die + 1) true
    else s

/-- THERMAL_THROTTLE: Shegus lowers the clock of every die by one step. -/
def execThermalThrottle (s : State) : Host.Outcome State Fault Refusal := .next ((s.slower 0).slower 1)

/-- THERMAL_TRIP: every job is aborted with STATUS 5, and the device is held in reset. -/
def execThermalTrip (s : State) : Host.Outcome State Fault Refusal :=
  let s1 := (s.jobs.filter fun j => !j.closed).foldl (fun (s : State) j => s.abortJob j.id 5 0) s
  .next ((List.range 2).foldl (fun (s : State) d =>
    { s with up := s.up.set d false, clocks := s.clocks.set d (s.dieTicks d, s.now, 0) }) s1)

/-! ### RESET (R404) -/

/-- What a reset of the whole device leaves: everything as after power-on, but for the straps, the flash, the rollback
counter and the model's own bookkeeping. -/
def State.powerOn (s : State) : State :=
  { State.reset with
    agenda := s.agenda, now := s.now, fresh := s.fresh, nextId := s.nextId, outputs := s.outputs, dies := s.dies, strap := s.strap,
    order := s.order, hostPort := State.reset.hostPort && (s.dies == 2 || s.strap == 0), seam := s.dies == 2, features := s.features,
    coreFeatures := s.coreFeatures, maxDepth := s.maxDepth, spillMax := s.spillMax, hdmMax := s.hdmMax, ports := s.ports, pod := s.pod,
    detailed := s.detailed, leadMode := s.leadMode, flash := s.flash, rollback := s.rollback, up := [false, false],
    clocks := [(0, s.now, 0), (0, s.now, 0)] }

/-- What a reset of one die clears while the other runs. -/
def State.clearDie (s : State) (die : Nat) : State :=
  let here := fun (slice : Nat) => slice / 64 == die
  { s with
    arrivals := s.arrivals.filter fun a => !here a.1,
    counters := s.counters.filter fun c => c.1 / 8 / 32 != die,
    ecc := s.ecc.filter fun e => e.1 / 8 != die,
    dir := s.dir.filter fun d => decide (128 * d.line / 2 ^ 38 ≠ die),
    mem := s.mem.filter fun c => decide (2 ^ 39 ≤ c.1) || decide (c.1 / 2 ^ 38 ≠ die),
    kept := s.kept.filter fun k => decide (8 * k.cell / 2 ^ 38 ≠ die),
    l2 := s.l2.filter fun l => !here l.slice,
    halves := s.halves.filter fun h => !(s.l2.any fun l => l.line == h.1 / 2 && here l.slice),
    hbmStamps := s.hbmStamps.filter fun h => decide (128 * h.1 / 2 ^ 38 ≠ die),
    lineKeys := s.lineKeys.filter fun k => decide (128 * k.1 / 2 ^ 38 ≠ die),
    wakes := s.wakes.filter fun w => !here w.1,
    sets := s.sets.filter fun c => placeDie c.port != die,
    latches := s.latches.filter fun l => placeDie l.port != die,
    mturns := s.mturns.filter fun m => m.1 / 32 != die,
    replays := s.replays.filter fun r => logDie r.1 != die,
    code := s.code.filter fun c => c.1 / 128 != die }

/-- The cores of a die have left reset, each in its own time (R22). -/
def State.skewCores (s : State) (die : Nat) : State :=
  { s with
    fresh := s.fresh + 128,
    coreSkew := (s.coreSkew.filter fun c => c.1 / 128 != die) ++
      (List.range 128).map fun i => (128 * die + i, Config.freeValue (s.fresh + i)) }

/-- The measurement slots after one more stage's digest: slot k takes stage k (R404). -/
def measure (slots : List (List Byte)) (k : Nat) (digest : List Byte) : List (List Byte) :=
  slots.set k (Config.shake256 (slots.getD k [] ++ digest) 64)

/-- RESET: the ROM stage of a die hashes and checks the image, and refuses one with a bad signature or with a version
below the rollback counter, or other than the flash's. Die 1 takes the image that die 0 runs, over a seam that works. A
reset of the last running die resets the device. -/
def execReset (die : Nat) (image : List Byte) (version : Nat) (good : Bool) (s : State) : Host.Outcome State Fault Refusal :=
  let others := s.dieUp (1 - die)
  let s0 := s.loseDie die
  let s1 := if others then s0.clearDie die else s0.powerOn
  let follows := s.dies == 2 && die == 1
  let refused := !good || decide (version < s.rollback) || (!follows && !s.flash.isEmpty && s.flash != image)
  .next <|
    if !s.hasDie die || (follows && (!s.dieUp 0 || s.seamBroken || image != s.images.getD 0 [] || version != s.firmware.getD 0 0)) then s
    else if refused then
      { s1 with up := s1.up.set die false, clocks := s1.clocks.set die (0, s.now, 0), outputs := s1.outputs ++ [.linkStatus die] }
    else
      { s1.skewCores die with
        up := s1.up.set die true, clocks := s1.clocks.set die (0, s.now, 16), rose := s1.rose.set die false,
        seam := s1.dies == 2 && !s1.seamBroken, hostPort := s1.hostPort || die == 0, firmware := s1.firmware.set die version,
        images := s1.images.set die image,
        slots := measure (measure s1.slots 0 (Config.romDigest die)) 1 (Config.shake256 image 64) }

end Sys2Proof.Machine
end

