-- ==== Sys2Proof/Machine/Settle.lean ====
section
/-! DEFINITION. What follows from every step at once: aborted teams are buried, ended grids write their records, words
that wait for engines, messages, verdicts and team barriers are served, notices leave, and the gangs that may run are
found eligible (03_control.md R74, R77, R88, R89, 11_tasks.md R313, R314, 12_messages.md R327). -/

namespace Sys2Proof.Machine

open Sys2Proof

/-! ### Aborted teams (R314, R323, R327) -/

/-- Settle an aborted team: one loss note for the messages, tasks and records that it held, activity lowered for each
thread that had neither ended nor waited in QUIET, and its queues freed. -/
def State.bury (s : State) (team : Nat) : State :=
  let t := s.team team
  let mine := s.threads.filter fun x => x.team == team
  let held := s.heldMessages team + (mine.filter (·.handler)).length + (mine.filter (·.task)).length
  let quiet := (s.quiets.filter fun w => w.team == team).flatMap (·.ranks)
  let live := (mine.filter fun x => !x.ended && !quiet.contains x.rank).length
  let s1 := s.postLoss t.job held t.quad
  let s2 : State := if live = 0 then s1 else { s1 with lateAd := s1.lateAd ++ [(t.quad, t.job, live)] }
  ({ s2 with quiets := s2.quiets.filter fun w => w.team != team } : State).freeTeam team

/-- The activity of aborted teams is lowered where the place has a counter set for the job, or one free; a count that finds
all in use waits (R322). -/
def State.countLate (s : State) : State :=
  s.lateAd.foldl (fun (s : State) x =>
    if s.canCount x.1 x.2.1 then
      { s with lateAd := s.lateAd.erase x }.count x.1 x.2.1 fun k => { k with ad := addCount k.ad x.2.2 }
    else s) s

def State.buryAll (s : State) : State :=
  let teams := s.killed
  (teams.foldl (fun (s : State) t => s.bury t) { s with killed := [] }).countLate

/-! ### Ended grids (R301, R312, R313, R402) -/

/-- Close a grid that has ended: the weak writes of its launch record and, where it ended partial, of its bitmap are sent,
its parent learns its STATUS, and the host is told of its end once these writes have performed (R439). -/
def State.closeGrid (s : State) (grid : Nat) : State :=
  let s0 := s.lowerGrid grid
  let g := s0.grid grid
  let (status, cause) := g.status.getD (0, 0)
  let asid := (s0.job g.job).asid
  let lost := g.next - g.ret0.length - g.ret1.length
  let (ok1, s1) := if g.record = 0 then (true, s0)
    else s0.globalWrite (g.leader.getD g.die) asid g.record (toBytes 64 (launchRecord g grid status cause lost))
  let n := (g.total + 7) / 8
  let map := (g.ret0 ++ g.ret1).foldl (fun m i => Nat.lor m (2 ^ i)) 0
  let (ok2, s2) := if g.bitmap = 0 || (status != 2 && status != 3) then (true, s1)
    else s1.globalWrite (g.leader.getD g.die) asid g.bitmap (toBytes n map)
  let s3 := s2.updGrid grid fun g => { g with closed := true }
  let s4 := match g.parent with
    | none => s3
    | some t => s3.updTeam t fun t =>
        if t.children.contains grid then { t with children := t.children.erase grid, joined := t.joined ++ [(grid, status)] } else t
  { s4 with endNotices := s4.endNotices ++
      [(5 + g.job * 2 ^ 8 + grid % 2 ^ 31 * 2 ^ 20 + (if ok1 && ok2 then 0 else 2 ^ 51),
        (List.range (s2.nextId - s0.nextId)).map (s0.nextId + ·))] }

/-- Bit 51 of a grid's notice: its record or bitmap could not be written (R402). -/
def unwritten (res : Nat) : Nat := if bit res 51 then res else res + 2 ^ 51

/-- The notices of ended grids whose writes have performed, their replays included (R356, R439), or can perform no more,
since their home is lost. -/
def State.serveEnds (s : State) : State :=
  s.endNotices.foldl (fun (s : State) n =>
    let here := s.reqs.filter fun r => n.2.contains r.id
    if (here.any s.reaches) || s.side.any fun e => n.2.contains e.req.id && !here.any (·.id == e.req.id) then s
    else { s with endNotices := s.endNotices.erase n }.notice (if here.isEmpty then n.1 else unwritten n.1)) s

def State.closeGrids (s : State) : State :=
  (s.grids.filter fun g => g.status.isSome && !g.closed).foldl (fun (s : State) g => s.closeGrid g.id) s

/-! ### Words that wait for engines and children (R251, R253, R290, R312, R342, R360) -/

/-- A number is still in flight: an access, a request, an engine or collective command, a message or a result. -/
def State.inFlight (s : State) (id : Nat) : Bool :=
  (s.accesses.any fun a => a.id == id) || (s.reqs.any fun r => r.id == id) || (s.commands.any fun c => c.id == id) ||
  (s.mcommands.any fun c => c.id == id) || (s.sendBuf.any fun m => m.id == id) || (s.colls.any fun c => c.id == id) ||
  s.tickets.any fun t => t.id == id

/-- The status word of a team's queue, whose fault record is cleared (R253). -/
def State.queueStatus (s : State) (team queue : Nat) : Nat × State :=
  let mine := fun (r : CopyRecord) => r.team == team && r.queue == queue
  let v := match s.copyRecs.find? mine with
    | some r => 2 ^ 31 + r.cause * 2 ^ 16 + min 0xFFFF r.count
    | none => 0
  (v, { s with copyRecs := s.copyRecs.filter fun r => !mine r })

/-- An acquire at device scope for a team, as a request of its map units. -/
def State.acquireFor (s : State) (team rank ticket sc : Nat) (invalidate : Bool) : Nat × State :=
  let t := s.team team
  let j := s.job t.job
  s.sendReq { ticket, team, rank, cluster := t.cluster, job := t.job, asid := j.asid, sc, group := (s.cluster t.cluster).group,
              src := t.quad, op := .acquire invalidate }

/-- The join's invalidation of the lines that meet the edge ranges (R302). -/
def State.invalidateEdges (s : State) (cluster : Nat) (edges : List (Nat × Nat)) : State :=
  let lines := s.edgeLines cluster edges
  s.dropClean cluster fun l => lines.contains l.line

/-- The children that a join waits for have retired; then their grids. Children whose launch is still on its way count as
launched (R312). -/
def State.joinedBy (s : State) (t : Team) (h : Option Nat) : Option (List (Nat × Nat)) :=
  match h with
  | some n => if t.joined.any fun p => p.1 == n then some (t.joined.filter fun p => p.1 == n) else none
  | none => if t.children.isEmpty && (s.launching t.id).isEmpty then some t.joined else none

/-- What a wait does when its commands are complete. -/
def State.engineDone (s : State) (w : EngineWait) : State :=
  let t := s.team w.team
  let s1 : State := { s with engineWaits := s.engineWaits.filter fun x => x != w }
  let answer := fun (s : State) (d v : Nat) => s.answerAll w.ticket w.team w.ranks d 1 v
  let whole := fun (s : State) => s.settleAll w.ticket (((s.ticket? w.ticket).map (·.parts)).getD [])
  let acquire := fun (s : State) (inv : Bool) (d v : Nat) =>
    let (id, s2) := s.acquireFor w.team (w.ranks.headD 0) 0 3 inv
    { s2 with engineWaits := s2.engineWaits ++ [{ w with ids := [id], act := .joined d v }] }
  match w.act with
  | .twait q d => let (v, s2) := s1.queueStatus w.team q; answer s2 d v
  | .cwait q d => let (v, s2) := s1.queueStatus w.team (16 + q); acquire s2 true d v
  | .cancel | .replays => s1.settleAll w.ticket w.ranks
  | .fenceq sc =>
    if sc < 3 then whole s1
    else
      -- the wait goes on while the acquire runs, and keeps back the later accesses of every Active thread
      let (id, s2) := s1.acquireFor w.team (w.ranks.headD 0) 0 sc true
      { s2 with engineWaits := s2.engineWaits ++ [{ w with ids := [id], act := .fenced }] }
  | .fenced => whole s1
  | .mwait d tile => answer s1 d (if tile then (s1.teamCommands w.team).length else 0)
  | .join h d =>
    match s.joinedBy t h with
    | none => s
    | some js =>
      let status := js.foldl (fun m j => max m j.2) (if js.isEmpty then 1 else 0)
      let gs := js.map fun j => s1.grid j.1
      let edges := gs.flatMap (·.edges)
      if js.isEmpty then answer s1 d status
      else acquire (if edges.isEmpty then s1 else s1.invalidateEdges t.cluster edges) (gs.any fun g => g.edges.isEmpty) d status
  | .joined d v | .answer d v => answer s1 d v
  | .write ws => s1.addRegResults w.ticket w.team (w.ranks.headD 0) ws
  | .tlbi kind asid va => (s1.tlbiPerform kind asid va).settleAll w.ticket w.ranks

/-- What a wait still waits for: a TLBI also for accesses that are in side logs (R356, R371), SLOGP for replays that are due
(R376). -/
def State.stillWaits (s : State) (w : EngineWait) : Bool :=
  (w.ids.any s.inFlight) ||
  match w.act with
  | .tlbi .. => w.ids.any s.outstanding
  | .replays => s.side.any fun e => e.due && w.ids.contains e.req.id
  | _ => false

def State.serveEngines (s : State) : State :=
  s.engineWaits.foldl (fun (s : State) w =>
    if s.stillWaits w || (w.act.withdrawn && decide (2 ≤ (s.team w.team).stat)) then s else s.engineDone w) s

/-! ### Team barriers, halts, notices -/

/-- A thread's end may complete a phase of a team barrier (R195); a stopped team's wait on (R385). -/
def State.serveTbars (s : State) : State :=
  (s.teams.filter fun t => !t.retired && decide (t.stat < 2)).foldl (fun (s : State) t =>
    (List.range 4).foldl (fun (s : State) i => s.tbarTest t.id i) s) s

/-- While a role of a job is halted the watchdog's timers stand still (R380, R383). -/
def State.serveHolds (s : State) : State :=
  (s.jobs.filter fun j => !j.closed).foldl (fun (s : State) j =>
    let halted := s.teams.any fun t => t.job == j.id && !t.retired && t.halt != 0
    match j.heldSince with
    | none => if halted then s.updJob j.id fun j => { j with heldSince := some s.now } else s
    | some since =>
      if halted then s
      else { s.updJob j.id (fun j => { j with heldSince := none }) with
        grids := s.grids.map fun (g : Grid) =>
          if g.job == j.id then { g with progress := g.progress + (s.now - max since g.progress) } else g }) s

/-- The notice of an event that Shegus reports (R154, R216, R380, R402). -/
def State.eventNotice (s : State) (e : Nat × Nat × Nat) : Nat :=
  match e with
  | (0, team, cls) =>
    let t := s.team team
    4 + t.job * 2 ^ 8 + handleOf t * 2 ^ 20 + cls * 2 ^ 28
  | (2, slice, _) => 2 + slice * 2 ^ 8
  | (_, job, _) => 3 + job * 2 ^ 8

def State.serveEvents (s : State) : State :=
  let es := s.events
  es.foldl (fun (s : State) e => s.notice (s.eventNotice e)) { s with events := [] }

/-- Queues with something left to write or to pass. -/
def State.serveQueues (s : State) : State :=
  (List.range 16).foldl (fun (s : State) q =>
    let c := s.queue q
    if c.on && (c.stalled.isSome || !c.entries.isEmpty || (q == 0 && !(s.notices.isEmpty && s.noticesLost == 0))) then s.kickQueue q
    else s) s

/-! ### Eligibility (R74, R77, R88, R89, R96) -/

/-- The wait of a held gang is over. -/
def State.waitDone (s : State) (g : Gang) : Wait → Bool
  | .counters => s.quietGang g.id
  | .flights ids => !ids.any s.outstanding
  | .page _ _ => false
  | .line c line _ store =>
    let l := (s.cluster c).line line
    !(l.st == .filling && l.walked.isNone) || (l.missing && store)
  | .fill c line => ((s.cluster c).line line).st != .filling
  | .channels team need => need.all fun p => decide (p.2 ≤ (s.rx team p.1).length)
  | .accept id => s.accesses.all fun a => a.id != id || !(a.isRejected || a.state == .sent)
  | .sendRoom port n => s.sendRoom port n
  | .queueRoom _ _ => true
  | .teamBarrier team id ranks => ranks.all fun r => !(((s.team team).tbar.getD id []).any fun p => p.1 == r)
  | .children team => decide ((s.team team).children.length + (s.launching team).length < 64)
  | .sideLog log => s.logRoom log
  | .matrixRoom team => decide ((s.teamCommands team).length < 32)
  | .copyRoom quad queue => decide ((s.commands.filter fun x => x.quad == quad && x.queue == queue).length < 64)
  | .counterSet port job => s.canCount port job
  | .collRoom _ queue => decide ((s.colls.filter fun k => k.team == g.team && k.queue == queue).length < 16)
  | .shegus => false

/-- The counters of a held gang are zero (R88, R89), all eight of them, but for the result of the very word that it is
held at (DEDUCED, notes/assumptions/35.md). -/
def State.heldQuiet (s : State) (g : Gang) : Bool :=
  s.tickets.all fun t => !t.gangs.contains g.id || g.flight.contains t.id

/-- A gang may start its clause, or go on at its word; a gang that YIELD has parked may not (R74, R96). -/
def State.mayRun (s : State) (g : Gang) : Bool :=
  g.behind.isEmpty && match g.status with
  | .ready => (List.range 8).all fun k => !(hdrWait g.header).testBit k || s.counter g.id k == 0
  | .held w => s.waitDone g w && s.heldQuiet g
  | _ => false

/-- Gangs that are eligible no longer lose their mark, and a gang that has yielded to one waits for it no more (R96). -/
def State.unstampGangs (s : State) : State :=
  let s1 : State := { s with gangs := s.gangs.map fun (g : Gang) =>
    if g.eligible.isSome && !s.mayRun g then { g with eligible := none, idleSince := s.dieClock ((s.team g.team).quad / 32) } else g }
  { s1 with gangs := s1.gangs.map fun (g : Gang) =>
      if g.behind.isEmpty then g else { g with behind := g.behind.filter fun i => s1.gangs.any fun x => x.id == i && x.eligible.isSome } }

/-- Mark the gangs that become eligible, and those that are so no longer. Of several of a class that become eligible at one
moment, the one that stands first in the gang list counts as the earliest, where the spec is silent (R77; DESIGN CHOICE,
notes/assumptions/110.md). -/
def State.stampGangs (s : State) : State :=
  let s1 := s.unstampGangs
  s1.gangs.foldl (fun (x : State) g =>
    if g.eligible.isNone && s1.mayRun g then
      { x with nextId := x.nextId + 1 }.updGang g.id fun g => { g with eligible := some x.nextId }
    else x) s1

/-- Ends of requests that no gang looks for any more. -/
def State.sweepEnds (s : State) : State :=
  { s with ends := s.ends.filter fun e =>
      (s.gangs.any fun g => g.flight.contains e.1) || (s.folds.any fun f => f.threads.any fun t => t.2.2.flight.contains e.1) ||
      (s.overflow ++ s.filing).any fun f => f.carry.flight.contains e.1 }

/-- A place in a pair lasts while its gang is held at the word, or goes on at it. -/
def State.sweepPlaces (s : State) : State :=
  let held := fun (g : Gang) => match g.status with
    | .held _ | .running => true
    | _ => false
  { s with accesses := s.accesses.filter fun a => a.op != .place || s.gangs.any fun g => held g && g.flight.contains a.id }

/-- All of it, in order. -/
def State.settle (s : State) : State :=
  let s1 := ((({ s with cur := none } : State).claimFolds).buryAll).closeGrids.serveEnds
  let s2 := (((s1.serveEngines).serveRecv).serveQuiet).serveTbars
  let s3 := (s2.settleSnoops.sweepPlaces.settleStops.buryAll.claimFolds.fileReady).serveHolds.serveTimers
  (s3.serveEvents.serveQueues.sweepEnds).stampGangs

end Sys2Proof.Machine
end

