-- ==== Sys2Proof/Machine/Dispatch.lean ====
section
/-! DEFINITION. One arm per constructor of `Instr`: each calls the meaning of that row. -/

namespace Sys2Proof.Machine

open Sys2Proof

/-- What a row of the opcode table does: an instruction word of the gang `s.cur`, or an event. -/
def exec (i : Instr) (s : State) : Host.Outcome State Fault Refusal :=
  match i with
  | .nop w => Sys2Proof.Machine.execNop w s
  | .bra w => Sys2Proof.Machine.execBra w s
  | .brx w => Sys2Proof.Machine.execBrx w s
  | .call w => Sys2Proof.Machine.execCall w s
  | .callRegister w => Sys2Proof.Machine.execCallRegister w s
  | .ret w => Sys2Proof.Machine.execRet w s
  | .reform w => Sys2Proof.Machine.execReform w s
  | .exit w => Sys2Proof.Machine.execExit w s
  | .yield w => Sys2Proof.Machine.execYield w s
  | .trap w => Sys2Proof.Machine.execTrap w s
  | .svc w => Sys2Proof.Machine.execSvc w s
  | .brk w => Sys2Proof.Machine.execBrk w s
  | .beat w => Sys2Proof.Machine.execBeat w s
  | .glz w => Sys2Proof.Machine.execGlz w s
  | .ppt w => Sys2Proof.Machine.execPpt w s
  | .vote w => Sys2Proof.Machine.execVote w s
  | .shfl w => Sys2Proof.Machine.execShfl w s
  | .iadd w => Sys2Proof.Machine.execIadd w s
  | .isub w => Sys2Proof.Machine.execIsub w s
  | .imul w => Sys2Proof.Machine.execImul w s
  | .imulh w => Sys2Proof.Machine.execImulh w s
  | .imad w => Sys2Proof.Machine.execImad w s
  | .iaddi w => Sys2Proof.Machine.execIaddi w s
  | .imuli w => Sys2Proof.Machine.execImuli w s
  | .imin w => Sys2Proof.Machine.execImin w s
  | .imax w => Sys2Proof.Machine.execImax w s
  | .iabs w => Sys2Proof.Machine.execIabs w s
  | .ineg w => Sys2Proof.Machine.execIneg w s
  | .and w => Sys2Proof.Machine.execAnd w s
  | .or w => Sys2Proof.Machine.execOr w s
  | .xor w => Sys2Proof.Machine.execXor w s
  | .not w => Sys2Proof.Machine.execNot w s
  | .andi w => Sys2Proof.Machine.execAndi w s
  | .ori w => Sys2Proof.Machine.execOri w s
  | .xori w => Sys2Proof.Machine.execXori w s
  | .shl w => Sys2Proof.Machine.execShl w s
  | .shr w => Sys2Proof.Machine.execShr w s
  | .sar w => Sys2Proof.Machine.execSar w s
  | .fsh w => Sys2Proof.Machine.execFsh w s
  | .bfx w => Sys2Proof.Machine.execBfx w s
  | .bfi w => Sys2Proof.Machine.execBfi w s
  | .popc w => Sys2Proof.Machine.execPopc w s
  | .clz w => Sys2Proof.Machine.execClz w s
  | .brev w => Sys2Proof.Machine.execBrev w s
  | .isetp w => Sys2Proof.Machine.execIsetp w s
  | .sel w => Sys2Proof.Machine.execSel w s
  | .movi w => Sys2Proof.Machine.execMovi w s
  | .mov w => Sys2Proof.Machine.execMov w s
  | .lea w => Sys2Proof.Machine.execLea w s
  | .idiv w => Sys2Proof.Machine.execIdiv w s
  | .irem w => Sys2Proof.Machine.execIrem w s
  | .plop w => Sys2Proof.Machine.execPlop w s
  | .pmovGet w => Sys2Proof.Machine.execPmovGet w s
  | .pmovSet w => Sys2Proof.Machine.execPmovSet w s
  | .pmovNz w => Sys2Proof.Machine.execPmovNz w s
  | .pmovSel w => Sys2Proof.Machine.execPmovSel w s
  | .icvt w => Sys2Proof.Machine.execIcvt w s
  | .idot4 w => Sys2Proof.Machine.execIdot4 w s
  | .movs w => Sys2Proof.Machine.execMovs w s
  | .movsw w => Sys2Proof.Machine.execMovsw w s
  | .codeSegmentSwitch w => Sys2Proof.Machine.execCodeSegmentSwitch w s
  | .rget w => Sys2Proof.Machine.execRget w s
  | .rput w => Sys2Proof.Machine.execRput w s
  | .fadd w => Sys2Proof.Machine.execFadd w s
  | .fsub w => Sys2Proof.Machine.execFsub w s
  | .fmul w => Sys2Proof.Machine.execFmul w s
  | .ffma w => Sys2Proof.Machine.execFfma w s
  | .fmin w => Sys2Proof.Machine.execFmin w s
  | .fmax w => Sys2Proof.Machine.execFmax w s
  | .fdiv w => Sys2Proof.Machine.execFdiv w s
  | .fsqrt w => Sys2Proof.Machine.execFsqrt w s
  | .frcp w => Sys2Proof.Machine.execFrcp w s
  | .frsq w => Sys2Proof.Machine.execFrsq w s
  | .fexp2 w => Sys2Proof.Machine.execFexp2 w s
  | .flog2 w => Sys2Proof.Machine.execFlog2 w s
  | .fsin w => Sys2Proof.Machine.execFsin w s
  | .fcos w => Sys2Proof.Machine.execFcos w s
  | .ftanh w => Sys2Proof.Machine.execFtanh w s
  | .fsetp w => Sys2Proof.Machine.execFsetp w s
  | .fclassPredicate w => Sys2Proof.Machine.execFclassPredicate w s
  | .fclassRegister w => Sys2Proof.Machine.execFclassRegister w s
  | .fcvt w => Sys2Proof.Machine.execFcvt w s
  | .f2i w => Sys2Proof.Machine.execF2i w s
  | .i2f w => Sys2Proof.Machine.execI2f w s
  | .frnd w => Sys2Proof.Machine.execFrnd w s
  | .fscale w => Sys2Proof.Machine.execFscale w s
  | .fdot2 w => Sys2Proof.Machine.execFdot2 w s
  | .fpack w => Sys2Proof.Machine.execFpack w s
  | .funpk w => Sys2Proof.Machine.execFunpk w s
  | .ncvtEnc w => Sys2Proof.Machine.execNcvtEnc w s
  | .ncvtDec w => Sys2Proof.Machine.execNcvtDec w s
  | .fmtw w => Sys2Proof.Machine.execFmtw w s
  | .eventWindowClear team cls => Sys2Proof.Machine.execEventWindowClear team cls s
  | .tget w => Sys2Proof.Machine.execTget w s
  | .tset w => Sys2Proof.Machine.execTset w s
  | .tzero w => Sys2Proof.Machine.execTzero w s
  | .tseed w => Sys2Proof.Machine.execTseed w s
  | .gpln w => Sys2Proof.Machine.execGpln w s
  | .ldp w => Sys2Proof.Machine.execLdp w s
  | .stp w => Sys2Proof.Machine.execStp w s
  | .ldpf w => Sys2Proof.Machine.execLdpf w s
  | .stpe w => Sys2Proof.Machine.execStpe w s
  | .feset w => Sys2Proof.Machine.execFeset w s
  | .atomp w => Sys2Proof.Machine.execAtomp w s
  | .casp w => Sys2Proof.Machine.execCasp w s
  | .mcst w => Sys2Proof.Machine.execMcst w s
  | .poolAccessPerform id => Sys2Proof.Machine.execPoolAccessPerform id s
  | .poolAccessRetry id => Sys2Proof.Machine.execPoolAccessRetry id s
  | .bari w => Sys2Proof.Machine.execBari w s
  | .barx w => Sys2Proof.Machine.execBarx w s
  | .bara w => Sys2Proof.Machine.execBara w s
  | .barw w => Sys2Proof.Machine.execBarw w s
  | .tbar w => Sys2Proof.Machine.execTbar w s
  | .rngi w => Sys2Proof.Machine.execRngi w s
  | .rngwWr w => Sys2Proof.Machine.execRngwWr w s
  | .rngwRd w => Sys2Proof.Machine.execRngwRd w s
  | .rngsWr w => Sys2Proof.Machine.execRngsWr w s
  | .rngsRd w => Sys2Proof.Machine.execRngsRd w s
  | .fence w => Sys2Proof.Machine.execFence w s
  | .fenceq w => Sys2Proof.Machine.execFenceq w s
  | .sight w => Sys2Proof.Machine.execSight w s
  | .sightRefreshComplete cluster => Sys2Proof.Machine.execSightRefreshComplete cluster s
  | .rmap w => Sys2Proof.Machine.execRmap w s
  | .rmapUnmap w => Sys2Proof.Machine.execRmapUnmap w s
  | .rflush w => Sys2Proof.Machine.execRflush w s
  | .rinv w => Sys2Proof.Machine.execRinv w s
  | .rpref w => Sys2Proof.Machine.execRpref w s
  | .regionFillComplete cluster line => Sys2Proof.Machine.execRegionFillComplete cluster line s
  | .atomg w => Sys2Proof.Machine.execAtomg w s
  | .casg w => Sys2Proof.Machine.execCasg w s
  | .redg w => Sys2Proof.Machine.execRedg w s
  | .ldk w => Sys2Proof.Machine.execLdk w s
  | .sibl w => Sys2Proof.Machine.execSibl w s
  | .recon w => Sys2Proof.Machine.execRecon w s
  | .homeRequestService id => Sys2Proof.Machine.execHomeRequestService id s
  | .invalidationAck line => Sys2Proof.Machine.execInvalidationAck line s
  | .homeRequestRetry id => Sys2Proof.Machine.execHomeRequestRetry id s
  | .sideLogReplay log => Sys2Proof.Machine.execSideLogReplay log s
  | .tcopy w => Sys2Proof.Machine.execTcopy w s
  | .tstore w => Sys2Proof.Machine.execTstore w s
  | .tgather w => Sys2Proof.Machine.execTgather w s
  | .tscat w => Sys2Proof.Machine.execTscat w s
  | .tlay w => Sys2Proof.Machine.execTlay w s
  | .tstream w => Sys2Proof.Machine.execTstream w s
  | .tdrain w => Sys2Proof.Machine.execTdrain w s
  | .twait w => Sys2Proof.Machine.execTwait w s
  | .tcancel w => Sys2Proof.Machine.execTcancel w s
  | .copyCommandStart quad queue => Sys2Proof.Machine.execCopyCommandStart quad queue s
  | .copyLineIssue cmd => Sys2Proof.Machine.execCopyLineIssue cmd s
  | .copyLineDelivery cmd line => Sys2Proof.Machine.execCopyLineDelivery cmd line s
  | .copyWriteLineAccept cmd line => Sys2Proof.Machine.execCopyWriteLineAccept cmd line s
  | .copyLineFault cmd line => Sys2Proof.Machine.execCopyLineFault cmd line s
  | .streamSlotResume cmd => Sys2Proof.Machine.execStreamSlotResume cmd s
  | .pres w => Sys2Proof.Machine.execPres w s
  | .presOrg w => Sys2Proof.Machine.execPresOrg w s
  | .pfree w => Sys2Proof.Machine.execPfree w s
  | .easld w => Sys2Proof.Machine.execEasld w s
  | .mloop w => Sys2Proof.Machine.execMloop w s
  | .mloops w => Sys2Proof.Machine.execMloops w s
  | .accal w => Sys2Proof.Machine.execAccal w s
  | .accfr w => Sys2Proof.Machine.execAccfr w s
  | .accz w => Sys2Proof.Machine.execAccz w s
  | .accrd w => Sys2Proof.Machine.execAccrd w s
  | .accwr w => Sys2Proof.Machine.execAccwr w s
  | .spkc w => Sys2Proof.Machine.execSpkc w s
  | .mwait w => Sys2Proof.Machine.execMwait w s
  | .mclass w => Sys2Proof.Machine.execMclass w s
  | .qblk w => Sys2Proof.Machine.execQblk w s
  | .pwr w => Sys2Proof.Machine.execPwr w s
  | .mstat w => Sys2Proof.Machine.execMstat w s
  | .matrixCommandStart team cmd => Sys2Proof.Machine.execMatrixCommandStart team cmd s
  | .matrixStep quad => Sys2Proof.Machine.execMatrixStep quad s
  | .spawn w => Sys2Proof.Machine.execSpawn w s
  | .launch w => Sys2Proof.Machine.execLaunch w s
  | .park w => Sys2Proof.Machine.execPark w s
  | .tqpop w => Sys2Proof.Machine.execTqpop w s
  | .joinw w => Sys2Proof.Machine.execJoinw w s
  | .steal w => Sys2Proof.Machine.execSteal w s
  | .clusterPlacement grid die quads => Sys2Proof.Machine.execClusterPlacement grid die quads s
  | .leaderProposal grid => Sys2Proof.Machine.execLeaderProposal grid s
  | .leaderAckTimeout grid => Sys2Proof.Machine.execLeaderAckTimeout grid s
  | .retirementReport grid index => Sys2Proof.Machine.execRetirementReport grid index s
  | .teamRetirement team => Sys2Proof.Machine.execTeamRetirement team s
  | .chcfg w => Sys2Proof.Machine.execChcfg w s
  | .chcfgClear w => Sys2Proof.Machine.execChcfgClear w s
  | .send w => Sys2Proof.Machine.execSend w s
  | .recv w => Sys2Proof.Machine.execRecv w s
  | .quiet w => Sys2Proof.Machine.execQuiet w s
  | .qpoll w => Sys2Proof.Machine.execQpoll w s
  | .msgh w => Sys2Proof.Machine.execMsgh w s
  | .msghOff w => Sys2Proof.Machine.execMsghOff w s
  | .coll w => Sys2Proof.Machine.execColl w s
  | .cwait w => Sys2Proof.Machine.execCwait w s
  | .lossn w => Sys2Proof.Machine.execLossn w s
  | .messageDelivery id => Sys2Proof.Machine.execMessageDelivery id s
  | .lossNote job count reporter => Sys2Proof.Machine.execLossNote job count reporter s
  | .curfewWave job => Sys2Proof.Machine.execCurfewWave job s
  | .waveVerdict job => Sys2Proof.Machine.execWaveVerdict job s
  | .collectiveCompletion group round lost => Sys2Proof.Machine.execCollectiveCompletion group round lost s
  | .tlbiVa w => Sys2Proof.Machine.execTlbiVa w s
  | .tlbiAsid w => Sys2Proof.Machine.execTlbiAsid w s
  | .tlbiAll w => Sys2Proof.Machine.execTlbiAll w s
  | .capr w => Sys2Proof.Machine.execCapr w s
  | .statr w => Sys2Proof.Machine.execStatr w s
  | .statw w => Sys2Proof.Machine.execStatw w s
  | .halt w => Sys2Proof.Machine.execHalt w s
  | .wdog w => Sys2Proof.Machine.execWdog w s
  | .slogr w => Sys2Proof.Machine.execSlogr w s
  | .slogpReplay w => Sys2Proof.Machine.execSlogpReplay w s
  | .slogpDrop w => Sys2Proof.Machine.execSlogpDrop w s
  | .slogpAll w => Sys2Proof.Machine.execSlogpAll w s
  | .eret w => Sys2Proof.Machine.execEret w s
  | .eretSkip w => Sys2Proof.Machine.execEretSkip w s
  | .eretPc w => Sys2Proof.Machine.execEretPc w s
  | .ctxsv w => Sys2Proof.Machine.execCtxsv w s
  | .ctxld w => Sys2Proof.Machine.execCtxld w s
  | .preemptStop w => Sys2Proof.Machine.execPreemptStop w s
  | .preemptForce w => Sys2Proof.Machine.execPreemptForce w s
  | .preemptResume w => Sys2Proof.Machine.execPreemptResume w s
  | .forcedLimit cluster => Sys2Proof.Machine.execForcedLimit cluster s
  | .watchdogFire grid => Sys2Proof.Machine.execWatchdogFire grid s
  | .clauseFetch gang => Sys2Proof.Machine.execClauseFetch gang s
  | .clauseIssue quad lane => Sys2Proof.Machine.execClauseIssue quad lane s
  | .longResultWrite id => Sys2Proof.Machine.execLongResultWrite id s
  | .foldAgeLimit fold => Sys2Proof.Machine.execFoldAgeLimit fold s
  | .foldIssue fold => Sys2Proof.Machine.execFoldIssue fold s
  | .gangDemotion quad lane => Sys2Proof.Machine.execGangDemotion quad lane s
  | .identify q => Sys2Proof.Machine.execIdentify q s
  | .jobOpen q job => Sys2Proof.Machine.execJobOpen q job s
  | .jobClose q => Sys2Proof.Machine.execJobClose q s
  | .shegusLaunch q => Sys2Proof.Machine.execShegusLaunch q s
  | .alloc q va pa => Sys2Proof.Machine.execAlloc q va pa s
  | .free q => Sys2Proof.Machine.execFree q s
  | .window q pa => Sys2Proof.Machine.execWindow q pa s
  | .collgrp q => Sys2Proof.Machine.execCollgrp q s
  | .jobResume q => Sys2Proof.Machine.execJobResume q s
  | .jobAbort q => Sys2Proof.Machine.execJobAbort q s
  | .attest q => Sys2Proof.Machine.execAttest q s
  | .fwload q => Sys2Proof.Machine.execFwload q s
  | .errors q => Sys2Proof.Machine.execErrors q s
  | .powercap q => Sys2Proof.Machine.execPowercap q s
  | .pageWalkComplete cluster line => Sys2Proof.Machine.execPageWalkComplete cluster line s
  | .counterSetSample job set => Sys2Proof.Machine.execCounterSetSample job set s
  | .wavePassB job => Sys2Proof.Machine.execWavePassB job s
  | .cheadWrite q v => Sys2Proof.Machine.execCheadWrite q v s
  | .registerWrite q reg v => Sys2Proof.Machine.execRegisterWrite q reg v s
  | .hostMemRead offset n agent caches => Sys2Proof.Machine.execHostMemRead offset n agent caches s
  | .hostMemWrite offset bytes => Sys2Proof.Machine.execHostMemWrite offset bytes s
  | .snpinv pa => Sys2Proof.Machine.execSnpinv pa s
  | .snpdata pa => Sys2Proof.Machine.execSnpdata pa s
  | .halfGrant pa own data => Sys2Proof.Machine.execHalfGrant pa own data s
  | .seamFailure => Sys2Proof.Machine.execSeamFailure s
  | .dieFailure die => Sys2Proof.Machine.execDieFailure die s
  | .supplySag die => Sys2Proof.Machine.execSupplySag die s
  | .clockRecoveryStep die => Sys2Proof.Machine.execClockRecoveryStep die s
  | .thermalThrottle => Sys2Proof.Machine.execThermalThrottle s
  | .thermalTrip => Sys2Proof.Machine.execThermalTrip s
  | .correctableError die cls => Sys2Proof.Machine.execCorrectableError die cls s
  | .flitParityError die again => Sys2Proof.Machine.execFlitParityError die again s
  | .uncorrectableError job block line => Sys2Proof.Machine.execUncorrectableError job block line s
  | .reset die image version good => Sys2Proof.Machine.execReset die image version good s
  | .tailDoorbell q v => Sys2Proof.Machine.execTailDoorbell q v s
  | .qcfgWrite q v => Sys2Proof.Machine.execQcfgWrite q v s
  | .pageFaultReject asid page => Sys2Proof.Machine.execPageFaultReject asid page s

end Sys2Proof.Machine
end

