-- ==== Sys2Proof/Machine/Policy.lean ====
section
/-! DEFINITION. The deterministic policy that a step follows where the agenda makes no choice of its own
(DESIGN CHOICE, notes/assumptions/3.md): which row runs next, and how far the clocks go on when none can. -/

namespace Sys2Proof.Machine

open Sys2Proof

/-- What a row leaves, and the state itself for the two outcomes that no meaning answers with. -/
def afterExec (i : Instr) (s : State) : State :=
  match exec i s with
  | .next s1 => s1
  | _ => s

/-- The word that a gang runs next, decoded. -/
def Gang.nextWord (g : Gang) : Decoded := decode (g.clause.getD (g.word - 1) 0)

/-! ### Candidates, agent by agent -/

def State.poolEvents (s : State) : List Instr :=
  s.accesses.map fun a => match a.state with
    | .rejected _ => .poolAccessRetry a.id
    | _ => .poolAccessPerform a.id

def State.homeEvents (s : State) : List Instr :=
  (s.reqs.map fun r => match r.state with
    | .rejected _ => Instr.homeRequestRetry r.id
    | _ => Instr.homeRequestService r.id) ++ s.busy.map fun b => Instr.invalidationAck b.line

def State.clusterEvents (s : State) : List Instr :=
  s.clusters.flatMap fun c =>
    (c.lines.filter fun l => l.st == .filling).flatMap (fun l => [Instr.pageWalkComplete c.id l.line, Instr.regionFillComplete c.id l.line]) ++
    [Instr.sightRefreshComplete c.id, Instr.forcedLimit c.id]

def State.copyEvents (s : State) : List Instr :=
  s.commands.flatMap fun c =>
    c.lines.flatMap (fun l => [Instr.copyLineFault c.id l.idx, Instr.copyLineDelivery c.id l.idx, Instr.copyWriteLineAccept c.id l.idx]) ++
    [Instr.copyLineIssue c.id, Instr.streamSlotResume c.id, Instr.copyCommandStart c.quad c.queue]

def State.matrixEvents (s : State) : List Instr :=
  (s.mcommands.map fun c => Instr.matrixCommandStart c.team c.id) ++
  (s.mcommands.map fun c => (s.team c.team).quad).eraseDups.map fun q => Instr.matrixStep q

/-- The clusters that the dispatchers can place, the classes from the highest down. -/
def State.placements (s : State) : List Instr :=
  [3, 2, 1, 0].flatMap fun p => [0, 1].filterMap fun die =>
    match s.turnOf die p with
    | none => none
    | some g => (s.roomFor g die).map fun qs => Instr.clusterPlacement g.id die qs

/-- The chunks that a leader grants to a die that has room and no index to place (R299). -/
def State.grants (s : State) : List Instr :=
  s.grids.flatMap fun g => [0, 1].filterMap fun die =>
    if s.mayGrant g die && g.granted.isEmpty && (s.roomFor g die).isSome then some (Instr.clusterPlacement g.id die []) else none

def State.gridEvents (s : State) : List Instr :=
  (s.grids.filter fun g => g.status.isNone).flatMap (fun g =>
    [Instr.leaderProposal g.id, Instr.leaderAckTimeout g.id] ++ g.unreported.map fun i => Instr.retirementReport g.id i) ++
  s.placements ++ s.grants ++ s.teams.map fun t => Instr.teamRetirement t.id

def State.messageEvents (s : State) : List Instr :=
  (s.sendBuf.map fun m => Instr.messageDelivery m.id) ++ (s.lossNotes.map fun n => Instr.lossNote n.1 n.2.1 n.2.2) ++
  (s.jobs.filter fun j => !j.closed).flatMap (fun j =>
    (j.due.map fun p => Instr.counterSetSample j.id p) ++ [Instr.wavePassB j.id, Instr.waveVerdict j.id, Instr.curfewWave j.id]) ++
  (s.colls.map fun k => Instr.collectiveCompletion (coGrp k.desc.toNat) k.round false)

def State.timerEvents (s : State) : List Instr :=
  (s.grids.map fun g => Instr.watchdogFire g.id) ++
  ((s.side.filter fun e => e.due || decide (getKey s.replays e.log 0 + 4096 ≤ s.dieClock (logDie e.log))).map fun e => Instr.sideLogReplay e.log) ++
  s.teams.flatMap (fun t => if t.retired then [] else (List.range 5).map fun k => Instr.eventWindowClear t.id k)

/-- The addresses that Shegus gives an ALLOC, above everything it has handed out; 0 and 0 where the die has no room. -/
def State.pickAlloc (s : State) (asid die step bytes : Nat) : Nat × Nat :=
  let top := (s.owners.filter fun o => o.1 / 2 ^ 22 == die).foldl (fun m o => max m (o.1 + o.2.1)) (die * 2 ^ 22)
  let pa := roundUp (top * 2 ^ 16) step
  let va := roundUp ((s.allocs.filter fun a => a.asid == asid).foldl (fun m a => max m (a.va + a.bytes)) (2 ^ 32)) step
  if s.freeRange (pa / 2 ^ 16) (roundUp bytes step / 2 ^ 16) then (va, pa) else (0, 0)

/-- The head command of a queue, with Shegus's choices. -/
def State.queueEvent (s : State) (q : Nat) : List Instr :=
  match s.headCommand q with
  | none => []
  | some e =>
    let large := bit (cmdArg e 2) 2
    match cmdOp e with
    | 1 => [.identify q]
    | 2 => [.jobOpen q (((List.range 4096).find? fun j => (s.job? j).isNone).getD 0)]
    | 3 => [.jobClose q]
    | 4 => [.shegusLaunch q]
    | 5 =>
      let p := s.pickAlloc (cmdArg e 0) (bits (cmdArg e 2) 1 1) (if large then 2 ^ 29 else 2 ^ 16) (cmdArg e 1)
      [.alloc q p.1 p.2]
    | 6 => [.free q]
    | 7 =>
      let p := s.pickAlloc (cmdArg e 0) 0 (2 ^ 16) (cmdArg e 1)
      [.window q (if p = (0, 0) then 1 else p.2)]
    | 8 => [.collgrp q]
    | 9 => [.jobResume q]
    | 10 => [.jobAbort q]
    | 11 => [.attest q]
    | 12 => [.fwload q]
    | 13 => [.errors q]
    | 14 => [.powercap q]
    | _ => []

/-- The lanes in the order in which their gangs became eligible, so that a gang that spins holds up no other lane. -/
def State.laneOrder (s : State) : List (Nat × Nat) :=
  ((sortNat (s.gangs.filterMap (·.eligible))).filterMap fun n =>
    (s.gangs.find? fun g => g.eligible == some n).map fun g => ((s.team g.team).quad, g.lane)).eraseDups

/-- The lane's own rows, last. -/
def State.laneEvents (s : State) : List Instr :=
  let lanes := (s.folds.map fun f => (f.quad, f.lane)).eraseDups
  (s.gangs.map fun g => Instr.clauseFetch g.id) ++ (s.laneOrder.map fun l => Instr.clauseIssue l.1 l.2) ++
  (s.folds.flatMap fun f => [Instr.foldAgeLimit f.id, Instr.foldIssue f.id]) ++ lanes.map fun l => Instr.gangDemotion l.1 l.2

/-- Every row that may have something to do. Rows from outside the device, the clock's and the rejection of a page fault
come from the agenda alone. -/
def State.candidates (s : State) : List Instr :=
  s.poolEvents ++ (s.results.map fun r => Instr.longResultWrite r.id) ++ s.homeEvents ++ s.clusterEvents ++ s.copyEvents ++
  s.matrixEvents ++ s.gridEvents ++ s.messageEvents ++ s.timerEvents ++ (List.range 16).flatMap s.queueEvent ++ s.laneEvents

/-- The time at which a die's clock will have reached a count. -/
def State.atClock (s : State) (die count : Nat) : Nat :=
  s.now + if s.rate die = 0 then count else (count * (16 * clockUnits) - s.dieTicks die + s.rate die - 1) / s.rate die

/-- The times at which something falls due. -/
def State.dueTimes (s : State) : List Nat :=
  (s.accesses.filterMap fun a => match a.state with | .rejected t => some (s.atClock (s.accessDie a) t) | _ => none) ++
  (s.reqs.filterMap fun r => match r.state with | .rejected t => some (s.atClock (placeDie r.src) t) | _ => none) ++
  (s.sendBuf.map fun m => s.atClock (placeDie m.port) m.retryAt) ++
  (s.folds.map fun f => s.atClock (f.quad / 32) (f.since + foldLimit (s.grid (s.team f.team).grid))) ++
  (s.gangs.map fun g => s.atClock ((s.team g.team).quad / 32) (g.idleSince + foldLimit (s.grid (s.team g.team).grid))) ++
  (s.jobs.filterMap fun j => if j.stands.isSome then none else some (j.waveAt + micros j.period)) ++ (s.grids.filterMap fun g => g.proposed.map (· + micros 10)) ++
  (s.grids.filterMap fun g => (s.watchdogWindow g).map (g.progress + ·)) ++
  (s.clusters.filterMap fun c => c.preempt.map (· + forcedLimit (s.job c.job))) ++
  (s.side.map fun e => s.atClock (logDie e.log) (getKey s.replays e.log 0 + 4096))

/-- How long nothing happens: until the next due time, or one nominal clock. -/
def State.idleClocks (s : State) : Nat :=
  match s.dueTimes.filter fun t => decide (s.now < t) with
  | [] => clockUnits
  | t :: ts => ts.foldl min t - s.now

/-- The gang whose word the policy takes next. -/
def State.runner (s : State) : Option Gang := s.gangs.find? fun g => g.status == .running

/-- The choice of the policy: the word of a running gang, else the first row that has something to do, else the clocks
go on. -/
def State.policy (s : State) : Choice :=
  match s.runner with
  | some g => .word g.id
  | none =>
    match s.candidates.find? fun i => afterExec i s != s with
    | some i => .event i
    | none => .tick s.idleClocks

/-- The choice that the step takes: the agenda's first, where there is one. -/
def State.nextChoice (s : State) : Choice × State :=
  match s.agenda with
  | [] => (s.policy, s)
  | c :: cs => (c, { s with agenda := cs })

/-! ### Running a choice -/

/-- What follows a row at once. -/
def settled (o : Host.Outcome State Fault Refusal) : Host.Outcome State Fault Refusal :=
  match o with
  | .next s => .next s.settle
  | .fault r => .fault r
  | .refused r => .refused r

/-- A gang runs a word: it is the issuing gang of the step. -/
def State.issuing (s : State) (gang : Nat) : State := { s with cur := some gang }

/-- A running gang runs its next word; a word that is no instruction traps (R54 to R56). -/
def runGang (g : Gang) (s : State) : Host.Outcome State Fault Refusal :=
  match g.nextWord with
  | .ok i => settled (exec i (s.issuing g.id))
  | d => settled (.next (runIllegal d (s.issuing g.id)))

/-- Take a choice. A choice that is not open to the machine changes nothing. -/
def runChoice (c : Choice) (s : State) : Host.Outcome State Fault Refusal :=
  match c with
  | .event i => settled (exec i s)
  | .tick n => .next { s with now := s.now + n }
  | .word id =>
    match s.gang? id with
    | none => .next s
    | some g => if g.status == .running then runGang g s else .next s
  | .message die m => settled (.next (s.takeMessageOff die m))
  | .peerWrite die dev pa bytes => settled (.next (s.peerWriteIn die dev pa bytes))
  | .register offset v => settled (registerAccess offset v s)
  | .replicaFirst cmd line k => .next (s.replicaFirst cmd line k)
  | .wavePeriod job us => .next (s.setPeriod job us)

/-! ### A program from outside (DESIGN CHOICE, notes/assumptions/36.md) -/

/-- A job, a grid, a cluster and a team of one thread on quad 0 at system level, with its gang at word 1 of a fetched
clause of one word: what a launch and a clause fetch leave. -/
def State.hosting (s : State) (w : DWord) : State :=
  let n := s.nextId
  let grid := s.gridNum + 1
  { s with
    agenda := [], nextId := n + 3, gridNum := grid,
    jobs := s.jobs ++ (if (s.job? 0).isSome then [] else [{ id := 0 }]),
    grids := s.grids ++ [{ id := grid, regs := 192, leader := some 0, next := 1, placed := [(0, 0)], turn := 1, lowered := true, sys := true }],
    clusters := s.clusters ++ [{ id := n, grid, quads := [0], share := 65536, regions := List.replicate 64 none,
                                 offs := List.replicate 128 0 }],
    teams := s.teams ++ [{ id := n + 1, cluster := n, grid, ntid := 1, alloc := 192, sys := true, gregs := List.replicate 63 0,
                           fregs := List.replicate 16 0xC60E, events := [0, 0, 0, 0, 0], chans := List.replicate 64 0 }],
    matrix := s.matrix ++ [{ team := n + 1 }],
    threads := s.threads ++ [freshThread (n + 1) 0 192 0],
    sets := s.sets ++ [{ port := 0, au := 1 }],
    gangs := s.gangs ++ [{ id := n + 2, team := n + 1, members := [0], sys := true, status := .running, header := 1, clause := [w],
                           word := 1 }] }

/-- The state in which the next step runs a given word: the next word of the gang that runs, or of a gang made for it. -/
def State.placeWord (s : State) (w : DWord) : State :=
  match s.runner with
  | some g => { s with agenda := [] }.updGang g.id fun g => { g with clause := g.clause.set (g.word - 1) w }
  | none => s.hosting w

end Sys2Proof.Machine
end

