-- ==== Sys2Proof/Machine/Step.lean ====
section
/-! DEFINITION. One step of the device: one row of the opcode table, a word of a gang or an event, with what follows it
at once; or clocks that pass. -/

namespace Sys2Proof.Machine

open Sys2Proof

/-- One step. The agenda chooses what runs; where it is empty, the policy does (DESIGN CHOICE, notes/assumptions/3.md). -/
def step (s : State) : Host.Outcome State Fault Refusal := runChoice s.nextChoice.1 s.nextChoice.2

/-- The state in which the next step runs the word `w` (DESIGN CHOICE, notes/assumptions/36.md). Every word has 64 bits. -/
def State.withFetchWord (s : State) (_nbits w : Nat) : State := s.placeWord (BitVec.ofNat 64 w)

end Sys2Proof.Machine
end

