-- ==== Sys2Proof/Safety.lean ====
section
/-! DEFINITION. What a sound state is, and the terms that statements about words are written in: when a gang runs a word,
what it means that a word commits, and what a result in registers, in predicates, in a channel or owed for later leaves. -/

namespace Sys2Proof.Machine

open Sys2Proof

/-! ### Sound states -/

/-- Every byte memory of the device is in its canonical form: physical memory, the pools of the clusters, and a team's
palette rows, easels and accumulator banks (DESIGN CHOICE, notes/assumptions/4.md). -/
def State.canonical (s : State) : Prop :=
  memWf s.mem = true ∧ (∀ c ∈ s.clusters, memWf c.pool = true) ∧
  ∀ m ∈ s.matrix, memWf m.easel = true ∧ (∀ p ∈ m.slots, memWf p.rows = true) ∧ ∀ b ∈ m.banks, memWf b.bytes = true

/-- A team record of the given number is listed. -/
def State.listed (s : State) (team : Nat) : Bool := s.teams.any fun t => t.id == team

/-- Outstanding results are numbered below the next number, from 1 on; the team of every gang, fold and thread on its way
into a fold is listed. -/
def State.recordsSound (s : State) : Prop :=
  (0 < s.nextId ∧ ∀ t ∈ s.tickets, 0 < t.id ∧ t.id < s.nextId) ∧
  (∀ g ∈ s.gangs, s.listed g.team = true) ∧ (∀ f ∈ s.folds, s.listed f.team = true) ∧
  (∀ f ∈ s.overflow, s.listed f.team = true) ∧ ∀ f ∈ s.filing, s.listed f.team = true

/-! ### Words that run -/

/-- The issuing gang comes to word `i` with the Active threads and the glazed set of `c`. -/
def Issues (i : Instr) (s : State) (c : Ctx) : Prop := s.recordsSound ∧ ctxOf i s = some c

/-- It runs the word: the checks of R54 to R56 pass. -/
def Runs (i : Instr) (s : State) (c : Ctx) : Prop := Issues i s c ∧ wordTrap i c = none

/-- Word `i` commits for all its Active threads with occupancy `occ`, and leaves `u` for the gang to go on from. -/
def Commits (i : Instr) (s : State) (c : Ctx) (occ : Nat) (u : State) : Prop :=
  exec i s = .next (finish c (.done u occ))

/-- Word `i` is held: its gang stands at it with nothing committed and nothing else changed (R89). -/
def HoldsAt (i : Instr) (s : State) (c : Ctx) (w : Wait) : Prop :=
  exec i s = .next (s.updGang c.gid fun g => { g with status := .held w, idleSince := s.dieClock (c.tm.quad / 32) })

/-- Word `i` traps at its first Active thread: nothing committed, every Active thread in the trap mask (R87, R365). -/
def TrapsAt (i : Instr) (s : State) (c : Ctx) (cause : Cause) (addr info : Nat) : Prop :=
  exec i s = .next (s.takeTrap c.gid (some cause) c.gang.done c.act c.gang.word addr info c.gang.nextPc)

/-! ### Operands -/

/-- The sources of the Active threads in rank order, registers from before the word and channels popped as each thread
comes to them, and the state with the popped messages gone (R45, R320). -/
def gatherSrcs (c : Ctx) (srcs : List (Nat × Nat)) : State → List Nat → List (List Nat) × State
  | s, [] => ([], s)
  | s, r :: rs =>
    let one := readSrcs c r s srcs
    let more := gatherSrcs c srcs one.2 rs
    (one.1 :: more.1, more.2)

/-- Every channel that a source names is configured to receive and holds all the messages that the word takes (R320), and
where the word takes any, its place has a counter set for the job or a free one (R322). -/
def SourcesReady (c : Ctx) (s : State) (srcs : List (Nat × Nat)) : Prop :=
  c.act = [] ∨ (srcFault c.tm srcs = none ∧ (∀ p ∈ channelNeed srcs c.act.length, p.2 ≤ (s.rx c.tm.id p.1).length) ∧
    (popsChannel srcs = true → s.canCount c.tm.quad c.tm.job = true))

/-- The results of the Active threads in rank order. -/
def resultsOf (c : Ctx) (s : State) (srcs : List (Nat × Nat)) (f : Nat → List Nat → AluOut) : List AluOut :=
  (c.act.zip (gatherSrcs c srcs s c.act).1).map fun p => f p.1 p.2

/-! ### Results in registers -/

/-- Register `i` of plane `k` of a thread record that exists and has it; a g register of a team that exists and has it. -/
def Holds (s : State) (team rank k i : Nat) : Prop :=
  if i < 192 then
    (s.threads.any fun t => t.team == team && t.rank == rank) = true ∧ i < (s.team team).alloc ∧
      k * (s.team team).alloc + i < (s.thread team rank).regs.length
  else i < 255 ∧ (s.teams.any fun t => t.id == team) = true ∧ k * 63 + (i - 192) < (s.team team).gregs.length

/-- From `s` to `u` nothing but register files differs, and no record comes or goes. -/
def OnlyRegs (s u : State) : Prop :=
  u = { s with threads := u.threads, teams := u.teams } ∧
  (u.threads.map fun (t : Thread) => { t with regs := [] }) = (s.threads.map fun (t : Thread) => { t with regs := [] }) ∧
  (u.teams.map fun (t : Team) => { t with gregs := [] }) = (s.teams.map fun (t : Team) => { t with gregs := [] })

/-- The word `j` of an `n`-register value. -/
def valueWord (v j : Nat) : Word := BitVec.ofNat 32 (v / 2 ^ (32 * j))

/-- The result of a thread among the results of the Active threads. -/
def resultFor {α : Type} (act : List Nat) (os : List α) (rank : Nat) : Option α :=
  ((act.zip os).reverse.find? fun q => q.1 == rank).map (·.2)

/-- D takes the results `os` of the Active threads, in rank order, with their layers: v registers take each thread's, a
g register the lowest-ranked thread's, zr nothing; no other register changes (R43, R110, R111, R160, R162). -/
def RegistersTake (c : Ctx) (s u : State) (d n : Nat) (os : List AluOut) : Prop :=
  OnlyRegs s u ∧
  (d < 255 → ∀ r, d < 192 ∨ r = c.lead → ∀ o, resultFor c.act os r = some o →
    ∀ k ≤ c.tm.depth, ∀ j < n, Holds s c.tm.id r k (d + j) →
      u.reg c.tm.id r k (d + j) = valueWord (if k = 0 then o.val else o.tans.getD (k - 1) 0) j) ∧
  ∀ team rank k i, (Holds s team rank k i ∨ i = 255) →
    ¬ (team = c.tm.id ∧ d ≤ i ∧ i < d + n ∧ d < 255 ∧ k ≤ c.tm.depth ∧ (d < 192 → rank ∈ c.act)) →
    u.reg team rank k i = s.reg team rank k i

/-- The numeric events of the results are counted, thread by thread (R153). -/
def countAll (c : Ctx) (s : State) (os : List AluOut) : State := os.foldl (fun s o => s.countEvents c.gid c.tm o.ev) s

/-- The messages of one element that results through channel entry `q` become on pod device `pod`, from number `id` on
(R317, R320). -/
def messagesOf (c : Ctx) (pod q id : Nat) : List Nat → List AluOut → List Message
  | r :: rs, o :: os =>
    { id, port := c.tm.quad, dev := pod, quad := c.tm.quad, team := c.tm.id, rank := r, entry := q, job := c.tm.job,
      image := c.tm.chans.getD q 0, elems := [BitVec.ofNat 64 o.val], rel := 0 } :: messagesOf c pod q (id + 1) rs os
  | _, _ => []

/-- A word whose sources are not ready: a channel that is not configured to receive traps before anything, and missing
messages, or the want of a counter set for those it takes, hold the whole word (R45, R320, R322). -/
def WaitsForSources (i : Instr) (s : State) (c : Ctx) (srcs : List (Nat × Nat)) : Prop :=
  c.act ≠ [] →
    (∀ cause, srcFault c.tm srcs = some cause → TrapsAt i s c cause 0 0) ∧
    (srcFault c.tm srcs = none → (∃ p ∈ channelNeed srcs c.act.length, (s.rx c.tm.id p.1).length < p.2) →
      HoldsAt i s c (.channels c.tm.id (channelNeed srcs c.act.length))) ∧
    (srcFault c.tm srcs = none → (∀ p ∈ channelNeed srcs c.act.length, p.2 ≤ (s.rx c.tm.id p.1).length) →
      popsChannel srcs = true → s.canCount c.tm.quad c.tm.job = false → HoldsAt i s c (.counterSet c.tm.quad c.tm.job))

/-- A channel destination that cannot be sent through traps at the first Active thread (R320). -/
def CannotSend (i : Instr) (s : State) (c : Ctx) (srcs : List (Nat × Nat)) (d : Nat) : Prop :=
  256 ≤ d → c.act ≠ [] → SourcesReady c s srcs →
    ∀ cause, s.sendFault c.tm (c.tm.chans.getD (d - 256) 0) [1, 2, 3] = some cause → TrapsAt i s c cause 0 0

/-- A word with a short result (R111): where its sources are ready and no thread's computation traps, it commits. With a
register destination the results go to D; through a channel that may be sent to, with room, they become messages. -/
def ShortCommit (i : Instr) (s : State) (c : Ctx) (srcs : List (Nat × Nat)) (d n occ : Nat) (f : Nat → List Nat → AluOut) :
    Prop :=
  let g := (gatherSrcs c srcs s c.act).2
  let os := resultsOf c s srcs f
  SourcesReady c s srcs → (∀ o ∈ os, o.trap = none) →
    (d < 256 → ∃ u, Commits i s c occ (countAll c u os) ∧ RegistersTake c g u d n os) ∧
    (256 ≤ d → s.sendFault c.tm (c.tm.chans.getD (d - 256) 0) [1, 2, 3] = none → s.sendRoom c.tm.quad c.act.length = true →
      (s.sets.any fun k => k.port == c.tm.quad && k.job == c.tm.job) = true →
      ∃ u, Commits i s c occ (countAll c u os) ∧
        u = { g with nextId := s.nextId + c.act.length, sets := u.sets,
                     sendBuf := s.sendBuf ++ messagesOf c s.pod (d - 256) s.nextId c.act os } ∧
        u.sets = g.sets.map fun k =>
          if k.port == c.tm.quad && k.job == c.tm.job && !c.act.isEmpty then
            { k with mi := (k.mi + c.act.length) % 2 ^ 48, chg := true } else k)

/-- All that a word with a short result does, but for room in the send buffer. -/
def ShortResult (i : Instr) (s : State) (c : Ctx) (srcs : List (Nat × Nat)) (d n occ : Nat) (f : Nat → List Nat → AluOut) :
    Prop :=
  ShortCommit i s c srcs d n occ f ∧ WaitsForSources i s c srcs ∧
    ((∀ o ∈ resultsOf c s srcs f, o.trap = none) → CannotSend i s c srcs d)

/-! ### Results in predicates -/

/-- A word whose results are predicates (R46): each Active thread's predicate `d` takes its result; p7 takes nothing. -/
def PredicateCommit (i : Instr) (s : State) (c : Ctx) (srcs : List (Nat × Nat)) (d occ : Nat) (f : Nat → List Nat → Bool) :
    Prop :=
  let g := (gatherSrcs c srcs s c.act).2
  let xs := (gatherSrcs c srcs s c.act).1
  SourcesReady c s srcs →
    ∃ u, Commits i s c occ u ∧ u = { g with threads := u.threads } ∧
      (u.threads.map fun (t : Thread) => { t with preds := 0 }) = (s.threads.map fun (t : Thread) => { t with preds := 0 }) ∧
      (∀ r ys, resultFor c.act xs r = some ys → d < 7 →
        (s.threads.any fun t => t.team == c.tm.id && t.rank == r) = true → (u.thread c.tm.id r).pred d = f r ys) ∧
      ∀ team rank p, ¬ (team = c.tm.id ∧ rank ∈ c.act ∧ p = d ∧ d < 7) →
        (u.thread team rank).pred p = (s.thread team rank).pred p

/-- All that a word with predicate results does. -/
def PredicateResult (i : Instr) (s : State) (c : Ctx) (srcs : List (Nat × Nat)) (d occ : Nat) (f : Nat → List Nat → Bool) :
    Prop :=
  PredicateCommit i s c srcs d occ f ∧ WaitsForSources i s c srcs

/-! ### Results owed for later -/

/-- The register writes of one thread's long result, as the results that carry them: one for each register, with its
layers; one without a write where D is zr (R73, R168). -/
def resultActs (depth d n : Nat) (o : AluOut) : List ResultAct :=
  if d = 255 then [.nothing]
  else (List.range n).map fun j =>
    .regs ((List.range (depth + 1)).map fun k => (k, d + j, valueWord (if k = 0 then o.val else o.tans.getD (k - 1) 0) j))

/-- What the Active threads are owed, in rank order: (rank, act). -/
def owedActs (c : Ctx) (d n : Nat) (os : List AluOut) : List (Nat × ResultAct) :=
  (c.act.zip os).flatMap fun q =>
    if 256 ≤ d then [(q.1, .send (d - 256) (c.tm.chans.getD (d - 256) 0) (BitVec.ofNat 64 q.2.val))]
    else if 192 ≤ d && d < 255 && q.1 != c.lead then []
    else (resultActs c.tm.depth d n q.2).map fun a => (q.1, a)

/-- A word with a long result of class `cls` (R72 to R74): where its sources are ready and no thread's computation traps,
it commits and owes the results under one ticket, which holds up its gang's counter; with no Active thread nothing is
owed. -/
def LongCommit (i : Instr) (s : State) (c : Ctx) (cls : Nat) (srcs : List (Nat × Nat)) (d n occ : Nat)
    (f : Nat → List Nat → AluOut) : Prop :=
  let g := (gatherSrcs c srcs s c.act).2
  let os := resultsOf c s srcs f
  let owed := owedActs c d n os
  SourcesReady c s srcs → (∀ o ∈ os, o.trap = none) →
  (d < 256 ∨ s.sendFault c.tm (c.tm.chans.getD (d - 256) 0) [1, 2, 3] = none) →
    ∃ u, Commits i s c occ (countAll c u os) ∧
      u = { g with nextId := u.nextId, tickets := u.tickets, results := u.results } ∧
      (c.act = [] → u = s) ∧
      (c.act ≠ [] →
        u.nextId = s.nextId + 1 + owed.length ∧
        u.tickets = s.tickets ++
          [{ id := s.nextId, cls, team := c.tm.id, gangs := [c.gid], parts := owed.map (·.1) }] ∧
        u.results = s.results ++ owed.mapIdx fun k a =>
          ({ id := s.nextId + 1 + k, ticket := s.nextId, team := c.tm.id, rank := a.1, act := a.2 } : LongResult))

/-- All that a word with a long result does. -/
def LongWordResult (i : Instr) (s : State) (c : Ctx) (cls : Nat) (srcs : List (Nat × Nat)) (d n occ : Nat)
    (f : Nat → List Nat → AluOut) : Prop :=
  LongCommit i s c cls srcs d n occ f ∧ WaitsForSources i s c srcs ∧ CannotSend i s c srcs d

end Sys2Proof.Machine
end

