-- ==== Sys2Proof/Certificates/Slice0/Obligations.lean ====
section
/-! DEFINITION. The statements for the provers: what each row of the opcode table does, family by family, what the machine
does around it, and what every step keeps. -/

open Sys2Proof Sys2Proof.Machine
/-! ### What the entries compute -/

namespace Sys2Proof.Spec

/-- Lanes, lane width and signedness of an integer type (04_integer.md R111). -/
def lanes (t : Nat) : Nat := if t = 4 ∨ t = 13 then 4 else 1
def laneWidth (t : Nat) : Nat := if t = 4 ∨ t = 13 then 8 else if t = 2 ∨ t = 3 then 64 else 32
def isSigned (t : Nat) : Bool := t = 0 ∨ t = 2 ∨ t = 4

/-- A lane of a value, read as its type. -/
def lane (t v j : Nat) : Int :=
  let x : BitVec (laneWidth t) := BitVec.ofNat _ (v / 2 ^ (laneWidth t * j))
  if isSigned t then x.toInt else x.toNat

/-- The exact result `e` in a lane: modulo 2^w, or clamped to the type's range (R111). -/
def narrowed (t : Nat) (sat : Bool) (e : Int) : Nat :=
  let w := laneWidth t
  let lo : Int := if isSigned t then -2 ^ (w - 1) else 0
  let hi : Int := if isSigned t then 2 ^ (w - 1) - 1 else 2 ^ w - 1
  (BitVec.ofInt w (if sat then (if e < lo then lo else if hi < e then hi else e) else e)).toNat

/-- Source `k` of a thread. -/
def src (xs : List Nat) (k : Nat) : Nat := xs.getD k 0

/-- An integer form computed lane by lane (R111). -/
def lanewise (w : FmtA) (f : Int → Int → Int → Int) (xs : List Nat) : AluOut :=
  let t := w.t.toNat
  let r := fun j => narrowed t (w.m.toNat = 16) (f (lane t (src xs 0) j) (lane t (src xs 1) j) (lane t (src xs 2) j))
  { val := ((List.range (lanes t)).map fun j => r j * 2 ^ (8 * j)).sum }

/-- The width of a raw or floating type in bits, and its registers (R47). -/
def width (t : Nat) : Nat := if t = 2 ∨ t = 3 ∨ t = 6 ∨ t = 12 then 64 else 32
def regs (t : Nat) : Nat := width t / 32

/-- R71's occupancy: 4 threads a clock, 2 with a 64-bit value, at least 6 clocks. -/
def clocks (threads perClock : Nat) : Nat := max 6 ((threads + perClock - 1) / perClock)
def typedClocks (c : Ctx) (t : Nat) : Nat := clocks c.act.length (if width t = 64 then 2 else 4)

/-- The source fields of a format A word at its type. -/
def one (w : FmtA) : List (Nat × Nat) := [(w.s1.toNat, regs w.t.toNat)]
def two (w : FmtA) : List (Nat × Nat) := one w ++ [(w.s2.toNat, regs w.t.toNat)]
def three (w : FmtA) : List (Nat × Nat) := two w ++ [(w.s3.toNat, regs w.t.toNat)]
/-- S1 at the type's width and a 32-bit S2. -/
def oneAndWord (w : FmtA) : List (Nat × Nat) := one w ++ [(w.s2.toNat, 1)]
def words (w : FmtA) (k : Nat) : List (Nat × Nat) := [(w.s1.toNat, 1), (w.s2.toNat, 1), (w.s3.toNat, 1)].take k

/-- A form on raw bits, as a bit vector of the type's width (R114). -/
def onBits (w : FmtA) (f : (n : Nat) → BitVec n → BitVec n → BitVec n) (xs : List Nat) : AluOut :=
  { val := (f (width w.t.toNat) (BitVec.ofNat _ (src xs 0)) (BitVec.ofNat _ (src xs 1))).toNat }

/-- The number whose bit `j`, for `j` below `n`, is `f j`. -/
def fromBits (n : Nat) (f : Nat → Bool) : Nat := ((List.range n).map fun j => if f j then 2 ^ j else 0).sum

/-- A format I immediate at its width: with H = 1 sign-extended to 64 bits (R113). -/
def immediate (w : FmtI) : Nat := if w.h = 1 then (w.imm.signExtend 64).toNat else w.imm.toNat

/-- Bits `[pos + n - 1 : pos]` moved down, with copies of the top one above where signed (BFX, R116). -/
def extracted (w : FmtA) (x ctl : Nat) : Nat :=
  let wd := width w.t.toNat
  let pos := ctl % 2 ^ 8
  let len := ctl / 2 ^ 8 % 2 ^ 8
  let n := min len (wd - pos)
  if wd ≤ pos ∨ len = 0 then 0
  else fromBits wd fun j => if j < n then x.testBit (pos + j) else isSigned w.t.toNat && x.testBit (pos + n - 1)

/-- `base` with bits `[pos + n - 1 : pos]` taken from the low bits of `ins` (BFI, R116). -/
def inserted (w : FmtA) (base ins ctl : Nat) : Nat :=
  let wd := width w.t.toNat
  let pos := ctl % 2 ^ 8
  let len := ctl / 2 ^ 8 % 2 ^ 8
  let n := min len (wd - pos)
  if wd ≤ pos ∨ len = 0 then base
  else fromBits wd fun j => if pos ≤ j ∧ j < pos + n then ins.testBit (j - pos) else base.testBit j

/-- A condition of ISETP (R117). -/
def holds (cond : Nat) (x y : Int) : Bool :=
  if cond = 0 then x = y else if cond = 1 then x ≠ y else if cond = 2 then x < y else if cond = 3 then x ≤ y
  else if cond = 4 then x > y else x ≥ y

end Sys2Proof.Spec

open Sys2Proof.Spec

/-! ### Integer words -/

/-- Two- and three-source integer arithmetic: the exact result of each lane, wrapped or clamped (04_integer.md R111, R112). -/
def Sys2Proof.Spec.IntegerArithmeticResults : Prop :=
  ∀ p ∈ ([(.iadd, two, fun x y _ => x + y), (.isub, two, fun x y _ => x - y), (.imul, two, fun x y _ => x * y),
      (.imad, three, fun x y z => x * y + z), (.imin, two, fun x y _ => if x ≤ y then x else y),
      (.imax, two, fun x y _ => if x ≤ y then y else x), (.iabs, one, fun x _ _ => (x.natAbs : Int)),
      (.ineg, one, fun x _ _ => -x)] :
      List ((FmtA → Instr) × (FmtA → List (Nat × Nat)) × (Int → Int → Int → Int))),
    ∀ w s c, Runs (p.1 w) s c →
      ShortResult (p.1 w) s c (p.2.1 w) w.d.toNat (regs w.t.toNat) (typedClocks c w.t.toNat) fun _ => lanewise w p.2.2

/-- IMULH: the high half of the exact product (R112). -/
def Sys2Proof.Spec.IntegerHighProductResult : Prop :=
  ∀ w s c, Runs (.imulh w) s c →
    ShortResult (.imulh w) s c (two w) w.d.toNat (regs w.t.toNat) (typedClocks c w.t.toNat) fun _ xs =>
      let n := width w.t.toNat
      let x := lane w.t.toNat (src xs 0) 0
      let y := lane w.t.toNat (src xs 1) 0
      { val := (BitVec.ofInt (2 * n) (x * y)).toNat / 2 ^ n }

/-- The forms with an immediate (R113). -/
def Sys2Proof.Spec.ImmediateResults : Prop :=
  (∀ p ∈ ([(.iaddi, fun _ x y => x + y), (.imuli, fun _ x y => x * y), (.andi, fun _ x y => x &&& y),
      (.ori, fun _ x y => x ||| y), (.xori, fun _ x y => x ^^^ y)] : List ((FmtI → Instr) × ((n : Nat) → BitVec n → BitVec n → BitVec n))),
    ∀ w s c, Runs (p.1 w) s c →
      ShortResult (p.1 w) s c [(w.s1.toNat, 1 + w.h.toNat)] w.d.toNat (1 + w.h.toNat)
        (clocks c.act.length (if w.h = 1 then 2 else 4)) fun _ xs =>
          { val := (p.2 (32 * (1 + w.h.toNat)) (BitVec.ofNat _ (src xs 0)) (BitVec.ofNat _ (immediate w))).toNat }) ∧
  ∀ w s c, Runs (.movi w) s c →
    ShortResult (.movi w) s c [] w.d.toNat (1 + w.h.toNat) (clocks c.act.length (if w.h = 1 then 2 else 4)) fun _ _ =>
      { val := immediate w }

/-- AND, OR, XOR, NOT (R114). -/
def Sys2Proof.Spec.LogicResults : Prop :=
  ∀ p ∈ ([(.and, two, fun _ x y => x &&& y), (.or, two, fun _ x y => x ||| y), (.xor, two, fun _ x y => x ^^^ y),
      (.not, one, fun _ x _ => ~~~x)] :
      List ((FmtA → Instr) × (FmtA → List (Nat × Nat)) × ((n : Nat) → BitVec n → BitVec n → BitVec n))),
    ∀ w s c, Runs (p.1 w) s c →
      ShortResult (p.1 w) s c (p.2.1 w) w.d.toNat (regs w.t.toNat) (typedClocks c w.t.toNat) fun _ => onBits w p.2.2

/-- POPC, CLZ and BREV (R114): the number of set bits, of zero bits above the highest set one, and the reversed bits. -/
def Sys2Proof.Spec.BitCountResults : Prop :=
  ∀ w s c,
    (Runs (.popc w) s c → ShortResult (.popc w) s c (one w) w.d.toNat 1 (typedClocks c w.t.toNat) fun _ xs =>
      { val := ((List.range (width w.t.toNat)).filter fun j => (src xs 0).testBit j).length }) ∧
    (Runs (.clz w) s c → ShortResult (.clz w) s c (one w) w.d.toNat 1 (typedClocks c w.t.toNat) fun _ xs =>
      { val := if src xs 0 = 0 then width w.t.toNat else width w.t.toNat - 1 - Nat.log2 (src xs 0) }) ∧
    (Runs (.brev w) s c →
      ShortResult (.brev w) s c (one w) w.d.toNat (regs w.t.toNat) (typedClocks c w.t.toNat) fun _ xs =>
        { val := fromBits (width w.t.toNat) fun j => (src xs 0).testBit (width w.t.toNat - 1 - j) })

/-- SHL, SHR, SAR and FSH (R115): a count of the width or more leaves zero, or for SAR all sign bits. -/
def Sys2Proof.Spec.ShiftResults : Prop :=
  ∀ w s c,
    (∀ p ∈ ([(.shl, fun n x k => (BitVec.ofNat n x <<< k).toNat), (.shr, fun n x k => (BitVec.ofNat n x >>> k).toNat),
        (.sar, fun n x k => ((BitVec.ofNat n x).sshiftRight k).toNat)] : List ((FmtA → Instr) × (Nat → Nat → Nat → Nat))),
      Runs (p.1 w) s c →
      ShortResult (p.1 w) s c (oneAndWord w) w.d.toNat (regs w.t.toNat) (typedClocks c w.t.toNat) fun _ xs =>
        { val := p.2 (width w.t.toNat) (src xs 0) (src xs 1) }) ∧
    (Runs (.fsh w) s c → ShortResult (.fsh w) s c (words w 3) w.d.toNat 1 (clocks c.act.length 4) fun _ xs =>
      { val := ((BitVec.ofNat 32 (src xs 0) ++ BitVec.ofNat 32 (src xs 1) : BitVec 64) >>> (src xs 2 % 64)).toNat % 2 ^ 32 })

/-- BFX and BFI (R116). -/
def Sys2Proof.Spec.BitFieldResults : Prop :=
  ∀ w s c,
    (Runs (.bfx w) s c →
      ShortResult (.bfx w) s c (oneAndWord w) w.d.toNat (regs w.t.toNat) (typedClocks c w.t.toNat) fun _ xs =>
        { val := extracted w (src xs 0) (src xs 1) }) ∧
    (Runs (.bfi w) s c →
      ShortResult (.bfi w) s c (two w ++ [(w.s3.toNat, 1)]) w.d.toNat (regs w.t.toNat) (typedClocks c w.t.toNat) fun _ xs =>
        { val := inserted w (src xs 0) (src xs 1) (src xs 2) })

/-- The layers of the register that a thread takes its value from, for the layers in G; a channel carries none (R120). -/
def Sys2Proof.Spec.carried (c : Ctx) (rank field n : Nat) : List Nat :=
  (List.range c.tm.depth).map fun k =>
    if (k + 1) ∈ c.g ∧ field < 512 then c.s.regs c.tm.id rank (k + 1) field n else 0

/-- MOV and SEL carry the layers in G (R118, R120); ICVT, IDOT4, LEA, and PMOV to a register (R119, R121 to R123). -/
def Sys2Proof.Spec.MoveAndConvertResults : Prop :=
  ∀ w s c,
    (Runs (.mov w) s c →
      ShortResult (.mov w) s c (one w) w.d.toNat (regs w.t.toNat) ((1 + c.g.length) * typedClocks c w.t.toNat) fun r xs =>
        { val := src xs 0, tans := carried c r w.s1.toNat (regs w.t.toNat) }) ∧
    (Runs (.sel w) s c →
      ShortResult (.sel w) s c (two w) w.d.toNat (regs w.t.toNat) ((1 + c.g.length) * typedClocks c w.t.toNat) fun r xs =>
        let first := (c.s.thread c.tm.id r).pred w.s3.toNat
        { val := if first then src xs 0 else src xs 1,
          tans := carried c r (if first then w.s1.toNat else w.s2.toNat) (regs w.t.toNat) }) ∧
    (Runs (.icvt w) s c →
      ShortResult (.icvt w) s c [(w.s1.toNat, regs w.s2.toNat)] w.d.toNat (regs w.t.toNat) (typedClocks c w.t.toNat) fun _ xs =>
        { val := narrowed w.t.toNat (w.m.toNat = 16) (lane w.s2.toNat (src xs 0) 0) }) ∧
    (Runs (.idot4 w) s c → ShortResult (.idot4 w) s c (words w 3) w.d.toNat 1 (clocks c.act.length 4) fun _ xs =>
      let t := w.t.toNat
      { val := narrowed (if t = 4 then 0 else 1) (w.m.toNat = 16)
          (lane (if t = 4 then 0 else 1) (src xs 2) 0 +
            ((List.range 4).map fun j => lane t (src xs 0) j * lane t (src xs 1) j).sum) }) ∧
    (Runs (.lea w) s c →
      ShortResult (.lea w) s c [(w.s1.toNat, 2), (w.s2.toNat, 1), (w.s3.toNat, 1)] w.d.toNat 2 (clocks c.act.length 4) fun _ xs =>
        { val := (BitVec.ofInt 64 (src xs 0 + lane w.t.toNat (src xs 1) 0 * src xs 2)).toNat }) ∧
    (Runs (.pmovGet w) s c → ShortResult (.pmovGet w) s c [] w.d.toNat 1 (clocks c.act.length 4) fun r _ =>
      { val := fromBits 8 fun p => (c.s.thread c.tm.id r).pred p }) ∧
    (Runs (.pmovSel w) s c → ShortResult (.pmovSel w) s c [] w.d.toNat 1 (clocks c.act.length 4) fun r _ =>
      { val := if (c.s.thread c.tm.id r).pred w.s1.toNat then 1 else 0 })

/-- ISETP, PLOP and PMOV to one predicate (R117, R119). -/
def Sys2Proof.Spec.PredicateResults : Prop :=
  ∀ w s c,
    (Runs (.isetp w) s c →
      PredicateResult (.isetp w) s c (two w) w.d.toNat (typedClocks c w.t.toNat) fun r xs =>
        holds (w.s3.toNat % 8) (lane w.t.toNat (src xs 0) 0) (lane w.t.toNat (src xs 1) 0) &&
          ((c.s.thread c.tm.id r).pred (w.s3.toNat / 8 % 8) ^^ w.s3.toNat.testBit 6)) ∧
    (Runs (.plop w) s c →
      PredicateResult (.plop w) s c [] w.d.toNat (clocks c.act.length 4) fun r _ =>
        let a := (c.s.thread c.tm.id r).pred w.s1.toNat
        let b := (c.s.thread c.tm.id r).pred w.s2.toNat
        [a && b, a || b, a ^^ b, a && !b, a || !b, !(a && b), !(a || b), !(a ^^ b)].getD w.t.toNat false) ∧
    (Runs (.pmovNz w) s c →
      PredicateResult (.pmovNz w) s c (words w 1) w.d.toNat (clocks c.act.length 4) fun _ xs => src xs 0 ≠ 0)

/-- The words of a context that a shorter list of threads runs. -/
def Sys2Proof.Spec.only (c : Ctx) (act : List Nat) : Ctx := { c with act }

/-- Truncated quotient and its remainder; a zero divisor traps (R124). -/
def Sys2Proof.Spec.quotient (w : FmtA) (xs : List Nat) : AluOut :=
  let x := lane w.t.toNat (src xs 0) 0
  let y := lane w.t.toNat (src xs 1) 0
  if y = 0 then { trap := some .divideByZero }
  else { val := narrowed w.t.toNat (w.m.toNat = 16) ((if (x < 0) = (y < 0) then 1 else -1) * (x.natAbs / y.natAbs : Nat)) }
def Sys2Proof.Spec.remainder (w : FmtA) (xs : List Nat) : AluOut :=
  let x := lane w.t.toNat (src xs 0) 0
  let y := lane w.t.toNat (src xs 1) 0
  if y = 0 then { trap := some .divideByZero }
  else { val := narrowed w.t.toNat (w.m.toNat = 16) ((if x < 0 then -1 else 1) * (x.natAbs % y.natAbs : Nat)) }

/-- IDIV and IREM owe long results of class 2 where no divisor is zero (R124). -/
def Sys2Proof.Spec.DivisionResults : Prop :=
  ∀ p ∈ ([(.idiv, quotient), (.irem, remainder)] : List ((FmtA → Instr) × (FmtA → List Nat → AluOut))),
    ∀ w s c, Runs (p.1 w) s c →
      LongWordResult (p.1 w) s c 2 (two w) w.d.toNat (regs w.t.toNat) (typedClocks c w.t.toNat) fun _ => p.2 w

/-- A zero divisor traps its thread precisely; the threads ranked below it are owed their results (R87, R124). -/
def Sys2Proof.Spec.DivisionByZeroTraps : Prop :=
  ∀ p ∈ ([(.idiv, quotient), (.irem, remainder)] : List ((FmtA → Instr) × (FmtA → List Nat → AluOut))),
    ∀ w s c below r above, Runs (p.1 w) s c → SourcesReady c s (two w) →
      (w.d.toNat < 256 ∨ s.sendFault c.tm (c.tm.chans.getD (w.d.toNat - 256) 0) [1, 2, 3] = none) →
      c.act = below ++ r :: above →
      let os := resultsOf (only c below) s (two w) fun _ => p.2 w
      let g := gatherSrcs c (two w) s below
      let owed := owedActs (only c below) w.d.toNat (regs w.t.toNat) os
      (∀ o ∈ os, o.trap = none) → (p.2 w (readSrcs c r g.2 (two w)).1).trap = some .divideByZero →
      let u : State := { g.2 with
        nextId := s.nextId + 1 + owed.length
        tickets := s.tickets ++ (if below = [] then []
          else [{ id := s.nextId, cls := 2, team := c.tm.id, gangs := [c.gid], parts := owed.map (·.1) }])
        results := s.results ++ owed.mapIdx fun k a =>
          ({ id := s.nextId + 1 + k, ticket := s.nextId, team := c.tm.id, rank := a.1, act := a.2 } : LongResult) }
      exec (p.1 w) s = .next (u.takeTrap c.gid (some .divideByZero) (c.gang.done ++ below) (c.act.filter fun q => !below.contains q)
        c.gang.word 0 0 c.gang.nextPc)

/-! ### Registers by other names -/

/-- The value of special register `n` for a thread (R125). -/
def Sys2Proof.Spec.special (c : Ctx) (rank n : Nat) : Nat :=
  let place := fun i => i % c.grid.gx + i / c.grid.gx % c.grid.gy * 2 ^ 16 + i / (c.grid.gx * c.grid.gy) * 2 ^ 32
  [rank, c.tm.ntid, c.tm.idx, c.cluster.quads.length, place c.cluster.index,
   c.grid.gx + c.grid.gy * 2 ^ 16 + c.grid.gz * 2 ^ 32, c.grid.id, c.grid.nest, c.tm.quad % 32, rank % 32 / 8, rank % 8,
   c.tm.quad / 32, (c.s.thread c.tm.id rank).role.toNat, c.tm.job, c.s.coreClock (4 * c.tm.quad + rank % 32 / 8),
   c.tm.gplane.toNat, c.tm.depth, c.tm.cseg.toNat, (c.s.thread c.tm.id rank).fault.toNat].getD n 0

/-- The special registers of 64 bits (R125). -/
def Sys2Proof.Spec.isWide (n : Nat) : Bool := n ∈ [0x04, 0x05, 0x0E, 0x0F, 0x12]

/-- MOVS reads a special register; MOVSW writes sr.role of each Active thread, or sr.gplane of the team from its
lowest-ranked Active thread, and at system level sr.cseg, whereupon the clause caches of the quad's cores are empty and
every gang of the quad fetches its clause anew (R110, R125, 14_system.md R367). That the team holds one sr.cseg, from
its lowest-ranked Active thread, and that the switch empties the caches of the quad's cores are the model's choices (log
entries 91 and 84). -/
def Sys2Proof.Spec.SpecialRegisterWords : Prop :=
  ∀ w s c,
    (Runs (.movs w) s c →
      ShortResult (.movs w) s c [] w.d.toNat (if isWide w.s1.toNat then 2 else 1)
        (clocks c.act.length (if isWide w.s1.toNat then 2 else 4)) fun r _ => { val := special c r w.s1.toNat }) ∧
    (Runs (.movsw w) s c → w.d.toNat = 0x0C →
      Commits (.movsw w) s c (clocks c.act.length 4) { s with threads := s.threads.map fun (t : Thread) =>
        if t.team = c.tm.id ∧ t.rank ∈ c.act then { t with role := BitVec.ofNat 3 (c.val t.rank w.s1.toNat 1) } else t }) ∧
    (Runs (.movsw w) s c → w.d.toNat = 0x0F →
      Commits (.movsw w) s c (clocks c.act.length 2) { s with teams := s.teams.map fun (t : Team) =>
        if t.id = c.tm.id ∧ c.act ≠ [] then { t with gplane := BitVec.ofNat 64 (c.val c.lead w.s1.toNat 2) } else t }) ∧
    (Runs (.codeSegmentSwitch w) s c → c.act = [] → Commits (.codeSegmentSwitch w) s c 6 s) ∧
    (Runs (.codeSegmentSwitch w) s c → c.act ≠ [] →
      Commits (.codeSegmentSwitch w) s c (clocks c.act.length 4) { s with
        teams := s.teams.map fun (t : Team) =>
          if t.id = c.tm.id then { t with cseg := BitVec.ofNat 32 (c.val c.lead w.s1.toNat 1) } else t,
        code := s.code.filter fun q => q.1 / 4 ≠ c.tm.quad,
        gangs := s.gangs.map fun (g : Gang) =>
          if (s.team g.team).quad = c.tm.quad ∧ g.status = .ready then { g with status := .fetch } else g })

/-- RGET and RPUT leave the computed register alone: plane above the depth, outside the allocation, or an odd pair (R126). -/
def Sys2Proof.Spec.outside (c : Ctx) (n plane index : Nat) : Bool :=
  c.tm.depth < plane ∨ c.tm.alloc < index + n ∨ (n = 2 ∧ index % 2 = 1)

/-- RGET reads and RPUT writes a computed register of a computed plane of the thread itself (R126). RPUT to plane 0
leaves the other layers as they are (the model's choice: log entry 53). -/
def Sys2Proof.Spec.ComputedRegisterWords : Prop :=
  ∀ w s c, let n := regs w.t.toNat
    (Runs (.rget w) s c →
      ShortResult (.rget w) s c [] w.d.toNat n (typedClocks c w.t.toNat) fun r _ =>
        { val := c.tan r (c.val r w.s2.toNat 1) (c.val r w.s1.toNat 1) n,
          trap := if outside c n (c.val r w.s2.toNat 1) (c.val r w.s1.toNat 1) then some .apertureBound else none }) ∧
    (Runs (.rput w) s c → (∀ r ∈ c.act, outside c n (c.val r w.s3.toNat 1) (c.val r w.s2.toNat 1) = false) →
      ∃ u : State, Commits (.rput w) s c (typedClocks c w.t.toNat) u ∧ OnlyRegs s u ∧
        (∀ r ∈ c.act, ∀ j < n, Holds s c.tm.id r (c.val r w.s3.toNat 1) (c.val r w.s2.toNat 1 + j) →
          u.reg c.tm.id r (c.val r w.s3.toNat 1) (c.val r w.s2.toNat 1 + j) = valueWord (c.val r w.s1.toNat n) j) ∧
        ∀ team r k i, Holds s team r k i →
          ¬ (team = c.tm.id ∧ r ∈ c.act ∧ k = c.val r w.s3.toNat 1 ∧ c.val r w.s2.toNat 1 ≤ i ∧ i < c.val r w.s2.toNat 1 + n) →
          u.reg team r k i = s.reg team r k i)

/-- The first thread that computes a register outside its own file traps with aperture-bound; the threads below it have
committed, and hold what they stored (R87, R126). -/
def Sys2Proof.Spec.ComputedRegisterTraps : Prop :=
  ∀ w s c below r above, let n := regs w.t.toNat
    c.act = below ++ r :: above →
    (Runs (.rget w) s c → w.d.toNat < 256 →
      (∀ q ∈ below, outside c n (c.val q w.s2.toNat 1) (c.val q w.s1.toNat 1) = false) →
      outside c n (c.val r w.s2.toNat 1) (c.val r w.s1.toNat 1) = true →
      ∃ u : State, exec (.rget w) s = .next (u.takeTrap c.gid (some .apertureBound) (c.gang.done ++ below)
          (c.act.filter fun q => !below.contains q) c.gang.word 0 0 c.gang.nextPc) ∧
        RegistersTake { c with act := below } s u w.d.toNat n
          (below.map fun q => { val := c.tan q (c.val q w.s2.toNat 1) (c.val q w.s1.toNat 1) n })) ∧
    (Runs (.rput w) s c → (∀ q ∈ below, outside c n (c.val q w.s3.toNat 1) (c.val q w.s2.toNat 1) = false) →
      outside c n (c.val r w.s3.toNat 1) (c.val r w.s2.toNat 1) = true →
      ∃ u : State, exec (.rput w) s = .next (u.takeTrap c.gid (some .apertureBound) (c.gang.done ++ below)
          (c.act.filter fun q => !below.contains q) c.gang.word 0 0 c.gang.nextPc) ∧ OnlyRegs s u ∧
        let plane := fun q => c.val q w.s3.toNat 1
        let index := fun q => c.val q w.s2.toNat 1
        (∀ q ∈ below, ∀ j < n, Holds s c.tm.id q (plane q) (index q + j) →
          u.reg c.tm.id q (plane q) (index q + j) = valueWord (c.val q w.s1.toNat n) j) ∧
        ∀ team q k i, Holds s team q k i →
          ¬ (team = c.tm.id ∧ q ∈ below ∧ k = plane q ∧ index q ≤ i ∧ i < index q + n) → u.reg team q k i = s.reg team q k i)

/-- PMOV.set writes the seven predicates of each Active thread (R119). -/
def Sys2Proof.Spec.PredicateSetResult : Prop :=
  ∀ w s c, Runs (.pmovSet w) s c → SourcesReady c s (words w 1) →
    let g := gatherSrcs c (words w 1) s c.act
    ∃ u : State, Commits (.pmovSet w) s c (clocks c.act.length 4) u ∧ u = { g.2 with threads := u.threads } ∧
      (u.threads.map fun (t : Thread) => { t with preds := 0 }) = (s.threads.map fun (t : Thread) => { t with preds := 0 }) ∧
      (∀ r xs, resultFor c.act g.1 r = some xs → (s.threads.any fun t => t.team == c.tm.id && t.rank == r) = true →
        (u.thread c.tm.id r).preds = BitVec.ofNat 7 (src xs 0)) ∧
      ∀ team r, ¬ (team = c.tm.id ∧ r ∈ c.act) → (u.thread team r).preds = (s.thread team r).preds

/-! ### Encoding, and the checks before a word -/

/-- The decoder reads every well-formed instruction back from its word (02_encoding.md R32 to R42, R52, R53). -/
def Obligations.DecodeEncode : Prop :=
  ∀ i w, i.wellFormed = true → encode i = some w → decode w = .ok i

/-- A word has no other reading, no bit of it is lost, and unassigned opcodes and guarded GLZ words are no instructions
(R54, R56 row 2). -/
def Obligations.EncodeDecode : Prop :=
  ∀ w, (∀ i, decode w = .ok i → encode i = some w ∧ i.wellFormed = true) ∧
    (decode w = .illegalInstruction ↔
      opAssigned (w.toNat / 2 ^ 56) = false ∨ (w.toNat / 2 ^ 56 = 0x0A ∧ w.toNat / 2 ^ 52 % 16 ≠ 7))

/-- Words written out field by field from R32 to R42 and the entries. -/
def Obligations.DecodedWords : Prop :=
  decode (BitVec.ofNat 64 (0x10 * 2 ^ 56 + 7 * 2 ^ 52 + 3 * 2 ^ 43 + 1 * 2 ^ 33 + 2 * 2 ^ 23)) =
    .ok (.iadd { p := 7, d := 3, s1 := 1, s2 := 2, s3 := 0, t := 0, m := 0 }) ∧
  decode (BitVec.ofNat 64 (0x15 * 2 ^ 56 + 0x8 * 2 ^ 52 + 4 * 2 ^ 43 + 6 * 2 ^ 33 + 1 * 2 ^ 32 + 0xFFFFFFFF)) =
    .ok (.iaddi { p := 8, d := 4, s1 := 6, h := 1, imm := 0xFFFFFFFF }) ∧
  decode (BitVec.ofNat 64 (0x01 * 2 ^ 56 + 0x7 * 2 ^ 52 + 0xFFFFFFFE)) =
    .ok (.bra { p := 7, d := 0, s1 := 0, k := 0, off := 0xFFFFFFFE }) ∧
  decode (BitVec.ofNat 64 (0x70 * 2 ^ 56 + 7 * 2 ^ 52 + 8 * 2 ^ 43 + 6 * 2 ^ 33 + 2 * 2 ^ 8)) =
    .ok (.ldp { p := 7, d := 8, a := 6, x := 0, off := 0, w := 2, sc := 0, or := 0, pl := 0, c := 0 }) ∧
  decode (BitVec.ofNat 64 (0x0A * 2 ^ 56 + 7 * 2 ^ 52 + 3 * 2 ^ 48 + 1 * 2 ^ 44)) =
    .ok (.glz { p := 7, n := 3, msk := 1, md := 0, z := 0 }) ∧
  decode (BitVec.ofNat 64 0xE770000000000000) = .ok (.eret { p := 7, q := 0, d := 0, s1 := 0, s2 := 0, imm := 0 }) ∧
  decode (BitVec.ofNat 64 0x3A70000000000000) = .illegalInstruction ∧
  decode (BitVec.ofNat 64 (0x10 * 2 ^ 56 + 7 * 2 ^ 52 + 193 * 2 ^ 43 + 2 * 2 ^ 8)) = .illegalOperand false

/-- The checks before a word, in the order of R56: a privileged form at user level, then its own fields, then the features
of its core. Its guard and the number of its Active threads do not matter (R55). -/
def Sys2Proof.Spec.WordChecksInOrder : Prop :=
  ∀ i s c, (encode i).isSome = true → Issues i s c →
    let forbidden := privileged i = true ∧ c.gang.sys = false
    let bad := i.wellFormed = false ∨ i.allocated c.tm.alloc c.tm.depth c.g = false
    let lacking := Nat.land (features i) (s.featuresOf (coreOf c.tm.quad c.gang.lane)) ≠ features i
    (forbidden → TrapsAt i s c .privilegedInstruction 0 0) ∧
    (¬ forbidden → bad → TrapsAt i s c .illegalOperand 0 0) ∧
    (¬ forbidden → ¬ bad → lacking → TrapsAt i s c .featureAbsent 0 0) ∧
    (¬ forbidden → ¬ bad → ¬ lacking → Runs i s c)

/-! ### Steps -/

/-- A running gang's next word, where it decodes, is executed for that gang, and what follows a word at once follows
(`State.settle`): when the agenda names the gang, and when the policy finds it running (DESIGN CHOICE, notes/assumptions/3.md). -/
def Sys2Proof.Spec.StepRunsDecodedWord : Prop :=
  ∀ (s : State) (g : Gang) (i : Instr), s.gang? g.id = some g → g.status = .running → decode (g.clause.getD (g.word - 1) 0) = .ok i →
    let after := fun (o : Host.Outcome State Fault Refusal) (r : Host.Outcome State Fault Refusal) =>
      match r with
      | .next t => o = .next t.settle
      | .fault e => o = .fault e
      | .refused e => o = .refused e
    (∀ cs, s.agenda = .word g.id :: cs → after (step s) (exec i { s with agenda := cs, cur := some g.id })) ∧
    (s.agenda = [] → (s.gangs.find? fun g => g.status == .running) = some g → after (step s) (exec i { s with cur := some g.id }))

/-- A word that is no instruction stops its gang: nobody has committed it, and every Active member that had not done so
is in the trap mask (R54 to R56). The cause is illegal-instruction; or, for a bad field, illegal-operand, and for one of
a privileged form at user level privileged-instruction. That the done-mask is kept at such a trap is the model's choice
(log entry 86). -/
def Sys2Proof.Spec.StepTrapsOtherWords : Prop :=
  ∀ (s : State) (g : Gang) (cs : List Choice), s.gang? g.id = some g → g.status = .running → s.agenda = .word g.id :: cs →
    let word := (g.clause.getD (g.word - 1) 0).toNat
    let traps := fun (cause : Cause) => step s = .next (({ s with agenda := cs, cur := some g.id } : State).takeTrap g.id
      (some cause) g.done
      (g.members.filter fun r => !g.done.contains r && guardPasses (word / 2 ^ 52 % 2 ^ 4) (s.thread g.team r)) g.word 0 0 g.nextPc).settle
    let d := decode (g.clause.getD (g.word - 1) 0)
    (d = .illegalInstruction → traps .illegalInstruction) ∧
    (d = .illegalOperand false → traps .illegalOperand) ∧
    (d = .illegalOperand true → traps (if g.sys then .illegalOperand else .privilegedInstruction))

/-- The agenda's next event runs, and its ticks are time that passes; a peer's message or write comes off the fabric, the host
accesses a register, a line's next replica is chosen, and Shegus sets a wave period (the agenda is the model's choice:
DESIGN CHOICE, notes/assumptions/3.md). -/
def Sys2Proof.Spec.StepRunsChosenEvent : Prop :=
  ∀ (s : State) (cs : List Choice), (∀ i t, s.agenda = .event i :: cs → exec i { s with agenda := cs } = .next t → step s = .next t.settle) ∧
    (∀ n, s.agenda = .tick n :: cs → step s = .next { s with agenda := cs, now := s.now + n }) ∧
    (∀ die m, s.agenda = .message die m :: cs → step s = .next (({ s with agenda := cs } : State).takeMessageOff die m).settle) ∧
    (∀ die dev pa bs, s.agenda = .peerWrite die dev pa bs :: cs → step s = .next (({ s with agenda := cs } : State).peerWriteIn die dev pa bs).settle) ∧
    (∀ offset v t, s.agenda = .register offset v :: cs → registerAccess offset v { s with agenda := cs } = .next t → step s = .next t.settle) ∧
    (∀ cmd line k, s.agenda = .replicaFirst cmd line k :: cs → step s = .next (({ s with agenda := cs } : State).replicaFirst cmd line k)) ∧
    ∀ job us, s.agenda = .wavePeriod job us :: cs → step s = .next (({ s with agenda := cs } : State).setPeriod job us)

/-! ### Words that end, traps -/

/-- A word that commits: clocks of its die pass, and the gang goes on to its clause's next word, or after the last one to the next
header (R75); a numeric threshold that it brought about is taken now, with every one of `done` in the done-mask (R154). -/
def Sys2Proof.Spec.WordEnds : Prop :=
  ∀ (s : State) (gid occ : Nat) (done : List Nat) (g : Gang), s.gang? gid = some g →
    let t : State := { s with now := s.now + s.span ((s.team g.team).quad / 32) occ }
    (g.pendWord = false → g.word < g.clause.length → s.endWord gid occ done = { t with gangs := s.gangs.map fun (x : Gang) =>
      if x.id = gid then { x with word := x.word + 1, done := [], flight := [] } else x }) ∧
    (g.pendWord = false → g.clause.length ≤ g.word →
      s.endWord gid occ done = t.endClause gid ((g.pc + 8 * (g.clause.length + 1)) % 2 ^ 64)) ∧
    (g.pendWord = true → g.trap = none → s.endWord gid occ done =
      (t.updGang gid fun g => { g with pendWord := false }).takeTrap gid (some .numericThreshold) done [] g.word 0 0
        ((g.pc + 8 * (g.clause.length + 1)) % 2 ^ 64))

/-- The live-tile mask of the end of a gang's clause, where PP or a PPT makes it a pre-emption point (R90). -/
def Sys2Proof.Spec.endTiles (g : Gang) : Option Nat :=
  if g.header.toNat.testBit 47 = true ∨ g.ppt ≠ none then
    some (Nat.lor (if g.header.toNat.testBit 47 then g.header.toNat % 2 ^ 32 else 0) (g.ppt.getD 0))
  else none

/-- What a thread keeps of its gang (R85): at a header its level and trap state; at a word also the clause's marks. -/
def Sys2Proof.Spec.keptOf (g : Gang) : Carry :=
  if g.word = 0 then { sys := g.sys, trap := g.trap }
  else { sys := g.sys, trap := g.trap, pendWord := g.pendWord, ppt := g.ppt, beat := g.beat, flight := g.flight }

/-- The role of a thread is halted (R382). -/
def Sys2Proof.Spec.roleHalted (s : State) (team r : Nat) : Bool := (s.team team).halt.toNat.testBit (s.thread team r).role.toNat

/-- The threads listed of a team are halted where they stand. -/
def Sys2Proof.Spec.haltedAt (s : State) (team : Nat) (ranks : List Nat) (at_ : Nat → Nat × Nat × Bool × Carry) : State :=
  { s with threads := s.threads.map fun (t : Thread) => if t.team = team ∧ t.rank ∈ ranks then { t with haltPc := some (at_ t.rank) } else t }

/-- A cause pending for a gang goes with its thread `rank` (R85; model's choice, log entry 14). -/
def Sys2Proof.Spec.pendingGoes (s : State) (g : Gang) (rank : Nat) : State :=
  match g.pending with
  | none => s
  | some cause => { s with threads := s.threads.map fun (t : Thread) =>
      if t.team = g.team ∧ t.rank = rank then { t with pend := t.pend ++ [(cause, 0)] } else t }

/-- The members of a gang whose role is halted leave it at the boundary where it stands (R382); with all of them its entry is
free. -/
def Sys2Proof.Spec.leaveHalted (s : State) (gid : Nat) : State :=
  match s.gang? gid with
  | none => s
  | some g =>
    let out := g.members.filter fun r => roleHalted s g.team r
    let v := haltedAt s g.team out fun r => (g.pc, g.word, g.done.contains r, keptOf g)
    if out = [] then s
    else if out.length = g.members.length then
      let x := pendingGoes v g (out.headD 0)
      { x with gangs := s.gangs.filter fun y => y.id != gid,
               tickets := s.tickets.map fun (t : Ticket) => { t with gangs := t.gangs.filter fun k => k != gid } }
    else { v with gangs := s.gangs.map fun (y : Gang) =>
      if y.id = gid then { y with members := y.members.filter fun r => !out.contains r } else y }

/-- A gang's clause ends and it goes on at header `pc`: to be fetched, or parked where SW is set (R76); a boundary with PP
or a PPT is a pre-emption point with the union of their tiles, and a requested pre-emption stops the gang there, or at
any boundary once its limit has passed (R90); that it was to park is kept. Members whose role is halted leave at the
boundary (R382). -/
def Sys2Proof.Spec.ClauseEnds : Prop :=
  ∀ (s : State) (gid pc : Nat) (g : Gang), s.gang? gid = some g →
    let cl := s.cluster (s.team g.team).cluster
    let stops := cl.preempt ≠ none ∧ (endTiles g ≠ none ∨ cl.forced = true)
    let sw := fun (x : Gang) => x.header.toNat.testBit 46
    let v := leaveHalted { s with gangs := s.gangs.map fun (x : Gang) => if x.id = gid then
      { x with pc, word := 0, done := [], ppt := none, beat := false, clause := [], flight := [],
               idleSince := s.dieClock ((s.team x.team).quad / 32), stopMask := endTiles x,
               status := if sw x then .parked else .fetch } else x } gid
    s.endClause gid pc = if stops then { v with gangs := v.gangs.map fun (x : Gang) =>
        if x.id = gid then { x with status := .stopped none, park := sw x } else x }
      else v

/-- Entry through a vector (14_system.md R363, R365): the trap state is written and sr.fault of every member, the level
becomes system, and the gang goes on with the same members at the vector; nothing else changes. With no word to redo,
the trap ends the clause of a gang at a word, which is then a pre-emption point where PP or a PPT makes it one (R90).
That such a trap is a clause boundary, where PP, a PPT and a stop act, is the model's choice (log entry 49), and so is
the BEAT mark that goes with it (log entry 12). -/
def Sys2Proof.Spec.TrapEntry : Prop :=
  ∀ (s : State) (gid : Nat) (cause : Option Cause) (done tmask : List Nat) (word addr info tres : Nat) (g : Gang), s.gang? gid = some g → g.trap = none → (cause = none → g.sys = false) →
    let vectors := (s.job (s.team g.team).job).vectors
    let vec := if cause = none then vectors.getD 1 0 else if cause = some .debugBreak then vectors.getD 2 0
      else if cause = some .watchdog then vectors.getD 3 0 else vectors.getD 0 0
    let code := match cause with
      | none => 0
      | some x => x.code
    let u := s.takeTrap gid cause done tmask word addr info tres
    let cl := s.cluster (s.team g.team).cluster
    let mask := if word ≠ 0 then none
      else if g.word = 0 then g.stopMask
      else if bit g.header.toNat 47 = true ∨ g.ppt ≠ none then
        some (Nat.lor (if bit g.header.toNat 47 then bits g.header.toNat 31 0 else 0) (g.ppt.getD 0))
      else none
    let stops := fun (x : Gang) => cl.preempt ≠ none ∧ word = 0 ∧ x.word ≠ 0 ∧ (mask ≠ none ∨ cl.forced = true)
    vec ≠ 0 →
    u = { s with gangs := u.gangs, threads := u.threads } ∧
    u.gangs = (s.gangs.map fun (x : Gang) => if x.id = gid then
      { x with trap := some { tpc := g.pc, taddr := addr, tmask, tinfo := info, tres, done, word, cause := code,
                              sv := cause.isNone, lv := g.sys, members := g.members, pend := g.pendWord,
                              ppt := if word = 0 then none else g.ppt, beat := decide (word ≠ 0) && g.beat },
               sys := true, pc := vec, status := if stops x then .stopped none else .fetch, word := 0, done := [], pendWord := false,
               idleSince := if x.status = .running then s.dieClock ((s.team x.team).quad / 32) else x.idleSince,
               ppt := none, beat := false, flight := [], stopMask := mask } else x) ∧
    u.threads = s.threads.map fun (x : Thread) => if x.team = g.team ∧ x.rank ∈ g.members then
      { x with fault := BitVec.ofNat 64 (posMask g.members done * 2 ^ 32 + (if cause = none then 2 ^ 14 else 0) +
        (if g.sys then 2 ^ 13 else 0) + word * 2 ^ 8 + code) } else x

/-- Traps that Shegus takes: with trap state live a double fault, and without a vector any cause but debug break, abort
every grid of the job that has not ended, with STATUS 5 and that cause, and their teams; a debug break without a vector
halts the roles of the members in its mask, and the gang goes on at the resume header (R363, R382). -/
def Sys2Proof.Spec.TrapsToShegus : Prop :=
  ∀ (s : State) (gid : Nat) (cause : Option Cause) (done tmask : List Nat) (word addr info tres : Nat) (g : Gang), s.gang? gid = some g →
    let job := (s.team g.team).job
    let u := s.takeTrap gid cause done tmask word addr info tres
    let code := match cause with
      | none => 0
      | some x => x.code
    let vector := vectorOf (s.job job) cause
    let aborted := (∀ y ∈ u.grids, y.job = job → y.status ≠ none) ∧
      (∀ y ∈ u.grids, y ∈ s.grids ∨ ∃ z ∈ s.grids, z.status = none ∧ y = { z with status := some (5, code), stopped := true } ∧
        ∃ x ∈ s.grids, x.id = z.id ∧ x.job = job) ∧
      ∀ x ∈ u.gangs, ∀ y ∈ s.grids, ∀ cl ∈ s.clusters, y.job = job → y.status = none → cl.grid = y.id →
        cl.id = (s.team x.team).cluster → cl.retired = true ∨ cl.aborted = true
    (g.trap ≠ none → aborted) ∧
    (g.trap = none → (cause = none → g.sys = false) → vector = 0 → cause ≠ some .debugBreak → aborted) ∧
    (g.trap = none → vector = 0 → cause = some .debugBreak →
      let roles := tmask.foldl (fun m r => Nat.lor m (2 ^ (s.thread g.team r).role.toNat)) 0
      u = (s.updTeam g.team fun t => { t with halt := t.halt ||| BitVec.ofNat 8 roles }).endClause gid tres)

/-! ### Control words -/

/-- NOP, BEAT, PPT and YIELD (03_control.md R90, R93, R96). A beat restarts the watchdog timers of the job's grids, once in a
clause and only in a persistent job (R380); YIELD puts the gang behind every eligible gang of its lane. -/
def Sys2Proof.Spec.GangHintWords : Prop :=
  ∀ w i s c,
    (Runs (.nop w) s c → Commits (.nop w) s c 6 s) ∧
    (Runs (.beat w) s c →
      Commits (.beat w) s c 6
        (if c.act = [] ∨ c.gang.beat = true ∨ ¬ (∃ g ∈ s.grids, g.job = c.tm.job ∧ g.pers = true ∧ g.status = none) then s
         else { s with
           gangs := s.gangs.map fun (g : Gang) => if g.id = c.gid then { g with beat := true } else g,
           grids := s.grids.map fun (g : Grid) => if g.job = c.tm.job then { g with progress := s.now } else g })) ∧
    (Runs (.ppt i) s c →
      Commits (.ppt i) s c 6 (if c.act = [] then s else { s with gangs := s.gangs.map fun (g : Gang) =>
        if g.id = c.gid then { g with ppt := some (Nat.lor (g.ppt.getD 0) i.imm.toNat) } else g })) ∧
    (Runs (.yield w) s c →
      Commits (.yield w) s c 6 (if c.act = [] then s else { s with gangs := s.gangs.map fun (g : Gang) =>
        if g.id = c.gid then
          { g with behind := (s.gangs.filter fun x => x.id != c.gid && x.lane == c.gang.lane &&
              (s.team x.team).quad == c.tm.quad && x.eligible.isSome).map (·.id) }
        else g }))

/-- The header at which member `r` of the gang goes on after a branch (R39, R94, R95). -/
def Sys2Proof.Spec.target (c : Ctx) (w : FmtB) (r : Nat) : Nat :=
  if r ∈ c.act then
    (BitVec.ofInt 64 ((if w.k = 1 then c.val r w.s1.toNat 2 else c.gang.pc : Nat) + 8 * w.off.toInt)).toNat
  else (c.gang.pc + 8 * (c.gang.clause.length + 1)) % 2 ^ 64

/-- BRA, BRX, CALL and RET (R80, R82, R94, R95): a misaligned target traps before anything; else CALL writes the return
address to each Active thread, and the members go on at their targets: as one gang, as two, or through the folds once
the gang is owed nothing; those whose role is halted stand at their targets (R382). In a fold they keep their level and
trap state, and a cause pending for the gang goes with its lowest rank (R85). That cause's way, and TADDR 0, are the
model's choices (log entries 14 and 47). -/
def Sys2Proof.Spec.BranchWords : Prop :=
  ∀ p ∈ ([(.bra, false), (.brx, false), (.call, true), (.callRegister, true), (.ret, false)] : List ((FmtB → Instr) × Bool)),
    ∀ w s c, Runs (p.1 w) s c →
      let next := (c.gang.pc + 8 * (c.gang.clause.length + 1)) % 2 ^ 64
      let dests := (c.gang.members.map (target c w)).eraseDups
      let later : State := { s with now := s.now + s.span (c.tm.quad / 32) (clocks c.act.length (if p.2 then 2 else 4)) }
      ((∃ r ∈ c.act, target c w r % 8 ≠ 0) → TrapsAt (p.1 w) s c .misaligned 0 0) ∧
      ((∀ r ∈ c.act, target c w r % 8 = 0) →
        (2 < dests.length → s.quietGang c.gid = false → HoldsAt (p.1 w) s c .counters) ∧
        ((2 < dests.length → s.quietGang c.gid = true) →
          ∃ u : State, (if p.2 then RegistersTake c later u w.d.toNat 2 (c.act.map fun _ => { val := next }) else u = later) ∧
            (∀ pc, dests = [pc] → exec (p.1 w) s = .next (u.endClause c.gid pc)) ∧
            (∀ pc other, dests = [pc, other] → exec (p.1 w) s =
              .next ((u.splitOff c.gid (c.gang.members.filter fun r => target c w r = other) other).endClause c.gid pc)) ∧
            (dests = [] ∨ 2 < dests.length →
              let kept : Carry := { sys := c.gang.sys, trap := c.gang.trap }
              let v := haltedAt (u.passPending c.gang c.first) c.tm.id (c.gang.members.filter fun r => roleHalted s c.tm.id r)
                fun r => (target c w r, 0, false, kept)
              exec (p.1 w) s = .next ((v.fileAll ((c.gang.members.filter fun r => !roleHalted s c.tm.id r).map fun r =>
                { quad := c.tm.quad, lane := c.gang.lane, team := c.tm.id, rank := r, pc := target c w r, carry := kept })).dropGang c.gid))))

/-- A split (R80): where an entry is free the leaving members are a gang of their own at the end of the clause, with every
outstanding result, and where none is they go into folds once their own results are written, but for those whose role is
halted, which stand at the target (R382). -/
def Sys2Proof.Spec.GangSplits : Prop :=
  ∀ (s : State) (id pc : Nat) (out : List Nat) (g : Gang), s.gang? id = some g →
    let quad := (s.team g.team).quad
    let stay := { s with gangs := s.gangs.map fun (x : Gang) =>
      if x.id = id then { x with members := x.members.filter fun r => !out.contains r } else x }
    (∀ e, s.freeEntry quad g.lane = some e →
      (e < 17 ∧ ∀ x ∈ s.gangs, ¬ (x.entry = e ∧ x.lane = g.lane ∧ (s.team x.team).quad = quad)) ∧
      s.splitOff id out pc = ({ stay with
        nextId := s.nextId + 1,
        gangs := stay.gangs ++ [{ g with id := s.nextId, entry := e, members := out, behind := [], eligible := none }],
        tickets := s.tickets.map fun (t : Ticket) =>
          if id ∈ t.gangs then { t with gangs := t.gangs ++ [s.nextId] } else t }).endClause s.nextId pc) ∧
    (s.freeEntry quad g.lane = none →
      let kept : Carry := { sys := g.sys, trap := g.trap }
      let moved := pendingGoes (haltedAt stay g.team (out.filter fun r => roleHalted s g.team r) fun _ => (pc, 0, false, kept)) g (out.headD 0)
      s.splitOff id out pc = ({ moved with
        filing := s.filing ++ (out.filter fun r => !roleHalted s g.team r).map fun r =>
          { quad, lane := g.lane, team := g.team, rank := r, pc, carry := kept } } : State).fileReady)

/-- A thread goes into a fold with its key, joins one that has it, takes a free one of the lane's 16, with the threads of
its key that overflowed, or goes on the lane's overflow list; a fold's age counts from the filing of its oldest thread (R81,
R82). Each thread keeps what its gang carried (the model's choice: DESIGN CHOICE, notes/assumptions/83.md). -/
def Sys2Proof.Spec.ThreadFiled : Prop :=
  ∀ (s : State) (f : Filed),
    let mine := fun (x : Fold) => x.quad = f.quad ∧ x.lane = f.lane
    let key := fun (x : Fold) => mine x ∧ x.team = f.team ∧ x.pc = f.pc ∧ x.word = f.word
    (∀ x, (s.folds.find? fun y => decide (key y)) = some x → s.file f = { s with folds := s.folds.map fun (y : Fold) =>
      if y.id = x.id then { y with threads := y.threads ++ [(f.rank, f.done, f.carry)], since := min y.since f.since } else y }) ∧
    ((∀ x ∈ s.folds, ¬ key x) → 16 ≤ (s.folds.filter fun x => decide (mine x)).length →
      s.file f = { s with overflow := s.overflow ++ [f] }) ∧
    ((∀ x ∈ s.folds, ¬ key x) → (s.folds.filter fun x => decide (mine x)).length < 16 →
      let same := fun (o : Filed) => o.quad = f.quad ∧ o.lane = f.lane ∧ o.team = f.team ∧ o.pc = f.pc ∧ o.word = f.word
      let joined := s.overflow.filter fun o => decide (same o)
      s.file f = { s with
        nextId := s.nextId + 1, overflow := s.overflow.filter fun o => !decide (same o),
        folds := s.folds ++ [{ id := s.nextId, quad := f.quad, lane := f.lane, team := f.team, pc := f.pc, word := f.word,
                               since := (joined.map (·.since)).foldl min f.since,
                               threads := (f.rank, f.done, f.carry) :: joined.map fun o => (o.rank, o.done, o.carry) }] })

/-- REFORM and EXIT (R96, R97): held until the gang is owed nothing, EXIT also until what its threads count finds a counter
set (R322); then the Active members are filed, but for those whose role is halted, which stand at the next header (R382), or
end, and the others go on there; with nobody left the entry is free. -/
def Sys2Proof.Spec.LeavingWords : Prop :=
  ∀ p ∈ ([(.reform, false, fun c s =>
        let kept : Carry := { sys := c.gang.sys, trap := c.gang.trap }
        let v := haltedAt s c.tm.id (c.act.filter fun r => roleHalted s c.tm.id r) fun _ => (c.gang.nextPc, 0, false, kept)
        v.fileAll ((c.act.filter fun r => !roleHalted s c.tm.id r).map fun r =>
          { quad := c.tm.quad, lane := c.gang.lane, team := c.tm.id, rank := r, pc := c.gang.nextPc, carry := kept })),
      (.exit, true, fun c s => c.act.foldl (fun s r => s.endThread c.tm.id r) s)] :
        List ((FmtA → Instr) × Bool × (Ctx → State → State))),
    ∀ w s c, Runs (p.1 w) s c →
      let full := p.2.1 = true ∧ c.act ≠ [] ∧ s.canCount c.tm.quad c.tm.job = false
      (s.quietGang c.gid = false → HoldsAt (p.1 w) s c .counters) ∧
      (s.quietGang c.gid = true → full → HoldsAt (p.1 w) s c (.counterSet c.tm.quad c.tm.job)) ∧
      (s.quietGang c.gid = true → ¬ full →
        let u := p.2.2 c { s with now := s.now + s.span (c.tm.quad / 32) 6 }
        let stay := c.gang.members.filter fun r => !c.act.contains r
        exec (p.1 w) s = .next (if stay = [] then (u.passPending c.gang c.first).dropGang c.gid
          else (u.updGang c.gid fun g => { g with members := stay }).endClause c.gid c.gang.nextPc))

/-- A thread's end (R97, R268, R306, R321, R323): the thresholds of matrix steps that it leaves untaken are passed on, its
task and handler task retire and its activity is lowered, counted at its quad's port; nothing else of the device changes. -/
def Sys2Proof.Spec.ThreadEnds : Prop :=
  ∀ (s : State) (team rank : Nat), let t := s.team team
    (s.threads.any fun x => x.team == team && x.rank == rank) = true → (s.sets.any fun k => k.port == t.quad && k.job == t.job) = true →
    let x := s.thread team rank
    let v := s.passThresholds team rank
    s.endThread team rank = { v with
      threads := v.threads.map fun (y : Thread) => if y.team = team ∧ y.rank = rank then
        { y with task := y.task && !x.task, handler := y.handler && !x.handler, ended := true } else y,
      sets := s.sets.map fun (k : CounterSet) => if k.port = t.quad ∧ k.job = t.job then
        { k with mc := if x.task ∨ x.handler then (k.mc + x.task.toNat + x.handler.toNat) % 2 ^ 48 else k.mc,
                 ad := (k.ad + 1) % 2 ^ 48, chg := true }
        else k }

/-- TRAP, SVC and BRK (R98, R99): with a member Active the gang enters its handler at the clause's end, the set of Active
members in the mask; with none, or for BRK without the grid's debug enable, it goes on. -/
def Obligations.TransferWords : Prop :=
  ∀ w a s c,
    let enters := fun (i : Instr) (cause : Option Cause) (info : Nat) =>
      exec i s = .next (({ s with now := s.now + s.span (c.tm.quad / 32) 6 } : State).takeTrap c.gid cause [] c.act 0 0 info c.gang.nextPc)
    (Runs (.trap w) s c → if c.act = [] then Commits (.trap w) s c 6 s else enters (.trap w) (some .userTrap) w.imm.toNat) ∧
    (Runs (.svc w) s c → if c.act = [] then Commits (.svc w) s c 6 s else enters (.svc w) none w.imm.toNat) ∧
    (Runs (.brk a) s c → if c.act = [] ∨ c.grid.dbg = false then Commits (.brk a) s c 6 s else enters (.brk a) (some .debugBreak) 0)

/-- VOTE (R100): a predicate or a register of each Active thread, from the votes of them all, for the next word and without a
trap; its opcode, and what is refused with illegal-operand: T codes 8 to 31, other fields that are not zero, a predicate field
above 7, S1 other than zr for T of 5 and 6, and a channel operand. -/
def Obligations.VoteResults : Prop :=
  (∀ w x, encode (.vote w) = some x → x.toNat / 2 ^ 56 = 0x0E) ∧
  (∀ w s c, Issues (.vote w) s c → (encode (.vote w)).isSome = true →
    let t := w.t.toNat
    8 ≤ t ∨ w.s2 ≠ 0 ∨ w.s3 ≠ 0 ∨ w.m ≠ 0 ∨ (t ≤ 2 ∧ 7 < w.d.toNat) ∨ (2 < t ∧ 256 ≤ w.d.toNat) ∨ (t = 2 ∧ 256 ≤ w.s1.toNat) ∨
        (t ≠ 2 ∧ t ≠ 5 ∧ t ≠ 6 ∧ 7 < w.s1.toNat) ∨ ((t = 5 ∨ t = 6) ∧ w.s1.toNat ≠ 255) →
      TrapsAt (.vote w) s c .illegalOperand 0 0) ∧
  ∀ w s c, Runs (.vote w) s c →
    let yes := c.act.filter fun r => (s.thread c.tm.id r).pred w.s1.toNat
    let mask := fun (rs : List Nat) => fromBits 32 fun j => decide (∃ r ∈ rs, c.gang.members[j]? = some r)
    let occ := clocks c.act.length 4 + 4
    (w.t.toNat ≤ 2 → PredicateResult (.vote w) s c [] w.d.toNat occ fun _ _ =>
      if w.t.toNat = 0 then yes ≠ [] else if w.t.toNat = 1 then ∀ r ∈ c.act, (s.thread c.tm.id r).pred w.s1.toNat
      else ∀ r ∈ c.act, ∀ q ∈ c.act, c.val r w.s1.toNat 1 = c.val q w.s1.toNat 1) ∧
    (2 < w.t.toNat → c.gang.members.length ≤ 32 → c.gang.members.Nodup →
      ShortResult (.vote w) s c [] w.d.toNat 1 occ fun r _ =>
        { val := [0, 0, 0, mask yes, yes.length, c.gang.members.findIdx (· == r), mask c.act,
                  (yes.filter fun q => decide (q < r)).length].getD w.t.toNat 0 })

/-- SHFL (R101, R102): each Active thread takes the value of the member at a computed gang position, with the layers in G, or
its fallback where that member is not Active. -/
def Sys2Proof.Spec.ShuffleResult : Prop :=
  ∀ w s c, Runs (.shfl w) s c →
    let n := if w.t.toNat < 4 then 1 else 2
    ShortResult (.shfl w) s c [] w.d.toNat n ((1 + c.g.length) * clocks c.act.length (if n = 1 then 2 else 1)) fun r _ =>
      let sel : Int := c.val r w.s2.toNat 1
      let pos : Int := c.gang.members.findIdx (· == r)
      let j : Int := [sel % 32, pos - sel, pos + sel, (Nat.xor pos.toNat (sel.toNat % 32) : Nat)].getD (w.t.toNat % 4) 0
      let from_ := if 0 ≤ j then (c.gang.members[j.toNat]?).filter fun u => decide (u ∈ c.act) else none
      match from_ with
      | some u => { val := c.val u w.s1.toNat n, tans := carried c u w.s1.toNat n }
      | none => { val := c.val r w.s3.toNat n, tans := carried c r w.s3.toNat n }

/-! ### Floating point -/

/-- The exact real number that a finite decoded value stands for (05_float.md R127). -/
def Sys2Proof.Spec.Value (v : FVal) (x : ℝ) : Prop :=
  match v with
  | .fin s m e => x = (if s then -1 else 1) * (m : ℝ) * 2 ^ e
  | _ => False

/-- `n` is the magnitude `y` rounded to a whole number in a mode; `neg` says that the number has a minus sign (R129). -/
def Sys2Proof.Spec.WholeOf (mode : Round) (neg : Prop) (y : ℝ) (n : ℕ) : Prop :=
  let low := (n : ℝ) ≤ y ∧ y < n + 1
  let high := y ≤ (n : ℝ) ∧ (n : ℝ) < y + 1
  match mode with
  | .near => |y - n| ≤ 1 / 2 ∧ (|y - n| = 1 / 2 → Even n)
  | .away => (n : ℝ) - 1 / 2 ≤ y ∧ y < n + 1 / 2
  | .zero => low
  | .up => (neg → low) ∧ (¬ neg → high)
  | .down => (neg → high) ∧ (¬ neg → low)

/-- `n × 2^q` is the magnitude of `x ≠ 0` rounded to `mb + 1` significant bits, or to the last place `2^least` where that
is coarser, with no bound on the exponent above. -/
def Sys2Proof.Spec.Significant (mb : ℕ) (least : ℤ) (mode : Round) (x : ℝ) (n : ℕ) (q : ℤ) : Prop :=
  q = max (Int.log 2 |x| - mb) least ∧ WholeOf mode (x < 0) (|x| / 2 ^ q) n

/-- `b` encodes `x ≠ 0` rounded once into format `f` under the word's rounding fields (R129, R130). -/
def Sys2Proof.Spec.RoundsTo (f : FpFmt) (r : RMode) (x : ℝ) (b : Nat) : Prop :=
  ∃ n q, Significant f.mb f.qMin r.mode x n q ∧ b < 2 ^ f.width ∧
    let inward := r.sat = true ∨ r.mode = .zero ∨ (r.mode = .up ∧ x < 0) ∨ (r.mode = .down ∧ 0 < x)
    let sign := if x < 0 then f.signBit else 0
    if (2 ^ (f.mb + 1) - 1) * (2 : ℝ) ^ ((f.bias : ℤ) - f.mb) < n * 2 ^ q then
      (inward → b = f.eMax * 2 ^ f.mb - 1 + sign) ∧ (¬ inward → b = f.eMax * 2 ^ f.mb + sign)
    else if r.ftz = true ∧ n < 2 ^ f.mb then b = sign
    else Value (decodeFp f b) (if x < 0 then -(n * 2 ^ q) else n * 2 ^ q) ∧ (f.signBit ≤ b ↔ x < 0)

/-- The interchange formats (R127). -/
def Sys2Proof.Spec.formats : List FpFmt := [fp16, bf16, fp32, fp64]

/-- `b` encodes a number that may be zero; a zero takes the sign that `neg` says (R132). -/
def Sys2Proof.Spec.RoundsOrZero (f : FpFmt) (r : RMode) (x : ℝ) (neg : Prop) (b : Nat) : Prop :=
  (x ≠ 0 → RoundsTo f r x b) ∧ (x = 0 → neg → b = f.signBit) ∧ (x = 0 → ¬ neg → b = 0)

/-- The arithmetic forms of finite operands are the exact real result, rounded once (R129, R130, R132, R134): a zero sum
takes the sign its terms share, else + or in .rd −. FCVT rounds the number itself (R142). -/
def Sys2Proof.Spec.FloatArithmeticIsExact : Prop :=
  ∀ f ∈ formats, ∀ (r : RMode) (x y z : FVal) (a b c : ℝ), Value x a → Value y b → Value z c →
    let sumNeg := fun (p q nonzero : Prop) =>
      ((nonzero ∨ ¬ (p ↔ q)) → r.mode = .down) ∧ (¬ nonzero → (p ↔ q) → p)
    RoundsOrZero f r (a + b) (sumNeg (x.sign = true) (y.sign = true) (a ≠ 0)) (primAdd f r [x, y]).1 ∧
    RoundsOrZero f r (a - b) (sumNeg (x.sign = true) (y.sign = false) (a ≠ 0)) (primSub f r [x, y]).1 ∧
    RoundsOrZero f r (a * b) (x.sign ≠ y.sign) (primMul f r [x, y]).1 ∧
    RoundsOrZero f r (a * b + c) (sumNeg (x.sign ≠ y.sign) (z.sign = true) (c ≠ 0)) (primFma f r [x, y, z]).1 ∧
    (∀ n : ℤ, RoundsOrZero f r (a * 2 ^ n) (x.sign = true) (primScale n f r [x]).1) ∧
    RoundsOrZero f r a (x.sign = true) (primId f r [x]).1

/-- Quotients and roots of finite operands are correctly rounded (R136). -/
def Sys2Proof.Spec.FloatRootsAreExact : Prop :=
  ∀ f ∈ formats, ∀ (r : RMode) (x y : FVal) (a b : ℝ), Value x a → Value y b →
    (b ≠ 0 → RoundsOrZero f r (a / b) (x.sign ≠ y.sign) (primDiv f r [x, y]).1) ∧
    (0 ≤ a → RoundsOrZero f r (Real.sqrt a) (x.sign = true) (primSqrt f r [x]).1) ∧
    (a ≠ 0 → RoundsTo f r (1 / a) (primRcp f r [x]).1) ∧
    (0 < a → RoundsTo f r (1 / Real.sqrt a) (primRsq f r [x]).1)

/-- What is not an ordinary result (R129, R131, R132, R136, R137): invalid operations give the default NaN and count a
NaN produced, divisions by zero an infinity and their event; the exact cases of the roots and the transcendental forms. -/
def Sys2Proof.Spec.FloatSpecialCases : Prop :=
  ∀ f ∈ formats, ∀ (r : RMode) (s s' : Bool) (m e : Nat),
    let nan := (f.defaultNaN, evNaN)
    let inf := fun (s : Bool) => if r.sat then f.largest s else f.inf s
    let fin := FVal.fin s' (m + 1) e
    let zero := fun (s : Bool) => FVal.fin s 0 e
    let one := fun (s : Bool) (b : Nat) => Value (decodeFp f b) (if s then -1 else 1)
    (primAdd f r [.inf s, .inf !s] = nan ∧ primAdd f r [.inf s, .inf s] = (inf s, 0) ∧ primAdd f r [.inf s, fin] = (inf s, 0)) ∧
    (primMul f r [.inf s, zero s'] = nan ∧ primMul f r [zero s', .inf s] = nan ∧ primMul f r [.inf s, fin] = (inf (s != s'), 0)) ∧
    (primFma f r [.inf s, zero s', fin] = nan ∧ primFma f r [.inf s, .inf s', .inf (s == s')] = nan) ∧
    (primDiv f r [zero s, zero s'] = nan ∧ primDiv f r [.inf s, .inf s'] = nan ∧ primDiv f r [.inf s, fin] = (inf (s != s'), 0) ∧
      primDiv f r [fin, .inf s] = (f.zero (s' != s), 0) ∧ primDiv f r [fin, zero s] = (inf (s' != s), evDivZero)) ∧
    (primSqrt f r [.fin true (m + 1) e] = nan ∧ primSqrt f r [.inf true] = nan ∧ primSqrt f r [zero s] = (f.zero s, 0) ∧
      primSqrt f r [.inf false] = (inf false, 0)) ∧
    (primRcp f r [zero s] = (inf s, evDivZero) ∧ primRcp f r [.inf s] = (f.zero s, 0)) ∧
    (primRsq f r [.fin true (m + 1) e] = nan ∧ primRsq f r [.inf true] = nan ∧ primRsq f r [zero s] = (inf s, evDivZero) ∧
      primRsq f r [.inf false] = (f.zero false, 0)) ∧
    (one false (primExp2 f r [zero s]).1 ∧ primExp2 f r [.inf true] = (f.zero false, 0) ∧ primExp2 f r [.inf false] = (inf false, 0)) ∧
    (primLog2 f r [.fin true (m + 1) e] = nan ∧ primLog2 f r [.inf true] = nan ∧ primLog2 f r [zero s] = (inf true, evDivZero) ∧
      primLog2 f r [.fin false 1 0] = (f.zero false, 0) ∧ primLog2 f r [.inf false] = (inf false, 0)) ∧
    (primSin f r [.inf s] = nan ∧ primSin f r [zero s] = (f.zero s, 0)) ∧
    (primCos f r [.inf s] = nan ∧ one false (primCos f r [zero s]).1) ∧
    (primTanh f r [zero s] = (f.zero s, 0) ∧ one s (primTanh f r [.inf s]).1)

/-- One number lies below another in the order of minimumNumber, where −0 is below +0 (R135). -/
def Sys2Proof.Spec.Below (x y : FVal) : Prop :=
  match x, y with
  | .inf s, .inf s' => s = true ∧ s' = false
  | .inf s, _ => s = true
  | _, .inf s => s = false
  | x, y => ∃ a b, Value x a ∧ Value y b ∧ (a < b ∨ (a = 0 ∧ b = 0 ∧ x.sign = true ∧ y.sign = false))

/-- FMIN and FMAX, FRND and FDOT2 (R134, R135): the operand that is chosen, a NaN being ignored, and both NaNs S1 quieted; the
whole number in the mode with the operand's sign; the sum of the number and both products rounded once to FP32, with the NaNs,
the infinities and the zero signs of R131 and R132. -/
def Sys2Proof.Spec.PickRoundAndDot : Prop :=
  (∀ (isMax : Bool) (x y : FVal), pickMinMax isMax x y ≤ 1 ∧
    (y.isNaN = true → pickMinMax isMax x y = 0) ∧ (y.isNaN = false → x.isNaN = true → pickMinMax isMax x y = 1) ∧
    (x.isNaN = false → y.isNaN = false → (pickMinMax isMax x y = 1 ↔ if isMax then Below x y else Below y x))) ∧
  (∀ f ∈ formats, ∀ (isMax : Bool) (m : Nat) (a b : Nat) (tans : List (List Nat)),
    let read := fun (v : Nat) => flushIn f (m.testBit 0) (decodeFp f v)
    let x := read (mod1 f m a)
    let y := read (mod2 f m b)
    let out := minMaxElem isMax f m [a, b] tans
    out.2.2 = 0 ∧ (x.isNaN = true → y.isNaN = true → out.1 = quiet f (mod1 f m a)) ∧
      (x.isNaN = false ∨ y.isNaN = false → out.1 < 2 ^ f.width ∧ decodeFp f out.1 = if pickMinMax isMax x y = 0 then x else y)) ∧
  (∀ f ∈ formats, ∀ (r : RMode) (b : Nat), let v := decodeFp f b; let out := primRnd f r [v]
    (∀ s, v = .inf s → out = (f.inf s, 0)) ∧
    ∀ x, Value v x → ∃ n, WholeOf r.mode (v.sign = true) |x| n ∧ out.2 = 0 ∧ out.1 < 2 ^ f.width ∧
      Value (decodeFp f out.1) (if v.sign then -n else n) ∧ (f.signBit ≤ out.1 ↔ v.sign = true)) ∧
  ∀ (t m x y z : Nat), t = 9 ∨ t = 10 →
    let f := fmtOf t
    let r := rmodeOf m
    let half := fun (v j : Nat) => v / 2 ^ (16 * j) % 2 ^ 16
    let first := fun j => flushIn f r.ftz (decodeFp f (mod1 f m (half x j)))
    let second := fun j => flushIn f r.ftz (decodeFp f (mod2 f m (half y j)))
    let addend := flushIn fp32 r.ftz (decodeFp fp32 z)
    let out := dot2Elem t m x y z []
    let nans := [first 0, second 0, first 1, second 1]
    let terms := [(addend, FVal.fin false 1 0), (first 0, second 0), (first 1, second 1)]
    let wrong := ∃ p ∈ terms, (p.1.isInf = true ∧ p.2.isZero = true) ∨ (p.1.isZero = true ∧ p.2.isInf = true)
    let infinite := fun (s : Bool) => ∃ p ∈ terms, (p.1.isInf = true ∨ p.2.isInf = true) ∧ (p.1.sign != p.2.sign) = s
    let minus := fun (p : FVal × FVal) => p.1.sign ≠ p.2.sign
    (∀ b, firstNaN nans = some b → out.val = convertNaN f fp32 b ∧ out.ev = 0) ∧
    (firstNaN nans = none → ∀ b, addend = .nan b → out.val = quiet fp32 b ∧ out.ev = 0) ∧
    (firstNaN nans = none → addend.isNaN = false → wrong ∨ (infinite true ∧ infinite false) → out.val = fp32.defaultNaN ∧ out.ev = evNaN) ∧
    (firstNaN nans = none → addend.isNaN = false → ¬ wrong → ∀ s, infinite s → ¬ infinite (!s) →
      out.val = (if r.sat then fp32.largest s else fp32.inf s) ∧ out.ev = 0) ∧
    ∀ a b c d e : ℝ, Value addend a → Value (first 0) b → Value (second 0) c → Value (first 1) d → Value (second 1) e →
      let zeros := a = 0 ∧ b * c = 0 ∧ d * e = 0
      RoundsOrZero fp32 r (a + b * c + d * e)
        (((∀ p ∈ terms, minus p) ∧ zeros) ∨ (r.mode = .down ∧ ¬ (zeros ∧ ∀ p ∈ terms, ¬ minus p))) out.val

/-- A number keeps a distance from every number with few more bits than the format's significand: from its numbers and from
the middles between them. -/
def Sys2Proof.Spec.KeepsAway (f : FpFmt) (y gap : ℝ) : Prop :=
  ∀ k j : ℤ, f.qMin - 3 ≤ j → |k| ≤ 2 ^ (f.mb + 3) → gap ≤ |y - k * 2 ^ j|

/-- The transcendental forms are correctly rounded (R137): 2^x, log2 x, sin x, cos x and tanh x of every finite x but zero,
once in the selected mode, unless the exact value lies within 2^−1400 of a rounding boundary without being one. The model
decides by enclosures of the exact value at up to 1,600 bits. -/
def Obligations.TranscendentalResults : Prop :=
  ∀ f ∈ [fp16, bf16, fp32], ∀ (r : RMode) (b : Nat) (x : ℝ), Value (decodeFp f b) x → x ≠ 0 →
    let v := decodeFp f b
    let gap : ℝ := 2 ^ (-1400 : ℤ)
    let two := (2 : ℝ) ^ x
    (KeepsAway f two (gap * two) ∨ (∃ n : ℤ, x = n) → RoundsTo f r two (primExp2 f r [v]).1) ∧
    (0 < x → x ≠ 1 → KeepsAway f (Real.logb 2 x) gap ∨ (∃ n : ℤ, x = 2 ^ n) → RoundsTo f r (Real.logb 2 x) (primLog2 f r [v]).1) ∧
    (KeepsAway f (Real.sin x) gap → RoundsTo f r (Real.sin x) (primSin f r [v]).1) ∧
    (KeepsAway f (Real.cos x) gap → RoundsTo f r (Real.cos x) (primCos f r [v]).1) ∧
    (KeepsAway f (Real.tanh x) gap → RoundsTo f r (Real.tanh x) (primTanh f r [v]).1)

/-- What an atomic leaves (R186): integers modulo the width, or as bits; FADD rounded once to nearest-even, with the first
NaN quieted and opposite infinities the default NaN; FMIN and FMAX the operand of R135. -/
def Sys2Proof.Spec.AtomicResults : Prop :=
  ∀ (ao size old x : Nat), size = 4 ∨ size = 8 → old < 2 ^ (8 * size) → x < 2 ^ (8 * size) →
    let w := 8 * size
    let f := if size = 4 then fp32 else fp64
    let v := atomicOp ao size old x
    let signed := fun (k : Nat) => (BitVec.ofNat w k).toInt
    let a := decodeFp f old
    let b := decodeFp f x
    (ao = 0 → v = (BitVec.ofNat w old + BitVec.ofNat w x).toNat) ∧
    (ao = 1 → (v = old ∨ v = x) ∧ signed v = min (signed old) (signed x)) ∧
    (ao = 2 → (v = old ∨ v = x) ∧ signed v = max (signed old) (signed x)) ∧
    (ao = 3 → v = min old x) ∧ (ao = 4 → v = max old x) ∧
    (ao = 5 → ∀ i, v.testBit i = (old.testBit i && x.testBit i)) ∧
    (ao = 6 → ∀ i, v.testBit i = (old.testBit i || x.testBit i)) ∧
    (ao = 7 → ∀ i, v.testBit i = (old.testBit i != x.testBit i)) ∧
    (ao = 8 → v = x) ∧ (ao = 12 → v = old) ∧
    (ao = 9 →
      (∀ n, a = .nan n → v = quiet f n) ∧ (∀ n, a.isNaN = false → b = .nan n → v = quiet f n) ∧
      (∀ s, a = .inf s → b = .inf (!s) → v = f.defaultNaN) ∧
      (∀ s, a.isNaN = false → b.isNaN = false → a = .inf s ∨ b = .inf s → a ≠ .inf (!s) → b ≠ .inf (!s) → v = f.inf s) ∧
      ∀ p q : ℝ, Value a p → Value b q → RoundsOrZero f {} (p + q) (p = 0 ∧ a.sign = true ∧ b.sign = true) v) ∧
    (ao = 10 ∨ ao = 11 →
      (a.isNaN = true → b.isNaN = true → v = quiet f old) ∧ (a.isNaN = true → b.isNaN = false → v = x) ∧ (a.isNaN = false → b.isNaN = true → v = old) ∧
      (a.isNaN = false → b.isNaN = false → (if ao = 11 then Below a b else Below b a) → v = x) ∧
      (a.isNaN = false → b.isNaN = false → ¬ (if ao = 11 then Below a b else Below b a) → v = old))

/-- The tangent of a sum of product terms (06_glaze.md R164, R165). -/
def Sys2Proof.Spec.sumOf (terms : List FVal → List FVal → List Ext) (f : FpFmt) (r : RMode) (vs ds : List FVal) : Rounded :=
  roundExt f r (sumExt r.mode (terms vs ds))

/-- Occupancy of a form that propagates layers (R168). -/
def Sys2Proof.Spec.layeredClocks (c : Ctx) (t : Nat) : Nat := (1 + c.g.length) * typedClocks c t

/-- The short-result floating-point words (R128, R131, R133 to R135, R155, R164): element by element, a NaN first, else the
form's result, with the layers in G. -/
def Sys2Proof.Spec.FloatWordResults : Prop :=
  (∀ p ∈ ([(.fadd, two, primAdd, sumOf fun _ ds => [opndExt ds 0, opndExt ds 1]),
      (.fsub, two, primSub, sumOf fun _ ds => [opndExt ds 0, (opndExt ds 1).neg]),
      (.fmul, two, primMul, sumOf fun vs ds => [(opndExt ds 0).tmul (opndExt vs 1), (opndExt ds 1).tmul (opndExt vs 0)]),
      (.ffma, three, primFma, sumOf fun vs ds =>
        [(opndExt ds 0).tmul (opndExt vs 1), (opndExt ds 1).tmul (opndExt vs 0), opndExt ds 2])] :
      List ((FmtA → Instr) × (FmtA → List (Nat × Nat)) × (FpFmt → RMode → List FVal → Rounded) ×
        (FpFmt → RMode → List FVal → List FVal → Rounded))),
    ∀ w s c, Runs (p.1 w) s c →
      ShortResult (p.1 w) s c (p.2.1 w) w.d.toNat (regs w.t.toNat) (layeredClocks c w.t.toNat)
        (fpCompute w.t.toNat w.m.toNat (p.2.1 w) p.2.2.1 p.2.2.2 c)) ∧
  ∀ w s c,
    (Runs (.fmin w) s c → ShortResult (.fmin w) s c (two w) w.d.toNat (regs w.t.toNat) (layeredClocks c w.t.toNat)
      (minMaxCompute false w.t.toNat w.m.toNat (two w) c)) ∧
    (Runs (.fmax w) s c → ShortResult (.fmax w) s c (two w) w.d.toNat (regs w.t.toNat) (layeredClocks c w.t.toNat)
      (minMaxCompute true w.t.toNat w.m.toNat (two w) c)) ∧
    (Runs (.frnd w) s c → ShortResult (.frnd w) s c (one w) w.d.toNat (regs w.t.toNat) (typedClocks c w.t.toNat) fun r xs =>
      { fpCompute w.t.toNat w.m.toNat (one w) primRnd noTan c r xs with tans := [] }) ∧
    (Runs (.fscale w) s c →
      ShortResult (.fscale w) s c (oneAndWord w) w.d.toNat (regs w.t.toNat) (layeredClocks c w.t.toNat) fun r xs =>
        let n := (BitVec.ofNat 32 (src xs 1)).toInt
        fpCompute w.t.toNat w.m.toNat (one w) (primScale n) (fun f r _ ds => primScale n f r ds) c r (xs.take 1)) ∧
    (Runs (.fdot2 w) s c → ShortResult (.fdot2 w) s c (words w 3) w.d.toNat 1 (layeredClocks c w.t.toNat) fun r xs =>
      let layer := fun k => (readTans c r k (words w 3))
      let o := dot2Elem w.t.toNat w.m.toNat (src xs 0) (src xs 1) (src xs 2)
        (c.g.map fun k => ((layer k).getD 0 0, (layer k).getD 1 0, (layer k).getD 2 0))
      { o with tans := spreadTans c o.tans })

/-- The division, root and transcendental words owe long results of class 2 (R136, R137, R164). -/
def Sys2Proof.Spec.FloatLongResults : Prop :=
  ∀ p ∈ ([(.fdiv, two, primDiv, tanDiv), (.fsqrt, one, primSqrt, tanSqrt), (.frcp, one, primRcp, tanRcp),
      (.frsq, one, primRsq, tanRsq), (.fexp2, one, primExp2, tanExp2), (.flog2, one, primLog2, tanLog2),
      (.fsin, one, primSin, tanSin), (.fcos, one, primCos, tanCos), (.ftanh, one, primTanh, tanTanh)] :
      List ((FmtA → Instr) × (FmtA → List (Nat × Nat)) × (FpFmt → RMode → List FVal → Rounded) ×
        (FpFmt → RMode → List FVal → List FVal → Rounded))),
    ∀ w s c, Runs (p.1 w) s c →
      LongWordResult (p.1 w) s c 2 (p.2.1 w) w.d.toNat (regs w.t.toNat) (layeredClocks c w.t.toNat)
        (fpCompute w.t.toNat w.m.toNat (p.2.1 w) p.2.2.1 p.2.2.2 c)

/-- The word `i` commits: exec answers its next state, for the state and the operands alone. With D a channel of its own
results, the channel may be sent through, and a short result finds room and a counter set for every Active thread. -/
def Sys2Proof.Spec.Completes (i : Instr) (s : State) (c : Ctx) (srcs : List (Nat × Nat)) (d : Nat) (short : Bool) : Prop :=
  Runs i s c → SourcesReady c s srcs →
    (d < 256 ∨ s.sendFault c.tm (c.tm.chans.getD (d - 256) 0) [1, 2, 3] = none ∧
      (short = true → s.sendRoom c.tm.quad c.act.length = true ∧ s.canCount c.tm.quad c.tm.job = true)) →
    ∃ occ u, exec i s = .next (finish c (.done u occ))

/-- Every floating-point arithmetic word completes on all operands (R128, R133 to R138): no value of a source traps. -/
def Sys2Proof.Spec.FloatWordsComplete : Prop :=
  ∀ (w : FmtA) (s : State) (c : Ctx), let d := w.d.toNat
    Completes (.fadd w) s c (two w) d true ∧ Completes (.fsub w) s c (two w) d true ∧
    Completes (.fmul w) s c (two w) d true ∧ Completes (.ffma w) s c (three w) d true ∧
    Completes (.fmin w) s c (two w) d true ∧ Completes (.fmax w) s c (two w) d true ∧
    Completes (.frnd w) s c (one w) d true ∧ Completes (.fscale w) s c (oneAndWord w) d true ∧
    Completes (.fdot2 w) s c (words w 3) d true ∧
    Completes (.fdiv w) s c (two w) d false ∧ Completes (.fsqrt w) s c (one w) d false ∧
    Completes (.frcp w) s c (one w) d false ∧ Completes (.frsq w) s c (one w) d false ∧
    Completes (.fexp2 w) s c (one w) d false ∧ Completes (.flog2 w) s c (one w) d false ∧
    Completes (.fsin w) s c (one w) d false ∧ Completes (.fcos w) s c (one w) d false ∧
    Completes (.ftanh w) s c (one w) d false

/-- The class of a number by its fields (R140). -/
def Sys2Proof.Spec.classOf (f : FpFmt) (z : Bool) (v : Nat) : Nat :=
  let neg := v / 2 ^ (f.eb + f.mb) % 2 = 1
  let ex := v / 2 ^ f.mb % 2 ^ f.eb
  let fr := v % 2 ^ f.mb
  if ex = 2 ^ f.eb - 1 then (if fr = 0 then (if neg then 2 else 9) else if fr / 2 ^ (f.mb - 1) = 1 then 1 else 0)
  else if ex = 0 ∧ (fr = 0 ∨ z) then (if neg then 5 else 6)
  else if ex = 0 then (if neg then 4 else 7)
  else if neg then 3 else 8

/-- FSETP and both forms of FCLASS; and what FSETP's conditions say of two numbers (R139, R140). -/
def Sys2Proof.Spec.FloatCompareResults : Prop :=
  (∀ w s c,
    (Runs (.fsetp w) s c →
      PredicateResult (.fsetp w) s c (two w) w.d.toNat (typedClocks c w.t.toNat) fun r xs =>
        let f := fmtOf w.t.toNat
        let z := w.m.toNat.testBit 0
        fpCond (w.s3.toNat % 16) (flushIn f z (decodeFp f (mod1 f w.m.toNat (src xs 0))))
            (flushIn f z (decodeFp f (mod2 f w.m.toNat (src xs 1)))) &&
          ((s.thread c.tm.id r).pred (w.s3.toNat / 16 % 8) ^^ w.s3.toNat.testBit 7)) ∧
    (Runs (.fclassPredicate w) s c →
      PredicateResult (.fclassPredicate w) s c (one w) w.d.toNat (typedClocks c w.t.toNat) fun _ xs =>
        w.s2.toNat.testBit (classOf (fmtOf w.t.toNat) (w.m.toNat.testBit 0) (src xs 0))) ∧
    (Runs (.fclassRegister w) s c →
      ShortResult (.fclassRegister w) s c (one w) w.d.toNat 1 (typedClocks c w.t.toNat) fun _ xs =>
        { val := 2 ^ classOf (fmtOf w.t.toNat) (w.m.toNat.testBit 0) (src xs 0) })) ∧
  (∀ cond x y, x.isNaN = true ∨ y.isNaN = true → cond < 14 →
    (fpCond cond x y = true ↔ (6 ≤ cond ∧ cond ≤ 11) ∨ cond = 13)) ∧
  ∀ (x y : FVal) (a b : ℝ), Value x a → Value y b →
    let meets := fun (cond : Nat) (p : Prop) => (fpCond cond x y = true ↔ p)
    meets 0 (a = b) ∧ meets 1 (a ≠ b) ∧ meets 2 (a < b) ∧ meets 3 (a ≤ b) ∧ meets 4 (a > b) ∧ meets 5 (a ≥ b) ∧ meets 6 (a = b) ∧
      meets 7 (a ≠ b) ∧ meets 8 (a < b) ∧ meets 9 (a ≤ b) ∧ meets 10 (a > b) ∧ meets 11 (a ≥ b) ∧ meets 12 True ∧ meets 13 False

/-- The conversion words (R141, R142), and what F2I answers: the number rounded to a whole one, clamped to the type's range,
with an overflow event where that changed it; 0 for a NaN. -/
def Sys2Proof.Spec.ConversionResults : Prop :=
  (∀ w s c,
    let f := fmtOf w.s2.toNat
    let g := fmtOf w.t.toNat
    let layers := fun r k => (readTans c r k [(w.s1.toNat, regs w.s2.toNat)])
    (Runs (.fcvt w) s c →
      ShortResult (.fcvt w) s c [(w.s1.toNat, regs w.s2.toNat)] w.d.toNat (regs w.t.toNat) (layeredClocks c w.t.toNat)
        fun r xs =>
          let e := fpElem f g w.m.toNat xs (c.g.map (layers r)) primId tanId
          { val := e.1, tans := spreadTans c e.2.1, ev := e.2.2 }) ∧
    (Runs (.f2i w) s c →
      ShortResult (.f2i w) s c [(w.s1.toNat, regs w.s2.toNat)] w.d.toNat (regs w.t.toNat) (typedClocks c w.t.toNat)
        fun _ xs =>
          let o := floatToInt f w.t.toNat (rmodeOf w.m.toNat)
            (flushIn f (w.m.toNat.testBit 0) (decodeFp f (mod1 f w.m.toNat (src xs 0))))
          { val := o.1, ev := o.2 }) ∧
    (Runs (.i2f w) s c →
      ShortResult (.i2f w) s c [(w.s1.toNat, regs w.s2.toNat)] w.d.toNat (regs w.t.toNat) (typedClocks c w.t.toNat)
        fun _ xs =>
          let x := lane w.s2.toNat (src xs 0) 0
          let o := primId g (rmodeOf w.m.toNat) [.fin (x < 0) x.natAbs 0]
          { val := o.1, ev := o.2 }) ∧
    (Runs (.fpack w) s c → ShortResult (.fpack w) s c (words w 2) w.d.toNat 1 (layeredClocks c w.t.toNat) fun r xs =>
      let half := fun (j : Nat) (lead : List Nat) =>
        fpElem fp32 g w.m.toNat (lead ++ [src xs j]) (c.g.map fun k => lead ++ [(readTans c r k (words w 2)).getD j 0])
          (fun f r vs => roundExt f r (opndExt vs j)) (fun f r _ ds => roundExt f r (opndExt ds j))
      let a := half 0 []
      let b := half 1 [0]
      { val := a.1 + 2 ^ 16 * b.1,
        tans := spreadTans c ((List.range c.g.length).map fun i => a.2.1.getD i 0 + 2 ^ 16 * b.2.1.getD i 0),
        ev := Nat.lor a.2.2 b.2.2 }) ∧
    (Runs (.funpk w) s c →
      ShortResult (.funpk w) s c (words w 1) w.d.toNat 1 ((1 + c.g.length) * clocks c.act.length 4) fun r xs =>
        let half := fun (v : Nat) => elemAt w.t.toNat v w.s2.toNat
        let e := fpElem g fp32 w.m.toNat (xs.map half) (c.g.map fun k => (readTans c r k (words w 1)).map half) primId tanId
        { val := e.1, tans := spreadTans c e.2.1, ev := e.2.2 })) ∧
  ∀ (f : FpFmt) (t : Nat) (r : RMode), t < 4 →
    let lo : ℤ := if isSigned t then -2 ^ (laneWidth t - 1) else 0
    let hi : ℤ := if isSigned t then 2 ^ (laneWidth t - 1) - 1 else 2 ^ laneWidth t - 1
    let answers := fun (o : Rounded) (x : ℤ) (ev : Nat) => o = ((BitVec.ofInt (laneWidth t) x).toNat, ev)
    (∀ b, floatToInt f t r (.nan b) = (0, evOverflow)) ∧
    (∀ s, answers (floatToInt f t r (.inf s)) (if s then lo else hi) evOverflow) ∧
    ∀ (s : Bool) (m : ℕ) (e : ℤ) (n : ℕ), WholeOf r.mode (s = true) ((m : ℝ) * 2 ^ e) n →
      let x : ℤ := if s then -n else n
      let y := max lo (min hi x)
      answers (floatToInt f t r (.fin s m e)) y (if x = y then 0 else evOverflow)

/-- FMTW, NCVT, and what a narrow code stands for (R143 to R147, R150, R151). NCVT.dec with .ftz flushes its result
alone (the model's choice: log entry 93). -/
def Sys2Proof.Spec.NarrowFormatResults : Prop :=
  (∀ w a s c,
    (Runs (.fmtw w) s c → Commits (.fmtw w) s c 6 (if c.act = [] then s else { s with teams := s.teams.map fun (t : Team) =>
      if t.id = c.tm.id then { t with fregs := t.fregs.set w.d.toNat (BitVec.ofNat 16 w.imm.toNat) } else t })) ∧
    let scale := a.s3.toNat.testBit 8
    let desc := (c.tm.fregs.getD (a.s3.toNat % 16) 0).toNat
    let r := rmodeOf a.m.toNat
    let slot := if scale then 8 else slotOf (descWidth desc)
    (Runs (.ncvtEnc a) s c → ShortResult (.ncvtEnc a) s c (words a 2) a.d.toNat 1 (clocks c.act.length 4) fun q xs =>
      let x := flushIn fp32 r.ftz (decodeFp fp32 (mod1 fp32 a.m.toNat (src xs 0)))
      let o := if scale then encodeScale r x else encodeNarrow desc r x
      let k := src xs 1 % (32 / slot)
      { val := setBits (c.val q a.d.toNat 1) (k * slot + slot - 1) (k * slot) o.1, ev := o.2 }) ∧
    (Runs (.ncvtDec a) s c → ShortResult (.ncvtDec a) s c (words a 2) a.d.toNat 1 (clocks c.act.length 4) fun _ xs =>
      let code := src xs 0 / 2 ^ (src xs 1 % (32 / slot) * slot) % 2 ^ slot
      let v := if scale then decodeScale code else decodeNarrow desc code
      if v.isNaN then { val := 0x7FC00000 } else { val := (roundExt fp32 r v.ext).1, ev := (roundExt fp32 r v.ext).2 })) ∧
  ∀ d, 2 ≤ descWidth d → descWidth d ≤ 8 → (descSP d = true → 2 ≤ descEB d) →
    (∀ code : ℕ, let c := code % 2 ^ descWidth d
      let s := descSG d && c.testBit (descEB d + descMB d)
      let e : ℕ := c / 2 ^ descMB d % 2 ^ descEB d
      let m : ℕ := c % 2 ^ descMB d
      let sign : ℝ := if s then -1 else 1
      let special := descSP d = true ∧ e = 2 ^ descEB d - 1
      (special → m = 0 → decodeNarrow d code = .inf s) ∧ (special → m ≠ 0 → (decodeNarrow d code).isNaN = true) ∧
      (¬ special → e = 0 → Value (decodeNarrow d code) (sign * (m / 2 ^ descMB d) * 2 ^ (1 - descBias d))) ∧
      (¬ special → e ≠ 0 → Value (decodeNarrow d code) (sign * (1 + m / 2 ^ descMB d) * 2 ^ ((e : ℤ) - descBias d)))) ∧
    ∀ (r : RMode) (s : Bool) (m : ℕ) (e : ℤ) (x : ℝ), Value (.fin s m e) x → x ≠ 0 → (s = true → descSG d = true) →
      ∃ n q, (if descEB d = 0 then q = 1 - descBias d - descMB d ∧ WholeOf r.mode (x < 0) (|x| / 2 ^ q) n
          else Significant (descMB d) (1 - descBias d - descMB d) r.mode x n q) ∧
        ((n : ℝ) * 2 ^ q ≤ (2 ^ descMB d + (narrowLargest d % 2 ^ descMB d : ℕ)) *
            (2 : ℝ) ^ ((narrowLargest d / 2 ^ descMB d : ℕ) - descBias d - descMB d) → descEB d ≠ 0 →
          (r.ftz = false ∨ 2 ^ descMB d ≤ n) →
          Value (decodeNarrow d (encodeNarrow d r (.fin s m e)).1) (if s then -(n * 2 ^ q) else n * 2 ^ q))

/-- Encoding into a narrow format (R147): a NaN, infinities, a zero, a negative number of an unsigned format, a rounded magnitude
above the largest number, one that rounds to zero, and the flush of a subnormal result; underflow is counted of an inexact
result below the smallest normal. In an unsigned format a negative number counts narrow saturation alone, by its rounding
before any flush (the model's choice: notes/assumptions/94.md), and nearest-even takes the even significand at a tie, also
without mantissa bits (notes/assumptions/105.md). -/
def Sys2Proof.Spec.NarrowEncodings : Prop :=
  ∀ (d : Nat) (r : RMode), 2 ≤ descWidth d → descWidth d ≤ 8 → (descSP d = true → 2 ≤ descEB d) →
    let eb := descEB d
    let mb := descMB d
    let sg := descSG d
    let sp := descSP d
    let place := 2 ^ (eb + mb)
    let sign := fun (s : Bool) => if sg && s then place else 0
    let infinity := (2 ^ eb - 1) * 2 ^ mb
    let largest := if sp then infinity - 1 else place - 1
    (∀ b, encodeNarrow d r (.nan b) = if sp then (place - 1, 0) else (0, evNarrow)) ∧
    (∀ s e, encodeNarrow d r (.fin s 0 e) = (sign s, 0)) ∧
    (∀ s, encodeNarrow d r (.inf s) =
      if sg = false ∧ s = true then (0, evNarrow)
      else if sp then ((if r.sat then largest else infinity) + sign s, 0) else (largest + sign s, evNarrow)) ∧
    ∀ (s : Bool) (m : ℕ) (e : ℤ) (x : ℝ) (n : ℕ) (q : ℤ), Value (.fin s m e) x → x ≠ 0 →
      (if eb = 0 then q = 1 - descBias d - mb ∧ WholeOf r.mode (x < 0) (|x| / 2 ^ q) n
        else Significant mb (1 - descBias d - mb) r.mode x n q) →
      let y : ℝ := n * 2 ^ q
      let top : ℝ := if eb = 0 then (2 ^ mb - 1) * 2 ^ (1 - descBias d - mb)
        else (2 ^ (mb + 1) - 1) * 2 ^ ((2 : ℤ) ^ eb - 1 - (if sp then 1 else 0) - descBias d - mb)
      let out := encodeNarrow d r (.fin s m e)
      let inward := r.sat = true ∨ r.mode = .zero ∨ (r.mode = .up ∧ s = true) ∨ (r.mode = .down ∧ s = false)
      let under := eb ≠ 0 ∧ |x| < 2 ^ (1 - descBias d) ∧ y ≠ |x|
      (sg = false → s = true → (n = 0 → out = (0, 0)) ∧ (n ≠ 0 → out = (0, evNarrow))) ∧
      (sg = true ∨ s = false →
        (top < y → sp = false → out = (largest + sign s, evNarrow)) ∧
        (top < y → sp = true → (inward → out = (largest + sign s, evOverflow)) ∧ (¬ inward → out = (infinity + sign s, evOverflow))) ∧
        (y ≤ top → r.ftz = true → eb ≠ 0 → n ≠ 0 → n < 2 ^ mb → out = (sign s, evUnderflow)) ∧
        (y ≤ top → r.ftz = false ∨ eb = 0 ∨ n = 0 ∨ 2 ^ mb ≤ n →
          Value (decodeNarrow d out.1) (if s then -y else y) ∧ out.1 < 2 ^ descWidth d ∧ (sg = true → (place ≤ out.1 ↔ s = true)) ∧
            (under → out.2 = evUnderflow) ∧ (¬ under → out.2 = 0)))

/-- Block-scale codes (R148): what a code stands for, and the code of a value, which is rounded onto the codes' values; below the
smallest it goes to zero or to that value, at the middle to zero in nearest-even (notes/assumptions/17.md), and what rounds up
counts no underflow (the model's choice: notes/assumptions/95.md). -/
def Sys2Proof.Spec.ScaleCodes : Prop :=
  (∀ code : ℕ, Value (decodeScale code) (if code % 256 = 0 then 0 else (1 + (code % 8 : ℕ) / 8) * 2 ^ (((code / 8 % 32 : ℕ) : ℤ) - 15))) ∧
  ∀ r : RMode,
    (∀ b, encodeScale r (.nan b) = (0, evNarrow)) ∧ (∀ s, encodeScale r (.inf s) = (if s then 0 else 0xFF, evNarrow)) ∧
    (∀ s e, encodeScale r (.fin s 0 e) = (0, 0)) ∧ (∀ m e, m ≠ 0 → encodeScale r (.fin true m e) = (0, evNarrow)) ∧
    ∀ (m : ℕ) (e : ℤ) (x : ℝ), Value (.fin false m e) x → 0 < x →
      let out := encodeScale r (.fin false m e)
      let least : ℝ := 9 * 2 ^ (-18 : ℤ)
      let greatest : ℝ := 15 * 2 ^ (13 : ℤ)
      (greatest < x → out = (0xFF, evNarrow)) ∧
      (least ≤ x → x ≤ greatest → ∃ n, WholeOf r.mode False (x / 2 ^ (Int.log 2 x - 3)) n ∧ out.2 = 0 ∧ 1 ≤ out.1 ∧ out.1 ≤ 0xFF ∧
        Value (decodeScale out.1) (n * 2 ^ (Int.log 2 x - 3))) ∧
      (x < least →
        let goesUp := (r.mode = .near ∧ least / 2 < x) ∨ (r.mode = .away ∧ least / 2 ≤ x) ∨ r.mode = .up
        (goesUp → out = (1, 0)) ∧ (¬ goesUp → out = (0, evUnderflow)))

/-! ### Numeric events -/

/-- An event register as it stands (R153): its COUNT is cleared once the clock of the quad's core 0 has reached a multiple
of 2^WIN since the register was loaded, written or counted in; other WIN codes have no window. -/
def Sys2Proof.Spec.eventStands (s : State) (t : Team) (cls : Nat) : Nat :=
  let r := (t.events.getD cls 0).toNat
  let win := r / 2 ^ 3 % 2 ^ 5
  if 10 ≤ win ∧ win ≤ 30 ∧ t.winAt.getD cls 0 / 2 ^ win < s.coreCount (4 * t.quad) / 2 ^ win then r % 2 ^ 32 else r

/-- One event in a team's register (05_float.md R153, R154): from the COUNT that its window leaves, COUNT rises to its
end and stays; at an armed threshold HIT is
set, and the gang has a numeric threshold to take at its word's end, or the host gets an interrupt, or both. -/
def Sys2Proof.Spec.NumericEventCounted : Prop :=
  ∀ (s : State) (gid : Nat) (t : Team) (cls : Nat),
    let r := eventStands s (s.team t.id) cls
    let count := min (r / 2 ^ 32 + 1) (2 ^ 32 - 1)
    let threshold := r / 2 ^ 8 % 2 ^ 24
    let hit := threshold ≠ 0 ∧ r % 2 = 0 ∧ threshold ≤ count
    let action := r / 2 % 4
    s.countEvent gid t cls = { s with
      teams := s.teams.map fun (x : Team) => if x.id = t.id then
        { x with events := x.events.set cls (BitVec.ofNat 64 (count * 2 ^ 32 + (r % 2 ^ 32 - r % 2) + if hit then 1 else r % 2)),
                 winAt := x.winAt.set cls (s.coreCount (4 * x.quad)) }
        else x,
      gangs := if hit ∧ (action = 1 ∨ action = 3) then
        s.gangs.map fun (g : Gang) => if g.id = gid then { g with pendWord := true } else g else s.gangs,
      events := if hit ∧ (action = 2 ∨ action = 3) then s.events ++ [(0, t.id, cls)] else s.events }

/-- EVENT_WINDOW_CLEAR (R153): the register takes the value at which it stands already; where no multiple of 2^WIN has
passed, nothing happens. That the window is cleared on reading, and this row only writes the value back, is the model's
choice (log entry 75). -/
def Sys2Proof.Spec.EventWindowCleared : Prop :=
  ∀ (s : State) (team cls : Nat), let t := s.team team
    let r := eventStands s t cls
    exec (.eventWindowClear team cls) s = .next (if r = (t.events.getD cls 0).toNat then s
      else { s with teams := s.teams.map fun (x : Team) => if x.id = team then
        { x with events := x.events.set cls (BitVec.ofNat 64 r), winAt := x.winAt.set cls (s.coreCount (4 * x.quad)) } else x })

/-! ### Glaze -/

/-- A word that writes the layers `ks` of D and leaves the primal (06_glaze.md R159, R176): each Active thread's layer `k`
of D takes `f` of its sources, a g register the lowest-ranked one's; nothing else changes. -/
def Sys2Proof.Spec.LayerResult (i : Instr) (s : State) (c : Ctx) (srcs : List (Nat × Nat)) (d n occ : Nat) (ks : List Nat)
    (f : List Nat → Nat → Nat) : Prop :=
  WaitsForSources i s c srcs ∧
  let g := gatherSrcs c srcs s c.act
  (SourcesReady c s srcs → ∃ u : State, Commits i s c occ u ∧ OnlyRegs g.2 u ∧
    (d < 255 → ∀ r, d < 192 ∨ r = c.lead → ∀ xs, resultFor c.act g.1 r = some xs → ∀ k ∈ ks, ∀ j < n,
      Holds s c.tm.id r k (d + j) → u.reg c.tm.id r k (d + j) = valueWord (f xs k) j) ∧
    ∀ team r k i, (Holds s team r k i ∨ i = 255) →
      ¬ (team = c.tm.id ∧ k ∈ ks ∧ d ≤ i ∧ i < d + n ∧ d < 255 ∧ (d < 192 → r ∈ c.act)) → u.reg team r k i = s.reg team r k i)

/-- GLZ has no effect of its own and takes no time (R163); the words it covers have the glazed set of R161: with glaze-all
every layer, else none, then the mask added or taken away. -/
def Obligations.GlazeSpans : Prop :=
  (∀ w s c, Runs (.glz w) s c → Commits (.glz w) s c 0 s) ∧
  ∀ (t : Team) (clause : List DWord) (i k : Nat), 1 ≤ i → (k ∈ glazedSet t clause i ↔
    (1 ≤ k ∧ k ≤ t.depth) ∧
    let covers := fun (j : Nat) (g : FmtG) => j + 1 < i ∧ i ≤ j + 1 + g.n.toNat ∧ j < clause.length ∧
      clause.getD j 0 / 2 ^ 56 = 0x0A ∧ g = splitG (clause.getD j 0) ∧
      ∀ j' < j, ¬ (clause.getD j' 0 / 2 ^ 56 = 0x0A ∧ i ≤ j' + 1 + (splitG (clause.getD j' 0)).n.toNat)
    ((∀ j g, ¬ covers j g) → t.gall = true) ∧
    (∀ j g, covers j g → g.md = 0 → t.gall = true ∨ g.msk.toNat.testBit (k - 1) = true) ∧
    (∀ j g, covers j g → g.md ≠ 0 → t.gall = true ∧ g.msk.toNat.testBit (k - 1) = false))

/-- The layer forms (R175, R176): TGET reads a layer, TSET writes one, TZERO and TSEED write zeros, or one and zeros, to the
layers of a mask, and GPLN adds plane strides to an address. -/
def Obligations.LayerWords : Prop :=
  ∀ w s c, let n := regs w.t.toNat
    let masked := [1, 2, 3, 4].filter fun k => w.s3.toNat.testBit (k - 1)
    (Runs (.tget w) s c → ShortResult (.tget w) s c [] w.d.toNat n (typedClocks c w.t.toNat) fun r _ =>
      { val := c.tan r w.s3.toNat w.s1.toNat n }) ∧
    (Runs (.tset w) s c → LayerResult (.tset w) s c (one w) w.d.toNat n (typedClocks c w.t.toNat) [w.s3.toNat]
      fun xs _ => src xs 0) ∧
    (Runs (.tzero w) s c → LayerResult (.tzero w) s c [] w.d.toNat n (typedClocks c w.t.toNat) masked fun _ _ => 0) ∧
    (Runs (.tseed w) s c → LayerResult (.tseed w) s c (words w 1) w.d.toNat n (typedClocks c w.t.toNat) masked fun xs k =>
      if src xs 0 = k then (if w.t.toNat = 5 then 0x3F800000 else if w.t.toNat = 6 then 0x3FF0000000000000
        else if w.t.toNat = 7 then 0x3C00 else 0x3F80) else 0) ∧
    (Runs (.gpln w) s c → ShortResult (.gpln w) s c [] w.d.toNat n (typedClocks c w.t.toNat) fun r _ =>
      { val := (BitVec.ofNat (32 * n) (c.val r w.s1.toNat n) + BitVec.ofNat (32 * n) w.s3.toNat * BitVec.ofNat (32 * n) c.tm.gplane.toNat).toNat })

/-! ### Pool -/

/-- The checks of a pool address in the order of R18, R107, R108 and R179: alignment, then the aperture's bounds or the
share's. `ap` says that the form may address the aperture. -/
def Sys2Proof.Spec.badAddress (c : Ctx) (ea size : Nat) (ap : Bool) : Option Cause :=
  let plane := ea / 2 ^ 16 % 2 ^ 3
  let last := ea % 2 ^ 16 + size
  if ea % size ≠ 0 then some .misaligned
  else if ea / 2 ^ 30 = 3 then
    if ap = false then some .apertureBound
    else if ea / 2 ^ 19 % 2 ^ 11 ≠ 0 then some .apertureBound
    else if plane = 5 then (if c.gang.sys = true ∧ last ≤ 256 then none else some .apertureBound)
    else if plane ≤ c.tm.depth ∧ last ≤ 4 * c.tm.alloc then none
    else some .apertureBound
  else if ea / 2 ^ 30 = 0 ∧ ea / 2 ^ 20 % 2 ^ 4 = 0 ∧ ea / 2 ^ 24 % 2 ^ 6 < 4 * c.cluster.quads.length ∧
      ea % 2 ^ 20 < c.cluster.share then none
  else some .poolOutside

/-- The access that a piece of thread `r` becomes, number `id`: the share or, in the aperture, the thread's own file, and the
bytes there; it follows the accesses `before` (R170, R178). The accesses of one word of a thread have one number `grp`. -/
def Sys2Proof.Spec.accessOf (c : Ctx) (ticket sc ord r grp id : Nat) (before : List Nat) (p : Piece) : Access :=
  let own := p.ea / 2 ^ 30 = 3
  { id, ticket, cluster := c.tm.cluster, team := c.tm.id, rank := r, src := 4 * c.tm.idx + r % 32 / 8,
    dst := if own then none else some (p.ea / 2 ^ 24 % 2 ^ 6),
    key := if own then p.ea % 2 ^ 19 else p.ea / 2 ^ 24 % 2 ^ 6 * 2 ^ 20 + p.ea % 2 ^ 20,
    size := p.size, sc, ord, sys := c.gang.sys, op := p.op, after := before, grp, seq := id }

/-- The accesses of one set of planes, from number `id` on: each plane's follow those of the plane before it (R170). -/
def Sys2Proof.Spec.planesSent (c : Ctx) (ticket sc ord r grp : Nat) : Nat → List Nat → List (List Piece) → List Access
  | _, _, [] => []
  | id, before, ps :: rest =>
    (ps.mapIdx fun k p => accessOf c ticket sc ord r grp (id + k) before p) ++
      planesSent c ticket sc ord r grp (id + ps.length) ((List.range ps.length).map (id + ·)) rest

/-- The accesses of one thread's word, from number `id` on: the sets have no order among them (R189). -/
def Sys2Proof.Spec.setsSent (c : Ctx) (ticket sc ord r grp : Nat) : Nat → List (List (List Piece)) → List Access
  | _, [] => []
  | id, ps :: rest => planesSent c ticket sc ord r grp id [] ps ++ setsSent c ticket sc ord r grp (id + ps.flatten.length) rest

/-- The accesses of the threads listed, in rank order. -/
def Sys2Proof.Spec.accessesOf (c : Ctx) (ticket sc ord : Nat) (sets : Nat → List (List (List Piece))) : Nat → List Nat → List Access
  | _, [] => []
  | id, r :: rs => setsSent c ticket sc ord r id id (sets r) ++ accessesOf c ticket sc ord sets (id + (sets r).flatten.flatten.length) rs

/-- From `s` to `u` the accesses of the threads listed have been sent under one ticket of class 0, which is owed one part for
each; nothing else changes (R182). -/
def Sys2Proof.Spec.Sent (c : Ctx) (s : State) (sc ord : Nat) (sets : Nat → List (List (List Piece))) (rs : List Nat) (u : State) :
    Prop :=
  let new := accessesOf c s.nextId sc ord sets (s.nextId + 1) rs
  u = { s with
    nextId := s.nextId + 1 + new.length,
    tickets := s.tickets ++ (if new = [] then []
      else [{ id := s.nextId, cls := 0, team := c.tm.id, gangs := [c.gid], parts := new.map (·.rank) }]),
    accesses := s.accesses ++ new }

/-- What keeps a thread at a word that finds its line to be walked (R212): the walk, which begins with the fill unless it has,
but not before what the thread has under way acquires (R352). -/
def Sys2Proof.Spec.walkWait (c : Ctx) (u : State) (r line ea : Nat) (weakStore : Bool) : State × Wait :=
  let walk := Wait.line c.tm.cluster line ea weakStore
  if ((u.cluster c.tm.cluster).line line).st = .filling then (u, walk)
  else if u.acquiring c.tm.id r ≠ [] then (u, .flights (u.acquiring c.tm.id r))
  else (u.startFill c.tm.cluster line c.gang.sys, walk)

/-- A word whose Active threads send pool accesses: with sound addresses and no line to wait for it commits with all of
them; the first thread with a bad address traps, and a line whose walk is to come holds the gang there, with the threads
below it done (R87, R89, R179, R212). -/
def Sys2Proof.Spec.PoolWord (i : Instr) (s : State) (c : Ctx) (occ sc ord size : Nat) (loads weakStore : Bool)
    (bad : Nat → Option (Cause × Nat)) (eas : Nat → List Nat) (sets : Nat → List (List (List Piece))) : Prop :=
  let good := fun (r : Nat) => bad r = none ∧ lineHold c s (eas r) size loads weakStore = none
  (c.act = [] → Commits i s c occ s) ∧
  (c.act ≠ [] → (∀ r ∈ c.act, good r) → ∃ u : State, Commits i s c occ u ∧ Sent c s sc ord sets c.act u) ∧
  ∀ below r above, c.act = below ++ r :: above → (∀ q ∈ below, good q) →
    (∀ cause a, bad r = some (cause, a) → ∃ u : State, Sent c s sc ord sets below u ∧
      exec i s = .next (u.takeTrap c.gid (some cause) (c.gang.done ++ below) (c.act.filter fun q => !below.contains q)
        c.gang.word a 0 c.gang.nextPc)) ∧
    (∀ line ea, bad r = none → lineHold c s (eas r) size loads weakStore = some (line, ea) → ∃ u : State,
      Sent c s sc ord sets below u ∧
      let v := walkWait c u r line ea weakStore
      exec i s = .next (v.1.updGang c.gid fun g =>
        { g with done := g.done ++ below, status := .held v.2, idleSince := s.dieClock (c.tm.quad / 32) }))

/-- The effective address of a format M or N pool word (R37): base, index and scaled offset, modulo 2^32. -/
def Sys2Proof.Spec.poolAddress (c : Ctx) (r a x size : Nat) (off : Int) : Nat :=
  (BitVec.ofInt 32 (c.val r a 1 + c.val r x 1 + off * size)).toNat

/-- Occupancy of a pool access (R71, R182). -/
def Sys2Proof.Spec.poolClocks (size n : Nat) : Nat :=
  if size = 32 then max 6 (2 * n) else clocks n (if size = 16 then 1 else if size = 8 then 2 else 4)

/-- Registers of a width code: one, or the bytes' worth (R44). -/
def Sys2Proof.Spec.wordRegs (size : Nat) : Nat := max 1 (size / 4)

/-- The planes that a glazed access moves: the layers in G, where the plane stride is not zero (R169). -/
def Sys2Proof.Spec.planes (c : Ctx) : List Nat := if c.tm.gplane.toNat % 2 ^ 32 = 0 then [] else c.g

/-- The first of a thread's addresses that fails its checks. -/
def Sys2Proof.Spec.firstBad (c : Ctx) (size : Nat) (ap : Bool) (eas : List Nat) : Option (Cause × Nat) :=
  eas.findSome? fun ea => (badAddress c ea size ap).map fun cause => (cause, ea)

/-- D of a thread's load: a g register takes the lowest-ranked Active thread's alone (R110). -/
def Sys2Proof.Spec.loadDest (c : Ctx) (r d : Nat) : Nat := if 192 ≤ d ∧ d < 255 ∧ r ≠ c.lead then 255 else d

/-- LDP and STP (R108, R169, R170, R180 to R182): the primal and, outside the aperture, the planes, in pieces of at most
8 bytes, in the aperture whole; a load's other layers become zero, and with C it takes the count. The pieces of 8 bytes
are the model's choice (log entry 55), and so is the hold at the first line whose page is to be walked (log entry 80).
-/
def Sys2Proof.Spec.PoolLoadAndStoreWords : Prop :=
  ∀ w s c, let size := 2 ^ w.w.toNat
    let n := wordRegs size
    let ea := fun r => poolAddress c r w.a.toNat w.x.toNat size w.off.toInt
    let layers := fun r => if ea r / 2 ^ 30 = 3 then [] else planes c
    let at_ := fun r k => (ea r + k * (c.tm.gplane.toNat % 2 ^ 32)) % 2 ^ 32
    let eas := fun r => ea r :: (layers r).map (at_ r)
    let occ := (1 + if ∀ r ∈ c.act, ea r / 2 ^ 30 = 3 then 0 else (planes c).length) * poolClocks size c.act.length
    (Runs (.ldp w) s c →
      PoolWord (.ldp w) s c occ w.sc.toNat w.or.toNat size true false (fun r => firstBad c size true (eas r)) eas fun r =>
        let d := loadDest c r w.d.toNat
        [cutLoad (ea r) size d 0 (((List.range c.tm.depth).map (· + 1)).filter fun k => !(layers r).contains k)
            (if w.c = 1 ∧ d < 255 then some (d + n) else none) ::
          (layers r).map fun k => cutLoad (at_ r k) size d k [] none]) ∧
    (Runs (.stp w) s c →
      PoolWord (.stp w) s c occ w.sc.toNat w.or.toNat size false (w.or == 0) (fun r => firstBad c size true (eas r)) eas fun r =>
        [cutStore (ea r) size (c.val r w.d.toNat n) ::
          (layers r).map fun k => cutStore (at_ r k) size (c.tan r k w.d.toNat n)])

/-- LDPF, STPE, FESET, ATOMP, CASP and MCST (R180, R183, R186, R187, R189). MCST checks its primal address, and then
each plane's; a mask of zero stores nothing and raises no trap. FESET's 8-byte access is the model's choice (log entry
51). -/
def Sys2Proof.Spec.PoolSynchronizedWords : Prop :=
  ∀ w a q s c, let size := 2 ^ w.w.toNat
    let n := wordRegs size
    let ea := fun r => poolAddress c r w.a.toNat w.x.toNat size w.off.toInt
    let single := fun (size : Nat) (ea : Nat → Nat) (op : Nat → PoolOp) (r : Nat) => [[[({ ea := ea r, size, op := op r } : Piece)]]]
    let bad := fun (size : Nat) (ea : Nat → Nat) (r : Nat) => firstBad c size false [ea r]
    let count := fun (set : Bool) (r d n : Nat) => if set = true ∧ loadDest c r d < 255 then some (loadDest c r d + n) else none
    (Runs (.ldpf w) s c →
      PoolWord (.ldpf w) s c (poolClocks size c.act.length) w.sc.toNat w.or.toNat size true false (bad size ea) (fun r => [ea r])
        (single size ea fun r => .loadFull (loadDest c r w.d.toNat) (w.c == 1) (count (w.c == 1) r w.d.toNat n))) ∧
    (Runs (.stpe w) s c →
      PoolWord (.stpe w) s c (poolClocks size c.act.length) w.sc.toNat w.or.toNat size false (w.or == 0) (bad size ea) (fun r => [ea r])
        (single size ea fun r => .storeEmpty (toBytes size (c.val r w.d.toNat n)))) ∧
    (Runs (.feset w) s c → let ea := fun r => poolAddress c r w.a.toNat w.x.toNat 8 w.off.toInt
      PoolWord (.feset w) s c (clocks c.act.length 4) w.sc.toNat w.or.toNat 8 false (w.or == 0) (bad 8 ea) (fun r => [ea r])
        (single 8 ea fun r => .setState ((c.val r w.d.toNat 1).testBit 0))) ∧
    (Runs (.atomp a) s c → let size := 2 ^ a.w.toNat
      let n := wordRegs size
      let ea := fun r => poolAddress c r a.a.toNat a.x.toNat size a.off.toInt
      PoolWord (.atomp a) s c (poolClocks size c.act.length) a.sc.toNat a.or.toNat size true false (bad size ea) (fun r => [ea r])
        (single size ea fun r => .atomic a.ao.toNat (loadDest c r a.d.toNat) (c.val r a.d.toNat n) (count (a.c == 1) r a.d.toNat n))) ∧
    (Runs (.casp q) s c → let n := regs q.t.toNat
      let ea := fun r => c.val r q.s1.toNat 1
      PoolWord (.casp q) s c (poolClocks (4 * n) c.act.length) (q.m.toNat / 4 % 8) (q.m.toNat % 4) (4 * n) true false (bad (4 * n) ea)
        (fun r => [ea r])
        (single (4 * n) ea fun r => .cas (loadDest c r q.d.toNat) (c.val r q.s2.toNat n) (c.val r q.s3.toNat n))) ∧
    (Runs (.mcst w) s c →
      let ea := fun r => (BitVec.ofInt 32 (c.val r w.a.toNat 1 + w.off.toInt * size)).toNat
      let mask := fun r => c.val r w.x.toNat 2
      let slots := fun r => (List.range 48).filter fun k => (mask r).testBit k
      let at_ := fun r k => (ea r + k * (c.tm.gplane.toNat % 2 ^ 32)) % 2 ^ 32
      let replica := fun a k => setBits a 29 24 k
      let addrs := fun r => ea r :: (planes c).map (at_ r)
      let wrong := fun (r x : Nat) =>
        if x % size ≠ 0 then some Cause.misaligned
        else if x / 2 ^ 30 = 3 then some .apertureBound
        else if x / 2 ^ 30 ≠ 0 then some .poolOutside
        else if mask r / 2 ^ 48 ≠ 0 then some .illegalOperand
        else (slots r).findSome? fun k => badAddress c (replica x k) size false
      PoolWord (.mcst w) s c ((1 + (planes c).length) * poolClocks size c.act.length) w.sc.toNat w.or.toNat size false (w.or == 0)
        (fun r => if mask r = 0 then none else (addrs r).findSome? fun x => (wrong r x).map fun cause => (cause, x))
        (fun r => (slots r).flatMap fun k => (addrs r).map fun x => replica x k)
        fun r => (slots r).map fun k => cutStore (replica (ea r) k) size (c.val r w.d.toNat n) ::
          (planes c).map fun l => cutStore (replica (at_ r l) k) size (c.tan r l w.d.toNat n))

/-- What the bytes of an access become, from the number `v` that they hold (R181, R183, R186, R187, R197, R255). -/
def Sys2Proof.Spec.stored (a : Access) (v : Nat) : List Byte :=
  match a.op with
  | .store bs => bs
  | .storeEmpty bs => bs
  | .atomic ao _ x _ => if ao = 12 then [] else toBytes a.size (atomicOp ao a.size v x)
  | .cas _ cmp new => if v = cmp then toBytes a.size new else []
  | .ring writer _ => match ringTake v writer with
    | some h => toBytes 16 h.1
    | none => []
  | .layout g p coords _ _ _ => toBytes 64 (layMove v g p coords)
  | _ => []

/-- The full bit that an access leaves, where it changes it (R183). -/
def Sys2Proof.Spec.fullAfter (a : Access) : Option Bool :=
  match a.op with
  | .loadFull _ take _ => if take then some false else none
  | .storeEmpty _ => some true
  | .setState f => some f
  | _ => none

/-- The registers that an access writes, where it writes any: `v` the bytes' number, `cnt` the word's count. -/
def Sys2Proof.Spec.loaded (t : Team) (c : Cluster) (a : Access) (v cnt : Nat) : Option (List (Nat × Nat × Word)) :=
  let all := (List.range t.depth).map (· + 1)
  match a.op with
  | .load d plane zero count => some (loadWrites t d plane a.size v zero (count.map fun r => (r, cnt)))
  | .loadFull d _ count => some (loadWrites t d 0 a.size v all (count.map fun r => (r, cnt)))
  | .atomic _ d _ count => some (loadWrites t d 0 a.size v all (count.map fun r => (r, cnt)))
  | .cas d _ _ => some (loadWrites t d 0 a.size v all none)
  | .ring writer d => (ringTake v writer).map fun h => loadWrites t d 0 4 (addrOfKey (slotKey a.key v h.2)) all none
  | .layout g p coords depth stride d => some (loadWrites t d 0 4 (layStatus c (layMove v g p coords) depth stride) all none)
  | _ => none

/-- The end of a served access: a waiter of a barrier takes its predicate (R193); registers, or an acknowledgement. -/
def Sys2Proof.Spec.servedEnd (u : State) (t : Team) (c : Cluster) (a : Access) (v cnt : Nat) : State :=
  match a.op, loaded t c a v cnt with
  | .barrier _ p, _ => u.addResult a.ticket a.team a.rank (.pred p (!v.testBit 0))
  | _, some ws => u.addRegResults a.ticket a.team a.rank ws
  | _, none => (u.settleTicket a.ticket a.rank).fileReady

/-- Whether an access can be served: LDPF on a full word, STPE on an empty one, RNGW with a slot free or filled, BARW on an
object whose phase is past its token's (R183, R193, R197). -/
def Sys2Proof.Spec.servable (c : Cluster) (a : Access) (v : Nat) : Bool :=
  match a.op with
  | .loadFull .. => !c.empties.contains (a.key / 8)
  | .storeEmpty _ => c.empties.contains (a.key / 8)
  | .ring writer _ => (ringTake v writer).isSome
  | .barrier token _ => decide (v / 2 ^ 4 % 2 ^ 4 = 0xA ∧ token ≠ v / 2 % 2)
  | _ => true

/-- The share refuses a barrier or ring wait that arrives again, while its gang is held for it (R192, R197). -/
def Sys2Proof.Spec.refusedAt (a : Access) (v : Nat) : Option Cause :=
  match a.op with
  | .barrier .. => if v / 2 ^ 4 % 2 ^ 4 = 0xA then none else some .invalidBarrier
  | .ring writer _ => if v / 2 ^ 120 % 2 ^ 4 = 5 ∧ v.testBit (if writer then 127 else 126) = false then none else some .ringMisuse
  | _ => none

/-- A byte of a thread's own file: a register of a plane, or the trap window (R107, R364). -/
def Sys2Proof.Spec.OwnByte (s : State) (team rank key : Nat) : Prop :=
  let i := key % 2 ^ 16 / 4
  (s.threads.any fun t => t.team == team && t.rank == rank) = true ∧
  (key / 2 ^ 16 = 5 → i < (s.thread team rank).window.length) ∧
  (key / 2 ^ 16 ≠ 5 → i < (s.team team).alloc ∧ key / 2 ^ 16 * (s.team team).alloc + i < (s.thread team rank).regs.length)

/-- Aperture accesses read and write the bytes of the thread's own registers and touch nothing else (R107, R108). That
it performs whole, and that a store to plane 0 leaves the other layers, are the model's choices (log entries 55 and 53).
-/
def Sys2Proof.Spec.ApertureAccessPerforms : Prop :=
  ∀ (s : State) (a : Access), (s.accesses.find? fun e => decide (e.id = a.id ∧ e.state = .sent)) = some a →
    s.blockers a = [] → a.dst = none →
    let rest : State := { s with accesses := s.accesses.filter fun e => e.id != a.id }
    (∀ d plane zero count, a.op = .load d plane zero count →
      exec (.poolAccessPerform a.id) s = .next (rest.addRegResults a.ticket a.team a.rank (loadWrites (s.team a.team) d plane a.size
        (fromBytes ((List.range a.size).map fun i => s.apByte a.team a.rank (a.key + i))) zero (count.map fun r => (r, 1))))) ∧
    ∀ bs, a.op = .store bs → ∃ u : State,
      exec (.poolAccessPerform a.id) s = .next ((u.settleTicket a.ticket a.rank).fileReady) ∧
      u = { rest with threads := u.threads } ∧
      (u.threads.map fun (t : Thread) => { t with regs := [], window := [] }) = (s.threads.map fun (t : Thread) => { t with regs := [], window := [] }) ∧
      (∀ team rank key, ¬ (team = a.team ∧ rank = a.rank) → u.apByte team rank key = s.apByte team rank key) ∧
      ((∀ i < bs.length, OwnByte s a.team a.rank (a.key + i)) → ∀ key, OwnByte s a.team a.rank key →
        u.apByte a.team a.rank key =
          if a.key ≤ key ∧ key < a.key + bs.length then bs.getD (key - a.key) 0 else s.apByte a.team a.rank key)

/-- POOL_ACCESS_RETRY, and what becomes of an access that cannot be served (R184, R185, R206, R207): it waits in its bank,
or is rejected and sent again: 64 clocks of its die later where it lacked a fill slot, else 32; after the eighth rejection
it is aged. -/
def Sys2Proof.Spec.PoolAccessWaits : Prop :=
  ∀ (s : State) (a : Access),
    let change := fun (f : Access → Access) => s.accesses.map fun (e : Access) => if e.id = a.id then f e else e
    let die := (s.team a.team).quad / 32
    (s.noSlot a = false → s.entryFor a = true →
      s.waitOrReject a = { s with nextId := s.nextId + 1, accesses := change fun e => { e with state := .waiting s.nextId } }) ∧
    (s.noSlot a = true ∨ s.entryFor a = false → ∃ u : State, s.waitOrReject a = u.bump (s.team a.team).quad 6 ∧
      u = { s with nextId := s.nextId + 1, accesses := change fun e =>
        { e with state := .rejected (s.dieClock die + if s.noSlot a then 64 else 32), rejects := e.rejects + 1,
                 aged := if e.aged = none ∧ 8 ≤ e.rejects + 1 then some s.nextId else e.aged } }) ∧
    ((s.accesses.find? fun e => e.id == a.id) = some a →
      (∀ t, a.state = .rejected t → t ≤ s.dieClock die → exec (.poolAccessRetry a.id) s = .next { s with
        nextId := s.nextId + 1, accesses := change fun e => { e with state := .sent, seq := s.nextId } }) ∧
      ((∀ t, a.state = .rejected t → s.dieClock die < t) → exec (.poolAccessRetry a.id) s = .next s))

/-- An access never performs before an access of an earlier word of its thread that touches a byte of it, that is an
acquire, or that its own release covers (R345), nor before one on its way that has its place before it in the order of
their pair (R190). That R345's orders hold whatever the scope is the model's choice (log entry 102). -/
def Sys2Proof.Spec.PoolAccessOrder : Prop :=
  ∀ (s : State) (a e : Access), (s.accesses.find? fun x => decide (x.id = a.id ∧ x.state = .sent)) = some a → e ∈ s.accesses →
    (e.team = a.team → e.rank = a.rank → e.id < a.id → a.grp = 0 ∨ e.grp ≠ a.grp →
      ((e.dst = a.dst ∧ e.cluster = a.cluster ∧ ∃ k, e.key ≤ k ∧ k < e.key + e.size ∧ a.key ≤ k ∧ k < a.key + a.size) ∨
        e.ord = 2 ∨ a.ord = 3) →
      exec (.poolAccessPerform a.id) s = .next s) ∧
    (e.cluster = a.cluster → e.src = a.src → e.dst = a.dst → a.dst ≠ none → e.state = .sent → e.id ≠ a.id → e.seq < a.seq →
      e.id ∉ s.resting e.team → exec (.poolAccessPerform a.id) s = .next s) ∧
    -- what takes no place rests itself, or its own thread keeps it behind what does
    ∀ i ∈ s.resting e.team, (∃ x ∈ s.accesses, x.id = i ∧ x.team = e.team ∧ x.state ≠ .sent) ∨
      (∃ l ∈ (s.team e.team).tbar, ∃ p ∈ l, p.2.1 = i) ∨ (∃ w ∈ s.engineWaits, w.team = e.team ∧ w.ticket = i ∧ w.act.acquires = true) ∨
      (∃ w ∈ s.recvWaits, w.team = e.team ∧ w.ticket = i ∧ w.acq ≠ 0) ∨
      ∃ k ∈ s.resting e.team, (∃ x ∈ s.accesses, x.id = i ∧ k ∈ s.holds x) ∨ ∃ x ∈ s.reqs, x.id = i ∧ k ∈ s.reqHolds x

/-! ### Barriers and rings -/

/-- The access of a barrier or ring word for thread `r`, as the share would see it (R192). -/
def Sys2Proof.Spec.objectAccess (c : Ctx) (s : State) (ticket ea size ord r : Nat) : Access :=
  { id := s.nextId, ticket, cluster := c.tm.cluster, team := c.tm.id, rank := r, src := 4 * c.tm.idx + r % 32 / 8,
    dst := some (ea / 2 ^ 24 % 2 ^ 6), key := keyOf ea, size, ord, sys := c.gang.sys, seq := s.nextId }

/-- The place in its pair that a thread's held word has taken already (R190). -/
def Sys2Proof.Spec.placeTaken (c : Ctx) (s : State) (r : Nat) : Option Access :=
  s.accesses.find? fun a => a.op == .place && a.team == c.tm.id && a.rank == r

/-- The access of a barrier or ring word for thread `r`, at the place that it has. -/
def Sys2Proof.Spec.atPlace (c : Ctx) (s : State) (ticket ea size ord r : Nat) : Access :=
  match placeTaken c s r with
  | none => objectAccess c s ticket ea size ord r
  | some p => { objectAccess c s ticket ea size ord r with id := p.id, seq := p.seq }

/-- The thread's place is given up to its access. -/
def Sys2Proof.Spec.givesPlace (c : Ctx) (s : State) (r : Nat) : State :=
  match placeTaken c s r with
  | none => s
  | some p => { s with accesses := s.accesses.filter fun a => a.id != p.id }

/-- The threads listed of a held word take places in their pairs, those that have none and whose address is sound: the order
of a pair is that of issue (R190; model's choice, log entry 37). -/
def Sys2Proof.Spec.takePlaces (c : Ctx) (ea : Nat → Nat) (size ord : Nat) (s : State) (ranks : List Nat) : State :=
  ranks.foldl (fun v r =>
    if badAddress c (ea r) size false ≠ none ∨ placeTaken c v r ≠ none then v
    else { v with
      nextId := v.nextId + 1,
      accesses := v.accesses ++ [{ objectAccess c v 0 (ea r) size ord r with op := .place }],
      gangs := v.gangs.map fun (g : Gang) => if g.id = c.gid then { g with flight := g.flight ++ [v.nextId] } else g }) s

/-- Nothing keeps a thread's access from its object: a sound address, no page walk to wait for, no earlier access of the
thread to wait for, and a line that serves it. -/
def Sys2Proof.Spec.reaches (c : Ctx) (s : State) (ticket ea size ord r : Nat) : Bool :=
  (badAddress c ea size false).isNone && (lineHold c s [ea] size true false).isNone &&
    (s.blockers (atPlace c s ticket ea size ord r)).isEmpty && (s.lineServes c.tm.cluster (keyOf ea) size true c.gang.sys).1

/-- What the object does with a thread's operation (R192): it is refused; it is done, and leaves a state; it is done, and
owes the thread a result; or it waits at the object. -/
inductive Sys2Proof.Spec.ObjectOut where
  | refuse (cause : Cause)
  | done (s : State)
  | after (s : State) (result : ResultAct)
  | waits (op : PoolOp)

/-- A thread is owed one more result under a ticket, and it is ready (R72). -/
def Sys2Proof.Spec.owes (c : Ctx) (s : State) (ticket r : Nat) (result : ResultAct) : State :=
  { s with
    nextId := s.nextId + 1,
    tickets := s.tickets.map fun (t : Ticket) => if t.id = ticket then { t with parts := t.parts ++ [r] } else t,
    results := s.results ++ [{ id := s.nextId, ticket, team := c.tm.id, rank := r, act := result }] }

/-- A thread's access is sent to its object and stands there in a state (R184, R185). -/
def Sys2Proof.Spec.standsAt (s : State) (a : Access) (now_ : Nat → AccessState) : State :=
  { s with
    nextId := s.nextId + 2,
    tickets := s.tickets.map fun (t : Ticket) => if t.id = a.ticket then { t with parts := t.parts ++ [a.rank] } else t,
    accesses := s.accesses ++ [{ a with id := s.nextId, seq := s.nextId, state := now_ (s.nextId + 1) }] }

/-- A thread's access waits at its object (R184). -/
def Sys2Proof.Spec.waitsAt (s : State) (a : Access) : State := standsAt s a fun n => .waiting n

/-- The operations of the threads in turn, while each reaches its object and is not refused. -/
def Sys2Proof.Spec.inTurn (c : Ctx) (ticket : Nat) (access : State → Nat → Access) (place : State → Nat → State)
    (ok : State → Nat → Bool) (op : State → Nat → ObjectOut) : State → List Nat → Option State
  | s, [] => some s
  | s, r :: rs =>
    if ok s r then
      let u := place s r
      match op u r with
      | .refuse _ => none
      | .done v => inTurn c ticket access place ok op v rs
      | .after v result => inTurn c ticket access place ok op (owes c v ticket r result) rs
      | .waits p =>
        if u.entryFor (access s r) then inTurn c ticket access place ok op (waitsAt u { access s r with op := p }) rs else none
    else none

/-- A one-register result, with zero layers. -/
def Sys2Proof.Spec.oneResult (c : Ctx) (d v : Nat) : ResultAct :=
  if d = 255 then .nothing
  else .regs ((0, d, BitVec.ofNat 32 v) :: ((List.range c.tm.depth).map fun k => (k + 1, d, 0)))

/-- A barrier or ring word (R87, R89, R192): the Active threads operate in rank order; the first that cannot reach its
object traps or holds the gang, and a refusal traps, with the threads before it done. A thread that must wait where its bank
has no entry for it is rejected, and the gang is held until its access, sent again, is accepted (R185, R192). A word with a
long result is owed it from its issue on under the ticket numbered `s.nextId`, of class 6. -/
def Sys2Proof.Spec.ObjectWord (i : Instr) (s : State) (c : Ctx) (long : Bool) (occ size ord : Nat) (ea : Nat → Nat)
    (op : State → Nat → ObjectOut) : Prop :=
  let owes := long && !c.act.isEmpty
  let ticket := if owes then s.nextId else 0
  let s0 : State := if owes then { s with
    nextId := s.nextId + 1,
    tickets := s.tickets ++ [{ id := s.nextId, cls := 6, team := c.tm.id, gangs := [c.gid], parts := [c.lead] }] } else s
  let close := fun (u : State) => if owes then u.settleTicket s.nextId c.lead else u
  let at_ := fun (u : State) (r : Nat) => atPlace c u ticket (ea r) size ord r
  let holds := fun (u : State) (below behind : List Nat) (w : Wait) =>
    exec i s = .next ((takePlaces c ea size ord (close u) behind).updGang c.gid fun g =>
      { g with done := g.done ++ below, status := .held w, idleSince := s.dieClock (c.tm.quad / 32) })
  ∀ below above u, c.act.Nodup → c.act = below ++ above →
    inTurn c ticket at_ (givesPlace c) (fun s r => reaches c s ticket (ea r) size ord r) op s0 below = some u →
    (above = [] → Commits i s c occ (close u)) ∧
    ∀ r rest, above = r :: rest →
      let traps := fun (v : State) (cause : Cause) => exec i s = .next ((close v).takeTrap c.gid (some cause) (c.gang.done ++ below)
        (c.act.filter fun q => !below.contains q) c.gang.word (ea r) 0 c.gang.nextPc)
      let serves := u.lineServes c.tm.cluster (keyOf (ea r)) size true c.gang.sys
      (∀ cause, badAddress c (ea r) size false = some cause → traps u cause) ∧
      (∀ line a, badAddress c (ea r) size false = none → lineHold c u [ea r] size true false = some (line, a) →
        holds (walkWait c u r line a false).1 below above (walkWait c u r line a false).2) ∧
      (badAddress c (ea r) size false = none → lineHold c u [ea r] size true false = none →
        (u.blockers (at_ u r) ≠ [] → holds u below above (.flights (u.blockers (at_ u r)))) ∧
        (u.blockers (at_ u r) = [] → serves.1 = false →
          holds serves.2 below above (.fill c.tm.cluster (serves.2.fillingIn c.tm.cluster (keyOf (ea r)) size)))) ∧
      (reaches c u ticket (ea r) size ord r = true →
        let v := givesPlace c u r
        (∀ cause, op v r = .refuse cause → traps v cause) ∧
        ∀ p, op v r = .waits p → v.entryFor (at_ u r) = false →
          let rejected := { at_ u r with op := p, rejects := 1 }
          let x := (standsAt v rejected fun _ => .rejected (s.dieClock (c.tm.quad / 32) + 32)).bump c.tm.quad 6
          holds (x.updGang c.gid fun g => { g with done := g.done ++ [r], flight := g.flight ++ [ticket] }) below rest (.accept v.nextId))

/-- The fields of a barrier object (R191); `rest` are its bits [47:9]. -/
structure Sys2Proof.Spec.Barrier where
  bal : Nat := 0
  exp : Nat := 0
  pend : Nat := 0
  rest : Nat := 0
  nb : Bool := false
  flt : Bool := false
  xp : Bool := false
  ph : Bool := false
  lf : Bool := false

/-- The object that 16 bytes hold. -/
def Sys2Proof.Spec.barrierOf (v : Nat) : Barrier :=
  { bal := v / 2 ^ 80 % 2 ^ 48, exp := v / 2 ^ 64 % 2 ^ 16, pend := v / 2 ^ 48 % 2 ^ 16, rest := v / 2 ^ 9 % 2 ^ 39,
    nb := v.testBit 8, flt := v.testBit 3, xp := v.testBit 2, ph := v.testBit 1, lf := v.testBit 0 }

/-- The bytes of an object, as a number: the tag is 0xA. -/
def Sys2Proof.Spec.barrierBits (o : Barrier) : Nat :=
  o.lf.toNat + 2 * o.ph.toNat + 4 * o.xp.toNat + 8 * o.flt.toNat + 16 * 0xA + 2 ^ 8 * o.nb.toNat + 2 ^ 9 * o.rest +
    2 ^ 48 * o.pend + 2 ^ 64 * o.exp + 2 ^ 80 * o.bal

/-- The phase is complete (R193). -/
def Sys2Proof.Spec.phaseComplete (o : Barrier) : Bool := o.xp && o.pend == 0 && (o.bal == 0 || o.flt)

/-- The object after the completion test of R193. -/
def Sys2Proof.Spec.tested (o : Barrier) : Barrier :=
  if phaseComplete o then { o with lf := o.flt, flt := false, bal := 0, pend := o.exp, xp := o.nb, ph := !o.ph } else o

/-- The object's bytes change, a completed phase's BARW waiters are released with its predicate, and the share's waiters
are looked at (R184, R193). -/
def Sys2Proof.Spec.putBarrier (s : State) (cluster key : Nat) (o : Barrier) : State :=
  let s1 := s.poolWrite cluster key (toBytes 16 (barrierBits (tested o)))
  (if phaseComplete o then s1.releaseBarrier cluster key (some o.ph.toNat) (!o.flt) else s1).rescan cluster

/-- A one-register result of thread `r`, with zero layers (R110, R160). -/
def Sys2Proof.Spec.setOne (c : Ctx) (s : State) (r d v : Nat) : State :=
  if loadDest c r d = 255 then s
  else (List.range (c.tm.depth + 1)).foldl (fun s k =>
    s.setReg c.tm.id r k (loadDest c r d) (if k = 0 then BitVec.ofNat 32 v else 0)) s

/-- The release of waiters: every BARW access that waits on the object, for the given phase or for any, ends, and its
thread's result is its predicate's value (R193). -/
def Sys2Proof.Spec.WaitersReleased : Prop :=
  ∀ (s : State) (cluster key : Nat) (phase : Option Nat) (v : Bool),
    let rel := s.accesses.filter fun a => decide (a.cluster = cluster ∧ a.key = key ∧ a.dst ≠ none) && a.isWaiting &&
      match a.op with
      | .barrier k _ => decide (phase = none ∨ phase = some k)
      | _ => false
    s.releaseBarrier cluster key phase v = { s with
      nextId := s.nextId + rel.length,
      accesses := s.accesses.filter fun a => !rel.any fun b => b.id == a.id,
      results := s.results ++ rel.mapIdx fun k a => ({
        id := s.nextId + k, ticket := a.ticket, team := a.team, rank := a.rank,
        act := match a.op with
          | .barrier _ p => .pred p v
          | _ => .nothing } : LongResult) }

/-- BARI, BARX, BARA and BARW (R191 to R194). BARW does not add its token register to the address; it waits in its
bank's list, or for room there. The hold at the first line to be walked is the model's choice (log entry 80). -/
def Sys2Proof.Spec.BarrierWords : Prop := WaitersReleased ∧
  ∀ w s c,
    let cl := c.tm.cluster
    let ea := fun r => poolAddress c r w.a.toNat w.x.toNat 16 w.off.toInt
    let eaW := fun r => poolAddress c r w.a.toNat 255 16 w.off.toInt
    let occ := clocks c.act.length 2
    let src := fun r => c.val r w.d.toNat 1
    let object := fun (s : State) (key : Nat) => readNat (s.cluster cl).pool key 16
    let valid := fun (s : State) (key : Nat) => decide (object s key / 16 % 16 = 0xA)
    (Runs (.bari w) s c → ObjectWord (.bari w) s c false occ 16 1 ea fun s r =>
      if 2 ^ 17 ≤ src r then .refuse .invalidBarrier
      else .done (putBarrier (s.releaseBarrier cl (keyOf (ea r)) none false) cl (keyOf (ea r))
        { exp := src r % 2 ^ 16, pend := src r % 2 ^ 16, nb := (src r).testBit 16, xp := (src r).testBit 16 })) ∧
    (Runs (.barx w) s c → ObjectWord (.barx w) s c false occ 16 1 ea fun s r =>
      let o := barrierOf (object s (keyOf (ea r)))
      if valid s (keyOf (ea r)) = false then .refuse .invalidBarrier
      else .done (putBarrier s cl (keyOf (ea r)) { o with bal := (o.bal + src r) % 2 ^ 48, xp := true })) ∧
    (Runs (.bara w) s c → ObjectWord (.bara w) s c false occ 16 3 ea fun s r =>
      let o := barrierOf (object s (keyOf (ea r)))
      if valid s (keyOf (ea r)) = false ∨ o.pend = 0 then .refuse .invalidBarrier
      else .done (putBarrier (setOne c s r w.d.toNat o.ph.toNat) cl (keyOf (ea r)) { o with pend := o.pend - 1 })) ∧
    (Runs (.barw w) s c → ObjectWord (.barw w) s c true occ 16 2 eaW fun s r =>
      let o := barrierOf (object s (keyOf (eaW r)))
      let token := (c.val r w.x.toNat 1).testBit 0
      if valid s (keyOf (eaW r)) = false then .refuse .invalidBarrier
      else if token ≠ o.ph then .after s (.pred w.d.toNat (!o.lf))
      else .waits (.barrier token.toNat w.d.toNat))

/-- The fields of a ring header (R196); `rest` are its bits [125:124] and [111:96]. -/
structure Sys2Proof.Spec.Ring where
  bw : Bool := false
  br : Bool := false
  tag : Nat := 5
  lgn : Nat := 0
  lgsz : Nat := 0
  free : Nat := 0
  filled : Nat := 0
  claim : Nat := 0
  resv : Nat := 0
  high : Nat := 0
  low : Nat := 0

/-- The header that 16 bytes hold. -/
def Sys2Proof.Spec.ringOf (v : Nat) : Ring :=
  { bw := v.testBit 127, br := v.testBit 126, high := v / 2 ^ 124 % 4, tag := v / 2 ^ 120 % 16, lgn := v / 2 ^ 116 % 16,
    lgsz := v / 2 ^ 112 % 16, low := v / 2 ^ 96 % 2 ^ 16, free := v / 2 ^ 80 % 2 ^ 16, filled := v / 2 ^ 64 % 2 ^ 16,
    claim := v / 2 ^ 32 % 2 ^ 32, resv := v % 2 ^ 32 }

/-- The bytes of a header, as a number. -/
def Sys2Proof.Spec.ringBits (g : Ring) : Nat :=
  2 ^ 127 * g.bw.toNat + 2 ^ 126 * g.br.toNat + 2 ^ 124 * g.high + 2 ^ 120 * g.tag + 2 ^ 116 * g.lgn + 2 ^ 112 * g.lgsz +
    2 ^ 96 * g.low + 2 ^ 80 * g.free + 2 ^ 64 * g.filled + 2 ^ 32 * g.claim + g.resv

/-- (a − b) mod 2^32 (R196). -/
def Sys2Proof.Spec.positions (a b : Nat) : Nat := (((a : Int) - b) % 2 ^ 32).toNat

/-- The pool key of the slot of a position (R196). -/
def Sys2Proof.Spec.slotAt (key : Nat) (g : Ring) (p : Nat) : Nat := key + 32 + p % 2 ^ g.lgn * 2 ^ g.lgsz

/-- RNGI, RNGW and RNGS (R196 to R199). RNGS advances its counter over all the slots published, or released, without a
gap; that is stated of headers whose positions lie at most N apart. -/
def Sys2Proof.Spec.RingWords : Prop :=
  ∀ w s c,
    let cl := c.tm.cluster
    let ea := fun r => poolAddress c r w.a.toNat w.x.toNat 32 w.off.toInt
    let key := fun r => keyOf (ea r)
    let occ := clocks c.act.length 4
    let src := fun r => c.val r w.d.toNat 1
    let header := fun (s : State) (r : Nat) => ringOf (readNat (s.cluster cl).pool (key r) 16)
    let full := fun (s : State) (k : Nat) => decide (k / 8 ∉ (s.cluster cl).empties)
    (Runs (.rngi w) s c → ObjectWord (.rngi w) s c false (clocks c.act.length 2) 32 1 ea fun s r =>
      let lgn := src r % 16
      let lgsz := src r / 16 % 16
      let g : Ring := { lgn, lgsz, free := 2 ^ lgn }
      if 256 ≤ src r ∨ 12 < lgn ∨ lgsz < 3 ∨ 12 < lgsz ∨ c.cluster.share < ea r % 2 ^ 20 + 32 + 2 ^ lgn * 2 ^ lgsz ∨
          ((header s r).tag = 5 ∧ ((header s r).bw ∨ (header s r).br)) then .refuse .ringMisuse
      else .done (((List.range (2 ^ lgn)).foldl (fun s i => s.setFull cl (slotAt (key r) g i) false)
        (s.poolWrite cl (key r) (toBytes 32 (ringBits g)))).rescan cl)) ∧
    (Runs (.rngwWr w) s c → ObjectWord (.rngwWr w) s c true occ 32 2 ea fun s r =>
      let g := header s r
      let d := loadDest c r w.d.toNat
      if g.tag ≠ 5 ∨ g.bw then .refuse .ringMisuse
      else if g.free = 0 then .waits (.ring true d)
      else .after ((s.poolWrite cl (key r) (toBytes 16 (ringBits { g with resv := (g.resv + 1) % 2 ^ 32, free := g.free - 1 }))).rescan cl)
        (oneResult c d (addrOfKey (slotAt (key r) g g.resv)))) ∧
    (Runs (.rngwRd w) s c → ObjectWord (.rngwRd w) s c true occ 32 2 ea fun s r =>
      let g := header s r
      let d := loadDest c r w.d.toNat
      if g.tag ≠ 5 ∨ g.br then .refuse .ringMisuse
      else if g.filled = 0 then .waits (.ring false d)
      else .after ((s.poolWrite cl (key r) (toBytes 16 (ringBits { g with claim := (g.claim + 1) % 2 ^ 32, filled := g.filled - 1 }))).rescan cl)
        (oneResult c d (addrOfKey (slotAt (key r) g g.claim)))) ∧
    (∀ wr : Bool, let i := if wr then Instr.rngsWr w else Instr.rngsRd w
      Runs i s c → ∃ op : State → Nat → ObjectOut, ObjectWord i s c false occ 32 3 ea op ∧ ∀ s r,
        let g := header s r
        let n := 2 ^ g.lgn
        let k := keyOf (src r)
        /- the first position of the slots that may be named, and how many there are -/
        let lo := if wr then g.claim + g.filled else g.resv + g.free + 2 ^ 32 - n
        let count := if wr then positions g.resv lo else positions g.claim lo
        let named := poolCheck (s.cluster cl) (src r) = none ∧ full s k = !wr ∧ ∃ j < count, slotAt (key r) g (lo + j) = k
        (g.tag ≠ 5 ∨ (if wr then g.bw else g.br) ∨ ¬ named → op s r = .refuse .ringMisuse) ∧
        (g.tag = 5 → (if wr then g.bw else g.br) = false → named →
          let v := s.setFull cl k wr
          let room := if wr then positions g.resv g.claim else positions (g.claim + n) g.resv
          let from_ := if wr then g.claim + g.filled else g.resv + g.free
          let had := if wr then g.filled else g.free
          room ≤ n → g.lgn ≤ 12 → ∃ m : Nat,
            (∀ j < m, had + j < room ∧ full v (slotAt (key r) g (from_ + j)) = wr) ∧
            ¬ (had + m < room ∧ full v (slotAt (key r) g (from_ + m)) = wr) ∧
            op s r = .done ((v.poolWrite cl (key r) (toBytes 16 (ringBits (if wr then { g with filled := g.filled + m }
              else { g with free := g.free + m })))).rescan cl)))

/-- One thread's arrival at a team barrier (R195): a release of its earlier accesses, for which it is owed a result. The
phase completes once as many have arrived as the team has threads that have not ended, and all that the arrivals release
has performed; then every arrival's result is ready. -/
def Sys2Proof.Spec.arrive (c : Ctx) (ticket id : Nat) (s : State) (r : Nat) : State :=
  let waits := (s.team c.tm.id).tbar.flatten.map (·.2.1)
  let earlier := (s.holds { id := s.nextId, cluster := c.tm.cluster, team := c.tm.id, rank := r, ord := 3, dst := some 64 }).filter
    fun i => !waits.contains i
  let before := (s.team c.tm.id).tbar.getD id []
  let here := before ++ [(r, ticket, earlier)]
  let live := (s.threads.filter fun t => t.team == c.tm.id && !t.ended).length
  let tickets := s.tickets.map fun (t : Ticket) => if t.id = ticket then { t with parts := t.parts ++ [r] } else t
  let performs := fun (i : Nat) =>
    !(s.accesses.any fun a => a.id == i) && !(s.reqs.any fun q => q.id == i) && !(s.side.any fun e => e.req.id == i) &&
      !(tickets.any fun t => t.id == i)
  let full := decide (live ≤ here.length) && here.all fun p => p.2.2.all performs
  let v : State := { s with
    tickets,
    teams := s.teams.map fun (t : Team) =>
      if t.id = c.tm.id then { t with tbar := t.tbar.set id (if full then [] else t.tbar.getD id [] ++ [(r, ticket, earlier)]) } else t }
  if full then here.foldl (fun s p => s.addResult p.2.1 c.tm.id p.1 .nothing) v else v

/-- TBAR (R195): the Active threads arrive in rank order; a thread whose earlier arrival has not completed holds the
gang. When an arrival counts, and that waits in other barriers are no part of it, are the model's choices (log entry
52). -/
def Sys2Proof.Spec.TeamBarrierWord : Prop :=
  ∀ w s c, Runs (.tbar w) s c →
    let id := w.t.toNat
    let again := fun (s : State) (r : Nat) => ((s.team c.tm.id).tbar.getD id []).any fun p => p.1 == r
    let s0 : State := { s with
      nextId := s.nextId + 1,
      tickets := s.tickets ++ [{ id := s.nextId, cls := 6, team := c.tm.id, gangs := [c.gid], parts := [c.lead] }] }
    (c.act = [] → Commits (.tbar w) s c 6 s) ∧
    (c.act ≠ [] → (s.team c.tm.id).tbar.length = 4 → ∀ below above u, c.act = below ++ above →
      inTurn c s.nextId (fun _ _ => {}) (fun s _ => s) (fun s r => !again s r) (fun v r => .done (arrive c s.nextId id v r)) s0 below = some u →
      (above = [] → Commits (.tbar w) s c 6 (u.settleTicket s.nextId c.lead)) ∧
      ∀ r rest, above = r :: rest → again u r = true →
        exec (.tbar w) s = .next ((u.settleTicket s.nextId c.lead).updGang c.gid fun g =>
          { g with done := g.done ++ below, status := .held (.teamBarrier c.tm.id id [r]), idleSince := s.dieClock (c.tm.quad / 32) }))

/-! ### Fences, sights and regions -/

/-- A map unit, or a walker, is asked: the request is numbered, and takes its place among those of its quad unless its
thread holds it back or the steps of its release come first (R205, R345, R352). -/
def Sys2Proof.Spec.ask (s : State) (r : HomeReq) : State :=
  let free := (s.reqHolds { r with id := s.nextId, seq := s.nextId }).isEmpty && !r.releasing
  { s with nextId := s.nextId + 1, reqs := s.reqs ++ [{ r with id := s.nextId, seq := if free then s.nextId else 0 }] }

/-- Ids that a fence orders (R358, R361): the accesses and requests of the Active threads, for an acquire fence those that
read. -/
def Sys2Proof.Spec.fenced (c : Ctx) (s : State) (readsAlone : Bool) (id : Nat) : Prop :=
  (∃ a ∈ s.accesses, a.id = id ∧ a.team = c.tm.id ∧ a.rank ∈ c.act ∧ (readsAlone = true → a.op.reads = true)) ∨
  (∃ r ∈ s.reqs, r.id = id ∧ r.team = c.tm.id ∧ r.rank ∈ c.act ∧ r.back = false ∧ r.cmd = none ∧ r.op.local = false ∧
    (readsAlone = true → r.op.reads = true))

/-- Side-log entries that a release of the Active threads at scope `sc` covers (R356). -/
def Sys2Proof.Spec.coveredLog (c : Ctx) (s : State) (sc id : Nat) : Prop :=
  ∃ e ∈ s.side, e.req.id = id ∧
    ((∃ r ∈ c.act, e.req.team = c.tm.id ∧ e.req.rank = r ∧ e.req.back = false ∧
        ∀ k, e.req.cmd = some k → (∀ x ∈ s.commands, x.id ≠ k) ∧ ∀ x ∈ s.colls, x.id ≠ k) ∨
      (c.act ≠ [] ∧ 3 ≤ sc ∧ e.req.back = true ∧ e.req.cluster = c.tm.cluster))

/-- FENCE (R352, R358): held until the accesses it orders have performed; beyond the cluster a release then writes the
cluster's lines back and waits for that and for the covered side-log entries, and an acquire then invalidates and
refreshes. `flight` is where the gang stands: nothing sent, the write-back walk (0 for none), or that and the acquire. -/
def Sys2Proof.Spec.FenceWord : Prop :=
  ∀ w s c, Runs (.fence w) s c →
    let sc := w.sc.toNat
    let rel := w.or ≠ 2
    let acq := w.or ≠ 3
    let sends := fun (before : List Nat) (op : HomeOp) =>
      exec (.fence w) s = .next ((ask s { mapReq c c.lead 0 [] op with sc, ord := if w.or ≠ 2 then 3 else 0 }).updGang c.gid fun g =>
        { g with flight := before ++ [s.nextId], status := .held (.flights [s.nextId]), idleSince := s.dieClock (c.tm.quad / 32) })
    (c.act = [] → Commits (.fence w) s c 6 s) ∧
    (c.act ≠ [] →
      (c.gang.flight = [] → ∃ ids : List Nat,
        (∀ id, id ∈ ids ↔ fenced c s (w.or == 2) id ∨ (rel ∧ coveredLog c s 2 id)) ∧
        (ids ≠ [] → HoldsAt (.fence w) s c (.flights ids)) ∧
        (ids = [] → (sc < 3 → Commits (.fence w) s c 6 s) ∧
          (3 ≤ sc → rel → sends [] (.walk 0 (48 * 2 ^ 20))) ∧ (3 ≤ sc → ¬ rel → sends [0] (.acquire true)))) ∧
      (∀ back, c.gang.flight = [back] → ∃ ids : List Nat,
        (∀ id, id ∈ ids ↔ (id = back ∧ ((∃ a ∈ s.accesses, a.id = back) ∨ (∃ r ∈ s.reqs, r.id = back) ∨ ∃ e ∈ s.side, e.req.id = back)) ∨
          coveredLog c s sc id) ∧
        (ids ≠ [] → HoldsAt (.fence w) s c (.flights ids)) ∧
        (ids = [] → (acq → sends [back] (.acquire true)) ∧ (¬ acq → Commits (.fence w) s c 6 s))) ∧
      (∀ back acquire, c.gang.flight = [back, acquire] →
        let busy := (s.accesses.any fun a => a.id == acquire) || s.reqs.any fun r => r.id == acquire
        (busy = true → HoldsAt (.fence w) s c (.flights [acquire])) ∧ (busy = false → Commits (.fence w) s c 6 s)))

/-- FENCEQ and SIGHT (R359 to R361): owed one result, of class 6 for the commands of the named queues and of class 1 for
a refresh that waits for the threads' earlier accesses, those in a side log with them. The result is the gang's, and
stands with its lowest rank. Requests take their places when they start, which is the model's choice (log entry 37). -/
def Sys2Proof.Spec.QueueFenceAndSightWords : Prop :=
  ∀ e w s c,
    let ticket := fun (cls : Nat) => ({ id := s.nextId, cls, team := c.tm.id, gangs := [c.gid], parts := [c.first] } : Ticket)
    (Runs (.fenceq e) s c → (c.act = [] → Commits (.fenceq e) s c 6 s) ∧ (c.act ≠ [] → ∃ ids : List Nat,
      Commits (.fenceq e) s c 6 { s with
        nextId := s.nextId + 1, tickets := s.tickets ++ [ticket 6],
        engineWaits := s.engineWaits ++ [{ ticket := s.nextId, team := c.tm.id, ranks := c.act, ids, act := .fenceq e.q.toNat }] } ∧
      ∀ id, id ∈ ids ↔
        (∃ k ∈ s.commands, k.id = id ∧ k.team = c.tm.id ∧ e.imm.toNat.testBit k.queue = true) ∨
        (e.imm.toNat.testBit 16 = true ∧ ∃ k ∈ s.mcommands, k.id = id ∧ k.team = c.tm.id) ∨
        (e.imm.toNat.testBit 17 = true ∧ ∃ m ∈ s.sendBuf, m.id = id ∧ m.team = c.tm.id) ∨
        (e.imm.toNat.testBit 18 = true ∧ ∃ k ∈ s.colls, k.id = id ∧ k.team = c.tm.id))) ∧
    (Runs (.sight w) s c → (c.act = [] → Commits (.sight w) s c 6 s) ∧ (c.act ≠ [] → ∃ after : List Nat,
      Commits (.sight w) s c 6 (ask { s with nextId := s.nextId + 1, tickets := s.tickets ++ [ticket 1] }
        { mapReq c c.first s.nextId after (.acquire false) with ord := 3 }) ∧
      (∀ a ∈ s.accesses, a.team = c.tm.id → a.rank ∈ c.act → a.id ∈ after) ∧
      ∀ e ∈ s.side, e.req.team = c.tm.id → e.req.rank ∈ c.act → e.req.back = false → e.req.cmd = none → e.req.id ∈ after))

/-- What one thread of a word does in its turn. -/
inductive Sys2Proof.Spec.Turn where
  | goes (s : State)
  | traps (s : State) (cause : Cause) (addr info : Nat)
  | holds (s : State) (w : Wait)

/-- The threads in turn, while each goes. -/
def Sys2Proof.Spec.turns (act : State → Nat → Turn) : State → List Nat → Option State
  | s, [] => some s
  | s, r :: rs =>
    match act s r with
    | .goes v => turns act v rs
    | _ => none

/-- A word whose Active threads act in rank order (R87, R89), from the state `s0` that its issue leaves: all go and it
commits, or the first that does not traps or holds the gang, with the threads before it done. `close` settles the word's
own part of its results. -/
def Sys2Proof.Spec.TurnWord (i : Instr) (s : State) (c : Ctx) (occ : Nat) (s0 : State) (close : State → State)
    (act : State → Nat → Turn) : Prop :=
  ∀ below above u, c.act = below ++ above → turns act s0 below = some u →
    (above = [] → Commits i s c occ (close u)) ∧
    ∀ r rest, above = r :: rest →
      (∀ v cause addr info, act u r = .traps v cause addr info → exec i s = .next ((close v).takeTrap c.gid (some cause)
        (c.gang.done ++ below) (c.act.filter fun q => !below.contains q) c.gang.word addr info c.gang.nextPc)) ∧
      (∀ v w, act u r = .holds v w → exec i s = .next ((close v).updGang c.gid fun g =>
        { g with done := g.done ++ below, status := .held w, idleSince := s.dieClock (c.tm.quad / 32) }))

/-- A word whose Active threads act in turn and are owed results of class `cls` under the ticket numbered `s.nextId`
(R72). -/
def Sys2Proof.Spec.ThreadWord (i : Instr) (s : State) (c : Ctx) (cls occ : Nat) (act : State → Nat → Turn) : Prop :=
  TurnWord i s c occ
    (if c.act = [] then s else { s with
      nextId := s.nextId + 1,
      tickets := s.tickets ++ [{ id := s.nextId, cls, team := c.tm.id, gangs := [c.gid], parts := [c.lead] }] })
    (fun u => if c.act = [] then u else u.settleTicket s.nextId c.lead) act

/-- A thread is owed one more result under a ticket. -/
def Sys2Proof.Spec.owe (s : State) (ticket r : Nat) : State :=
  { s with tickets := s.tickets.map fun (t : Ticket) => if t.id = ticket then { t with parts := t.parts ++ [r] } else t }

/-- The valid entries beside entry `idx` that a cluster holds, or that changes on their way will leave (R209). -/
def Sys2Proof.Spec.besideEntry (s : State) (cluster idx : Nat) (o : Region) : Prop :=
  (∃ j, j ≠ idx ∧ (s.cluster cluster).regions[j]? = some (some o)) ∨
  ∃ q ∈ s.reqs, q.cluster = cluster ∧ ∃ j, j ≠ idx ∧ q.op = .mapEntry j (some o)

/-- An image is valid as entry `idx` (R208, R209), with its planes and the plane stride in force. -/
def Sys2Proof.Spec.imageValid (s : State) (cluster idx img planes stride : Nat) : Prop :=
  let c := s.cluster cluster
  let len := img / 2 ^ 128 % 2 ^ 32
  let base := fun (k : Nat) => (img / 2 ^ 160 % 2 ^ 32 + k * stride) % 2 ^ 32
  img.testBit 15 = false ∨
  ((img / 2 ^ 249 % 2 ^ 7 = 0 ∧ img / 2 ^ 16 % 2 ^ 48 = 0 ∧ img % 2 ^ 9 = 0 ∧ img / 2 ^ 192 % 2 ^ 57 % 128 = 0 ∧
    base 0 % 128 = 0 ∧ len % 128 = 0 ∧ 128 ≤ len ∧ len ≤ 0x100000 ∧ img / 2 ^ 64 % 2 ^ 64 % 128 = 0 ∧
    (img.testBit 9 = false → img / 2 ^ 64 % 2 ^ 64 = 0) ∧ img / 2 ^ 12 % 8 ∈ [0, 3, 4, 5] ∧ img / 2 ^ 10 % 4 ≤ 2 ∧
    (∀ k < planes + 1, poolCheck c (base k) = none ∧ poolCheck c (base k + len - 1) = none ∧ base k / 2 ^ 24 = (base k + len - 1) / 2 ^ 24)) ∧
  ∀ o : Region, besideEntry s cluster idx o → regV o = true → ∀ k < planes + 1, ∀ q ∈ o.ranges,
    keyOf (base k) + len ≤ q.1 ∨ q.1 + q.2 ≤ keyOf (base k))

/-- The request of an entry's change (R229), after the changes of the entry that are on their way; its end is the thread's
result. -/
def Sys2Proof.Spec.changeEntry (c : Ctx) (s : State) (r ticket idx : Nat) (new : Option Region) : State :=
  let earlier := (s.reqs.filter fun q => q.cluster == c.tm.cluster && match q.op with
    | .mapEntry i _ => i == idx
    | _ => false).map (·.id)
  ask (owe s ticket r) (mapReq c r ticket earlier (.mapEntry idx new))

/-- RMAP and its unmap (R229): the image is read behind the accesses that precede it and checked before anything is
done. That the check counts images on their way, and that requests take their places when they start, are the model's
choices (log entries 63 and 37). -/
def Sys2Proof.Spec.RegionMapWords : Prop :=
  ∀ w s c, let idx := w.imm.toNat % 64
    let occ := clocks c.act.length 4
    (Runs (.rmap w) s c → ∃ act : State → Nat → Turn, ThreadWord (.rmap w) s c 5 occ act ∧ ∀ u r,
      let a := c.val r w.s1.toNat 1
      let stride := c.tm.gplane.toNat % 2 ^ 32
      let before := u.blockers (objectAccess c u 0 a 32 0 r)
      let serves := u.lineServes c.tm.cluster (keyOf a) 32 true c.gang.sys
      let v := serves.2.touch c.tm.cluster (keyOf a) 32
      let img := readNat (v.cluster c.tm.cluster).pool (keyOf a) 32
      let planes := if img.testBit 9 then c.tm.depth else 0
      (∀ cause, badAddress c a 32 false = some cause → act u r = .traps u cause a 0) ∧
      (badAddress c a 32 false = none → (before ≠ [] → act u r = .holds u (.flights before)) ∧
        (before = [] → (∀ line ea, lineHold c u [a] 32 true false = some (line, ea) →
            act u r = .holds (walkWait c u r line ea false).1 (walkWait c u r line ea false).2) ∧
          (lineHold c u [a] 32 true false = none →
            (serves.1 = false →
              act u r = .holds serves.2 (.fill c.tm.cluster (serves.2.fillingIn c.tm.cluster (keyOf a) 32))) ∧
            (serves.1 = true →
              (¬ imageValid v c.tm.cluster idx img planes stride → act u r = .traps v .illegalOperand a 0) ∧
              (imageValid v c.tm.cluster idx img planes stride →
                act u r = .goes (changeEntry c v r s.nextId idx (some { image := BitVec.ofNat 256 img, planes, stride })))))))) ∧
    (Runs (.rmapUnmap w) s c → ThreadWord (.rmapUnmap w) s c 5 occ fun u r =>
      .goes (changeEntry c u r s.nextId idx ((((u.cluster c.tm.cluster).regions[idx]?).join).map fun (o : Region) =>
        { o with image := o.image &&& ~~~ (1#256 <<< 15) })))

/-- RFLUSH, RINV and RPREF (R230, R231): a range is checked at its two ends, a length of 0 names every region. RFLUSH asks
for a walk over the lines that the range meets, behind the thread's earlier accesses; RINV goes to the shares it names;
RPREF goes to the share of each line that its range meets, and its result waits for the ends of the fills. -/
def Sys2Proof.Spec.RegionRangeWords : Prop :=
  ∀ w s c,
    let cid := c.tm.cluster
    let first := fun r => (BitVec.ofInt 32 (c.val r w.a.toNat 1 + w.off.toInt)).toNat
    let len := fun r => c.val r w.d.toNat 1
    let last := fun r => (first r + len r - 1) % 2 ^ 32
    let fault := fun r => if len r = 0 then none
      else if first r / 2 ^ 30 = 3 ∨ last r / 2 ^ 30 = 3 then some Cause.apertureBound
      else if poolCheck c.cluster (first r) ≠ none ∨ poolCheck c.cluster (last r) ≠ none ∨ last r < first r then some .poolOutside
      else none
    let lo := fun r => if len r = 0 then 0 else keyOf (first r)
    let hi := fun r => if len r = 0 then 48 * 2 ^ 20 else keyOf (first r + len r - 1) + 1
    let word := fun (i : Instr) (cls : Nat) (f : State → Nat → State) =>
      Runs i s c → ThreadWord i s c cls (clocks c.act.length 4) fun u r =>
        match fault r with
        | some cause => .traps u cause (first r) 0
        | none => .goes (f u r)
    word (.rflush w) 1 (fun u r => ask (owe u s.nextId r)
      { mapReq c r s.nextId (u.earlier c.tm.id r) (.walk (lo r - 127) (hi r)) with sc := w.sc.toNat, ord := w.or.toNat }) ∧
    word (.rinv w) 0 (fun u r => (List.range (4 * c.cluster.quads.length)).foldl (fun v slot =>
      let a := max (lo r) (slot * 2 ^ 20)
      let b := min (hi r) ((slot + 1) * 2 ^ 20)
      if b ≤ a then v
      else ((owe v s.nextId r).sendAccess
        { ticket := s.nextId, cluster := cid, team := c.tm.id, rank := r, src := 4 * c.tm.idx + r % 32 / 8, dst := some slot, key := a,
          size := b - a, op := .inv (w.w == 1) }).2) u) ∧
    word (.rpref w) 7 (fun u r => ((u.cluster cid).linesIn (lo r) (hi r - lo r)).foldl (fun v line =>
      ((owe v s.nextId r).sendAccess
        { ticket := s.nextId, cluster := cid, team := c.tm.id, rank := r, src := 4 * c.tm.idx + r % 32 / 8,
          dst := some (line / 2 ^ 20), key := line, size := 128, sys := c.gang.sys, op := .prefetch }).2) u)

/-- PAGE_WALK_COMPLETE and REGION_FILL_COMPLETE (R206, R210 to R212, R214). A walker takes the fill; one that is
translated is sent to the line's home; a page that is not present keeps the line waiting where somebody wants it; any
other cause ends the fill. The data that came back goes into the bytes with clear dirty bits and sets the words' counts;
the line serves its waiters. One that an acquire met serves those that waited before it, and its clean bytes are
discarded. A fill's policy is the larger of PL and the leaf's CA, and a fill that nobody waits for ends at a page that
is not present: the model's choices (log entries 60 and 62). -/
def Sys2Proof.Spec.RegionFillEvents : Prop :=
  ∀ (s : State) (cluster line : Nat),
    let c := s.cluster cluster
    let l := c.line line
    let walker := s.walkerFree (c.quadOf line / 32) l.fid
    (l.st ≠ .filling ∨ l.walked ≠ none ∨ l.missing = true ∨ walker = false → exec (.pageWalkComplete cluster line) s = .next s) ∧
    (l.st = .filling → l.walked = none → l.missing = false → walker = true →
      (c.mapping line = none → exec (.pageWalkComplete cluster line) s = .next (s.endFill cluster l)) ∧
      ∀ idx o va, c.mapping line = some (idx, o, va) →
        let asid := (s.job c.job).asid
        let t := s.translate asid va l.sys { r := true }
        (∀ pa leaf, t.1 = .ok pa leaf →
          let pl := max (regPl o) (leafCA leaf)
          exec (.pageWalkComplete cluster line) s = .next
            ((ask t.2 { cluster, job := c.job, asid, sys := l.sys, va, pa, leaf, group := c.group, pl, op := .fill line, src := c.quadOf line }).setLine
              cluster { l with walked := some (pa, leaf), req := t.2.nextId,
                               basis := if pl = 2 then t.2.arrival (homeSlice pa leaf) else l.basis })) ∧
        (∀ info, t.1 = .fail .notPresent info → va < 2 ^ 57 → exec (.pageWalkComplete cluster line) s = .next
          (if t.2.lineWanted cluster line then (t.2.setLine cluster { l with missing := true }).notePage asid va 0
           else t.2.endFill cluster l)) ∧
        (∀ cause info, t.1 = .fail cause info → cause ≠ .notPresent ∨ 2 ^ 57 ≤ va →
          exec (.pageWalkComplete cluster line) s = .next (t.2.failLine cluster l cause info))) ∧
    (l.st ≠ .filling ∨ l.data = none → exec (.regionFillComplete cluster line) s = .next s) ∧
    (∀ bs counts, l.st = .filling → l.data = some (bs, counts) → ∃ u : State,
      u = { s with clusters := u.clusters } ∧
      (u.clusters.map fun (x : Cluster) => { x with pool := [], counts := [] }) = (s.clusters.map fun (x : Cluster) => { x with pool := [], counts := [] }) ∧
      (∀ x, x ≠ cluster → u.cluster x = s.cluster x) ∧
      ((s.clusters.any fun x => x.id == cluster) = true → memWf c.pool = true →
        (∀ k, readByte (u.cluster cluster).pool k =
          if line ≤ k ∧ k < line + 128 ∧ l.mask.testBit (k - line) = false then bs.getD (k - line) 0 else readByte c.pool k) ∧
        ∀ k, getKey (u.cluster cluster).counts k 1 =
          if line / 8 ≤ k ∧ k < line / 8 + 16 then counts.getD (k - line / 8) 1 else getKey c.counts k 1) ∧
      let v := l.prefs.foldl (fun (v : State) p => v.settleTicket p.1 p.2) (u.setLine cluster { l with
        st := if l.mask = 0 then .clean else .dirty, walked := none, data := none, prefs := [], drop := none })
      (l.drop = none → exec (.regionFillComplete cluster line) s = .next (v.rescan cluster)) ∧
      ∀ before, l.drop = some before →
        let x := v.serveLine cluster line before
        let now := (x.cluster cluster).line line
        let y := if now.prefetched = true then x.bump (c.quadOf line) 3 else x
        exec (.regionFillComplete cluster line) s = .next ((y.setLine cluster
          { now with st := if now.mask = 0 then .absent else .partialLine, prefetched := false }).rescan cluster))

/-! ### Global memory -/

/-- A word of the global forms (R225 to R227): each Active thread's address is checked and translated, and its request goes
to the home. A weak access to a page that is not present holds the gang, or, for a REDG (`logs`), retires into the quad's
side log; Shegus is told of the page and of the kind of access. -/
def Sys2Proof.Spec.GlobalWord (i : Instr) (s : State) (c : Ctx) (occ align : Nat) (need : Need) (sc ord pl : Nat) (logs : Bool)
    (ea : Nat → Nat) (op : Nat → HomeOp) : Prop :=
  ThreadWord i s c 1 occ fun u r =>
    let req : HomeReq :=
      { ticket := s.nextId, team := c.tm.id, rank := r, cluster := c.tm.cluster, job := c.tm.job, asid := c.job.asid,
        sys := c.gang.sys, va := ea r, group := c.cluster.group, sc, ord, pl, op := op r, src := c.tm.quad, log := c.tm.quad,
        kind := if logs then 1 else 0 }
    if ea r % align ≠ 0 then .traps u .misaligned (ea r) 0
    else match u.translate c.job.asid (ea r) c.gang.sys need with
      | (.ok pa leaf, v) => .goes (ask (owe v s.nextId r) { req with pa, leaf })
      | (.fail cause info, v) =>
        if ord ≠ 0 ∨ cause ≠ .notPresent ∨ 2 ^ 57 ≤ ea r then .traps v cause (ea r) info
        else
          let notice := (c.job.asid, ea r / 2 ^ 16, if need.a then 3 else if need.w then 1 else 0)
          let x : State := { v with pageFaults := if notice ∈ v.pageFaults then v.pageFaults else v.pageFaults ++ [notice] }
          if logs = false then .holds x (.page c.job.asid (ea r))
          else if 512 ≤ (v.side.filter fun e => e.log == c.tm.quad).length then .holds x (.sideLog c.tm.quad)
          else .goes (({ x with nextId := x.nextId + 1 } : State).retireWrite { req with id := x.nextId, ticket := 0 } cause.code
            (match op r with | .atomic _ size _ _ _ => size | _ => 8) 0)

/-- The effective address of a format N global word (R37): 64-bit base, signed 32-bit index, scaled offset. -/
def Sys2Proof.Spec.globalAddress (c : Ctx) (r a x size : Nat) (off : Int) : Nat :=
  (BitVec.ofInt 64 (c.val r a 2 + (BitVec.ofNat 32 (c.val r x 1)).toInt + off * size)).toNat

/-- ATOMG, REDG, CASG, LDK, SIBL and RECON (R225, R226, R232 to R237): what each asks of its page and of the home. A
request takes its place among its stops' flits when it starts (the model's choice: log entry 37). -/
def Obligations.GlobalWords : Prop :=
  ∀ w q s c,
    let size := 2 ^ w.w.toNat
    let n := wordRegs size
    let ea := fun (k : Nat) r => globalAddress c r w.a.toNat w.x.toNat k w.off.toInt
    let d := fun r => loadDest c r w.d.toNat
    let count := fun (r n : Nat) => if w.c = 1 ∧ d r < 255 then some (d r + n) else none
    let sc := w.sc.toNat
    let ord := w.or.toNat
    let pl := w.pl.toNat
    let n2 := if q.t.toNat = 12 then 2 else 1
    (Runs (.atomg w) s c → GlobalWord (.atomg w) s c (poolClocks size c.act.length) size { r := true, w := true, a := true }
      sc ord pl false (ea size) fun r => .atomic w.ao.toNat size (c.val r w.d.toNat n) (some (d r)) (count r n)) ∧
    (Runs (.redg w) s c → GlobalWord (.redg w) s c (poolClocks size c.act.length) size { w := true, a := true }
      sc ord pl true (ea size) fun r => .atomic w.ao.toNat size (c.val r w.d.toNat n) none none) ∧
    (Runs (.casg q) s c → GlobalWord (.casg q) s c (poolClocks (4 * n2) c.act.length) (4 * n2) { r := true, w := true, a := true }
      (q.m.toNat / 4 % 8) (q.m.toNat % 4) 0 false (fun r => c.val r q.s1.toNat 2)
      fun r => .cas (4 * n2) (c.val r q.s2.toNat n2) (c.val r q.s3.toNat n2) (loadDest c r q.d.toNat)) ∧
    (Runs (.ldk w) s c → GlobalWord (.ldk w) s c (poolClocks 16 c.act.length) 8 { r := true, k := true }
      sc ord pl false (ea 16) fun r => .probe (d r)) ∧
    (Runs (.sibl w) s c → GlobalWord (.sibl w) s c (poolClocks 8 c.act.length) 8 { r := true, k := true }
      0 0 pl false (fun r => globalAddress c r w.a.toNat 255 8 w.off.toInt)
      fun r => .sibling w.ao.toNat (c.val r w.x.toNat 1) (d r) (count r 2)) ∧
    (Runs (.recon w) s c → GlobalWord (.recon w) s c (poolClocks 16 c.act.length) 8 { r := true, w := true, a := true, k := true }
      sc ord pl false (ea 16) fun r => .recon w.ao.toNat (c.val r w.d.toNat 2 % 2 ^ 56)
        (BitVec.ofNat 64 (c.val r (w.d.toNat + 2) 2)) (d r))

/-! ### The homes -/

/-- Region lines after an acquire at scope `sc` at moment `now_` (R214): of the regions whose ISC is nonzero and at most `sc`
the clean lines are absent and the dirty ones partial; one that is filling serves only those that waited before the first
such moment (that mark is the model's choice: notes/assumptions/61.md). -/
def Sys2Proof.Spec.invalidated (c : Cluster) (sc now_ : Nat) (lines : List RegionLine) : List RegionLine :=
  let hit := fun (l : RegionLine) => match c.mapping l.line with
    | some (_, o, _) => regIsc o != 0 && decide (regIsc o ≤ sc)
    | none => false
  (lines.filter fun l => !(hit l && l.st == .clean)).map fun l =>
    if hit l && l.st == .dirty then { l with st := .partialLine }
    else if hit l && l.st == .filling then { l with drop := some (l.drop.getD now_) } else l

/-- From `s` to `u` a request has performed (R202, R352, R374): its line is free, its side-log entry gone. An acquire at
scope 3 or wider invalidates the cluster's regions and then waits for the refresh; any other is over. -/
def Sys2Proof.Spec.Over (s u : State) (r : HomeReq) : Prop :=
  let v : State := { s with
    busy := s.busy.filter fun b => b.req != r.id,
    side := if r.replay then s.side.filter fun e => e.req.id != r.id else s.side }
  if (r.ord = 2 ∨ (r.ord = 3 ∧ r.op.rmw = true)) ∧ 3 ≤ r.sc ∧ r.op.local = false then
    ∃ k, u = { v with
      counters := k,
      nextId := s.nextId + 1,
      clusters := v.clusters.map fun (x : Cluster) => if x.id = r.cluster then
        { x with lines := invalidated (s.cluster r.cluster) r.sc s.nextId x.lines } else x,
      reqs := v.reqs.map fun (e : HomeReq) => if e.id = r.id then { e with state := .refreshing } else e }
  else u = { v with reqs := v.reqs.filter fun e => e.id != r.id }

/-- A line of an address stands under the key of an address space, that of its last writer or else of its page's owner, so
that it sees its bytes (R397). -/
def Sys2Proof.Spec.OwnKey (s : State) (asid pa : Nat) : Prop :=
  (∀ p ∈ s.lineKeys, p.1 = pa / 128 → p.2 = asid) ∧
    ((∀ p ∈ s.lineKeys, p.1 ≠ pa / 128) → ∀ p ∈ s.owners, p.1 ≤ pa / 2 ^ 16 → pa / 2 ^ 16 < p.1 + p.2.1 → p.2.2 = asid)

/-- A request performs at its home in this step: it waited for memory or acknowledgements, which have come; or it is at the
head of its order, its line is free, and it needs neither. Its line and those of its ring records lie in the device's own
memory, its own under its key, and its slice has an arrival to give. -/
def Sys2Proof.Spec.Served (s : State) (r : HomeReq) : Prop :=
  (s.reqs.find? fun e => e.id == r.id && (e.state == .sent || e.isListed || s.memoryDue e)) = some r ∧
  r.op.local = false ∧ r.pa < 2 ^ 39 ∧ OwnKey s r.asid r.pa ∧ (∀ l ∈ s.ringLines r, 128 * l < 2 ^ 39) ∧ s.noArrival r = false ∧
  (r.state = .busy ∨
    (s.reqHolds r = [] ∧ r.releasing = false ∧ r.seq ≠ 0 ∧ s.reqAhead r = [] ∧ s.reaches r = true ∧
      (∀ b ∈ s.busy, b.line = r.pa / 128 → b.req = r.id) ∧
      (∀ e ∈ s.reqs, e.id ≠ r.id → e.isListed = true → e.pa / 128 = r.pa / 128 → r.isListed = true ∧ r.listedAt ≤ e.listedAt) ∧
      s.needsMemory r = false ∧
      (∀ l ∈ s.ringLines r, (∀ b ∈ s.busy, b.line = l → b.req = r.id) ∧ ∀ d ∈ s.dir, d.line ≠ l) ∧ (r.touches.2.2 = true → ∀ d ∈ s.dir, d.line ≠ r.pa / 128)))

/-- What the home holds as the request performs (R221, R222, R354): its lines have come into L2, or its own has left it for a
write under policy 2, and the versions of its cells are in the Hayloft. -/
def Sys2Proof.Spec.entered (s : State) (r : HomeReq) : State :=
  let z := (s.ringLines r).foldl (fun v l => v.enterL2 (homeSlice (128 * l) 0) l) s
  r.cells.foldl (fun v c => v.touchKept (8 * c))
    (if r.pl ≠ 2 then z.enterL2 (homeSlice r.pa r.leaf) (r.pa / 128) else if r.touches.2.2 then z.leaveL2 (r.pa / 128) else z)

/-- That changes no cell's versions. A line that comes into L2 changes nothing else but that a host line may make room: it
leaves with a DirtyEvict of each M half and a CleanEvict of each E half (R393); versions that return to the Hayloft only make
replays due (R228). How long lines and versions stay there is the model's choice (notes/assumptions/42.md and 16.md). -/
def Sys2Proof.Spec.EnteredKeepsVersions : Prop :=
  (∀ (s : State) (slice line : Nat), ∀ u ∈ [s.enterL2 slice line, s.leaveL2 line],
    u = { s with l2 := u.l2, hbmStamps := u.hbmStamps, halves := u.halves, outputs := u.outputs } ∧
    ((u.halves = s.halves ∧ u.outputs = s.outputs) ∨ ∃ x ∈ s.l2, 0x8000000000000 ≤ 128 * x.line ∧
      u.halves = s.halves.filter (fun h => decide (h.1 / 2 ≠ x.line)) ∧
      u.outputs = s.outputs ++ (s.halves.filter fun h => h.1 / 2 == x.line).filterMap fun h => match h.2 with
        | .modified => some (.dirtyEvict h.1 (readBytes s.mem (64 * h.1) 64))
        | .exclusive => some (.cleanEvict h.1)
        | .shared => none)) ∧
  (∀ (s : State) (pa : Nat), let u := s.touchKept pa
    u = { s with kept := u.kept, side := u.side, wakes := u.wakes } ∧ (∀ a, u.versions a = s.versions a) ∧
    (u.side.map fun (e : SideEntry) => { e with due := true }) = (s.side.map fun (e : SideEntry) => { e with due := true })) ∧
  ∀ (s : State) (r : HomeReq) (pa : Nat), (entered s r).versions pa = s.versions pa

/-- The stamp that a home uses of a cell's lead (R222): of a line outside L2 its HBM stamp and no group; of one in L2, the
lead's own where the home took it there and keeps single leads, else the greatest of its sector's four, with their group
where they agree. A lead that the home did not take there has the HBM stamp the line came in with. A line of HBM that leaves L2 leaves its
greatest arrival, with H where a cell of it has versions behind its lead. -/
def Sys2Proof.Spec.LeadStamps : Prop :=
  (∀ (s : State) (x : L2Line), x ∈ s.l2 → (s.l2.find? fun y => y.line == x.line) = some x → 128 * x.line < 2 ^ 51 →
    let arrival := fun (j : Nat) => if j ∈ x.known then ((s.versions (128 * x.line + 8 * j)).headD (0, 0, 0)).2.1 else x.arr
    ∃ m, (∀ j < 16, arrival j ≤ m) ∧ (∃ j < 16, m = arrival j) ∧ getKey (s.leaveL2 x.line).hbmStamps x.line 0 =
      m + if (s.kept.any fun k => k.cell / 16 == x.line && decide (1 < k.versions.length)) = true then 2 ^ 56 else 0) ∧
  ∀ (s : State) (pa : Nat), match s.l2.find? fun x => x.line == pa / 128 with
    | none => s.leadStamp pa = (getKey s.hbmStamps (pa / 128) 0 % 2 ^ 56, 0xFFFF)
    | some x =>
      let own := fun (j : Nat) => if j ∈ x.known then ((s.versions (128 * x.line + 8 * j)).headD (0, 0, 0)).2 else (x.arr, 0xFFFF)
      let sector := (List.range 4).map fun j => own (pa % 128 / 32 * 4 + j)
      if s.leadMode = 0 ∧ pa % 128 / 8 ∈ x.known then s.leadStamp pa = own (pa % 128 / 8)
      else (s.leadStamp pa).1 = sector.foldl (fun m l => max m l.1) 0 ∧
        ∀ g, (s.leadStamp pa).2 = g ↔ (∀ l ∈ sector, l.2 = g) ∨ (g = 0xFFFF ∧ ¬ ∃ h, ∀ l ∈ sector, l.2 = h)

/-- The next arrival of a slice is given (R216, R402). -/
def Sys2Proof.Spec.arrived (s : State) (slice : Nat) : State :=
  let a := s.arrival slice + 1
  { s with arrivals := setKey s.arrivals slice a 0, events := if a = 2 ^ 55 then s.events ++ [(2, slice, 0)] else s.events }

/-- The versions of the cell that a write with sight `sight` of group `group` does not see (R220): a version behind the lead
by its own arrival and group, the lead by its stamp. -/
def Sys2Proof.Spec.unseenBy (s : State) (pa group sight : Nat) : List (DWord × Nat × Nat) :=
  let vs := s.versions pa
  let new := fun (p : Nat × Nat) => decide (sight < p.1 ∧ p.2 ≠ group)
  (vs.take 1).filter (fun _ => new (s.leadStamp pa)) ++ (vs.drop 1).filter fun v => new v.2

/-- Kept writes of the cells of a line in order (R220, R221): the state after those that find fewer than 15 versions that they
do not see and room for them at the home, the others, the cause of the first of these, and those from the one on for which
the slice has no arrival (R216). -/
def Sys2Proof.Spec.keptRun (base sight group slice : Nat) :
    List (Nat × DWord) → State → State × List (Nat × DWord) × Nat × List (Nat × DWord)
  | [], s => (s, [], 0, [])
  | (j, value) :: cells, s =>
    let pa := base + 8 * j
    let keep := unseenBy s pa group sight
    let next := (arrived s slice).placeVersions pa ((value, s.arrival slice + 1, group) :: keep)
    if s.arrival slice + 1 ≥ 2 ^ 56 then (s, [], 0, (j, value) :: cells)
    else if keep.length < 15 ∧ next.isSome = true then keptRun base sight group slice cells (next.getD s)
    else
      let rest := keptRun base sight group slice cells s
      (rest.1, (j, value) :: rest.2.1, if keep.length < 15 then 0x17 else 0x16, rest.2.2.2)

/-- The cells of a kept write with the bytes that it does not hold taken from the leads: of a host's or a peer's write, or of
a partial line (R213, R396; for the partial line the model's choice, notes/assumptions/98.md). -/
def Sys2Proof.Spec.Merged (s : State) (r : HomeReq) (base : Nat) (cells merged : List (Nat × DWord)) : Prop :=
  merged.length = cells.length ∧ ∀ p ∈ cells.zip merged, p.2.1 = p.1.1 ∧
    ∀ i < 64, p.2.2.getLsbD i = if (r.kind = 4 ∨ r.kind = 5 ∨ r.merge = true) ∧ r.mask.testBit (8 * p.1.1 + i / 8) = false
      then ((s.versions (base + 8 * p.1.1)).headD (0, 0, 0)).1.getLsbD i else p.1.2.getLsbD i

/-- From `s` to `u` the refused cells of a kept write retire into its side log (R228, R372): a new entry with the next SEQ of
the log, or one more attempt of the entry that it replays; cells go into wake entries while the slice has one of its 64. -/
def Sys2Proof.Spec.Retired (s u : State) (r : HomeReq) (cells : List (Nat × DWord)) (sight cause : Nat) : Prop :=
  let q : HomeReq := { r with op := .kept cells sight }
  let cell := fun (p : Nat × DWord) => (homeSlice r.pa r.leaf, r.pa / 128 * 16 + p.1)
  (∃ slot, (r.replay = false → slot < 512 ∧ ∀ e ∈ s.side, e.log = r.log → e.slot ≠ slot) ∧ u = { s with
    reqs := s.reqs.filter fun e => e.id != r.id,
    busy := s.busy.filter fun b => b.req != r.id,
    wakes := u.wakes, counters := if r.replay = true ∨ 64 ≤ r.log then s.counters else u.counters,
    side := if r.replay then s.side.map fun (e : SideEntry) => if e.req.id = r.id then
        { e with att := min 0xFFFF (e.att + 1), cause, bytes := 8 * cells.length, req := { q with replay := false }, due := false } else e
      else s.side ++ [{ log := r.log, seq := getKey s.sideSeq r.log 0, slot, req := { q with state := .sent },
                        bytes := 8 * cells.length, sight, cause }],
    sideSeq := if r.replay then s.sideSeq else setKey s.sideSeq r.log ((getKey s.sideSeq r.log 0 + 1) % 2 ^ 32) 0 }) ∧
  (∀ w ∈ s.wakes, w ∈ u.wakes) ∧ (∀ w ∈ u.wakes, w ∈ s.wakes ∨ ∃ p ∈ cells, w = cell p) ∧
  ∀ p ∈ cells, cell p ∈ u.wakes ∨ 64 ≤ (u.wakes.filter fun w => w.1 == (cell p).1).length

/-- From `s` to `u` the directory records that an agent takes a line (R203): alone and exactly while the line has four
pointers, else in a vector that names every agent it named before. -/
def Sys2Proof.Spec.Recorded (s u : State) (line agent : Nat) : Prop :=
  let before := s.dir.find? fun d => d.line == line
  u = { s with dir := u.dir } ∧ (∀ l, l ≠ line → (u.dir.find? fun d => d.line == l) = s.dir.find? fun d => d.line == l) ∧
  ∃ d, (u.dir.find? fun d => d.line == line) = some d ∧ (agent < 17 → agent ∈ d.targets) ∧
    (∀ b, before = some b → ∀ a ∈ b.targets, a < 17 → a ∈ d.targets) ∧
    (before = none → d.coarse = false ∧ d.agents = [agent]) ∧
    (∀ b, before = some b → b.coarse = false → agent ∉ b.agents → b.agents.length < 4 → d.coarse = false ∧ d.agents = b.agents ++ [agent])

/-- The bytes that an atomic finds, and the state after it stored new ones: memory, or, on a kept cell, the lead, which a
new version with the other bytes of its value replaces, with those the group has seen (R232). -/
def Sys2Proof.Spec.found (s : State) (r : HomeReq) (size : Nat) : Nat :=
  if leafK r.leaf then ((s.versions r.pa).headD (0, 0, 0)).1.toNat / 256 ^ (r.pa % 8) % 256 ^ size else readNat s.mem r.pa size
def Sys2Proof.Spec.storedAt (s : State) (r : HomeReq) (size new : Nat) : Option State :=
  if leafK r.leaf then
    let slice := homeSlice r.pa r.leaf
    let lead := (s.versions r.pa).headD (0, 0, 0)
    let keep := (unseenBy s r.pa r.group ((s.cluster r.cluster).sight slice)).filter fun v => v != lead
    let value := setBits lead.1.toNat (8 * (r.pa % 8) + 8 * size - 1) (8 * (r.pa % 8)) new
    (arrived s slice).placeVersions r.pa ((BitVec.ofNat 64 value, s.arrival slice + 1, r.group) :: keep)
  else some { s with mem := writeBytes s.mem r.pa (toBytes size new) }

/-- Version sets (R217, R221): where the home has room for them, a cell's versions are those it was given, the lead's value
is the data in memory, and no other cell changes; only replays of side-log entries may become due. There is room while the
Hayloft of the slice holds at most 12,288 versions behind leads (which of them it moves to the spill area is the model's
choice: notes/assumptions/16.md). -/
def Sys2Proof.Spec.VersionsKept : Prop :=
  ∀ (s : State) (pa : Nat) (v : DWord × Nat × Nat) (vs : List (DWord × Nat × Nat)), memWf s.mem = true →
    (∀ u, s.placeVersions pa (v :: vs) = some u →
      u = { s with kept := u.kept, mem := u.mem, l2 := u.l2, hbmStamps := u.hbmStamps, side := u.side, wakes := u.wakes } ∧
      (u.side.map fun (e : SideEntry) => { e with due := true }) = (s.side.map fun (e : SideEntry) => { e with due := true }) ∧
      memWf u.mem = true ∧ u.versions pa = v :: vs ∧ readNat u.mem (pa / 8 * 8) 8 = v.1.toNat ∧
      ∀ a, a / 8 ≠ pa / 8 → u.versions a = s.versions a ∧ readByte u.mem a = readByte s.mem a) ∧
    (vs.length + ({ s with kept := s.kept.filter fun k => k.cell != pa / 8 } : State).hayloft (homeSlice pa 0) ≤ 12288 →
      (s.placeVersions pa (v :: vs)).isSome = true)

/-- Fills, reads for engines and for the host, writes, kept writes, ATOMG and REDG, CASG, LDK, SIBL and RECON where they
perform, at their home (R202, R203, R211, R216, R217, R220 to R222, R228, R232 to R237, R395, R396): what the home holds
afterwards, and the result the thread is owed. A fill or read under policy 0 from the other die leaves a guest copy in
the directory; a host or peer write takes a kept cell's disabled bytes from its lead; cells refused with 0x16 or 0x17
retire, or the write is sent again while its log is full or its slice has no arrival. Lead mode, stamps and residence in
L2 follow the model's choice (log entry 42), and so does the spill of the Hayloft (log entry 16). -/
def Obligations.HomeOperations : Prop :=
  VersionsKept ∧ EnteredKeepsVersions ∧ LeadStamps ∧ ∀ (x : State) (r : HomeReq), Served x r →
    let s := entered x r
    let slice := homeSlice r.pa r.leaf
    let base := r.pa / 128 * 128
    let t := s.team r.team
    let all := (List.range t.depth).map (· + 1)
    let vs := s.versions r.pa
    let ends := fun (v : State) => ∃ u, exec (.homeRequestService r.id) x = .next u ∧ Over v u r
    let endsAs := fun (v : State) (agent : Option Nat) => match agent with
      | none => ends v
      | some a => ∃ z, Recorded v z (r.pa / 128) a ∧ ends z
    let answers := fun (v : State) (d size y : Nat) (count : Option (Nat × Nat)) =>
      ends (v.addRegResults r.ticket r.team r.rank (loadWrites t d 0 size y all count))
    let told := fun (v : State) => if r.kind = 4 ∧ r.src = 64 ∧ r.replay = false then { v with outputs := v.outputs ++ [.hostWrite true] } else v
    let again := fun (v : State) (cells : List (Nat × DWord)) (sight : Nat) => exec (.homeRequestService r.id) x = .next { v with
      nextId := v.nextId + 1, busy := v.busy.filter fun b => b.req != r.id,
      reqs := v.reqs.map fun (e : HomeReq) => if e.id = r.id then { e with
        op := .kept cells sight, state := .rejected (v.dieClock (placeDie e.src) + 64), rejects := e.rejects + 1, holdVa := none, wants := 0,
        aged := if e.aged = none ∧ 8 ≤ e.rejects + 1 then some v.nextId else e.aged } else e }
    (∀ line, r.op = .fill line →
      let l := (s.cluster r.cluster).line line
      let guest := if r.pl = 0 ∧ (s.cluster r.cluster).quadOf line / 32 ≠ homeDie r.pa r.leaf then some 0 else none
      (l.st = .filling → l.req = r.id → endsAs (s.setLine r.cluster { l with
        data := some (readBytes s.mem base 128,
          (List.range 16).map fun j => if leafK r.leaf then (s.versions (base + 8 * j)).length else 1),
        basis := if r.pl = 2 then l.basis else s.arrival slice }) guest) ∧
      (l.st ≠ .filling ∨ l.req ≠ r.id → endsAs s guest)) ∧
    (∀ idx n, r.op = .read idx n → r.pa % 128 + n ≤ 128 →
      endsAs { s with
        commands := s.commands.map fun (k : CopyCommand) => if r.cmd = some k.id then
          { k with lines := k.lines.map fun (l : CopyLine) => if l.idx = idx then { l with data := some (readBytes s.mem r.pa n) } else l }
        else k,
        colls := s.colls.map fun (k : CollCommand) =>
          if r.cmd = some k.id then { k with got := k.got ++ [(idx, readBytes s.mem r.pa n)] } else k }
        (if r.pl = 0 ∧ r.src / 32 ≠ homeDie r.pa r.leaf then some 0 else none)) ∧
    (∀ n agent caches, r.op = .hostRead n agent caches → r.pa % 128 + n ≤ 128 →
      ∃ z, (if caches = true ∧ agent < 16 then Recorded s z (r.pa / 128) (agent + 1) else z = s) ∧
        ends { z with outputs := z.outputs ++ [.hostData (some (readBytes s.mem r.pa n))] }) ∧
    (∀ bytes, r.op = .write bytes → (∀ p ∈ bytes, p.1 < 128) →
      ends (told (({ s with mem := bytes.foldl (fun m p => writeByte m (base + p.1) p.2) s.mem } : State).settleTicket r.ticket r.rank))) ∧
    (∀ cells sight merged, r.op = .kept cells sight → (∀ p ∈ cells, p.1 < 16) → Merged s r base cells merged →
      let run := keptRun base sight r.group slice merged s
      (run.2.2.2 = [] → run.2.1 = [] → ends (told (run.1.settleTicket r.ticket r.rank))) ∧
      (run.2.2.2 = [] → run.2.1 ≠ [] → r.replay = true ∨ (run.1.side.filter fun e => e.log == r.log).length < 512 →
        ∃ u, Retired (told run.1) u r run.2.1 sight run.2.2.1 ∧ exec (.homeRequestService r.id) x = .next (u.settleTicket r.ticket r.rank)) ∧
      (run.2.2.2 = [] → run.2.1 ≠ [] → r.replay = false → 512 ≤ (run.1.side.filter fun e => e.log == r.log).length →
        again run.1 run.2.1 sight) ∧
      (run.2.2.2 ≠ [] → again run.1 (run.2.1 ++ run.2.2.2) sight)) ∧
    (∀ ao size y d count, r.op = .atomic ao size y d count → r.pa % 128 + size ≤ 128 →
      let old := found s r size
      ∀ v, (if ao = 12 then some s else storedAt s r size (atomicOp ao size old y)) = some v →
        (d = none → ends (v.settleTicket r.ticket r.rank)) ∧
        ∀ d', d = some d' → answers v d' size old (count.map fun k => (k, if leafK r.leaf then (v.versions r.pa).length else 1))) ∧
    (∀ size cmp new d, r.op = .cas size cmp new d → r.pa % 128 + size ≤ 128 →
      ∀ v, (if found s r size = cmp then storedAt s r size new else some s) = some v → answers v d size (found s r size) none) ∧
    (∀ d, r.op = .probe d → leafK r.leaf = true →
      answers s d 16 ((vs.headD (0, 0, 0)).1.toNat + 2 ^ 64 * (s.arrival slice + 2 ^ 56 * vs.length)) none) ∧
    (∀ field k d count, r.op = .sibling field k d count → leafK r.leaf = true →
      answers s d 8 (match vs[k]? with
        | none => 0
        | some v => if field = 0 then v.1.toNat else if field = 1 then v.2.1 else v.2.2) (count.map fun x => (x, vs.length))) ∧
    (∀ op basis arg d, r.op = .recon op basis arg d →
      let b := min basis (s.arrival slice)
      let old := vs.filter fun v => decide (v.2.1 ≤ b)
      let rest := vs.filter fun v => decide (b < v.2.1)
      let gives := fun (v : State) => answers v d 16 (((v.versions r.pa).headD (0, 0, 0)).1.toNat +
        2 ^ 64 * (((v.versions r.pa).headD (0, 0, 0)).2.1 + 2 ^ 56 * (v.versions r.pa).length)) none
      (old = [] ∨ (old.length = 1 ∧ op ≠ 6) ∨ (op = 5 ∧ old.length ≤ arg.toNat % 2 ^ 32) → gives s) ∧
      (¬ (old = [] ∨ (old.length = 1 ∧ op ≠ 6) ∨ (op = 5 ∧ old.length ≤ arg.toNat % 2 ^ 32)) → ∃ value : DWord,
        (let among := ∃ v ∈ old, v.1 = value
         (op = 0 → among ∧ ∀ v ∈ old, v.1.toInt ≤ value.toInt) ∧ (op = 1 → among ∧ ∀ v ∈ old, value.toInt ≤ v.1.toInt) ∧
         (op = 2 → among ∧ ∀ v ∈ old, v.1.toNat ≤ value.toNat) ∧ (op = 3 → among ∧ ∀ v ∈ old, value.toNat ≤ v.1.toNat) ∧
         (op = 4 → value = (old.headD (0, 0, 0)).1) ∧ (op = 5 → (old[arg.toNat % 2 ^ 32]?).map (·.1) = some value) ∧
         (op = 6 → value = arg) ∧
         (op = 7 ∨ op = 8 → value = BitVec.ofNat 64 ((old.drop 1).foldl (fun m v => fpPick (op == 7) fp64 m v.1.toNat)
           (old.headD (0, 0, 0)).1.toNat)) ∧
         (op = 9 → ∀ i, value.toNat.testBit i = true ↔ ∃ v ∈ old, v.1.toNat.testBit i = true) ∧
         (op = 10 → ∀ i < 64, value.toNat.testBit i = true ↔ ∀ v ∈ old, v.1.toNat.testBit i = true)) ∧
        ∀ v, (arrived s slice).placeVersions r.pa ((value, s.arrival slice + 1, r.group) :: rest) = some v →
          gives (if old.length = 1 then v else v.wakeCell r.pa)))

/-- The other outcomes of HOME_REQUEST_SERVICE (R202, R204, R206, R207, R214, R216, R229, R352), INVALIDATION_ACK (R202) and
HOME_REQUEST_RETRY (R207), in the device's own memory: a request that must wait does nothing, also across a lost seam or to a
die that is down (the model's choice: notes/assumptions/24.md); one behind a busy line joins its list, or is rejected when the
list is full or an aged one waits for it; one that needs memory, or whose lines have copies, takes a miss entry and holds
every line that it writes until they answer; one without an arrival is rejected; an acquire's invalidation, the write-backs
and then the change of a map entry, and the write-back step of a release are taken; a rejected request is sent again after 64
clocks of its die. Walks take their place when they start (notes/assumptions/37.md). -/
def Sys2Proof.Spec.HomeRequestOrder : Prop :=
  ∀ (s : State) (r : HomeReq),
    let change := fun (v : State) (f : HomeReq → HomeReq) =>
      { v with reqs := v.reqs.map fun (e : HomeReq) => if e.id = r.id then f e else e }
    let found := (s.reqs.find? fun e => e.id == r.id && (e.state == .sent || e.isListed || s.memoryDue e)) = some r ∧ r.state ≠ .busy
    let line := r.pa / 128
    let slice := homeSlice r.pa r.leaf
    let rejected := fun (v : State) (wants : Nat) => change { v with nextId := v.nextId + 1, busy := v.busy.filter fun b => b.req != r.id } fun e =>
      { e with state := .rejected (v.dieClock (placeDie e.src) + 64), rejects := e.rejects + 1, holdVa := none, wants,
               aged := if e.aged = none ∧ 8 ≤ e.rejects + 1 then some v.nextId else e.aged }
    let agents := fun (v : State) (l : Nat) => ((v.dir.find? fun d => d.line == l).map (·.targets)).getD []
    let acks := fun (v : State) (l : Nat) => (if 0 ∈ agents v l then 1 else 0) + 2 * ((agents v l).filter fun a => a != 0).length
    let snoops := fun (v : State) (l : Nat) => ((agents v l).filter fun a => a != 0).flatMap fun a => [Output.biSnpInv (2 * l) a, Output.biSnpInv (2 * l + 1) a]
    let needs := fun (v : State) => (line, if r.touches.2.2 then acks v line else 0) :: (v.ringLines r).map fun l => (l, acks v l)
    let serves := fun (v : State) =>
      if v.noArrival r = true then some (rejected v 0)
      else if ∃ n ∈ needs v, ∃ b ∈ v.busy, b.line = n.1 ∧ b.req ≠ r.id then some v
      else if (∀ n ∈ needs v, n.2 = 0) ∧ (r.state = .busy ∨ v.needsMemory r = false) then none
      else
        let used := (v.reqs.filter fun e => e.id != r.id && e.state == .busy && homeSlice e.pa e.leaf == slice).length
        if r.state ≠ .busy ∧ ((if r.aged.isSome then 2048 else 1984) ≤ used ∨ v.agedAhead r 2 = true) then some (rejected v 2)
        else some (change { v with
          busy := (v.busy.filter fun b => b.req != r.id) ++ (needs v).map fun n => { line := n.1, req := r.id, acks := n.2 },
          outputs := v.outputs ++ (if r.touches.2.2 then snoops v line else []) ++ (v.ringLines r).flatMap (snoops v) }
          fun e => { e with state := .busy })
    let near := fun (v : State) => r.pa < 2 ^ 51 ∧ ∀ l ∈ v.ringLines r, 128 * l < 2 ^ 51
    ((∀ e ∈ s.reqs, e.id = r.id → e.state ≠ .sent ∧ e.isListed = false ∧ s.memoryDue e = false) →
      exec (.homeRequestService r.id) s = .next s) ∧
    (found → s.reqHolds r ≠ [] → exec (.homeRequestService r.id) s = .next s) ∧
    (found → s.reqHolds r = [] →
      (∀ inv, r.op = .acquire inv → ∃ k, exec (.homeRequestService r.id) s = .next (change
        (if inv then { s with
          counters := k,
          nextId := s.nextId + 1,
          clusters := s.clusters.map fun (x : Cluster) => if x.id = r.cluster then
            { x with lines := invalidated (s.cluster r.cluster) r.sc s.nextId x.lines } else x } else s)
        fun e => { e with state := .refreshing })) ∧
      (∀ idx new, r.op = .mapEntry idx new →
        let c := s.cluster r.cluster
        let old := ((c.regions[idx]?).join.filter fun o => o.image.toNat.testBit 15).toList
        let ranges := old.flatMap fun o => (List.range (o.planes + 1)).map fun k => (planeStart o k, bits o.image.toNat 159 128)
        let dirty := ∃ l ∈ c.lines, l.mask ≠ 0 ∧ ∃ m, c.mapping l.line = some m ∧ m.1 = idx
        (s.flying false r.after ≠ [] → exec (.homeRequestService r.id) s = .next s) ∧
        (s.flying false r.after = [] → (r.stage = 0 ∧ ranges ≠ []) ∨ dirty → exec (.homeRequestService r.id) s = .next (change
          (ranges.foldl (fun v p => ask v { r with ticket := 0, after := [], stage := 0, op := .walk p.1 (p.1 + p.2) }) s)
          fun e => { e with stage := 1, after := (List.range ranges.length).map (s.nextId + ·) })) ∧
        (s.flying false r.after = [] → r.stage ≠ 0 ∨ ranges = [] → ¬ dirty → ∃ v : State,
          (let served := (v.rescan r.cluster).addResult r.ticket r.team r.rank .nothing
           exec (.homeRequestService r.id) s = .next { served with reqs := served.reqs.filter fun e => e.id != r.id }) ∧
          let gone := fun (l : RegionLine) => match c.mapping l.line, (v.cluster r.cluster).mapping l.line with
            | some (i, _, _), some (j, _, _) => !(i == j && i != idx)
            | _, _ => true
          (∃ k, v = (c.lines.filter gone).foldl
            (fun x (l : RegionLine) => l.prefs.foldl (fun (x : State) p => x.settleTicket p.1 p.2) x)
            { s with counters := k, clusters := v.clusters }) ∧
          v.clusters = s.clusters.map fun (x : Cluster) => if x.id = r.cluster then
            { x with regions := x.regions.set idx new, lines := x.lines.filter fun l => !gone l } else x)) ∧
      (r.op.local = false → r.ord = 3 → r.stage = 0 → 3 ≤ r.sc → (∀ ranks d, r.op ≠ .launch ranks d) →
        exec (.homeRequestService r.id) s = .next (change (ask s {
          team := r.team, rank := r.rank, cluster := r.cluster, job := r.job,
          asid := r.asid, sys := r.sys, group := r.group, ord := 3, op := .walk 0 (48 * 2 ^ 20) })
          fun e => { e with stage := 1, after := [s.nextId] })) ∧
      (r.op.local = false → r.releasing = false → r.seq ≠ 0 →
        let waits := (∃ b ∈ s.busy, b.line = line ∧ b.req ≠ r.id) ∨ ∃ e ∈ s.reqs, e.id ≠ r.id ∧ e.isListed = true ∧ e.pa / 128 = line ∧
          (r.isListed = false ∨ e.listedAt < r.listedAt)
        (s.reqAhead r ≠ [] ∨ s.reaches r = false → exec (.homeRequestService r.id) s = .next s) ∧
        (s.reqAhead r = [] → s.reaches r = true → waits →
          (r.isListed = true → exec (.homeRequestService r.id) s = .next s) ∧
          (r.isListed = false →
            let used := (s.reqs.filter fun e => e.isListed && homeSlice e.pa e.leaf == slice).length
            exec (.homeRequestService r.id) s = .next (if used < (if r.aged.isSome then 512 else 480) ∧ s.agedAhead r 1 = false then
              change { s with nextId := s.nextId + 1 } fun e => { e with state := .listed s.nextId } else rejected s 1))) ∧
        (s.reqAhead r = [] → s.reaches r = true → ¬ waits → near s → ∀ v, serves s = some v →
          exec (.homeRequestService r.id) s = .next v))) ∧
    (∀ l b, (s.busy.find? fun b => b.line == l && b.acks != 0) = some b → b.req = r.id →
      (s.reqs.find? fun e => e.id == r.id) = some r →
        let x : State := { s with
          busy := s.busy.map fun (y : Busy) => if y.line = l then { y with acks := y.acks - 1 } else y,
          dir := if b.acks = 1 then s.dir.filter fun d => d.line != l else s.dir }
        (128 * l < 2 ^ 51 → near x → exec (.invalidationAck l) s =
          if r.state = .busy ∧ ∀ y ∈ x.busy, y.req = r.id → y.acks = 0 then
            match serves x with
              | some v => .next v
              | none => exec (.homeRequestService r.id) x
          else .next x) ∧
        (2 ^ 51 ≤ 128 * l → exec (.invalidationAck l) s = .next s)) ∧
    ((∀ b ∈ s.busy, b.line = line → b.acks = 0) → exec (.invalidationAck line) s = .next s) ∧
    ((s.reqs.find? fun e => e.id == r.id) = some r → exec (.homeRequestRetry r.id) s = .next (match r.state with
      | .rejected t => if t ≤ s.dieClock (placeDie r.src) then
          change { s with nextId := s.nextId + 1 } fun e => { e with state := .sent, seq := s.nextId } else s
      | _ => s))

/-- SIDE_LOG_REPLAY and SIGHT_REFRESH_COMPLETE (R219, R228, R352, R361, R374). The entries of the log that are due, all of them
after 4,096 clocks, are translated anew and sent to their homes in SEQ order; one behind an earlier entry of its line that is
due or on its way waits, one behind an entry that rests there is due no longer (notes/assumptions/116.md); where the
translation fails its attempts and cause are noted; a kept write replayed to a page without K stores its masked bytes
(notes/assumptions/97.md). A refresh raises no entry of the vector above the greater of its old value and its slice's count,
and gives that wherever the offset fits; the requests that waited for it are over. -/
def Sys2Proof.Spec.LogAndSightEvents : Prop :=
  ∀ (s : State) (log cluster : Nat),
    let u : State := if getKey s.replays log 0 + 4096 ≤ s.dieClock (logDie log) then
        { s with replays := setKey s.replays log (s.dieClock (logDie log)) 0,
                 side := s.side.map fun (e : SideEntry) => if e.log = log then { e with due := true } else e }
      else s
    (exec (.sideLogReplay log) s = .next ((u.side.filter fun e => e.log == log).foldl (fun v e =>
      let note := fun (v : State) (f : SideEntry → SideEntry) =>
        { v with side := v.side.map fun (x : SideEntry) => if x.req.id = e.req.id then f { x with due := false } else x }
      let sends := fun (v : State) (r : HomeReq) =>
        { note v id with
          nextId := v.nextId + 1,
          reqs := v.reqs ++ [{ r with state := .sent, seq := v.nextId, replay := true, after := [], stage := 2, ticket := 0 }] }
      let sameLine := fun (x : SideEntry) => x.log == e.log &&
        if e.req.kind = 4 ∨ e.req.kind = 5 then x.req.pa / 128 == e.req.pa / 128
        else x.req.asid == e.req.asid && x.req.va / 128 == e.req.va / 128
      let flies := fun (x : SideEntry) => v.reqs.any fun r => r.id == x.req.id
      let earlier := (v.side.takeWhile fun x => x.req.id != e.req.id).filter sameLine
      if (v.side.any fun x => x.req.id == e.req.id && x.due) = false then v
      else if flies e = true ∨ ∃ x ∈ earlier, x.due = true ∨ flies x = true then v
      else if earlier ≠ [] then note v id
      else if e.req.kind = 4 ∨ e.req.kind = 5 then sends v e.req
      else match v.translate e.req.asid e.req.va e.req.sys { w := true, a := e.req.kind == 1 } with
        | (.fail cause _, x) => note x fun y => { y with att := min 0xFFFF (y.att + 1), cause := cause.code }
        | (.ok pa leaf, x) => sends x { e.req with pa, leaf, op := match e.req.op with
            | .kept cells sight =>
              if leafK leaf then .kept cells sight
              else .write (cells.flatMap fun p => (List.range 8).filterMap fun i =>
                if e.req.mask.testBit (8 * p.1 + i) then some (8 * p.1 + i, BitVec.ofNat 8 (p.2.toNat / 256 ^ i)) else none)
            | op => op }) u)) ∧
    let due := s.reqs.filter fun r => r.cluster == cluster && r.state == .refreshing
    (due = [] → exec (.sightRefreshComplete cluster) s = .next s) ∧
    (due ≠ [] → (s.clusters.any fun x => x.id == cluster) = true → ∃ u : State,
      exec (.sightRefreshComplete cluster) s = .next { u with
        nextId := s.nextId + (due.filter fun r => r.op.local && r.ticket != 0).length,
        reqs := s.reqs.filter fun r => !due.any fun o => o.id == r.id,
        results := s.results ++ (due.filter fun r => r.op.local && r.ticket != 0).mapIdx fun k r =>
          ({ id := s.nextId + k, ticket := r.ticket, team := r.team, rank := r.rank, act := .nothing } : LongResult) } ∧
      u = { s with clusters := u.clusters } ∧
      (u.clusters.map fun (x : Cluster) => { x with bases := [], offs := [] }) = (s.clusters.map fun (x : Cluster) => { x with bases := [], offs := [] }) ∧
      (∀ x, x ≠ cluster → u.cluster x = s.cluster x) ∧
      ∀ i < 128, let n := fun j => max ((s.cluster cluster).sight j) (s.arrival j)
        (u.cluster cluster).sight i ≤ n i ∧
        ((∀ j < 128, j / 64 = i / 64 → n i < n j + 2 ^ 24) → (u.cluster cluster).sight i = n i))

/-! ### Copy engines -/

/-- What keeps a thread whose word reads an object of `n` bytes at pool address `a` (R210, R212): the walk or the fill of a
region line; none where the lines serve. With it the state, in which fills may have started. -/
def Sys2Proof.Spec.objectTurn (c : Ctx) (u : State) (r a n : Nat) : Option Turn × State :=
  let cid := c.tm.cluster
  match lineHold c u [a] n true false with
  | some (line, ea) =>
    (some (.holds (walkWait c u r line ea false).1 (walkWait c u r line ea false).2), u)
  | none =>
    let (ok, v) := u.lineServes cid (keyOf a) n true c.gang.sys
    if ok then (none, v.touch cid (keyOf a) n) else (some (.holds v (.fill cid (v.fillingIn cid (keyOf a) n))), v)

/-- TCOPY, TSTORE, TGATHER, TSCAT, TSTREAM and TDRAIN (R238, R245 to R247, R254): each Active thread's addresses are
checked, its earlier pool stores performed, its record read and checked, and its command accepted, with the record's
contents, the planes and the sights of that moment, at the end of its queue when the queue has a place. A stream binds its
side of the ring. -/
def Sys2Proof.Spec.CopyCommandWords : Prop :=
  ∀ p ∈ ([(0, .tcopy), (1, .tstore), (2, .tgather), (3, .tscat), (4, .tstream), (5, .tdrain)] : List (Nat × (FmtE → Instr))),
    ∀ w s c, Runs (p.2 w) s c →
      let kind := p.1
      let cid := c.tm.cluster
      TurnWord (p.2 w) s c (clocks c.act.length 4) s id fun u r =>
        let rec_ := c.val r w.s1.toNat 1
        let second := c.val r w.s2.toNat 1
        let bar := if 4 ≤ kind ∨ w.d.toNat = 255 then none else some (c.val r w.d.toNat 1)
        let addresses := (rec_, 64) :: (if kind = 2 ∨ kind = 3 then [(second, 4)] else []) ++ (if 4 ≤ kind then [(second, 32)] else []) ++
          (bar.map fun b => (b, 16)).toList
        let stores := storesOf u c.tm.id [r]
        match (if ∃ a ∈ addresses, a.1 % a.2 ≠ 0 then some .misaligned else addresses.findSome? fun a => poolCheck c.cluster a.1) with
        | some cause => .traps u cause rec_ 0
        | none =>
          if stores ≠ [] then .holds u (.flights stores)
          else match objectTurn c u r rec_ 64 with
            | (some turn, _) => turn
            | (none, v) => match if 4 ≤ kind then objectTurn c v r second 32 else (none, v) with
              | (some turn, _) => turn
              | (none, v2) =>
                let record := readNat (v2.cluster cid).pool (keyOf rec_) 64
                let header := readNat (v2.cluster cid).pool (keyOf second) 16
                match recordRefusal c (v2.matrixOf c.tm.id) kind record second (if 4 ≤ kind then second else 0) header with
                | some cause => .traps v2 cause rec_ 0
                | none =>
                  if 64 ≤ (v2.commands.filter fun x => x.quad == c.tm.quad && x.queue == w.q.toNat).length then
                    .holds v2 (.copyRoom c.tm.quad w.q.toNat)
                  else
                    let x : State := { v2 with
                      nextId := v2.nextId + 1,
                      commands := v2.commands ++ [{
                        id := v2.nextId, quad := c.tm.quad, queue := w.q.toNat, team := c.tm.id, rank := r, kind,
                        record := BitVec.ofNat 512 record, pl := w.imm.toNat % 4,
                        planes := if record.testBit 504 then c.tm.depth else 0, stride := c.tm.gplane.toNat % 2 ^ 32, list := second, bar,
                        ring := second, sights := (List.range 128).map (v2.cluster cid).sight, sys := c.gang.sys,
                        pslot := (((v2.matrixOf c.tm.id).slot? (layPbase record % 64)).map (·.id)).getD 0 }] }
                    .goes (if kind < 4 then x
                      else x.poolWrite cid (keyOf second) (toBytes 16 (Nat.lor header (2 ^ if kind = 4 then 127 else 126))))

/-- TLAY, TWAIT and TCANCEL (R251, R253, R255). TLAY goes to its record's share as a strong access of the cluster. TWAIT
waits for the commands that the team had accepted in the queue. TCANCEL ends the team's commands of the queue, each with a
fault of cause 0 behind the lines that it has in flight, and waits for them. -/
def Sys2Proof.Spec.CopyControlWords : Prop :=
  ∀ w s c,
    let mine := s.commands.filter fun k => k.team == c.tm.id && k.queue == w.q.toNat
    (Runs (.tlay w) s c → let rec_ := fun r => c.val r w.s1.toNat 1
      PoolWord (.tlay w) s c (clocks c.act.length 4) 2 1 64 true false (fun r => firstBad c 64 false [rec_ r]) (fun r => [rec_ r])
        fun r => [[[{
          ea := rec_ r, size := 64,
          op := .layout (w.imm.toNat.testBit 0) (w.imm.toNat.testBit 1) (c.val r w.s2.toNat 2) c.tm.depth (c.tm.gplane.toNat % 2 ^ 32)
            (loadDest c r w.d.toNat) }]]]) ∧
    (Runs (.twait w) s c → Commits (.twait w) s c 6 (if c.act = [] then s else { s with
      nextId := s.nextId + 1,
      tickets := s.tickets ++ [{ id := s.nextId, cls := 6, team := c.tm.id, gangs := [c.gid], parts := c.act }],
      engineWaits := s.engineWaits ++
        [{ ticket := s.nextId, team := c.tm.id, ranks := c.act, ids := mine.map (·.id), act := .twait w.q.toNat w.d.toNat }] })) ∧
    (Runs (.tcancel w) s c → (c.act = [] → Commits (.tcancel w) s c 6 s) ∧ (c.act ≠ [] →
      let x := mine.foldl (fun v k => v.updCommand k.id fun (k : CopyCommand) =>
        { k with started := true, ended := true, issued := k.issued + 1, waits := none,
                 lines := k.lines ++ [{ idx := k.issued, fault := some 0, gone := true }] }) s
      Commits (.tcancel w) s c 6 { x with
        nextId := x.nextId + 1,
        tickets := x.tickets ++ [{ id := x.nextId, cls := 5, team := c.tm.id, gangs := [c.gid], parts := [c.gang.members.headD 0] }],
        engineWaits := x.engineWaits ++
          [{ ticket := x.nextId, team := c.tm.id, ranks := [c.gang.members.headD 0], ids := mine.map (·.id), act := .cancel }] }))

/-- A command's first fault is recorded, once (R250, R251, R253, R254): in its queue's fault record, with the barrier objects
that are to take FLT, those that are valid or in lines that do not serve yet, and a stream's ring to be let go. -/
def Sys2Proof.Spec.faultRecorded (s : State) (k : CopyCommand) (line cause : Nat) : State :=
  let cid := (s.team k.team).cluster
  let bars := match k.bar with
    | none => []
    | some b => if layMask k.record.toNat = 0 then [b]
      else ((List.range 48).filter fun j => k.record.toNat.testBit (192 + j)).map fun j => setBits b 29 24 j
  let may := fun (b : Nat) => (s.lineServes cid (keyOf b) 16 true k.sys).1 = false ∨ readNat (s.cluster cid).pool (keyOf b) 16 / 16 % 16 = 0xA
  let mine := fun (x : CopyRecord) => x.team == k.team && x.queue == k.queue
  ({ s with
    copyRecs := if s.copyRecs.any mine then
      s.copyRecs.map fun (x : CopyRecord) => if mine x then { x with count := min 0xFFFF (x.count + 1) } else x
    else s.copyRecs ++ [{ team := k.team, queue := k.queue, cause, count := 1 }] } : State).updCommand k.id fun x =>
      { x with ended := true, faulted := true, faultAt := some line, flts := bars.filter fun b => decide (may b), unbinds := decide (4 ≤ k.kind) }

/-- FLT goes to a barrier object, if it is valid (R250). -/
def Sys2Proof.Spec.takesFlt (s : State) (cid b : Nat) : State :=
  let o := readNat (s.cluster cid).pool (keyOf b) 16
  if o / 16 % 16 = 0xA then putBarrier s cid (keyOf b) { barrierOf o with flt := true } else s

/-- A delivery of `n` bytes to the barrier object at `bar` (R193, R194, R249); none where no object lies there. -/
def Sys2Proof.Spec.delivered (s : State) (k : CopyCommand) (bar : Option Nat) (n : Nat) : Option State :=
  let cid := (s.team k.team).cluster
  match bar with
  | none => some s
  | some b =>
    let o := readNat (s.cluster cid).pool (keyOf b) 16
    if o / 16 % 16 ≠ 0xA then none
    else some (putBarrier s cid (keyOf b) { barrierOf o with bal := ((((barrierOf o).bal : Int) - n) % 2 ^ 48).toNat })

/-- The copy engines' own rows (R238, R239, R244, R247 to R250, R252, R254): the head of a queue starts; a running
command issues its next line, of a gather row by the index read with the row's first line; a read line's data goes to
its next replica, or by words to the palette, and is reported; a write line takes its bytes and goes to its home, or
into the side log, and then reports; a line's fault ends its command; a stream without a slot takes the next one. What
needs a region line that does not serve waits for its fill. The model's choices: no FLT at an object that the command
cannot reach, an address of 2^57 or more that faults, and the merge at a replay (log entries 100, 96 and 97). -/
def Sys2Proof.Spec.CopyEngineEvents : Prop :=
  ∀ (s : State) (k : CopyCommand), s.command? k.id = some k →
    let cid := (s.team k.team).cluster
    let asid := (s.job (s.team k.team).job).asid
    let stopped := (s.stopRequested k.team).1 = true ∨ (s.team k.team).stat ≠ 0
    let used := ((s.commands.filter fun x => x.quad == k.quad).map fun x => x.lines.length).sum
    (∀ quad queue, (s.commands.find? fun x => x.quad == quad && x.queue == queue) = some k →
      exec (.copyCommandStart quad queue) s = .next (if k.started = true ∨ stopped then s
        else (s.updCommand k.id fun x => { x with started := true }).takeSlot { k with started := true })) ∧
    (k.started = false ∨ k.ended = true ∨ 4096 ≤ used → exec (.copyLineIssue k.id) s = .next s) ∧
    (k.started = true → k.ended = false → used < 4096 →
      let indexed := k.gather = true ∧ k.index = none ∧ k.row < k.rows
      let key := if 4 ≤ k.kind then keyOf k.ring else keyOf (k.list + 4 * (k.indices k.row).2.1)
      let w := if 4 ≤ k.kind then s.lineFor cid key 32 true k.sys
        else if indexed then s.lineFor cid key 4 true k.sys else (none, s)
      (∀ line, w.1 = some line → exec (.copyLineIssue k.id) s = .next (w.2.updCommand k.id fun x => { x with waits := some line })) ∧
      (w.1 = none →
        let read := some (readNat (w.2.cluster cid).pool key 4)
        let k' := if indexed then { k with index := read } else k
        let v := if indexed then w.2.updCommand k.id fun x => { x with index := read } else w.2
        let next := k'.next (readNat (v.cluster cid).pool (keyOf k.ring) 16)
        (next = none → exec (.copyLineIssue k.id) s = .next (v.settleCommand k.id)) ∧
        ∀ l, next = some l →
          (k.reads = false → exec (.copyLineIssue k.id) s = .next (v.takeCopyLine k' l false)) ∧
          (k.reads = true →
            let t := v.translate asid l.va k.sys { r := true }
            (∀ pa leaf, t.1 = .ok pa leaf → let l' : CopyLine := { l with pa, leaf }
              exec (.copyLineIssue k.id) s = .next ((ask t.2 (lineReq t.2 k' l' (.read l.idx l.n))).takeCopyLine k'
                { l' with req := t.2.nextId } false)) ∧
            ∀ cause info, t.1 = .fail cause info → exec (.copyLineIssue k.id) s = .next (t.2.takeCopyLine k'
              { l with fault := some cause.code, gone := true } true)))) ∧
    (∀ l, k.line l.idx = some l →
      let fails := fun (v : State) (l : CopyLine) (cause : Nat) (gone : Bool) =>
        (v.setLineOf k.id { l with fault := some cause, gone, waits := none }).updCommand k.id fun x => { x with ended := true }
      let waits := fun (v : State) (line : Nat) => v.setLineOf k.id { l with waits := some line }
      let done := fun (v : State) => (v.dropLineOf k.id l.idx).settleCommand k.id
      let deliver := exec (.copyLineDelivery k.id l.idx) s
      let accept := exec (.copyWriteLineAccept k.id l.idx) s
      (l.data = none ∨ l.gone = true ∨ l.fault ≠ none → deliver = .next s) ∧
      (∀ bs a more, l.data = some bs → l.gone = false → l.fault = none → layDst k.record.toNat ≠ 1 → l.dst = a :: more →
        let bar := k.bar.map fun b => if layMask k.record.toNat = 0 then b else setBits b 29 24 (a / 2 ^ 24 % 2 ^ 6)
        let o := s.objectsFor cid 16 k.sys bar.toList
        let w := o.2.lineFor cid (keyOf a) l.n false k.sys
        (∀ line, o.1 = some line → deliver = .next (waits o.2 line)) ∧
        (∀ line, o.1 = none → w.1 = some line → deliver = .next (waits w.2 line)) ∧
        (o.1 = none → w.1 = none →
          let x := (w.2.poolWrite cid (keyOf a) bs).rescan cid
          let l' : CopyLine := { l with dst := more, waits := none }
          deliver = .next (match delivered x k bar l.n with
            | some y => if more = [] then done y else y.setLineOf k.id l'
            | none => fails x l' 0x29 more.isEmpty))) ∧
      (∀ bs, l.data = some bs → l.gone = false → l.fault = none → layDst k.record.toNat = 1 →
        let o := s.objectsFor cid 16 k.sys k.bar.toList
        let held := (o.2.matrixOf k.team).slots.any fun p => p.id == k.pslot && p.name.isSome
        (∀ line, o.1 = some line → deliver = .next (waits o.2 line)) ∧
        (o.1 = none → deliver = .next (if held = false then fails o.2 l 0x21 true
          else
            let n := min (l.n - l.put) (8 - (l.off + l.put) % 8)
            let x := (List.range n).foldl (fun (v : State) i => v.setRows k.team k.pslot fun m =>
              writeByte m (paletteAt k.record.toNat l.row (l.off + l.put + i)) (bs.getD (l.put + i) 0)) o.2
            let l' : CopyLine := { l with put := l.put + n, waits := none }
            if l.put + n < l.n then x.setLineOf k.id l'
            else match delivered x k k.bar l.n with
            | some y => done y
            | none => fails x l' 0x29 true))) ∧
      (l.write = false ∨ l.gone = true ∨ l.fault ≠ none → accept = .next s) ∧
      (l.write = true → l.gone = false → l.fault = none → l.req = 0 →
        let key := keyOf (l.dst.headD 0)
        let w := s.lineFor cid key l.n true k.sys
        (∀ line, w.1 = some line → accept = .next (waits w.2 line)) ∧
        (w.1 = none →
          let t := w.2.translate asid l.va k.sys { w := true }
          let bytes := readBytes (w.2.cluster cid).pool key l.n
          let l0 : CopyLine := { l with dst := [], waits := none }
          (∀ cause info, t.1 = .fail cause info →
            let weak := cause = .notPresent ∧ (k.kind = 1 ∨ k.kind = 3)
            let noted := if l.va < 2 ^ 57 then t.2.notePage asid l.va 1 else t.2
            let full := 512 ≤ (t.2.side.filter fun e => e.log == k.quad).length
            (¬ weak → accept = .next (fails t.2 l0 cause.code true)) ∧
            (weak → full → accept = .next noted) ∧
            (weak → ¬ full → ∃ sight : Nat, (k.sights ≠ [] → sight ∈ k.sights ∧ ∀ y ∈ k.sights, sight ≤ y) ∧
              let padded := List.replicate (l.va % 8) (0 : Byte) ++ bytes ++ List.replicate ((8 - (l.va % 8 + l.n) % 8) % 8) 0
              let cells := (List.range (padded.length / 8)).map fun j =>
                (l.va / 8 * 8 % 128 / 8 + j, BitVec.ofNat 64 (fromBytes ((padded.drop (8 * j)).take 8)))
              let x : State := { noted with nextId := t.2.nextId + 1 }
              accept = .next ((x.retireWrite { lineReq x k l (.kept cells sight) with id := t.2.nextId, merge := true } cause.code l.n
                sight).setLineOf k.id { l0 with req := t.2.nextId }))) ∧
          ∀ pa leaf, t.1 = .ok pa leaf → let l' : CopyLine := { l0 with pa, leaf }
            let sends := fun (op : HomeOp) => accept = .next ((ask t.2 (lineReq t.2 k l' op)).setLineOf k.id { l' with req := t.2.nextId })
            (leafK leaf = false → sends (.write ((List.range l.n).map fun i => (l.va % 128 + i, bytes.getD i 0)))) ∧
            (leafK leaf = true → l.va % 8 = 0 → l.n % 8 = 0 → sends (.kept ((List.range (l.n / 8)).map fun j =>
                (l.va % 128 / 8 + j, BitVec.ofNat 64 (fromBytes ((bytes.drop (8 * j)).take 8)))) (k.sights.getD (homeSlice pa leaf) 0))) ∧
            (leafK leaf = true → l.va % 8 ≠ 0 ∨ l.n % 8 ≠ 0 → accept = .next (fails t.2 l' 0x18 true)))) ∧
      (l.write = true → l.gone = false → l.fault = none → l.req ≠ 0 →
        ((∃ r ∈ s.reqs, r.id = l.req ∧ r.replay = false) → accept = .next s) ∧
        ((∀ r ∈ s.reqs, r.id = l.req → r.replay = true) →
          let o := s.objectsFor cid 16 k.sys k.bar.toList
          accept = .next (match o.1 with
            | some line => waits o.2 line
            | none => match delivered o.2 k k.bar l.n with
              | some y => done y
              | none => fails o.2 l 0x29 true))) ∧
      (l.fault = none → exec (.copyLineFault k.id l.idx) s = .next s) ∧
      ∀ cause, l.fault = some cause →
        let row := exec (.copyLineFault k.id l.idx) s
        let ends := fun (v : State) (f : CopyCommand → CopyCommand) => (v.setLineOf k.id { l with waits := none }).updCommand k.id f
        let dst := if l.deaf then l.dst.drop 1 else l.dst
        let endsLine := row = .next (if l.gone = true ∨ dst = [] then done s
          else (s.setLineOf k.id { l with dst, fault := none, deaf := false, waits := none }).settleCommand k.id)
        (k.faulted = false → row = .next (faultRecorded s k l.idx cause)) ∧
        (k.faulted = true → k.faultAt ≠ some l.idx → endsLine) ∧
        (k.faulted = true → k.faultAt = some l.idx →
          (∀ b rest, k.flts = b :: rest →
            let w := s.lineFor cid (keyOf b) 16 true k.sys
            (∀ line, w.1 = some line → row = .next (waits w.2 line)) ∧
            (w.1 = none → row = .next (ends (takesFlt w.2 cid b) fun x => { x with flts := rest }))) ∧
          (k.flts = [] → k.unbinds = false → endsLine) ∧
          (k.flts = [] → k.unbinds = true →
            let w := s.lineFor cid (keyOf k.ring) 16 true k.sys
            (∀ line, w.1 = some line → row = .next (waits w.2 line)) ∧
            (w.1 = none → row = .next (ends (w.2.unbind k) fun x => { x with unbinds := false }))))) ∧
    exec (.streamSlotResume k.id) s = .next (if k.started = false ∨ stopped then s else s.takeSlot k)

/-! ### The matrix complex -/

/-- A word that, where it runs, acts once for its gang, when a member is Active (R93). -/
def Sys2Proof.Spec.OnceWord (i : Instr) (s : State) (c : Ctx) (occ : Nat) (acts : Prop) : Prop :=
  Runs i s c → (c.act = [] → Commits i s c occ s) ∧ (c.act ≠ [] → acts)

/-- A matrix command that goes into the team's queue of 32 once it has room (R263), from the state `v` that its names leave
(R265); `tiles` are those it writes (R290). -/
def Sys2Proof.Spec.Queues (i : Instr) (s : State) (c : Ctx) (occ : Nat) (v : State) (ticket : Nat) (op : MOp)
    (reads writes : List Nat) (tiles : List Nat := []) : Prop :=
  if 32 ≤ (s.mcommands.filter fun k => k.team == c.tm.id).length then HoldsAt i s c (.matrixRoom c.tm.id)
  else Commits i s c occ { v with
    nextId := v.nextId + 1,
    mcommands := v.mcommands ++ [{ id := v.nextId, team := c.tm.id, ticket, op, reads, writes, tiles, sys := c.gang.sys }] }

/-- The reservation record of PRES (R262, R277), and what makes it illegal (R278). -/
def Sys2Proof.Spec.reservation (t : Team) (np cfg off : Nat) : Nat :=
  let desc := fun (kind reg : Nat) => if kind = 0 then (t.fregs.getD reg 0).toNat else 0
  let ka := cfg / 2 ^ 8 % 4
  let kb := cfg / 2 ^ 10 % 4
  2 ^ 32 * desc ka (cfg % 16) + 2 ^ 48 * desc kb (cfg / 2 ^ 4 % 16) + 2 ^ 65 * ka + 2 ^ 67 * kb + 2 ^ 69 * (cfg / 2 ^ 12 % 8) +
    2 ^ 72 * (off % 2 ^ 13) + 2 ^ 85 * (off / 2 ^ 16 % 2 ^ 10) + 2 ^ 108 * np
def Sys2Proof.Spec.badReservation (t : Team) (np cfg off : Nat) : Bool :=
  let r := reservation t np cfg off
  let ka := cfg / 2 ^ 8 % 4
  let kb := cfg / 2 ^ 10 % 4
  let width := fun (kind desc : Nat) => if kind = 0 then slotOf (descWidth desc) else if kind = 3 then 8 else 16
  decide (2 ^ 15 ≤ cfg ∨ off / 2 ^ 13 % 8 ≠ 0 ∨ 2 ^ 26 ≤ off ∨ 4 < cfg / 2 ^ 12 % 8 ∨
    width ka (r / 2 ^ 32 % 2 ^ 16) ≠ width kb (r / 2 ^ 48 % 2 ^ 16) ∨ (cfg / 2 ^ 12 % 8 ≠ 0 ∧ (ka ≠ 0 ∨ kb ≠ 0)))

/-- The names of a register pair's set bits (R282, R283). -/
def Sys2Proof.Spec.namesOf (mask : Nat) : List Nat := (List.range 64).filter fun b => mask.testBit b

/-- From `s` to `u` each Active thread's predicate `d` takes `v` (R46), and nothing else changes. -/
def Sys2Proof.Spec.predsTake (c : Ctx) (s : State) (d : Nat) (v : Bool) : State :=
  c.act.foldl (fun s r => s.setPred c.tm.id r d v) s

/-- PRES, PRES.org, PFREE, ACCAL, ACCFR, ACCZ, MCLASS, MWAIT and MSTAT (R265, R277 to R279, R282 to R284, R288, R290,
R291). -/
def Sys2Proof.Spec.MatrixNameWords : Prop :=
  ∀ w s c,
    let name := w.imm.toNat % 64
    let m := s.matrixOf c.tm.id
    let lead := fun (x n : Nat) => c.val c.lead x n
    let change := fun (v : State) (f : Matrix → Matrix) =>
      { v with matrix := v.matrix.map fun (x : Matrix) => if x.team = c.tm.id then f x else x }
    let slot := m.slots.find? fun p => decide (p.name = some name)
    let bank := fun (b : Nat) => m.banks.find? fun x => decide (x.name = some b)
    (OnceWord (.pres w) s c 6 <|
      let np := w.imm.toNat / 2 ^ 6 % 2 ^ 8 + 1
      let cfg := lead w.s1.toNat 1
      let off := lead w.s2.toNat 1
      let free := decide (np ≤ s.freePanels c.tm.quad)
      if badReservation c.tm np cfg off then TrapsAt (.pres w) s c .illegalOperand 0 0
      else if free = false then Commits (.pres w) s c 6 (predsTake c s w.d.toNat false)
      else
        let v := (change (predsTake c s w.d.toNat true) fun x => { x with
          slots := x.slots.map fun (p : PSlot) => if p.name = some name then { p with name := none } else p }).sweepMatrix c.tm.id
        Commits (.pres w) s c 6 (change { v with nextId := v.nextId + 1 } fun x => { x with
          slots := x.slots ++ [{ id := v.nextId, name := some name, record := BitVec.ofNat 128 (reservation c.tm np cfg off) }] })) ∧
    (OnceWord (.presOrg w) s c 6 <|
      let row := lead w.s1.toNat 1
      if 2 ^ 13 ≤ row then TrapsAt (.presOrg w) s c .illegalOperand 0 0
      else if slot = none then TrapsAt (.presOrg w) s c .slotNotReserved 0 0
      else Commits (.presOrg w) s c 6 (change s fun x => { x with
        slots := x.slots.map fun (p : PSlot) => if p.name = some name then { p with record := BitVec.ofNat 128 (setBits p.record.toNat 107 95 row) } else p })) ∧
    (OnceWord (.pfree w) s c 6 <| match slot with
      | none => TrapsAt (.pfree w) s c .slotNotReserved 0 0
      | some p => Queues (.pfree w) s c 6 (change s fun x => { x with
          slots := x.slots.map fun (q : PSlot) => if q.id = p.id then { q with name := none } else q }) 0 (.pfree p.id) [] [4 * p.id]) ∧
    (OnceWord (.accal w) s c 6 <|
      let new := (namesOf (lead w.s1.toNat 2)).filter fun b => bank b == none
      if s.freeBanks c.tm.quad < new.length then Commits (.accal w) s c 6 (predsTake c s w.d.toNat false)
      else Commits (.accal w) s c 6 (change { predsTake c s w.d.toNat true with nextId := s.nextId + new.length } fun x => { x with
        banks := x.banks ++ new.mapIdx fun i b => ({ id := s.nextId + i, name := some b, bytes := [] } : Bank) })) ∧
    (OnceWord (.accfr w) s c 6 <|
      let names := namesOf (lead w.s1.toNat 2)
      let hit := fun (b : Bank) => names.any fun n => decide (b.name = some n)
      let ids := (m.banks.filter hit).map (·.id)
      Queues (.accfr w) s c 6 (change s fun x => { x with
          banks := x.banks.map fun (b : Bank) => if hit b then { b with name := none } else b,
          claims := x.claims.filter fun q => !names.any fun n => n / 2 == q.1 / 8 })
        0 (.accfr ids) [] (ids.map fun i => 4 * i + 1)) ∧
    (OnceWord (.accz w) s c 6 <|
      let tile := w.imm.toNat % 32
      let mask := w.imm.toNat / 2 ^ 5 % 2 ^ 8
      let bands := if mask = 0 then 0xFF else mask
      let named := fun (q : Nat × Nat) => decide (q.1 / 8 = tile) && bands.testBit (q.1 % 8)
      match bank (2 * tile), bank (2 * tile + 1) with
      | some lo, some hi =>
        if ∃ q ∈ m.claims, named q = true ∧ q.2 ≠ (s.thread c.tm.id c.lead).role.toNat then TrapsAt (.accz w) s c .bandClaimed 0 0
        else Queues (.accz w) s c 6 (change s fun x => { x with claims := x.claims.filter fun q => !named q })
          0 (.accz lo.id hi.id bands) [] [4 * lo.id + 1, 4 * hi.id + 1] [tile]
      | _, _ => TrapsAt (.accz w) s c .bankNotAllocated 0 0) ∧
    (OnceWord (.mclass w) s c 6 <|
      Commits (.mclass w) s c 6 (change s fun x => { x with cls := min (w.imm.toNat % 4) c.grid.prio })) ∧
    (OnceWord (.mwait w) s c 6 <|
      let tile := w.imm.toNat % 32
      let form := w.imm.toNat.testBit 5
      let ids := ((s.mcommands.filter fun k => k.team == c.tm.id).filter fun k => !form || k.tiles.contains tile).map (·.id)
      Commits (.mwait w) s c 6 { s with
        nextId := s.nextId + 1,
        tickets := s.tickets ++ [{ id := s.nextId, cls := 6, team := c.tm.id, gangs := [c.gid], parts := c.act }],
        engineWaits := s.engineWaits ++ [{ ticket := s.nextId, team := c.tm.id, ranks := c.act, ids, act := .mwait w.d.toNat form }] }) ∧
    (Runs (.mstat w) s c → ShortResult (.mstat w) s c [] w.d.toNat 2 (clocks c.act.length 2) fun _ _ =>
      let queued := s.mcommands.filter fun k => k.team == c.tm.id
      let left := (queued.findSome? fun k => match k.op with
        | .loop a => if k.started then some (a.ks - a.done) else none
        | _ => none).getD 0
      { val := if w.imm.toNat.testBit 0 then
          2 ^ 50 * s.freeBanks c.tm.quad + 2 ^ 42 * s.freePanels c.tm.quad +
            2 ^ 34 * ((s.mturns.find? fun x => x.1 == c.tm.quad).map (·.2.2)).getD 0
        else
          2 ^ 50 * (m.banks.filter fun b => b.name.isSome).length +
            2 ^ 42 * ((m.slots.filter fun p => p.name.isSome).map fun p => p.record.toNat / 2 ^ 108 % 2 ^ 8).sum +
            2 ^ 36 * queued.length + 2 ^ 34 * m.cls + 2 ^ 12 * m.steps + min left 0xFFF })

/-- The threads of a data word up to the first that fails its checks: their parts, the state of the claims, and the first
failure with its thread's place (R87, R294). -/
def Sys2Proof.Spec.partsOf {α β : Type} (f : β → Nat → Except Cause (α × β)) : β → List Nat → List α × β × Option (Nat × Cause)
  | b, [] => ([], b, none)
  | b, r :: rs =>
    match f b r with
    | .error cause => ([], b, some (0, cause))
    | .ok (x, b') =>
      let more := partsOf f b' rs
      (x :: more.1, more.2.1, more.2.2.map fun q => (q.1 + 1, q.2))

/-- A data word's outcome: with no failure its command is queued; else the parts of the threads before the failing one are,
and that thread traps; where it is the first, nothing happens but the trap. -/
def Sys2Proof.Spec.QueuesParts (i : Instr) (s : State) (c : Ctx) (occ : Nat) (v : State) (ticket : Nat) (op : MOp)
    (reads writes tiles : List Nat) (failed : Option (Nat × Cause)) : Prop :=
  match failed with
  | none => Queues i s c occ v ticket op reads writes tiles
  | some (0, cause) => TrapsAt i s c cause 0 0
  | some (n, cause) =>
    if 32 ≤ (s.mcommands.filter fun k => k.team == c.tm.id).length then HoldsAt i s c (.matrixRoom c.tm.id)
    else exec i s = .next (({ v with
        nextId := v.nextId + 1,
        mcommands := v.mcommands ++ [{ id := v.nextId, team := c.tm.id, ticket, op, reads, writes, tiles, sys := c.gang.sys }] } : State).takeTrap
      c.gid (some cause) (c.gang.done ++ c.act.take n) (c.act.filter fun r => !(c.act.take n).contains r) c.gang.word 0 0 c.gang.nextPc)

/-- EASLD, PWR, ACCRD and ACCWR (R257, R263, R264, R280, R281, R285, R286): their checks, and the command with what it
moves. -/
def Sys2Proof.Spec.MatrixDataWords : Prop :=
  ∀ (w : FmtE) (s : State) (c : Ctx),
    let m := s.matrixOf c.tm.id
    let bank := fun (b : Nat) => m.banks.find? fun x => decide (x.name = some b)
    (OnceWord (.easld w) s c 6 <|
      let win := s.window c.tm.id
      let row := w.imm.toNat % 2 ^ 10
      let n := w.imm.toNat / 2 ^ 10 % 2 ^ 9 + 1
      let a := c.val c.lead w.s1.toNat 1
      let last := a + 64 * n - 1
      let stores := storesOf s c.tm.id c.gang.members
      if win = 0 then TrapsAt (.easld w) s c .shapeMismatch 0 0
      else if a % 64 ≠ 0 then TrapsAt (.easld w) s c .misaligned a 0
      else if a / 2 ^ 30 = 3 then TrapsAt (.easld w) s c .apertureBound a 0
      else if poolCheck c.cluster a ≠ none ∨ poolCheck c.cluster last ≠ none ∨ a / 2 ^ 24 ≠ last / 2 ^ 24 then
        TrapsAt (.easld w) s c .poolOutside a 0
      else if stores ≠ [] then HoldsAt (.easld w) s c (.flights stores)
      else ∃ blocks : List Nat, (∀ b, b ∈ blocks ↔ ∃ i < n, b = 4 * (16 * (c.gang.lane / 8) + (row + i) % win / 64) + 2) ∧
        Queues (.easld w) s c 6 s 0 (.easld (c.gang.lane / 8) row n a []) [] blocks) ∧
    (OnceWord (.pwr w) s c (clocks c.act.length 4) <|
      let n := 2 ^ (w.imm.toNat / 2 ^ 6 % 4)
      match m.slots.find? fun p => decide (p.name = some (w.imm.toNat % 64)) with
      | none => TrapsAt (.pwr w) s c .slotNotReserved 0 0
      | some p =>
        let (parts, _, failed) := partsOf (fun (_ : Unit) r =>
          let pos := c.val r w.s1.toNat 1
          if pos / 2 ^ 13 % 2 ^ 6 % (4 * n) ≠ 0 then .error .misaligned
          else if 64 * (p.record.toNat / 2 ^ 108 % 2 ^ 8) ≤ pos % 2 ^ 13 then .error .shapeMismatch
          else .ok ((pos % 2 ^ 13, pos / 2 ^ 13 % 2 ^ 6, toBytes (4 * n) (c.val r w.s2.toNat n)), ())) () c.act
        QueuesParts (.pwr w) s c (clocks c.act.length 4) s 0 (.pwr p.id parts) [] [4 * p.id] [] failed) ∧
    (∀ read : Bool, let i := if read then Instr.accrd w else Instr.accwr w
      let tile := w.imm.toNat % 32
      let n := 2 ^ (w.imm.toNat / 2 ^ 5 % 4)
      let occ := max 6 ((c.act.length * n + 3) / 4)
      OnceWord i s c occ <| match bank (2 * tile), bank (2 * tile + 1) with
        | some lo, some hi =>
          let (parts, claims, failed) := partsOf (fun (claims : List (Nat × Nat)) r =>
            let at_ := c.val r w.s1.toNat 1
            let row := at_ % 64
            let col := at_ / 2 ^ 6 % 2 ^ 7
            let band := 8 * tile + row / 8
            let role := (s.thread c.tm.id r).role.toNat
            let free := claims.filter fun q => q.1 != band
            if col % n ≠ 0 then .error .misaligned
            else if ∃ q ∈ claims, q.1 = band ∧ q.2 ≠ role then .error .bandClaimed
            else .ok ((r, row, col), if w.imm.toNat.testBit 8 then free else (band, role) :: free)) m.claims c.act
          let done := match failed with
            | some q => c.act.take q.1
            | none => c.act
          let banks := [4 * lo.id + 1, 4 * hi.id + 1]
          let zero := w.imm.toNat.testBit 7
          let v : State := { s with
            matrix := s.matrix.map fun (x : Matrix) => if x.team = c.tm.id then { x with claims } else x }
          if read then
            let owed := !done.isEmpty
            QueuesParts i s c occ (if owed then { v with
                nextId := v.nextId + 1,
                tickets := v.tickets ++ [{ id := v.nextId, cls := 3, team := c.tm.id, gangs := [c.gid], parts := done }] } else v)
              (if owed then s.nextId else 0) (.accrd lo.id hi.id n zero w.d.toNat parts) banks (if zero then banks else []) (if zero then [tile] else []) failed
          else QueuesParts i s c occ v 0 (.accwr lo.id hi.id (parts.map fun p => (p.2.1, p.2.2, toBytes (4 * n) (c.val p.1 w.d.toNat n))))
            [] banks [tile] failed
        | _, _ => TrapsAt i s c .bankNotAllocated 0 0)

/-- Rows `p` to `p + 63` that a loop reads of a reservation, and its scale rows, lie in it at every step (R275): `p` moves
evenly from its first to its last step. -/
def Sys2Proof.Spec.rowsFit (record org h steps : Nat) (da : Int) : Prop :=
  let rows : Int := 64 * (record / 2 ^ 108 % 2 ^ 8)
  ∀ j < steps, let p : Int := org + (j / h : Nat) * da
    0 ≤ p ∧ p + 64 ≤ rows ∧ (record / 2 ^ 69 % 8 ≠ 0 → p + 64 + record / 2 ^ 72 % 2 ^ 13 ≤ rows)

/-- A keep mask keeps half the units of each aligned group (R271). -/
def Sys2Proof.Spec.maskFits (mask group width : Nat) : Prop :=
  (width = 2 → mask < 2 ^ 32) ∧
  ∀ g < (if width = 2 then 32 else 64) / group, 2 * ((List.range group).filter fun i => mask.testBit (g * group + i)).length = group

/-- A loop form (R273, R275, R276): the first check that fails traps; with none the loop is queued with what it reads and
writes, and its class-5 counter falls. `masks` are a sparse loop's keep masks, by 64 × step + row. -/
def Sys2Proof.Spec.LoopWord (i : Instr) (s : State) (c : Ctx) (acc sa eb steps : Nat) (da db : Int) (sparse : Bool) (group : Nat)
    (masks : List DWord) : Prop :=
  OnceWord i s c 6 <|
    let m := s.matrixOf c.tm.id
    let planes := 0 :: c.g
    let slots := planes.filterMap fun k => m.slots.find? fun p => decide (p.name = some (sa + k))
    let banks := planes.filterMap fun k => m.tile? (acc + k)
    let rec0 : Nat := (slots.headD ({} : PSlot)).record.toNat
    let kind : Nat := rec0 / 2 ^ 65 % 4
    let width : Nat := if kind = 0 then slotOf (descWidth (rec0 / 2 ^ 32 % 2 ^ 16)) else if kind = 3 then 8 else 16
    let reserved := ∃ p ∈ m.slots, p.name = some sa
    let need := if ¬ reserved ∨ width = 16 then 0 else if width = 8 then 8 else 16
    let like := fun (p : PSlot) => p.record.toNat / 2 ^ 32 % 2 ^ 32 = rec0 / 2 ^ 32 % 2 ^ 32 ∧
      p.record.toNat / 2 ^ 65 % 2 ^ 7 = rec0 / 2 ^ 65 % 2 ^ 7 ∧ p.record.toNat / 2 ^ 108 % 2 ^ 8 = rec0 / 2 ^ 108 % 2 ^ 8
    let org := rec0 / 2 ^ 95 % 2 ^ 13
    let traps := fun (cause : Cause) => TrapsAt i s c cause 0 0
    let c2 := Nat.land need (s.featuresOf (coreOf c.tm.quad c.gang.lane)) ≠ need
    let c3 := ∃ k ∈ planes, m.tile? (acc + k) = none
    let c4 := ∃ k ∈ planes, ∀ p ∈ m.slots, p.name ≠ some (sa + k)
    let c5 := s.window c.tm.id = 0 ∨ recOk (BitVec.ofNat 128 rec0) = false ∨
      ∃ p ∈ slots, ¬ like p ∨ ¬ rowsFit p.record.toNat org (if width = 2 then 2 else 1) steps da
    let c6 := sparse = true ∧ (c.gang.members.length < 32 ∨ ∃ x ∈ masks, ¬ maskFits x.toNat group width)
    let c7 := ∃ q ∈ m.claims, ∃ k ∈ planes, q.1 / 8 = acc + k
    (c2 → traps .featureAbsent) ∧ (¬ c2 → c3 → traps .bankNotAllocated) ∧ (¬ c2 → ¬ c3 → c4 → traps .slotNotReserved) ∧
    (¬ c2 → ¬ c3 → ¬ c4 → c5 ∨ c6 → traps .shapeMismatch) ∧ (¬ c2 → ¬ c3 → ¬ c4 → ¬ c5 → ¬ c6 → c7 → traps .bandClaimed) ∧
    (¬ c2 → ¬ c3 → ¬ c4 → ¬ c5 → ¬ c6 → ¬ c7 → ∃ blocks : List Nat,
      (∀ core < 4, ∀ j < steps, ∀ k ∈ planes, ∀ row : Nat, row < (if width = 2 then 16 else 32) * (if sparse then 2 else 1) →
        let win := s.window c.tm.id
        let e : Int := eb + j * db + k * (win / (1 + c.tm.depth) / 8 * 8) + row
        4 * (16 * core + (e % (win : Int)).toNat / 64) + 2 ∈ blocks) ∧
      Queues i s c 6 s 0 (.loop {
          layers := c.g, slots := slots.map (·.id), tiles := banks, org, eb, ks := steps, da, db, width, window := s.window c.tm.id,
          toff := s.window c.tm.id / (1 + c.tm.depth) / 8 * 8, masks := if sparse then some masks else none, cls := m.cls, owner := c.lead })
        (slots.map (fun p => 4 * p.id) ++ blocks) (banks.flatMap fun t => [4 * t.1 + 1, 4 * t.2 + 1]) (planes.map (acc + ·)))

/-- MLOOP, MLOOPS, SPKC and QBLK (R271 to R276, R287). -/
def Obligations.MatrixLoopWords : Prop :=
  (∀ w s c, LoopWord (.mloop w) s c w.acc.toNat w.sa.toNat w.eb.toNat (if w.ks = 0 then 4096 else w.ks.toNat) w.ia.toInt w.ib.toInt
    false 4 []) ∧
  (∀ w s c, LoopWord (.mloops w) s c w.acc.toNat w.sa.toNat w.eb.toNat w.ks.toNat (32 * w.ia.toInt) (32 * w.ib.toInt) true
    (if w.pat = 0 then 4 else 8) ((List.range (64 * w.ks.toNat)).map fun x =>
      let row := x % 64
      BitVec.ofNat 64 (c.val (c.gang.members.getD (row / 2) 0) (w.mv.toNat + 4 * (x / 64) + 2 * (row % 2)) 2))) ∧
  ∀ (w : FmtA) (s : State) (c : Ctx),
    (Runs (.spkc w) s c →
      let units := if w.m.toNat.testBit 0 then 8 else 4
      let kind := w.s2.toNat / 2 ^ 4 % 4
      let desc := if kind = 0 then (c.tm.fregs.getD (w.s2.toNat % 16) 0).toNat else 0
      LongWordResult (.spkc w) s c 2 [(w.s1.toNat, units / 2)] w.d.toNat (units / 2)
        (clocks c.act.length 4 * (if units = 8 then 2 else 1)) fun _ xs =>
          let unit := fun (i : Nat) => src xs 0 / 2 ^ (16 * i) % 2 ^ 16
          let mag := fun (i : Nat) => unitMag kind desc (unit i)
          let above := fun (i j : Nat) => magLess (mag i) (mag j) || (decide (j < i) && !magLess (mag j) (mag i))
          let kept := (List.range units).filter fun i => decide (((List.range units).filter fun j => above i j).length < units / 2)
          { val := fromBits 128 fun b =>
              if b < 8 * units then (unit (kept.getD (b / 16) 0)).testBit (b % 16) && decide (b / 16 < kept.length)
              else decide (b - 8 * units ∈ kept) }) ∧
    (Runs (.qblk w) s c →
      let desc := (c.tm.fregs.getD (w.s2.toNat % 16) 0).toNat
      LongWordResult (.qblk w) s c 2 [(w.s1.toNat, 1)] w.d.toNat 2 (clocks c.act.length 4) fun _ xs =>
        let o := blockScale (decodeFp fp32 (src xs 0)) (decodeNarrow desc (narrowLargest desc))
        { val := o.1 + 2 ^ 32 * (if o.1 = 0 then 0 else
            (roundQuot fp32 (rmodeOf 0) false 1 (8 + o.1 % 8) (18 - ((o.1 / 8 : Nat) : Int))).1), ev := o.2 }) ∧
    ∀ (m : ℕ) (e : ℤ) (x : ℝ) (l : FVal) (y : ℝ), Value (.fin false m e) x → Value l y → 0 < x → 0 < y →
      ∃ code, (blockScale (.fin false m e) l).1 = code ∧ code ≤ 0xFF ∧
        let value := fun (k : ℕ) => ((8 + k % 8 : ℕ) : ℝ) * 2 ^ ((k / 8 : ℕ) - 18 : ℤ)
        (x / y ≤ value 0xFF → 1 ≤ code ∧ x / y ≤ value code ∧ (1 < code → value (code - 1) < x / y)) ∧ (value 0xFF < x / y → code = 0xFF)

/-- One element of a step (R267, R268): the sum of the addends, each truncated to 56 places below the greatest, rounded once to
FP32; a sum of zeros; a NaN among the codes, a product 0 × ∞, infinities of one sign or of both; and the event that the element
counts: overflow, underflow to a subnormal that is inexact, or a NaN produced. A product whose block has scale code 0x00 is a
zero. -/
def Sys2Proof.Spec.ElementSum : Prop :=
  ∀ (cv : FVal) (ps : List (MOpnd × MOpnd)),
    let out := (ps.foldl (fun x p => x.product p.1 p.2) (({} : Addends).term cv)).sum
    let live := fun (p : MOpnd × MOpnd) => p.1.zero = false ∧ p.2.zero = false
    let zeroTimesInf := fun (v w : FVal) => (∃ sg e, v = .fin sg 0 e) ∧ ∃ sg, w = .inf sg
    let infinite := fun (p : MOpnd × MOpnd) => live p ∧ ((∃ sg, p.1.val = .inf sg) ∨ ∃ sg, p.2.val = .inf sg)
    let some_ := fun (sg : Bool) => cv = .inf sg ∨ ∃ p ∈ ps, infinite p ∧ sg = (p.1.val.sign != p.2.val.sign)
    let noNaN := cv.isNaN = false ∧ ∀ p ∈ ps, live p → p.1.val.isNaN = false ∧ p.2.val.isNaN = false
    let made := ∃ p ∈ ps, live p ∧ (zeroTimesInf p.1.val p.2.val ∨ zeroTimesInf p.2.val p.1.val)
    (∀ (c0 : ℝ) (xs : List ℝ), Value cv c0 →
      List.Forall₂ (fun p x => (¬ live p → x = 0) ∧ (live p → ∃ a b, Value p.1.val a ∧ Value p.2.val b ∧ x = a * b)) ps xs →
      (∀ e : ℤ, (∀ x ∈ c0 :: xs, x ≠ 0 → Int.log 2 |x| ≤ e) → (∃ x ∈ c0 :: xs, x ≠ 0 ∧ Int.log 2 |x| = e) →
        let trunc := fun x : ℝ => (if x < 0 then -1 else 1) * (⌊|x| / 2 ^ (e - 56)⌋₊ : ℝ) * 2 ^ (e - 56)
        let sum := ((c0 :: xs).map trunc).sum
        let code := out.1 % 2 ^ 31
        RoundsOrZero fp32 (rmodeOf 0) sum False out.1 ∧
        (code = 0x7F800000 → out.2 = evOverflow) ∧
        (0 < code → code < 2 ^ 23 → ¬ Value (decodeFp fp32 out.1) sum → out.2 = evUnderflow) ∧
        (code ≠ 0x7F800000 → code = 0 ∨ 2 ^ 23 ≤ code ∨ Value (decodeFp fp32 out.1) sum → out.2 = 0)) ∧
      ((∀ x ∈ c0 :: xs, x = 0) →
        let minus := cv.sign = true ∧ ∀ p ∈ ps, (live p → p.1.val.sign ≠ p.2.val.sign) ∧ (¬ live p → p.1.sign ≠ p.2.sign)
        (minus → out = (fp32.signBit, 0)) ∧ (¬ minus → out = (0, 0)))) ∧
    (¬ noNaN → out = (0x7FC00000, 0)) ∧
    (noNaN → made ∨ (some_ true ∧ some_ false) → out = (0x7FC00000, evNaN)) ∧
    (noNaN → ¬ made → ∀ sg, some_ sg → ¬ some_ (!sg) → out = (if sg then 0xFF800000 else 0x7F800000, 0)) ∧
    ∀ p r : MOpnd, p.zero = true ∨ r.zero = true → ∀ x : Addends, x.product p r = { x with allNeg := x.allNeg && (p.sign != r.sign) }

/-- Where a step finds its operands (R146, R258, R259, R267, R269, R270, R271): element (m, n) of the tile takes the row's codes
from the palette and the column's from the easel of core n / 32, in 16-bit units of the window's rows, each with the scale code
of its block where the record has blocks. In a sparse step the palette row holds the units that the row's mask keeps, in
ascending order, and a unit that it does not keep is a zero. -/
def Sys2Proof.Spec.StepOperands : Prop :=
  ∀ (m : Matrix) (a : LoopArgs) (lo hi slot p half : Nat) (e : Int) (step row col : Nat), row < 64 → col < 128 →
    a.width ∈ [2, 4, 8, 16] → 0 < a.window → recBL (m.slotId slot).record < 4 →
    memWf (m.bankId lo).bytes = true → memWf (m.bankId hi).bytes = true →
    let r := (m.slotId slot).record
    let rows := (m.slotId slot).rows
    let w := a.width
    let u := 16 / w
    let k := if w = 16 then 32 else if w = 8 then 64 else 128
    let bl := if recBL r = 0 then 0 else 2 ^ (recBL r + 2)
    let held := fun (x : Nat) => mOpnd (recKA r) (recFA r) (readNat rows ((p + row) * 64 + 32 * half) 64 / 2 ^ (w * x) % 2 ^ w)
      (if bl = 0 then none else some (readNat rows ((recSCA r + p + row) * 64 + (128 * half + x) / bl) 1))
    let aOf := fun (x : Nat) => match a.masks with
      | none => held x
      | some masks =>
        let mask := (masks.getD (64 * step + row) 0).toNat
        let below := ((List.range (x / u)).filter fun d => mask.testBit d).length
        if mask.testBit (x / u) = true ∧ below * u + x % u < k then held (below * u + x % u) else {}
    let easel := fun (line : Int) (byte n : Nat) => readNat m.easel (col / 32 * 65536 + (line % (a.window : Int)).toNat * 64 + byte) n
    let bOf := fun (x : Nat) => mOpnd (recKB r) (recFB r) (easel (e + (x / u : Nat)) (2 * (col % 32)) 2 / 2 ^ (w * (x % u)) % 2 ^ w)
      (if bl = 0 then none else some (easel ((recSCB r : Int) + ((e + (x / u : Nat)) * (u : Int) + (x % u : Nat)) / (bl : Int)) (col % 32) 1))
    let bank := if row < 32 then lo else hi
    let at_ := (row % 32 * 128 + col) * 4
    let out := matrixPass m a lo hi slot p half e step
    (w = 2 → half < 2) → (w ≠ 2 → half = 0) →
    readNat (if row < 32 then out.1 else out.2.1) at_ 4 =
      (((List.range (if a.masks.isSome then 2 * k else k)).foldl (fun x j => x.product (aOf j) (bOf j)) (({} : Addends).term
        (decodeFp fp32 (readNat (m.bankId bank).bytes at_ 4)))).sum).1

/-- A command of a team's queue may run (R292, R384, R385): its team is not to stop; or it has started and is no loop; or
the team is to stop and an accumulator read at or behind it is owed its results. -/
def Sys2Proof.Spec.runsOn (s : State) (k : MCommand) : Prop :=
  (s.team k.team).stat = 0 ∨ (k.started = true ∧ ∀ a, k.op ≠ .loop a) ∨
  ((s.team k.team).stat = 1 ∧ ∃ e ∈ s.mcommands, e.team = k.team ∧ k.id ≤ e.id ∧ ∃ lo hi n z d parts, e.op = .accrd lo hi n z d parts)

/-- MATRIX_COMMAND_START and MATRIX_STEP (R173, R258, R264, R267, R274, R280, R281, R284, R285, R289): a command whose
resources no earlier one keeps runs, and all but a loop and an EASLD, which reads one row at a time, end at once; a step
runs the loop whose turn it is, its primal pass and its glazed passes, counts one event for each class, and ends the
loop after its last step. What runs on in a team that is to stop is the model's deduction (notes/assumptions/101.md).
That one event of each class stands for all the passes is the model's choice (log entry 66). -/
def Obligations.MatrixEngineEvents : Prop :=
  ElementSum ∧ StepOperands ∧
  (∀ (s : State) (team id : Nat),
    ((∀ k ∈ s.mcommands, k.id = id → k.team ≠ team) → exec (.matrixCommandStart team id) s = .next s) ∧
    ∀ k, (s.mcommands.find? fun k => decide (k.id = id ∧ k.team = team)) = some k →
      let blocked := ∃ e ∈ s.mcommands, e.team = team ∧ e.id < id ∧
        ((∃ r ∈ e.writes, r ∈ k.reads ∨ r ∈ k.writes) ∨ ∃ r ∈ e.reads, r ∈ k.writes)
      let ends := fun (v : State) => exec (.matrixCommandStart team id) s =
        .next (({ v with mcommands := v.mcommands.filter fun x => x.id != id } : State).sweepMatrix team)
      let change := fun (v : State) (f : Matrix → Matrix) =>
        { v with matrix := v.matrix.map fun (x : Matrix) => if x.team = team then f x else x }
      (blocked ∨ ¬ runsOn s k → exec (.matrixCommandStart team id) s = .next s) ∧
      (¬ blocked → runsOn s k →
        (∀ a, k.op = .loop a → exec (.matrixCommandStart team id) s = .next { s with
          mcommands := s.mcommands.map fun (x : MCommand) => if x.id = id then { x with started := true } else x }) ∧
        (∀ core row n addr failed, k.op = .easld core row n addr failed →
          let cid := (s.team team).cluster
          let lines := ((s.cluster cid).linesIn (keyOf addr) 64).filter fun l => !failed.contains l
          (∃ l ∈ lines, ((s.cluster cid).line l).st = .filling ∨ ((s.cluster cid).line l).st = .absent) →
            ∃ v, exec (.matrixCommandStart team id) s = .next v ∧ v.matrix = s.matrix ∧ v.mcommands = s.mcommands) ∧
        (∀ core row n addr failed, k.op = .easld core row n addr failed →
          let cid := (s.team team).cluster
          let lines := ((s.cluster cid).linesIn (keyOf addr) 64).filter fun l => !failed.contains l
          (∀ l ∈ lines, ((s.cluster cid).line l).st = .clean ∨ ((s.cluster cid).line l).st = .dirty) →
            let bytes := readBytes (s.cluster cid).pool (keyOf addr) 64
            let at_ := core * 65536 + row % max (s.window team) 1 * 64
            let v := change s fun x => { x with easel := writeBytes x.easel at_ bytes }
            (n ≤ 1 → ends v) ∧
            (1 < n → exec (.matrixCommandStart team id) s = .next { v with
              mcommands := s.mcommands.map fun (x : MCommand) => if x.id = id then
                { x with started := true, op := .easld core (row + 1) (n - 1) (addr + 64) failed } else x })) ∧
        (∀ slot parts, k.op = .pwr slot parts → ends (parts.foldl (fun v q => change v fun x => { x with
          slots := x.slots.map fun (p : PSlot) => if p.id = slot then { p with rows := writeBytes p.rows (q.1 * 64 + q.2.1) q.2.2 } else p })
          s)) ∧
        (∀ lo hi bands, k.op = .accz lo hi bands → ends (change s fun x => { x with
          banks := x.banks.map fun (b : Bank) =>
            let zero := fun (base : Nat) (mem : List Host.Cell) => mem.filter fun q => !bands.testBit ((base + q.1 / 512) / 8)
            let b' := if b.id = lo then { b with bytes := zero 0 b.bytes } else b
            if b.id = hi then { b' with bytes := zero 32 b'.bytes } else b' })) ∧
        (∀ lo hi parts, k.op = .accwr lo hi parts → ends (parts.foldl (fun v q => change v fun x => { x with
          banks := x.banks.map fun (b : Bank) => if b.id = (if q.1 < 32 then lo else hi) then
            { b with bytes := writeBytes b.bytes ((q.1 % 32 * 128 + q.2.1) * 4) q.2.2 } else b }) s)) ∧
        (∀ lo hi n z d parts, k.op = .accrd lo hi n z d parts → ends (parts.foldl (fun v q =>
          let bank := if q.2.1 < 32 then lo else hi
          let at_ := (q.2.1 % 32 * 128 + q.2.2) * 4
          let elem := fun (i : Nat) => readNat ((v.matrixOf team).bankId bank).bytes (at_ + 4 * i) 4
          let x := v.addRegResults k.ticket team q.1 (if d = 255 then [] else (List.range n).flatMap fun i =>
            (0, d + i, BitVec.ofNat 32 (elem i)) :: (List.range (v.team team).depth).map fun j => (j + 1, d + i, 0))
          if z then change x fun y => { y with banks := y.banks.map fun (b : Bank) => if b.id = bank then
            { b with bytes := writeBytes b.bytes at_ (List.replicate (4 * n) 0) } else b }
          else x) s)) ∧
        (∀ x, k.op = .accfr x ∨ k.op = .pfree (x.headD 0) → ends s))) ∧
  ∀ (s : State) (quad : Nat),
    (s.pickLoop quad = none → exec (.matrixStep quad) s = .next s) ∧
    ∀ k a, s.pickLoop quad = some (k, a) →
      (k ∈ s.mcommands ∧ k.op = .loop a ∧ k.started = true ∧ (s.team k.team).quad = quad ∧ runsOn s k ∧
        ∀ q b, q ∈ s.mcommands → q.op = .loop b → q.started = true → (s.team q.team).quad = quad → runsOn s q → b.cls ≤ a.cls ∧
          (b.cls = a.cls →
            let turn := fun (x : Nat) => if getKey (s.matrixOf k.team).last a.cls 0 < x then x else x + s.nextId
            (q.team = k.team → turn k.id ≤ turn q.id) ∧
            (q.team ≠ k.team → ∀ l, (s.mturns.find? fun t => t.1 == quad && t.2.2 == a.cls) = some l →
              ((s.team k.team).slot + 3 - (s.team l.2.1).slot) % 4 ≤ ((s.team q.team).slot + 3 - (s.team l.2.1).slot) % 4))) ∧
      let j := a.done
      let half := if a.width = 2 then j % 2 else 0
      let p := ((a.org : Int) + (j / (if a.width = 2 then 2 else 1) : Nat) * a.da).toNat
      let e : Int := a.eb + j * a.db
      let pass := fun (x : Matrix × Nat) (plane slot : Nat) (e : Int) =>
        let tile := a.tiles.getD plane (0, 0)
        let y := matrixPass x.1 a tile.1 tile.2 (a.slots.getD slot 0) p half e j
        (({ x.1 with banks := x.1.banks.map fun (b : Bank) =>
            if b.id = tile.1 then { b with bytes := y.1 } else if b.id = tile.2 then { b with bytes := y.2.1 } else b } : Matrix),
          Nat.lor x.2 y.2.2)
      let all := (List.range a.layers.length).foldl (fun x i =>
        pass (pass x (i + 1) (i + 1) e) (i + 1) 0 (e + a.layers.getD i 0 * a.toff)) (pass (s.matrixOf k.team, 0) 0 0 e)
      let v : State := { s with
        matrix := s.matrix.map fun (x : Matrix) => if x.team = k.team then
          { all.1 with steps := (all.1.steps + 1) % 2 ^ 22, last := setKey all.1.last a.cls k.id 0 } else x,
        mcommands := s.mcommands.map fun (x : MCommand) => if x.id = k.id then { x with op := .loop { a with done := j + 1 } } else x,
        mturns := (quad, k.team, a.cls) :: s.mturns.filter fun t => !(t.1 == quad && t.2.2 == a.cls) }
      let w := (List.range 5).foldl (fun v cls => if all.2.testBit cls then v.matrixEvent k.team a.owner cls else v) v
      let y := w.bump quad 5
      exec (.matrixStep quad) s = .next (if a.ks ≤ j + 1 then
        ({ y with mcommands := y.mcommands.filter fun x => x.id != k.id } : State).sweepMatrix k.team else y)

/-! ### Tasks -/

/-- A word held in place from the state `v` that its work so far leaves (R89). -/
def Sys2Proof.Spec.heldFrom (c : Ctx) (v : State) (w : Wait) : State :=
  v.updGang c.gid fun g => { g with status := .held w, idleSince := v.dieClock (c.tm.quad / 32) }

/-- A word whose effect is a trap at its first Active thread, from the state `v` that its work so far leaves (R87). -/
def Sys2Proof.Spec.trappedFrom (c : Ctx) (v : State) (cause : Cause) (addr info : Nat) : State :=
  v.takeTrap c.gid (some cause) c.gang.done c.act c.gang.word addr info c.gang.nextPc

/-- A word that releases at scope `sc` before its own effect (R352), going on from state `v`: it is held until the Active
threads' accesses and the side-log entries of their own are over, beyond the cluster then while the cluster writes back, and
then it acts. A 0 in its gang's `flight` stands for records that are counted, and is no request. -/
def Sys2Proof.Spec.AfterRelease (i : Instr) (s : State) (c : Ctx) (v : State) (sc : Nat) (acts : Prop) : Prop :=
  let sent := c.gang.flight.filter fun id => id != 0
  (sent = [] → ∃ ids : List Nat, (∀ id, id ∈ ids ↔ fenced c v false id ∨ coveredLog c v 2 id) ∧
    (ids ≠ [] → exec i s = .next (heldFrom c v (.flights ids))) ∧
    (ids = [] → (sc < 3 → acts) ∧
      (3 ≤ sc → exec i s = .next ((ask v { mapReq c c.lead 0 [] (.walk 0 (48 * 2 ^ 20)) with sc, ord := 3 }).updGang c.gid fun g =>
        { g with flight := g.flight ++ [v.nextId], status := .held (.flights [v.nextId]), idleSince := v.dieClock (c.tm.quad / 32) })))) ∧
  (sent ≠ [] → ∃ ids : List Nat,
    (∀ id, id ∈ ids ↔ (id ∈ sent ∧
      ((∃ a ∈ v.accesses, a.id = id) ∨ (∃ r ∈ v.reqs, r.id = id) ∨ ∃ e ∈ v.side, e.req.id = id)) ∨ coveredLog c v sc id) ∧
    (ids ≠ [] → exec i s = .next (heldFrom c v (.flights ids))) ∧ (ids = [] → acts))

/-- A queue word (R304, R307): once for the gang at the header that the lowest-ranked Active thread names. It checks and
translates the address, waits for what `waits` names, does what `start` says, owes the Active threads results of class `cls`, asks the home, and is held
until the home has performed the step, or refused it, which traps. -/
def Sys2Proof.Spec.QueueWord (i : Instr) (s : State) (c : Ctx) (va cls : Nat) (release strong : Bool) (waits : State → Option Wait)
    (start : State → State)
    (op : HomeOp) (refused : State → State) : Prop :=
  let occ := clocks c.act.length 2
  OnceWord i s c occ <|
    (c.gang.flight = [] →
      if va % 64 ≠ 0 then TrapsAt i s c .misaligned va 0
      else match s.translate c.job.asid va c.gang.sys { r := true, w := true, a := true } with
        | (.fail cause info, v) =>
          if strong = false ∧ cause = .notPresent ∧ va < 2 ^ 57 then
            exec i s = .next (heldFrom c (v.notePage c.job.asid va 3) (.page c.job.asid va))
          else exec i s = .next (trappedFrom c v cause va info)
        | (.ok pa leaf, v) =>
          match waits v with
          | some w => exec i s = .next (heldFrom c v w)
          | none =>
            let x := start v
            let y : State := { x with
              nextId := x.nextId + 1,
              tickets := x.tickets ++ [{ id := x.nextId, cls, team := c.tm.id, gangs := [c.gid], parts := c.act }] }
            ∃ after : List Nat, (∀ id, id ∈ after ↔ release = true ∧ (fenced c y false id ∨ coveredLog c y 2 id)) ∧
              let req := { mapReq c c.lead x.nextId after op with va, pa, leaf, sc := 3, ord := if release then 3 else if strong then 2 else 0 }
              exec i s = .next ((ask y req).updGang c.gid fun g =>
                { g with flight := [y.nextId, x.nextId], status := .held (.flights [y.nextId]), idleSince := y.dieClock (c.tm.quad / 32) })) ∧
    ∀ id rest, c.gang.flight = id :: rest →
      let v : State := { s with ends := s.ends.filter fun e => e.1 != id }
      match s.ends.find? fun e => e.1 == id with
      | none => HoldsAt i s c (.flights [id])
      | some (_, .done) => Commits i s c occ v
      | some (_, .refused cause addr info) => exec i s = .next (trappedFrom c (refused v) cause addr info)

/-- SPAWN, TQPOP and STEAL (R306 to R309, R337): SPAWN counts its records as injected when it issues, and as consumed where
the home refuses it; with CH each record is a message of two elements through the channel entry, sent after the release.
TQPOP and STEAL retire the tasks that the Active threads hold, once the sends these have issued are counted. -/
def Sys2Proof.Spec.QueueWords : Prop :=
  ∀ w s c,
    let va := c.val c.lead w.s1.toNat 2
    let flag := fun (k : Nat) => w.imm.toNat.testBit k
    let n := c.act.length
    let record := fun r => BitVec.ofNat 128 (c.val r w.s2.toNat 4)
    let port := c.tm.quad
    let full := fun (v : State) => if v.canCount port c.tm.job = false then some (Wait.counterSet port c.tm.job) else none
    let inject := fun (v : State) => v.count port c.tm.job fun k => { k with mi := (k.mi + n) % 2 ^ 48 }
    (flag 2 = false →
      QueueWord (.spawn w) s c va 5 (flag 1) (flag 1) full inject
        (.spawn (c.act.map record) c.act (if flag 0 then some w.d.toNat else none))
        fun v => v.count port c.tm.job fun k => { k with mc := (k.mc + n) % 2 ^ 48 }) ∧
    (flag 2 = true →
      let q := w.imm.toNat / 2 ^ 3 % 2 ^ 6
      let e := c.tm.chans.getD q 0
      let sends := fun (v : State) => TurnWord (.spawn w) s c (clocks n 2) v id fun u r =>
        if 256 ≤ (u.sendBuf.filter fun m => m.port == port).length then .holds u (.sendRoom port 1)
        else .goes { u with
          nextId := u.nextId + 1,
          sendBuf := u.sendBuf ++ [{ id := u.nextId, port, dev := u.pod, quad := port, team := c.tm.id, rank := r, entry := q,
                                     job := c.tm.job, image := e,
                                     elems := [BitVec.ofNat 64 (record r).toNat, BitVec.ofNat 64 ((record r).toNat / 2 ^ 64)],
                                     rel := if flag 1 then 3 else 0 }] }
      let act := fun (v : State) => if flag 1 then AfterRelease (.spawn w) s c v 3 (sends v) else sends v
      OnceWord (.spawn w) s c 6 <|
        if c.gang.flight ≠ [] then act s
        else match s.sendFault c.tm e [4] with
          | some cause => TrapsAt (.spawn w) s c cause 0 0
          | none => match full s with
            | some w' => HoldsAt (.spawn w) s c w'
            | none => act ((inject s).updGang c.gid fun g => { g with flight := [0] })) ∧
    ∀ steal : Bool, let i := if steal then Instr.steal w else Instr.tqpop w
      QueueWord i s c va 1 false (flag 0)
        (fun v =>
          let held := c.act.filter fun r => (v.thread c.tm.id r).task
          if v.pendingSends c.tm.id held ≠ [] then some (.flights (v.pendingSends c.tm.id held))
          else if held ≠ [] then full v else none)
        (fun v => c.act.foldl (fun v r => v.retireTask c.tm.id r) v) (.pop steal c.act w.d.toNat) id

/-- A task or handler task retires (R306, R321): the thread holds it no longer, and one message is consumed at its quad's
port. -/
def Sys2Proof.Spec.TasksRetire : Prop :=
  ∀ (s : State) (team rank : Nat),
    let t := s.team team
    let gone := fun (f : Thread → Thread) => (({ s with
      threads := s.threads.map fun (x : Thread) => if x.team = team ∧ x.rank = rank then f x else x } : State).count t.quad t.job fun k => { k with mc := (k.mc + 1) % 2 ^ 48 })
    ((s.thread team rank).task = true → s.retireTask team rank = gone fun x => { x with task := false }) ∧
    ((s.thread team rank).task = false → s.retireTask team rank = s) ∧
    ((s.thread team rank).handler = true → s.retireHandler team rank = gone fun x => { x with handler := false }) ∧
    ((s.thread team rank).handler = false → s.retireHandler team rank = s)

/-- A queue's header is valid (R304). -/
def Sys2Proof.Spec.validQueue (h : Nat) : Prop :=
  h / 2 ^ 508 = 6 ∧ h / 2 ^ 505 % 2 ^ 3 = 0 ∧ 5 ≤ h / 2 ^ 500 % 2 ^ 5 ∧ h / 2 ^ 500 % 2 ^ 5 ≤ 20 ∧ h / 2 ^ 460 % 2 ^ 40 = 0 ∧
    h / 2 ^ 441 % 2 ^ 7 = 0 ∧ h / 2 ^ 377 % 2 ^ 7 = 0 ∧ h / 2 ^ 128 % 2 ^ 192 = 0

/-- Sends that threads have issued and that are not yet counted: the long results that go through channels (R306). -/
def Sys2Proof.Spec.SendsPending : Prop :=
  ∀ (s : State) (team : Nat) (ranks : List Nat) (n : Nat), n ∈ s.pendingSends team ranks ↔
    ∃ r ∈ s.results, r.ticket = n ∧ r.team = team ∧ r.rank ∈ ranks ∧ ∃ q e v, r.act = .send q e v

/-- Bytes of one line of the device's own memory that stands under the key of an address space. -/
def Sys2Proof.Spec.OwnRange (s : State) (asid pa n : Nat) : Prop := pa % 128 + n ≤ 128 ∧ pa < 2 ^ 39 ∧ OwnKey s asid pa

/-- A queue step's write of 8-byte words at a home: into memory, or in a page that has K each of them as the cell's lead, as an
atomic's write does (the model's choice: notes/assumptions/115.md). -/
def Sys2Proof.Spec.queueStored (v : State) (r : HomeReq) (pa : Nat) (leaf : DWord) (words value : Nat) : Option State :=
  if leafK leaf then (List.range words).foldl (fun v i => v.bind fun v =>
    storedAt v { r with pa := pa + 8 * i, leaf } 8 (value / 2 ^ (64 * i) % 2 ^ 64)) (some v)
  else some { v with mem := writeBytes v.mem pa (toBytes (8 * words) value) }

/-- A queue step at the home of the header (R216, R221, R304, R308, R309), for a header and a ring in the device's own
memory: a bad header is refused, a record off the fabric then counts as consumed and leaves a loss note (the model's
choices: log entries 29 and 78); records that do not fit are not accepted, or with .try answered false; a ring or table
page that does not translate holds a weak step and refuses any other, also at the entry of a type past the table
(notes/assumptions/54.md); a kept word whose slice has no arrival makes it wait; else the records are written from TAIL
up, or the first m threads take one each from HEAD up or from TAIL down, with what the task-type table says of it. -/
def Sys2Proof.Spec.QueueSteps : Prop :=
  TasksRetire ∧ SendsPending ∧ ∀ (z : State) (r : HomeReq), Served z r → r.pa % 64 = 0 →
    let s := entered z r
    let h := readNat s.mem r.pa 64
    let lgn := h / 2 ^ 500 % 2 ^ 5
    let ntype := h / 2 ^ 448 % 2 ^ 12
    let tail := h / 2 ^ 64 % 2 ^ 64
    let head := h % 2 ^ 64
    let held := (tail + 2 ^ 64 - head) % 2 ^ 64
    let at_ := fun (p : Nat) => h / 2 ^ 320 % 2 ^ 57 + 16 * (p % 2 ^ lgn)
    let t := s.team r.team
    let i := Instr.homeRequestService r.id
    let u := s.touchRange r.pa 64
    let ends := fun (v : State) => ∃ u, exec i z = .next u ∧ Over { v with ends := v.ends ++ [(r.id, .done)] } u r
    let again := fun (v : State) => exec i z = .next (v.rejectReq r)
    let refused := fun (ranks : List Nat) (lost : Nat) (cause : Cause) (addr info : Nat) =>
      let x := ranks.foldl (fun v k => v.settleTicket r.ticket k) s
      ∃ u, exec i z = .next u ∧ Over (if r.team = 0 ∧ lost ≠ 0 then s.postLoss r.job lost (r.src - 4)
        else { x with ends := x.ends ++ [(r.id, .refused cause addr info)] }) u { r with ord := 0 }
    let fails := fun (v : State) (ranks : List Nat) (lost : Nat) (e : Option Cause × Nat × Nat) => match e with
      | (some cause, va, info) => refused ranks lost cause va info
      | (none, va, _) => exec i z = .next (((v.notePage r.asid va 3).rejectReq r).updReq r.id fun q => { q with holdVa := some va })
    let arrivals := fun (v : State) (writes : List (Nat × DWord × Nat)) => ∀ w ∈ writes, leafK w.2.1 = true →
      v.arrival (homeSlice w.1 w.2.1) + ((writes.filter fun x => leafK x.2.1 && homeSlice x.1 x.2.1 == homeSlice w.1 w.2.1).map
        (·.2.2)).foldl (· + ·) 0 < 2 ^ 56
    (∀ records ranks tryP, r.op = .spawn records ranks tryP → records ≠ [] →
      let n := records.length
      let answers := fun (v : State) (b : Bool) => ranks.foldl (fun v k => v.addResult r.ticket r.team k (match tryP with
        | some p => .pred p b
        | none => .nothing)) v
      (¬ validQueue h → refused ranks n .illegalOperand r.va 0) ∧
      (validQueue h → 2 ^ lgn < held + n →
        (tryP = none → again u) ∧
        (tryP ≠ none → ends (answers (u.count t.quad t.job fun k => { k with mc := (k.mc + n) % 2 ^ 48 }) false))) ∧
      (validQueue h → held + n ≤ 2 ^ lgn →
        match u.translateAll r.asid r.sys (r.ord == 0) { w := true } ((List.range n).map fun k => at_ (tail + k)) with
        | (.error e, v) => fails v ranks n e
        | (.ok pas, v) =>
          let writes := (r.pa + 8, r.leaf, 1) :: pas.map fun p => (p.1, p.2, 2)
          (¬ arrivals v writes → again v) ∧
          (arrivals v writes → (∀ p ∈ pas, OwnRange v r.asid p.1 16 ∧ p.1 % 16 = 0) →
            ∀ x, ((pas.zip records).foldl (fun x p => x.bind fun x => queueStored x r p.1.1 p.1.2 2 p.2.toNat) (some v)).bind
              (fun x => queueStored x r (r.pa + 8) r.leaf 1 ((tail + n) % 2 ^ 64)) = some x → ends (answers x true)))) ∧
    ∀ steal ranks d, r.op = .pop steal ranks d →
      let m := min ranks.length (if steal then (held + 1) / 2 else held)
      let taken := fun (k : Nat) => if steal then tail + 2 ^ 64 - 1 - k else head + k
      let kind := fun (x : Nat) => x / 2 ^ 48 % 2 ^ 12
      (¬ validQueue h → refused ranks 0 .illegalOperand r.va 0) ∧
      (validQueue h →
        match u.translateAll r.asid r.sys (r.ord == 0) { r := true } ((List.range m).map fun k => at_ (taken k)) with
        | (.error e, v) => fails v ranks 0 e
        | (.ok pas, v) => (∀ p ∈ pas, OwnRange v r.asid p.1 16) →
          let recs := pas.map fun p => readNat v.mem p.1 16
          match (pas.foldl (fun v p => v.touchRange p.1 16) v).translateAll r.asid r.sys (r.ord == 0) { r := true }
              (recs.map fun x => h / 2 ^ 384 % 2 ^ 57 + 32 * kind x) with
          | (.error e, v) => fails v ranks 0 e
          | (.ok tabs, v) =>
            (m ≠ 0 → ¬ arrivals v [(r.pa, r.leaf, 1)] → again v) ∧
            (m = 0 ∨ arrivals v [(r.pa, r.leaf, 1)] → (∀ p ∈ tabs, OwnRange v r.asid p.1 32) →
              let entries := tabs.map fun p => readNat v.mem p.1 32
              let misfit := fun (k e : Nat) => decide (t.ntid < e / 2 ^ 165 % 2 ^ 13 ∨ t.alloc < e / 2 ^ 157 % 2 ^ 8 ∨
                (s.cluster t.cluster).share < e / 2 ^ 137 % 2 ^ 20 ∨ e / 2 ^ 178 % 2 ^ 3 ≠ t.depth ∨
                Nat.land (e / 2 ^ 181 % 2 ^ 7) (s.featuresOf (4 * t.quad + k % 32 / 8)) ≠ e / 2 ^ 181 % 2 ^ 7)
              let value := fun (k x e : Nat) =>
                let bad := if misfit k e then 4 else 0
                if kind x < ntype then x + 2 ^ 128 * (e / 2 ^ 192 % 2 ^ 57) + 2 ^ 192 * (1 + bad) else x + 2 ^ 192 * (3 + bad)
              let v := tabs.foldl (fun v p => v.touchRange p.1 32) v
              ∀ x, (if m = 0 then some v else if steal then queueStored v r (r.pa + 8) r.leaf 1 ((tail + 2 ^ 64 - m) % 2 ^ 64)
                  else queueStored v r r.pa r.leaf 1 ((head + m) % 2 ^ 64)) = some x →
                ends ((List.range ranks.length).foldl (fun v j =>
                  let k := ranks.getD j 0
                  let y : State := if j < m then { v with
                    threads := v.threads.map fun (x : Thread) => if x.team = r.team ∧ x.rank = k then { x with task := true } else x } else v
                  y.addRegResults r.ticket r.team k (if 192 ≤ d ∧ j ≠ 0 then []
                    else valueWrites t.depth d 8 (if j < m then value k (recs.getD j 0) (entries.getD j 0) else 0) fun _ => 0)) x)))


/-- The grid that a launch descriptor, its kernel record and its edge list describe (R84, R91, R153, R295, R296, R302). -/
def Sys2Proof.Spec.described (v k list : Nat) : Grid :=
  { gx := v / 2 ^ 64 % 2 ^ 16, gy := v / 2 ^ 80 % 2 ^ 16, gz := v / 2 ^ 96 % 2 ^ 16, entry := v % 2 ^ 57, threads := v / 2 ^ 128 % 2 ^ 13,
    teams := v / 2 ^ 141 % 2 ^ 4, regs := v / 2 ^ 145 % 2 ^ 8, pool := v / 2 ^ 153 % 2 ^ 20, depth := v / 2 ^ 173 % 2 ^ 3,
    gall := v.testBit 176, prio := v / 2 ^ 177 % 2 ^ 2, fage := v / 2 ^ 179 % 2 ^ 4, easel := v / 2 ^ 183 % 2 ^ 2,
    bond := v / 2 ^ 185 % 2 ^ 2, pers := v.testBit 187, dbg := v.testBit 188,
    needs := Nat.lor (Nat.lor (v / 2 ^ 192 % 2 ^ 7) (k / 2 ^ 112 % 2 ^ 7)) (if v / 2 ^ 173 % 2 ^ 3 = 0 then 0 else 64),
    wdw := v / 2 ^ 199 % 2 ^ 5,
    edges := (List.range (v / 2 ^ 220 % 2 ^ 4)).map fun i => (list / 2 ^ (128 * i) % 2 ^ 57, list / 2 ^ (128 * i + 64) % 2 ^ 32),
    record := v / 2 ^ 320 % 2 ^ 57, bitmap := v / 2 ^ 384 % 2 ^ 57, evt := (List.range 5).map fun i => v / 2 ^ (448 + 12 * i) % 2 ^ 12,
    ginit := (List.range 8).map fun i => BitVec.ofNat 32 (v / 2 ^ (512 + 32 * i)) }

/-- The checks of rows 1 to 9 of R296 on a descriptor, kernel record and edge list that were read, for a child at depth
`nest`. -/
def Sys2Proof.Spec.launchRow (s : State) (v k list nest : Nat) (row : Nat) : Prop :=
  let g := described v k list
  let room := fun (die : Nat) => (s.findOn (s.fits g.fit []) g.teams die).isSome = true
  let bonded := (s.findBonded (s.fits g.fit []) g.teams).isSome = true
  match row with
  | 1 => (∃ p ∈ [(768, 256), (508, 4), (441, 7), (377, 7), (313, 7), (224, 32), (204, 4), (189, 3), (112, 16), (57, 7)],
        v / 2 ^ p.1 % 2 ^ p.2 ≠ 0) ∨ g.record % 64 ≠ 0 ∨ g.bitmap % 8 ≠ 0 ∨ k / 2 ^ 48 % 2 ^ 16 ≠ 0x4E4B ∨ k / 2 ^ 40 % 2 ^ 8 ≠ 1 ∨
      k % 2 ^ 40 ≠ 0 ∨ k / 2 ^ 119 % 2 ^ 137 ≠ 0
  | 2 => g.gx = 0 ∨ g.gy = 0 ∨ g.gz = 0
  | 3 => ¬ (1 ≤ g.threads ∧ g.threads ≤ 4096) ∨ ¬ (1 ≤ g.teams ∧ g.teams ≤ 12) ∨ ¬ (1 ≤ g.regs ∧ g.regs ≤ 192) ∨
      g.regs < k / 2 ^ 81 % 2 ^ 8 ∨ g.pool < k / 2 ^ 89 % 2 ^ 20 ∨ g.bond = 3
  | 4 => k / 2 ^ 109 % 2 ^ 3 < g.depth ∨ s.maxDepth < g.depth
  | 5 => g.fage ∈ [1, 2, 3, 13, 14, 15] ∨ g.wdw ∈ [1, 2, 3] ∨ 25 ≤ g.wdw
  | 6 => (g.bond = 0 → ¬ room 0 ∧ ¬ room 1) ∧ (g.bond = 1 → ¬ room 0 ∧ ¬ room 1 ∧ ¬ bonded) ∧ (g.bond = 2 → ¬ bonded)
  | 7 => 8 < v / 2 ^ 220 % 2 ^ 4 ∨ ∃ i < v / 2 ^ 220 % 2 ^ 4, let e := list / 2 ^ (128 * i)
      e / 2 ^ 57 % 2 ^ 7 ≠ 0 ∨ e / 2 ^ 96 % 2 ^ 32 ≠ 0 ∨ e / 2 ^ 64 % 2 ^ 32 = 0
  | 8 => ∃ f ∈ g.evt, 24 < f % 2 ^ 5
  | 9 => 9 < nest
  | _ => False

/-- What the dispatcher finds (R296): a descriptor that cannot be read has cause 10, and a misaligned ENTRY or EDGES cause 1;
else the kernel record and the edge list are read, and the first row of the table that holds gives the cause; a RECORD or
BITMAP that may not be written gives 10; and with none the grid is what the three describe. -/
def Sys2Proof.Spec.LaunchChecked : Prop :=
  ∀ (s : State) (asid nest v : Nat),
    s.checkLaunch asid none nest = (.error 10, s) ∧
    let entry := v % 2 ^ 57
    let edges := v / 2 ^ 256 % 2 ^ 57
    let n := v / 2 ^ 220 % 2 ^ 4
    (entry % 32 ≠ 0 ∨ edges % 16 ≠ 0 → s.checkLaunch asid (some v) nest = (.error 1, s)) ∧
    (¬ (entry % 32 ≠ 0 ∨ edges % 16 ≠ 0) →
      let one := s.globalRead asid { x := true } entry 32
      let two := one.2.globalRead asid { r := true } edges (16 * n)
      (one.1 = none ∨ two.1 = none → s.checkLaunch asid (some v) nest = (.error 10, two.2)) ∧
      ∀ k list, one.1 = some k → two.1 = some list →
        (∀ row, launchRow two.2 v k list nest row → (∀ b < row, ¬ launchRow two.2 v k list nest b) →
          s.checkLaunch asid (some v) nest = (.error row, two.2)) ∧
        ((∀ row, ¬ launchRow two.2 v k list nest row) → s.checkLaunch asid (some v) nest =
          (if (two.2.recordsOk asid v).1 then .ok (described v k list) else .error 10, (two.2.recordsOk asid v).2)))

/-- Acceptance (R297, R301, R311, R313, R323): an invalid launch answers INV with its cause, its record takes STATUS 4, and its
activity is raised and lowered; a valid one is a grid with the next instance number, behind the earlier launches of its
queue, in its parent's class at most, and a child of its team. -/
def Sys2Proof.Spec.LaunchAccepted : Prop :=
  ∀ (s : State) (l : Launcher) (desc : Option Nat),
    let parent := l.parent.map fun t => s.grid (s.team t).grid
    let nest := match parent with
      | some g => g.nest + 1
      | none => 0
    (∀ cause v, s.checkLaunch (s.job l.job).asid desc nest = (.error cause, v) →
      let record := (desc.getD 0) / 2 ^ 320 % 2 ^ 57
      s.acceptLaunch l desc = (2 ^ 31 + cause,
        (if desc = none ∨ record = 0 ∨ record % 64 ≠ 0 then v
         else (v.globalWrite l.die (s.job l.job).asid record (toBytes 64 (4 + cause * 2 ^ 8))).2).count (66 + l.die) l.job
           fun k => { k with au := (k.au + 1) % 2 ^ 48, ad := (k.ad + 1) % 2 ^ 48 })) ∧
    ∀ g v, s.checkLaunch (s.job l.job).asid desc nest = (.ok g, v) →
      let id := if v.gridNum + 1 = 2 ^ 31 then 1 else v.gridNum + 1
      let prio := match parent with
        | some p => min g.prio p.prio
        | none => g.prio
      let ahead := v.grids.filter fun x => x.die == l.die && x.prio == prio && x.job == l.job && x.status.isNone
      let new : Grid := { g with
        id, job := l.job, prio, nest, parent := l.parent, die := l.die, order := v.nextId,
        after := if l.parent = none then ahead.map (·.id) else [], progress := v.now }
      s.acceptLaunch l desc = (id, ({ v with
        gridNum := id, nextId := v.nextId + 1, grids := v.grids ++ [new],
        teams := match l.parent with
          | some t => v.teams.map fun (x : Team) => if x.id = t then { x with children := x.children ++ [id] } else x
          | none => v.teams } : State).count (66 + l.die) l.job fun k => { k with au := (k.au + 1) % 2 ^ 48 })

/-- LAUNCH (R301, R302, R307, R311): the team leader's word asks for a release and the submission, and the accepted
launch's handle is its result; with 64 children, or no counter set, it waits. The record of an invalid launch, with
cause 10 and GRID 0, and the moment at which AU and AD rise are the model's choices (log entry 26). -/
def Obligations.LaunchWord : Prop :=
  LaunchChecked ∧ LaunchAccepted ∧
  (∀ w s c, OnceWord (.launch w) s c (clocks c.act.length 2) <|
    let va := c.val c.lead w.s1.toNat 2
    let asked := s.reqs.filter fun r => r.team == c.tm.id && match r.op with
      | .launch .. => true
      | _ => false
    let place := match (s.translate c.job.asid va c.gang.sys { r := true }).1 with
      | .ok pa leaf => (pa, leaf)
      -- none reads it: an invalid launch at the home of the team's own die
      | .fail _ _ => (2 ^ 39, BitVec.ofNat 64 (c.tm.quad / 32 * 2 ^ 10))
    if c.lead ≠ 0 then TrapsAt (.launch w) s c .illegalOperand 0 0
    else if va % 128 ≠ 0 then TrapsAt (.launch w) s c .misaligned va 0
    else if 64 ≤ c.tm.children.length + asked.length then HoldsAt (.launch w) s c (.children c.tm.id)
    else Commits (.launch w) s c (clocks c.act.length 2) (ask { s with
        nextId := s.nextId + 1, tickets := s.tickets ++ [{ id := s.nextId, cls := 5, team := c.tm.id, gangs := [c.gid], parts := c.act }] }
      { mapReq c c.lead s.nextId [] (.launch c.act w.d.toNat) with va, pa := place.1, leaf := place.2, sc := 3, ord := 3 })) ∧
  ∀ (z : State) (r : HomeReq) (ranks : List Nat) (d : Nat), Served z r → r.op = .launch ranks d →
    let s := entered z r
    let t := s.team r.team
    let die := t.quad / 32
    (s.canCount (66 + die) r.job = false → exec (.homeRequestService r.id) z = .next (s.rejectReq r)) ∧
    (s.canCount (66 + die) r.job = true →
      let read := match s.translate r.asid r.va r.sys { r := true } with
        | (.ok pa _, v) => (v.homeRead r.asid pa 128).map (fun bs => some (fromBytes bs)) id
        | (.fail _ _, v) => (none, v)
      let out := read.2.acceptLaunch { job := r.job, die, parent := some r.team } read.1
      ∃ u, exec (.homeRequestService r.id) z = .next u ∧
        Over (ranks.foldl (fun v k => v.addRegResults r.ticket r.team k (if 192 ≤ d ∧ d < 255 ∧ k ≠ ranks.headD 0 then []
          else valueWrites t.depth d 1 out.1 fun _ => 0)) out.2) u r)

/-- PARK (R306, R310): the Active threads in turn store their continuations by weak pool stores, and their tasks retire, once the sends
that they have issued are counted. -/
def Sys2Proof.Spec.ParkWord : Prop :=
  ∀ w s c, Runs (.park w) s c → ThreadWord (.park w) s c 0 (clocks c.act.length 2) fun u r =>
    let a := c.val r w.s1.toNat 1
    let mask := w.imm.toNat % 2 ^ 16
    let base := w.s2.toNat
    let reg := fun (k j : Nat) => if mask.testBit j then c.tan r k (base + j) 1 else 0
    let words := c.gang.nextPc % 2 ^ 57 :: (mask + 2 ^ 16 * base + 2 ^ 24 * c.tm.depth + 2 ^ 32 * r) ::
      (List.range (c.tm.depth + 1)).flatMap fun k => (List.range 8).map fun j => reg k (2 * j) + 2 ^ 32 * reg k (2 * j + 1)
    let addrs := (List.range words.length).map fun i => (a + 8 * i) % 2 ^ 32
    let bad := if a % 16 ≠ 0 then some (.misaligned, a) else addrs.findSome? fun x => (poolCheck c.cluster x).map fun cause => (cause, x)
    match bad, lineHold c u addrs 8 false true with
    | some (cause, x), _ => .traps u cause x 0
    | none, some (line, ea) =>
      .holds (walkWait c u r line ea true).1 (walkWait c u r line ea true).2
    | none, none =>
      let holds := (u.thread c.tm.id r).task = true ∨ (u.thread c.tm.id r).handler = true
      if (u.thread c.tm.id r).task = true ∧ u.pendingSends c.tm.id [r] ≠ [] then .holds u (.flights (u.pendingSends c.tm.id [r]))
      else if holds ∧ u.canCount c.tm.quad c.tm.job = false then .holds u (.counterSet c.tm.quad c.tm.job)
      else
        let pieces := (addrs.zip words).map fun p => ({ ea := p.1, size := 8, op := .store (toBytes 8 p.2) } : Piece)
        .goes (((sendSets c r s.nextId 0 0 u [pieces.map fun p => [p]]).retireTask c.tm.id r).retireHandler c.tm.id r)

/-- Every Active thread of a word is owed the same value: a g register takes it once (R110). -/
def Sys2Proof.Spec.allTake (s : State) (ticket team : Nat) (ranks : List Nat) (d v : Nat) : State :=
  ranks.foldl (fun x k => x.addRegResults ticket team k (if 192 ≤ d ∧ d < 255 ∧ k ≠ ranks.headD 0 then []
    else valueWrites (s.team team).depth d 1 v fun _ => 0)) s

/-- JOINW (R312): a handle that names no child answers 0xFF at once; else the word waits under one ticket of class 6. -/
def Sys2Proof.Spec.JoinWord : Prop :=
  ∀ w s c, OnceWord (.joinw w) s c (clocks c.act.length 4) <|
    let h := if w.s1.toNat = 255 then none else some (c.val c.lead w.s1.toNat 1)
    let v : State := { s with
      nextId := s.nextId + 1, tickets := s.tickets ++ [{ id := s.nextId, cls := 6, team := c.tm.id, gangs := [c.gid], parts := c.act }] }
    let named := ∀ n, h = some n → n ∈ c.tm.children ∨ ∃ p ∈ c.tm.joined, p.1 = n
    Commits (.joinw w) s c (clocks c.act.length 4) (if named then { v with
        engineWaits := s.engineWaits ++ [{ ticket := s.nextId, team := c.tm.id, ranks := c.act, act := .join h w.d.toNat }] }
      else allTake v s.nextId c.tm.id c.act w.d.toNat 0xFF)

/-- What a word that waited takes when what it waited for is over (R251, R253, R290, R302, R312, R332, R342, R360,
R371): TWAIT and CWAIT the status of their queue, whose fault record goes, CWAIT after an acquire; JOINW the greatest
STATUS of its children, after the acquire of each, with 1 for none; FENCEQ beyond the cluster an acquire, at whose end
it is over; MWAIT.tile the commands left. An acquire's mark on lines that are filling is the model's choice (log entry
61). -/
def Obligations.WaitingWords : Prop :=
  ParkWord ∧ JoinWord ∧ ∀ (s : State) (w : EngineWait),
    let t := s.team w.team
    let lead := w.ranks.headD 0
    let v : State := { s with engineWaits := s.engineWaits.filter fun x => x != w }
    let gives := fun (x : State) (d value : Nat) => allTake x w.ticket w.team w.ranks d value
    let queue := fun (q : Nat) =>
      let mine := fun (r : CopyRecord) => r.team == w.team && r.queue == q
      (((s.copyRecs.find? mine).map fun r => 2 ^ 31 + r.cause * 2 ^ 16 + min 0xFFFF r.count).getD 0,
        ({ v with copyRecs := s.copyRecs.filter fun r => !mine r } : State))
    let acquire := fun (x : State) (ticket sc : Nat) (inv : Bool) => ask x { 
      ticket, team := w.team, rank := lead, cluster := t.cluster, job := t.job, asid := (s.job t.job).asid, sc,
      group := (s.cluster t.cluster).group, src := t.quad, op := .acquire inv }
    let acquires := fun (x : State) (inv : Bool) (d value : Nat) =>
      let y := acquire x 0 3 inv
      { y with engineWaits := y.engineWaits ++ [{ w with ids := [x.nextId], act := .joined d value }] }
    let whole := fun (x : State) => (((x.tickets.find? fun k => k.id == w.ticket).map (·.parts)).getD []).foldl
      (fun x k => x.settleTicket w.ticket k) x
    let owedNone := fun (x : State) => w.ranks.foldl (fun x k => x.settleTicket w.ticket k) x
    (∀ q d, w.act = .twait q d → s.engineDone w = gives (queue q).2 d (queue q).1) ∧
    (∀ q d, w.act = .cwait q d → s.engineDone w = acquires (queue (16 + q)).2 true d (queue (16 + q)).1) ∧
    (w.act = .cancel ∨ w.act = .replays → s.engineDone w = owedNone v) ∧
    (∀ sc, w.act = .fenceq sc → s.engineDone w = if sc < 3 then whole v else
      let y := acquire v 0 sc true
      { y with engineWaits := y.engineWaits ++ [{ w with ids := [v.nextId], act := .fenced }] }) ∧
    (w.act = .fenced → s.engineDone w = whole v) ∧
    (∀ d tile, w.act = .mwait d tile →
      s.engineDone w = gives v d (if tile then (s.mcommands.filter fun k => k.team == w.team).length else 0)) ∧
    (∀ h d, w.act = .join h d →
      let js := t.joined.filter fun p => match h with
        | some n => p.1 == n
        | none => true
      let waits := match h with
        | some _ => js = []
        | none => t.children ≠ [] ∨ ∃ r ∈ s.reqs, r.team = t.id ∧ ∃ ranks e, r.op = .launch ranks e
      let gs := js.map fun p => s.grid p.1
      (waits → s.engineDone w = s) ∧
      (¬ waits → js = [] → s.engineDone w = gives v d 1) ∧
      (¬ waits → js ≠ [] → ∃ status, (∃ p ∈ js, p.2 = status) ∧ (∀ p ∈ js, p.2 ≤ status) ∧
        let bare := gs.any fun g => decide (g.edges = [])
        ((∀ g ∈ gs, g.edges = []) → s.engineDone w = acquires v bare d status) ∧
        ((∃ g ∈ gs, g.edges ≠ []) →
          let meets := fun (l : RegionLine) => match (s.cluster t.cluster).mapping l.line with
            | some (_, _, va) => gs.any fun g => g.edges.any fun e => decide (va < e.1 + e.2 ∧ e.1 < va + 128)
            | none => false
          let hit := fun (l : RegionLine) => (s.cluster t.cluster).lines.any fun k => k.line == l.line && meets k
          ∃ k, s.engineDone w = acquires { v with
            counters := k,
            nextId := s.nextId + 1,
            clusters := s.clusters.map fun (x : Cluster) => if x.id = t.cluster then { x with
              lines := (x.lines.filter fun l => !(hit l && l.st == .clean)).map fun (l : RegionLine) =>
                if hit l = false then l else if l.st = .dirty then { l with st := .partialLine }
                else if l.st = .filling then { l with drop := some (l.drop.getD s.nextId) } else l } else x }
            bare d status))) ∧
    (∀ d value, w.act = .joined d value ∨ w.act = .answer d value → s.engineDone w = gives v d value) ∧
    (∀ ws, w.act = .write ws → s.engineDone w = v.addRegResults w.ticket w.team lead ws) ∧
    ∀ kind asid va, w.act = .tlbi kind asid va → s.engineDone w = owedNone (v.tlbiPerform kind asid va)

/-! ### Grids, clusters and teams -/

/-- A grid's record changes. -/
def Sys2Proof.Spec.changeGrid (s : State) (grid : Nat) (f : Grid → Grid) : State :=
  { s with grids := s.grids.map fun (x : Grid) => if x.id = grid then f x else x }

/-- A team's start (R70, R106, R110, R149, R153, R257, R288, R291, R323): its record and matrix state, a fresh thread for each
rank, its gangs lane by lane, and activity raised for each thread. -/
def Sys2Proof.Spec.TeamStarts : Prop :=
  (∀ (s : State) (g : Grid) (cluster idx quad : Nat),
    let alloc := (g.regs + 7) / 8 * 8
    let t : Team := {
      id := s.nextId, cluster, grid := g.id, job := g.job, idx, quad,
      slot := ((List.range 4).find? fun i => (s.residents quad).all fun t => t.slot != i).getD 0,
      ntid := g.threads, alloc, depth := g.depth, gall := g.gall, sys := g.sys,
      gregs := g.ginit ++ List.replicate (63 * (g.depth + 1) - g.ginit.length) 0, fregs := List.replicate 16 0xC60E,
      events := g.evt.map fun f => BitVec.ofNat 64 (f / 2 ^ 5 % 2 ^ 2 * 2 + f / 2 ^ 7 % 2 ^ 5 * 2 ^ 3 +
        (if f % 2 ^ 5 = 0 then 0 else 2 ^ (f % 2 ^ 5 - 1)) * 2 ^ 8),
      winAt := List.replicate 5 (s.coreCount (4 * quad)), chans := List.replicate 64 0 }
    s.startTeam g cluster idx quad =
      ((List.range 32).foldl (fun (v : State) lane => v.formLane t (g.entry + 32) lane) ({ s with
        nextId := s.nextId + 1, teams := s.teams ++ [t], matrix := s.matrix ++ [{ team := s.nextId, cls := g.prio }],
        threads := s.threads ++ (List.range g.threads).map fun r =>
          ({ team := s.nextId, rank := r, regs := List.replicate (alloc * (g.depth + 1)) 0, window := List.replicate 64 0 } : Thread) } : State)).count
        quad g.job fun k => { k with au := (k.au + g.threads) % 2 ^ 48 }) ∧
  ∀ (s : State) (t : Team) (entry lane : Nat), lane < 32 → s.team t.id = t →
    let ranks := (List.range t.ntid).filter fun r => r % 32 == lane
    let n := (ranks.length + 31) / 32
    let free := (List.range 17).filter fun e => s.gangs.all fun x => !decide (x.entry = e ∧ x.lane = lane ∧ (s.team x.team).quad = t.quad)
    n ≤ free.length → s.formLane t entry lane = { s with
      nextId := s.nextId + n,
      gangs := s.gangs ++ (free.take n).mapIdx fun j e =>
        ({ id := s.nextId + j, team := t.id, lane, entry := e, members := (ranks.drop (32 * j)).take 32, pc := entry, sys := t.sys,
           idleSince := s.dieClock (t.quad / 32) } : Gang) }

/-- A cluster's start (R13, R177, R208, R218, R219, R298): its record, in the lowest writer group of its die's parity that is
free, its last holder's write-backs too, its teams in the order of the quads, and a refresh of its sight. -/
def Sys2Proof.Spec.ClusterStarts : Prop :=
  ∀ (s : State) (g : Grid) (die index : Nat) (quads : List Nat), quads.Nodup → die < 2 → ∃ (qs : List Nat) (group : Nat),
    qs.Pairwise (· < ·) ∧ (∀ q, q ∈ qs ↔ q ∈ quads) ∧ group % 2 = die % 2 ∧
    (∀ n, n % 2 = die % 2 → (n < group ↔ n ≤ group ∧ ∃ x ∈ s.clusters, x.group = n ∧
      ((x.retired = false ∧ x.aborted = false) ∨ (∃ r ∈ s.reqs, r.cluster = x.id ∧ (r.back = true ∨ r.op.local = true)) ∨
        ∃ e ∈ s.side, e.req.cluster = x.id ∧ e.req.back = true))) ∧
    let c : Cluster := {
      id := s.nextId, grid := g.id, job := g.job, index, die, quads := qs, share := (g.pool + 63) / 64 * 64, group,
      regions := List.replicate 64 none, offs := List.replicate 128 0 }
    let v := (qs.mapIdx fun i q => (i, q)).foldl (fun v p => v.startTeam g s.nextId p.1 p.2)
      { s with nextId := s.nextId + 1, clusters := s.clusters ++ [c] }
    s.startCluster g die index quads =
      (ask v { cluster := s.nextId, job := g.job, asid := (v.job g.job).asid, group, op := .acquire false }).updReq v.nextId
        fun r => { r with state := .refreshing }

/-- The sets of quads on which a die may place a cluster of a grid (R10, R92, R105, R257, R298, R378): connected, one quad for
each team, each on a die that runs, with a resident slot, the features, the easel and the bytes of every lane's bank; on
one die, or on both as BOND says. -/
def Sys2Proof.Spec.PlacesFit : Prop :=
  ∀ (s : State) (g : Grid) (die : Nat) (quads : List Nat), s.setOk g die quads = true →
    quads.length = g.teams ∧ quads.Nodup ∧ s.connected quads = true ∧
    (∀ q ∈ quads, s.hasQuad q = true ∧ s.up.getD (q / 32) false = true ∧ (s.residents q).length < 4 ∧
      (∀ k < 4, Nat.land g.needs (s.featuresOf (4 * q + k)) = g.needs) ∧
      ((s.residents q).map fun t => easelRows (s.grid t.grid).easel).sum + easelRows g.easel ≤ 1024 ∧
      ∀ lane < 32,
        let bytes := fun (ntid alloc depth share : Nat) => (ntid + 31 - lane) / 32 * alloc * 4 * (1 + depth) + share / 8
        ((s.residents q).map fun t => bytes t.ntid t.alloc t.depth (s.cluster t.cluster).share).sum +
          bytes g.threads ((g.regs + 7) / 8 * 8) g.depth ((g.pool + 63) / 64 * 64) ≤ 131072) ∧
    (g.bond = 0 → ∀ q ∈ quads, q / 32 = die) ∧
    (g.bond = 2 → (∃ q ∈ quads, q / 32 = 0) ∧ (∃ q ∈ quads, q / 32 = 1) ∧ g.leader = some die)

/-- LEADER_PROPOSAL, LEADER_ACK_TIMEOUT and CLUSTER_PLACEMENT (R297 to R300, R323, R380): the accepting die becomes
leader, or after 10 µs runs the grid alone; a die whose turn it is places the next index on quads that fit, the leader
one by one, the follower from the chunks of 16 that the leader grants it, two at most, and the grid's activity is
lowered with its last index. The model's choices: a grant at any moment and quads named by the row (log entry 27), the
lowest free group and the held class (log entry 106), the lowest free entries (log entry 85), gplane and cseg 0 at start
(log entry 90). -/
def Sys2Proof.Spec.PlacementEvents : Prop :=
  TeamStarts ∧ ClusterStarts ∧ PlacesFit ∧ ∀ (s : State) (grid die : Nat) (quads : List Nat),
    let g := s.grid grid
    let proposes := g.id = grid ∧ g.leader = none ∧ g.proposed = none ∧ g.status = none ∧ s.dieUp g.die = true
    (¬ proposes → exec (.leaderProposal grid) s = .next s) ∧
    (proposes → exec (.leaderProposal grid) s = .next (changeGrid s grid fun x =>
      if s.seam = true ∧ s.dieUp 0 = true ∧ s.dieUp 1 = true then { x with leader := some x.die } else { x with proposed := some s.now })) ∧
    (∀ t, g.proposed = some t →
      let due := g.leader = none ∧ g.status = none ∧ t + 24000 * 45045 ≤ s.now
      (due → exec (.leaderAckTimeout grid) s = .next (changeGrid s grid fun x => { x with leader := some x.die, alone := true })) ∧
      (¬ due → exec (.leaderAckTimeout grid) s = .next s)) ∧
    (g.proposed = none → exec (.leaderAckTimeout grid) s = .next s) ∧
    let grants := g.id = grid ∧ g.status = none ∧ g.stopped = false ∧ g.leader ≠ none ∧ g.leader ≠ some die ∧ g.alone = false ∧
      g.bond ≠ 2 ∧ s.dieUp die = true ∧ s.spans = true ∧ s.startable g = true ∧ g.granted.length < 2 ∧ g.next < g.gx * g.gy * g.gz
    let chunk := (List.range (min 16 (g.gx * g.gy * g.gz - g.next))).map (g.next + ·)
    exec (.clusterPlacement grid die []) s = .next (if grants then changeGrid s grid fun x =>
      { x with next := x.next + chunk.length, granted := x.granted ++ [chunk] } else s) ∧
    (quads ≠ [] →
    let may := g.id = grid ∧ s.mayPlace g die = true ∧ s.setOk g die quads = true ∧ (∀ q ∈ quads, s.canCount q g.job = true) ∧
      s.canCount (66 + g.die) g.job = true
    (¬ may → exec (.clusterPlacement grid die quads) s = .next s) ∧
    (may →
      let leads := g.leader = some die ∧ ¬ (g.alone = true ∧ g.granted ≠ [])
      let index := if leads then g.next else g.granted.flatten.headD 0
      let v := s.startCluster g die index quads
      let x := changeGrid { v with nextId := v.nextId + 1 } grid fun y => { y with
        next := if leads then y.next + 1 else y.next,
        granted := if leads then y.granted else match y.granted with
          | c :: cs => if c.length ≤ 1 then cs else c.drop 1 :: cs
          | [] => [],
        placed := y.placed ++ [(index, die)], turn := v.nextId }
      let last := (x.grid grid).next = (x.grid grid).gx * (x.grid grid).gy * (x.grid grid).gz ∧ (x.grid grid).granted = []
      let y := if last then x.lowerGrid grid else x
      exec (.clusterPlacement grid die quads) s = .next { y with
        grids := y.grids.map fun (z : Grid) => if z.job = g.job ∧ z.pers = false then { z with progress := s.now } else z }))

/-- An index of a grid retires as the leader knows it; when all have, or were lost, the grid has ended (R300, R301). -/
def Sys2Proof.Spec.ended (v : State) (grid : Nat) : State :=
  changeGrid v grid fun x => if x.status = none ∧ x.ret0.length + x.ret1.length + x.lost.length = x.gx * x.gy * x.gz then
    { x with status := some (if x.lost = [] then 1 else 3, 0) } else x

/-- TEAM_RETIREMENT and RETIREMENT_REPORT (R97, R299 to R302, R327, R357): a team retires when its threads have ended
and nothing of it is left; what it held is lost, with one note to the root; with the last team of a cluster the cluster
writes its dirty lines back, or those that meet the grid's edges, and retires when that has performed, replays included,
the other lines after it; the leader learns it at once, or by the follower's report. A retired team frees its part of
the register bank, and a cluster retires once the write-backs that come first have performed, replays included (the
model's choices: log entries 92 and 76). -/
def Sys2Proof.Spec.RetirementEvents : Prop :=
  ∀ (s : State) (team grid index : Nat),
    let t := s.team team
    let c := s.cluster t.cluster
    let g := s.grid t.grid
    let row := exec (.teamRetirement team) s
    let dirty := (c.lines.filter fun l => l.mask != 0).map (·.line)
    let walks := fun (v : State) (lines : List Nat) (ord : Nat) => lines.foldl (fun v l =>
      ask v { cluster := c.id, job := c.job, asid := (s.job c.job).asid, group := c.group, ord, op := .walk l (l + 1) }) v
    let left := (∃ x ∈ s.threads, x.team = team ∧ x.ended = false) ∨ t.children ≠ [] ∨ (∃ k ∈ s.commands, k.team = team) ∨
      (∃ k ∈ s.mcommands, k.team = team) ∨ (∃ k ∈ s.colls, k.team = team) ∨ (∃ a ∈ s.accesses, a.team = team) ∨
      (∃ r ∈ s.reqs, r.team = team) ∨ (∃ e ∈ s.side, e.req.team = team ∧ e.req.back = false) ∨ (∃ k ∈ s.tickets, k.team = team) ∨
      ∃ w ∈ s.engineWaits, w.team = team
    let own := fun (m : Queued) => if m.handler then s.handlers.any fun h => h.team == team && h.quad == m.quad && h.queue == m.queue
      else m.team == team
    let lost := (s.inbox.filter own).length
    (t.id ≠ team ∨ (t.retired = false ∧ (left ∨ t.stat ≠ 0)) → row = .next s) ∧
    (t.id = team → t.retired = false → ¬ left → t.stat = 0 →
      let v : State := { s with
        lossNotes := if lost = 0 then s.lossNotes else s.lossNotes ++ [(t.job, lost, s.pod * 2 ^ 22 + t.quad)],
        inbox := s.inbox.filter fun m => !own m, handlers := s.handlers.filter fun h => h.team != team,
        threads := s.threads.filter fun x => x.team != team, matrix := s.matrix.filter fun x => x.team != team,
        copyRecs := s.copyRecs.filter fun x => x.team != team,
        teams := s.teams.map fun (x : Team) => if x.id = team then { x with retired := true } else x,
        grids := s.grids.map fun (x : Grid) => if x.job = t.job ∧ x.pers = false then { x with progress := s.now } else x }
      ((∃ x ∈ v.teams, x.cluster = c.id ∧ x.retired = false) → row = .next v) ∧
      ((∀ x ∈ v.teams, x.cluster = c.id → x.retired = true) →
        let meets := fun (line : Nat) => match c.mapping line with
          | some (_, _, va) => g.edges.any fun e => decide (va < e.1 + e.2 ∧ e.1 < va + 128)
          | none => false
        ∃ lines : List Nat, (∀ l, l ∈ lines ↔ l ∈ dirty ∧ (g.edges = [] ∨ meets l = true)) ∧
          let x := walks v lines 3
          row = .next { x with clusters := x.clusters.map fun (y : Cluster) => if y.id = c.id then
            { y with leaving := some ((List.range lines.length).map (s.nextId + ·)) } else y })) ∧
    (t.id = team → t.retired = true →
      let waits := c.leaving = none ∨ c.retired = true ∨ ∃ ids, c.leaving = some ids ∧ ∃ k ∈ ids, (s.accesses.any fun a => a.id == k) = true ∨
        (s.reqs.any fun r => r.id == k) = true
      (waits → row = .next s) ∧
      (¬ waits →
        let x := walks s dirty 0
        let y : State := { x with clusters := x.clusters.map fun (y : Cluster) => if y.id = c.id then
          { y with retired := true, leaving := none } else y }
        row = .next (ended (changeGrid y c.grid fun z =>
          if z.leader.getD c.die = c.die then (if c.die = 0 then { z with ret0 := z.ret0 ++ [c.index] } else { z with ret1 := z.ret1 ++ [c.index] })
          else { z with unreported := z.unreported ++ [c.index] }) c.grid))) ∧
    let f := s.grid grid
    let reported := f.id = grid ∧ index ∈ f.unreported ∧ s.spans = true
    (¬ reported → exec (.retirementReport grid index) s = .next s) ∧
    (reported → exec (.retirementReport grid index) s = .next (ended (changeGrid s grid fun z =>
      let y := { z with unreported := z.unreported.erase index }
      if z.leader = some 1 then { y with ret0 := z.ret0 ++ [index] } else { y with ret1 := z.ret1 ++ [index] }) grid))

/-! ### Channels and messages -/

/-- A gang-level read of the pool (R179, R212): its address is checked, a walk of its line and the threads' earlier accesses
come first, and then what the word does with the value. -/
def Sys2Proof.Spec.PoolRead (i : Instr) (s : State) (c : Ctx) (a size : Nat) (acts : State → Nat → Prop) : Prop :=
  match badAddress c a size false, objectTurn c s c.lead a size with
  | some cause, _ => TrapsAt i s c cause a 0
  | none, (some (.holds v w), _) => exec i s = .next (heldFrom c v w)
  | none, (some _, _) => True
  | none, (none, v) =>
    let before := v.blockers (objectAccess c v 0 a size 0 c.lead)
    (before ≠ [] → exec i s = .next (heldFrom c v (.flights before))) ∧
    (before = [] → acts v (readNat (v.cluster c.tm.cluster).pool (keyOf a) size))

/-- A channel image is valid in a cluster of `nteam` teams (R315, R316). -/
def Sys2Proof.Spec.validChannel (v nteam : Nat) : Prop :=
  let kind := v / 2 ^ 125 % 2 ^ 3
  let dq := v / 2 ^ 90 % 2 ^ 6
  let dch := v / 2 ^ 84 % 2 ^ 6
  let lgd := v / 2 ^ 120 % 2 ^ 3
  (v.testBit 124 = false → v = 0) ∧
  (v.testBit 124 = true → kind ≤ 4 ∧ v / 2 ^ 106 % 2 ^ 14 = 0 ∧ v / 2 ^ 64 % 2 ^ 20 = 0 ∧ lgd ≤ 6 ∧ (v.testBit 123 = false → lgd = 0) ∧
    (kind ≠ 3 → kind ≠ 4 → v / 2 ^ 96 % 2 ^ 10 = 0) ∧
    (kind = 0 → dq = 0 ∧ dch = 0 ∧ v % 2 ^ 64 = 0) ∧ (kind = 1 → dq < nteam ∧ v % 2 ^ 32 = 0) ∧
    (kind = 2 ∨ kind = 3 → dch < 16 ∧ v % 2 ^ 32 = 0) ∧ (kind = 4 → dq = 0 ∧ dch = 0 ∧ v / 2 ^ 57 % 2 ^ 7 = 0 ∧ v % 64 = 0))

/-- Message slots of a quad's port in use (R316). -/
def Sys2Proof.Spec.slotsInUse (s : State) (quad : Nat) : Nat :=
  ((s.residents quad).map fun t => ((List.range 64).map fun i =>
    let e := (t.chans.getD i 0).toNat
    if e.testBit 124 ∧ e.testBit 123 then 2 ^ (e / 2 ^ 120 % 2 ^ 3) else 0).sum).sum +
  ((s.handlers.filter fun h => h.quad == quad).map fun h => 2 ^ h.lgd).sum

/-- The registers of a RECV take a value; at scope 3 and wider after the acquire (R332, R352). -/
def Sys2Proof.Spec.recvTakes (x : State) (w : RecvWait) (value : Nat) : State :=
  let t := x.team w.team
  let ws := valueWrites t.depth w.d 16 value fun _ => 0
  if w.acq < 3 then x.addRegResults w.ticket w.team w.rank ws
  else
    let y := ask x { 
      team := t.id, rank := w.rank, cluster := t.cluster, job := t.job, asid := (x.job t.job).asid, sc := w.acq,
      group := (x.cluster t.cluster).group, src := t.quad, op := .acquire true }
    { y with engineWaits := y.engineWaits ++ [{ ticket := w.ticket, team := w.team, ranks := [w.rank], ids := [x.nextId], act := .write ws }] }

/-- What RECV writes for a message (R332), and what taking it does: a handler task for the thread, or a consumption at once;
at scope 3 and wider the registers are written after the acquire (R352). -/
def Sys2Proof.Spec.MessageTaken : Prop :=
  ∀ (s : State) (w : RecvWait) (m : Message),
    let t := s.team w.team
    let n := m.elems.length
    let value := 2 ^ 32 * (m.image.toNat / 2 ^ 32 % 2 ^ 32) + 2 ^ 22 * (m.dev % 2 ^ 10) + 2 ^ 16 * (m.quad % 2 ^ 6) + 2 ^ 4 * (m.rank % 2 ^ 12) +
      2 ^ 3 * w.handler.toNat + n + ((List.range n).map fun i => 2 ^ (64 * (i + 1)) * (m.elems.getD i 0).toNat).sum
    let own := fun (q : Queued) => q.handler == w.handler && q.queue == w.queue && (if w.handler then q.quad == t.quad else q.team == t.id)
    let v : State := { s with inbox := s.inbox.eraseP own }
    let x := if w.handler then { v with
        threads := s.threads.map fun (y : Thread) => if y.team = t.id ∧ y.rank = w.rank then { y with handler := true } else y }
      else v.count t.quad t.job fun k => { k with mc := (k.mc + 1) % 2 ^ 48 }
    s.giveMessage w m = recvTakes x w value ∧
    (s.recvWaits = [w] → t.stat < 2 → s.inbox.find? own = none → s.serveRecv = s) ∧
    (∀ q, s.recvWaits = [w] → t.stat < 2 → s.inbox.find? own = some q → w.handler = true ∨ s.canCount t.quad t.job = true →
      s.serveRecv = ({ s with recvWaits := [] } : State).giveMessage w q.msg)

/-- CHCFG, its clear form, SEND and RECV (R315 to R318, R320, R321, R330 to R332). Slots are taken by receive queues
alone (the model's choice: log entry 103). -/
def Sys2Proof.Spec.ChannelWords : Prop :=
  MessageTaken ∧ ∀ w s c,
    let port := c.tm.quad
    let imm := w.imm.toNat
    let ch := imm % 2 ^ 6
    let entry := c.tm.chans.getD ch 0
    let held := (s.inbox.filter fun m => !m.handler && m.team == c.tm.id && m.queue == ch).map (·.msg)
    let busy := entry.toNat.testBit 123 = true ∧ held ≠ []
    let answers := fun (i : Instr) (v : State) (ok : Bool) => Commits i s c 20 (predsTake c v w.d.toNat ok)
    let sets := fun (v : State) (e : BitVec 128) =>
      { v with teams := v.teams.map fun (x : Team) => if x.id = c.tm.id then { x with chans := x.chans.set ch e } else x }
    (OnceWord (.chcfg w) s c 20 <|
      let a := c.val c.lead w.s1.toNat 1
      (busy → answers (.chcfg w) s false) ∧
      (¬ busy → PoolRead (.chcfg w) s c a 16 fun v image =>
        let need := if image.testBit 123 then 2 ^ (image / 2 ^ 120 % 2 ^ 3) else 0
        let room := need = 0 ∨ slotsInUse v port + need ≤ 4096
        (¬ validChannel image c.cluster.quads.length → exec (.chcfg w) s = .next (trappedFrom c v .illegalOperand a 0)) ∧
        (validChannel image c.cluster.quads.length → ¬ room → answers (.chcfg w) v false) ∧
        (validChannel image c.cluster.quads.length → room →
          answers (.chcfg w) (sets v (BitVec.ofNat 128 image)) true))) ∧
    (OnceWord (.chcfgClear w) s c 20 <|
      (busy → answers (.chcfgClear w) s false) ∧ (¬ busy → answers (.chcfgClear w) (sets s 0) true)) ∧
    (let n := imm / 2 ^ 6 % 2 ^ 3
     let once := imm.testBit 9
     let sc := imm / 2 ^ 10 % 2 ^ 3
     let sends := TurnWord (.send w) s c (clocks c.act.length 2) s id fun u r =>
       match u.sendFault c.tm entry [1, 2, 3] with
       | some cause => .traps u cause 0 0
       | none =>
         if 256 ≤ (u.sendBuf.filter fun m => m.port == port).length then
           if once then .goes (u.setPred c.tm.id r w.d.toNat false) else .holds u (.sendRoom port 1)
         else if u.canCount port c.tm.job = false then .holds u (.counterSet port c.tm.job)
         else
           let v := ({ u with
             nextId := u.nextId + 1,
             sendBuf := u.sendBuf ++ [{
               id := u.nextId, port, dev := u.pod, quad := port, team := c.tm.id, rank := r, entry := ch, job := c.tm.job, image := entry,
               elems := (List.range n).map fun k => BitVec.ofNat 64 (c.val r (w.s1.toNat + 2 * k) 2), rel := sc }] } : State).count port
             c.tm.job fun k => { k with mi := (k.mi + 1) % 2 ^ 48 }
           .goes (if once then v.setPred c.tm.id r w.d.toNat true else v)
     OnceWord (.send w) s c (clocks c.act.length 2) (if imm.testBit 13 then AfterRelease (.send w) s c s sc sends else sends)) ∧
    (Runs (.recv w) s c →
      let h := imm.testBit 6
      let once := imm.testBit 7
      let acq := if imm.testBit 14 then imm / 2 ^ 11 % 2 ^ 3 else 0
      let mayTake := if h then (∃ x, (s.handlers.find? fun x => x.quad == port && x.queue == ch) = some x ∧ x.team = c.tm.id)
        else entry.toNat.testBit 124 = true ∧ entry.toNat.testBit 123 = true
      ThreadWord (.recv w) s c 4 (clocks c.act.length 2) fun u r =>
        if ¬ mayTake then .traps u .channelNotConfigured 0 0
        else if u.canCount port c.tm.job = false then .holds u (.counterSet port c.tm.job)
        else
          let v := owe (if h then u.retireHandler c.tm.id r else u) s.nextId r
          let wait : RecvWait := { ticket := s.nextId, team := c.tm.id, rank := r, d := w.d.toNat, handler := h, queue := ch, acq }
          let ahead := v.recvWaits.any fun x => x.handler == h && x.queue == ch && (v.team x.team).quad == port &&
            (h || x.team == c.tm.id) && decide ((v.team x.team).stat < 2)
          let found := if ahead then none
            else v.inbox.find? fun m => m.handler == h && m.queue == ch && (if h then m.quad == port else m.team == c.tm.id)
          let x := if once then (owe v s.nextId r).addResult s.nextId c.tm.id r (.pred (imm / 2 ^ 8 % 2 ^ 3) found.isSome) else v
          match found with
          | some m => .goes (x.giveMessage wait m.msg)
          | none =>
            .goes (if once then recvTakes x wait 0
              else { x with recvWaits := x.recvWaits ++ [wait] }))

/-- A word that owes the Active threads one value each, under one ticket (R72, R110). -/
def Sys2Proof.Spec.OwesAll (i : Instr) (s : State) (c : Ctx) (occ cls d n value : Nat) : Prop :=
  OnceWord i s c occ <| Commits i s c occ (c.act.foldl
    (fun x k => x.addRegResults s.nextId c.tm.id k (if 192 ≤ d ∧ d < 255 ∧ k ≠ c.lead then []
      else valueWrites c.tm.depth d n value fun _ => 0))
    { s with nextId := s.nextId + 1, tickets := s.tickets ++ [{ id := s.nextId, cls, team := c.tm.id, gangs := [c.gid], parts := c.act }] })

/-- The threads that wait in QUIET go on with a verdict of a wave that began after their counts, or when the job is broken
(R334). -/
def Sys2Proof.Spec.QuietEnds : Prop :=
  ∀ (s : State) (w : QuietWait), s.quiets = [w] →
    let t := s.team w.team
    let j := s.job t.job
    let verdict := (s.latches.find? fun l => l.port == t.quad && l.job == t.job).filter fun l => decide (w.wave < l.wave)
    let waits := 2 ≤ t.stat ∨ (verdict = none ∧ j.broken = false) ∨ s.canCount t.quad t.job = false
    (waits → s.serveQuiet = s) ∧
    (¬ waits → s.serveQuiet = (w.ranks.foldl (fun v r =>
      (v.addResult w.ticket w.team r (.pred w.pq (!j.broken && (verdict.map (·.kind)) == some 1))).addResult w.ticket w.team r
        (.pred w.pl (j.lossy || j.broken))) ({ s with quiets := [] } : State)).count t.quad t.job
      fun k => { k with au := (k.au + w.ranks.length) % 2 ^ 48 })

/-- A collective descriptor is valid (R339). -/
def Sys2Proof.Spec.validCollective (v : Nat) : Bool :=
  let opk := v / 2 ^ 504 % 2 ^ 4
  let rop := v / 2 ^ 500 % 2 ^ 4
  let ety := v / 2 ^ 496 % 2 ^ 4
  decide (v / 2 ^ 508 % 2 ^ 4 = 3 ∧ opk ≤ 5 ∧ rop ≤ 5 ∧ ety ≤ 8 ∧ ety ≠ 4 ∧ v / 2 ^ 480 % 2 ^ 3 = 0 ∧ v / 2 ^ 448 % 2 ^ 16 = 0 ∧
    v / 2 ^ 377 % 2 ^ 39 = 0 ∧ v / 2 ^ 313 % 2 ^ 7 = 0 ∧ v % 2 ^ 256 = 0 ∧ (opk ∈ [2, 3, 5] → rop = 0) ∧ (3 ≤ rop → ety < 5) ∧
    (v / 2 ^ 416 % 2 ^ 32 = 0 → opk = 5))

/-- QUIET, QPOLL, LOSSN, MSGH and its off form, COLL and CWAIT (R321, R323, R333 to R336, R341, R342). LOC and ROOT
beyond the group refused with 0x03, and the wave that serves QUIET, are the model's choices (log entries 104 and 57). -/
def Obligations.JobWords : Prop :=
  QuietEnds ∧ ∀ w s c,
    let port := c.tm.quad
    let imm := w.imm.toNat
    let n := c.act.length
    let q := imm % 2 ^ 4
    let flag := fun (b : Bool) (k : Nat) => if b then 2 ^ k else 0
    let latch := s.latches.find? fun l => l.port == port && l.job == c.tm.job
    let ticket := fun (cls : Nat) (parts : List Nat) => ({ id := s.nextId, cls, team := c.tm.id, gangs := [c.gid], parts } : Ticket)
    let old := s.handlers.find? fun h => h.quad == port && h.queue == q
    let others := s.handlers.filter fun h => !(h.quad == port && h.queue == q)
    let empty := (s.inbox.find? fun m => m.handler && m.queue == q && m.quad == port) = none
    let answers := fun (i : Instr) (v : State) (ok : Bool) => Commits i s c (clocks n 4) (predsTake c v w.d.toNat ok)
    (OnceWord (.quiet w) s c (clocks n 4) <|
      let sends := (s.results.filter fun r => r.team == c.tm.id && c.act.contains r.rank && match r.act with
        | .send .. => true
        | _ => false).map (·.ticket)
      if sends ≠ [] then HoldsAt (.quiet w) s c (.flights sends)
      else if s.canCount port c.tm.job = false then HoldsAt (.quiet w) s c (.counterSet port c.tm.job)
      else
        let v := s.count port c.tm.job fun k => { k with ad := (k.ad + n) % 2 ^ 48 }
        Commits (.quiet w) s c (clocks n 4) { v with
          nextId := s.nextId + 1, tickets := s.tickets ++ [ticket 6 (c.act ++ c.act)],
          quiets := s.quiets ++ [{ ticket := s.nextId, team := c.tm.id, ranks := c.act, pq := w.d.toNat, pl := imm, wave := c.job.wave }] }) ∧
    OwesAll (.qpoll w) s c (clocks n 4) 4 w.d.toNat 1 (flag c.job.broken 4 + flag c.job.lossy 3 + match latch with
      | none => 0
      | some l => l.wave % 2 ^ 16 * 2 ^ 16 + flag (l.kind == 2) 2 + flag (l.kind == 1) 1 + 1) ∧
    OwesAll (.lossn w) s c (clocks n 2) 4 w.d.toNat 4 (flag c.job.broken 63 + flag c.job.lossy 62 + min 255 c.job.noted * 2 ^ 48 +
      c.job.lossTotal % 2 ^ 48 + match c.job.notes[imm]? with
      | none => 0
      | some note => 2 ^ 96 * note.1 + 2 ^ 64 * (note.2 % 2 ^ 32)) ∧
    (OnceWord (.msgh w) s c (clocks n 4) <|
      let lgd := c.val c.lead w.s1.toNat 1
      let free := match old with
        | none => True
        | some h => h.team = c.tm.id ∧ empty
      let own := match old with
        | none => 0
        | some h => 2 ^ h.lgd
      (8 < lgd → TrapsAt (.msgh w) s c .illegalOperand 0 0) ∧
      (lgd ≤ 8 → free → slotsInUse s port - own + 2 ^ lgd ≤ 4096 → answers (.msgh w)
        { s with handlers := others ++ [{ quad := port, queue := q, team := c.tm.id, lgd }] } true) ∧
      (lgd ≤ 8 → ¬ (free ∧ slotsInUse s port - own + 2 ^ lgd ≤ 4096) → answers (.msgh w) s false)) ∧
    (OnceWord (.msghOff w) s c (clocks n 4) <|
      let mine := (∃ h, old = some h ∧ h.team = c.tm.id) ∧ empty
      (mine → answers (.msghOff w) { s with handlers := others } true) ∧ (¬ mine → answers (.msghOff w) s false)) ∧
    (OnceWord (.cwait w) s c 6 <| Commits (.cwait w) s c 6 { s with
      nextId := s.nextId + 1, tickets := s.tickets ++ [ticket 6 c.act],
      engineWaits := s.engineWaits ++ [{
        ticket := s.nextId, team := c.tm.id, ranks := c.act, act := .cwait w.q.toNat w.d.toNat,
        ids := (s.colls.filter fun k => k.team == c.tm.id && k.queue == w.q.toNat).map (·.id) }] }) ∧
    (OnceWord (.coll w) s c (clocks n 4) <| AfterRelease (.coll w) s c s 3 <|
      TurnWord (.coll w) s c (clocks n 4) s id fun u r =>
        let a := c.val r w.s1.toNat 1
        let bar := if w.d.toNat = 255 then none else some (c.val r w.d.toNat 1)
        let addresses := (a, 64) :: (bar.map fun b => (b, 16)).toList
        match (if ∃ p ∈ addresses, p.1 % p.2 ≠ 0 then some .misaligned else addresses.findSome? fun p => poolCheck c.cluster p.1) with
        | some cause => .traps u cause a 0
        | none => match objectTurn c u r a 64 with
            | (some turn, _) => turn
            | (none, v) =>
              let d := readNat (v.cluster c.tm.cluster).pool (keyOf a) 64
              let loc := d / 2 ^ 483 % 2 ^ 7
              let opk := d / 2 ^ 504 % 2 ^ 4
              if validCollective d = false then .traps v .illegalOperand a 0
              else match v.collGroups.find? fun x => x.group == d / 2 ^ 490 % 2 ^ 6 with
                | none => .traps v .unreachable a 0
                | some g =>
                  if g.c ≤ loc ∨ ((opk = 1 ∨ opk = 2) ∧ g.n ≤ d / 2 ^ 464 % 2 ^ 16) then .traps v .illegalOperand a 0
                  else if 16 ≤ (v.colls.filter fun k => k.team == c.tm.id && k.queue == w.q.toNat).length then
                    .holds v (.collRoom (c.tm.quad / 32) w.q.toNat)
                  else
                    let round := getKey g.rounds loc 0 + 1
                    .goes { v with
                      nextId := v.nextId + 1,
                      colls := v.colls ++ [{ id := v.nextId, team := c.tm.id, rank := r, queue := w.q.toNat, desc := BitVec.ofNat 512 d, bar,
                                             sys := c.gang.sys, round }],
                      collGroups := v.collGroups.map fun (x : CollGroup) =>
                        if x.group = g.group then { x with rounds := setKey x.rounds loc round 0 } else x })

/-- MESSAGE_DELIVERY (R317 to R319, R327, R328, R337): the oldest message of a channel entry reaches a receive or
handler queue with room, is refused for 64 clocks, is dropped with a loss note where the queue is not there, leaves for
a peer device, or, where it would cross a lost seam, is discarded; a record off the fabric goes to the home of its task
queue. A handler queue of another job is no destination, and how a record off the fabric goes on is chosen (log entries
107 and 78). -/
def Sys2Proof.Spec.MessageDelivered : Prop :=
  ∀ (s : State) (id : Nat),
    let row := exec (.messageDelivery id) s
    (s.sendBuf.find? (fun m => m.id == id) = none → row = .next s) ∧
    ∀ m, s.sendBuf.find? (fun m => m.id == id) = some m →
      let e := m.image.toNat
      let kind := e / 2 ^ 125 % 2 ^ 3
      let dq := e / 2 ^ 90 % 2 ^ 6
      let dch := e / 2 ^ 84 % 2 ^ 6
      let cluster := (s.team m.team).cluster
      let die := if m.port < 64 then m.port / 32 else m.port % 2
      let off := fun (x : Message) => 64 ≤ x.port
      let one := fun (x : Message) => if off m then off x ∧ x.dev = m.dev ∧ x.quad = m.quad ∧ x.image = m.image
        else ¬ off x ∧ x.team = m.team ∧ x.entry = m.entry
      let waits := s.dieClock die < m.retryAt ∨ ∃ x ∈ s.sendBuf, one x ∧ x.id < id
      let away_ := (kind = 1 ∧ ∃ q, (s.cluster cluster).quads[dq]? = some q ∧ q / 32 ≠ die) ∨ ((kind = 2 ∨ kind = 3 ∧ off m) ∧ dq / 32 ≠ die)
      let gone : State := { s with sendBuf := s.sendBuf.filter fun x => x.id != id }
      let refuses := row = .next { s with
        nextId := s.nextId + 1,
        sendBuf := s.sendBuf.map fun (x : Message) => if x.id = id then
            { x with retryAt := s.dieClock die + 64, rejects := x.rejects + 1,
                     aged := if x.aged = none ∧ 8 ≤ x.rejects + 1 then some s.nextId else x.aged }
          else x }
      let drops := fun (quad : Nat) => row = .next { gone with lossNotes := s.lossNotes ++ [(m.job, 1, s.pod * 2 ^ 22 + quad)] }
      let takes := fun (q : Queued) (depth : Nat) =>
        let used := (s.inbox.filter fun x => x.handler == q.handler && x.queue == q.queue && x.quad == q.quad && x.team == q.team).length
        if depth ≤ used + s.agedFor q m then refuses else row = .next { gone with inbox := s.inbox ++ [q] }
      (waits → row = .next s) ∧
      (¬ waits → away_ → s.spans = false → row = .next gone) ∧
      (¬ waits → ¬ (away_ ∧ s.spans = false) →
        (kind = 1 → match s.teams.find? fun t => t.cluster == cluster && t.idx == dq with
          | none => drops m.port
          | some t =>
            let d := (t.chans.getD dch 0).toNat
            if t.retired = true ∨ d.testBit 124 = false ∨ d.testBit 123 = false then drops t.quad
            else if 2 ≤ t.stat then refuses
            else takes { quad := t.quad, team := t.id, queue := dch, msg := m } (2 ^ (d / 2 ^ 120 % 2 ^ 3))) ∧
        (kind = 2 ∨ kind = 3 ∧ off m → match s.handlers.find? fun h => h.quad == dq && h.queue == dch with
          | none => drops dq
          | some h => takes { quad := h.quad, handler := true, queue := h.queue, msg := m } (2 ^ h.lgd)) ∧
        (kind = 4 → off m →
          let va := e % 2 ^ 64 % 2 ^ 57
          if ∃ r ∈ s.reqs, r.src = m.port + 4 ∧ r.va = va then row = .next s
          else match s.translate (s.job m.job).asid va false { r := true, w := true, a := true } with
            | (.fail cause info, u) =>
              if (Trans.fail cause info).holds va then row = .next ((u.notePage (s.job m.job).asid va 3).refuseMessage m)
              else row = .next { u with sendBuf := u.sendBuf.filter fun x => x.id != id
                                        lossNotes := u.lossNotes ++ [(m.job, 1, u.pod * 2 ^ 22 + m.port)] }
            | (.ok pa leaf, u) => row = .next (({ u with sendBuf := u.sendBuf.filter fun x => x.id != id } : State).postReqs
                [{ job := m.job, asid := (s.job m.job).asid, va, pa, leaf, sc := 3, src := m.port + 4,
                   op := .spawn [BitVec.ofNat 128 ((m.elems.getD 0 0).toNat + 2 ^ 64 * (m.elems.getD 1 0).toNat)] [] none }])) ∧
        (kind ≠ 1 → kind ≠ 2 → ¬ off m → row = .next { gone with
          outputs := s.outputs ++ [.message (e / 2 ^ 96 % 2 ^ 10) m.quad m.rank m.image m.job m.elems] }))

/-- A job's record changes. -/
def Sys2Proof.Spec.changeJob (s : State) (job : Nat) (f : Job → Job) : State :=
  { s with jobs := s.jobs.map fun (x : Job) => if x.id = job ∧ x.closed = false then f x else x }

/-- CURFEW_WAVE, COUNTER_SET_SAMPLE, WAVE_PASS_B, WAVE_VERDICT and LOSS_NOTE (R322 to R328, R335, R380): every 20 µs the root
sums the counter sets of the job that it reaches twice; equal sums, with no change between and no activity, give a verdict
that each port with a set latches, quiet where every message was consumed or noted lost, idle otherwise. What the sets of
other devices add is free (model's choice, log entry 28). -/
def Obligations.CurfewEvents : Prop :=
  ∀ (s : State) (job set count reporter : Nat),
    let rows := [.curfewWave job, .counterSetSample job set, .wavePassB job, .waveVerdict job]
    let note : State := { s with lossNotes := s.lossNotes.erase (job, count, reporter) }
    (s.job? job = none → (∀ i ∈ rows, exec i s = .next s) ∧ exec (.lossNote job count reporter) s = .next note) ∧
    ∀ j, s.job? job = some j →
      let places := (((s.sets.filter fun k => k.job == job).map (·.port)).filter fun p =>
        let die := if p < 64 then p / 32 else p % 2
        s.dieUp die = true ∧ (die = j.root ∨ s.seam = true))
      let runs := s.dieUp j.root = true ∧
        ((∃ g ∈ s.grids, g.job = j.id ∧ g.status = none) ∨ ∃ w ∈ s.quiets, (s.team w.team).job = j.id)
      let begins := j.phase = 0 ∧ runs ∧ j.stands = none ∧ j.waveAt + j.period * 2400 * 45045 ≤ s.now
      let through := ∀ p ∈ j.due, p ∉ places
      let peers := ¬ ∀ d ∈ j.devices, d = s.pod
      -- the other devices' sums are free, but none has lowered more activity than it raised, and they have consumed no more
      -- beyond what they injected than has left this device for them and is not lost
      let any := fun (i : Nat) => Config.freeValue (s.fresh + i)
      let minus := fun (a n : Nat) => (a + 2 ^ 48 - n % 2 ^ 48) % 2 ^ 48
      let came := (((s.sets.filter fun c => c.job == job && (c.port == 64 || c.port == 65)).map fun c => c.mi)).sum
      let far := if ¬ peers then [0, 0, 0, 0] else
        [any 0 % 2 ^ 48, minus (any 0 % 2 ^ 48 + j.sentOff) (any 1 % 2 ^ 47 + came + j.lostOff), any 2 % 2 ^ 48, minus (any 2 % 2 ^ 48) (any 3 % 2 ^ 47)]
      let changedFar := decide (peers ∧ any 4 % 2 = 1)
      let more := fun (xs : List Nat) => List.zipWith (fun a b => (a + b) % 2 ^ 48) xs far
      let asked : State := if peers then { s with fresh := s.fresh + 5 } else s
      (begins → exec (.curfewWave job) s = .next (changeJob s job fun x =>
        { x with wave := x.wave + 1, phase := 1, due := places, sampled := [], sumA := [0, 0, 0, 0], sumB := [0, 0, 0, 0], xA := false, xB := false,
                 waveAt := s.now })) ∧
      (¬ begins → exec (.curfewWave job) s = .next s) ∧
      -- the timer stands while there is nothing for it to run for, and goes on from there
      ((s.jobs.filter fun x => x.id == job && !x.closed) = [j] → s.serveTimers.job? job = some
        { j with stands := if runs then none else some (j.stands.getD s.now),
                 waveAt := if runs then j.waveAt + (s.now - j.stands.getD s.now) else j.waveAt }) ∧
      (let sampled := s.sets.find? fun k => k.port == set && k.job == job
       let due := sampled ≠ none ∧ (j.phase = 1 ∨ j.phase = 3) ∧ set ∉ j.sampled ∧ set ∈ places
       (¬ due → exec (.counterSetSample job set) s = .next s) ∧
       ∀ k, due → sampled = some k →
        let plus := fun (xs : List Nat) => List.zipWith (fun a b => (a + b) % 2 ^ 48) xs [k.mi, k.mc, k.au, k.ad]
        exec (.counterSetSample job set) s = .next (changeJob { s with
            sets := s.sets.map fun (x : CounterSet) => if x.port = set ∧ x.job = job then { x with chg := false } else x } job fun x =>
          { x with due := x.due.filter fun p => p != set, sampled := set :: x.sampled,
                   sumA := if x.phase = 1 then plus x.sumA else x.sumA, sumB := if x.phase = 3 then plus x.sumB else x.sumB,
                   xA := if x.phase = 1 then x.xA || k.chg else x.xA, xB := if x.phase = 3 then x.xB || k.chg else x.xB })) ∧
      (j.phase = 1 → through → exec (.wavePassB job) s = .next (changeJob asked job fun x =>
        { x with phase := 3, due := places, sampled := [], sumA := more x.sumA, xA := x.xA || changedFar })) ∧
      (¬ (j.phase = 1 ∧ through) → exec (.wavePassB job) s = .next s) ∧
      (¬ (j.phase = 3 ∧ through) → exec (.waveVerdict job) s = .next s) ∧
      (j.phase = 3 → through →
        let b := more j.sumB
        let changed := j.xB = true ∨ changedFar = true
        let same := j.sumA = b ∧ ¬ changed ∧ b.getD 2 0 = b.getD 3 0
        let quiet := same ∧ b.getD 0 0 = (b.getD 1 0 + j.lossTotal) % 2 ^ 48
        let v := changeJob asked job fun x => { x with phase := 0, due := [] }
        let latched := fun (kind : Nat) => { v with
          latches := (s.latches.filter fun l => !(l.job == job && places.contains l.port)) ++
            places.map fun p => ({ port := p, job, wave := j.wave, kind } : Latch) }
        (¬ same → exec (.waveVerdict job) s = .next v) ∧
        (same → ¬ quiet → exec (.waveVerdict job) s = .next (latched 2)) ∧
        (quiet → exec (.waveVerdict job) s = .next { latched 1 with
          grids := s.grids.map fun (g : Grid) => if g.job = job ∧ g.pers = false then { g with progress := s.now } else g })) ∧
      exec (.lossNote job count reporter) s = .next (changeJob note job fun x =>
        { x with lossTotal := (x.lossTotal + count) % 2 ^ 48, lossy := true, noted := x.noted + 1,
                 lostOff := if reporter / 2 ^ 22 = s.pod then x.lostOff else x.lostOff + count,
                 notes := if x.notes.length < 16 then x.notes ++ [(reporter, count)] else x.notes })

/-- The pairwise combination of one round of a reduction (R340). -/
def Sys2Proof.Spec.pairUp (f : Nat → Nat → Nat) : List Nat → List Nat
  | a :: b :: xs => f a b :: pairUp f xs
  | xs => xs

/-- The reduction of one element (R340): integers exactly, and every type by rounds of neighbouring pairs, FP16, BF16 and
FP32 in FP32 and FP64 in itself, rounded once at the end. -/
def Sys2Proof.Spec.Reduction : Prop :=
  ∀ (t rop : Nat) (xs : List Nat), xs ≠ [] →
    (t < 4 → let w := if t < 2 then 32 else 64
      let signed := fun (x : Nat) => (BitVec.ofNat w x).toInt
      let r := collReduce t rop xs
      (∀ x ∈ xs, x < 2 ^ w) → r < 2 ^ w ∧
        (rop = 0 → r = xs.sum % 2 ^ w) ∧
        (rop = 1 → r ∈ xs ∧ ∀ x ∈ xs, if t % 2 = 0 then signed r ≤ signed x else r ≤ x) ∧
        (rop = 2 → r ∈ xs ∧ ∀ x ∈ xs, if t % 2 = 0 then signed x ≤ signed r else x ≤ r) ∧
        (∀ i, (rop = 3 → (r.testBit i = true ↔ ∀ x ∈ xs, x.testBit i = true)) ∧
          (rop = 4 → (r.testBit i = true ↔ ∃ x ∈ xs, x.testBit i = true)) ∧
          (rop = 5 → (r.testBit i = true ↔ (xs.filter fun x => x.testBit i).length % 2 = 1)))) ∧
    (5 ≤ t → t ≤ 8 → rop < 3 →
      let g := if t = 6 then fp64 else fp32
      let f := fun (a b : Nat) => atomicOp (9 + rop) (if t = 6 then 8 else 4) a b
      ∃ tree : List Nat → Nat, (∀ x, tree [x] = x) ∧ (∀ ys, 2 ≤ ys.length → tree ys = tree (pairUp f ys)) ∧
        collReduce t rop xs = reformat g (fmtOf t) (tree (xs.map (reformat (fmtOf t) g))))

/-- The end of a collective command (R193, R253, R342): where the region line of its barrier object serves, the command
leaves its queue and the object takes its bytes or its fault; a fault, or an object that is none, is in the queue's record. -/
def Sys2Proof.Spec.commandEnds (u : State) (k : CollCommand) : State :=
  match k.ended with
  | none => u
  | some (n, cause) =>
    let cid := (u.team k.team).cluster
    match u.objectsFor cid 16 k.sys k.bar.toList with
    | (some line, w) => { w with colls := w.colls.map fun (x : CollCommand) => if x.id = k.id then { x with waits := some line } else x }
    | (none, w) =>
      let w1 : State := { w with colls := w.colls.filter fun x => x.id != k.id }
      let record := fun (w : State) (c : Nat) => w.collFault k.team k.queue c
      let valid := ∀ b, k.bar = some b → w1.poolNat cid (keyOf b) 16 / 2 ^ 4 % 2 ^ 4 = 0xA
      let w2 := match cause with | some c => record w1 c | none => if valid then w1 else record w1 0x29
      match k.bar with
      | none => w2
      | some b => if ¬ valid then w2 else if cause = none then w2.deliverBytes cid (keyOf b) n else w2.deliverFault cid (keyOf b)

/-- COLLECTIVE_COMPLETION (R338 to R343): a match whose local commands all head their queues goes stage by stage: each
contribution is read line by line, each result is written line by line, then the barrier objects take their bytes. Where
a member is lost, the seam is, the descriptors disagree or a range does not translate, all commands end faulted, with
the cause of the lowest rank that faulted. Other devices' contributions are free. Free contributions, and objects that
cannot take FLT being left out, are the model's choices (log entries 29 and 100). -/
def Obligations.CollectiveEvents : Prop :=
  Reduction ∧ ∀ (s : State) (group round : Nat) (lost : Bool),
    let row := exec (.collectiveCompletion group round lost) s
    let mine := fun (k : CollCommand) => k.desc.toNat / 2 ^ 490 % 2 ^ 6 == group && k.round == round
    let ended := s.colls.filter fun k => mine k && k.ended.isSome
    let at_ := fun (g : CollGroup) (loc : Nat) => s.colls.find? fun k =>
      k.desc.toNat / 2 ^ 490 % 2 ^ 6 == g.group && k.desc.toNat / 2 ^ 483 % 2 ^ 7 == loc && k.round == round
    (ended ≠ [] → row = .next (ended.foldl commandEnds s)) ∧
    (ended = [] → s.collGroups.find? (fun x => x.group == group) = none → row = .next s) ∧
    ∀ g, ended = [] → s.collGroups.find? (fun x => x.group == group) = some g →
      let heads := ∀ loc < g.c, ∃ k, at_ g loc = some k ∧ ∀ x ∈ s.colls, x.team = k.team → x.queue = k.queue → k.id ≤ x.id
      (¬ heads ∨ g.c = 0 → row = .next s) ∧
      ∀ first rest, heads → (List.range g.c).filterMap (at_ g) = first :: rest →
        let cmds := first :: rest
        let v := first.desc.toNat
        let opk := v / 2 ^ 504 % 2 ^ 4
        let size := if v / 2 ^ 496 % 2 ^ 4 ∈ [7, 8] then 2 else if v / 2 ^ 496 % 2 ^ 4 ∈ [2, 3, 6] then 8 else 4
        let count := v / 2 ^ 416 % 2 ^ 32
        let root := v / 2 ^ 464 % 2 ^ 16
        let rank := fun (loc : Nat) => g.c * g.members.findIdx (· == s.pod) + loc
        let srcBytes := fun (k : Nat) => if opk = 2 then (if k = root then count * size else 0) else if opk = 4 then g.n * count * size
          else if opk = 5 then 0 else count * size
        let dstBytes := fun (k : Nat) => if opk = 1 then (if k = root then count * size else 0) else if opk = 3 then g.n * count * size
          else if opk = 5 then 0 else count * size
        let src := fun (k : CollCommand) => k.desc.toNat / 2 ^ 256 % 2 ^ 57
        let dst := fun (k : CollCommand) => k.desc.toNat / 2 ^ 320 % 2 ^ 57
        let key := fun (x : Nat) => (x / 2 ^ 496 % 2 ^ 12, x / 2 ^ 416 % 2 ^ 32, x / 2 ^ 464 % 2 ^ 16)
        let fails := fun (u : State) (cause : Nat) => row = .next { u with colls := u.colls.map fun (x : CollCommand) =>
          if (cmds.any fun k => k.id == x.id) = true ∧ x.ended = none then { x with ended := some (0, some cause) } else x }
        let split := s.dies = 2 ∧ s.seam = false
        let mixed := ∃ k ∈ rest, key k.desc.toNat ≠ key v
        let waits := ∃ k ∈ cmds, ∃ i ∈ k.reqs, ∃ r ∈ s.reqs, r.id = i
        let range := fun (u : State) (k : CollCommand) (need : Need) (va n : Nat) =>
          u.leafRuns (u.job (u.team k.team).job).asid k.sys need (n / 65536 + 2) va n
        let check := fun (x : Option Nat × State) (k : CollCommand) (need : Need) (va n : Nat) => if x.1 = none then
            match range x.2 k need va n with
            | (.error cause, u) => (some cause.code, u)
            | (.ok _, u) => (none, u)
          else x
        let ranked := cmds.mapIdx fun loc k => (k, rank loc)
        let checked := ranked.foldl (fun x p => check (check x p.1 { r := true } (src p.1) (srcBytes p.2)) p.1 { w := true }
          (dst p.1) (dstBytes p.2)) (none, s)
        let stage := first.stage
        let sends := fun (u : State) (k : CollCommand) (n : Nat) (rs : List HomeReq) =>
          let v := u.postReqs rs
          { v with colls := v.colls.map fun (x : CollCommand) =>
              if x.id = k.id then { x with stage := n, reqs := (List.range rs.length).map (u.nextId + ·) } else x }
        (lost = true → fails s 0x31) ∧
        (lost = false → split → fails s 0x3F) ∧
        (lost = false → ¬ split → mixed → fails s 0x03) ∧
        (lost = false → ¬ split → ¬ mixed → waits → row = .next s) ∧
        (lost = false → ¬ split → ¬ mixed → ¬ waits →
          (stage ≤ 1 → ∀ cause, checked.1 = some cause → fails checked.2 cause) ∧
          (stage = 0 → checked.1 = none → row = .next (ranked.foldl (fun u p =>
            match range u p.1 { r := true } (src p.1) (srcBytes p.2) with
            | (.ok runs, w) => sends w p.1 1 (collReadReqs w p.1 0 runs)
            | (.error _, w) => w) checked.2)) ∧
          (stage = 1 → checked.1 = none →
            let read := checked.2.collGather g v cmds g.n 0
            let elem := fun (i : Nat) => collReduce (v / 2 ^ 496 % 2 ^ 4) (v / 2 ^ 500 % 2 ^ 4) (read.1.map fun bs =>
              if i < bs.length / size then fromBytes ((bs.drop (size * i)).take size) else 0)
            let from_ := fun (lo : Nat) => (List.range count).flatMap fun i => toBytes size (elem (lo + i))
            let out := fun (k : Nat) => match opk with
              | 0 => from_ 0
              | 1 => if k = root then from_ 0 else []
              | 2 => read.1.getD root []
              | 3 => (read.1.take g.n).flatten
              | 4 => from_ (k * count)
              | _ => []
            row = .next (ranked.foldl (fun u p =>
              match range u p.1 { w := true } (dst p.1) (out p.2).length with
              | (.ok runs, w) => sends w p.1 2 (collWriteReqs w p.1 (dst p.1) runs (out p.2))
              | (.error _, w) => w) read.2)) ∧
          (2 ≤ stage → row = .next (ranked.foldl (fun (u : State) p => { u with colls := u.colls.map fun (x : CollCommand) =>
            if x.id = p.1.id then { x with ended := some (dstBytes p.2, none) } else x }) s)))

/-! ### The system level -/

/-- A word's Active threads are owed results of class `cls` under the ticket numbered `s.nextId` (R72). -/
def Sys2Proof.Spec.owedBy (c : Ctx) (s : State) (cls : Nat) (parts : List Nat) : State :=
  { s with nextId := s.nextId + 1, tickets := s.tickets ++ [{ id := s.nextId, cls, team := c.tm.id, gangs := [c.gid], parts }] }

/-- The Active threads' common result under a ticket, in `n` registers from `d` on; a g register takes it once (R110). -/
def Sys2Proof.Spec.giveAll (c : Ctx) (ticket : Nat) (v : State) (d n value : Nat) : State :=
  c.act.foldl (fun x k => x.addRegResults ticket c.tm.id k (if 192 ≤ d ∧ d < 255 ∧ k ≠ c.lead then []
    else valueWrites (x.team c.tm.id).depth d n value fun _ => 0)) v

/-- A long word whose first failing thread traps precisely; the threads ranked below it are owed their results (R87). -/
def Sys2Proof.Spec.LongTraps (i : Instr) (s : State) (c : Ctx) (cls : Nat) (srcs : List (Nat × Nat)) (d n : Nat) (f : Nat → List Nat → AluOut) : Prop :=
  ∀ below r above cause, SourcesReady c s srcs →
    (d < 256 ∨ s.sendFault c.tm (c.tm.chans.getD (d - 256) 0) [1, 2, 3] = none) → c.act = below ++ r :: above →
    let os := resultsOf (only c below) s srcs f
    let g := gatherSrcs c srcs s below
    let owed := owedActs (only c below) d n os
    (∀ o ∈ os, o.trap = none) → (f r (readSrcs c r g.2 srcs).1).trap = some cause →
    let u : State := { g.2 with
      nextId := s.nextId + 1 + owed.length
      tickets := s.tickets ++ (if below = [] then []
        else [{ id := s.nextId, cls := cls, team := c.tm.id, gangs := [c.gid], parts := owed.map (·.1) }])
      results := s.results ++ owed.mapIdx fun k a =>
        ({ id := s.nextId + 1 + k, ticket := s.nextId, team := c.tm.id, rank := a.1, act := a.2 } : LongResult) }
    exec i s = .next (u.takeTrap c.gid (some cause) (c.gang.done ++ below) (c.act.filter fun q => !below.contains q)
      c.gang.word 0 0 c.gang.nextPc)

/-- The resident team that a handle names (R378). -/
def Sys2Proof.Spec.named (s : State) (h : Nat) : Option Team :=
  if h < 2 ^ 8 then s.teams.find? fun t => t.quad == h % 2 ^ 6 && t.slot == h / 2 ^ 6 && !t.retired && t.stat != 3 else none

/-- The saved team that a handle still names (R378, R387). -/
def Sys2Proof.Spec.savedAs (s : State) (h : Nat) : Option Team :=
  s.saved.findSome? fun k => s.teams.find? fun t =>
    t.cluster == k.cluster && !t.retired && t.stat == 3 && k.quads.getD t.idx 64 == h % 64 && t.slot == h / 64

/-- The value of state `n` under a handle; none where the number is reserved or the handle names nothing (R365, R378). -/
def Sys2Proof.Spec.stateValue (c : Ctx) (s : State) (n : Nat) (h : Option Nat) : Option Nat :=
  let team := match h with
    | none => some c.tm.id
    | some x => (named s x).map fun (t : Team) => t.id
  let job := match h with
    | none => (s.job? c.tm.job).map fun (j : Job) => j.id
    | some x => if x < 2 ^ 12 then (s.job? x).map (fun (j : Job) => j.id) else none
  let quad := match h with
    | none => some c.tm.quad
    | some x => if x < 64 ∧ s.hasQuad x = true then some x else none
  if n ≤ 4 then team.map fun t => (s.eventNow (s.team t) n).toNat
  else if n = 0x10 then (team.orElse fun _ => (h.bind (savedAs s)).map fun (t : Team) => t.id).map fun t => (s.team t).stat
  else if n = 0x12 then team.map fun t => (s.team t).halt.toNat + fromBits 16 fun b => decide (8 ≤ b) &&
    (s.team t).halt.toNat.testBit (b - 8) && s.threads.all fun x => x.team != t || x.ended || x.role.toNat != b - 8 || x.haltPc.isSome
  else if 0x100 ≤ n ∧ n ≤ 0x104 then if h = none then some (match c.gang.trap with
    | none => 0
    | some x => [x.tpc % 2 ^ 57, x.taddr, posMask x.members x.tmask, x.tinfo, x.tres % 2 ^ 57].getD (n - 0x100) 0) else none
  else if 0x200 ≤ n ∧ n ≤ 0x203 then job.map fun j => (s.job j).vectors.getD (n - 0x200) 0 % 2 ^ 57
  else if n = 0x204 then job.map fun j => (s.now - (s.job j).born) * 5 / (12 * 45045)
  else if n = 0x300 then if h = none then some (if s.detailed then 1 else 0) else none
  else if 0x310 ≤ n ∧ n ≤ 0x317 then quad.map fun q => if s.detailed then getKey s.counters (8 * q + (n - 0x310)) 0 % 2 ^ 64 else 0
  else none

/-- A write of state `n`, named in `s0`, by the access codes of its fields (R153, R363, R378). -/
def Sys2Proof.Spec.stateWrite (c : Ctx) (s0 s : State) (n : Nat) (h : Option Nat) (v : Nat) : State :=
  let team := match h with
    | none => c.tm.id
    | some x => ((named s0 x).map fun (t : Team) => t.id).getD 0
  let job := match h with
    | none => c.tm.job
    | some x => x
  if n ≤ 4 then { s with teams := s.teams.map fun (t : Team) => if t.id = team then
      { t with events := t.events.set n (BitVec.ofNat 64 (fromBits 64 fun b => if b = 0 then (s.eventNow t n).toNat.testBit 0 && !v.testBit 0 else v.testBit b)),
               winAt := t.winAt.set n (s.coreCount (4 * t.quad)) } else t }
  else if n = 0x12 then s.writeHalt team (v % 2 ^ 8)
  else if 0x200 ≤ n ∧ n ≤ 0x203 then { s with
    jobs := s.jobs.map fun (j : Job) => if j.id = job ∧ j.closed = false then { j with vectors := j.vectors.set (n - 0x200) (v % 2 ^ 57) } else j }
  else if 0x310 ≤ n ∧ n ≤ 0x317 ∧ s.detailed = true ∧ v = 0 then
    { s with counters := setKey s.counters (8 * (match h with
      | none => c.tm.quad
      | some x => x) + (n - 0x310)) 0 0 }
  else s

/-- A side-log entry's header (R372). -/
def Sys2Proof.Spec.sideHeader (s : State) (e : SideEntry) : Nat :=
  let ao := match e.req.op with
    | .atomic ao .. => ao
    | _ => 0
  (if e.req.kind = 4 ∨ e.req.kind = 5 then 0 else e.req.va / 128 * 128 % 2 ^ 57) + 2 ^ 77 + 2 ^ 78 * (if s.entryHeld e then 1 else 0) +
    2 ^ 79 * e.cause + 2 ^ 87 * e.req.kind + 2 ^ 91 * (e.req.job % 2 ^ 12) + 2 ^ 103 * (e.req.asid % 2 ^ 9) + 2 ^ 112 * (e.req.group % 2 ^ 16) +
    2 ^ 128 * (e.sight % 2 ^ 56) + 2 ^ 188 * ao + 2 ^ 192 * e.att + 2 ^ 208 * (e.bytes % 2 ^ 16) + 2 ^ 224 * e.seq

/-- CAPR, STATR, STATW, SLOGR, SLOGP, HALT and WDOG (R375 to R379, R382, R390). Trap states that read 0, a drop that
ends the entry's replay, and the filing of halted threads are the model's choices (log entries 71, 72 and 74). -/
def Obligations.StateWords : Prop :=
  ∀ w s c,
    let n := c.act.length
    let num := w.imm.toNat % 2 ^ 16
    let handle := fun r => if w.s1.toNat = 255 then none else some (c.val r w.s1.toNat 1)
    let value := fun r => c.val r w.s2.toNat 2
    let reads := fun (i : Instr) (cls : Nat) (srcs : List (Nat × Nat)) (d regs : Nat) (f : Nat → List Nat → AluOut) =>
      Runs i s c → LongWordResult i s c cls srcs d regs (clocks n 2) f ∧ LongTraps i s c cls srcs d regs f
    reads (.capr w) 1 [(w.s1.toNat, 1)] w.d.toNat 4 (fun _ xs =>
      if src xs 0 % 16 ≠ 0 then { trap := some .misaligned } else { val := fromBytes ((s.capList.drop (src xs 0)).take 16) }) ∧
    reads (.statr w) 5 [] w.d.toNat 2 (fun r _ => match stateValue c s num (handle r) with
      | none => { trap := some .illegalOperand }
      | some v => { val := v }) ∧
    reads (.slogr w) 5 [(w.s1.toNat, 1), (w.s2.toNat, 1)] w.d.toNat 8 (fun _ xs =>
      if 66 < src xs 0 ∨ 511 < src xs 1 then { trap := some .illegalOperand }
      else { val := ((s.side.find? fun e => e.log == src xs 0 && e.slot == src xs 1).map (sideHeader s)).getD 0 }) ∧
    (Runs (.statw w) s c → ThreadWord (.statw w) s c 5 (clocks n 2) fun u r =>
      if stateValue c s num (handle r) = none then .traps u .illegalOperand 0 0
      else .goes ((stateWrite c s (owe u s.nextId r) num (handle r) (value r)).addResult s.nextId c.tm.id r .nothing)) ∧
    (Runs (.halt w) s c → ThreadWord (.halt w) s c 5 (clocks n 2) fun u r =>
      match (if w.s1.toNat = 255 then some c.tm else named u (c.val r w.s1.toNat 1)) with
      | none => .traps u .illegalOperand 0 0
      | some t => .goes (((owe u s.nextId r).addResult s.nextId c.tm.id r .nothing).writeHalt t.id (value r % 2 ^ 8))) ∧
    (let log := fun r => c.val r w.s1.toNat 1
     let idx := fun r => c.val r w.s2.toNat 1
     let word := fun (i : Instr) (all : Bool) (f : State → Nat → List SideEntry → State) =>
       Runs i s c → ThreadWord i s c 5 (clocks n 4) fun u r =>
         if 66 < log r ∨ (all = false ∧ 511 < idx r) then .traps u .illegalOperand 0 0
         else .goes (f (owe u s.nextId r) r (u.side.filter fun e => e.log == log r && (all || e.slot == idx r)))
     let replays := fun (u : State) (r : Nat) (es : List SideEntry) =>
       let mark := { u with side := u.side.map fun (e : SideEntry) => if es.contains e then { e with due := true } else e }
       let v := mark.tryLog (log r)
       { v with engineWaits := v.engineWaits ++ [{ ticket := s.nextId, team := c.tm.id, ranks := [r], ids := es.map (·.req.id), act := .replays }] }
     word (.slogpReplay w) false replays ∧ word (.slogpAll w) true replays ∧
     word (.slogpDrop w) false fun u r es => ({ u with
       side := u.side.filter fun e => !(e.log == log r && e.slot == idx r),
       busy := u.busy.filter fun b => !es.any fun e => e.req.id == b.req,
       reqs := u.reqs.filter fun q => !(q.replay && es.any fun e => e.req.id == q.id) } : State).addResult s.nextId c.tm.id r .nothing) ∧
    (OnceWord (.wdog w) s c (clocks n 2) <|
      let id := c.val c.lead w.s1.toNat 1 % 2 ^ 12
      let v := c.val c.lead w.s2.toNat 2
      match s.job? id with
      | none => TrapsAt (.wdog w) s c .illegalOperand 0 0
      | some j =>
        let next := fun (old : Nat) => fromBits 64 fun b =>
          if b = 24 ∨ (16 ≤ b ∧ b ≤ 20) ∨ (32 ≤ b ∧ b ≤ 39) then v.testBit b else if b = 25 then old.testBit 25 && !v.testBit 25 else old.testBit b
        let x : State := { owedBy c s 5 c.act with
          jobs := if w.s2.toNat = 255 then s.jobs
            else s.jobs.map fun (y : Job) => if y.id = id ∧ y.closed = false then { y with wdog := BitVec.ofNat 64 (next y.wdog.toNat) } else y }
        Commits (.wdog w) s c (clocks n 2) (giveAll c s.nextId x w.d.toNat 2
          (fromBits 64 fun b => if b = 26 then j.heldSince.isSome else j.wdog.toNat.testBit b)))

/-- TLBI's effect (R370, R371, R374): translations of the address, the address space or all go, and with them the faults
noted; what is held on those pages tries again; side-log entries of those pages are due. -/
def Sys2Proof.Spec.TranslationsGo : Prop :=
  ∀ (s : State) (kind asid va : Nat),
    let big := ∃ e, s.walk asid va = .ok (e, true)
    let page := fun (a p : Nat) => kind = 2 ∨ (a = asid ∧ (kind = 1 ∨ p = va / 2 ^ 16 ∨ (big ∧ p / 2 ^ 13 = va / 2 ^ 29)))
    let u := s.tlbiPerform kind asid va
    u = { s with tlb := u.tlb, pageFaults := u.pageFaults, gangs := u.gangs, clusters := u.clusters, side := u.side } ∧
    (∀ t, t ∈ u.tlb ↔ t ∈ s.tlb ∧
      ¬ (kind = 2 ∨ (t.asid = asid ∧ (kind = 1 ∨ t.page = va / 2 ^ 16 ∨ (t.large = true ∧ t.page / 2 ^ 13 = va / 2 ^ 29))))) ∧
    (∀ p, p ∈ u.pageFaults ↔ p ∈ s.pageFaults ∧ ¬ page p.1 p.2.1) ∧
    u.clusters = s.clusters.map (fun (c : Cluster) => if kind = 2 ∨ (s.job c.job).asid = asid then
      { c with lines := c.lines.map fun (l : RegionLine) => { l with missing := false } } else c) ∧
    List.Forall₂ (fun (e e' : SideEntry) => (page e.req.asid (e.req.va / 2 ^ 16) → e' = { e with due := true }) ∧
      (¬ page e.req.asid (e.req.va / 2 ^ 16) → e' = e)) s.side u.side ∧
    List.Forall₂ (fun (g g' : Gang) =>
      (∀ a v, g.fetchHold = some (a, v) → page a (v / 2 ^ 16) → g'.fetchHold = none) ∧
      ((∀ a v, g.fetchHold = some (a, v) → ¬ page a (v / 2 ^ 16)) → g'.fetchHold = g.fetchHold) ∧
      (∀ a v, g.status = .held (.page a v) → page a (v / 2 ^ 16) → g'.status = .held (.flights [])) ∧
      (∀ a v, g.status = .stopped (some (.page a v)) → page a (v / 2 ^ 16) → g'.status = .stopped (some (.flights []))) ∧
      ((∀ a v, g.status = .held (.page a v) ∨ g.status = .stopped (some (.page a v)) → ¬ page a (v / 2 ^ 16)) → g'.status = g.status) ∧
      g' = { g with fetchHold := g'.fetchHold, status := g'.status }) s.gangs u.gangs

/-- TLBI in its three forms (R371), and PAGE_FAULT_REJECT (R370): every gang held on the page for its word, its fetch or
a line traps precisely, and the queue words whose home step holds on it are refused; a record off the fabric is dropped
with a loss note (model's choice, log entry 78). TADDR of a rejected fetch, the page with WORD 0, is the model's choice
(log entry 47). -/
def Obligations.TranslationRows : Prop :=
  TranslationsGo ∧
  (∀ w s c, ∀ p ∈ ([(0, .tlbiVa), (1, .tlbiAsid), (2, .tlbiAll)] : List (Nat × (FmtE → Instr))),
    let occ := clocks c.act.length (if p.1 = 0 then 2 else 4)
    let asid := if p.1 = 2 then 0 else c.val c.lead w.s1.toNat 1
    let va := if p.1 = 0 then c.val c.lead w.s2.toNat 2 else 0
    OnceWord (p.2 w) s c occ <|
      (512 ≤ asid → TrapsAt (p.2 w) s c .illegalOperand 0 0) ∧
      (asid < 512 → ∃ ids : List Nat, (∀ id, id ∈ ids ↔ fenced c s false id ∨ ∃ e ∈ s.side, e.req.id = id ∧
          e.req.team = c.tm.id ∧ e.req.rank ∈ c.act ∧ e.req.back = false ∧ e.req.cmd = none) ∧
        let first := c.gang.members.headD 0
        Commits (p.2 w) s c occ { owedBy c s 5 [first] with
          engineWaits := s.engineWaits ++ [{ ticket := s.nextId, team := c.tm.id, ranks := [first], ids, act := .tlbi p.1 asid va }] })) ∧
  ∀ (s : State) (asid page : Nat),
    let noted := ∃ p ∈ s.pageFaults, p.1 = asid ∧ p.2.1 = page
    (¬ noted → exec (.pageFaultReject asid page) s = .next s) ∧
    (noted →
      let info := match s.walk asid (page * 2 ^ 16) with
        | .error (level, bad) => level + (if bad then 256 else 0)
        | .ok _ => 2
      let hit := fun (a v : Nat) => decide (a = asid ∧ v / 2 ^ 16 = page)
      let rest := fun (g : Gang) => g.members.filter fun r => !g.done.contains r
      let held := fun (u : State) (g : Gang) (v : Nat) => u.takeTrap g.id (some .notPresent) g.done (u.remaining g) g.word v info g.nextPc
      let stops := fun (u : State) (g : Gang) => match g.status, g.fetchHold with
        | .held (.page a v), _ => if hit a v then held u g v else u
        | .stopped (some (.page a v)), _ => if hit a v then
            (held u g v).updGang g.id fun x => if x.status = .fetch then { x with status := .stopped none } else x
          else u
        | _, some (a, v) => if hit a v then (u.updGang g.id fun x => { x with fetchHold := none }).takeTrap g.id (some .notPresent) g.done
            (rest g) g.word v info g.pc else u
        | _, none => u
      let u := s.gangs.foldl stops { s with pageFaults := s.pageFaults.filter fun p => !(p.1 == asid && p.2.1 == page) }
      let v := u.clusters.foldl (fun x k => if (x.job k.job).asid ≠ asid then x
        else k.lines.foldl (fun x l => match k.mapping l.line with
          | some (_, _, va) => if l.missing = true ∧ va / 2 ^ 16 = page then x.failLine k.id l .notPresent info else x
          | none => x) x) u
      let gone := v.reqs.filter fun r => r.asid == asid && match r.holdVa with
        | some x => x / 2 ^ 16 == page
        | none => false
      exec (.pageFaultReject asid page) s = .next (gone.foldl (fun (x : State) r =>
        let y : State := if r.team = 0 then { x with lossNotes := x.lossNotes ++ [(r.job, 1, x.pod * 2 ^ 22 + (r.src - 4))] }
          else x.refuseWord r .notPresent (r.holdVa.getD 0) info
        y.dropReq r.id) v))

/-- ERET (R366): the gang must be the one that trapped, whole and Active; it goes on at its word with its done-mask,
after its word, or at a header, at the level it had, with the pre-emption point and the BEAT of the clause it left. A
numeric threshold that the redone word brought about is taken after it, or at the next clause start (R154). The BEAT
mark that ERET restores is the model's choice (log entry 12). -/
def Sys2Proof.Spec.ReturnWords : Prop :=
  ∀ w s c (form : Nat), form < 3 →
    let i : Instr := if form = 0 then .eret w else if form = 1 then .eretSkip w else .eretPc w
    Runs i s c →
    (c.gang.trap = none → TrapsAt i s c .illegalOperand 0 0) ∧
    ∀ t, c.gang.trap = some t →
      (c.act ≠ c.gang.members ∨ t.members ≠ c.gang.members → TrapsAt i s c .illegalOperand 0 0) ∧
      (c.act = c.gang.members → t.members = c.gang.members →
        let last := (t.tpc + 8 * (t.word + 1)) % 2 ^ 64 = t.tres
        let word := if form = 0 then t.word else if form = 1 ∧ t.word ≠ 0 ∧ ¬ last then t.word + 1 else 0
        let pc := if form = 2 then c.val c.lead w.s1.toNat 2 else if word = 0 then t.tres else t.tpc
        let redo := form = 0 ∧ t.word ≠ 0
        let u : State := { s with
          now := s.now + s.span (c.tm.quad / 32) 6,
          gangs := s.gangs.map fun (g : Gang) => if g.id = c.gid then { g with sys := t.lv, trap := none, pendWord := decide redo && t.pend } else g }
        let v := if t.pend = true ∧ ¬ redo then u.addPending c.gid .numericThreshold else u
        (word = 0 → exec i s = .next (v.endClause c.gid pc)) ∧
        (word ≠ 0 →
          let cl := s.cluster c.tm.cluster
          let stop := cl.preempt ≠ none ∧ (endTiles c.gang ≠ none ∨ cl.forced = true)
          let park := fun (g : Gang) => g.header.toNat.testBit 46
          exec i s = .next (leaveHalted (v.updGang c.gid fun g => { g with
            pc, word, done := if form = 0 then t.done else [], ppt := t.ppt, beat := t.beat, clause := [], flight := [],
            idleSince := v.dieClock ((v.team g.team).quad / 32), stopMask := endTiles g, park := decide stop && park g,
            status := if stop then .stopped none else if park g then .parked else .fetch }) c.gid)))

/-- The stop of a cluster's gangs (R90, R384): one that stands at a header stops at a pre-emption point, or anywhere once the
forced limit has passed, when one held at its word stops too. -/
def Sys2Proof.Spec.stopsNow (s : State) (cluster : Nat) (forced : Bool) (g : Gang) : Gang :=
  let idleSince := if g.eligible = none then g.idleSince else s.dieClock ((s.team g.team).quad / 32)
  if (s.team g.team).cluster ≠ cluster then g
  else match g.status with
    | .held w => if forced then { g with status := .stopped (some w), eligible := none, idleSince } else g
    | .fetch | .ready | .parked =>
      if forced = true ∨ (g.word = 0 ∧ g.stopMask ≠ none) then
        { g with status := .stopped none, park := g.status == .parked, clause := [], eligible := none, fetchHold := none, idleSince }
      else g
    | _ => g

/-- PREEMPT, FORCED_LIMIT and WATCHDOG_FIRE (R380, R384 to R386): a stop is requested of the cluster that the handle
names; its teams are stopping, and those of its gangs that may stop do. A resume answers the words that wait with 2 and
restarts the cluster in place. The watchdog of a grid whose window has passed stops its clusters by force, or traps its
gangs. That the watchdog's cause is dropped behind a pending one is the model's choice (log entry 19). -/
def Sys2Proof.Spec.StopRows : Prop :=
  let request := fun (s : State) (cluster : Nat) (force : Bool) =>
    let v : State := { s with
      clusters := s.clusters.map fun (x : Cluster) => if x.id = cluster then
        { x with preempt := some (x.preempt.getD s.now), forced := x.forced || force } else x }
    { v with
      teams := s.teams.map fun (t : Team) => if t.cluster = cluster ∧ t.retired = false ∧ t.stat = 0 then { t with stat := 1 } else t,
      gangs := s.gangs.map (stopsNow s cluster (v.cluster cluster).forced) }
  (∀ w s c (force : Bool), let i : Instr := if force then .preemptForce w else .preemptStop w
    OnceWord i s c (clocks c.act.length 4) <|
      let v := owedBy c s 6 c.act
      match named s (c.val c.lead w.s1.toNat 1) with
      | none => Commits i s c (clocks c.act.length 4) (giveAll c s.nextId v w.d.toNat 1 1)
      | some t =>
        let x := request v t.cluster force
        Commits i s c (clocks c.act.length 4) { x with clusters := x.clusters.map fun (y : Cluster) => if y.id = t.cluster then
          { y with pwaits := y.pwaits ++ [{ ticket := s.nextId, team := c.tm.id, op := if force then 1 else 0, d := w.d.toNat, ranks := c.act }] } else y }) ∧
  (∀ w s c, OnceWord (.preemptResume w) s c (clocks c.act.length 4) <|
    let v := owedBy c s 6 c.act
    match named s (c.val c.lead w.s1.toNat 1) with
    | none => Commits (.preemptResume w) s c (clocks c.act.length 4) (giveAll c s.nextId v w.d.toNat 1 1)
    | some t =>
      Commits (.preemptResume w) s c (clocks c.act.length 4) (giveAll c s.nextId
        ((v.answerPreempt t.cluster (fun _ => true) 2).resumeCluster t.cluster false) w.d.toNat 1 0)) ∧
  (∀ (s : State) (cluster : Nat),
    let c := s.cluster cluster
    let limit := max 1 ((s.job c.job).wdog.toNat / 2 ^ 32 % 2 ^ 8) * 24000 * 45045
    let passes := c.id = cluster ∧ c.forced = false ∧ ∃ t, c.preempt = some t ∧ t + limit ≤ s.now
    (¬ passes → exec (.forcedLimit cluster) s = .next s) ∧
    (passes → exec (.forcedLimit cluster) s = .next { s with
      clusters := s.clusters.map fun (x : Cluster) => if x.id = cluster then { x with forced := true } else x,
      gangs := s.gangs.map (stopsNow s cluster true) })) ∧
  ∀ (s : State) (grid : Nat),
    (s.grids.find? (fun g => g.id == grid) = none → exec (.watchdogFire grid) s = .next s) ∧
    ∀ g, s.grids.find? (fun g => g.id == grid) = some g →
      let reg := (s.job g.job).wdog.toNat
      let win := reg / 2 ^ 16 % 2 ^ 5
      let passed := (g.pers = true ∧ g.wdw ≠ 0 → g.progress + 2 ^ g.wdw * 2400 * 45045 ≤ s.now) ∧
        (¬ (g.pers = true ∧ g.wdw ≠ 0) → win ≠ 0 ∧ g.progress + 2 ^ (if 4 ≤ win ∧ win ≤ 24 then win else 24) * 2400 * 45045 ≤ s.now)
      let fires := g.status = none ∧ g.fired ≠ 1 ∧ s.job? g.job ≠ none ∧ (s.job g.job).heldSince = none ∧ passed
      let mine := s.gangs.filter fun x => (s.team x.team).grid == grid
      let stop := reg.testBit 24 = false ∨ (g.fired = 2 ∧ ∃ x ∈ mine, x.sys = true)
      let v : State := { s with
        jobs := s.jobs.map fun (j : Job) => if j.id = g.job ∧ j.closed = false then
          { j with wdog := BitVec.ofNat 64 (fromBits 64 fun b => b == 25 || j.wdog.toNat.testBit b) } else j,
        events := s.events ++ [(3, g.job, 0)],
        grids := s.grids.map fun (x : Grid) => if x.id = grid then { x with progress := s.now, fired := if stop then 1 else 2 } else x }
      (¬ fires → exec (.watchdogFire grid) s = .next s) ∧
      (fires → stop → exec (.watchdogFire grid) s = .next ((s.clusters.filter fun x => decide (x.grid = grid ∧ x.retired = false ∧ x.aborted = false)).foldl
        (fun u x => request u x.id true) v)) ∧
      (fires → ¬ stop → exec (.watchdogFire grid) s = .next (mine.foldl (fun u x => u.addPending x.id .watchdog) v))

/-- The header of a context image (R389): 32 words. -/
def Sys2Proof.Spec.ImageHeader : Prop :=
  ∀ (s : State) (c : Cluster),
    let g := s.grid c.grid
    let at_ := fun (k : Nat) => (s.imageHeader c).getD k 0
    let sizes := s.imageSizes c
    (s.imageHeader c).length = 32 ∧
    at_ 0 = BitVec.ofNat 64 (2 ^ 56 * 0xC7 + 2 ^ 48 + 2 ^ 40 * (s.clusterTeams c.id).length + 2 ^ 32 * g.depth + s.imageUnits c) ∧
    at_ 1 = BitVec.ofNat 64 (c.group + 2 ^ 16 * c.job) ∧
    at_ 2 = BitVec.ofNat 64 (c.index % g.gx + 2 ^ 16 * (c.index / g.gx % g.gy) + 2 ^ 32 * (c.index / (g.gx * g.gy))) ∧
    at_ 3 = BitVec.ofNat 64 g.id ∧
    at_ 4 = BitVec.ofNat 64 (g.prio + 2 ^ 2 * g.fage + 2 ^ 6 * g.easel + 2 ^ 8 * g.needs + 2 ^ 15 * g.gall.toNat + 2 ^ 16 * g.dbg.toNat +
      2 ^ 17 * g.pers.toNat + 2 ^ 18 * g.wdw) ∧
    (∀ k, 5 ≤ k → k < 8 → at_ k = 0) ∧
    ∀ k < 24, at_ (8 + k) = if k < sizes.length then BitVec.ofNat 64 (256 + (sizes.take k).sum) else 0

/-- CTXSV and CTXLD (R387 to R389): the statuses, and on success the image written and the cluster's quads freed, or the
image read back and the cluster resumed on its quads. The image's layout and its validity test, and S2 as a pair, are
the model's choices (log entries 73 and 41). -/
def Obligations.ContextWords : Prop :=
  ImageHeader ∧
  (∀ w s c, OnceWord (.ctxsv w) s c (clocks c.act.length 2) <|
    let v := owedBy c s 6 c.act
    let va := c.val c.lead w.s2.toNat 2
    let answers := fun (u : State) (size result : Nat) =>
      Commits (.ctxsv w) s c (clocks c.act.length 2) (giveAll c s.nextId u w.d.toNat 1 (size + result * 2 ^ 28))
    match named s (c.val c.lead w.s1.toNat 1) with
    | none => answers v 0 1
    | some t =>
      let cl := s.cluster t.cluster
      let teams := s.clusterTeams t.cluster
      let size := s.imageUnits cl
      if ∃ t ∈ teams, t.stat ≠ 2 then answers v 0 1
      else if w.imm.toNat = 0 then answers v size 4
      else if 256 * w.imm.toNat < size then answers v size 2
      else match v.translateRun c.job.asid c.gang.sys { w := true } (size / 256 + 2) (va / 256 * 256) (256 * size) with
        | (.error _, u) => answers u size 3
        | (.ok _, u) =>
          let header := u.imageHeader cl
          let sent := u.postBytes (c.tm.quad / 32) c.job.asid c.gang.sys (va / 256 * 256) (sized (256 * size) (u.imageBytes cl))
          let y := teams.foldl (fun (y : State) t => ((y.dropTiles t.id).leaveQuad t.id 64).updTeam t.id fun t => { t with stat := 3 }) sent.2
          Commits (.ctxsv w) s c (clocks c.act.length 2) { y with
            saved := y.saved ++ [{
              cluster := cl.id, quads := cl.quads, asid := c.job.asid, va := va / 256 * 256, header,
              waits := u.waitBytes teams, sizes := u.imageSizes cl, blocks := teams.map u.blockSizes,
              places := teams.map fun t => (List.range t.ntid).map fun r => recordPlace (u.threadRecord t.id r) }],
            engineWaits := y.engineWaits ++ [{ ticket := s.nextId, team := c.tm.id, ranks := c.act, ids := sent.1, act := .answer w.d.toNat size }],
            clusters := y.clusters.map fun (k : Cluster) => if k.id = cl.id then { k with quads := [] } else k }) ∧
  ∀ w s c, OnceWord (.ctxld w) s c (clocks c.act.length 2) <|
    let v := owedBy c s 6 c.act
    let va := c.val c.lead w.s2.toNat 2
    let answers := fun (u : State) (status : Nat) => Commits (.ctxld w) s c (clocks c.act.length 2) (giveAll c s.nextId u w.d.toNat 1 status)
    let head := v.fetchBytes c.job.asid c.gang.sys va 256
    match head.2.saved.find? fun k => some (k.header.flatMap fun x => toBytes 8 x.toNat) == head.1 && !(head.2.cluster k.cluster).aborted with
    | none => answers head.2 4
    | some k =>
      let cl := head.2.cluster k.cluster
      let all := head.2.fetchBytes c.job.asid c.gang.sys va ((256 + k.sizes.sum + 255) / 256 * 256)
      (∀ bs, all.1 = some bs → all.2.imageAgrees k bs = true →
        match all.2.resumeQuads cl k.quads (c.val c.lead w.s1.toNat 2) with
        | .error status => answers all.2 status
        | .ok quads =>
          let u := (all.2.takeImage k bs).updCluster cl.id fun c => { c with quads }
          let x := (all.2.clusterTeams cl.id).foldl (fun (x : State) (t : Team) => x.enterQuad t.id (quads.getD t.idx 0)) u
          answers (({ x with saved := x.saved.filter fun y => y != k } : State).resumeCluster cl.id true) 0) ∧
      ((∀ bs, all.1 = some bs → all.2.imageAgrees k bs = false) → answers all.2 4)

/-! ### The lanes' own rows -/

/-- A clause that R28 finds legal: its header `h` and words `ws` (R27, R29 to R31). -/
def Sys2Proof.Spec.legalClause (h : Nat) (ws : List Nat) : Prop :=
  let cls := h / 2 ^ 56 % 2 ^ 3
  let op := fun (w : Nat) => w / 2 ^ 56
  let ends : List Nat := [0x01, 0x02, 0x03, 0x04, 0x05, 0x06, 0x07, 0x08, 0x0C, 0x0D, 0xE7]
  1 ≤ h / 2 ^ 59 ∧ h / 2 ^ 59 ≤ 24 ∧ cls ≤ 3 ∧ h / 2 ^ 32 % 2 ^ 14 = 0 ∧ (h.testBit 47 = false → h % 2 ^ 32 = 0) ∧
  (∀ w ∈ ws, opAssigned (op w) = true → 0x3A ≤ op w →
    (op w < 0x70 → cls = 0 ∨ cls = 3) ∧ (0x70 ≤ op w → op w < 0xA0 → cls = 1 ∨ cls = 3) ∧ (0xA0 ≤ op w → cls = 2 ∨ cls = 3)) ∧
  (∀ i w, ws[i]? = some w → i + 1 < ws.length → op w ∉ ends) ∧
  ∀ i w, ws[i]? = some w → op w = 0x0A →
    let n := w / 2 ^ 48 % 2 ^ 4
    i + 1 < ws.length ∧ i + n < ws.length ∧ ∀ j, i < j → j ≤ i + n → ∀ x, ws[j]? = some x → op x ≠ 0x0A

/-- A core's clause cache takes a clause of 64-bit words: its oldest clauses leave it, as few as keep it within 64 KiB (R79). -/
def Sys2Proof.Spec.CodeKept : Prop :=
  ∀ (s : State) (core asid pc : Nat) (ws : List DWord),
    let mine := s.code.filter fun c => c.1 == core
    let bytes := fun (cs : List (Nat × Nat × Nat × List DWord)) => (cs.map fun c => 8 * c.2.2.2.length).sum
    ∃ n ≤ mine.length, (bytes (mine.drop n) + 8 * ws.length ≤ 65536 ∨ n = mine.length) ∧
      (∀ m < n, 65536 < bytes (mine.drop m) + 8 * ws.length) ∧
      s.cacheClause core asid pc ws = { s with code := (s.code.filter fun c => !(mine.take n).contains c) ++ [(core, asid, pc, ws)] }

/-- CLAUSE_FETCH (R26 to R31, R76, R79, R88, R370): the header, then the whole clause, is read through pages that grant
execution, from the core's clause cache where that holds it, else from memory, and the cache takes it (model's choices,
log entries 84 and 87); a page that is not present holds the gang and is reported; any other failure, and an illegal
clause, traps with the header as its PC. A legal clause is ready, or, where the gang resumes at a word, waits for its
counters; a word that the clause no longer has is behind it. TADDR and WORD of a fetch trap are the model's choices (log
entry 47). -/
def Sys2Proof.Spec.ClauseFetched : Prop :=
  CodeKept ∧ ∀ (s : State) (id : Nat),
    let row := exec (.clauseFetch id) s
    (s.gang? id = none → row = .next s) ∧
    ∀ g, s.gang? id = some g →
      let due := (g.status = .fetch ∨ (g.status = .parked ∧ s.quietGang id = true)) ∧ g.fetchHold = none
      let asid := (s.job (s.team g.team).job).asid
      let sets := fun (v : State) (f : Gang → Gang) => row = .next { v with gangs := v.gangs.map fun (x : Gang) => if x.id = id then f x else x }
      let traps := fun (v : State) (cause : Cause) (addr info : Nat) => row = .next (v.takeTrap id (some cause) g.done
        (g.members.filter fun r => !g.done.contains r) g.word addr info g.pc)
      let fails := fun (v : State) (cause : Cause) (info va : Nat) =>
        if cause = .notPresent ∧ va < 2 ^ 57 then
          sets { v with pageFaults := if (asid, va / 2 ^ 16, 2) ∈ v.pageFaults then v.pageFaults else v.pageFaults ++ [(asid, va / 2 ^ 16, 2)] }
            fun x => { x with fetchHold := some (asid, va) }
        else traps v cause va info
      let bytes := fun (v : State) (runs : List (Nat × Nat)) => runs.flatMap fun r => readBytes v.mem r.1 r.2
      let core := 4 * (s.team g.team).quad + g.lane / 8
      let hit := s.code.find? fun c => c.1 == core && c.2.1 == asid && c.2.2.1 == g.pc
      let held := fun (words : List DWord) => match hit with
        | some c => c.2.2.2
        | none => words
      (¬ due → row = .next s) ∧
      (due → match s.translateRun asid g.sys { x := true } 2 g.pc 8 with
        | (.error (cause, info, va), v) => fails v cause info va
        | (.ok runs, v) =>
          let h := ((held [BitVec.ofNat 64 (fromBytes ((bytes v runs).take 8))]).headD 0).toNat
          let n := h / 2 ^ 59
          (n = 0 ∨ 24 < n → traps v .illegalClause 0 0) ∧
          (1 ≤ n → n ≤ 24 → match v.translateRun asid g.sys { x := true } 3 g.pc (8 * (n + 1)) with
            | (.error (cause, info, va), u) => fails u cause info va
            | (.ok runs, u) =>
              let all := held ((List.range (n + 1)).map fun i => BitVec.ofNat 64 (fromBytes (((bytes u runs).drop (8 * i)).take 8)))
              let ws := all.drop 1
              let legal := legalClause h (ws.map (·.toNat))
              (¬ legal → traps u .illegalClause 0 0) ∧
              (legal →
                let x := if hit = none then u.cacheClause core asid g.pc all else u
                (ws.length < g.word → sets x fun y => { y with pc := (y.pc + 8 * (ws.length + 1)) % 2 ^ 64, word := 0, done := [] }) ∧
                (g.word ≤ ws.length → sets x fun y => { y with
                  header := BitVec.ofNat 64 h, clause := ws, status := if g.word = 0 then .ready else .held .counters }))))

/-- CLAUSE_ISSUE (R74 to R77, R96, R154, R212, R380, R382): an idle lane runs the eligible gang of the highest class
that became eligible first; a cause pending for the gang, or a late fault of one of its threads, is taken at the
clause's start instead, with WORD 0; members of halted roles leave there. Late causes are taken in the order in which
they came (the model's choice: log entry 59). -/
def Sys2Proof.Spec.ClauseIssued : Prop :=
  ∀ (s : State) (quad lane : Nat),
    let row := exec (.clauseIssue quad lane) s
    let here := fun (g : Gang) => g ∈ s.gangs ∧ g.lane = lane ∧ (s.team g.team).quad = quad
    let may := fun (g : Gang) => here g ∧ g.eligible ≠ none ∧ g.behind = []
    let prio := fun (g : Gang) => (s.grid (s.team g.team).grid).prio
    ((∃ g, here g ∧ g.status = .running) ∨ (∀ g, ¬ may g) → row = .next s) ∧
    ((∀ g, here g → g.status ≠ .running) → (∃ g, may g) → ∃ g, may g ∧
      (∀ x, may x → prio x ≤ prio g ∧ (prio x = prio g → g.eligible.getD 0 ≤ x.eligible.getD 0)) ∧
      let u : State := { s with gangs := s.gangs.map fun (x : Gang) =>
        let y := { x with behind := x.behind.filter (· != g.id) }
        if x.id = g.id then { y with eligible := none, idleSince := s.dieClock (quad / 32) } else y }
      let v := if g.word = 0 then leaveHalted u g.id else u
      let runs := row = .next (v.updGang g.id fun y => { y with status := .running, word := max 1 y.word, stopMask := none })
      (v.gang? g.id = none → row = .next v) ∧
      ∀ x, v.gang? g.id = some x →
        (x.word ≠ 0 → runs) ∧
        (x.word = 0 →
          (∀ cause, x.pending = some cause →
            row = .next ((v.updGang g.id fun y => { y with pending := none }).takeTrap g.id (some cause) [] x.members 0 0 0 x.pc)) ∧
          (∀ r cause addr rest, x.pending = none → (x.members.find? fun r => !(v.thread x.team r).pend.isEmpty) = some r →
              (v.thread x.team r).pend = (cause, addr) :: rest →
            row = .next ((v.updThread x.team r fun t => { t with pend := t.pend.drop 1 }).takeTrap g.id (some cause) [] x.members 0
              (if cause = .numericThreshold then 0 else addr) 0 x.pc)) ∧
          (x.pending = none → (∀ r ∈ x.members, (v.thread x.team r).pend = []) → runs)))

/-- Writing a result's registers (R106, R110, R158): each named word of the thread, or of the team for a g register, takes its
value, and nothing else changes. -/
def Sys2Proof.Spec.ResultRegisters : Prop :=
  ∀ (v : State) (team rank : Nat) (ws : List (Nat × Nat × Word)), (∀ y ∈ ws, y.2.1 < 192 → y.2.1 < (v.team team).alloc) →
    let x := v.setRegs team rank ws
    OnlyRegs v x ∧
    (∀ k i value, (k, i, value) ∈ ws → (∀ y ∈ ws, y.1 = k → y.2.1 = i → y.2.2 = value) → i < 255 → Holds v team rank k i →
      x.reg team rank k i = value) ∧
    ∀ t q k i, Holds v t q k i → ¬ (t = team ∧ (i < 192 → q = rank) ∧ ∃ value, (k, i, value) ∈ ws) → x.reg t q k i = v.reg t q k i

/-- LONG_RESULT_WRITE (R73, R74, R85, R320): the thread's registers or predicate take the result, or its message is accepted
where there is room; the primal and the layers of a g register that one word loads are written together; the part owed is made
good, and threads owed nothing more go into their folds. -/
def Obligations.ResultWritten : Prop :=
  ResultRegisters ∧ ∀ (s : State) (id : Nat),
    let row := exec (.longResultWrite id) s
    (s.results.find? (fun r => r.id == id) = none → row = .next s) ∧
    ∀ r, s.results.find? (fun r => r.id == id) = some r →
      let v : State := { s with results := s.results.filter fun x => x.id != id }
      let t := s.team r.team
      let ends := fun (x : State) => row = .next ((x.settleTicket r.ticket r.rank).fileReady)
      (r.act = .nothing → ends v) ∧
      (∀ p b, r.act = .pred p b → ends (v.setPred r.team r.rank p b)) ∧
      (∀ ws, r.act = .regs ws →
        let shared := fun (x : LongResult) => match x.act with
          | .regs ys => (ys.map fun (y : Nat × Nat × Word) => y.2.1).filter fun i => 192 ≤ i && i < 255
          | _ => []
        let late := ∃ a ∈ s.accesses, a.ticket = r.ticket ∧ a.team = r.team ∧ a.rank = r.rank ∧ ∃ i ∈ shared r, match a.op with
          | .load d .. => d ≤ i ∧ i < d + max 1 (a.size / 4)
          | _ => False
        let written := fun (u : State) (x : LongResult) =>
          let w := match x.act with
            | .regs ys => u.setRegs x.team x.rank ys
            | _ => u
          (({ w with results := w.results.filter fun y => y.id != x.id } : State).settleTicket x.ticket x.rank).fileReady
        (late → row = .next s) ∧
        (¬ late → row = .next ((s.results.filter fun x => x.id == r.id || (x.ticket == r.ticket && x.team == r.team && x.rank == r.rank &&
          (shared x).any fun i => (shared r).contains i)).foldl written s))) ∧
      ∀ q image value, r.act = .send q image value →
        (256 ≤ (s.sendBuf.filter fun m => m.port == t.quad).length ∨ s.canCount t.quad t.job = false → row = .next s) ∧
        ((s.sendBuf.filter fun m => m.port == t.quad).length < 256 → s.canCount t.quad t.job = true →
          ends (({ v with
            nextId := s.nextId + 1,
            sendBuf := s.sendBuf ++ [{ id := s.nextId, port := t.quad, team := t.id, rank := r.rank, entry := q, job := t.job, image,
                                       elems := [value] }] } : State).count t.quad t.job fun k => { k with mi := (k.mi + 1) % 2 ^ 48 }))

/-- FOLD_AGE_LIMIT, FOLD_ISSUE and GANG_DEMOTION (R81 to R86): a fold is ready with 32 threads, at its age limit, or
when no live thread of its team in the lane is outside the folds, unless its cluster is to stop; the oldest ready fold
issues its lowest ranks as a gang where the lane has an entry, and where it has none the gang idle longest, past its own
grid's limit, gives its own up, and its threads keep what it had at its word (model's choice, log entry 88). That folds
issue nothing while their cluster is to stop, and what a demoted gang's threads carry, are the model's choices (log
entries 13, 14 and 83). -/
def Obligations.FoldEvents : Prop :=
  ∀ (s : State) (id quad lane : Nat),
    let fold := s.folds.find? fun f => f.id == id
    let age := exec (.foldAgeLimit id) s
    let issue := exec (.foldIssue id) s
    let demote := exec (.gangDemotion quad lane) s
    let limit := fun (team : Nat) => let g := s.grid (s.team team).grid; if g.fage = 0 then 256 else 2 ^ g.fage
    let stopping := fun (team : Nat) => (s.cluster (s.team team).cluster).preempt ≠ none ∨ (s.team team).stat ≠ 0
    let inside := fun (team rank : Nat) => (∃ f ∈ s.folds, f.team = team ∧ ∃ p ∈ f.threads, p.1 = rank) ∨ ∃ f ∈ s.overflow, f.team = team ∧ f.rank = rank
    let ready := fun (f : Fold) => (32 ≤ f.threads.length ∨ f.aged = true ∨
      ∀ t ∈ s.threads, t.team = f.team → t.rank % 32 = f.lane → t.ended = false → inside f.team t.rank) ∧ ¬ stopping f.team
    let full := fun (quad lane : Nat) => ∀ e < 17, ∃ g ∈ s.gangs, g.entry = e ∧ g.lane = lane ∧ (s.team g.team).quad = quad
    (fold = none → age = .next s ∧ issue = .next s) ∧
    (∀ f, fold = some f →
      let now_ := s.dieClock (f.quad / 32)
      (limit f.team ≤ now_ - f.since →
        age = .next { s with folds := s.folds.map fun (x : Fold) => if x.id = id then { x with aged := true } else x }) ∧
      (now_ - f.since < limit f.team → age = .next s) ∧
      let oldest := ∀ x ∈ s.folds, x.quad = f.quad → x.lane = f.lane → ready x → f.since ≤ x.since
      (¬ (ready f ∧ oldest) ∨ full f.quad f.lane → issue = .next s) ∧
      let carried := fun (r : Nat) => ((f.threads.find? fun t => t.1 == r).map fun t => t.2.2).getD {}
      let k := carried ((f.threads.map (·.1)).min?.getD 0)
      let like := (f.threads.map (·.1)).filter fun r => carried r = k
      (ready f → oldest → ¬ full f.quad f.lane → ∃ (e : Nat) (out : List Nat), e < 17 ∧
        (∀ g ∈ s.gangs, ¬ (g.entry = e ∧ g.lane = f.lane ∧ (s.team g.team).quad = f.quad)) ∧
        out.length = min 32 like.length ∧ out.Pairwise (· ≤ ·) ∧
        (out.Subperm like ∧ ∀ r ∈ like, r ∉ out → ∀ x ∈ out, x ≤ r) ∧
        let g : Gang := { id := s.nextId, team := f.team, lane := f.lane, entry := e, members := out, pc := f.pc, word := f.word,
                          done := out.filter fun r => f.threads.contains (r, true, k), sys := k.sys, trap := k.trap,
                          pendWord := k.pendWord, ppt := k.ppt, beat := k.beat, flight := k.flight, idleSince := now_ }
        let rest := f.threads.filter fun p => !out.contains p.1
        let v : State := { s with nextId := s.nextId + 1, gangs := s.gangs ++ [g] }
        (rest ≠ [] → issue = .next { v with folds := s.folds.map fun (x : Fold) =>
          if x.id = id then { x with threads := rest, since := now_, aged := false } else x }) ∧
        (rest = [] →
          let w : State := { v with folds := s.folds.filter fun x => x.id != id }
          issue = .next (match s.overflow.find? fun o => o.quad == f.quad && o.lane == f.lane with
            | none => w
            | some o => if (w.folds.filter fun x => x.quad == f.quad && x.lane == f.lane).length < 16 then
                ({ w with overflow := s.overflow.erase o } : State).file o
              else w)))) ∧
    let needed := (∃ f ∈ s.folds, f.quad = quad ∧ f.lane = lane ∧ ready f) ∧ full quad lane
    let idle := fun (g : Gang) => g ∈ s.gangs ∧ g.lane = lane ∧ (s.team g.team).quad = quad ∧ g.eligible = none ∧
      limit g.team ≤ s.dieClock (quad / 32) - g.idleSince ∧ match g.status with
        | .fetch | .ready | .parked => True
        | .held w => w ≠ .shegus
        | .running | .stopped _ => False
    (¬ needed ∨ (∀ g, ¬ idle g) → demote = .next s) ∧
    (needed → (∃ g, idle g) → ∃ g, idle g ∧
      (∀ x, idle x → g.idleSince ≤ x.idleSince ∧ (x.idleSince = g.idleSince → g.entry ≤ x.entry)) ∧
      let kept : Carry := if g.word = 0 then { sys := g.sys, trap := g.trap }
        else { sys := g.sys, trap := g.trap, pendWord := g.pendWord, ppt := g.ppt, beat := g.beat, flight := g.flight }
      let v := match g.pending with
        | none => s
        | some cause => s.updThread g.team (g.members.headD 0) fun t => { t with pend := t.pend ++ [(cause, 0)] }
      demote = .next ((v.dropGang g.id).sendToFolds (g.members.map fun r =>
        { quad, lane, team := g.team, rank := r, pc := g.pc, word := g.word, done := g.done.contains r, carry := kept })))

/-! ### Shegus -/

/-- The oldest command of a queue (R399, R400, R403): where the queue is enabled with a ring of 2^4 to 2^12 entries, has no
error and no stalled completion, an entry of the row's OP runs; one with reserved bits set or a notice's tag completes with
STATUS 2. `runs` gets the entry and how it ends with a state, a status and a result. -/
def Sys2Proof.Spec.CommandRow (q op : Nat) (s : State) (row : Host.Outcome State Fault Refusal)
    (runs : Nat → (State → Nat → Nat → Prop) → Prop) : Prop :=
  let c := s.queues.getD q {}
  let may := c.enable = true ∧ 4 ≤ c.lg ∧ c.lg ≤ 12 ∧ c.error = false ∧ c.stalled = none
  (¬ may ∨ c.entries = [] ∨ (s.dieUp 0 = false ∧ s.dieUp 1 = false) → row = .next s) ∧
  ∀ e, may → (s.dieUp 0 = true ∨ s.dieUp 1 = true) → c.entries.head? = some e →
    let ends := fun (v : State) (status res : Nat) => row = .next ((v.complete q e status res).kickQueue q)
    let v := e.toNat
    let legal := v / 2 ^ 33 % 2 ^ 31 = 0 ∧ v / 2 ^ 8 % 2 ^ 8 = 0 ∧ v / 2 ^ 16 % 2 ^ 16 ≠ 0xFFFF
    (v % 2 ^ 8 ≠ op → row = .next s) ∧
    (v % 2 ^ 8 = op → ¬ legal → ends s 2 0) ∧
    (v % 2 ^ 8 = op → legal → runs v ends)

/-- Argument A(i) of an entry (R399). -/
def Sys2Proof.Spec.argument (e i : Nat) : Nat := e / 2 ^ (128 + 64 * i) % 2 ^ 64
/-- ADDR of an entry (R399). -/
def Sys2Proof.Spec.address (e : Nat) : Nat := e / 2 ^ 64 % 2 ^ 64

/-- Bytes in HBM of the product, or in host memory (R392). -/
def Sys2Proof.Spec.reachable (s : State) (pa n : Nat) : Prop :=
  (pa + n ≤ 2 ^ 39 ∧ s.hasDie (pa / 2 ^ 38) = true ∧ s.hasDie ((pa + n - 1) / 2 ^ 38) = true) ∨
  (0x8000000000000 ≤ pa ∧ pa + n ≤ 0x10000000000000)

/-- What keeps Shegus from writing bytes (R202, R393): host halves that it does not own, HBM lines that are busy or held by
others; for a read, host halves that it does not have. -/
def Sys2Proof.Spec.lacks (s : State) (pa n : Nat) (write : Bool) : Prop :=
  (0x8000000000000 ≤ pa ∧ n ≠ 0 ∧ ∃ h, pa / 64 ≤ h ∧ h ≤ (pa + n - 1) / 64 ∧
    (if write then s.half h ≠ some .modified ∧ s.half h ≠ some .exclusive else s.half h = none)) ∨
  (write = true ∧ pa < 0x8000000000000 ∧ n ≠ 0 ∧ ∃ l, pa / 128 ≤ l ∧ l ≤ (pa + n - 1) / 128 ∧
    ((∃ b ∈ s.busy, b.line = l) ∨ (s.invalidations l).1 ≠ 0))

/-- Shegus uses bytes at a physical address: STATUS 2 where it never can, a wait while the host is asked for halves or the
lines are recalled from their holders. -/
def Sys2Proof.Spec.Uses (s : State) (row : Host.Outcome State Fault Refusal) (ends : State → Nat → Nat → Prop) (pa n : Nat)
    (write : Bool) (go : Prop) : Prop :=
  let new := (s.lacksHalves pa n write).filter fun h => !s.hostAsks.contains h
  let asked : State := { s with
    hostAsks := s.hostAsks ++ new
    outputs := s.outputs ++ new.map fun h => if h.2 then Output.rdOwn h.1 else Output.rdShared h.1 }
  let recalled := (s.heldLines pa n).filter fun l => s.reqs.all fun r => r.op != .write [] || r.pa != 128 * l
  -- a read waits for what is in progress on its lines
  let waits := write = false ∧ ∃ b ∈ s.busy, pa / 128 ≤ b.line ∧ 128 * b.line < pa + n
  (¬ reachable s pa n → ends s 2 0) ∧
  (reachable s pa n → waits → row = .next s) ∧
  (reachable s pa n → ¬ waits → lacks s pa n write → row = .next (if write then
    asked.postReqs (recalled.map fun l => { pa := 128 * l, group := 0xFFFE, src := 66 + l / 2 ^ 31, op := .write [] }) else asked)) ∧
  (reachable s pa n → ¬ waits → ¬ lacks s pa n write → go)

/-- An address space that has no key yet is given one, a free value (R397). -/
def Sys2Proof.Spec.withKey (s : State) (asid : Nat) : State :=
  if ∃ k ∈ s.keys, k.1 = asid then s else { s with fresh := s.fresh + 1, keys := s.keys ++ [(asid, Config.freeValue s.fresh)] }

/-- The grids of a job that have not ended. -/
def Sys2Proof.Spec.openGrids (s : State) (job : Nat) : List Grid := s.grids.filter fun g => decide (g.job = job ∧ g.status = none)

/-- IDENTIFY, JOB.OPEN, JOB.CLOSE, LAUNCH, COLLGRP, JOB.RESUME, JOB.ABORT, ATTEST, FWLOAD, ERRORS and POWERCAP (R400,
R401, R405, R408). The model's choices: statuses and denied rights (log entry 9), the answer to a cap (18), a close with
live threads (31), the list of COLLGRP (33), the layouts of ERRORS and ATTEST (34 and 2), the job number (8). -/
def Sys2Proof.Spec.CommandRows : Prop :=
  (∀ s q, let row := exec (.identify q) s
    CommandRow q 1 s row fun e ends => Uses s row ends (address e) s.capList.length true
      (ends (s.physWrite (address e) s.capList) 0 s.capList.length)) ∧
  (∀ s q job, let row := exec (.jobOpen q job) s
    CommandRow q 2 s row fun e ends =>
      let asid := argument e 0
      if 512 ≤ asid then ends s 2 0
      else Uses s row ends (argument e 1) 128 false <|
        let sized := ∃ p ∈ s.spills, p.1 = asid
        let bitmap := readBytes s.mem (argument e 1) 128
        let member := fun (d : Nat) => (bitmap.getD (d / 8) 0).toNat.testBit (d % 8) = true ∨ d = s.pod
        ((∀ j < 4096, s.job? j ≠ none) ∨ (¬ sized ∧ s.spillMax < argument e 2) → ends s 3 0) ∧
        ((∃ j < 4096, s.job? j = none) → (sized ∨ argument e 2 ≤ s.spillMax) →
          (4096 ≤ job ∨ s.job? job ≠ none → row = .next s) ∧
          (job < 4096 → s.job? job = none → ∃ (devices : List Nat) (spills : List (Nat × Nat)),
            (∀ d, d ∈ devices ↔ d < 1024 ∧ member d) ∧ (sized → spills = s.spills) ∧
            (¬ sized → spills = s.spills ++ [(asid, argument e 2)]) ∧
            ends { withKey s asid with
              jobs := s.jobs ++ [{
                id := job, asid, born := s.now, devices, root := if s.dieUp 0 then 0 else 1, waveAt := s.now, stands := some s.now }],
              spills } 0 job))) ∧
  (∀ s q, let row := exec (.jobClose q) s
    CommandRow q 3 s row fun e ends =>
      let id := argument e 0
      (s.job? id = none → ends s 2 0) ∧
      (s.job? id ≠ none → (q, id) ∈ s.denied → ends s 4 0) ∧
      (s.job? id ≠ none → (q, id) ∉ s.denied → openGrids s id ≠ [] → ends s 2 0) ∧
      (s.job? id ≠ none → (q, id) ∉ s.denied → openGrids s id = [] →
        ends { s with
          jobs := s.jobs.map fun (j : Job) => if j.id = id ∧ j.closed = false then { j with closed := true } else j
          code := s.code.filter fun c => c.2.1 != (s.job id).asid
          sets := s.sets.filter fun c => c.job != id
          lateAd := s.lateAd.filter fun x => x.2.1 != id
          latches := s.latches.filter fun l => l.job != id } 0 0)) ∧
  (∀ s q, let row := exec (.shegusLaunch q) s
    CommandRow q 4 s row fun e ends =>
      if address e % 128 ≠ 0 then ends s 2 0
      else Uses s row ends (address e) 128 false <|
        let desc := readNat s.mem (address e) 128
        let job := desc / 2 ^ 208 % 2 ^ 12
        (s.job? job = none → ends s 2 0) ∧
        (s.job? job ≠ none → (q, job) ∈ s.denied → ends s 4 0) ∧
        (s.job? job ≠ none → (q, job) ∉ s.denied → s.canCount 66 job = false → row = .next s) ∧
        (s.job? job ≠ none → (q, job) ∉ s.denied → s.canCount 66 job = true →
          let out := s.acceptLaunch { job, die := 0 } (some desc)
          ends out.2 0 out.1)) ∧
  (∀ s q, let row := exec (.collgrp q) s
    CommandRow q 8 s row fun e ends =>
      let g := argument e 0
      let n := argument e 1
      let c := argument e 2
      if 64 ≤ g ∨ n < 2 ∨ 65536 < n ∨ c = 0 ∨ 128 < c ∨ n % c ≠ 0 then ends s 2 0
      else Uses s row ends (address e) (2 * (n / c)) false <|
        let members := (List.range (n / c)).map fun i => readNat s.mem (address e + 2 * i) 2
        let bad := s.pod ∉ members ∨ (∃ d ∈ members, 1024 ≤ d) ∨ ∃ k ∈ s.colls, coGrp k.desc.toNat = g
        (bad → ends s 2 0) ∧
        (¬ bad → ends { s with collGroups := (s.collGroups.filter fun x => x.group != g) ++ [{ group := g, n, c, members }] } 0 0)) ∧
  (∀ s q, let row := exec (.jobResume q) s
    CommandRow q 9 s row fun e ends =>
      let id := argument e 0
      (s.job? id = none → ends s 2 0) ∧
      (s.job? id ≠ none → (q, id) ∈ s.denied → ends s 4 0) ∧
      (s.job? id ≠ none → (q, id) ∉ s.denied →
        let gs := ((openGrids s id).filter fun g => g.fired == 1).map fun (g : Grid) => g.id
        let u := gs.foldl (fun (v : State) g => v.updGrid g fun x => { x with fired := 0, progress := v.now }) s
        ends ((u.clusters.filter fun c => gs.contains c.grid && !c.retired && !c.aborted).foldl
          (fun (v : State) c => (v.answerPreempt c.id (fun _ => true) 2).resumeCluster c.id false) u) 0 0)) ∧
  (∀ s q, let row := exec (.jobAbort q) s
    CommandRow q 10 s row fun e ends =>
      let id := argument e 0
      (s.job? id = none → ends s 2 0) ∧
      (s.job? id ≠ none → (q, id) ∈ s.denied → ends s 4 0) ∧
      (s.job? id ≠ none → (q, id) ∉ s.denied →
        ends ((openGrids s id).foldl (fun (v : State) g => v.abortGrid g.id 5 (if g.fired = 1 then 0x3C else 0)) s) 0 0)) ∧
  (∀ s q, let row := exec (.attest q) s
    CommandRow q 11 s row fun e ends =>
      let nonce := (List.range 4).flatMap fun i => toBytes 8 (argument e i)
      let body := nonce ++ s.slots.flatten ++ toBytes 1 s.order ++ toBytes 1 s.dies ++ Config.shake256 s.capList 64
      let report := body ++ Config.falconSign body
      Uses s row ends (address e) report.length true (ends (s.physWrite (address e) report) 0 report.length)) ∧
  (∀ s q, let row := exec (.fwload q) s
    CommandRow q 12 s row fun e ends =>
      let n := argument e 0
      if n = 0 then ends s 2 0
      else Uses s row ends (address e) n false <|
        ends { s with fresh := s.fresh + 1, flash := readBytes s.mem (address e) n } 0 (Config.freeValue s.fresh % 2 ^ 64)) ∧
  (∀ s q, let row := exec (.errors q) s
    CommandRow q 13 s row fun e ends => Uses s row ends (address e) 256 true <|
      ends (s.physWrite (address e) ((List.range 32).flatMap fun i => toBytes 8 (getKey s.ecc i 0))) 0 0) ∧
  (∀ s q, let row := exec (.powercap q) s
    CommandRow q 14 s row fun e ends =>
      let cap := if s.dies = 2 then min 2000 (argument e 0) else argument e 0
      ends { s with powercap := some cap } 0 cap)

/-- A range of HBM pages below the Shegus areas that no address space owns (R221, R401). -/
def Sys2Proof.Spec.unownedRange (s : State) (pa n : Nat) : Prop :=
  pa + n ≤ 2 ^ 39 ∧ s.hasDie (pa / 2 ^ 38) = true ∧ s.hasDie ((pa + n - 1) / 2 ^ 38) = true ∧ pa % 2 ^ 38 + n ≤ shegusBase ∧
  ∀ o ∈ s.owners, (o.1 + o.2.1) * 2 ^ 16 ≤ pa ∨ pa + n ≤ o.1 * 2 ^ 16

/-- The range belongs to the address space, under whose key it stands, and reads as memory that nothing has written. -/
def Sys2Proof.Spec.handOver (s : State) (pa n asid : Nat) : State :=
  { withKey s asid with
    lineKeys := s.lineKeys.filter fun k => !(decide (pa ≤ 128 * k.1) && decide (128 * k.1 < pa + n))
    owners := s.owners ++ [(pa / 2 ^ 16, n / 2 ^ 16, asid)]
    mem := s.mem.filter fun c => !(decide (pa ≤ c.1) && decide (c.1 < pa + n))
    kept := s.kept.filter fun k => !(decide (pa ≤ 8 * k.cell) && decide (8 * k.cell < pa + n))
    l2 := s.l2.filter fun l => !(decide (pa ≤ 128 * l.line) && decide (128 * l.line < pa + n))
    hbmStamps := s.hbmStamps.filter fun h => !(decide (pa ≤ 128 * h.1) && decide (128 * h.1 < pa + n))
    wakes := s.wakes.filter fun w => !(decide (pa ≤ 8 * w.2) && decide (8 * w.2 < pa + n)) }

/-- What leaves a range: its versions leave the Hayloft and the spill area, which wakes the side logs (R221, R228). -/
def Sys2Proof.Spec.vacated (s : State) (pa n : Nat) : State :=
  let out := fun (k : KeptCell) => decide (pa ≤ 8 * k.cell) && decide (8 * k.cell < pa + n)
  let v : State := { s with kept := s.kept.filter fun k => !out k }
  if s.kept.any out then v.wakeFreed else v

/-- ALLOC, FREE and WINDOW (R216, R221, R395, R401): the row's choice of addresses is taken where it keeps the rules.
The addresses (log entry 8), fresh ranges that read as never written (4) and the table's area (6) are the model's
choices. -/
def Sys2Proof.Spec.RangeRows : Prop :=
  (∀ s q va pa, let row := exec (.alloc q va pa) s
    CommandRow q 5 s row fun e ends =>
      let asid := argument e 0
      let bytes := argument e 1
      let plain := (argument e 2).testBit 0
      let die := argument e 2 / 2 % 2
      let large := (argument e 2).testBit 2
      let step := if large then 2 ^ 29 else 2 ^ 16
      let n := (bytes + step - 1) / step
      let lies := va % step = 0 ∧ pa % step = 0 ∧ va + n * step ≤ 2 ^ 57 ∧ pa / 2 ^ 38 = die ∧ unownedRange s pa (n * step) ∧
        ∀ a ∈ s.allocs, a.asid = asid → a.va + a.bytes ≤ va ∨ va + n * step ≤ a.va
      if 512 ≤ asid ∨ bytes = 0 ∨ 8 ≤ argument e 2 ∨ s.hasDie die = false then ends s 2 0
      else if va = 0 ∧ pa = 0 then ends s 3 0
      else
        (¬ lies → row = .next s) ∧
        (lies → match s.mapRange asid va pa step plain large n with
          | none => ends s 3 0
          | some v =>
            let u : State := { v with allocs := v.allocs ++ [{ asid, va, pa, bytes := n * step, large }] }
            ends ((handOver u pa (n * step) asid).tlbiPerform 1 asid 0) 0 va)) ∧
  (∀ s q, let row := exec (.free q) s
    CommandRow q 6 s row fun e ends =>
      let asid := argument e 0
      match s.allocs.find? fun a => a.asid == asid && a.va == address e with
      | none => ends s 2 0
      | some a =>
        let step := if a.large then 2 ^ 29 else 2 ^ 16
        let v := (List.range (a.bytes / step)).foldl (fun (v : State) i => (v.mapPage asid (a.va + i * step) 0 a.large).getD v) s
        ends ((vacated { v with
          code := v.code.filter fun c => decide (c.2.1 ≠ asid)
          allocs := v.allocs.filter fun x => decide (x ≠ a)
          owners := v.owners.filter fun o => decide (o.1 ≠ a.pa / 2 ^ 16) } (a.pa / 2 ^ 16 * 2 ^ 16) (a.bytes / 2 ^ 16 * 2 ^ 16)).tlbiPerform 1 asid 0) 0 0) ∧
  ∀ s q pa, let row := exec (.window q pa) s
    CommandRow q 7 s row fun e ends =>
      let asid := argument e 0
      let bytes := argument e 1
      let n := (bytes + 2 ^ 16 - 1) / 2 ^ 16 * 2 ^ 16
      let old : State := match s.hdm with
        | none => s
        | some (_, base, len) => vacated { s with owners := s.owners.filter fun o => decide (o.1 ≠ base / 2 ^ 16) }
            (base / 2 ^ 16 * 2 ^ 16) (len / 2 ^ 16 * 2 ^ 16)
      if 512 ≤ asid ∨ bytes = 0 then ends s 2 0
      else if s.hdmMax < bytes ∨ pa % 2 ^ 16 ≠ 0 then ends s 3 0
      else
        (¬ unownedRange old pa n → row = .next s) ∧
        (unownedRange old pa n → ends { handOver old pa n asid with hdm := some (asid, pa, n) } 0 pa)

/-- How a command completes (R399, R400, R402, R403): where queue `q` is enabled and its ring has room, no notice waits
and the half of a host ring is owned or an HBM ring's line is nobody else's, the entry is written at its slot with the
phase, the position goes on, HEAD passes the command and the host is interrupted if it asked; without room the
completion stays and HEAD with it. The phase after an enable is the model's choice (log entry 11). -/
def Sys2Proof.Spec.CompletionWritten : Prop :=
  ∀ (s : State) (q : Nat) (e : BitVec 512) (status res : Nat), q < s.queues.length →
    let c := s.queues.getD q {}
    let cap := 2 ^ c.lg
    let slot := c.cbase + 16 * (c.cpos % cap)
    let v := e.toNat
    let asks := v.testBit 32
    let entry := res % 2 ^ 64 * 2 ^ 64 + c.phase.toNat * 2 ^ 48 + v / 2 ^ 16 % 2 ^ 16 * 2 ^ 32 + status % 2 ^ 8 * 2 ^ 24
    let roomy := c.enable = true ∧ 4 ≤ c.lg ∧ c.lg ≤ 12 ∧ (c.cpos + 2 ^ 64 - c.chead) % 2 ^ 64 < cap
    (q ≠ 0 ∨ s.notices = [] ∧ s.noticesLost = 0) →
    (roomy → ¬ lacks s slot 16 true →
      s.complete q e status res =
        let u := s.physWrite slot (toBytes 16 entry)
        { u with
          queues := u.queues.set q { c with
            cpos := (c.cpos + 1) % 2 ^ 64
            phase := if (c.cpos + 1) % cap = 0 then !c.phase else c.phase
            head := (c.head + 1) % 2 ^ 64
            entries := c.entries.drop 1
            stalled := none }
          outputs := u.outputs ++ (if asks then [.interrupt q] else []) }) ∧
    (¬ roomy → s.complete q e status res = { s with
      queues := s.queues.set q { c with
        stalled := some (res % 2 ^ 64 * 2 ^ 64 + v / 2 ^ 16 % 2 ^ 16 * 2 ^ 32 + status % 2 ^ 8 * 2 ^ 24, asks) } })

/-- TAIL_DOORBELL, QCFG_WRITE, CHEAD_WRITE and REGISTER_WRITE (R398, R400, R403). That TAIL keeps its value at a bad
doorbell is the model's choice (log entry 30). -/
def Sys2Proof.Spec.QueueRegisterRows : Prop :=
  ∀ (s : State) (q : Nat) (v : DWord),
    let c := s.queues.getD q {}
    let x := v.toNat
    let sets := fun (f : CmdQueue) => ({ s with queues := s.queues.set q f } : State)
    let reads := fun (u : State) =>
      let d := u.queues.getD q {}
      if d.enable = true ∧ 4 ≤ d.lg ∧ d.lg ≤ 12 ∧ d.error = false then
        let new := (List.range ((d.tail + 2 ^ 64 - d.head) % 2 ^ 64 - d.entries.length)).map fun i =>
          BitVec.ofNat 512 (readNat u.mem (d.qbase + 64 * ((d.head + d.entries.length + i) % 2 ^ d.lg)) 64)
        { u with queues := u.queues.set q { d with entries := d.entries ++ new } }
      else u
    let up := s.hostPort = true ∧ s.dieUp 0 = true
    (16 ≤ q ∨ ¬ up → exec (.tailDoorbell q v) s = .next s ∧ exec (.qcfgWrite q v) s = .next s ∧ exec (.cheadWrite q v) s = .next s ∧
      ∀ reg, exec (.registerWrite q reg v) s = .next s) ∧
    (q < 16 → up → s.queues.length = 16 →
      (2 ^ c.lg < (x + 2 ^ 64 - c.head) % 2 ^ 64 → exec (.tailDoorbell q v) s = .next (sets { c with error := true })) ∧
      ((x + 2 ^ 64 - c.head) % 2 ^ 64 ≤ 2 ^ c.lg →
        exec (.tailDoorbell q v) s = .next ((reads (sets { c with tail := x })).kickQueue q)) ∧
      exec (.qcfgWrite q v) s = .next ((reads (sets { c with
        lg := x % 16
        enable := x.testBit 4
        error := c.error && !x.testBit 5
        phase := if x.testBit 4 = true ∧ c.enable = false then true else c.phase })).kickQueue q) ∧
      exec (.cheadWrite q v) s = .next ((sets { c with chead := x }).kickQueue q) ∧
      exec (.registerWrite q 0 v) s = .next (sets { c with qbase := x / 4096 * 4096 }) ∧
      exec (.registerWrite q 1 v) s = .next (sets { c with cbase := x / 4096 * 4096 }) ∧
      (∀ reg, 2 ≤ reg → exec (.registerWrite q reg v) s = .next s) ∧
      -- QBASE, QCFG, CBASE, TAIL, HEAD and CHEAD as the host reads them (R5)
      ∀ reg < 6, registerAccess (0x1000 + 0x40 * q + 8 * reg) none s = .next { s with outputs := s.outputs ++ [.register q reg (BitVec.ofNat 64
        ([c.qbase, c.lg + (if c.enable then 16 else 0) + (if c.error then 32 else 0), c.cbase, 0, c.head, c.chead].getD reg 0))] }) ∧
    -- where they lie in function 0's memory space
    (q < 16 → ∀ reg < 6, registerAccess (0x1000 + 0x40 * q + 8 * reg) (some v) s =
      [exec (.registerWrite q 0 v) s, exec (.qcfgWrite q v) s, exec (.registerWrite q 1 v) s, exec (.tailDoorbell q v) s, .next s,
        exec (.cheadWrite q v) s].getD reg (.next s)) ∧
    ∀ off, (∀ n < 16, ∀ reg < 6, off ≠ 0x1000 + 0x40 * n + 8 * reg) → ∀ a, registerAccess off a s = .next s


/-! ### The host over CXL, failures, clocks and reset -/

/-- A host access in the window that stays in one half of 64 bytes (R395). -/
def Sys2Proof.Spec.windowAt (s : State) (offset n : Nat) : Option Nat :=
  s.hdm.bind fun (_, base, len) =>
    if n ≠ 0 ∧ offset + n ≤ len ∧ (base + offset) / 64 = (base + offset + n - 1) / 64 then some (base + offset) else none

/-- HOST_MEM_READ, HOST_MEM_WRITE, SNPINV, SNPDATA and HALF_GRANT (R202, R203, R393 to R396). Kind 4 in the host stop's
log, as of the device's own writes, is the model's choice (log entry 20). -/
def Sys2Proof.Spec.HostRows : Prop :=
  let up := fun (s : State) => s.hostPort = true ∧ s.dieUp 0 = true
  let owner := fun (s : State) => (s.hdm.map fun (w : Nat × Nat × Nat) => w.1).getD 0
  (∀ (s : State) (offset n agent : Nat) (caches : Bool),
    let row := exec (.hostMemRead offset n agent caches) s
    (windowAt s offset n = none → row = .next { s with outputs := s.outputs ++ [.hostData none] }) ∧
    ∀ pa, windowAt s offset n = some pa →
      (¬ up s → row = .next s) ∧
      (up s → row = .next (ask s { asid := owner s, pa, leaf := if s.pageKept pa then 0x80 else 0, group := 0xFFFE, src := 64,
                                   kind := 4, op := .hostRead n agent caches }))) ∧
  (∀ (s : State) (offset : Nat) (bytes : List (Option Byte)),
    let row := exec (.hostMemWrite offset bytes) s
    let tells := fun (ok : Bool) => row = .next { s with outputs := s.outputs ++ [.hostWrite ok] }
    (windowAt s offset bytes.length = none → tells false) ∧
    ∀ pa, windowAt s offset bytes.length = some pa →
      ((∀ b ∈ bytes, b = none) → tells true) ∧
      ((∃ b ∈ bytes, b ≠ none) → ¬ up s → row = .next s) ∧
      ((∃ b ∈ bytes, b ≠ none) → up s → ∃ (mask : Nat) (op : HomeOp),
        (∀ i, mask.testBit i = true ↔ pa % 128 ≤ i ∧ (bytes.getD (i - pa % 128) none).isSome = true) ∧
        (s.pageKept pa = false → op = .write ((List.range bytes.length).filterMap fun i =>
          (bytes.getD i none).map fun b => (pa % 128 + i, b))) ∧
        (s.pageKept pa = true → ∃ cells, op = .kept cells 0 ∧
          (cells.map fun x => x.1) = (List.range 16).filter (fun j => (List.range 8).any fun k => mask.testBit (8 * j + k)) ∧
          ∀ j v, (j, v) ∈ cells → ∀ k < 8, v.toNat / 2 ^ (8 * k) % 2 ^ 8 =
            if mask.testBit (8 * j + k) then ((bytes.getD (8 * j + k - pa % 128) none).map fun b => b.toNat).getD 0 else 0) ∧
        row = .next (ask s { asid := owner s, pa := pa / 128 * 128, leaf := if s.pageKept pa then 0x80 else 0, group := 0xFFFE,
                             src := 64, log := 64, kind := 4, mask, op }))) ∧
  (∀ (s : State) (pa : Nat),
    let h := pa / 64
    let held := s.half h
    let no := pa < 0x8000000000000 ∨ ¬ up s
    let waits := ∃ b ∈ s.busy, b.line = h / 2
    let data := if held = some .modified then some (readBytes s.mem (64 * h) 64) else none
    let rest := s.halves.filter fun x => x.1 != h
    (no → exec (.snpinv pa) s = .next s ∧ exec (.snpdata pa) s = .next s) ∧
    (¬ no → waits → exec (.snpinv pa) s = .next { s with snoops := s.snoops ++ [(h, true)] } ∧
      exec (.snpdata pa) s = .next { s with snoops := s.snoops ++ [(h, false)] }) ∧
    (¬ no → ¬ waits →
      -- a line with both halves I is absent from L2
      (∃ l, exec (.snpinv pa) s = .next { s with halves := rest, outputs := s.outputs ++ [.snoop h data], l2 := l } ∧
        ((∃ x ∈ rest, x.1 / 2 = h / 2) → l = s.l2) ∧ ((∀ x ∈ rest, x.1 / 2 ≠ h / 2) → l = s.l2.filter fun x => decide (x.line ≠ h / 2))) ∧
      (held ≠ none → exec (.snpdata pa) s = .next { s with halves := (h, .shared) :: rest, outputs := s.outputs ++ [.snoop h data] }) ∧
      (held = none → exec (.snpdata pa) s = exec (.snpinv pa) s))) ∧
  -- one that waited takes effect when the line is free, before anything listed there
  (∀ (s : State) (h : Nat) (inv : Bool) (rest : List (Nat × Bool)), up s → 0x8000000000000 ≤ 64 * h → s.snoops = (h, inv) :: rest →
    (∀ b ∈ s.busy, b.line ≠ h / 2) → (∀ p ∈ rest, ∃ b ∈ s.busy, b.line = p.1 / 2) →
    exec (if inv then .snpinv (64 * h) else .snpdata (64 * h)) { s with snoops := rest } = .next s.settleSnoops) ∧
  ∀ (s : State) (pa : Nat) (own : Bool) (data : List Byte),
    let row := exec (.halfGrant pa own data) s
    let h := pa / 64
    let state : Half := if own then .exclusive else .shared
    let holder := s.busy.find? fun b => b.line == h / 2 && b.acks != 0
    -- the half comes with its data, and its line is in L2
    let gets := fun (v : State) (leaf : DWord) => ({ v with
      mem := writeBytes s.mem (64 * h) (data.take 64)
      halves := (h, state) :: s.halves.filter fun x => x.1 != h } : State).enterL2 (homeSlice (64 * h) leaf) (h / 2)
    (¬ up s → row = .next s) ∧
    (up s → holder = none → (∀ a ∈ s.hostAsks, a.1 ≠ h) → row = .next s) ∧
    (up s → holder = none → (∃ a ∈ s.hostAsks, a.1 = h) →
      row = .next (gets { s with hostAsks := s.hostAsks.filter fun a => decide (a.1 ≠ h) } 0)) ∧
    ∀ b, up s → holder = some b →
      (s.reqs.find? (fun r => r.id == b.req) = none → row = .next s) ∧
      ∀ r, s.reqs.find? (fun r => r.id == b.req) = some r →
        let v := gets { s with busy := s.busy.map fun (x : Busy) => if x.line = b.line then { x with acks := x.acks - 1 } else x } r.leaf
        -- what waits for grants performs when the last of them comes
        let all := r.state = .busy ∧ ∀ x ∈ v.busy, x.req = r.id → x.acks = 0
        (pa < 0x8000000000000 → row = .next s) ∧
        (0x8000000000000 ≤ pa → ¬ all → row = .next v) ∧
        (0x8000000000000 ≤ pa → all → row = .next (v.serveReq r))

/-- Grids that lie on both dies: a cluster placed or granted on each, or one that spans them. -/
def Sys2Proof.Spec.spread (s : State) (g : Grid) : Prop :=
  let on := fun (d : Nat) => (∃ p ∈ g.placed, p.2 = d) ∨ (g.granted ≠ [] ∧ g.leader ≠ none ∧ g.leader ≠ some d)
  (on 0 ∧ on 1) ∨ ∃ c ∈ s.clusters, c.grid = g.id ∧ c.retired = false ∧ (∃ q ∈ c.quads, q / 32 = 0) ∧ ∃ q ∈ c.quads, q / 32 = 1

/-- SEAM_FAILURE and DIE_FAILURE (R200, R300, R314, R328, R342, R402): bonded clusters fault with seam lost in every
gang and are aborted, grids on both dies end partial, jobs with counter sets on both dies are broken, and nothing
crosses the seam; a die that fails stops with its clusters, and the other leads every grid. Shegus tells the host. That
the bonded gangs take their trap state in the step of the abort is the model's choice (log entry 22). -/
def Sys2Proof.Spec.LossRows : Prop :=
  let faulted := fun (u : State) => ({ u with colls := u.colls.map fun (k : CollCommand) =>
    if k.ended = none then { k with ended := some (0, some 0x3F) } else k } : State)
  (∀ s : State,
    let spans := fun (c : Cluster) => (∃ q ∈ c.quads, q / 32 = 0) ∧ ∃ q ∈ c.quads, q / 32 = 1
    (s.seam = false ∨ s.dies ≠ 2 → exec .seamFailure s = .next s) ∧
    (s.seam = true → s.dies = 2 → ∃ u : State, exec .seamFailure s = .next ((faulted u).notice (6 + 2 * 2 ^ 8)) ∧
      u.seam = false ∧ u.up = s.up ∧ u.mem = s.mem ∧ u.jobs = s.breakJobs.jobs ∧
      u.sendBuf = (s.sendBuf.filter fun m => !s.crosses m) ∧ (∀ d ∈ u.dir, 0 ∉ d.agents ∧ d.vector % 2 = 0) ∧
      (∀ c ∈ u.clusters, spans c → c.retired = true ∨ c.aborted = true) ∧
      (∀ g ∈ s.gangs, let c := s.cluster (s.team g.team).cluster
        spans c → c.retired = false → c.aborted = false → ∀ x ∈ u.threads, x.team = g.team → x.rank ∈ g.members → x.fault.toNat % 2 ^ 8 = 0x3F) ∧
      (∀ g ∈ s.grids, g.status = none → spread s g → ∃ x ∈ u.grids, x.id = g.id ∧ x.status ≠ none) ∧
      ∀ x ∈ u.grids, x.status = none → ∃ g ∈ s.grids, g.id = x.id ∧ g.status = none ∧
        (x.alone = true ↔ g.alone = true ∨ g.leader ≠ none))) ∧
  ∀ (s : State) (die : Nat),
    (s.dieUp die = false → exec (.dieFailure die) s = .next s) ∧
    (s.dieUp die = true → ∃ u : State,
      exec (.dieFailure die) s = .next ((if s.dies = 2 then faulted u else u).notice (6 + die * 2 ^ 8)) ∧
      u.up = s.up.set die false ∧ u.mem = s.mem ∧ (die = 0 → u.hostPort = false) ∧ (die ≠ 0 → u.hostPort = s.hostPort) ∧
      (∀ c ∈ u.clusters, (∃ q ∈ c.quads, q / 32 = die) → c.retired = true ∨ c.aborted = true) ∧
      (s.dies = 2 → u.seam = false ∧ ∀ x ∈ u.grids, x.status = none → x.leader = some (1 - die) ∧ x.alone = true) ∧
      (s.dies ≠ 2 → ∀ x ∈ u.grids, x.status = none → ∀ j ∈ s.jobs, j.id = x.job → j.closed = true))

/-- CORRECTABLE_ERROR, FLIT_PARITY_ERROR and UNCORRECTABLE_ERROR (R24, R402): counts by die and class, the notice to the
host, and the abort of the job that owns the data. The classes' numbers are the model's choice (log entry 21), and cause
and data where the rules give none are free (log entry 1). -/
def Sys2Proof.Spec.ErrorRows : Prop :=
  let counted := fun (s : State) (k : Nat) => ({ s with ecc := setKey s.ecc k ((getKey s.ecc k 0 + 1) % 2 ^ 64) 0 } : State)
  let tells := fun (s : State) (job block line cause : Nat) =>
    (s.notice (1 + job % 2 ^ 12 * 2 ^ 8 + block % 2 ^ 8 * 2 ^ 20 + line % 2 ^ 36 * 2 ^ 28)).abortJob job 5 cause
  let free := fun (s : State) (i : Nat) => Config.freeValue (s.fresh + i)
  (∀ s die cls,
    (s.hasDie die = false ∨ 3 ≤ cls → exec (.correctableError die cls) s = .next s) ∧
    (s.hasDie die = true → cls < 3 → exec (.correctableError die cls) s = .next (counted s (8 * (die % 2) + 2 * cls)))) ∧
  (∀ s die again,
    (s.hasDie die = false → exec (.flitParityError die again) s = .next s) ∧
    (s.hasDie die = true → exec (.flitParityError die again) s = .next (
      if again = false then counted s (8 * (die % 2) + 4)
      else tells (counted { s with fresh := s.fresh + 4 } (8 * (die % 2) + 5))
        (free s 0 % 2 ^ 12) (free s 1) (free s 2) (free s 3 % 256)))) ∧
  ∀ s job block line, exec (.uncorrectableError job block line) s = .next
    (tells (counted { s with fresh := s.fresh + 2 } (8 * (line / 2 ^ 31 % 2) + 2 * (free s 0 % 2) + 1)) job block line
      (free s 1 % 256))

/-- SUPPLY_SAG, CLOCK_RECOVERY_STEP, THERMAL_THROTTLE and THERMAL_TRIP (R22, R407, R408): the clock of a die falls by a
sixteenth to no less than eight, and rises by one 1 µs after a fall or 2 µs after a rise; at the trip point every job is
aborted and the device is held. When the clock rises is the model's choice (log entry 25). -/
def Sys2Proof.Spec.ClockRows : Prop :=
  -- what a die's clock has counted, in sixteenths of a unit of `State.now`
  let ticks := fun (s : State) (die : Nat) =>
    let c := s.clocks.getD die (0, 0, 16)
    c.1 + (s.now - c.2.1) * c.2.2
  let stands := fun (s : State) (die rate : Nat) (up : Bool) =>
    ({ s with clocks := s.clocks.set die (ticks s die, s.now, rate), rose := s.rose.set die up } : State)
  let rate := fun (s : State) (die : Nat) => (s.clocks.getD die (0, 0, 0)).2.2
  let since := fun (s : State) (die : Nat) => (s.clocks.getD die (0, 0, 0)).2.1
  let falls := fun (s : State) (die : Nat) => if s.dieUp die = true ∧ 8 < rate s die then stands s die (rate s die - 1) false else s
  (∀ s die, exec (.supplySag die) s = .next (falls s die)) ∧
  (∀ s die,
    let due := s.dieUp die = true ∧ rate s die < 16 ∧ since s die + (if s.rose.getD die false then 4800 else 2400) * 45045 ≤ s.now
    (¬ due → exec (.clockRecoveryStep die) s = .next s) ∧
    (due → exec (.clockRecoveryStep die) s = .next (stands s die (rate s die + 1) true))) ∧
  (∀ s, exec .thermalThrottle s = .next (falls (falls s 0) 1)) ∧
  ∀ s, ∃ v : State, exec .thermalTrip s = .next v ∧ v.up = (s.up.set 0 false).set 1 false ∧
    (∀ j ∈ s.jobs, j.closed = false → ∀ x ∈ v.grids, x.job = j.id → x.status ≠ none) ∧
    v.clocks = (s.clocks.set 0 (ticks s 0, s.now, 0)).set 1 (ticks s 1, s.now, 0)

/-- RESET (R404): the image is measured and taken, or refused for its signature, a version below the fused counter, or a
difference from the flash; the cores start their clock counts each in its own time (model's choice, log entry 82); die 1
takes its image from die 0, so it is reset only while die 0 runs. That a reset acts as the die's loss is the model's
choice (log entry 23). -/
def Sys2Proof.Spec.ResetRow : Prop :=
  ∀ (s : State) (die : Nat) (image : List Byte) (version : Nat) (good : Bool),
    let row := exec (.reset die image version good) s
    let follows := s.dies = 2 ∧ die = 1
    let absent := s.hasDie die = false ∨ (follows ∧ (s.dieUp 0 = false ∨ s.seamBroken = true ∨ image ≠ s.images.getD 0 [] ∨
      version ≠ s.firmware.getD 0 0))
    let measured := fun (l : List (List Byte)) (k : Nat) (d : List Byte) => l.set k (Config.shake256 (l.getD k [] ++ d) 64)
    let v := if s.dieUp (1 - die) then (s.loseDie die).clearDie die else (s.loseDie die).powerOn
    let bad := good = false ∨ version < s.rollback ∨ (¬ follows ∧ s.flash ≠ [] ∧ s.flash ≠ image)
    (absent → row = .next s) ∧
    (¬ absent → bad → row = .next { v with
      up := v.up.set die false
      clocks := v.clocks.set die (0, v.now, 0)
      outputs := v.outputs ++ [.linkStatus die] }) ∧
    (¬ absent → ¬ bad → row = .next { v with
      fresh := v.fresh + 128
      coreSkew := (v.coreSkew.filter fun c => decide (c.1 / 128 ≠ die)) ++
        (List.range 128).map fun i => (128 * die + i, Config.freeValue (v.fresh + i))
      up := v.up.set die true
      clocks := v.clocks.set die (0, v.now, 16)
      rose := v.rose.set die false
      seam := decide (v.dies = 2) && !v.seamBroken
      hostPort := v.hostPort || decide (die = 0)
      firmware := v.firmware.set die version
      images := v.images.set die image
      slots := measured (measured v.slots 0 (Config.romDigest die)) 1 (Config.shake256 image 64) }) ∧
    -- a reset of the last running die leaves nothing but the straps, the flash and the model's own books
    (s.dieUp (1 - die) = false → v.mem = [] ∧ v.jobs = [] ∧ v.grids = [] ∧ v.gangs = [] ∧ v.flash = s.flash ∧ v.rollback = s.rollback ∧
      v.order = s.order ∧ v.dies = s.dies)

/-- What comes off the fabric at a die's interface (R218, R228, R317, R318, R322, R323, R337, R392): a message or a
record of a peer device of the job, which the interface counts as injected and consumed, and a peer's write, sent to its
home. What a peer sends is the row's choice (log entry 78). -/
def Sys2Proof.Spec.PeerRows : Prop :=
  (∀ (s : State) (die : Nat) (m : Message),
    let port := 64 + die
    let kind := m.image.toNat / 2 ^ 125 % 2 ^ 3
    let comes := s.dieUp die = true ∧ s.job? m.job ≠ none ∧ m.dev ∈ (s.job m.job).devices ∧ (kind = 3 ∨ kind = 4) ∧
      1 ≤ m.elems.length ∧ m.elems.length ≤ 7 ∧ (s.sendBuf.filter fun x => x.port == port).length < 256 ∧ s.canCount port m.job = true
    (¬ comes → s.takeMessageOff die m = s) ∧
    (comes → s.takeMessageOff die m = ({ s with
      nextId := s.nextId + 1
      sendBuf := s.sendBuf ++ [{ m with id := s.nextId, port := port, team := 0, entry := 0, rejects := 0, retryAt := 0, aged := none }] } : State).count
        port m.job fun k => { k with mi := (k.mi + 1) % 2 ^ 48, mc := (k.mc + 1) % 2 ^ 48 })) ∧
  ∀ (s : State) (die dev pa : Nat) (bytes : List Byte),
    let comes := s.dieUp die = true ∧ dev < 1024 ∧ dev ≠ s.pod ∧ bytes ≠ [] ∧ pa % 128 + bytes.length ≤ 128 ∧ pa < 2 ^ 39 ∧
      s.dieUp (pa / 2 ^ 38) = true
    (¬ comes → s.peerWriteIn die dev pa bytes = s) ∧
    (comes →
      let lo := pa % 128
      let given := fun (i : Nat) => decide (lo ≤ i ∧ i < lo + bytes.length)
      let cells := ((List.range 16).filter fun j => (List.range 8).any fun k => given (8 * j + k)).map fun j =>
        (j, BitVec.ofNat 64 (fromBits 64 fun b => given (8 * j + b / 8) && (bytes.getD (8 * j + b / 8 - lo) 0).toNat.testBit (b % 8)))
      s.peerWriteIn die dev pa bytes = ask s {
        asid := s.ownerOf pa, pa := pa / 128 * 128, leaf := if s.pageKept pa then 0x80 else 0,
        group := 0x8000 + dev, src := 68 + die, log := 65 + die, kind := 5, mask := 2 ^ lo * (2 ^ bytes.length - 1),
        op := if s.pageKept pa then .kept cells 0 else .write (bytes.mapIdx fun i b => (lo + i, b)) })


/-! ### Reset, and what every step keeps -/

/-- The state after reset: nothing runs, no memory is written, the six registers of every command queue are 0 and nothing is
pending in it (R398), the arrival counts and the cores' clocks are 0 (R22, R216), no half of a host line is held (R393), no
page is translated, no counter set is in use, and both dies run. Its memories are canonical and its records sound. -/
def Obligations.ResetState : Prop :=
  let s := State.reset
  (s.jobs = [] ∧ s.grids = [] ∧ s.clusters = [] ∧ s.teams = [] ∧ s.threads = [] ∧ s.gangs = [] ∧ s.folds = [] ∧ s.mem = [] ∧ s.kept = [] ∧
    s.halves = [] ∧ s.tlb = [] ∧ s.roots = [] ∧ s.sets = [] ∧ s.inbox = [] ∧ s.hdm = none) ∧
  (s.queues.length = 16 ∧ ∀ q ∈ s.queues, q.qbase = 0 ∧ q.cbase = 0 ∧ q.lg = 0 ∧ q.enable = false ∧ q.error = false ∧ q.tail = 0 ∧
    q.head = 0 ∧ q.chead = 0 ∧ q.entries = [] ∧ q.stalled = none) ∧
  (∀ slice, s.arrival slice = 0) ∧ (∀ core < 256, s.coreClock core = 0) ∧ s.dieUp 0 = true ∧ s.dieUp 1 = true ∧
  (∀ a, readByte s.mem a = 0) ∧ s.canonical ∧ s.recordsSound

/-- Every step, whatever row or tick it takes, keeps every byte memory of the device in its canonical form: physical memory,
pools, palette rows, easels and accumulator banks. -/
def Obligations.StepKeepsCanonicalMemory : Prop :=
  ∀ s t : State, s.canonical → step s = .next t → t.canonical

/-- Every step keeps the records sound: outstanding results are numbered below the next number, and the team of every gang,
fold and filed thread is listed (R69, R73, R81). -/
def Obligations.StepKeepsRecords : Prop :=
  ∀ s t : State, s.recordsSound → step s = .next t → t.recordsSound

/-! ### Region lines, records and lines of copies -/

/-- A cluster's region line takes a new record; an absent line is not listed (R210). -/
def Sys2Proof.Spec.putLine (s : State) (cluster : Nat) (l : RegionLine) : State :=
  { s with clusters := s.clusters.map fun (x : Cluster) => if x.id = cluster then
      { x with lines := (if l.st = .absent then [] else [l]) ++ x.lines.filter fun y => y.line != l.line } else x }

/-- The fill of a line starts: it takes the next fill number, and a counter counts it (R210, R378). -/
def Sys2Proof.Spec.fillStarts (s : State) (cluster line : Nat) (sys : Bool) : State :=
  (putLine { s with nextId := s.nextId + 1 } cluster { (s.cluster cluster).line line with
    st := .filling, sys, fid := s.nextId, req := 0, walked := none, missing := false, data := none }).bump
    ((s.cluster cluster).quadOf line) 0

/-- A line needs a fill before it serves an access (R210): it is absent, or partial with a byte that the access reads and
that its dirty mask does not name. -/
def Sys2Proof.Spec.lineLacks (l : RegionLine) (line key n : Nat) (reads : Bool) : Bool :=
  l.st == .absent || (l.st == .partialLine && reads &&
    (List.range 128).any fun i => decide (key ≤ line + i ∧ line + i < key + n) && !l.mask.testBit i)

/-- The dirty mask of a line after a store to a range: the bits of the range's bytes are set too, and no other (R210). -/
def Sys2Proof.Spec.MarksBytes : Prop :=
  ∀ line key n m i : Nat, (Nat.lor m (maskBits line key n)).testBit i =
    (m.testBit i || decide (i < 128 ∧ key ≤ line + i ∧ line + i < key + n))

/-- The first touch of prefetched lines counts (R378). -/
def Sys2Proof.Spec.touched (s : State) (cluster key n : Nat) : State :=
  ((s.cluster cluster).linesIn key n).foldl (fun u line =>
    let c := u.cluster cluster
    let l := c.line line
    if l.prefetched = true ∧ l.st ≠ .absent then (putLine u cluster { l with prefetched := false }).bump (c.quadOf line) 1 else u) s

/-- The lines that a store of `n` bytes meets: a clean one is dirty, and the stored bytes are in the masks (R210). -/
def Sys2Proof.Spec.dirtied (s : State) (cluster key n : Nat) : State :=
  ((s.cluster cluster).linesIn key n).foldl (fun u line =>
    let l := (u.cluster cluster).line line
    putLine u cluster { l with st := if l.st = .clean then .dirty else l.st, mask := Nat.lor l.mask (maskBits line key n) }) s

/-- The fills that an access starts, one after another, each while its quad has a fill slot for it (R206, R210). -/
def Sys2Proof.Spec.fillsFor (s : State) (a : Access) (limit : Nat) : State :=
  ((s.cluster a.cluster).linesIn a.key a.size).foldl (fun u line =>
    if lineLacks ((u.cluster a.cluster).line line) line a.key a.size a.op.reads = true ∧
        u.fillsOf ((u.cluster a.cluster).quadOf line) < limit then fillStarts u a.cluster line a.sys else u) s

/-- An access that its lines do not serve waits, or is sent again; one that meets a prefetched fill counts (R184, R378). -/
def Sys2Proof.Spec.waitsFor (s : State) (a : Access) : State :=
  let c := s.cluster a.cluster
  let late := (c.linesIn a.key a.size).any fun line => (c.line line).st == .filling && (c.line line).prefetched
  (if late then s.bump (s.team a.team).quad 2 else s).waitOrReject a
/-- POOL_ACCESS_PERFORM: an access that nothing must precede is served, its bytes, full bit and results in one step, and then
the waiters are scanned; or it waits or is rejected (R178, R183 to R187). Where regions map its bytes, every line of theirs
must serve first: an absent line, or a partial one read in clean bytes, starts its fill where a slot is free, and a store sets
the dirty bits of its bytes alone (R206, R210). A barrier or ring wait for which its gang is held may be refused instead
(R192). One that something must precede, one that is not on its way, and a place that is kept (notes/assumptions/37.md) does
nothing. -/
def Sys2Proof.Spec.PoolAccessPerforms : Prop := MarksBytes ∧
  ∀ (s : State) (id : Nat),
    ((∀ a ∈ s.accesses, a.id = id → a.state ≠ .sent) → exec (.poolAccessPerform id) s = .next s) ∧
    ∀ a, (s.accesses.find? fun a => decide (a.id = id ∧ a.state = .sent)) = some a →
      (a.op = .place ∨ s.blockers a ≠ [] → exec (.poolAccessPerform id) s = .next s) ∧
      let c := s.cluster a.cluster
      let v := readNat c.pool a.key a.size
      let cnt := getKey c.counts (a.key / 8) 1
      let held := s.gangs.find? fun g => decide (g.status = .held (.accept id) ∨ g.status = .stopped (some (.accept id)))
      let refused := refusedAt a (readNat c.pool a.key 16)
      let ready := ∀ line ∈ c.linesIn a.key a.size, lineLacks (c.line line) line a.key a.size a.op.reads = false ∧ (c.line line).st ≠ .filling
      (∀ g cause, s.blockers a = [] → a.op ≠ .place → held = some g → refused = some cause →
        exec (.poolAccessPerform id) s = .next (s.refuseAccess a g cause)) ∧
      (s.blockers a = [] → (held = none ∨ refused = none) → a.dst ≠ none → (∀ d, a.op ≠ .inv d) → a.op ≠ .prefetch → a.op ≠ .place →
        (¬ ready → exec (.poolAccessPerform id) s = .next (waitsFor (fillsFor s a (s.fillLimit a)) a)) ∧
        (ready → servable c a v = false → exec (.poolAccessPerform id) s = .next (s.waitOrReject a)) ∧
        (ready → servable c a v = true →
          let x := touched s a.cluster a.key a.size
          let u : State := { x with
            accesses := s.accesses.filter fun e => e.id != id,
            clusters := x.clusters.map fun (x : Cluster) => if x.id = a.cluster then
              { x with
                pool := writeBytes x.pool a.key (stored a v),
                empties := match fullAfter a with
                  | none => x.empties
                  | some f => (if f then [] else [a.key / 8]) ++ x.empties.filter fun k => k != a.key / 8 }
              else x }
          exec (.poolAccessPerform id) s = .next
            ((servedEnd (dirtied u a.cluster a.key (stored a v).length) (s.team a.team) c a v cnt).rescan a.cluster)))

/-- RPREF and RINV where they perform (R230). A prefetch of a mapped line that is absent or partial starts its fill, which ends
it, where a slot is free; any other is over. An invalidation discards the clean data of the mapped lines that its range meets
and, with drop, their dirty data too: no byte of pool changes, a line in F serves those that waited before the first such
moment alone (the model's mark: notes/assumptions/61.md), and its waiters are scanned. -/
def Sys2Proof.Spec.PrefetchAndInvalidate : Prop :=
  ∀ (s : State) (a : Access), (s.accesses.find? fun e => decide (e.id = a.id ∧ e.state = .sent)) = some a →
    s.blockers a = [] → a.dst ≠ none →
    let c := s.cluster a.cluster
    let rest := s.accesses.filter fun e => e.id != a.id
    (a.op = .prefetch →
      let l := c.line a.key
      let starts := c.mapping a.key ≠ none ∧ (l.st = .absent ∨ l.st = .partialLine)
      let room := s.fillsOf (c.quadOf a.key) < s.fillLimit a
      (¬ starts → exec (.poolAccessPerform a.id) s = .next
        ((({ s with accesses := rest } : State).settleTicket a.ticket a.rank).fileReady.rescan a.cluster)) ∧
      (starts → ¬ room → exec (.poolAccessPerform a.id) s = .next (waitsFor s a)) ∧
      (starts → room → exec (.poolAccessPerform a.id) s = .next (((putLine { s with nextId := s.nextId + 1, accesses := rest } a.cluster
        { l with st := .filling, sys := a.sys, fid := s.nextId, req := 0, walked := none, missing := false, data := none,
                 prefetched := true, prefs := l.prefs ++ [(a.ticket, a.rank)] }).bump (c.quadOf a.key) 0).rescan a.cluster))) ∧
    ∀ drop, a.op = .inv drop → ∃ k,
      let hit := fun (l : RegionLine) => (c.mapping l.line).isSome && decide (a.key < l.line + 128) && decide (l.line < a.key + a.size)
      let after := fun (l : RegionLine) =>
        if hit l = false then some l
        else match l.st with
          | .clean => none
          | .dirty | .partialLine => if drop then none else some { l with st := .partialLine }
          | .filling => some { l with drop := some (l.drop.getD s.nextId), mask := if drop then 0 else l.mask }
          | .absent => some { l with mask := if drop then 0 else l.mask }
      (∀ i, i % 8 ≠ 3 → getKey k i 0 = getKey s.counters i 0) ∧
      exec (.poolAccessPerform a.id) s = .next ((({ s with
        nextId := s.nextId + 1, counters := k, accesses := rest,
        clusters := s.clusters.map fun (x : Cluster) => if x.id = a.cluster then { x with lines := x.lines.filterMap after } else x } :
          State).settleTicket a.ticket a.rank).fileReady.rescan a.cluster)

/-- An access that a failed fill ends: its gang traps where it is held for it at its word, else its thread takes the cause at
its gang's next clause start (R212; notes/assumptions/99.md). -/
def Sys2Proof.Spec.accessFails (cause : Cause) (info : Nat) (s : State) (a : Access) : State :=
  let v := ({ s with accesses := s.accesses.filter fun e => e.id != a.id } : State).settleTicket a.ticket a.rank
  match s.gangs.find? fun g => g.status == .held (.accept a.id) with
  | some g => v.trapHeld g cause (addrOfKey a.key) info
  | none => ({ v with threads := v.threads.map fun (t : Thread) =>
      if t.team = a.team ∧ t.rank = a.rank then { t with pend := t.pend ++ [(cause, addrOfKey a.key)] } else t } : State).fileReady

/-- A fill that its page walk ends with a cause other than not-present (R212, R250, R342): the line is absent again, or
partial; its prefetches are over; each gang held for it traps at its word; a weak store to it is discarded, and so is an
access that waits at the share and cannot be served without it, with the cause for their threads; a copy's line that waits for it
faults, and so does a command that waits for it or a collective; an easel load keeps its loss (the objects and the ring that a
command cannot reach are left out: notes/assumptions/100.md). Then the waiters are scanned. -/
def Sys2Proof.Spec.FailedFill : Prop :=
  ∀ (s : State) (cluster line : Nat) (cause : Cause) (info : Nat),
    let l := (s.cluster cluster).line line
    l.st = .filling →
      let weak := fun (a : Access) => a.ord == 0 && match a.op with
        | .store _ | .storeEmpty _ | .setState _ => true
        | _ => false
      let waits := fun (a : Access) => match a.state, a.op with
        | .waiting _, .barrier .. => false
        | .waiting _, _ => l.mask == 0 || (a.op.reads && (List.range 128).any fun i =>
          decide (a.key ≤ line + i ∧ line + i < a.key + a.size) && !l.mask.testBit i)
        | _, _ => false
      let ids := s.accesses.filter fun a => a.cluster == cluster && a.dst.isSome && decide (a.key < line + 128 ∧ line < a.key + a.size) &&
        (weak a || waits a) && match a.op with
          | .prefetch | .inv _ | .place => false
          | _ => true
      let mine := fun (team : Nat) (w : Option Nat) => decide (w = some line ∧ (s.team team).cluster = cluster)
      let x := l.prefs.foldl (fun (v : State) p => v.settleTicket p.1 p.2) (putLine s cluster { l with
        st := if l.mask = 0 then .absent else .partialLine, walked := none, missing := false, data := none, prefs := [],
        prefetched := false, drop := none })
      let y := s.gangs.foldl (fun (v : State) g => match g.status with
        | .held (.line k n addr _) => if k = cluster ∧ n = line then v.trapHeld g cause addr info else v
        | .held (.fill k n) => if k = cluster ∧ n = line then v.trapHeld g cause (addrOfKey line) info else v
        | _ => v) x
      let z := ids.foldl (accessFails cause info) y
      s.failLine cluster l cause info = ({ z with
        commands := z.commands.map fun (k : CopyCommand) =>
          let gone := k.lines.any fun e => k.faultAt == some e.idx && mine k.team e.waits
          let k1 : CopyCommand := { k with
            lines := k.lines.map fun (e : CopyLine) =>
              if mine k.team e.waits = false then e
              else if k.faultAt = some e.idx then { e with waits := none }
              else { e with waits := none, deaf := true, fault := some cause.code },
            flts := if gone then k.flts.drop 1 else k.flts,
            unbinds := k.unbinds && !(gone && k.flts.isEmpty) }
          if mine k.team k.waits then { k1 with
            waits := none, ended := true, issued := k.issued + 1,
            lines := k1.lines ++ [{ idx := k.issued, deaf := true, fault := some cause.code, gone := true }] }
          else k1,
        mcommands := z.mcommands.map fun (k : MCommand) => match k.op with
          | .easld core row n addr failed =>
            if (s.team k.team).cluster = cluster ∧ keyOf addr < line + 128 ∧ line < keyOf addr + 64 * n then
              { k with op := .easld core row n addr (line :: failed) }
            else k
          | _ => k,
        colls := z.colls.map fun (k : CollCommand) =>
          if mine k.team k.waits then { k with waits := none, bar := none, ended := some (0, some cause.code) } else k } : State).rescan
        cluster

/-- One visit of a write-back walk (R213, R230, R352, R356): the lowest dirty line of its range; one that is filling is waited
for, and a partial one whose page can be read is filled first; the line's dirty bytes leave in one step, with clear dirty bits,
as a masked write home or, on a kept page, as kept writes of their cells with the larger of the cluster's sight and the line's
basis; where the page does not translate or allow the write they retire into the side log of the line's quad, once it has
room. With no dirty line left the walk ends when its writes have performed, a release's when they have left the side log too.
The clean bytes of a partial line's cells are taken at the home (notes/assumptions/98.md). -/
def Sys2Proof.Spec.WriteBackWalks : Prop :=
  ∀ (s : State) (r : HomeReq) (lo hi : Nat), r.op = .walk lo hi → r.state ≠ .busy → s.reqHolds r = [] →
    (s.reqs.find? fun e => e.id == r.id && (e.state == .sent || e.isListed || s.memoryDue e)) = some r →
    let change := fun (v : State) (f : HomeReq → HomeReq) =>
      ({ v with reqs := v.reqs.map fun (e : HomeReq) => if e.id = r.id then f e else e } : State)
    let row := exec (.homeRequestService r.id) s
    let c := s.cluster r.cluster
    let due := fun (l : RegionLine) => l.mask != 0 && decide (lo ≤ l.line ∧ l.line < hi)
    (r.stage = 0 → row = .next (change s fun e => { e with stage := 1, after := [] })) ∧
    (r.stage ≠ 0 → (∀ l ∈ c.lines, due l = false) →
      let late := ∃ i ∈ r.after, (∃ a ∈ s.accesses, a.id = i) ∨ (∃ e ∈ s.reqs, e.id = i) ∨ (r.ord = 3 ∧ ∃ e ∈ s.side, e.req.id = i)
      (late → row = .next s) ∧
      (¬ late → row = .next { s.settleTicket r.ticket r.rank with reqs := s.reqs.filter fun e => e.id != r.id })) ∧
    (r.stage ≠ 0 → ∀ l, (c.lines.find? fun x => due x && c.lines.all fun y => !due y || decide (x.line ≤ y.line)) = some l →
      let asid := r.asid
      let takes := fun (u : State) => match (u.cluster r.cluster).mapping l.line with
        | none => row = .next (change u fun e => { e with op := .walk (l.line + 1) hi })
        | some (_, o, va) =>
          let pool := (u.cluster r.cluster).pool
          let quad := (u.cluster r.cluster).quadOf l.line
          let cells := ((List.range 16).filter fun j => (List.range 8).any fun i => l.mask.testBit (8 * j + i)).map fun j =>
            (j, BitVec.ofNat 64 (readNat pool (l.line + 8 * j) 8))
          let bytes := ((List.range 128).filter fun i => l.mask.testBit i).map fun i => (i, readByte pool (l.line + i))
          let req : HomeReq := {
            team := r.team, rank := r.rank, cluster := r.cluster, job := r.job, asid, sys := r.sys, va, back := true,
            group := (u.cluster r.cluster).group, pl := regPl o, log := quad, mask := l.mask, src := quad, merge := l.st == .partialLine }
          let cleaned := fun (v : State) => change
            (putLine v r.cluster { l with mask := 0, st := if l.st = .dirty then .clean else l.st }) fun e => { e with op := .walk (l.line + 1) hi }
          let t := u.translate asid va r.sys { w := true }
          (∀ pa leaf, t.1 = .ok pa leaf →
            let sight := max ((u.cluster r.cluster).sight (homeSlice pa leaf)) l.basis
            row = .next (change (ask (cleaned t.2) { req with
              pa, leaf, op := if leafK leaf then .kept cells sight else .write bytes, kind := if leafK leaf then 2 else 0 })
              fun e => { e with after := e.after ++ [t.2.nextId] })) ∧
          (∀ why info, t.1 = .fail why info → 512 ≤ (t.2.side.filter fun e => e.log == quad).length → row = .next u) ∧
          (∀ why info, t.1 = .fail why info → (t.2.side.filter fun e => e.log == quad).length < 512 →
            let sight := max l.basis (u.cluster r.cluster).lowSight
            let q : HomeReq := { req with id := t.2.nextId, op := .kept cells sight, state := .sent }
            let v := cleaned t.2
            ∃ slot k w, (slot < 512 ∧ ∀ e ∈ t.2.side, e.log = quad → e.slot ≠ slot) ∧ (why.code ≠ 0x16 → why.code ≠ 0x17 → w = t.2.wakes) ∧
              row = .next (change { v with
                nextId := t.2.nextId + 1, wakes := w, counters := k,
                reqs := v.reqs.filter fun e => e.id != t.2.nextId,
                side := v.side ++ [{ log := quad, seq := getKey v.sideSeq quad 0, slot, req := q, bytes := bytes.length, sight, cause := why.code }],
                sideSeq := setKey v.sideSeq quad ((getKey v.sideSeq quad 0 + 1) % 2 ^ 32) 0 } fun e => { e with after := e.after ++ [t.2.nextId] }))
      (l.st = .filling → row = .next s) ∧
      (l.st ≠ .filling → l.st ≠ .partialLine ∨ c.mapping l.line = none → takes s) ∧
      (∀ m, l.st = .partialLine → c.mapping l.line = some m →
        let t := s.translate asid m.2.2 r.sys { r := true }
        (∀ pa leaf, t.1 = .ok pa leaf → row = .next
          (if t.2.fillsOf ((t.2.cluster r.cluster).quadOf l.line) < 992 then fillStarts t.2 r.cluster l.line r.sys else t.2)) ∧
        (∀ why info, t.1 = .fail why info → takes t.2)))

/-- A field of a layout record (R240), its dimensions' extents, and its pool and global strides. -/
def Sys2Proof.Spec.recordField (v hi lo : Nat) : Nat := v / 2 ^ lo % 2 ^ (hi + 1 - lo)
def Sys2Proof.Spec.extentOf (v d : Nat) : Nat :=
  recordField v ([143, 159, 175, 191, 255].getD d 0) ([128, 144, 160, 176, 240].getD d 0) + 1
def Sys2Proof.Spec.poolStride (v d : Nat) : Nat :=
  if d = 0 then 0 else recordField v ([0, 403, 423, 443, 467].getD d 0) ([0, 384, 404, 424, 448].getD d 0)
def Sys2Proof.Spec.globalStride (v d : Nat) : Int := if d = 0 then 0 else (BitVec.ofNat 32 (v / 2 ^ (224 + 32 * d))).toInt
def Sys2Proof.Spec.elementSize (v : Nat) : Nat := 2 ^ recordField v 498 496

/-- The status of a record in a cluster, for a glaze depth and a plane stride: the first code of R243's table that holds. GPS
without GL, and PBASE [31:19] with DST 1, count as reserved (the model's choice: notes/assumptions/118.md). -/
def Sys2Proof.Spec.RecordStatus : Prop :=
  ∀ (c : Cluster) (v depth stride : Nat),
    let f := recordField v
    let gl := v.testBit 504
    let dst := f 503 502
    let dims := f 501 499
    let esz := elementSize v
    let base := f 127 96
    let row := extentOf v 0 * esz
    let moved := row + ((List.range 5).map fun d => (extentOf v d - 1) * poolStride v d).sum
    let inShare := fun a => a / 2 ^ 30 = 0 ∧ a / 2 ^ 20 % 2 ^ 4 = 0 ∧ a / 2 ^ 24 % 2 ^ 6 < 4 * c.quads.length ∧ a % 2 ^ 20 < c.share
    let bases := if f 239 192 = 0 then [base] else (namesOf (f 239 192)).map fun k => setBits base 29 24 k
    let fits := ∀ b ∈ bases, ∀ k ≤ (if gl then depth else 0), let a := (b + k * stride) % 2 ^ 32
      inShare a ∧ inShare (a + moved - 1) ∧ a / 2 ^ 24 = (a + moved - 1) / 2 ^ 24
    let wrong : List Prop := [
      f 511 508 ≠ 9,
      2 ≤ dst ∨ dims = 0 ∨ 5 < dims ∨ 5 < f 498 496,
      f 507 505 ≠ 0 ∨ f 495 468 ≠ 0 ∨ f 447 444 ≠ 0 ∨ f 63 57 ≠ 0 ∨ (gl = false ∧ f 95 64 ≠ 0) ∨ (dst = 1 ∧ base / 2 ^ 19 ≠ 0) ∨
        ∃ d < 5, dims ≤ d ∧ (extentOf v d ≠ 1 ∨ poolStride v d ≠ 0 ∨ globalStride v d ≠ 0),
      f 56 0 % esz ≠ 0 ∨ (∃ d < 5, globalStride v d % esz ≠ 0) ∨ (dst = 0 ∧ (base % esz ≠ 0 ∨ ∃ d < 5, poolStride v d % esz ≠ 0)),
      f 239 192 / 2 ^ (4 * c.quads.length) ≠ 0 ∨ (dst = 0 ∧ (base / 2 ^ 30 ≠ 0 ∨ ¬ fits)),
      gl = true ∧ (f 95 64 = 0 ∨ dst = 1 ∨ f 239 192 ≠ 0),
      dst = 1 ∧ (dims ≠ 2 ∨ f 239 192 ≠ 0 ∨ row % 64 ≠ 0)]
    layStatus c v depth stride ≤ 7 ∧ (∀ j < 7, layStatus c v depth stride = j + 1 → wrong.getD j False) ∧
      ∀ j < 7, wrong.getD j False → layStatus c v depth stride ≠ 0 ∧ layStatus c v depth stride ≤ j + 1

/-- TLAY's move of a record (R255): with .g GBASE moves by the coordinates, with .p the offset of PBASE, or with a palette
record its first row; no other bit changes. -/
def Sys2Proof.Spec.RecordMoves : Prop :=
  ∀ (v coords : Nat) (g p : Bool), v < 2 ^ 512 →
    let out := layMove v g p coords
    let step := fun (i : Nat) => (BitVec.ofNat 16 (coords / 2 ^ (16 * i))).toInt
    let pool := recordField v 503 502 = 0
    let moved := fun (hi lo : Nat) (by_ : Int) => ((recordField out hi lo : Nat) : Int) = ((recordField v hi lo : Nat) + by_) % 2 ^ (hi + 1 - lo)
    (g = true → moved 56 0 (step 0 * elementSize v + step 1 * globalStride v 1 + step 2 * globalStride v 2 + step 3 * globalStride v 3)) ∧
    (p = true → pool → moved 115 96 (step 0 * elementSize v + step 1 * poolStride v 1 + step 2 * poolStride v 2 + step 3 * poolStride v 3)) ∧
    (p = true → ¬ pool → moved 114 102 (step 1)) ∧
    ∀ i, ¬ (g = true ∧ i ≤ 56) → ¬ (p = true ∧ pool ∧ 96 ≤ i ∧ i ≤ 115) → ¬ (p = true ∧ ¬ pool ∧ 102 ≤ i ∧ i ≤ 114) → out.testBit i = v.testBit i

/-- What a transfer command refuses about its record, its index list, its palette reservation and its ring (R242, R244, R246,
R247, R254): kinds 0 to 5 are TCOPY, TSTORE, TGATHER, TSCAT, TSTREAM and TDRAIN. The first of several refusals is that of the
record, then of the list, of the palette, of the ring (the model's choice: notes/assumptions/120.md). -/
def Sys2Proof.Spec.RecordRefusals : Prop :=
  ∀ (c : Ctx) (m : Matrix) (kind v list ring header : Nat), kind < 6 →
    let f := recordField v
    let rows := kind = 2 ∨ kind = 3
    let last := list + 4 * extentOf v 1 - 1
    let pieces := extentOf v 0 * elementSize v / 64
    let j := extentOf v 1 - 1
    let top := f 114 102 + 64 * pieces * (j / 64) + 64 * (pieces - 1) + j % 64
    let slot := m.slots.find? fun p => decide (p.name = some (f 127 96 % 64))
    let bad := layStatus c.cluster v c.tm.depth (c.tm.gplane.toNat % 2 ^ 32) ≠ 0 ∨ (f 503 502 = 1 ∧ kind ≠ 0 ∧ kind ≠ 2) ∨
      (v.testBit 504 = true ∧ 2 ≤ kind) ∨ (1 ≤ kind ∧ f 239 192 ≠ 0) ∨ (rows ∧ f 501 499 ≠ 2) ∨
      (4 ≤ kind ∧ (f 127 96 ≠ 0 ∨ ∃ d < 5, poolStride v d ≠ 0))
    let outside := rows ∧ (badAddress c last 1 false ≠ none ∨ last / 2 ^ 24 ≠ list / 2 ^ 24)
    let busy := 4 ≤ kind ∧ (header / 2 ^ 120 % 2 ^ 4 ≠ 5 ∨ header.testBit (if kind = 4 then 127 else 126) = true)
    let refusal := recordRefusal c m kind v list ring header
    (bad → refusal = some .illegalOperand) ∧
    (¬ bad → outside → ∃ cause, refusal = some cause ∧ (cause = .poolOutside)) ∧
    (¬ bad → ¬ outside → f 503 502 = 1 → refusal = match slot with
      | none => some .slotNotReserved
      | some p => if 64 * (p.record.toNat / 2 ^ 108 % 2 ^ 8) ≤ top then some .shapeMismatch else none) ∧
    (¬ bad → ¬ outside → f 503 502 ≠ 1 → ring % 32 = 0 → refusal = if busy then some .ringMisuse else none)

/-- The next line of a command (R239, R241, R244, R247, R248, R254): of the row in hand the bytes up to the end of the row or
of the 128-byte global line, for a stream also to the end of the slot's sequence range; its global address by the row's
indices, with i1 fastest of the four and the planes of a row together, or by the row's index word; its pool addresses in each
replica, its palette row, or its place in the slot. -/
def Sys2Proof.Spec.NextLine : Prop :=
  ∀ (k : CopyCommand) (header : Nat),
    let v := k.record.toNat
    let f := recordField v
    let rows := k.kind = 2 ∨ k.kind = 3
    let write := decide (k.kind = 1 ∨ k.kind = 3 ∨ 5 ≤ k.kind)
    let bytes := extentOf v 0 * elementSize v
    let count := (k.planes + 1) * if rows then extentOf v 1 else extentOf v 1 * extentOf v 2 * extentOf v 3 * extentOf v 4
    let plane := k.row % (k.planes + 1)
    let x := k.row / (k.planes + 1)
    let i := fun (d : Nat) => if rows then (if d = 1 then x else 0)
      else if d = 1 then x % extentOf v 1
      else if d = 2 then x / extentOf v 1 % extentOf v 2
      else if d = 3 then x / (extentOf v 1 * extentOf v 2) % extentOf v 3
      else x / (extentOf v 1 * extentOf v 2 * extentOf v 3)
    let lead : Int := if rows then (k.index.getD 0 : Nat) else (i 1 : Nat)
    let va := (((f 56 0 : Nat) + lead * globalStride v 1 + i 2 * globalStride v 2 + i 3 * globalStride v 3 + i 4 * globalStride v 4 +
      plane * f 95 64 * 128 + k.off : Int) % 2 ^ 64).toNat
    let pool := (f 127 96 + i 1 * poolStride v 1 + i 2 * poolStride v 2 + i 3 * poolStride v 3 + i 4 * poolStride v 4 + plane * k.stride + k.off) % 2 ^ 32
    let n := min (bytes - k.off) (128 - va % 128)
    let size := 2 ^ (header / 2 ^ 112 % 2 ^ 4)
    let from_ := k.loads * size
    let until_ := min (from_ + size) (count * bytes)
    let pos := k.row * bytes + k.off
    (count ≤ k.row → k.next header = none) ∧
    (k.row < count → k.kind < 4 → k.next header = some (if f 503 502 = 1 then { idx := k.issued, va, n, row := i 1, off := k.off }
      else { idx := k.issued, write, va, n,
             dst := if f 239 192 = 0 then [pool] else (namesOf (f 239 192)).map fun slot => setBits pool 29 24 slot })) ∧
    (k.row < count → 4 ≤ k.kind → k.next header = match k.slot with
      | none => none
      | some key => if until_ ≤ pos then none
        else some { idx := k.issued, write, va, n := min n (until_ - pos), dst := [addrOfKey (key + (pos - from_))] })

/-! ### Several rows together -/

/-- Integer arithmetic, immediate, logic, bit-count, shift and bit-field words write their exact results and nothing
else. -/
def Obligations.IntegerResults : Prop :=
  Sys2Proof.Spec.IntegerArithmeticResults ∧
  Sys2Proof.Spec.IntegerHighProductResult ∧
  Sys2Proof.Spec.ImmediateResults ∧
  Sys2Proof.Spec.LogicResults ∧
  Sys2Proof.Spec.BitCountResults ∧
  Sys2Proof.Spec.ShiftResults ∧
  Sys2Proof.Spec.BitFieldResults

/-- MOV, SEL, ICVT, IDOT4, LEA, PMOV and SHFL write their registers, ISETP, PLOP and PMOV predicates; p7 takes
nothing. -/
def Obligations.MoveAndPredicateResults : Prop :=
  Sys2Proof.Spec.MoveAndConvertResults ∧
  Sys2Proof.Spec.ShuffleResult ∧
  Sys2Proof.Spec.PredicateResults ∧
  Sys2Proof.Spec.PredicateSetResult

/-- IDIV and IREM owe their long results, and a zero divisor traps its thread precisely. -/
def Obligations.DivisionResults : Prop :=
  Sys2Proof.Spec.DivisionResults ∧ Sys2Proof.Spec.DivisionByZeroTraps

/-- MOVS, MOVSW, RGET and RPUT: special registers and computed registers, with the aperture-bound trap. -/
def Obligations.RegisterFileWords : Prop :=
  Sys2Proof.Spec.SpecialRegisterWords ∧ Sys2Proof.Spec.ComputedRegisterWords ∧ Sys2Proof.Spec.ComputedRegisterTraps

/-- Before a word acts its privilege, its fields and its features are checked in that order, and a word that is none
stops its gang. -/
def Obligations.WordChecks : Prop :=
  Sys2Proof.Spec.WordChecksInOrder ∧ Sys2Proof.Spec.StepTrapsOtherWords

/-- A step executes the decoded word of a running gang, or the event that the agenda chooses, and settles what follows
at once. -/
def Obligations.StepRunsInstruction : Prop :=
  Sys2Proof.Spec.StepRunsDecodedWord ∧ Sys2Proof.Spec.StepRunsChosenEvent

/-- A committed word lets its gang go on to the next word or header, and a clause boundary parks, stops or lets it be
fetched. -/
def Obligations.WordsAndClausesEnd : Prop :=
  Sys2Proof.Spec.WordEnds ∧ Sys2Proof.Spec.ClauseEnds

/-- Taking a trap: what is saved, the level and the address after it, and the traps that Shegus takes instead. -/
def Obligations.TrapTaken : Prop :=
  Sys2Proof.Spec.TrapEntry ∧ Sys2Proof.Spec.TrapsToShegus

/-- NOP, BEAT, PPT and YIELD; BRA, BRX, CALL and RET with their misaligned trap. -/
def Obligations.GangHintAndBranchWords : Prop :=
  Sys2Proof.Spec.GangHintWords ∧ Sys2Proof.Spec.BranchWords

/-- A gang splits into a free entry or into folds, and a thread is filed under its key. -/
def Obligations.ThreadsPartAndFile : Prop :=
  Sys2Proof.Spec.GangSplits ∧ Sys2Proof.Spec.ThreadFiled

/-- REFORM and EXIT, and what the end of a thread changes. -/
def Obligations.LeavingWords : Prop :=
  Sys2Proof.Spec.LeavingWords ∧ Sys2Proof.Spec.ThreadEnds

/-- Floating-point results are the exact real result rounded once, FMIN and FMAX choose, and the special cases give
their values and events. -/
def Obligations.FloatResultsAreExact : Prop :=
  Sys2Proof.Spec.FloatArithmeticIsExact ∧
  Sys2Proof.Spec.FloatRootsAreExact ∧
  Sys2Proof.Spec.PickRoundAndDot ∧
  Sys2Proof.Spec.FloatSpecialCases

/-- The floating-point words complete on every operand, and write or owe their results element by element, with the
layers in G. -/
def Obligations.FloatWordResults : Prop :=
  Sys2Proof.Spec.FloatWordsComplete ∧ Sys2Proof.Spec.FloatWordResults ∧ Sys2Proof.Spec.FloatLongResults

/-- FSETP, FCLASS, the conversions, FMTW and NCVT, narrow codes and block-scale codes. -/
def Obligations.CompareConvertAndNarrowResults : Prop :=
  Sys2Proof.Spec.FloatCompareResults ∧
  Sys2Proof.Spec.ConversionResults ∧
  Sys2Proof.Spec.NarrowFormatResults ∧
  Sys2Proof.Spec.NarrowEncodings ∧
  Sys2Proof.Spec.ScaleCodes

/-- A numeric event raises its count to its end, acts at its threshold, and its window clears the count. -/
def Obligations.NumericEvents : Prop :=
  Sys2Proof.Spec.NumericEventCounted ∧ Sys2Proof.Spec.EventWindowCleared

/-- The pool words check their addresses, send one access for each piece and plane, and owe their results. -/
def Obligations.PoolWords : Prop :=
  Sys2Proof.Spec.PoolLoadAndStoreWords ∧ Sys2Proof.Spec.PoolSynchronizedWords

/-- A pool access reads and writes its bytes and full bit in one step and no other byte; prefetches, invalidations,
atomics, aperture accesses. -/
def Obligations.PoolAccessPerforms : Prop :=
  Sys2Proof.Spec.PoolAccessPerforms ∧
  Sys2Proof.Spec.PrefetchAndInvalidate ∧
  Sys2Proof.Spec.AtomicResults ∧
  Sys2Proof.Spec.ApertureAccessPerforms

/-- A pool access that cannot be served waits in its bank or is sent again, and never passes what must precede it. -/
def Obligations.PoolAccessWaitsInOrder : Prop :=
  Sys2Proof.Spec.PoolAccessWaits ∧ Sys2Proof.Spec.PoolAccessOrder

/-- Barrier objects, rings and the team barrier: what each word asks for and leaves in the pool. -/
def Obligations.BarrierAndRingWords : Prop :=
  Sys2Proof.Spec.BarrierWords ∧ Sys2Proof.Spec.RingWords ∧ Sys2Proof.Spec.TeamBarrierWord

/-- FENCE, FENCEQ and SIGHT wait for what they order, write back, invalidate and refresh. -/
def Obligations.FenceWords : Prop :=
  Sys2Proof.Spec.FenceWord ∧ Sys2Proof.Spec.QueueFenceAndSightWords

/-- RMAP, RFLUSH, RINV and RPREF: their checks and what they ask of the map units. -/
def Obligations.RegionWords : Prop :=
  Sys2Proof.Spec.RegionMapWords ∧ Sys2Proof.Spec.RegionRangeWords

/-- Region lines: fills that land in the bytes with clear dirty bits, fills that fail, and the walks that write dirty
bytes back. -/
def Obligations.RegionLineEvents : Prop :=
  Sys2Proof.Spec.RegionFillEvents ∧ Sys2Proof.Spec.FailedFill ∧ Sys2Proof.Spec.WriteBackWalks

/-- Busy lines, rejections, acknowledgements, walks, replays and refreshes at the homes. -/
def Obligations.HomeRequestsAndLogs : Prop :=
  Sys2Proof.Spec.HomeRequestOrder ∧ Sys2Proof.Spec.LogAndSightEvents

/-- The copy commands and their records are checked and accepted, and TLAY, TWAIT and TCANCEL act on records and
queues. -/
def Obligations.CopyWords : Prop :=
  Sys2Proof.Spec.CopyCommandWords ∧
  Sys2Proof.Spec.CopyControlWords ∧
  Sys2Proof.Spec.RecordStatus ∧
  Sys2Proof.Spec.RecordMoves ∧
  Sys2Proof.Spec.RecordRefusals

/-- A copy engine starts commands, takes their lines in order, moves and reports them, and ends a command at a fault.
-/
def Obligations.CopyEngineRows : Prop :=
  Sys2Proof.Spec.CopyEngineEvents ∧ Sys2Proof.Spec.NextLine

/-- The matrix words on names, banks, palettes and easels: their checks and the commands they give. -/
def Obligations.MatrixWords : Prop :=
  Sys2Proof.Spec.MatrixNameWords ∧ Sys2Proof.Spec.MatrixDataWords

/-- SPAWN, TQPOP and STEAL, and the queue step at the home of the header. -/
def Obligations.TaskQueueRows : Prop :=
  Sys2Proof.Spec.QueueWords ∧ Sys2Proof.Spec.QueueSteps

/-- Leadership, placement and retirement of a grid's clusters and teams. -/
def Obligations.GridEvents : Prop :=
  Sys2Proof.Spec.PlacementEvents ∧ Sys2Proof.Spec.RetirementEvents

/-- CHCFG, SEND and RECV, and the delivery of a message. -/
def Obligations.ChannelRows : Prop :=
  Sys2Proof.Spec.ChannelWords ∧ Sys2Proof.Spec.MessageDelivered

/-- ERET goes on where its trap says; PREEMPT, the forced limit and the watchdog stop clusters or trap gangs. -/
def Obligations.ReturnAndStopRows : Prop :=
  Sys2Proof.Spec.ReturnWords ∧ Sys2Proof.Spec.StopRows

/-- A clause is fetched and checked, and an idle lane issues the clause of the gang it must choose. -/
def Obligations.ClauseRows : Prop :=
  Sys2Proof.Spec.ClauseFetched ∧ Sys2Proof.Spec.ClauseIssued

/-- The commands of Shegus but for address ranges, how a command completes, and the queue registers. -/
def Obligations.ShegusCommands : Prop :=
  Sys2Proof.Spec.CommandRows ∧ Sys2Proof.Spec.CompletionWritten ∧ Sys2Proof.Spec.QueueRegisterRows

/-- ALLOC, FREE and WINDOW take and give back ranges of HBM that nobody owns. -/
def Obligations.ShegusRanges : Prop :=
  Sys2Proof.Spec.RangeRows

/-- Host reads, writes, snoops and grants, what peer devices send, errors, clocks and heat. -/
def Obligations.HostAndErrorEvents : Prop :=
  Sys2Proof.Spec.HostRows ∧
  Sys2Proof.Spec.PeerRows ∧
  Sys2Proof.Spec.ErrorRows ∧
  Sys2Proof.Spec.ClockRows

/-- The loss of the seam or of a die, and reset. -/
def Obligations.LossAndResetEvents : Prop :=
  Sys2Proof.Spec.LossRows ∧ Sys2Proof.Spec.ResetRow
end

