-- ==== Sys2Proof/Laws/Memory.lean ====
section
/-! SUPPORT. The laws of the sparse byte memory: every write keeps the canonical form, a byte reads as it was last
written, and every other byte as before. -/

namespace Sys2Proof.Machine

open Sys2Proof

/-- Every listed address is above `a`. -/
def memAbove (a : Nat) (m : List Host.Cell) : Prop := ∀ c ∈ m, a < c.1

theorem memWf_cons (a : Nat) (b : Byte) (m : List Host.Cell) :
    memWf ((a, b) :: m) = true ↔ b ≠ 0 ∧ memAbove a m ∧ memWf m = true := by
  induction m generalizing a b with
  | nil => simp [memWf, memAbove]
  | cons c m ih =>
    obtain ⟨a', b'⟩ := c
    rw [memWf, Bool.and_eq_true, Bool.and_eq_true, ih]
    simp only [memAbove, List.mem_cons, forall_eq_or_imp, bne_iff_ne, ne_eq, decide_eq_true_eq]
    constructor
    · rintro ⟨⟨h1, h2⟩, h3, h4, h5⟩
      exact ⟨h1, ⟨h2, fun c hc => Nat.lt_trans h2 (h4 c hc)⟩, h3, h4, h5⟩
    · rintro ⟨h1, ⟨h2, -⟩, h3, h4, h5⟩
      exact ⟨⟨h1, h2⟩, h3, h4, h5⟩

theorem memWf_consCell {a : Nat} {b : Byte} {m : List Host.Cell} (h : memWf m = true) (ha : memAbove a m) :
    memWf (consCell a b m) = true := by
  unfold consCell
  split
  · exact h
  · exact (memWf_cons a b m).2 ⟨‹_›, ha, h⟩

theorem memAbove_consCell {a a' : Nat} {b : Byte} {m : List Host.Cell} (h : memAbove a m) (ha : a < a') :
    memAbove a (consCell a' b m) := by
  unfold consCell
  split
  · exact h
  · intro c hc
    rcases List.mem_cons.1 hc with rfl | hc
    · exact ha
    · exact h c hc

theorem memAbove_writeByte {a a' : Nat} {b : Byte} {m : List Host.Cell} (h : memAbove a m) (ha : a < a') :
    memAbove a (writeByte m a' b) := by
  induction m with
  | nil => exact memAbove_consCell h ha
  | cons c m ih =>
    obtain ⟨x, y⟩ := c
    have hm : memAbove a m := fun c hc => h c (List.mem_cons_of_mem _ hc)
    rw [writeByte]
    split
    · exact memAbove_consCell h ha
    · split
      · exact memAbove_consCell hm ha
      · intro c hc
        rcases List.mem_cons.1 hc with rfl | hc
        · exact h _ (List.mem_cons_self ..)
        · exact ih hm c hc

/-- Writing a byte keeps the canonical form. -/
theorem memWf_writeByte {m : List Host.Cell} (h : memWf m = true) (a : Nat) (b : Byte) :
    memWf (writeByte m a b) = true := by
  induction m with
  | nil => exact memWf_consCell h (by simp [memAbove])
  | cons c m ih =>
    obtain ⟨x, y⟩ := c
    obtain ⟨hy, hx, hm⟩ := (memWf_cons x y m).1 h
    rw [writeByte]
    split
    · refine memWf_consCell h ?_
      intro c hc
      rcases List.mem_cons.1 hc with rfl | hc
      · assumption
      · exact Nat.lt_trans ‹_› (hx c hc)
    · split
      · subst_vars; exact memWf_consCell hm hx
      · exact (memWf_cons ..).2 ⟨hy, memAbove_writeByte hx (by omega), ih hm⟩

/-- Writing bytes keeps the canonical form. -/
theorem memWf_writeBytes {m : List Host.Cell} (h : memWf m = true) (a : Nat) (bs : List Byte) :
    memWf (writeBytes m a bs) = true := by
  induction bs generalizing m a with
  | nil => exact h
  | cons b bs ih => exact ih (memWf_writeByte h a b) _

theorem memWf_writeNat {m : List Host.Cell} (h : memWf m = true) (a n v : Nat) : memWf (writeNat m a n v) = true :=
  memWf_writeBytes h a _

/-- Leaving out part of a memory keeps the canonical form. -/
theorem memWf_filter {m : List Host.Cell} (h : memWf m = true) (p : Host.Cell → Bool) : memWf (m.filter p) = true := by
  induction m with
  | nil => exact h
  | cons c m ih =>
    obtain ⟨x, y⟩ := c
    obtain ⟨hy, hx, hm⟩ := (memWf_cons x y m).1 h
    rw [List.filter_cons]
    split
    · exact (memWf_cons ..).2 ⟨hy, fun c hc => hx c (List.mem_filter.1 hc).1, ih hm⟩
    · exact ih hm

theorem readByte_above {a : Nat} {m : List Host.Cell} (h : memAbove a m) {x : Nat} (hx : x ≤ a) : readByte m x = 0 := by
  induction m with
  | nil => rfl
  | cons c m ih =>
    obtain ⟨y, b⟩ := c
    have hy : a < y := h _ (List.mem_cons_self ..)
    rw [readByte, if_neg (by omega)]
    exact ih fun c hc => h c (List.mem_cons_of_mem _ hc)

theorem readByte_consCell {a : Nat} {b : Byte} {m : List Host.Cell} (h : memAbove a m) (x : Nat) :
    readByte (consCell a b m) x = if x = a then b else readByte m x := by
  unfold consCell
  split
  · split
    · subst_vars; rw [readByte_above h (Nat.le_refl _)]
    · rfl
  · rfl

/-- A byte reads as it was last written, every other byte as before. -/
theorem readByte_writeByte {m : List Host.Cell} (h : memWf m = true) (a x : Nat) (b : Byte) :
    readByte (writeByte m a b) x = if x = a then b else readByte m x := by
  induction m with
  | nil => exact readByte_consCell (by simp [memAbove]) x
  | cons c m ih =>
    obtain ⟨y, w⟩ := c
    obtain ⟨-, hy, hm⟩ := (memWf_cons y w m).1 h
    rw [writeByte]
    split
    · refine readByte_consCell ?_ x
      intro c hc
      rcases List.mem_cons.1 hc with rfl | hc
      · assumption
      · exact Nat.lt_trans ‹_› (hy c hc)
    · split
      · subst_vars
        rw [readByte_consCell hy, readByte]
        split <;> simp_all
      · rw [readByte, ih hm, readByte]
        split <;> split <;> simp_all

/-- Bytes outside a written range read as before. -/
theorem readByte_writeBytes_outside {m : List Host.Cell} (h : memWf m = true) (a x : Nat) (bs : List Byte)
    (hx : x < a ∨ a + bs.length ≤ x) : readByte (writeBytes m a bs) x = readByte m x := by
  induction bs generalizing m a with
  | nil => rfl
  | cons b bs ih =>
    rw [List.length_cons] at hx
    rw [writeBytes, ih (memWf_writeByte h a b) (a + 1) (by omega), readByte_writeByte h, if_neg (by omega)]

/-- Bytes inside a written range read as written. -/
theorem readByte_writeBytes_inside {m : List Host.Cell} (h : memWf m = true) (a i : Nat) (bs : List Byte)
    (hi : i < bs.length) : readByte (writeBytes m a bs) (a + i) = bs.getD i 0 := by
  induction bs generalizing m a i with
  | nil => simp at hi
  | cons b bs ih =>
    cases i with
    | zero =>
      rw [writeBytes, readByte_writeBytes_outside (memWf_writeByte h a b) _ _ _ (by omega), readByte_writeByte h]
      simp
    | succ i =>
      rw [writeBytes, show a + (i + 1) = (a + 1) + i from by omega,
        ih (memWf_writeByte h a b) (a + 1) i (by simpa using hi)]
      rfl

theorem toBytes_length (n v : Nat) : (toBytes n v).length = n := by
  induction n generalizing v with
  | zero => rfl
  | succ n ih => simp [toBytes, ih]

/-- The number that a byte string stands for is the number it was made of, modulo its width. -/
theorem fromBytes_toBytes (n v : Nat) : fromBytes (toBytes n v) = v % 2 ^ (8 * n) := by
  induction n generalizing v with
  | zero => simp [toBytes, fromBytes, Nat.mod_one]
  | succ n ih =>
    rw [toBytes, fromBytes, ih, BitVec.toNat_ofNat, show 8 * (n + 1) = 8 + 8 * n from by omega, Nat.pow_add, Nat.mod_mul]

end Sys2Proof.Machine
end

