-- ==== Sys2Proof/Laws/State.lean ====
section
/-! SUPPORT. Each field of the state after each record update: the other fields stay as they were. -/

namespace Sys2Proof.Machine

open Sys2Proof

section UpdGang
variable (s : State) (i : Nat) (f : Gang → Gang)

@[simp] theorem State.updGang_agenda : (s.updGang i f).agenda = s.agenda := rfl
@[simp] theorem State.updGang_cur : (s.updGang i f).cur = s.cur := rfl
@[simp] theorem State.updGang_now : (s.updGang i f).now = s.now := rfl
@[simp] theorem State.updGang_fresh : (s.updGang i f).fresh = s.fresh := rfl
@[simp] theorem State.updGang_nextId : (s.updGang i f).nextId = s.nextId := rfl
@[simp] theorem State.updGang_jobs : (s.updGang i f).jobs = s.jobs := rfl
@[simp] theorem State.updGang_grids : (s.updGang i f).grids = s.grids := rfl
@[simp] theorem State.updGang_clusters : (s.updGang i f).clusters = s.clusters := rfl
@[simp] theorem State.updGang_teams : (s.updGang i f).teams = s.teams := rfl
@[simp] theorem State.updGang_threads : (s.updGang i f).threads = s.threads := rfl
@[simp] theorem State.updGang_folds : (s.updGang i f).folds = s.folds := rfl
@[simp] theorem State.updGang_overflow : (s.updGang i f).overflow = s.overflow := rfl
@[simp] theorem State.updGang_filing : (s.updGang i f).filing = s.filing := rfl
@[simp] theorem State.updGang_tickets : (s.updGang i f).tickets = s.tickets := rfl
@[simp] theorem State.updGang_results : (s.updGang i f).results = s.results := rfl
@[simp] theorem State.updGang_accesses : (s.updGang i f).accesses = s.accesses := rfl
@[simp] theorem State.updGang_mem : (s.updGang i f).mem = s.mem := rfl
@[simp] theorem State.updGang_reqs : (s.updGang i f).reqs = s.reqs := rfl
@[simp] theorem State.updGang_ends : (s.updGang i f).ends = s.ends := rfl
@[simp] theorem State.updGang_owners : (s.updGang i f).owners = s.owners := rfl
@[simp] theorem State.updGang_busy : (s.updGang i f).busy = s.busy := rfl
@[simp] theorem State.updGang_dir : (s.updGang i f).dir = s.dir := rfl
@[simp] theorem State.updGang_kept : (s.updGang i f).kept = s.kept := rfl
@[simp] theorem State.updGang_leadMode : (s.updGang i f).leadMode = s.leadMode := rfl
@[simp] theorem State.updGang_spills : (s.updGang i f).spills = s.spills := rfl
@[simp] theorem State.updGang_halves : (s.updGang i f).halves = s.halves := rfl
@[simp] theorem State.updGang_outputs : (s.updGang i f).outputs = s.outputs := rfl
@[simp] theorem State.updGang_arrivals : (s.updGang i f).arrivals = s.arrivals := rfl
@[simp] theorem State.updGang_side : (s.updGang i f).side = s.side := rfl
@[simp] theorem State.updGang_sideSeq : (s.updGang i f).sideSeq = s.sideSeq := rfl
@[simp] theorem State.updGang_replays : (s.updGang i f).replays = s.replays := rfl
@[simp] theorem State.updGang_commands : (s.updGang i f).commands = s.commands := rfl
@[simp] theorem State.updGang_copyRecs : (s.updGang i f).copyRecs = s.copyRecs := rfl
@[simp] theorem State.updGang_engineWaits : (s.updGang i f).engineWaits = s.engineWaits := rfl
@[simp] theorem State.updGang_matrix : (s.updGang i f).matrix = s.matrix := rfl
@[simp] theorem State.updGang_mcommands : (s.updGang i f).mcommands = s.mcommands := rfl
@[simp] theorem State.updGang_mturns : (s.updGang i f).mturns = s.mturns := rfl
@[simp] theorem State.updGang_tlb : (s.updGang i f).tlb = s.tlb := rfl
@[simp] theorem State.updGang_roots : (s.updGang i f).roots = s.roots := rfl
@[simp] theorem State.updGang_pageFaults : (s.updGang i f).pageFaults = s.pageFaults := rfl
@[simp] theorem State.updGang_tableNext : (s.updGang i f).tableNext = s.tableNext := rfl
@[simp] theorem State.updGang_sendBuf : (s.updGang i f).sendBuf = s.sendBuf := rfl
@[simp] theorem State.updGang_inbox : (s.updGang i f).inbox = s.inbox := rfl
@[simp] theorem State.updGang_sets : (s.updGang i f).sets = s.sets := rfl
@[simp] theorem State.updGang_dies : (s.updGang i f).dies = s.dies := rfl
@[simp] theorem State.updGang_strap : (s.updGang i f).strap = s.strap := rfl
@[simp] theorem State.updGang_up : (s.updGang i f).up = s.up := rfl
@[simp] theorem State.updGang_seam : (s.updGang i f).seam = s.seam := rfl
@[simp] theorem State.updGang_hostPort : (s.updGang i f).hostPort = s.hostPort := rfl
@[simp] theorem State.updGang_clocks : (s.updGang i f).clocks = s.clocks := rfl
@[simp] theorem State.updGang_coreFeatures : (s.updGang i f).coreFeatures = s.coreFeatures := rfl
@[simp] theorem State.updGang_features : (s.updGang i f).features = s.features := rfl
@[simp] theorem State.updGang_counters : (s.updGang i f).counters = s.counters := rfl
@[simp] theorem State.updGang_events : (s.updGang i f).events = s.events := rfl
@[simp] theorem State.updGang_killed : (s.updGang i f).killed = s.killed := rfl
@[simp] theorem State.updGang_gridNum : (s.updGang i f).gridNum = s.gridNum := rfl
@[simp] theorem State.updGang_handlers : (s.updGang i f).handlers = s.handlers := rfl
@[simp] theorem State.updGang_latches : (s.updGang i f).latches = s.latches := rfl
@[simp] theorem State.updGang_lossNotes : (s.updGang i f).lossNotes = s.lossNotes := rfl
@[simp] theorem State.updGang_recvWaits : (s.updGang i f).recvWaits = s.recvWaits := rfl
@[simp] theorem State.updGang_quiets : (s.updGang i f).quiets = s.quiets := rfl
@[simp] theorem State.updGang_collGroups : (s.updGang i f).collGroups = s.collGroups := rfl
@[simp] theorem State.updGang_colls : (s.updGang i f).colls = s.colls := rfl
@[simp] theorem State.updGang_saved : (s.updGang i f).saved = s.saved := rfl
@[simp] theorem State.updGang_queues : (s.updGang i f).queues = s.queues := rfl
@[simp] theorem State.updGang_notices : (s.updGang i f).notices = s.notices := rfl
@[simp] theorem State.updGang_noticesLost : (s.updGang i f).noticesLost = s.noticesLost := rfl
@[simp] theorem State.updGang_hostAsks : (s.updGang i f).hostAsks = s.hostAsks := rfl
@[simp] theorem State.updGang_allocs : (s.updGang i f).allocs = s.allocs := rfl
@[simp] theorem State.updGang_hdm : (s.updGang i f).hdm = s.hdm := rfl
@[simp] theorem State.updGang_powercap : (s.updGang i f).powercap = s.powercap := rfl
@[simp] theorem State.updGang_ecc : (s.updGang i f).ecc = s.ecc := rfl
@[simp] theorem State.updGang_rose : (s.updGang i f).rose = s.rose := rfl
@[simp] theorem State.updGang_flash : (s.updGang i f).flash = s.flash := rfl
@[simp] theorem State.updGang_firmware : (s.updGang i f).firmware = s.firmware := rfl
@[simp] theorem State.updGang_rollback : (s.updGang i f).rollback = s.rollback := rfl
@[simp] theorem State.updGang_slots : (s.updGang i f).slots = s.slots := rfl
@[simp] theorem State.updGang_detailed : (s.updGang i f).detailed = s.detailed := rfl
@[simp] theorem State.updGang_maxDepth : (s.updGang i f).maxDepth = s.maxDepth := rfl
@[simp] theorem State.updGang_spillMax : (s.updGang i f).spillMax = s.spillMax := rfl
@[simp] theorem State.updGang_hdmMax : (s.updGang i f).hdmMax = s.hdmMax := rfl
@[simp] theorem State.updGang_ports : (s.updGang i f).ports = s.ports := rfl
@[simp] theorem State.updGang_order : (s.updGang i f).order = s.order := rfl
@[simp] theorem State.updGang_pod : (s.updGang i f).pod = s.pod := rfl
@[simp] theorem State.updGang_coreSkew : (s.updGang i f).coreSkew = s.coreSkew := rfl
@[simp] theorem State.updGang_code : (s.updGang i f).code = s.code := rfl
@[simp] theorem State.updGang_l2 : (s.updGang i f).l2 = s.l2 := rfl
@[simp] theorem State.updGang_hbmStamps : (s.updGang i f).hbmStamps = s.hbmStamps := rfl
@[simp] theorem State.updGang_keys : (s.updGang i f).keys = s.keys := rfl
@[simp] theorem State.updGang_lineKeys : (s.updGang i f).lineKeys = s.lineKeys := rfl
@[simp] theorem State.updGang_snoops : (s.updGang i f).snoops = s.snoops := rfl
@[simp] theorem State.updGang_seamBroken : (s.updGang i f).seamBroken = s.seamBroken := rfl
@[simp] theorem State.updGang_lateAd : (s.updGang i f).lateAd = s.lateAd := rfl
@[simp] theorem State.updGang_endNotices : (s.updGang i f).endNotices = s.endNotices := rfl
@[simp] theorem State.updGang_denied : (s.updGang i f).denied = s.denied := rfl
@[simp] theorem State.updGang_images : (s.updGang i f).images = s.images := rfl
@[simp] theorem State.updGang_wakes : (s.updGang i f).wakes = s.wakes := rfl

end UpdGang

section UpdTeam
variable (s : State) (i : Nat) (f : Team → Team)

@[simp] theorem State.updTeam_agenda : (s.updTeam i f).agenda = s.agenda := rfl
@[simp] theorem State.updTeam_cur : (s.updTeam i f).cur = s.cur := rfl
@[simp] theorem State.updTeam_now : (s.updTeam i f).now = s.now := rfl
@[simp] theorem State.updTeam_fresh : (s.updTeam i f).fresh = s.fresh := rfl
@[simp] theorem State.updTeam_nextId : (s.updTeam i f).nextId = s.nextId := rfl
@[simp] theorem State.updTeam_jobs : (s.updTeam i f).jobs = s.jobs := rfl
@[simp] theorem State.updTeam_grids : (s.updTeam i f).grids = s.grids := rfl
@[simp] theorem State.updTeam_clusters : (s.updTeam i f).clusters = s.clusters := rfl
@[simp] theorem State.updTeam_threads : (s.updTeam i f).threads = s.threads := rfl
@[simp] theorem State.updTeam_gangs : (s.updTeam i f).gangs = s.gangs := rfl
@[simp] theorem State.updTeam_folds : (s.updTeam i f).folds = s.folds := rfl
@[simp] theorem State.updTeam_overflow : (s.updTeam i f).overflow = s.overflow := rfl
@[simp] theorem State.updTeam_filing : (s.updTeam i f).filing = s.filing := rfl
@[simp] theorem State.updTeam_tickets : (s.updTeam i f).tickets = s.tickets := rfl
@[simp] theorem State.updTeam_results : (s.updTeam i f).results = s.results := rfl
@[simp] theorem State.updTeam_accesses : (s.updTeam i f).accesses = s.accesses := rfl
@[simp] theorem State.updTeam_mem : (s.updTeam i f).mem = s.mem := rfl
@[simp] theorem State.updTeam_reqs : (s.updTeam i f).reqs = s.reqs := rfl
@[simp] theorem State.updTeam_ends : (s.updTeam i f).ends = s.ends := rfl
@[simp] theorem State.updTeam_owners : (s.updTeam i f).owners = s.owners := rfl
@[simp] theorem State.updTeam_busy : (s.updTeam i f).busy = s.busy := rfl
@[simp] theorem State.updTeam_dir : (s.updTeam i f).dir = s.dir := rfl
@[simp] theorem State.updTeam_kept : (s.updTeam i f).kept = s.kept := rfl
@[simp] theorem State.updTeam_leadMode : (s.updTeam i f).leadMode = s.leadMode := rfl
@[simp] theorem State.updTeam_spills : (s.updTeam i f).spills = s.spills := rfl
@[simp] theorem State.updTeam_halves : (s.updTeam i f).halves = s.halves := rfl
@[simp] theorem State.updTeam_outputs : (s.updTeam i f).outputs = s.outputs := rfl
@[simp] theorem State.updTeam_arrivals : (s.updTeam i f).arrivals = s.arrivals := rfl
@[simp] theorem State.updTeam_side : (s.updTeam i f).side = s.side := rfl
@[simp] theorem State.updTeam_sideSeq : (s.updTeam i f).sideSeq = s.sideSeq := rfl
@[simp] theorem State.updTeam_replays : (s.updTeam i f).replays = s.replays := rfl
@[simp] theorem State.updTeam_commands : (s.updTeam i f).commands = s.commands := rfl
@[simp] theorem State.updTeam_copyRecs : (s.updTeam i f).copyRecs = s.copyRecs := rfl
@[simp] theorem State.updTeam_engineWaits : (s.updTeam i f).engineWaits = s.engineWaits := rfl
@[simp] theorem State.updTeam_matrix : (s.updTeam i f).matrix = s.matrix := rfl
@[simp] theorem State.updTeam_mcommands : (s.updTeam i f).mcommands = s.mcommands := rfl
@[simp] theorem State.updTeam_mturns : (s.updTeam i f).mturns = s.mturns := rfl
@[simp] theorem State.updTeam_tlb : (s.updTeam i f).tlb = s.tlb := rfl
@[simp] theorem State.updTeam_roots : (s.updTeam i f).roots = s.roots := rfl
@[simp] theorem State.updTeam_pageFaults : (s.updTeam i f).pageFaults = s.pageFaults := rfl
@[simp] theorem State.updTeam_tableNext : (s.updTeam i f).tableNext = s.tableNext := rfl
@[simp] theorem State.updTeam_sendBuf : (s.updTeam i f).sendBuf = s.sendBuf := rfl
@[simp] theorem State.updTeam_inbox : (s.updTeam i f).inbox = s.inbox := rfl
@[simp] theorem State.updTeam_sets : (s.updTeam i f).sets = s.sets := rfl
@[simp] theorem State.updTeam_dies : (s.updTeam i f).dies = s.dies := rfl
@[simp] theorem State.updTeam_strap : (s.updTeam i f).strap = s.strap := rfl
@[simp] theorem State.updTeam_up : (s.updTeam i f).up = s.up := rfl
@[simp] theorem State.updTeam_seam : (s.updTeam i f).seam = s.seam := rfl
@[simp] theorem State.updTeam_hostPort : (s.updTeam i f).hostPort = s.hostPort := rfl
@[simp] theorem State.updTeam_clocks : (s.updTeam i f).clocks = s.clocks := rfl
@[simp] theorem State.updTeam_coreFeatures : (s.updTeam i f).coreFeatures = s.coreFeatures := rfl
@[simp] theorem State.updTeam_features : (s.updTeam i f).features = s.features := rfl
@[simp] theorem State.updTeam_counters : (s.updTeam i f).counters = s.counters := rfl
@[simp] theorem State.updTeam_events : (s.updTeam i f).events = s.events := rfl
@[simp] theorem State.updTeam_killed : (s.updTeam i f).killed = s.killed := rfl
@[simp] theorem State.updTeam_gridNum : (s.updTeam i f).gridNum = s.gridNum := rfl
@[simp] theorem State.updTeam_handlers : (s.updTeam i f).handlers = s.handlers := rfl
@[simp] theorem State.updTeam_latches : (s.updTeam i f).latches = s.latches := rfl
@[simp] theorem State.updTeam_lossNotes : (s.updTeam i f).lossNotes = s.lossNotes := rfl
@[simp] theorem State.updTeam_recvWaits : (s.updTeam i f).recvWaits = s.recvWaits := rfl
@[simp] theorem State.updTeam_quiets : (s.updTeam i f).quiets = s.quiets := rfl
@[simp] theorem State.updTeam_collGroups : (s.updTeam i f).collGroups = s.collGroups := rfl
@[simp] theorem State.updTeam_colls : (s.updTeam i f).colls = s.colls := rfl
@[simp] theorem State.updTeam_saved : (s.updTeam i f).saved = s.saved := rfl
@[simp] theorem State.updTeam_queues : (s.updTeam i f).queues = s.queues := rfl
@[simp] theorem State.updTeam_notices : (s.updTeam i f).notices = s.notices := rfl
@[simp] theorem State.updTeam_noticesLost : (s.updTeam i f).noticesLost = s.noticesLost := rfl
@[simp] theorem State.updTeam_hostAsks : (s.updTeam i f).hostAsks = s.hostAsks := rfl
@[simp] theorem State.updTeam_allocs : (s.updTeam i f).allocs = s.allocs := rfl
@[simp] theorem State.updTeam_hdm : (s.updTeam i f).hdm = s.hdm := rfl
@[simp] theorem State.updTeam_powercap : (s.updTeam i f).powercap = s.powercap := rfl
@[simp] theorem State.updTeam_ecc : (s.updTeam i f).ecc = s.ecc := rfl
@[simp] theorem State.updTeam_rose : (s.updTeam i f).rose = s.rose := rfl
@[simp] theorem State.updTeam_flash : (s.updTeam i f).flash = s.flash := rfl
@[simp] theorem State.updTeam_firmware : (s.updTeam i f).firmware = s.firmware := rfl
@[simp] theorem State.updTeam_rollback : (s.updTeam i f).rollback = s.rollback := rfl
@[simp] theorem State.updTeam_slots : (s.updTeam i f).slots = s.slots := rfl
@[simp] theorem State.updTeam_detailed : (s.updTeam i f).detailed = s.detailed := rfl
@[simp] theorem State.updTeam_maxDepth : (s.updTeam i f).maxDepth = s.maxDepth := rfl
@[simp] theorem State.updTeam_spillMax : (s.updTeam i f).spillMax = s.spillMax := rfl
@[simp] theorem State.updTeam_hdmMax : (s.updTeam i f).hdmMax = s.hdmMax := rfl
@[simp] theorem State.updTeam_ports : (s.updTeam i f).ports = s.ports := rfl
@[simp] theorem State.updTeam_order : (s.updTeam i f).order = s.order := rfl
@[simp] theorem State.updTeam_pod : (s.updTeam i f).pod = s.pod := rfl
@[simp] theorem State.updTeam_coreSkew : (s.updTeam i f).coreSkew = s.coreSkew := rfl
@[simp] theorem State.updTeam_code : (s.updTeam i f).code = s.code := rfl
@[simp] theorem State.updTeam_l2 : (s.updTeam i f).l2 = s.l2 := rfl
@[simp] theorem State.updTeam_hbmStamps : (s.updTeam i f).hbmStamps = s.hbmStamps := rfl
@[simp] theorem State.updTeam_keys : (s.updTeam i f).keys = s.keys := rfl
@[simp] theorem State.updTeam_lineKeys : (s.updTeam i f).lineKeys = s.lineKeys := rfl
@[simp] theorem State.updTeam_snoops : (s.updTeam i f).snoops = s.snoops := rfl
@[simp] theorem State.updTeam_seamBroken : (s.updTeam i f).seamBroken = s.seamBroken := rfl
@[simp] theorem State.updTeam_lateAd : (s.updTeam i f).lateAd = s.lateAd := rfl
@[simp] theorem State.updTeam_endNotices : (s.updTeam i f).endNotices = s.endNotices := rfl
@[simp] theorem State.updTeam_denied : (s.updTeam i f).denied = s.denied := rfl
@[simp] theorem State.updTeam_images : (s.updTeam i f).images = s.images := rfl
@[simp] theorem State.updTeam_wakes : (s.updTeam i f).wakes = s.wakes := rfl

end UpdTeam

section UpdCluster
variable (s : State) (i : Nat) (f : Cluster → Cluster)

@[simp] theorem State.updCluster_agenda : (s.updCluster i f).agenda = s.agenda := rfl
@[simp] theorem State.updCluster_cur : (s.updCluster i f).cur = s.cur := rfl
@[simp] theorem State.updCluster_now : (s.updCluster i f).now = s.now := rfl
@[simp] theorem State.updCluster_fresh : (s.updCluster i f).fresh = s.fresh := rfl
@[simp] theorem State.updCluster_nextId : (s.updCluster i f).nextId = s.nextId := rfl
@[simp] theorem State.updCluster_jobs : (s.updCluster i f).jobs = s.jobs := rfl
@[simp] theorem State.updCluster_grids : (s.updCluster i f).grids = s.grids := rfl
@[simp] theorem State.updCluster_teams : (s.updCluster i f).teams = s.teams := rfl
@[simp] theorem State.updCluster_threads : (s.updCluster i f).threads = s.threads := rfl
@[simp] theorem State.updCluster_gangs : (s.updCluster i f).gangs = s.gangs := rfl
@[simp] theorem State.updCluster_folds : (s.updCluster i f).folds = s.folds := rfl
@[simp] theorem State.updCluster_overflow : (s.updCluster i f).overflow = s.overflow := rfl
@[simp] theorem State.updCluster_filing : (s.updCluster i f).filing = s.filing := rfl
@[simp] theorem State.updCluster_tickets : (s.updCluster i f).tickets = s.tickets := rfl
@[simp] theorem State.updCluster_results : (s.updCluster i f).results = s.results := rfl
@[simp] theorem State.updCluster_accesses : (s.updCluster i f).accesses = s.accesses := rfl
@[simp] theorem State.updCluster_mem : (s.updCluster i f).mem = s.mem := rfl
@[simp] theorem State.updCluster_reqs : (s.updCluster i f).reqs = s.reqs := rfl
@[simp] theorem State.updCluster_ends : (s.updCluster i f).ends = s.ends := rfl
@[simp] theorem State.updCluster_owners : (s.updCluster i f).owners = s.owners := rfl
@[simp] theorem State.updCluster_busy : (s.updCluster i f).busy = s.busy := rfl
@[simp] theorem State.updCluster_dir : (s.updCluster i f).dir = s.dir := rfl
@[simp] theorem State.updCluster_kept : (s.updCluster i f).kept = s.kept := rfl
@[simp] theorem State.updCluster_leadMode : (s.updCluster i f).leadMode = s.leadMode := rfl
@[simp] theorem State.updCluster_spills : (s.updCluster i f).spills = s.spills := rfl
@[simp] theorem State.updCluster_halves : (s.updCluster i f).halves = s.halves := rfl
@[simp] theorem State.updCluster_outputs : (s.updCluster i f).outputs = s.outputs := rfl
@[simp] theorem State.updCluster_arrivals : (s.updCluster i f).arrivals = s.arrivals := rfl
@[simp] theorem State.updCluster_side : (s.updCluster i f).side = s.side := rfl
@[simp] theorem State.updCluster_sideSeq : (s.updCluster i f).sideSeq = s.sideSeq := rfl
@[simp] theorem State.updCluster_replays : (s.updCluster i f).replays = s.replays := rfl
@[simp] theorem State.updCluster_commands : (s.updCluster i f).commands = s.commands := rfl
@[simp] theorem State.updCluster_copyRecs : (s.updCluster i f).copyRecs = s.copyRecs := rfl
@[simp] theorem State.updCluster_engineWaits : (s.updCluster i f).engineWaits = s.engineWaits := rfl
@[simp] theorem State.updCluster_matrix : (s.updCluster i f).matrix = s.matrix := rfl
@[simp] theorem State.updCluster_mcommands : (s.updCluster i f).mcommands = s.mcommands := rfl
@[simp] theorem State.updCluster_mturns : (s.updCluster i f).mturns = s.mturns := rfl
@[simp] theorem State.updCluster_tlb : (s.updCluster i f).tlb = s.tlb := rfl
@[simp] theorem State.updCluster_roots : (s.updCluster i f).roots = s.roots := rfl
@[simp] theorem State.updCluster_pageFaults : (s.updCluster i f).pageFaults = s.pageFaults := rfl
@[simp] theorem State.updCluster_tableNext : (s.updCluster i f).tableNext = s.tableNext := rfl
@[simp] theorem State.updCluster_sendBuf : (s.updCluster i f).sendBuf = s.sendBuf := rfl
@[simp] theorem State.updCluster_inbox : (s.updCluster i f).inbox = s.inbox := rfl
@[simp] theorem State.updCluster_sets : (s.updCluster i f).sets = s.sets := rfl
@[simp] theorem State.updCluster_dies : (s.updCluster i f).dies = s.dies := rfl
@[simp] theorem State.updCluster_strap : (s.updCluster i f).strap = s.strap := rfl
@[simp] theorem State.updCluster_up : (s.updCluster i f).up = s.up := rfl
@[simp] theorem State.updCluster_seam : (s.updCluster i f).seam = s.seam := rfl
@[simp] theorem State.updCluster_hostPort : (s.updCluster i f).hostPort = s.hostPort := rfl
@[simp] theorem State.updCluster_clocks : (s.updCluster i f).clocks = s.clocks := rfl
@[simp] theorem State.updCluster_coreFeatures : (s.updCluster i f).coreFeatures = s.coreFeatures := rfl
@[simp] theorem State.updCluster_features : (s.updCluster i f).features = s.features := rfl
@[simp] theorem State.updCluster_counters : (s.updCluster i f).counters = s.counters := rfl
@[simp] theorem State.updCluster_events : (s.updCluster i f).events = s.events := rfl
@[simp] theorem State.updCluster_killed : (s.updCluster i f).killed = s.killed := rfl
@[simp] theorem State.updCluster_gridNum : (s.updCluster i f).gridNum = s.gridNum := rfl
@[simp] theorem State.updCluster_handlers : (s.updCluster i f).handlers = s.handlers := rfl
@[simp] theorem State.updCluster_latches : (s.updCluster i f).latches = s.latches := rfl
@[simp] theorem State.updCluster_lossNotes : (s.updCluster i f).lossNotes = s.lossNotes := rfl
@[simp] theorem State.updCluster_recvWaits : (s.updCluster i f).recvWaits = s.recvWaits := rfl
@[simp] theorem State.updCluster_quiets : (s.updCluster i f).quiets = s.quiets := rfl
@[simp] theorem State.updCluster_collGroups : (s.updCluster i f).collGroups = s.collGroups := rfl
@[simp] theorem State.updCluster_colls : (s.updCluster i f).colls = s.colls := rfl
@[simp] theorem State.updCluster_saved : (s.updCluster i f).saved = s.saved := rfl
@[simp] theorem State.updCluster_queues : (s.updCluster i f).queues = s.queues := rfl
@[simp] theorem State.updCluster_notices : (s.updCluster i f).notices = s.notices := rfl
@[simp] theorem State.updCluster_noticesLost : (s.updCluster i f).noticesLost = s.noticesLost := rfl
@[simp] theorem State.updCluster_hostAsks : (s.updCluster i f).hostAsks = s.hostAsks := rfl
@[simp] theorem State.updCluster_allocs : (s.updCluster i f).allocs = s.allocs := rfl
@[simp] theorem State.updCluster_hdm : (s.updCluster i f).hdm = s.hdm := rfl
@[simp] theorem State.updCluster_powercap : (s.updCluster i f).powercap = s.powercap := rfl
@[simp] theorem State.updCluster_ecc : (s.updCluster i f).ecc = s.ecc := rfl
@[simp] theorem State.updCluster_rose : (s.updCluster i f).rose = s.rose := rfl
@[simp] theorem State.updCluster_flash : (s.updCluster i f).flash = s.flash := rfl
@[simp] theorem State.updCluster_firmware : (s.updCluster i f).firmware = s.firmware := rfl
@[simp] theorem State.updCluster_rollback : (s.updCluster i f).rollback = s.rollback := rfl
@[simp] theorem State.updCluster_slots : (s.updCluster i f).slots = s.slots := rfl
@[simp] theorem State.updCluster_detailed : (s.updCluster i f).detailed = s.detailed := rfl
@[simp] theorem State.updCluster_maxDepth : (s.updCluster i f).maxDepth = s.maxDepth := rfl
@[simp] theorem State.updCluster_spillMax : (s.updCluster i f).spillMax = s.spillMax := rfl
@[simp] theorem State.updCluster_hdmMax : (s.updCluster i f).hdmMax = s.hdmMax := rfl
@[simp] theorem State.updCluster_ports : (s.updCluster i f).ports = s.ports := rfl
@[simp] theorem State.updCluster_order : (s.updCluster i f).order = s.order := rfl
@[simp] theorem State.updCluster_pod : (s.updCluster i f).pod = s.pod := rfl
@[simp] theorem State.updCluster_coreSkew : (s.updCluster i f).coreSkew = s.coreSkew := rfl
@[simp] theorem State.updCluster_code : (s.updCluster i f).code = s.code := rfl
@[simp] theorem State.updCluster_l2 : (s.updCluster i f).l2 = s.l2 := rfl
@[simp] theorem State.updCluster_hbmStamps : (s.updCluster i f).hbmStamps = s.hbmStamps := rfl
@[simp] theorem State.updCluster_keys : (s.updCluster i f).keys = s.keys := rfl
@[simp] theorem State.updCluster_lineKeys : (s.updCluster i f).lineKeys = s.lineKeys := rfl
@[simp] theorem State.updCluster_snoops : (s.updCluster i f).snoops = s.snoops := rfl
@[simp] theorem State.updCluster_seamBroken : (s.updCluster i f).seamBroken = s.seamBroken := rfl
@[simp] theorem State.updCluster_lateAd : (s.updCluster i f).lateAd = s.lateAd := rfl
@[simp] theorem State.updCluster_endNotices : (s.updCluster i f).endNotices = s.endNotices := rfl
@[simp] theorem State.updCluster_denied : (s.updCluster i f).denied = s.denied := rfl
@[simp] theorem State.updCluster_images : (s.updCluster i f).images = s.images := rfl
@[simp] theorem State.updCluster_wakes : (s.updCluster i f).wakes = s.wakes := rfl

end UpdCluster

section UpdGrid
variable (s : State) (i : Nat) (f : Grid → Grid)

@[simp] theorem State.updGrid_agenda : (s.updGrid i f).agenda = s.agenda := rfl
@[simp] theorem State.updGrid_cur : (s.updGrid i f).cur = s.cur := rfl
@[simp] theorem State.updGrid_now : (s.updGrid i f).now = s.now := rfl
@[simp] theorem State.updGrid_fresh : (s.updGrid i f).fresh = s.fresh := rfl
@[simp] theorem State.updGrid_nextId : (s.updGrid i f).nextId = s.nextId := rfl
@[simp] theorem State.updGrid_jobs : (s.updGrid i f).jobs = s.jobs := rfl
@[simp] theorem State.updGrid_clusters : (s.updGrid i f).clusters = s.clusters := rfl
@[simp] theorem State.updGrid_teams : (s.updGrid i f).teams = s.teams := rfl
@[simp] theorem State.updGrid_threads : (s.updGrid i f).threads = s.threads := rfl
@[simp] theorem State.updGrid_gangs : (s.updGrid i f).gangs = s.gangs := rfl
@[simp] theorem State.updGrid_folds : (s.updGrid i f).folds = s.folds := rfl
@[simp] theorem State.updGrid_overflow : (s.updGrid i f).overflow = s.overflow := rfl
@[simp] theorem State.updGrid_filing : (s.updGrid i f).filing = s.filing := rfl
@[simp] theorem State.updGrid_tickets : (s.updGrid i f).tickets = s.tickets := rfl
@[simp] theorem State.updGrid_results : (s.updGrid i f).results = s.results := rfl
@[simp] theorem State.updGrid_accesses : (s.updGrid i f).accesses = s.accesses := rfl
@[simp] theorem State.updGrid_mem : (s.updGrid i f).mem = s.mem := rfl
@[simp] theorem State.updGrid_reqs : (s.updGrid i f).reqs = s.reqs := rfl
@[simp] theorem State.updGrid_ends : (s.updGrid i f).ends = s.ends := rfl
@[simp] theorem State.updGrid_owners : (s.updGrid i f).owners = s.owners := rfl
@[simp] theorem State.updGrid_busy : (s.updGrid i f).busy = s.busy := rfl
@[simp] theorem State.updGrid_dir : (s.updGrid i f).dir = s.dir := rfl
@[simp] theorem State.updGrid_kept : (s.updGrid i f).kept = s.kept := rfl
@[simp] theorem State.updGrid_leadMode : (s.updGrid i f).leadMode = s.leadMode := rfl
@[simp] theorem State.updGrid_spills : (s.updGrid i f).spills = s.spills := rfl
@[simp] theorem State.updGrid_halves : (s.updGrid i f).halves = s.halves := rfl
@[simp] theorem State.updGrid_outputs : (s.updGrid i f).outputs = s.outputs := rfl
@[simp] theorem State.updGrid_arrivals : (s.updGrid i f).arrivals = s.arrivals := rfl
@[simp] theorem State.updGrid_side : (s.updGrid i f).side = s.side := rfl
@[simp] theorem State.updGrid_sideSeq : (s.updGrid i f).sideSeq = s.sideSeq := rfl
@[simp] theorem State.updGrid_replays : (s.updGrid i f).replays = s.replays := rfl
@[simp] theorem State.updGrid_commands : (s.updGrid i f).commands = s.commands := rfl
@[simp] theorem State.updGrid_copyRecs : (s.updGrid i f).copyRecs = s.copyRecs := rfl
@[simp] theorem State.updGrid_engineWaits : (s.updGrid i f).engineWaits = s.engineWaits := rfl
@[simp] theorem State.updGrid_matrix : (s.updGrid i f).matrix = s.matrix := rfl
@[simp] theorem State.updGrid_mcommands : (s.updGrid i f).mcommands = s.mcommands := rfl
@[simp] theorem State.updGrid_mturns : (s.updGrid i f).mturns = s.mturns := rfl
@[simp] theorem State.updGrid_tlb : (s.updGrid i f).tlb = s.tlb := rfl
@[simp] theorem State.updGrid_roots : (s.updGrid i f).roots = s.roots := rfl
@[simp] theorem State.updGrid_pageFaults : (s.updGrid i f).pageFaults = s.pageFaults := rfl
@[simp] theorem State.updGrid_tableNext : (s.updGrid i f).tableNext = s.tableNext := rfl
@[simp] theorem State.updGrid_sendBuf : (s.updGrid i f).sendBuf = s.sendBuf := rfl
@[simp] theorem State.updGrid_inbox : (s.updGrid i f).inbox = s.inbox := rfl
@[simp] theorem State.updGrid_sets : (s.updGrid i f).sets = s.sets := rfl
@[simp] theorem State.updGrid_dies : (s.updGrid i f).dies = s.dies := rfl
@[simp] theorem State.updGrid_strap : (s.updGrid i f).strap = s.strap := rfl
@[simp] theorem State.updGrid_up : (s.updGrid i f).up = s.up := rfl
@[simp] theorem State.updGrid_seam : (s.updGrid i f).seam = s.seam := rfl
@[simp] theorem State.updGrid_hostPort : (s.updGrid i f).hostPort = s.hostPort := rfl
@[simp] theorem State.updGrid_clocks : (s.updGrid i f).clocks = s.clocks := rfl
@[simp] theorem State.updGrid_coreFeatures : (s.updGrid i f).coreFeatures = s.coreFeatures := rfl
@[simp] theorem State.updGrid_features : (s.updGrid i f).features = s.features := rfl
@[simp] theorem State.updGrid_counters : (s.updGrid i f).counters = s.counters := rfl
@[simp] theorem State.updGrid_events : (s.updGrid i f).events = s.events := rfl
@[simp] theorem State.updGrid_killed : (s.updGrid i f).killed = s.killed := rfl
@[simp] theorem State.updGrid_gridNum : (s.updGrid i f).gridNum = s.gridNum := rfl
@[simp] theorem State.updGrid_handlers : (s.updGrid i f).handlers = s.handlers := rfl
@[simp] theorem State.updGrid_latches : (s.updGrid i f).latches = s.latches := rfl
@[simp] theorem State.updGrid_lossNotes : (s.updGrid i f).lossNotes = s.lossNotes := rfl
@[simp] theorem State.updGrid_recvWaits : (s.updGrid i f).recvWaits = s.recvWaits := rfl
@[simp] theorem State.updGrid_quiets : (s.updGrid i f).quiets = s.quiets := rfl
@[simp] theorem State.updGrid_collGroups : (s.updGrid i f).collGroups = s.collGroups := rfl
@[simp] theorem State.updGrid_colls : (s.updGrid i f).colls = s.colls := rfl
@[simp] theorem State.updGrid_saved : (s.updGrid i f).saved = s.saved := rfl
@[simp] theorem State.updGrid_queues : (s.updGrid i f).queues = s.queues := rfl
@[simp] theorem State.updGrid_notices : (s.updGrid i f).notices = s.notices := rfl
@[simp] theorem State.updGrid_noticesLost : (s.updGrid i f).noticesLost = s.noticesLost := rfl
@[simp] theorem State.updGrid_hostAsks : (s.updGrid i f).hostAsks = s.hostAsks := rfl
@[simp] theorem State.updGrid_allocs : (s.updGrid i f).allocs = s.allocs := rfl
@[simp] theorem State.updGrid_hdm : (s.updGrid i f).hdm = s.hdm := rfl
@[simp] theorem State.updGrid_powercap : (s.updGrid i f).powercap = s.powercap := rfl
@[simp] theorem State.updGrid_ecc : (s.updGrid i f).ecc = s.ecc := rfl
@[simp] theorem State.updGrid_rose : (s.updGrid i f).rose = s.rose := rfl
@[simp] theorem State.updGrid_flash : (s.updGrid i f).flash = s.flash := rfl
@[simp] theorem State.updGrid_firmware : (s.updGrid i f).firmware = s.firmware := rfl
@[simp] theorem State.updGrid_rollback : (s.updGrid i f).rollback = s.rollback := rfl
@[simp] theorem State.updGrid_slots : (s.updGrid i f).slots = s.slots := rfl
@[simp] theorem State.updGrid_detailed : (s.updGrid i f).detailed = s.detailed := rfl
@[simp] theorem State.updGrid_maxDepth : (s.updGrid i f).maxDepth = s.maxDepth := rfl
@[simp] theorem State.updGrid_spillMax : (s.updGrid i f).spillMax = s.spillMax := rfl
@[simp] theorem State.updGrid_hdmMax : (s.updGrid i f).hdmMax = s.hdmMax := rfl
@[simp] theorem State.updGrid_ports : (s.updGrid i f).ports = s.ports := rfl
@[simp] theorem State.updGrid_order : (s.updGrid i f).order = s.order := rfl
@[simp] theorem State.updGrid_pod : (s.updGrid i f).pod = s.pod := rfl
@[simp] theorem State.updGrid_coreSkew : (s.updGrid i f).coreSkew = s.coreSkew := rfl
@[simp] theorem State.updGrid_code : (s.updGrid i f).code = s.code := rfl
@[simp] theorem State.updGrid_l2 : (s.updGrid i f).l2 = s.l2 := rfl
@[simp] theorem State.updGrid_hbmStamps : (s.updGrid i f).hbmStamps = s.hbmStamps := rfl
@[simp] theorem State.updGrid_keys : (s.updGrid i f).keys = s.keys := rfl
@[simp] theorem State.updGrid_lineKeys : (s.updGrid i f).lineKeys = s.lineKeys := rfl
@[simp] theorem State.updGrid_snoops : (s.updGrid i f).snoops = s.snoops := rfl
@[simp] theorem State.updGrid_seamBroken : (s.updGrid i f).seamBroken = s.seamBroken := rfl
@[simp] theorem State.updGrid_lateAd : (s.updGrid i f).lateAd = s.lateAd := rfl
@[simp] theorem State.updGrid_endNotices : (s.updGrid i f).endNotices = s.endNotices := rfl
@[simp] theorem State.updGrid_denied : (s.updGrid i f).denied = s.denied := rfl
@[simp] theorem State.updGrid_images : (s.updGrid i f).images = s.images := rfl
@[simp] theorem State.updGrid_wakes : (s.updGrid i f).wakes = s.wakes := rfl

end UpdGrid

section UpdJob
variable (s : State) (i : Nat) (f : Job → Job)

@[simp] theorem State.updJob_agenda : (s.updJob i f).agenda = s.agenda := rfl
@[simp] theorem State.updJob_cur : (s.updJob i f).cur = s.cur := rfl
@[simp] theorem State.updJob_now : (s.updJob i f).now = s.now := rfl
@[simp] theorem State.updJob_fresh : (s.updJob i f).fresh = s.fresh := rfl
@[simp] theorem State.updJob_nextId : (s.updJob i f).nextId = s.nextId := rfl
@[simp] theorem State.updJob_grids : (s.updJob i f).grids = s.grids := rfl
@[simp] theorem State.updJob_clusters : (s.updJob i f).clusters = s.clusters := rfl
@[simp] theorem State.updJob_teams : (s.updJob i f).teams = s.teams := rfl
@[simp] theorem State.updJob_threads : (s.updJob i f).threads = s.threads := rfl
@[simp] theorem State.updJob_gangs : (s.updJob i f).gangs = s.gangs := rfl
@[simp] theorem State.updJob_folds : (s.updJob i f).folds = s.folds := rfl
@[simp] theorem State.updJob_overflow : (s.updJob i f).overflow = s.overflow := rfl
@[simp] theorem State.updJob_filing : (s.updJob i f).filing = s.filing := rfl
@[simp] theorem State.updJob_tickets : (s.updJob i f).tickets = s.tickets := rfl
@[simp] theorem State.updJob_results : (s.updJob i f).results = s.results := rfl
@[simp] theorem State.updJob_accesses : (s.updJob i f).accesses = s.accesses := rfl
@[simp] theorem State.updJob_mem : (s.updJob i f).mem = s.mem := rfl
@[simp] theorem State.updJob_reqs : (s.updJob i f).reqs = s.reqs := rfl
@[simp] theorem State.updJob_ends : (s.updJob i f).ends = s.ends := rfl
@[simp] theorem State.updJob_owners : (s.updJob i f).owners = s.owners := rfl
@[simp] theorem State.updJob_busy : (s.updJob i f).busy = s.busy := rfl
@[simp] theorem State.updJob_dir : (s.updJob i f).dir = s.dir := rfl
@[simp] theorem State.updJob_kept : (s.updJob i f).kept = s.kept := rfl
@[simp] theorem State.updJob_leadMode : (s.updJob i f).leadMode = s.leadMode := rfl
@[simp] theorem State.updJob_spills : (s.updJob i f).spills = s.spills := rfl
@[simp] theorem State.updJob_halves : (s.updJob i f).halves = s.halves := rfl
@[simp] theorem State.updJob_outputs : (s.updJob i f).outputs = s.outputs := rfl
@[simp] theorem State.updJob_arrivals : (s.updJob i f).arrivals = s.arrivals := rfl
@[simp] theorem State.updJob_side : (s.updJob i f).side = s.side := rfl
@[simp] theorem State.updJob_sideSeq : (s.updJob i f).sideSeq = s.sideSeq := rfl
@[simp] theorem State.updJob_replays : (s.updJob i f).replays = s.replays := rfl
@[simp] theorem State.updJob_commands : (s.updJob i f).commands = s.commands := rfl
@[simp] theorem State.updJob_copyRecs : (s.updJob i f).copyRecs = s.copyRecs := rfl
@[simp] theorem State.updJob_engineWaits : (s.updJob i f).engineWaits = s.engineWaits := rfl
@[simp] theorem State.updJob_matrix : (s.updJob i f).matrix = s.matrix := rfl
@[simp] theorem State.updJob_mcommands : (s.updJob i f).mcommands = s.mcommands := rfl
@[simp] theorem State.updJob_mturns : (s.updJob i f).mturns = s.mturns := rfl
@[simp] theorem State.updJob_tlb : (s.updJob i f).tlb = s.tlb := rfl
@[simp] theorem State.updJob_roots : (s.updJob i f).roots = s.roots := rfl
@[simp] theorem State.updJob_pageFaults : (s.updJob i f).pageFaults = s.pageFaults := rfl
@[simp] theorem State.updJob_tableNext : (s.updJob i f).tableNext = s.tableNext := rfl
@[simp] theorem State.updJob_sendBuf : (s.updJob i f).sendBuf = s.sendBuf := rfl
@[simp] theorem State.updJob_inbox : (s.updJob i f).inbox = s.inbox := rfl
@[simp] theorem State.updJob_sets : (s.updJob i f).sets = s.sets := rfl
@[simp] theorem State.updJob_dies : (s.updJob i f).dies = s.dies := rfl
@[simp] theorem State.updJob_strap : (s.updJob i f).strap = s.strap := rfl
@[simp] theorem State.updJob_up : (s.updJob i f).up = s.up := rfl
@[simp] theorem State.updJob_seam : (s.updJob i f).seam = s.seam := rfl
@[simp] theorem State.updJob_hostPort : (s.updJob i f).hostPort = s.hostPort := rfl
@[simp] theorem State.updJob_clocks : (s.updJob i f).clocks = s.clocks := rfl
@[simp] theorem State.updJob_coreFeatures : (s.updJob i f).coreFeatures = s.coreFeatures := rfl
@[simp] theorem State.updJob_features : (s.updJob i f).features = s.features := rfl
@[simp] theorem State.updJob_counters : (s.updJob i f).counters = s.counters := rfl
@[simp] theorem State.updJob_events : (s.updJob i f).events = s.events := rfl
@[simp] theorem State.updJob_killed : (s.updJob i f).killed = s.killed := rfl
@[simp] theorem State.updJob_gridNum : (s.updJob i f).gridNum = s.gridNum := rfl
@[simp] theorem State.updJob_handlers : (s.updJob i f).handlers = s.handlers := rfl
@[simp] theorem State.updJob_latches : (s.updJob i f).latches = s.latches := rfl
@[simp] theorem State.updJob_lossNotes : (s.updJob i f).lossNotes = s.lossNotes := rfl
@[simp] theorem State.updJob_recvWaits : (s.updJob i f).recvWaits = s.recvWaits := rfl
@[simp] theorem State.updJob_quiets : (s.updJob i f).quiets = s.quiets := rfl
@[simp] theorem State.updJob_collGroups : (s.updJob i f).collGroups = s.collGroups := rfl
@[simp] theorem State.updJob_colls : (s.updJob i f).colls = s.colls := rfl
@[simp] theorem State.updJob_saved : (s.updJob i f).saved = s.saved := rfl
@[simp] theorem State.updJob_queues : (s.updJob i f).queues = s.queues := rfl
@[simp] theorem State.updJob_notices : (s.updJob i f).notices = s.notices := rfl
@[simp] theorem State.updJob_noticesLost : (s.updJob i f).noticesLost = s.noticesLost := rfl
@[simp] theorem State.updJob_hostAsks : (s.updJob i f).hostAsks = s.hostAsks := rfl
@[simp] theorem State.updJob_allocs : (s.updJob i f).allocs = s.allocs := rfl
@[simp] theorem State.updJob_hdm : (s.updJob i f).hdm = s.hdm := rfl
@[simp] theorem State.updJob_powercap : (s.updJob i f).powercap = s.powercap := rfl
@[simp] theorem State.updJob_ecc : (s.updJob i f).ecc = s.ecc := rfl
@[simp] theorem State.updJob_rose : (s.updJob i f).rose = s.rose := rfl
@[simp] theorem State.updJob_flash : (s.updJob i f).flash = s.flash := rfl
@[simp] theorem State.updJob_firmware : (s.updJob i f).firmware = s.firmware := rfl
@[simp] theorem State.updJob_rollback : (s.updJob i f).rollback = s.rollback := rfl
@[simp] theorem State.updJob_slots : (s.updJob i f).slots = s.slots := rfl
@[simp] theorem State.updJob_detailed : (s.updJob i f).detailed = s.detailed := rfl
@[simp] theorem State.updJob_maxDepth : (s.updJob i f).maxDepth = s.maxDepth := rfl
@[simp] theorem State.updJob_spillMax : (s.updJob i f).spillMax = s.spillMax := rfl
@[simp] theorem State.updJob_hdmMax : (s.updJob i f).hdmMax = s.hdmMax := rfl
@[simp] theorem State.updJob_ports : (s.updJob i f).ports = s.ports := rfl
@[simp] theorem State.updJob_order : (s.updJob i f).order = s.order := rfl
@[simp] theorem State.updJob_pod : (s.updJob i f).pod = s.pod := rfl
@[simp] theorem State.updJob_coreSkew : (s.updJob i f).coreSkew = s.coreSkew := rfl
@[simp] theorem State.updJob_code : (s.updJob i f).code = s.code := rfl
@[simp] theorem State.updJob_l2 : (s.updJob i f).l2 = s.l2 := rfl
@[simp] theorem State.updJob_hbmStamps : (s.updJob i f).hbmStamps = s.hbmStamps := rfl
@[simp] theorem State.updJob_keys : (s.updJob i f).keys = s.keys := rfl
@[simp] theorem State.updJob_lineKeys : (s.updJob i f).lineKeys = s.lineKeys := rfl
@[simp] theorem State.updJob_snoops : (s.updJob i f).snoops = s.snoops := rfl
@[simp] theorem State.updJob_seamBroken : (s.updJob i f).seamBroken = s.seamBroken := rfl
@[simp] theorem State.updJob_lateAd : (s.updJob i f).lateAd = s.lateAd := rfl
@[simp] theorem State.updJob_endNotices : (s.updJob i f).endNotices = s.endNotices := rfl
@[simp] theorem State.updJob_denied : (s.updJob i f).denied = s.denied := rfl
@[simp] theorem State.updJob_images : (s.updJob i f).images = s.images := rfl
@[simp] theorem State.updJob_wakes : (s.updJob i f).wakes = s.wakes := rfl

end UpdJob

section UpdThread
variable (s : State) (t r : Nat) (f : Thread → Thread)

@[simp] theorem State.updThread_agenda : (s.updThread t r f).agenda = s.agenda := rfl
@[simp] theorem State.updThread_cur : (s.updThread t r f).cur = s.cur := rfl
@[simp] theorem State.updThread_now : (s.updThread t r f).now = s.now := rfl
@[simp] theorem State.updThread_fresh : (s.updThread t r f).fresh = s.fresh := rfl
@[simp] theorem State.updThread_nextId : (s.updThread t r f).nextId = s.nextId := rfl
@[simp] theorem State.updThread_jobs : (s.updThread t r f).jobs = s.jobs := rfl
@[simp] theorem State.updThread_grids : (s.updThread t r f).grids = s.grids := rfl
@[simp] theorem State.updThread_clusters : (s.updThread t r f).clusters = s.clusters := rfl
@[simp] theorem State.updThread_teams : (s.updThread t r f).teams = s.teams := rfl
@[simp] theorem State.updThread_gangs : (s.updThread t r f).gangs = s.gangs := rfl
@[simp] theorem State.updThread_folds : (s.updThread t r f).folds = s.folds := rfl
@[simp] theorem State.updThread_overflow : (s.updThread t r f).overflow = s.overflow := rfl
@[simp] theorem State.updThread_filing : (s.updThread t r f).filing = s.filing := rfl
@[simp] theorem State.updThread_tickets : (s.updThread t r f).tickets = s.tickets := rfl
@[simp] theorem State.updThread_results : (s.updThread t r f).results = s.results := rfl
@[simp] theorem State.updThread_accesses : (s.updThread t r f).accesses = s.accesses := rfl
@[simp] theorem State.updThread_mem : (s.updThread t r f).mem = s.mem := rfl
@[simp] theorem State.updThread_reqs : (s.updThread t r f).reqs = s.reqs := rfl
@[simp] theorem State.updThread_ends : (s.updThread t r f).ends = s.ends := rfl
@[simp] theorem State.updThread_owners : (s.updThread t r f).owners = s.owners := rfl
@[simp] theorem State.updThread_busy : (s.updThread t r f).busy = s.busy := rfl
@[simp] theorem State.updThread_dir : (s.updThread t r f).dir = s.dir := rfl
@[simp] theorem State.updThread_kept : (s.updThread t r f).kept = s.kept := rfl
@[simp] theorem State.updThread_leadMode : (s.updThread t r f).leadMode = s.leadMode := rfl
@[simp] theorem State.updThread_spills : (s.updThread t r f).spills = s.spills := rfl
@[simp] theorem State.updThread_halves : (s.updThread t r f).halves = s.halves := rfl
@[simp] theorem State.updThread_outputs : (s.updThread t r f).outputs = s.outputs := rfl
@[simp] theorem State.updThread_arrivals : (s.updThread t r f).arrivals = s.arrivals := rfl
@[simp] theorem State.updThread_side : (s.updThread t r f).side = s.side := rfl
@[simp] theorem State.updThread_sideSeq : (s.updThread t r f).sideSeq = s.sideSeq := rfl
@[simp] theorem State.updThread_replays : (s.updThread t r f).replays = s.replays := rfl
@[simp] theorem State.updThread_commands : (s.updThread t r f).commands = s.commands := rfl
@[simp] theorem State.updThread_copyRecs : (s.updThread t r f).copyRecs = s.copyRecs := rfl
@[simp] theorem State.updThread_engineWaits : (s.updThread t r f).engineWaits = s.engineWaits := rfl
@[simp] theorem State.updThread_matrix : (s.updThread t r f).matrix = s.matrix := rfl
@[simp] theorem State.updThread_mcommands : (s.updThread t r f).mcommands = s.mcommands := rfl
@[simp] theorem State.updThread_mturns : (s.updThread t r f).mturns = s.mturns := rfl
@[simp] theorem State.updThread_tlb : (s.updThread t r f).tlb = s.tlb := rfl
@[simp] theorem State.updThread_roots : (s.updThread t r f).roots = s.roots := rfl
@[simp] theorem State.updThread_pageFaults : (s.updThread t r f).pageFaults = s.pageFaults := rfl
@[simp] theorem State.updThread_tableNext : (s.updThread t r f).tableNext = s.tableNext := rfl
@[simp] theorem State.updThread_sendBuf : (s.updThread t r f).sendBuf = s.sendBuf := rfl
@[simp] theorem State.updThread_inbox : (s.updThread t r f).inbox = s.inbox := rfl
@[simp] theorem State.updThread_sets : (s.updThread t r f).sets = s.sets := rfl
@[simp] theorem State.updThread_dies : (s.updThread t r f).dies = s.dies := rfl
@[simp] theorem State.updThread_strap : (s.updThread t r f).strap = s.strap := rfl
@[simp] theorem State.updThread_up : (s.updThread t r f).up = s.up := rfl
@[simp] theorem State.updThread_seam : (s.updThread t r f).seam = s.seam := rfl
@[simp] theorem State.updThread_hostPort : (s.updThread t r f).hostPort = s.hostPort := rfl
@[simp] theorem State.updThread_clocks : (s.updThread t r f).clocks = s.clocks := rfl
@[simp] theorem State.updThread_coreFeatures : (s.updThread t r f).coreFeatures = s.coreFeatures := rfl
@[simp] theorem State.updThread_features : (s.updThread t r f).features = s.features := rfl
@[simp] theorem State.updThread_counters : (s.updThread t r f).counters = s.counters := rfl
@[simp] theorem State.updThread_events : (s.updThread t r f).events = s.events := rfl
@[simp] theorem State.updThread_killed : (s.updThread t r f).killed = s.killed := rfl
@[simp] theorem State.updThread_gridNum : (s.updThread t r f).gridNum = s.gridNum := rfl
@[simp] theorem State.updThread_handlers : (s.updThread t r f).handlers = s.handlers := rfl
@[simp] theorem State.updThread_latches : (s.updThread t r f).latches = s.latches := rfl
@[simp] theorem State.updThread_lossNotes : (s.updThread t r f).lossNotes = s.lossNotes := rfl
@[simp] theorem State.updThread_recvWaits : (s.updThread t r f).recvWaits = s.recvWaits := rfl
@[simp] theorem State.updThread_quiets : (s.updThread t r f).quiets = s.quiets := rfl
@[simp] theorem State.updThread_collGroups : (s.updThread t r f).collGroups = s.collGroups := rfl
@[simp] theorem State.updThread_colls : (s.updThread t r f).colls = s.colls := rfl
@[simp] theorem State.updThread_saved : (s.updThread t r f).saved = s.saved := rfl
@[simp] theorem State.updThread_queues : (s.updThread t r f).queues = s.queues := rfl
@[simp] theorem State.updThread_notices : (s.updThread t r f).notices = s.notices := rfl
@[simp] theorem State.updThread_noticesLost : (s.updThread t r f).noticesLost = s.noticesLost := rfl
@[simp] theorem State.updThread_hostAsks : (s.updThread t r f).hostAsks = s.hostAsks := rfl
@[simp] theorem State.updThread_allocs : (s.updThread t r f).allocs = s.allocs := rfl
@[simp] theorem State.updThread_hdm : (s.updThread t r f).hdm = s.hdm := rfl
@[simp] theorem State.updThread_powercap : (s.updThread t r f).powercap = s.powercap := rfl
@[simp] theorem State.updThread_ecc : (s.updThread t r f).ecc = s.ecc := rfl
@[simp] theorem State.updThread_rose : (s.updThread t r f).rose = s.rose := rfl
@[simp] theorem State.updThread_flash : (s.updThread t r f).flash = s.flash := rfl
@[simp] theorem State.updThread_firmware : (s.updThread t r f).firmware = s.firmware := rfl
@[simp] theorem State.updThread_rollback : (s.updThread t r f).rollback = s.rollback := rfl
@[simp] theorem State.updThread_slots : (s.updThread t r f).slots = s.slots := rfl
@[simp] theorem State.updThread_detailed : (s.updThread t r f).detailed = s.detailed := rfl
@[simp] theorem State.updThread_maxDepth : (s.updThread t r f).maxDepth = s.maxDepth := rfl
@[simp] theorem State.updThread_spillMax : (s.updThread t r f).spillMax = s.spillMax := rfl
@[simp] theorem State.updThread_hdmMax : (s.updThread t r f).hdmMax = s.hdmMax := rfl
@[simp] theorem State.updThread_ports : (s.updThread t r f).ports = s.ports := rfl
@[simp] theorem State.updThread_order : (s.updThread t r f).order = s.order := rfl
@[simp] theorem State.updThread_pod : (s.updThread t r f).pod = s.pod := rfl
@[simp] theorem State.updThread_coreSkew : (s.updThread t r f).coreSkew = s.coreSkew := rfl
@[simp] theorem State.updThread_code : (s.updThread t r f).code = s.code := rfl
@[simp] theorem State.updThread_l2 : (s.updThread t r f).l2 = s.l2 := rfl
@[simp] theorem State.updThread_hbmStamps : (s.updThread t r f).hbmStamps = s.hbmStamps := rfl
@[simp] theorem State.updThread_keys : (s.updThread t r f).keys = s.keys := rfl
@[simp] theorem State.updThread_lineKeys : (s.updThread t r f).lineKeys = s.lineKeys := rfl
@[simp] theorem State.updThread_snoops : (s.updThread t r f).snoops = s.snoops := rfl
@[simp] theorem State.updThread_seamBroken : (s.updThread t r f).seamBroken = s.seamBroken := rfl
@[simp] theorem State.updThread_lateAd : (s.updThread t r f).lateAd = s.lateAd := rfl
@[simp] theorem State.updThread_endNotices : (s.updThread t r f).endNotices = s.endNotices := rfl
@[simp] theorem State.updThread_denied : (s.updThread t r f).denied = s.denied := rfl
@[simp] theorem State.updThread_images : (s.updThread t r f).images = s.images := rfl
@[simp] theorem State.updThread_wakes : (s.updThread t r f).wakes = s.wakes := rfl

end UpdThread

section SettleTicket
variable (s : State) (i r : Nat)

@[simp] theorem State.settleTicket_agenda : (s.settleTicket i r).agenda = s.agenda := rfl
@[simp] theorem State.settleTicket_cur : (s.settleTicket i r).cur = s.cur := rfl
@[simp] theorem State.settleTicket_now : (s.settleTicket i r).now = s.now := rfl
@[simp] theorem State.settleTicket_fresh : (s.settleTicket i r).fresh = s.fresh := rfl
@[simp] theorem State.settleTicket_nextId : (s.settleTicket i r).nextId = s.nextId := rfl
@[simp] theorem State.settleTicket_jobs : (s.settleTicket i r).jobs = s.jobs := rfl
@[simp] theorem State.settleTicket_grids : (s.settleTicket i r).grids = s.grids := rfl
@[simp] theorem State.settleTicket_clusters : (s.settleTicket i r).clusters = s.clusters := rfl
@[simp] theorem State.settleTicket_teams : (s.settleTicket i r).teams = s.teams := rfl
@[simp] theorem State.settleTicket_threads : (s.settleTicket i r).threads = s.threads := rfl
@[simp] theorem State.settleTicket_gangs : (s.settleTicket i r).gangs = s.gangs := rfl
@[simp] theorem State.settleTicket_folds : (s.settleTicket i r).folds = s.folds := rfl
@[simp] theorem State.settleTicket_overflow : (s.settleTicket i r).overflow = s.overflow := rfl
@[simp] theorem State.settleTicket_filing : (s.settleTicket i r).filing = s.filing := rfl
@[simp] theorem State.settleTicket_results : (s.settleTicket i r).results = s.results := rfl
@[simp] theorem State.settleTicket_accesses : (s.settleTicket i r).accesses = s.accesses := rfl
@[simp] theorem State.settleTicket_mem : (s.settleTicket i r).mem = s.mem := rfl
@[simp] theorem State.settleTicket_reqs : (s.settleTicket i r).reqs = s.reqs := rfl
@[simp] theorem State.settleTicket_ends : (s.settleTicket i r).ends = s.ends := rfl
@[simp] theorem State.settleTicket_owners : (s.settleTicket i r).owners = s.owners := rfl
@[simp] theorem State.settleTicket_busy : (s.settleTicket i r).busy = s.busy := rfl
@[simp] theorem State.settleTicket_dir : (s.settleTicket i r).dir = s.dir := rfl
@[simp] theorem State.settleTicket_kept : (s.settleTicket i r).kept = s.kept := rfl
@[simp] theorem State.settleTicket_leadMode : (s.settleTicket i r).leadMode = s.leadMode := rfl
@[simp] theorem State.settleTicket_spills : (s.settleTicket i r).spills = s.spills := rfl
@[simp] theorem State.settleTicket_halves : (s.settleTicket i r).halves = s.halves := rfl
@[simp] theorem State.settleTicket_outputs : (s.settleTicket i r).outputs = s.outputs := rfl
@[simp] theorem State.settleTicket_arrivals : (s.settleTicket i r).arrivals = s.arrivals := rfl
@[simp] theorem State.settleTicket_side : (s.settleTicket i r).side = s.side := rfl
@[simp] theorem State.settleTicket_sideSeq : (s.settleTicket i r).sideSeq = s.sideSeq := rfl
@[simp] theorem State.settleTicket_replays : (s.settleTicket i r).replays = s.replays := rfl
@[simp] theorem State.settleTicket_commands : (s.settleTicket i r).commands = s.commands := rfl
@[simp] theorem State.settleTicket_copyRecs : (s.settleTicket i r).copyRecs = s.copyRecs := rfl
@[simp] theorem State.settleTicket_engineWaits : (s.settleTicket i r).engineWaits = s.engineWaits := rfl
@[simp] theorem State.settleTicket_matrix : (s.settleTicket i r).matrix = s.matrix := rfl
@[simp] theorem State.settleTicket_mcommands : (s.settleTicket i r).mcommands = s.mcommands := rfl
@[simp] theorem State.settleTicket_mturns : (s.settleTicket i r).mturns = s.mturns := rfl
@[simp] theorem State.settleTicket_tlb : (s.settleTicket i r).tlb = s.tlb := rfl
@[simp] theorem State.settleTicket_roots : (s.settleTicket i r).roots = s.roots := rfl
@[simp] theorem State.settleTicket_pageFaults : (s.settleTicket i r).pageFaults = s.pageFaults := rfl
@[simp] theorem State.settleTicket_tableNext : (s.settleTicket i r).tableNext = s.tableNext := rfl
@[simp] theorem State.settleTicket_sendBuf : (s.settleTicket i r).sendBuf = s.sendBuf := rfl
@[simp] theorem State.settleTicket_inbox : (s.settleTicket i r).inbox = s.inbox := rfl
@[simp] theorem State.settleTicket_sets : (s.settleTicket i r).sets = s.sets := rfl
@[simp] theorem State.settleTicket_dies : (s.settleTicket i r).dies = s.dies := rfl
@[simp] theorem State.settleTicket_strap : (s.settleTicket i r).strap = s.strap := rfl
@[simp] theorem State.settleTicket_up : (s.settleTicket i r).up = s.up := rfl
@[simp] theorem State.settleTicket_seam : (s.settleTicket i r).seam = s.seam := rfl
@[simp] theorem State.settleTicket_hostPort : (s.settleTicket i r).hostPort = s.hostPort := rfl
@[simp] theorem State.settleTicket_clocks : (s.settleTicket i r).clocks = s.clocks := rfl
@[simp] theorem State.settleTicket_coreFeatures : (s.settleTicket i r).coreFeatures = s.coreFeatures := rfl
@[simp] theorem State.settleTicket_features : (s.settleTicket i r).features = s.features := rfl
@[simp] theorem State.settleTicket_counters : (s.settleTicket i r).counters = s.counters := rfl
@[simp] theorem State.settleTicket_events : (s.settleTicket i r).events = s.events := rfl
@[simp] theorem State.settleTicket_killed : (s.settleTicket i r).killed = s.killed := rfl
@[simp] theorem State.settleTicket_gridNum : (s.settleTicket i r).gridNum = s.gridNum := rfl
@[simp] theorem State.settleTicket_handlers : (s.settleTicket i r).handlers = s.handlers := rfl
@[simp] theorem State.settleTicket_latches : (s.settleTicket i r).latches = s.latches := rfl
@[simp] theorem State.settleTicket_lossNotes : (s.settleTicket i r).lossNotes = s.lossNotes := rfl
@[simp] theorem State.settleTicket_recvWaits : (s.settleTicket i r).recvWaits = s.recvWaits := rfl
@[simp] theorem State.settleTicket_quiets : (s.settleTicket i r).quiets = s.quiets := rfl
@[simp] theorem State.settleTicket_collGroups : (s.settleTicket i r).collGroups = s.collGroups := rfl
@[simp] theorem State.settleTicket_colls : (s.settleTicket i r).colls = s.colls := rfl
@[simp] theorem State.settleTicket_saved : (s.settleTicket i r).saved = s.saved := rfl
@[simp] theorem State.settleTicket_queues : (s.settleTicket i r).queues = s.queues := rfl
@[simp] theorem State.settleTicket_notices : (s.settleTicket i r).notices = s.notices := rfl
@[simp] theorem State.settleTicket_noticesLost : (s.settleTicket i r).noticesLost = s.noticesLost := rfl
@[simp] theorem State.settleTicket_hostAsks : (s.settleTicket i r).hostAsks = s.hostAsks := rfl
@[simp] theorem State.settleTicket_allocs : (s.settleTicket i r).allocs = s.allocs := rfl
@[simp] theorem State.settleTicket_hdm : (s.settleTicket i r).hdm = s.hdm := rfl
@[simp] theorem State.settleTicket_powercap : (s.settleTicket i r).powercap = s.powercap := rfl
@[simp] theorem State.settleTicket_ecc : (s.settleTicket i r).ecc = s.ecc := rfl
@[simp] theorem State.settleTicket_rose : (s.settleTicket i r).rose = s.rose := rfl
@[simp] theorem State.settleTicket_flash : (s.settleTicket i r).flash = s.flash := rfl
@[simp] theorem State.settleTicket_firmware : (s.settleTicket i r).firmware = s.firmware := rfl
@[simp] theorem State.settleTicket_rollback : (s.settleTicket i r).rollback = s.rollback := rfl
@[simp] theorem State.settleTicket_slots : (s.settleTicket i r).slots = s.slots := rfl
@[simp] theorem State.settleTicket_detailed : (s.settleTicket i r).detailed = s.detailed := rfl
@[simp] theorem State.settleTicket_maxDepth : (s.settleTicket i r).maxDepth = s.maxDepth := rfl
@[simp] theorem State.settleTicket_spillMax : (s.settleTicket i r).spillMax = s.spillMax := rfl
@[simp] theorem State.settleTicket_hdmMax : (s.settleTicket i r).hdmMax = s.hdmMax := rfl
@[simp] theorem State.settleTicket_ports : (s.settleTicket i r).ports = s.ports := rfl
@[simp] theorem State.settleTicket_order : (s.settleTicket i r).order = s.order := rfl
@[simp] theorem State.settleTicket_pod : (s.settleTicket i r).pod = s.pod := rfl
@[simp] theorem State.settleTicket_coreSkew : (s.settleTicket i r).coreSkew = s.coreSkew := rfl
@[simp] theorem State.settleTicket_code : (s.settleTicket i r).code = s.code := rfl
@[simp] theorem State.settleTicket_l2 : (s.settleTicket i r).l2 = s.l2 := rfl
@[simp] theorem State.settleTicket_hbmStamps : (s.settleTicket i r).hbmStamps = s.hbmStamps := rfl
@[simp] theorem State.settleTicket_keys : (s.settleTicket i r).keys = s.keys := rfl
@[simp] theorem State.settleTicket_lineKeys : (s.settleTicket i r).lineKeys = s.lineKeys := rfl
@[simp] theorem State.settleTicket_snoops : (s.settleTicket i r).snoops = s.snoops := rfl
@[simp] theorem State.settleTicket_seamBroken : (s.settleTicket i r).seamBroken = s.seamBroken := rfl
@[simp] theorem State.settleTicket_lateAd : (s.settleTicket i r).lateAd = s.lateAd := rfl
@[simp] theorem State.settleTicket_endNotices : (s.settleTicket i r).endNotices = s.endNotices := rfl
@[simp] theorem State.settleTicket_denied : (s.settleTicket i r).denied = s.denied := rfl
@[simp] theorem State.settleTicket_images : (s.settleTicket i r).images = s.images := rfl
@[simp] theorem State.settleTicket_wakes : (s.settleTicket i r).wakes = s.wakes := rfl

end SettleTicket

section Owe
variable (s : State) (t r n : Nat)

@[simp] theorem State.owe_agenda : (s.owe t r n).agenda = s.agenda := rfl
@[simp] theorem State.owe_cur : (s.owe t r n).cur = s.cur := rfl
@[simp] theorem State.owe_now : (s.owe t r n).now = s.now := rfl
@[simp] theorem State.owe_fresh : (s.owe t r n).fresh = s.fresh := rfl
@[simp] theorem State.owe_nextId : (s.owe t r n).nextId = s.nextId := rfl
@[simp] theorem State.owe_jobs : (s.owe t r n).jobs = s.jobs := rfl
@[simp] theorem State.owe_grids : (s.owe t r n).grids = s.grids := rfl
@[simp] theorem State.owe_clusters : (s.owe t r n).clusters = s.clusters := rfl
@[simp] theorem State.owe_teams : (s.owe t r n).teams = s.teams := rfl
@[simp] theorem State.owe_threads : (s.owe t r n).threads = s.threads := rfl
@[simp] theorem State.owe_gangs : (s.owe t r n).gangs = s.gangs := rfl
@[simp] theorem State.owe_folds : (s.owe t r n).folds = s.folds := rfl
@[simp] theorem State.owe_overflow : (s.owe t r n).overflow = s.overflow := rfl
@[simp] theorem State.owe_filing : (s.owe t r n).filing = s.filing := rfl
@[simp] theorem State.owe_results : (s.owe t r n).results = s.results := rfl
@[simp] theorem State.owe_accesses : (s.owe t r n).accesses = s.accesses := rfl
@[simp] theorem State.owe_mem : (s.owe t r n).mem = s.mem := rfl
@[simp] theorem State.owe_reqs : (s.owe t r n).reqs = s.reqs := rfl
@[simp] theorem State.owe_ends : (s.owe t r n).ends = s.ends := rfl
@[simp] theorem State.owe_owners : (s.owe t r n).owners = s.owners := rfl
@[simp] theorem State.owe_busy : (s.owe t r n).busy = s.busy := rfl
@[simp] theorem State.owe_dir : (s.owe t r n).dir = s.dir := rfl
@[simp] theorem State.owe_kept : (s.owe t r n).kept = s.kept := rfl
@[simp] theorem State.owe_leadMode : (s.owe t r n).leadMode = s.leadMode := rfl
@[simp] theorem State.owe_spills : (s.owe t r n).spills = s.spills := rfl
@[simp] theorem State.owe_halves : (s.owe t r n).halves = s.halves := rfl
@[simp] theorem State.owe_outputs : (s.owe t r n).outputs = s.outputs := rfl
@[simp] theorem State.owe_arrivals : (s.owe t r n).arrivals = s.arrivals := rfl
@[simp] theorem State.owe_side : (s.owe t r n).side = s.side := rfl
@[simp] theorem State.owe_sideSeq : (s.owe t r n).sideSeq = s.sideSeq := rfl
@[simp] theorem State.owe_replays : (s.owe t r n).replays = s.replays := rfl
@[simp] theorem State.owe_commands : (s.owe t r n).commands = s.commands := rfl
@[simp] theorem State.owe_copyRecs : (s.owe t r n).copyRecs = s.copyRecs := rfl
@[simp] theorem State.owe_engineWaits : (s.owe t r n).engineWaits = s.engineWaits := rfl
@[simp] theorem State.owe_matrix : (s.owe t r n).matrix = s.matrix := rfl
@[simp] theorem State.owe_mcommands : (s.owe t r n).mcommands = s.mcommands := rfl
@[simp] theorem State.owe_mturns : (s.owe t r n).mturns = s.mturns := rfl
@[simp] theorem State.owe_tlb : (s.owe t r n).tlb = s.tlb := rfl
@[simp] theorem State.owe_roots : (s.owe t r n).roots = s.roots := rfl
@[simp] theorem State.owe_pageFaults : (s.owe t r n).pageFaults = s.pageFaults := rfl
@[simp] theorem State.owe_tableNext : (s.owe t r n).tableNext = s.tableNext := rfl
@[simp] theorem State.owe_sendBuf : (s.owe t r n).sendBuf = s.sendBuf := rfl
@[simp] theorem State.owe_inbox : (s.owe t r n).inbox = s.inbox := rfl
@[simp] theorem State.owe_sets : (s.owe t r n).sets = s.sets := rfl
@[simp] theorem State.owe_dies : (s.owe t r n).dies = s.dies := rfl
@[simp] theorem State.owe_strap : (s.owe t r n).strap = s.strap := rfl
@[simp] theorem State.owe_up : (s.owe t r n).up = s.up := rfl
@[simp] theorem State.owe_seam : (s.owe t r n).seam = s.seam := rfl
@[simp] theorem State.owe_hostPort : (s.owe t r n).hostPort = s.hostPort := rfl
@[simp] theorem State.owe_clocks : (s.owe t r n).clocks = s.clocks := rfl
@[simp] theorem State.owe_coreFeatures : (s.owe t r n).coreFeatures = s.coreFeatures := rfl
@[simp] theorem State.owe_features : (s.owe t r n).features = s.features := rfl
@[simp] theorem State.owe_counters : (s.owe t r n).counters = s.counters := rfl
@[simp] theorem State.owe_events : (s.owe t r n).events = s.events := rfl
@[simp] theorem State.owe_killed : (s.owe t r n).killed = s.killed := rfl
@[simp] theorem State.owe_gridNum : (s.owe t r n).gridNum = s.gridNum := rfl
@[simp] theorem State.owe_handlers : (s.owe t r n).handlers = s.handlers := rfl
@[simp] theorem State.owe_latches : (s.owe t r n).latches = s.latches := rfl
@[simp] theorem State.owe_lossNotes : (s.owe t r n).lossNotes = s.lossNotes := rfl
@[simp] theorem State.owe_recvWaits : (s.owe t r n).recvWaits = s.recvWaits := rfl
@[simp] theorem State.owe_quiets : (s.owe t r n).quiets = s.quiets := rfl
@[simp] theorem State.owe_collGroups : (s.owe t r n).collGroups = s.collGroups := rfl
@[simp] theorem State.owe_colls : (s.owe t r n).colls = s.colls := rfl
@[simp] theorem State.owe_saved : (s.owe t r n).saved = s.saved := rfl
@[simp] theorem State.owe_queues : (s.owe t r n).queues = s.queues := rfl
@[simp] theorem State.owe_notices : (s.owe t r n).notices = s.notices := rfl
@[simp] theorem State.owe_noticesLost : (s.owe t r n).noticesLost = s.noticesLost := rfl
@[simp] theorem State.owe_hostAsks : (s.owe t r n).hostAsks = s.hostAsks := rfl
@[simp] theorem State.owe_allocs : (s.owe t r n).allocs = s.allocs := rfl
@[simp] theorem State.owe_hdm : (s.owe t r n).hdm = s.hdm := rfl
@[simp] theorem State.owe_powercap : (s.owe t r n).powercap = s.powercap := rfl
@[simp] theorem State.owe_ecc : (s.owe t r n).ecc = s.ecc := rfl
@[simp] theorem State.owe_rose : (s.owe t r n).rose = s.rose := rfl
@[simp] theorem State.owe_flash : (s.owe t r n).flash = s.flash := rfl
@[simp] theorem State.owe_firmware : (s.owe t r n).firmware = s.firmware := rfl
@[simp] theorem State.owe_rollback : (s.owe t r n).rollback = s.rollback := rfl
@[simp] theorem State.owe_slots : (s.owe t r n).slots = s.slots := rfl
@[simp] theorem State.owe_detailed : (s.owe t r n).detailed = s.detailed := rfl
@[simp] theorem State.owe_maxDepth : (s.owe t r n).maxDepth = s.maxDepth := rfl
@[simp] theorem State.owe_spillMax : (s.owe t r n).spillMax = s.spillMax := rfl
@[simp] theorem State.owe_hdmMax : (s.owe t r n).hdmMax = s.hdmMax := rfl
@[simp] theorem State.owe_ports : (s.owe t r n).ports = s.ports := rfl
@[simp] theorem State.owe_order : (s.owe t r n).order = s.order := rfl
@[simp] theorem State.owe_pod : (s.owe t r n).pod = s.pod := rfl
@[simp] theorem State.owe_coreSkew : (s.owe t r n).coreSkew = s.coreSkew := rfl
@[simp] theorem State.owe_code : (s.owe t r n).code = s.code := rfl
@[simp] theorem State.owe_l2 : (s.owe t r n).l2 = s.l2 := rfl
@[simp] theorem State.owe_hbmStamps : (s.owe t r n).hbmStamps = s.hbmStamps := rfl
@[simp] theorem State.owe_keys : (s.owe t r n).keys = s.keys := rfl
@[simp] theorem State.owe_lineKeys : (s.owe t r n).lineKeys = s.lineKeys := rfl
@[simp] theorem State.owe_snoops : (s.owe t r n).snoops = s.snoops := rfl
@[simp] theorem State.owe_seamBroken : (s.owe t r n).seamBroken = s.seamBroken := rfl
@[simp] theorem State.owe_lateAd : (s.owe t r n).lateAd = s.lateAd := rfl
@[simp] theorem State.owe_endNotices : (s.owe t r n).endNotices = s.endNotices := rfl
@[simp] theorem State.owe_denied : (s.owe t r n).denied = s.denied := rfl
@[simp] theorem State.owe_images : (s.owe t r n).images = s.images := rfl
@[simp] theorem State.owe_wakes : (s.owe t r n).wakes = s.wakes := rfl

end Owe

section HostInterrupt
variable (s : State) (k a b : Nat)

@[simp] theorem State.hostInterrupt_agenda : (s.hostInterrupt k a b).agenda = s.agenda := rfl
@[simp] theorem State.hostInterrupt_cur : (s.hostInterrupt k a b).cur = s.cur := rfl
@[simp] theorem State.hostInterrupt_now : (s.hostInterrupt k a b).now = s.now := rfl
@[simp] theorem State.hostInterrupt_fresh : (s.hostInterrupt k a b).fresh = s.fresh := rfl
@[simp] theorem State.hostInterrupt_nextId : (s.hostInterrupt k a b).nextId = s.nextId := rfl
@[simp] theorem State.hostInterrupt_jobs : (s.hostInterrupt k a b).jobs = s.jobs := rfl
@[simp] theorem State.hostInterrupt_grids : (s.hostInterrupt k a b).grids = s.grids := rfl
@[simp] theorem State.hostInterrupt_clusters : (s.hostInterrupt k a b).clusters = s.clusters := rfl
@[simp] theorem State.hostInterrupt_teams : (s.hostInterrupt k a b).teams = s.teams := rfl
@[simp] theorem State.hostInterrupt_threads : (s.hostInterrupt k a b).threads = s.threads := rfl
@[simp] theorem State.hostInterrupt_gangs : (s.hostInterrupt k a b).gangs = s.gangs := rfl
@[simp] theorem State.hostInterrupt_folds : (s.hostInterrupt k a b).folds = s.folds := rfl
@[simp] theorem State.hostInterrupt_overflow : (s.hostInterrupt k a b).overflow = s.overflow := rfl
@[simp] theorem State.hostInterrupt_filing : (s.hostInterrupt k a b).filing = s.filing := rfl
@[simp] theorem State.hostInterrupt_tickets : (s.hostInterrupt k a b).tickets = s.tickets := rfl
@[simp] theorem State.hostInterrupt_results : (s.hostInterrupt k a b).results = s.results := rfl
@[simp] theorem State.hostInterrupt_accesses : (s.hostInterrupt k a b).accesses = s.accesses := rfl
@[simp] theorem State.hostInterrupt_mem : (s.hostInterrupt k a b).mem = s.mem := rfl
@[simp] theorem State.hostInterrupt_reqs : (s.hostInterrupt k a b).reqs = s.reqs := rfl
@[simp] theorem State.hostInterrupt_ends : (s.hostInterrupt k a b).ends = s.ends := rfl
@[simp] theorem State.hostInterrupt_owners : (s.hostInterrupt k a b).owners = s.owners := rfl
@[simp] theorem State.hostInterrupt_busy : (s.hostInterrupt k a b).busy = s.busy := rfl
@[simp] theorem State.hostInterrupt_dir : (s.hostInterrupt k a b).dir = s.dir := rfl
@[simp] theorem State.hostInterrupt_kept : (s.hostInterrupt k a b).kept = s.kept := rfl
@[simp] theorem State.hostInterrupt_leadMode : (s.hostInterrupt k a b).leadMode = s.leadMode := rfl
@[simp] theorem State.hostInterrupt_spills : (s.hostInterrupt k a b).spills = s.spills := rfl
@[simp] theorem State.hostInterrupt_halves : (s.hostInterrupt k a b).halves = s.halves := rfl
@[simp] theorem State.hostInterrupt_outputs : (s.hostInterrupt k a b).outputs = s.outputs := rfl
@[simp] theorem State.hostInterrupt_arrivals : (s.hostInterrupt k a b).arrivals = s.arrivals := rfl
@[simp] theorem State.hostInterrupt_side : (s.hostInterrupt k a b).side = s.side := rfl
@[simp] theorem State.hostInterrupt_sideSeq : (s.hostInterrupt k a b).sideSeq = s.sideSeq := rfl
@[simp] theorem State.hostInterrupt_replays : (s.hostInterrupt k a b).replays = s.replays := rfl
@[simp] theorem State.hostInterrupt_commands : (s.hostInterrupt k a b).commands = s.commands := rfl
@[simp] theorem State.hostInterrupt_copyRecs : (s.hostInterrupt k a b).copyRecs = s.copyRecs := rfl
@[simp] theorem State.hostInterrupt_engineWaits : (s.hostInterrupt k a b).engineWaits = s.engineWaits := rfl
@[simp] theorem State.hostInterrupt_matrix : (s.hostInterrupt k a b).matrix = s.matrix := rfl
@[simp] theorem State.hostInterrupt_mcommands : (s.hostInterrupt k a b).mcommands = s.mcommands := rfl
@[simp] theorem State.hostInterrupt_mturns : (s.hostInterrupt k a b).mturns = s.mturns := rfl
@[simp] theorem State.hostInterrupt_tlb : (s.hostInterrupt k a b).tlb = s.tlb := rfl
@[simp] theorem State.hostInterrupt_roots : (s.hostInterrupt k a b).roots = s.roots := rfl
@[simp] theorem State.hostInterrupt_pageFaults : (s.hostInterrupt k a b).pageFaults = s.pageFaults := rfl
@[simp] theorem State.hostInterrupt_tableNext : (s.hostInterrupt k a b).tableNext = s.tableNext := rfl
@[simp] theorem State.hostInterrupt_sendBuf : (s.hostInterrupt k a b).sendBuf = s.sendBuf := rfl
@[simp] theorem State.hostInterrupt_inbox : (s.hostInterrupt k a b).inbox = s.inbox := rfl
@[simp] theorem State.hostInterrupt_sets : (s.hostInterrupt k a b).sets = s.sets := rfl
@[simp] theorem State.hostInterrupt_dies : (s.hostInterrupt k a b).dies = s.dies := rfl
@[simp] theorem State.hostInterrupt_strap : (s.hostInterrupt k a b).strap = s.strap := rfl
@[simp] theorem State.hostInterrupt_up : (s.hostInterrupt k a b).up = s.up := rfl
@[simp] theorem State.hostInterrupt_seam : (s.hostInterrupt k a b).seam = s.seam := rfl
@[simp] theorem State.hostInterrupt_hostPort : (s.hostInterrupt k a b).hostPort = s.hostPort := rfl
@[simp] theorem State.hostInterrupt_clocks : (s.hostInterrupt k a b).clocks = s.clocks := rfl
@[simp] theorem State.hostInterrupt_coreFeatures : (s.hostInterrupt k a b).coreFeatures = s.coreFeatures := rfl
@[simp] theorem State.hostInterrupt_features : (s.hostInterrupt k a b).features = s.features := rfl
@[simp] theorem State.hostInterrupt_counters : (s.hostInterrupt k a b).counters = s.counters := rfl
@[simp] theorem State.hostInterrupt_killed : (s.hostInterrupt k a b).killed = s.killed := rfl
@[simp] theorem State.hostInterrupt_gridNum : (s.hostInterrupt k a b).gridNum = s.gridNum := rfl
@[simp] theorem State.hostInterrupt_handlers : (s.hostInterrupt k a b).handlers = s.handlers := rfl
@[simp] theorem State.hostInterrupt_latches : (s.hostInterrupt k a b).latches = s.latches := rfl
@[simp] theorem State.hostInterrupt_lossNotes : (s.hostInterrupt k a b).lossNotes = s.lossNotes := rfl
@[simp] theorem State.hostInterrupt_recvWaits : (s.hostInterrupt k a b).recvWaits = s.recvWaits := rfl
@[simp] theorem State.hostInterrupt_quiets : (s.hostInterrupt k a b).quiets = s.quiets := rfl
@[simp] theorem State.hostInterrupt_collGroups : (s.hostInterrupt k a b).collGroups = s.collGroups := rfl
@[simp] theorem State.hostInterrupt_colls : (s.hostInterrupt k a b).colls = s.colls := rfl
@[simp] theorem State.hostInterrupt_saved : (s.hostInterrupt k a b).saved = s.saved := rfl
@[simp] theorem State.hostInterrupt_queues : (s.hostInterrupt k a b).queues = s.queues := rfl
@[simp] theorem State.hostInterrupt_notices : (s.hostInterrupt k a b).notices = s.notices := rfl
@[simp] theorem State.hostInterrupt_noticesLost : (s.hostInterrupt k a b).noticesLost = s.noticesLost := rfl
@[simp] theorem State.hostInterrupt_hostAsks : (s.hostInterrupt k a b).hostAsks = s.hostAsks := rfl
@[simp] theorem State.hostInterrupt_allocs : (s.hostInterrupt k a b).allocs = s.allocs := rfl
@[simp] theorem State.hostInterrupt_hdm : (s.hostInterrupt k a b).hdm = s.hdm := rfl
@[simp] theorem State.hostInterrupt_powercap : (s.hostInterrupt k a b).powercap = s.powercap := rfl
@[simp] theorem State.hostInterrupt_ecc : (s.hostInterrupt k a b).ecc = s.ecc := rfl
@[simp] theorem State.hostInterrupt_rose : (s.hostInterrupt k a b).rose = s.rose := rfl
@[simp] theorem State.hostInterrupt_flash : (s.hostInterrupt k a b).flash = s.flash := rfl
@[simp] theorem State.hostInterrupt_firmware : (s.hostInterrupt k a b).firmware = s.firmware := rfl
@[simp] theorem State.hostInterrupt_rollback : (s.hostInterrupt k a b).rollback = s.rollback := rfl
@[simp] theorem State.hostInterrupt_slots : (s.hostInterrupt k a b).slots = s.slots := rfl
@[simp] theorem State.hostInterrupt_detailed : (s.hostInterrupt k a b).detailed = s.detailed := rfl
@[simp] theorem State.hostInterrupt_maxDepth : (s.hostInterrupt k a b).maxDepth = s.maxDepth := rfl
@[simp] theorem State.hostInterrupt_spillMax : (s.hostInterrupt k a b).spillMax = s.spillMax := rfl
@[simp] theorem State.hostInterrupt_hdmMax : (s.hostInterrupt k a b).hdmMax = s.hdmMax := rfl
@[simp] theorem State.hostInterrupt_ports : (s.hostInterrupt k a b).ports = s.ports := rfl
@[simp] theorem State.hostInterrupt_order : (s.hostInterrupt k a b).order = s.order := rfl
@[simp] theorem State.hostInterrupt_pod : (s.hostInterrupt k a b).pod = s.pod := rfl
@[simp] theorem State.hostInterrupt_coreSkew : (s.hostInterrupt k a b).coreSkew = s.coreSkew := rfl
@[simp] theorem State.hostInterrupt_code : (s.hostInterrupt k a b).code = s.code := rfl
@[simp] theorem State.hostInterrupt_l2 : (s.hostInterrupt k a b).l2 = s.l2 := rfl
@[simp] theorem State.hostInterrupt_hbmStamps : (s.hostInterrupt k a b).hbmStamps = s.hbmStamps := rfl
@[simp] theorem State.hostInterrupt_keys : (s.hostInterrupt k a b).keys = s.keys := rfl
@[simp] theorem State.hostInterrupt_lineKeys : (s.hostInterrupt k a b).lineKeys = s.lineKeys := rfl
@[simp] theorem State.hostInterrupt_snoops : (s.hostInterrupt k a b).snoops = s.snoops := rfl
@[simp] theorem State.hostInterrupt_seamBroken : (s.hostInterrupt k a b).seamBroken = s.seamBroken := rfl
@[simp] theorem State.hostInterrupt_lateAd : (s.hostInterrupt k a b).lateAd = s.lateAd := rfl
@[simp] theorem State.hostInterrupt_endNotices : (s.hostInterrupt k a b).endNotices = s.endNotices := rfl
@[simp] theorem State.hostInterrupt_denied : (s.hostInterrupt k a b).denied = s.denied := rfl
@[simp] theorem State.hostInterrupt_images : (s.hostInterrupt k a b).images = s.images := rfl
@[simp] theorem State.hostInterrupt_wakes : (s.hostInterrupt k a b).wakes = s.wakes := rfl

end HostInterrupt

section AddResult
variable (s : State) (k t r : Nat) (a : ResultAct)

@[simp] theorem State.addResult_agenda : (s.addResult k t r a).agenda = s.agenda := rfl
@[simp] theorem State.addResult_cur : (s.addResult k t r a).cur = s.cur := rfl
@[simp] theorem State.addResult_now : (s.addResult k t r a).now = s.now := rfl
@[simp] theorem State.addResult_fresh : (s.addResult k t r a).fresh = s.fresh := rfl
@[simp] theorem State.addResult_jobs : (s.addResult k t r a).jobs = s.jobs := rfl
@[simp] theorem State.addResult_grids : (s.addResult k t r a).grids = s.grids := rfl
@[simp] theorem State.addResult_clusters : (s.addResult k t r a).clusters = s.clusters := rfl
@[simp] theorem State.addResult_teams : (s.addResult k t r a).teams = s.teams := rfl
@[simp] theorem State.addResult_threads : (s.addResult k t r a).threads = s.threads := rfl
@[simp] theorem State.addResult_gangs : (s.addResult k t r a).gangs = s.gangs := rfl
@[simp] theorem State.addResult_folds : (s.addResult k t r a).folds = s.folds := rfl
@[simp] theorem State.addResult_overflow : (s.addResult k t r a).overflow = s.overflow := rfl
@[simp] theorem State.addResult_filing : (s.addResult k t r a).filing = s.filing := rfl
@[simp] theorem State.addResult_tickets : (s.addResult k t r a).tickets = s.tickets := rfl
@[simp] theorem State.addResult_accesses : (s.addResult k t r a).accesses = s.accesses := rfl
@[simp] theorem State.addResult_mem : (s.addResult k t r a).mem = s.mem := rfl
@[simp] theorem State.addResult_reqs : (s.addResult k t r a).reqs = s.reqs := rfl
@[simp] theorem State.addResult_ends : (s.addResult k t r a).ends = s.ends := rfl
@[simp] theorem State.addResult_owners : (s.addResult k t r a).owners = s.owners := rfl
@[simp] theorem State.addResult_busy : (s.addResult k t r a).busy = s.busy := rfl
@[simp] theorem State.addResult_dir : (s.addResult k t r a).dir = s.dir := rfl
@[simp] theorem State.addResult_kept : (s.addResult k t r a).kept = s.kept := rfl
@[simp] theorem State.addResult_leadMode : (s.addResult k t r a).leadMode = s.leadMode := rfl
@[simp] theorem State.addResult_spills : (s.addResult k t r a).spills = s.spills := rfl
@[simp] theorem State.addResult_halves : (s.addResult k t r a).halves = s.halves := rfl
@[simp] theorem State.addResult_outputs : (s.addResult k t r a).outputs = s.outputs := rfl
@[simp] theorem State.addResult_arrivals : (s.addResult k t r a).arrivals = s.arrivals := rfl
@[simp] theorem State.addResult_side : (s.addResult k t r a).side = s.side := rfl
@[simp] theorem State.addResult_sideSeq : (s.addResult k t r a).sideSeq = s.sideSeq := rfl
@[simp] theorem State.addResult_replays : (s.addResult k t r a).replays = s.replays := rfl
@[simp] theorem State.addResult_commands : (s.addResult k t r a).commands = s.commands := rfl
@[simp] theorem State.addResult_copyRecs : (s.addResult k t r a).copyRecs = s.copyRecs := rfl
@[simp] theorem State.addResult_engineWaits : (s.addResult k t r a).engineWaits = s.engineWaits := rfl
@[simp] theorem State.addResult_matrix : (s.addResult k t r a).matrix = s.matrix := rfl
@[simp] theorem State.addResult_mcommands : (s.addResult k t r a).mcommands = s.mcommands := rfl
@[simp] theorem State.addResult_mturns : (s.addResult k t r a).mturns = s.mturns := rfl
@[simp] theorem State.addResult_tlb : (s.addResult k t r a).tlb = s.tlb := rfl
@[simp] theorem State.addResult_roots : (s.addResult k t r a).roots = s.roots := rfl
@[simp] theorem State.addResult_pageFaults : (s.addResult k t r a).pageFaults = s.pageFaults := rfl
@[simp] theorem State.addResult_tableNext : (s.addResult k t r a).tableNext = s.tableNext := rfl
@[simp] theorem State.addResult_sendBuf : (s.addResult k t r a).sendBuf = s.sendBuf := rfl
@[simp] theorem State.addResult_inbox : (s.addResult k t r a).inbox = s.inbox := rfl
@[simp] theorem State.addResult_sets : (s.addResult k t r a).sets = s.sets := rfl
@[simp] theorem State.addResult_dies : (s.addResult k t r a).dies = s.dies := rfl
@[simp] theorem State.addResult_strap : (s.addResult k t r a).strap = s.strap := rfl
@[simp] theorem State.addResult_up : (s.addResult k t r a).up = s.up := rfl
@[simp] theorem State.addResult_seam : (s.addResult k t r a).seam = s.seam := rfl
@[simp] theorem State.addResult_hostPort : (s.addResult k t r a).hostPort = s.hostPort := rfl
@[simp] theorem State.addResult_clocks : (s.addResult k t r a).clocks = s.clocks := rfl
@[simp] theorem State.addResult_coreFeatures : (s.addResult k t r a).coreFeatures = s.coreFeatures := rfl
@[simp] theorem State.addResult_features : (s.addResult k t r a).features = s.features := rfl
@[simp] theorem State.addResult_counters : (s.addResult k t r a).counters = s.counters := rfl
@[simp] theorem State.addResult_events : (s.addResult k t r a).events = s.events := rfl
@[simp] theorem State.addResult_killed : (s.addResult k t r a).killed = s.killed := rfl
@[simp] theorem State.addResult_gridNum : (s.addResult k t r a).gridNum = s.gridNum := rfl
@[simp] theorem State.addResult_handlers : (s.addResult k t r a).handlers = s.handlers := rfl
@[simp] theorem State.addResult_latches : (s.addResult k t r a).latches = s.latches := rfl
@[simp] theorem State.addResult_lossNotes : (s.addResult k t r a).lossNotes = s.lossNotes := rfl
@[simp] theorem State.addResult_recvWaits : (s.addResult k t r a).recvWaits = s.recvWaits := rfl
@[simp] theorem State.addResult_quiets : (s.addResult k t r a).quiets = s.quiets := rfl
@[simp] theorem State.addResult_collGroups : (s.addResult k t r a).collGroups = s.collGroups := rfl
@[simp] theorem State.addResult_colls : (s.addResult k t r a).colls = s.colls := rfl
@[simp] theorem State.addResult_saved : (s.addResult k t r a).saved = s.saved := rfl
@[simp] theorem State.addResult_queues : (s.addResult k t r a).queues = s.queues := rfl
@[simp] theorem State.addResult_notices : (s.addResult k t r a).notices = s.notices := rfl
@[simp] theorem State.addResult_noticesLost : (s.addResult k t r a).noticesLost = s.noticesLost := rfl
@[simp] theorem State.addResult_hostAsks : (s.addResult k t r a).hostAsks = s.hostAsks := rfl
@[simp] theorem State.addResult_allocs : (s.addResult k t r a).allocs = s.allocs := rfl
@[simp] theorem State.addResult_hdm : (s.addResult k t r a).hdm = s.hdm := rfl
@[simp] theorem State.addResult_powercap : (s.addResult k t r a).powercap = s.powercap := rfl
@[simp] theorem State.addResult_ecc : (s.addResult k t r a).ecc = s.ecc := rfl
@[simp] theorem State.addResult_rose : (s.addResult k t r a).rose = s.rose := rfl
@[simp] theorem State.addResult_flash : (s.addResult k t r a).flash = s.flash := rfl
@[simp] theorem State.addResult_firmware : (s.addResult k t r a).firmware = s.firmware := rfl
@[simp] theorem State.addResult_rollback : (s.addResult k t r a).rollback = s.rollback := rfl
@[simp] theorem State.addResult_slots : (s.addResult k t r a).slots = s.slots := rfl
@[simp] theorem State.addResult_detailed : (s.addResult k t r a).detailed = s.detailed := rfl
@[simp] theorem State.addResult_maxDepth : (s.addResult k t r a).maxDepth = s.maxDepth := rfl
@[simp] theorem State.addResult_spillMax : (s.addResult k t r a).spillMax = s.spillMax := rfl
@[simp] theorem State.addResult_hdmMax : (s.addResult k t r a).hdmMax = s.hdmMax := rfl
@[simp] theorem State.addResult_ports : (s.addResult k t r a).ports = s.ports := rfl
@[simp] theorem State.addResult_order : (s.addResult k t r a).order = s.order := rfl
@[simp] theorem State.addResult_pod : (s.addResult k t r a).pod = s.pod := rfl
@[simp] theorem State.addResult_coreSkew : (s.addResult k t r a).coreSkew = s.coreSkew := rfl
@[simp] theorem State.addResult_code : (s.addResult k t r a).code = s.code := rfl
@[simp] theorem State.addResult_l2 : (s.addResult k t r a).l2 = s.l2 := rfl
@[simp] theorem State.addResult_hbmStamps : (s.addResult k t r a).hbmStamps = s.hbmStamps := rfl
@[simp] theorem State.addResult_keys : (s.addResult k t r a).keys = s.keys := rfl
@[simp] theorem State.addResult_lineKeys : (s.addResult k t r a).lineKeys = s.lineKeys := rfl
@[simp] theorem State.addResult_snoops : (s.addResult k t r a).snoops = s.snoops := rfl
@[simp] theorem State.addResult_seamBroken : (s.addResult k t r a).seamBroken = s.seamBroken := rfl
@[simp] theorem State.addResult_lateAd : (s.addResult k t r a).lateAd = s.lateAd := rfl
@[simp] theorem State.addResult_endNotices : (s.addResult k t r a).endNotices = s.endNotices := rfl
@[simp] theorem State.addResult_denied : (s.addResult k t r a).denied = s.denied := rfl
@[simp] theorem State.addResult_images : (s.addResult k t r a).images = s.images := rfl
@[simp] theorem State.addResult_wakes : (s.addResult k t r a).wakes = s.wakes := rfl

end AddResult

end Sys2Proof.Machine
end

