-- ==== Sys2Proof/Laws/Registers.lean ====
section
/-! SUPPORT. The laws of the register files: what a lookup gives after an update, that a register reads as it was last
written and every other one as before, and that writing registers changes nothing but register files. -/

namespace Sys2Proof.Machine

open Sys2Proof

/-! ### Lookups -/

/-- A lookup in a list whose elements are updated where `q` holds, by an `f` that keeps what the lookup tests. -/
theorem find?_map_upd {α : Type} (l : List α) (p q : α → Bool) (f : α → α) (hp : ∀ x, p (f x) = p x) :
    (l.map fun x => if q x then f x else x).find? p = (l.find? p).map fun x => if q x then f x else x := by
  induction l with
  | nil => rfl
  | cons x l ih =>
    have hx : p (if q x then f x else x) = p x := by split <;> simp [hp]
    rw [List.map_cons, List.find?_cons, List.find?_cons, hx]
    cases p x <;> simp [ih]

theorem State.thread_updThread (s : State) (t r t' r' : Nat) (f : Thread → Thread)
    (hf : ∀ x, (f x).team = x.team ∧ (f x).rank = x.rank) :
    (s.updThread t r f).thread t' r' =
      if t' = t ∧ r' = r ∧ (s.threads.any fun x => x.team == t && x.rank == r) = true then f (s.thread t r)
      else s.thread t' r' := by
  unfold State.thread State.updThread
  dsimp only
  rw [find?_map_upd _ _ _ _ (fun x => by simp [hf x])]
  cases h : s.threads.find? fun x => x.team == t' && x.rank == r' with
  | none =>
    rw [if_neg]
    · rfl
    · rintro ⟨rfl, rfl, ha⟩
      obtain ⟨x, hx, hx'⟩ := List.any_eq_true.1 ha
      exact absurd hx' (by simpa using (List.find?_eq_none.1 h) x hx)
  | some x =>
    have hx := List.find?_some h
    have hm := List.mem_of_find?_eq_some h
    simp only [Bool.and_eq_true, beq_iff_eq] at hx
    obtain ⟨rfl, rfl⟩ := hx
    by_cases hc : x.team = t ∧ x.rank = r
    · obtain ⟨h1, h2⟩ := hc
      subst h1; subst h2
      rw [if_pos ⟨rfl, rfl, List.any_eq_true.2 ⟨x, hm, by simp⟩⟩, h]
      simp
    · rw [if_neg (fun hh => hc ⟨hh.1, hh.2.1⟩)]
      have : (x.team == t && x.rank == r) = false := by
        simpa using hc
      rw [Option.map_some, this, if_neg Bool.false_ne_true]

theorem State.team_updThread (s : State) (t r id : Nat) (f : Thread → Thread) :
    (s.updThread t r f).team id = s.team id := rfl

theorem State.thread_updTeam (s : State) (id t r : Nat) (f : Team → Team) :
    (s.updTeam id f).thread t r = s.thread t r := rfl

theorem State.team_updTeam (s : State) (id id' : Nat) (f : Team → Team) (hf : ∀ x, (f x).id = x.id) :
    (s.updTeam id f).team id' = if id' = id ∧ s.listed id = true then f (s.team id) else s.team id' := by
  unfold State.team State.updTeam State.listed
  dsimp only
  rw [find?_map_upd _ _ _ _ (fun x => by simp [hf x])]
  cases h : s.teams.find? fun x => x.id == id' with
  | none =>
    rw [if_neg]
    · rfl
    · rintro ⟨rfl, ha⟩
      obtain ⟨x, hx, hx'⟩ := List.any_eq_true.1 ha
      exact absurd hx' (by simpa using (List.find?_eq_none.1 h) x hx)
  | some x =>
    have hx := List.find?_some h
    have hm := List.mem_of_find?_eq_some h
    simp only [beq_iff_eq] at hx
    subst hx
    by_cases hc : x.id = id
    · subst hc
      rw [if_pos ⟨rfl, List.any_eq_true.2 ⟨x, hm, by simp⟩⟩, h]
      simp
    · rw [if_neg (fun hh => hc hh.1)]
      have : (x.id == id) = false := by simpa using hc
      rw [Option.map_some, this, if_neg Bool.false_ne_true]

theorem State.thread_updRegs (s : State) (t r t' r' a : Nat) (v : Word) :
    (s.updThread t r fun x => { x with regs := x.regs.set a v }).thread t' r' =
      if t' = t ∧ r' = r ∧ (s.threads.any fun x => x.team == t && x.rank == r) = true then
        { s.thread t r with regs := (s.thread t r).regs.set a v }
      else s.thread t' r' :=
  s.thread_updThread t r t' r' (fun x => { x with regs := x.regs.set a v }) fun _ => ⟨rfl, rfl⟩

theorem State.team_updGregs (s : State) (id id' a : Nat) (v : Word) :
    (s.updTeam id fun x => { x with gregs := x.gregs.set a v }).team id' =
      if id' = id ∧ s.listed id = true then { s.team id with gregs := (s.team id).gregs.set a v } else s.team id' :=
  s.team_updTeam id id' (fun x => { x with gregs := x.gregs.set a v }) fun _ => rfl

/-! ### One register -/

theorem OnlyRegs.refl (s : State) : OnlyRegs s s := ⟨rfl, rfl, rfl⟩

theorem OnlyRegs.trans {s u v : State} (h : OnlyRegs s u) (h' : OnlyRegs u v) : OnlyRegs s v := by
  obtain ⟨h1, h2, h3⟩ := h
  obtain ⟨h4, h5, h6⟩ := h'
  refine ⟨?_, h5.trans h2, h6.trans h3⟩
  rw [h4, h1]

theorem map_blank {α : Type} (l : List α) (q : α → Bool) (f blank : α → α) (hf : ∀ x, blank (f x) = blank x) :
    (l.map fun x => if q x then f x else x).map blank = l.map blank := by
  rw [List.map_map]
  refine List.map_congr_left fun x _ => ?_
  simp only [Function.comp]
  split <;> simp [hf]

theorem State.setReg_only (s : State) (t r k i : Nat) (v : Word) : OnlyRegs s (s.setReg t r k i v) := by
  unfold State.setReg
  split
  · exact ⟨rfl, map_blank _ _ _ _ fun _ => rfl, rfl⟩
  · split
    · exact ⟨rfl, rfl, map_blank _ _ _ _ fun _ => rfl⟩
    · exact .refl s

theorem State.setRegs_only (s : State) (t r : Nat) (ws : List (Nat × Nat × Word)) : OnlyRegs s (s.setRegs t r ws) := by
  induction ws generalizing s with
  | nil => exact .refl s
  | cons w ws ih =>
    obtain ⟨k, i, v⟩ := w
    exact (s.setReg_only t r k i v).trans (ih _)

/-- What a lookup of a blanked list gives. -/
theorem find?_blank {α β : Type} (l m : List α) (p : α → Bool) (blank : α → α) (g : α → β)
    (h : m.map blank = l.map blank) (hp : ∀ x, p (blank x) = p x) (hg : ∀ x, g (blank x) = g x) :
    (m.find? p).map g = (l.find? p).map g := by
  have key : ∀ k : List α, (k.find? p).map g = ((k.map blank).find? p).map g := by
    intro k
    rw [List.find?_map]
    have : p ∘ blank = p := funext hp
    rw [this, Option.map_map]
    have : g ∘ blank = g := funext hg
    rw [this]
  rw [key m, key l, h]

theorem OnlyRegs.thread {α : Type} {s u : State} (h : OnlyRegs s u) (g : Thread → α)
    (hg : ∀ x : Thread, g { x with regs := [] } = g x) (t r : Nat) : g (u.thread t r) = g (s.thread t r) := by
  have := find?_blank s.threads u.threads (fun x => x.team == t && x.rank == r) (fun x => { x with regs := [] }) g
    h.2.1 (fun _ => rfl) hg
  unfold State.thread
  cases h1 : u.threads.find? fun x => x.team == t && x.rank == r <;>
    cases h2 : s.threads.find? fun x => x.team == t && x.rank == r <;>
    simp_all

theorem OnlyRegs.team {α : Type} {s u : State} (h : OnlyRegs s u) (g : Team → α)
    (hg : ∀ x : Team, g { x with gregs := [] } = g x) (id : Nat) : g (u.team id) = g (s.team id) := by
  have := find?_blank s.teams u.teams (fun x => x.id == id) (fun x => { x with gregs := [] }) g
    h.2.2 (fun _ => rfl) hg
  unfold State.team
  cases h1 : u.teams.find? fun x => x.id == id <;>
    cases h2 : s.teams.find? fun x => x.id == id <;>
    simp_all

theorem any_blank {α : Type} (l m : List α) (p : α → Bool) (blank : α → α) (h : m.map blank = l.map blank)
    (hp : ∀ x, p (blank x) = p x) : m.any p = l.any p := by
  have key : ∀ k : List α, k.any p = (k.map blank).any p := by
    intro k
    rw [List.any_map]
    congr 1
    exact (funext hp).symm
  rw [key m, key l, h]

theorem OnlyRegs.anyThread {s u : State} (h : OnlyRegs s u) (t r : Nat) :
    (u.threads.any fun x => x.team == t && x.rank == r) = s.threads.any fun x => x.team == t && x.rank == r :=
  any_blank _ _ _ _ h.2.1 fun _ => rfl

theorem OnlyRegs.listed {s u : State} (h : OnlyRegs s u) (id : Nat) : u.listed id = s.listed id :=
  any_blank _ _ _ _ h.2.2 fun _ => rfl

/-- A register reads as it was written; no other register changes. -/
theorem State.reg_setReg (s : State) (t r k i : Nat) (v : Word) (t' r' k' i' : Nat)
    (hi : i < 192 → i < (s.team t).alloc) (h' : Holds s t' r' k' i' ∨ i' = 255) :
    (s.setReg t r k i v).reg t' r' k' i' =
      if t' = t ∧ k' = k ∧ i' = i ∧ i < 255 ∧ (i < 192 → r' = r) then v else s.reg t' r' k' i' := by
  unfold State.setReg
  by_cases hv : i < 192
  · rw [if_pos hv]
    unfold State.reg
    by_cases hv' : i' < 192
    · rw [if_pos hv', if_pos hv', State.thread_updRegs, State.team_updThread]
      rcases h' with h' | h'
      · unfold Holds at h'
        rw [if_pos hv'] at h'
        obtain ⟨ha, hb, hl⟩ := h'
        by_cases hc : t' = t ∧ r' = r
        · obtain ⟨rfl, rfl⟩ := hc
          rw [if_pos ⟨rfl, rfl, ha⟩]
          dsimp only
          by_cases he : k' = k ∧ i' = i
          · obtain ⟨rfl, rfl⟩ := he
            rw [if_pos ⟨rfl, rfl, rfl, by omega, fun _ => rfl⟩]
            simp [List.getD_eq_getElem?_getD, hl]
          · have hne : k * (s.team t').alloc + i ≠ k' * (s.team t').alloc + i' := by
              intro hh
              apply he
              have h1 := hi hv
              have hk : (k * (s.team t').alloc + i) / (s.team t').alloc = k := by
                rw [Nat.mul_comm, Nat.mul_add_div (by omega), Nat.div_eq_of_lt h1, Nat.add_zero]
              have hk' : (k' * (s.team t').alloc + i') / (s.team t').alloc = k' := by
                rw [Nat.mul_comm, Nat.mul_add_div (by omega), Nat.div_eq_of_lt hb, Nat.add_zero]
              have hkk : k' = k := by rw [← hk, ← hk', hh]
              subst hkk
              exact ⟨rfl, by omega⟩
            rw [if_neg (fun hh => he ⟨hh.2.1, hh.2.2.1⟩)]
            simp [List.getD_eq_getElem?_getD, List.getElem?_set_ne hne]
        · rw [if_neg (fun hh => hc ⟨hh.1, hh.2.1⟩), if_neg (fun hh => hc ⟨hh.1, hh.2.2.2.2 hv⟩)]
      · omega
    · rw [if_neg hv', if_neg hv', State.team_updThread]
      have hne : ¬ (t' = t ∧ k' = k ∧ i' = i ∧ i < 255 ∧ (i < 192 → r' = r)) := fun h => hv' (h.2.2.1 ▸ hv)
      rw [if_neg hne]
  · rw [if_neg hv]
    by_cases hg : i < 255
    · rw [if_pos hg]
      unfold State.reg
      by_cases hv' : i' < 192
      · rw [if_pos hv', if_pos hv', State.thread_updTeam]
        have halloc : ((s.updTeam t fun x => { x with gregs := x.gregs.set (k * 63 + (i - 192)) v }).team t').alloc =
            (s.team t').alloc := by
          rw [State.team_updGregs]
          split
          · rename_i h; rw [h.1]
          · rfl
        have hne : ¬ (t' = t ∧ k' = k ∧ i' = i ∧ i < 255 ∧ (i < 192 → r' = r)) := fun h => hv (h.2.2.1 ▸ hv')
        rw [halloc, if_neg hne]
      · rw [if_neg hv', if_neg hv']
        rcases h' with h' | h'
        · unfold Holds at h'
          rw [if_neg hv'] at h'
          obtain ⟨h1, h2, h3⟩ := h'
          rw [if_pos h1, if_pos h1, State.team_updGregs]
          by_cases hc : t' = t
          · subst hc
            rw [if_pos ⟨rfl, h2⟩]
            dsimp only
            by_cases he : k' = k ∧ i' = i
            · obtain ⟨rfl, rfl⟩ := he
              rw [if_pos ⟨rfl, rfl, rfl, hg, fun h => absurd h hv⟩]
              simp [List.getD_eq_getElem?_getD, h3]
            · have hne : k * 63 + (i - 192) ≠ k' * 63 + (i' - 192) := by
                intro hh; apply he; omega
              rw [if_neg (fun hh => he ⟨hh.2.1, hh.2.2.1⟩)]
              simp [List.getD_eq_getElem?_getD, List.getElem?_set_ne hne]
          · rw [if_neg (fun hh => hc hh.1), if_neg (fun hh => hc hh.1)]
        · subst h'
          rw [if_neg (by omega), if_neg (by omega), if_neg (by omega)]
    · rw [if_neg hg, if_neg (fun hh => hg hh.2.2.2.1)]

/-- Which registers exist does not change when registers are written. -/
theorem Holds_setReg (s : State) (t r k i : Nat) (v : Word) (t' r' k' i' : Nat) (h : Holds s t' r' k' i') :
    Holds (s.setReg t r k i v) t' r' k' i' := by
  have ho := s.setReg_only t r k i v
  unfold Holds at h ⊢
  split
  · rename_i hv
    rw [if_pos hv] at h
    have ha : ((s.setReg t r k i v).team t').alloc = (s.team t').alloc := ho.team (·.alloc) (fun _ => rfl) t'
    rw [ho.anyThread, ha]
    refine ⟨h.1, h.2.1, ?_⟩
    have hl : ((s.setReg t r k i v).thread t' r').regs.length = (s.thread t' r').regs.length := by
      unfold State.setReg
      split
      · rw [State.thread_updRegs]
        split
        · rename_i hh; rw [hh.1, hh.2.1]; simp
        · rfl
      · split <;> rfl
    omega
  · rename_i hv
    rw [if_neg hv] at h
    refine ⟨h.1, ?_, ?_⟩
    · exact (ho.listed t').trans h.2.1
    · have hl : ((s.setReg t r k i v).team t').gregs.length = (s.team t').gregs.length := by
        unfold State.setReg
        split
        · rfl
        · split
          · rw [State.team_updGregs]
            split
            · rename_i hh; rw [hh.1]; simp
            · rfl
          · rfl
      omega

theorem Holds_setRegs (s : State) (t r : Nat) (ws : List (Nat × Nat × Word)) (t' r' k' i' : Nat)
    (h : Holds s t' r' k' i') : Holds (s.setRegs t r ws) t' r' k' i' := by
  induction ws generalizing s with
  | nil => exact h
  | cons w ws ih =>
    obtain ⟨k, i, v⟩ := w
    exact ih _ (Holds_setReg s t r k i v t' r' k' i' h)

/-- After a list of writes a register holds the last value that the list gives it, or what it held before. -/
theorem State.reg_setRegs (s : State) (t r : Nat) (ws : List (Nat × Nat × Word)) (t' r' k' i' : Nat)
    (hi : ∀ w ∈ ws, w.2.1 < 192 → w.2.1 < (s.team t).alloc) (h' : Holds s t' r' k' i' ∨ i' = 255) :
    (s.setRegs t r ws).reg t' r' k' i' =
      if t' = t ∧ i' < 255 ∧ (i' < 192 → r' = r) then
        ((ws.reverse.find? fun w => w.1 == k' && w.2.1 == i').map (·.2.2)).getD (s.reg t' r' k' i')
      else s.reg t' r' k' i' := by
  induction ws generalizing s with
  | nil => simp [State.setRegs]
  | cons w ws ih =>
    obtain ⟨k, i, v⟩ := w
    have ho := s.setReg_only t r k i v
    have ha : ((s.setReg t r k i v).team t).alloc = (s.team t).alloc := ho.team (·.alloc) (fun _ => rfl) t
    have hhd := hi (k, i, v) (List.mem_cons_self ..)
    rw [State.setRegs, ih (s.setReg t r k i v)
      (fun w hw hlt => by rw [ha]; exact hi w (List.mem_cons_of_mem _ hw) hlt)
      (h'.imp_left fun h => Holds_setReg s t r k i v t' r' k' i' h),
      State.reg_setReg s t r k i v t' r' k' i' hhd h']
    by_cases hc : t' = t ∧ i' < 255 ∧ (i' < 192 → r' = r)
    · rw [if_pos hc, if_pos hc, List.reverse_cons, List.find?_append]
      cases hf : ws.reverse.find? fun w => w.1 == k' && w.2.1 == i' with
      | some w => simp
      | none =>
        simp only [Option.map_none, Option.getD_none, Option.none_or]
        by_cases he : k = k' ∧ i = i'
        · obtain ⟨rfl, rfl⟩ := he
          rw [if_pos ⟨hc.1, rfl, rfl, hc.2.1, hc.2.2⟩]
          simp
        · rw [if_neg (fun hh => he ⟨hh.2.1.symm, hh.2.2.1.symm⟩)]
          have : (k == k' && i == i') = false := by simpa using he
          simp [this]
    · rw [if_neg hc, if_neg hc, if_neg]
      rintro ⟨h1, h2, h3, h4, h5⟩
      subst h3
      exact hc ⟨h1, h4, h5⟩

end Sys2Proof.Machine
end

