-- ==== Sys2Proof/Laws/Words.lean ====
section
/-! SUPPORT. What the shared word operations do: the checks before a word, the loop over threads, and the results of short,
predicate and long words. A statement about one instruction cites these and adds its value alone. -/

namespace Sys2Proof.Machine

open Sys2Proof

/-! ### The word and its checks -/

theorem runWord_runs {i : Instr} {s : State} {c : Ctx} (h : Runs i s c) (body : Ctx → WordOut) :
    runWord i s body = finish c (body c) := by
  obtain ⟨⟨-, h1⟩, h2⟩ := h
  rw [runWord, h1]
  simp only [h2]

theorem runWord_trap {i : Instr} {s : State} {c : Ctx} {cause : Cause} (h : Issues i s c) (ht : wordTrap i c = some cause)
    (body : Ctx → WordOut) : runWord i s body = finish c (.trap s [] cause 0 0) := by
  rw [runWord, h.2]
  simp only [ht]

/-- What a context is made of. -/
theorem ctxOf_some {i : Instr} {s : State} {c : Ctx} (h : ctxOf i s = some c) :
    c.s = s ∧ s.cur.bind s.gang? = some c.gang ∧ c.gid = c.gang.id ∧ c.tm = s.team c.gang.team := by
  unfold ctxOf at h
  cases hg : s.cur.bind s.gang? with
  | none => simp [hg] at h
  | some g =>
    simp only [hg, Option.map_some, Option.some.injEq] at h
    subst h
    exact ⟨rfl, rfl, rfl, rfl⟩

theorem Issues.gang_mem {i : Instr} {s : State} {c : Ctx} (h : Issues i s c) : c.gang ∈ s.gangs := by
  obtain ⟨-, h1, -, -⟩ := ctxOf_some h.2
  cases hc : s.cur with
  | none => simp [hc] at h1
  | some k =>
    rw [hc] at h1
    exact List.mem_of_find?_eq_some h1

theorem Issues.listed {i : Instr} {s : State} {c : Ctx} (h : Issues i s c) : s.listed c.gang.team = true :=
  h.1.2.1 _ h.gang_mem

theorem State.team_of_listed {s : State} {id : Nat} (h : s.listed id = true) : (s.team id).id = id := by
  unfold State.listed at h
  unfold State.team
  cases hf : s.teams.find? fun t => t.id == id with
  | none =>
    obtain ⟨x, hx, hx'⟩ := List.any_eq_true.1 h
    exact absurd hx' (by simpa using (List.find?_eq_none.1 hf) x hx)
  | some x => simpa using List.find?_some hf

theorem Issues.team_id {i : Instr} {s : State} {c : Ctx} (h : Issues i s c) : c.tm.id = c.gang.team := by
  rw [(ctxOf_some h.2).2.2.2]
  exact State.team_of_listed h.listed

/-- The team that a word sees is the one its number finds. -/
theorem Issues.team {i : Instr} {s : State} {c : Ctx} (h : Issues i s c) : s.team c.tm.id = c.tm := by
  rw [h.team_id, ← (ctxOf_some h.2).2.2.2]

/-! ### Reads, writes and counts touch different things -/

/-- Write one result of a word. -/
def writeOne (c : Ctx) (d n : Nat) (s : State) (r : Nat) (o : AluOut) : State :=
  if 192 ≤ d && d < 255 && r ≠ c.lead then s
  else s.setRegs c.tm.id r (valueWrites c.tm.depth d n o.val fun k => o.tans.getD (k - 1) 0)

theorem setReg_inbox (s : State) (m : List Queued) (z : List CounterSet) (t r k i : Nat) (v : Word) :
    ({ s with inbox := m, sets := z } : State).setReg t r k i v = { s.setReg t r k i v with inbox := m, sets := z } := by
  unfold State.setReg
  split
  · rfl
  · split <;> rfl

theorem setRegs_inbox (s : State) (m : List Queued) (z : List CounterSet) (t r : Nat) (ws : List (Nat × Nat × Word)) :
    ({ s with inbox := m, sets := z } : State).setRegs t r ws = { s.setRegs t r ws with inbox := m, sets := z } := by
  induction ws generalizing s with
  | nil => rfl
  | cons w ws ih =>
    obtain ⟨k, i, v⟩ := w
    rw [State.setRegs, setReg_inbox, ih]
    rfl

theorem writeOne_inbox (c : Ctx) (d n : Nat) (s : State) (r : Nat) (o : AluOut) (m : List Queued) (z : List CounterSet) :
    writeOne c d n { s with inbox := m, sets := z } r o = { writeOne c d n s r o with inbox := m, sets := z } := by
  unfold writeOne
  split
  · rfl
  · exact setRegs_inbox ..

theorem writeOne_only (c : Ctx) (d n : Nat) (s : State) (r : Nat) (o : AluOut) : OnlyRegs s (writeOne c d n s r o) := by
  unfold writeOne
  split
  · exact .refl s
  · exact State.setRegs_only ..

theorem OnlyRegs.inbox {s u : State} (h : OnlyRegs s u) : u.inbox = s.inbox := by rw [h.1]
theorem OnlyRegs.sets {s u : State} (h : OnlyRegs s u) : u.sets = s.sets := by rw [h.1]

/-- What a count leaves of the counter sets. -/
def countSets (z : List CounterSet) (port job : Nat) (f : CounterSet → CounterSet) : List CounterSet :=
  if z.any (fun c => c.port == port && c.job == job) then
    z.map fun c => if c.port == port && c.job == job then { f c with chg := true } else c
  else z ++ [{ (f { port, job }) with chg := true }]

theorem State.count_eq (s : State) (port job : Nat) (f : CounterSet → CounterSet) :
    s.count port job f = { s with sets := countSets s.sets port job f } := by
  unfold State.count countSets
  split <;> rfl

/-- What reading one source takes out of the queues. -/
def readInbox (c : Ctx) (m : List Queued) (z : List CounterSet) (f : Nat) : List Queued × List CounterSet :=
  if f < 512 then (m, z)
  else if f / 256 % 2 = 1 then
    (m.eraseP fun x => !x.handler && x.team == c.tm.id && x.queue == f % 256,
      countSets z c.tm.quad c.tm.job fun k => { k with mc := addCount k.mc 1 })
  else (m, z)

/-- The value that one source gives. -/
def readValue (c : Ctx) (m : List Queued) (rank f n : Nat) : Nat :=
  if f < 512 then c.val rank f n
  else match ((m.filter fun x => !x.handler && x.team == c.tm.id && x.queue == f % 256).map (·.msg)) with
    | x :: _ => (x.elems.headD 0).toNat % 2 ^ (32 * n)
    | [] => 0

theorem readSrc_eq (c : Ctx) (s : State) (rank f n : Nat) :
    readSrc c s rank f n = (readValue c s.inbox rank f n,
      { s with inbox := (readInbox c s.inbox s.sets f).1, sets := (readInbox c s.inbox s.sets f).2 }) := by
  unfold readSrc readValue readInbox
  by_cases h : f < 512
  · simp [h]
  · simp only [h, if_false]
    by_cases h2 : f / 256 % 2 = 1
    · simp only [h2, if_true]
      rw [State.count_eq]
      rfl
    · simp only [h2, if_false]
      rfl

/-- The sources of one thread read from queues. -/
def readQueues (c : Ctx) (rank : Nat) : List Queued → List CounterSet → List (Nat × Nat) →
    List Nat × List Queued × List CounterSet
  | m, z, [] => ([], m, z)
  | m, z, (f, n) :: fs =>
    let q := readInbox c m z f
    let more := readQueues c rank q.1 q.2 fs
    (readValue c m rank f n :: more.1, more.2)

theorem readSrcs_eq (c : Ctx) (rank : Nat) (s : State) (srcs : List (Nat × Nat)) :
    readSrcs c rank s srcs = ((readQueues c rank s.inbox s.sets srcs).1,
      { s with inbox := (readQueues c rank s.inbox s.sets srcs).2.1,
               sets := (readQueues c rank s.inbox s.sets srcs).2.2 }) := by
  induction srcs generalizing s with
  | nil => rfl
  | cons p fs ih =>
    obtain ⟨f, n⟩ := p
    rw [readSrcs, readSrc_eq]
    dsimp only
    rw [ih]
    rfl

/-- The sources of the Active threads read from queues. -/
def gatherQueues (c : Ctx) (srcs : List (Nat × Nat)) : List Queued → List CounterSet → List Nat →
    List (List Nat) × List Queued × List CounterSet
  | m, z, [] => ([], m, z)
  | m, z, r :: rs =>
    let one := readQueues c r m z srcs
    let more := gatherQueues c srcs one.2.1 one.2.2 rs
    (one.1 :: more.1, more.2)

theorem gatherSrcs_eq (c : Ctx) (srcs : List (Nat × Nat)) (s : State) (rs : List Nat) :
    gatherSrcs c srcs s rs = ((gatherQueues c srcs s.inbox s.sets rs).1,
      { s with inbox := (gatherQueues c srcs s.inbox s.sets rs).2.1,
               sets := (gatherQueues c srcs s.inbox s.sets rs).2.2 }) := by
  induction rs generalizing s with
  | nil => rfl
  | cons r rs ih =>
    rw [gatherSrcs, readSrcs_eq]
    dsimp only
    rw [ih]
    rfl

theorem gatherSrcs_length (c : Ctx) (srcs : List (Nat × Nat)) (s : State) (rs : List Nat) :
    (gatherSrcs c srcs s rs).1.length = rs.length := by
  induction rs generalizing s with
  | nil => rfl
  | cons r rs ih => simp [gatherSrcs, ih]

/-! Events -/

theorem State.countEvent_inbox (s : State) (m : List Queued) (z : List CounterSet) (gid : Nat) (t : Team) (cls : Nat) :
    ({ s with inbox := m, sets := z } : State).countEvent gid t cls = { s.countEvent gid t cls with inbox := m, sets := z } := by
  rfl

theorem foldl_commutes {α β : Type} (f : α → β → α) (g : α → α) (h : ∀ a b, f (g a) b = g (f a b)) (a : α) (l : List β) :
    l.foldl f (g a) = g (l.foldl f a) := by
  induction l generalizing a with
  | nil => rfl
  | cons b l ih => rw [List.foldl_cons, h, ih, List.foldl_cons]

theorem State.countEvents_inbox (s : State) (m : List Queued) (z : List CounterSet) (gid : Nat) (t : Team) (ev : Nat) :
    ({ s with inbox := m, sets := z } : State).countEvents gid t ev = { s.countEvents gid t ev with inbox := m, sets := z } := by
  unfold State.countEvents
  refine foldl_commutes (fun (s : State) k => if ev.testBit k then s.countEvent gid t k else s)
    (fun s => ({ s with inbox := m, sets := z } : State)) ?_ s _
  intro a b
  split
  · exact State.countEvent_inbox ..
  · rfl

/-- The event registers of a team after one event, and what else it does. -/
theorem State.countEvent_queues (s : State) (gid : Nat) (t : Team) (cls : Nat) :
    (s.countEvent gid t cls).inbox = s.inbox ∧ (s.countEvent gid t cls).sets = s.sets := by
  exact ⟨rfl, rfl⟩

theorem State.countEvents_queues (s : State) (gid : Nat) (t : Team) (ev : Nat) :
    (s.countEvents gid t ev).inbox = s.inbox ∧ (s.countEvents gid t ev).sets = s.sets := by
  unfold State.countEvents
  generalize List.range 5 = l
  induction l generalizing s with
  | nil => exact ⟨rfl, rfl⟩
  | cons k l ih =>
    rw [List.foldl_cons]
    obtain ⟨h1, h2⟩ := ih (if ev.testBit k then s.countEvent gid t k else s)
    rw [h1, h2]
    split
    · exact State.countEvent_queues ..
    · exact ⟨rfl, rfl⟩

theorem team_lookup_gregs (l : List Team) (a b : Nat) (h : List Word → List Word) :
    (((l.map fun t => if t.id == a then { t with gregs := h t.gregs } else t).find? fun t => t.id == b).getD {}).events =
      ((l.find? fun t => t.id == b).getD {}).events := by
  rw [find?_map_upd l (fun t => t.id == b) (fun t => t.id == a) (fun t => { t with gregs := h t.gregs }) fun _ => rfl]
  cases l.find? fun t => t.id == b with
  | none => rfl
  | some t =>
    simp only [Option.map_some, Option.getD_some]
    split <;> rfl

theorem map_gregs_events (l : List Team) (a b : Nat) (h : List Word → List Word) (g : List DWord → List DWord)
    (w : Nat → List Nat → List Nat) :
    ((l.map fun t => if t.id == a then { t with gregs := h t.gregs } else t).map fun t =>
        if t.id == b then { t with events := g t.events, winAt := w t.quad t.winAt } else t) =
      ((l.map fun t => if t.id == b then { t with events := g t.events, winAt := w t.quad t.winAt } else t).map fun t =>
        if t.id == a then { t with gregs := h t.gregs } else t) := by
  rw [List.map_map, List.map_map]
  refine List.map_congr_left fun t _ => ?_
  simp only [Function.comp]
  by_cases h1 : t.id = a <;> by_cases h2 : t.id = b <;> simp [h1, h2] <;> split <;> simp_all

theorem team_lookup_alloc (l : List Team) (a b : Nat) (h : List DWord → List DWord) (w : Nat → List Nat → List Nat) :
    (((l.map fun t => if t.id == a then { t with events := h t.events, winAt := w t.quad t.winAt } else t).find?
        fun t => t.id == b).getD {}).alloc = ((l.find? fun t => t.id == b).getD {}).alloc := by
  rw [find?_map_upd l (fun t => t.id == b) (fun t => t.id == a)
    (fun t => { t with events := h t.events, winAt := w t.quad t.winAt }) fun _ => rfl]
  cases l.find? fun t => t.id == b with
  | none => rfl
  | some t =>
    simp only [Option.map_some, Option.getD_some]
    split <;> rfl

/-- An event register's value is read from four fields of its team's record. -/
theorem State.eventNow_congr (s : State) (t u : Team) (cls : Nat) (h : t.events = u.events ∧ t.winAt = u.winAt ∧ t.quad = u.quad) :
    s.eventNow t cls = s.eventNow u cls := by
  obtain ⟨h1, h2, h3⟩ := h
  unfold State.eventNow State.windowClock
  rw [h1, h2, h3]

theorem team_lookup_gregs' (l : List Team) (a b : Nat) (g : List Word → List Word) :
    let u := (l.map fun t => if t.id == a then { t with gregs := g t.gregs } else t).find? fun t => t.id == b
    let v := l.find? fun t => t.id == b
    (u.getD {}).events = (v.getD {}).events ∧ (u.getD {}).winAt = (v.getD {}).winAt ∧ (u.getD {}).quad = (v.getD {}).quad := by
  intro u v
  have hu : u = v.map fun t => if t.id == a then { t with gregs := g t.gregs } else t :=
    find?_map_upd l (fun t => t.id == b) (fun t => t.id == a) (fun t => { t with gregs := g t.gregs }) fun _ => rfl
  rw [hu]
  cases v with
  | none => exact ⟨rfl, rfl, rfl⟩
  | some t =>
    simp only [Option.map_some, Option.getD_some]
    split <;> exact ⟨rfl, rfl, rfl⟩

theorem State.countEvent_setReg (s : State) (gid : Nat) (tm : Team) (cls t r k i : Nat) (v : Word) :
    (s.setReg t r k i v).countEvent gid tm cls = (s.countEvent gid tm cls).setReg t r k i v := by
  unfold State.setReg
  split
  · have halloc : ((s.countEvent gid tm cls).team t).alloc = (s.team t).alloc :=
      team_lookup_alloc s.teams tm.id t (fun e => e.set cls _) fun q w => w.set cls (s.coreCount (4 * q))
    rw [halloc]
    rfl
  · split
    · have hev : (s.updTeam t fun x => { x with gregs := x.gregs.set (k * 63 + (i - 192)) v }).eventNow
            ((s.updTeam t fun x => { x with gregs := x.gregs.set (k * 63 + (i - 192)) v }).team tm.id) cls =
          s.eventNow (s.team tm.id) cls :=
        s.eventNow_congr _ _ cls (team_lookup_gregs' s.teams t tm.id fun g => g.set (k * 63 + (i - 192)) v)
      have hm := map_gregs_events s.teams t tm.id (fun g => g.set (k * 63 + (i - 192)) v)
        (fun e => e.set cls (eventNext (s.eventNow (s.team tm.id) cls).toNat)) fun q w => w.set cls (s.coreCount (4 * q))
      rw [State.countEvent, hev]
      unfold State.updTeam
      dsimp only
      refine Eq.trans ?_ (congrArg (fun ts => ({ s with
        teams := ts,
        gangs := _,
        events := _ } : State)) hm)
      rfl
    · rfl

theorem State.countEvent_setRegs (s : State) (gid : Nat) (tm : Team) (cls t r : Nat) (ws : List (Nat × Nat × Word)) :
    (s.setRegs t r ws).countEvent gid tm cls = (s.countEvent gid tm cls).setRegs t r ws := by
  induction ws generalizing s with
  | nil => rfl
  | cons w ws ih =>
    obtain ⟨k, i, v⟩ := w
    rw [State.setRegs, ih, State.countEvent_setReg]
    rfl

theorem writeOne_countEvents (c : Ctx) (d n : Nat) (s : State) (r : Nat) (o : AluOut) (gid : Nat) (t : Team) (ev : Nat) :
    writeOne c d n (s.countEvents gid t ev) r o = (writeOne c d n s r o).countEvents gid t ev := by
  unfold State.countEvents
  symm
  refine foldl_commutes (fun (s : State) k => if ev.testBit k then s.countEvent gid t k else s)
    (fun s => writeOne c d n s r o) ?_ s _
  intro a b
  split
  · unfold writeOne
    split
    · rfl
    · exact State.countEvent_setRegs ..
  · rfl

/-! ### The value that a result leaves in a register -/

theorem mem_valueWrites (depth d n v : Nat) (tan : Nat → Nat) (w : Nat × Nat × Word) :
    w ∈ valueWrites depth d n v tan ↔
      d ≠ 255 ∧ ∃ k ≤ depth, ∃ j < n, w = (k, d + j, valueWord (if k = 0 then v else tan k) j) := by
  unfold valueWrites valueWord
  by_cases h : d = 255
  · simp [h]
  · rw [if_neg h]
    simp only [List.mem_flatMap, List.mem_map, List.mem_range, Nat.lt_succ_iff, ne_eq, h, not_false_eq_true, true_and]
    constructor
    · rintro ⟨k, hk, j, hj, rfl⟩; exact ⟨k, hk, j, hj, rfl⟩
    · rintro ⟨k, hk, j, hj, rfl⟩; exact ⟨k, hk, j, hj, rfl⟩

theorem find_valueWrites (depth d n v : Nat) (tan : Nat → Nat) (k i : Nat) :
    (((valueWrites depth d n v tan).reverse.find? fun w => w.1 == k && w.2.1 == i).map (·.2.2)) =
      if d ≠ 255 ∧ k ≤ depth ∧ d ≤ i ∧ i < d + n then some (valueWord (if k = 0 then v else tan k) (i - d)) else none := by
  by_cases h : d ≠ 255 ∧ k ≤ depth ∧ d ≤ i ∧ i < d + n
  · rw [if_pos h]
    obtain ⟨h1, h2, h3, h4⟩ := h
    cases hf : (valueWrites depth d n v tan).reverse.find? fun w => w.1 == k && w.2.1 == i with
    | none =>
      have hm : (k, d + (i - d), valueWord (if k = 0 then v else tan k) (i - d)) ∈ (valueWrites depth d n v tan).reverse :=
        List.mem_reverse.2 ((mem_valueWrites ..).2 ⟨h1, k, h2, i - d, by omega, rfl⟩)
      have := List.find?_eq_none.1 hf _ hm
      simp [show d + (i - d) = i from by omega] at this
    | some w =>
      have hm := List.mem_reverse.1 (List.mem_of_find?_eq_some hf)
      have hp := List.find?_some hf
      obtain ⟨-, k', hk', j, hj, rfl⟩ := (mem_valueWrites ..).1 hm
      simp only [Bool.and_eq_true, beq_iff_eq] at hp
      obtain ⟨rfl, rfl⟩ := hp
      simp
  · rw [if_neg h, Option.map_eq_none_iff, List.find?_eq_none]
    intro w hw
    obtain ⟨h1, k', hk', j, hj, rfl⟩ := (mem_valueWrites ..).1 (List.mem_reverse.1 hw)
    simp only [Bool.and_eq_true, beq_iff_eq, not_and]
    rintro rfl rfl
    exact h ⟨h1, hk', by omega, by omega⟩

/-- D's registers lie in one file, and v registers inside the allocation. -/
def Fits (c : Ctx) (d n : Nat) : Prop := d = 255 ∨ (d + n ≤ 192 ∧ d + n ≤ c.tm.alloc) ∨ (192 ≤ d ∧ d + n ≤ 255)

/-- Whether thread `r`'s result is what register `i` of thread `rank` takes. -/
def takes (c : Ctx) (d : Nat) (rank r : Nat) : Bool := if d < 192 then r == rank else r == c.lead

theorem reg_writeOne (c : Ctx) (d n : Nat) (s : State) (r : Nat) (o : AluOut) (hteam : (s.team c.tm.id).alloc = c.tm.alloc)
    (hfit : Fits c d n) (t' r' k' i' : Nat) (h' : Holds s t' r' k' i' ∨ i' = 255) :
    (writeOne c d n s r o).reg t' r' k' i' =
      if t' = c.tm.id ∧ d < 255 ∧ k' ≤ c.tm.depth ∧ d ≤ i' ∧ i' < d + n ∧ takes c d r' r = true then
        valueWord (if k' = 0 then o.val else o.tans.getD (k' - 1) 0) (i' - d)
      else s.reg t' r' k' i' := by
  unfold writeOne takes
  by_cases hg : (192 ≤ d && d < 255 && r ≠ c.lead) = true
  · rw [if_pos hg, if_neg]
    simp only [Bool.and_eq_true, decide_eq_true_eq] at hg
    rintro ⟨-, -, -, -, -, ht⟩
    rw [if_neg (by omega)] at ht
    exact hg.2 (by simpa using ht)
  · rw [if_neg hg, State.reg_setRegs, find_valueWrites]
    · by_cases hc : t' = c.tm.id ∧ d < 255 ∧ k' ≤ c.tm.depth ∧ d ≤ i' ∧ i' < d + n ∧
          (if d < 192 then r == r' else r == c.lead) = true
      · obtain ⟨h1, h2, h3, h4, h5, h6⟩ := hc
        have hA : t' = c.tm.id ∧ i' < 255 ∧ (i' < 192 → r' = r) := by
          refine ⟨h1, ?_, fun hlt => ?_⟩
          · rcases hfit with hfit | hfit | hfit <;> omega
          · rcases hfit with hfit | hfit | hfit
            · omega
            · rw [if_pos (by omega)] at h6
              exact (by simpa using h6 : r = r').symm
            · omega
        have hC : d ≠ 255 ∧ k' ≤ c.tm.depth ∧ d ≤ i' ∧ i' < d + n := ⟨by omega, h3, h4, h5⟩
        have hD : t' = c.tm.id ∧ d < 255 ∧ k' ≤ c.tm.depth ∧ d ≤ i' ∧ i' < d + n ∧
          (if d < 192 then r == r' else r == c.lead) = true := ⟨h1, h2, h3, h4, h5, h6⟩
        rw [if_pos hA, if_pos hC, if_pos hD]
        rfl
      · rw [if_neg hc]
        split
        · rename_i hh
          obtain ⟨h1, h2, h3⟩ := hh
          have hB : ¬ (d ≠ 255 ∧ k' ≤ c.tm.depth ∧ d ≤ i' ∧ i' < d + n) := by
            rintro ⟨h4, h5, h6, h7⟩
            apply hc
            refine ⟨h1, by omega, h5, h6, h7, ?_⟩
            split
            · simpa using (h3 (by rcases hfit with hfit | hfit | hfit <;> omega)).symm
            · simp only [Bool.and_eq_true, decide_eq_true_eq, not_and, ne_eq, Decidable.not_not] at hg
              simpa using hg ⟨by omega, by omega⟩
          rw [if_neg hB]
          rfl
        · rfl
    · intro w hw hlt
      obtain ⟨h1, k, hk, j, hj, rfl⟩ := (mem_valueWrites ..).1 hw
      rw [hteam]
      simp only at hlt ⊢
      rcases hfit with hfit | hfit | hfit <;> omega
    · exact h'

/-- Write the results of several threads. -/
def writeAll (c : Ctx) (d n : Nat) (s : State) (l : List (Nat × AluOut)) : State :=
  l.foldl (fun s q => writeOne c d n s q.1 q.2) s

theorem writeAll_only (c : Ctx) (d n : Nat) (s : State) (l : List (Nat × AluOut)) : OnlyRegs s (writeAll c d n s l) := by
  induction l generalizing s with
  | nil => exact .refl s
  | cons q l ih => exact (writeOne_only ..).trans (ih _)

theorem Holds_writeOne (c : Ctx) (d n : Nat) (s : State) (r : Nat) (o : AluOut) (t' r' k' i' : Nat)
    (h : Holds s t' r' k' i') : Holds (writeOne c d n s r o) t' r' k' i' := by
  unfold writeOne
  split
  · exact h
  · exact Holds_setRegs _ _ _ _ _ _ _ _ h

theorem reg_writeAll (c : Ctx) (d n : Nat) (s : State) (l : List (Nat × AluOut))
    (hteam : (s.team c.tm.id).alloc = c.tm.alloc) (hfit : Fits c d n) (t' r' k' i' : Nat)
    (h' : Holds s t' r' k' i' ∨ i' = 255) :
    (writeAll c d n s l).reg t' r' k' i' =
      if t' = c.tm.id ∧ d < 255 ∧ k' ≤ c.tm.depth ∧ d ≤ i' ∧ i' < d + n then
        match l.reverse.find? fun q => takes c d r' q.1 with
        | some q => valueWord (if k' = 0 then q.2.val else q.2.tans.getD (k' - 1) 0) (i' - d)
        | none => s.reg t' r' k' i'
      else s.reg t' r' k' i' := by
  induction l generalizing s with
  | nil => simp [writeAll]
  | cons q l ih =>
    have hteam' : ((writeOne c d n s q.1 q.2).team c.tm.id).alloc = c.tm.alloc := by
      rw [(writeOne_only c d n s q.1 q.2).team (·.alloc) (fun _ => rfl), hteam]
    have hstep : writeAll c d n s (q :: l) = writeAll c d n (writeOne c d n s q.1 q.2) l := rfl
    rw [hstep, ih _ hteam' (h'.imp_left (Holds_writeOne c d n s q.1 q.2 t' r' k' i')), reg_writeOne c d n s q.1 q.2 hteam hfit
      t' r' k' i' h']
    by_cases hc : t' = c.tm.id ∧ d < 255 ∧ k' ≤ c.tm.depth ∧ d ≤ i' ∧ i' < d + n
    · rw [if_pos hc, if_pos hc, List.reverse_cons, List.find?_append]
      cases hf : l.reverse.find? fun q => takes c d r' q.1 with
      | some q' => simp
      | none =>
        simp only [Option.none_or, List.find?_cons, List.find?_nil]
        by_cases ht : takes c d r' q.1 = true
        · rw [if_pos ⟨hc.1, hc.2.1, hc.2.2.1, hc.2.2.2.1, hc.2.2.2.2, ht⟩]
          simp [ht]
        · rw [if_neg (fun hh => ht hh.2.2.2.2.2)]
          simp [ht]
    · rw [if_neg hc, if_neg hc, if_neg (fun hh => hc ⟨hh.1, hh.2.1, hh.2.2.1, hh.2.2.2.1, hh.2.2.2.2.1⟩)]

theorem writeAll_takes (c : Ctx) (d n : Nat) (s : State) (os : List AluOut)
    (hteam : (s.team c.tm.id).alloc = c.tm.alloc) (hfit : Fits c d n) :
    RegistersTake c s (writeAll c d n s (c.act.zip os)) d n os := by
  refine ⟨writeAll_only .., ?_, ?_⟩
  · intro hd r hr o ho k hk j hj hh
    rw [reg_writeAll c d n s _ hteam hfit _ _ _ _ (.inl hh), if_pos ⟨rfl, hd, hk, by omega, by omega⟩]
    have : (c.act.zip os).reverse.find? (fun q => takes c d r q.1) = (c.act.zip os).reverse.find? fun q => q.1 == r := by
      congr 1
      funext q
      unfold takes
      split
      · rfl
      · rcases hr with hr | hr
        · contradiction
        · rw [hr]
    rw [this]
    unfold resultFor at ho
    cases hf : (c.act.zip os).reverse.find? fun q => q.1 == r with
    | none => rw [hf] at ho; simp at ho
    | some q =>
      rw [hf] at ho
      simp only [Option.map_some, Option.some.injEq] at ho
      subst ho
      simp
  · intro team rank k i hh hne
    rw [reg_writeAll c d n s _ hteam hfit _ _ _ _ hh]
    split
    · rename_i hc
      cases hf : (c.act.zip os).reverse.find? fun q => takes c d rank q.1 with
      | none => rfl
      | some q =>
        exfalso
        apply hne
        refine ⟨hc.1, hc.2.2.2.1, hc.2.2.2.2, hc.2.1, hc.2.2.1, fun hd => ?_⟩
        have h1 := List.find?_some hf
        have h2 := List.mem_reverse.1 (List.mem_of_find?_eq_some hf)
        unfold takes at h1
        rw [if_pos hd] at h1
        have : q.1 = rank := by simpa using h1
        rw [← this]
        exact (List.of_mem_zip h2).1
    · rfl

/-! ### What the checks leave of a destination -/

/-- The fields of a word that runs pass both parts of their check. -/
theorem Runs.field {i : Instr} {s : State} {c : Ctx} (hr : Runs i s c) {o : Opnd} (hm : o ∈ i.opnds) :
    o.ok = true ∧ o.allocated c.tm.alloc c.tm.depth c.g = true := by
  have hw := hr.2
  unfold wordTrap at hw
  split at hw
  · simp at hw
  · split at hw
    · simp at hw
    · rename_i h2
      simp only [Bool.or_eq_true, not_or, Bool.not_eq_true', Bool.not_eq_false] at h2
      exact ⟨List.all_eq_true.1 h2.1 _ hm, List.all_eq_true.1 h2.2 _ hm⟩

theorem fits_of_regOk {c : Ctx} {d n : Nat} (hn : n = 1 ∨ n = 2 ∨ n = 4 ∨ n = 8) (hok : regOk d n = true)
    (hal : regAlloc c.tm.alloc d n = true) : Fits c d n := by
  unfold regOk at hok
  unfold regAlloc at hal
  simp only [Bool.or_eq_true, Bool.and_eq_true, decide_eq_true_eq, beq_iff_eq, bne_iff_ne] at hok hal
  unfold Fits
  rcases hok with (h | h) | h
  · exact .inl h
  · rcases hn with rfl | rfl | rfl | rfl <;> omega
  · omega

/-- A destination that passes its checks lies in one register file and inside the allocation. -/
theorem Runs.fits_dst {i : Instr} {s : State} {c : Ctx} (hr : Runs i s c) {d n : Nat}
    (hn : n = 1 ∨ n = 2 ∨ n = 4 ∨ n = 8) (hm : Opnd.dst d n ∈ i.opnds) : d < 256 → Fits c d n := by
  intro hd
  obtain ⟨h1, h2⟩ := hr.field hm
  have hlt : ¬ 256 ≤ d := by omega
  unfold Opnd.ok at h1
  unfold Opnd.allocated at h2
  simp only [if_neg hlt] at h1
  simp only [decide_eq_false hlt, Bool.false_or] at h2
  exact fits_of_regOk hn h1 h2

theorem Runs.fits_reg9 {i : Instr} {s : State} {c : Ctx} (hr : Runs i s c) {d n : Nat}
    (hn : n = 1 ∨ n = 2 ∨ n = 4 ∨ n = 8) (hm : Opnd.reg9 d n ∈ i.opnds) : d < 256 → Fits c d n := by
  intro _
  obtain ⟨h1, h2⟩ := hr.field hm
  unfold Opnd.ok at h1
  unfold Opnd.allocated at h2
  simp only [Bool.and_eq_true] at h1
  exact fits_of_regOk hn h1.2 h2

theorem Runs.fits_vreg9 {i : Instr} {s : State} {c : Ctx} (hr : Runs i s c) {d n : Nat}
    (hn : n = 1 ∨ n = 2 ∨ n = 4 ∨ n = 8) (hm : Opnd.vreg9 d n ∈ i.opnds) : d < 256 → Fits c d n := by
  intro _
  obtain ⟨h1, h2⟩ := hr.field hm
  unfold Opnd.ok at h1
  unfold Opnd.allocated at h2
  simp only [Bool.and_eq_true] at h1
  exact fits_of_regOk hn h1.1.2 h2

theorem Runs.fits_group {i : Instr} {s : State} {c : Ctx} (hr : Runs i s c) {d n : Nat}
    (hn : n = 1 ∨ n = 2 ∨ n = 4 ∨ n = 8) (hm : Opnd.group d n ∈ i.opnds) : Fits c d n := by
  obtain ⟨h1, h2⟩ := hr.field hm
  unfold Opnd.ok at h1
  unfold Opnd.allocated at h2
  simp only [Bool.and_eq_true, decide_eq_true_eq, beq_iff_eq] at h1
  refine fits_of_regOk hn ?_ h2
  unfold regOk
  simp [h1.1, h1.2]

/-- The type code of a word that admits a list of them. -/
theorem Runs.type {i : Instr} {s : State} {c : Ctx} (hr : Runs i s c) {w : FmtA} {ts : List Nat} (hm : w.tyIn ts ∈ i.opnds) :
    w.t.toNat ∈ ts := by
  have h1 := (hr.field hm).1
  unfold FmtA.tyIn Opnd.ok at h1
  simpa using h1

theorem tyRegs_cases (t : Nat) : tyRegs t = 1 ∨ tyRegs t = 2 ∨ tyRegs t = 4 ∨ tyRegs t = 8 := by
  unfold tyRegs
  split <;> simp

end Sys2Proof.Machine
end

