-- ==== Sys2Proof/Laws/Results.lean ====
section
/-! SUPPORT. What short, predicate and long words leave: the loop over the Active threads comes to the results of all of
them, written in rank order. -/

namespace Sys2Proof.Machine

open Sys2Proof

theorem withSources_ready {c : Ctx} {s : State} {srcs : List (Nat × Nat)} (hs : c.s = s) (h : SourcesReady c s srcs)
    (k : WordOut) : withSources c srcs k = k := by
  subst hs
  unfold withSources
  rcases h with h | ⟨h1, h2, h3⟩
  · simp [h]
  · split
    · rfl
    · have hall : ((channelNeed srcs c.act.length).all fun p => decide (p.2 ≤ (c.s.rx c.tm.id p.1).length)) = true :=
        List.all_eq_true.2 fun p hp => by simpa using h2 p hp
      rw [h1]
      dsimp only
      rw [hall]
      cases hp : popsChannel srcs
      · simp
      · simp [h3 hp]

theorem filter_all {α : Type} (l : List α) : l.filter (fun _ => true) = l := List.filter_eq_self.2 fun _ _ => rfl

/-- Sources that are not ready trap the word, or hold it, before any thread. -/
theorem withSources_waits {i : Instr} {s : State} {c : Ctx} {srcs : List (Nat × Nat)} {k : Ctx → WordOut} (hr : Runs i s c)
    (hx : exec i s = .next (runWord i s fun c => withSources c srcs (k c))) : WaitsForSources i s c srcs := by
  intro hact
  have hc := (ctxOf_some hr.1.2).1
  have hne : c.act.isEmpty = false := by cases h : c.act <;> simp_all
  rw [runWord_runs hr] at hx
  refine ⟨fun cause hf => ?_, fun hf ⟨p, hp, hlt⟩ => ?_, fun hf hall hpop hset => ?_⟩
  · have hw : withSources c srcs (k c) = .trap s [] cause 0 0 := by simp [withSources, hne, hf, hc]
    rw [hw] at hx
    simpa [TrapsAt, finish, filter_all] using hx
  · have hnot : (channelNeed srcs c.act.length).all (fun q => decide (q.2 ≤ (c.s.rx c.tm.id q.1).length)) = false := by
      rw [List.all_eq_false]
      exact ⟨p, hp, by rw [hc]; simpa using hlt⟩
    have hw : withSources c srcs (k c) = .hold s [] (.channels c.tm.id (channelNeed srcs c.act.length)) := by
      unfold withSources
      rw [if_neg (by simp [hne]), hf]
      dsimp only
      rw [hnot, hc]
      rfl
    rw [hw] at hx
    simpa [HoldsAt, finish] using hx
  · subst hc
    have hyes : (channelNeed srcs c.act.length).all (fun q => decide (q.2 ≤ (c.s.rx c.tm.id q.1).length)) = true :=
      List.all_eq_true.2 fun p hp => by simpa using hall p hp
    have hw : withSources c srcs (k c) = .hold c.s [] (.counterSet c.tm.quad c.tm.job) := by
      unfold withSources
      rw [if_neg (by simp [hne]), hf]
      dsimp only
      rw [hyes, hpop, hset]
      rfl
    rw [hw] at hx
    simpa [HoldsAt, finish] using hx

/-! ### Short results in registers -/

/-- What one thread does at a word with a short result. -/
def shortStep (c : Ctx) (srcs : List (Nat × Nat)) (d n : Nat) (f : Nat → List Nat → AluOut) (s : State) (rank : Nat) :
    ThreadOut :=
  let (xs, s1) := readSrcs c rank s srcs
  let o := f rank xs
  match o.trap with
  | some cause => .trap s cause 0 0
  | none =>
    match writeShort c s1 rank d n o with
    | .ok s2 => .ok (s2.countEvents c.gid c.tm o.ev)
    | .trap _ cause a b => .trap s cause a b
    | .hold _ w => .hold s w

theorem aluWord_eq (i : Instr) (s : State) (srcs : List (Nat × Nat)) (d n : Nat) (occ : Ctx → Nat)
    (f : Ctx → Nat → List Nat → AluOut) :
    aluWord i s srcs d n occ f =
      runWord i s fun c => withSources c srcs <| runThreads (shortStep c srcs d n (f c)) (occ c) s c.act [] := rfl

theorem writeShort_reg (c : Ctx) (s : State) (rank d n : Nat) (o : AluOut) (hd : d < 256) :
    writeShort c s rank d n o = .ok (writeOne c d n s rank o) := by
  unfold writeShort writeOne
  rw [if_pos hd]
  split <;> rfl

theorem shortStep_reg (c : Ctx) (srcs : List (Nat × Nat)) (d n : Nat) (f : Nat → List Nat → AluOut) (s : State)
    (rank : Nat) (hd : d < 256) (ht : (f rank (readSrcs c rank s srcs).1).trap = none) :
    shortStep c srcs d n f s rank = .ok ((writeOne c d n (readSrcs c rank s srcs).2 rank
      (f rank (readSrcs c rank s srcs).1)).countEvents c.gid c.tm (f rank (readSrcs c rank s srcs).1).ev) := by
  unfold shortStep
  simp only [ht, writeShort_reg c _ _ _ _ _ hd]

/-- Results of the ranks `rs`, from a state on. -/
def resultsFrom (c : Ctx) (s : State) (srcs : List (Nat × Nat)) (f : Nat → List Nat → AluOut) (rs : List Nat) :
    List AluOut := (rs.zip (gatherSrcs c srcs s rs).1).map fun p => f p.1 p.2

theorem gatherSrcs_write (c : Ctx) (srcs : List (Nat × Nat)) (s : State) (rs : List Nat) (d n r : Nat) (o : AluOut) :
    gatherSrcs c srcs (writeOne c d n s r o) rs =
      ((gatherSrcs c srcs s rs).1, writeOne c d n (gatherSrcs c srcs s rs).2 r o) := by
  rw [gatherSrcs_eq, gatherSrcs_eq c srcs s, (writeOne_only c d n s r o).inbox, (writeOne_only c d n s r o).sets]
  exact congrArg (Prod.mk _) (writeOne_inbox ..).symm

theorem gatherSrcs_count (c : Ctx) (srcs : List (Nat × Nat)) (s : State) (rs : List Nat) (gid : Nat) (t : Team) (ev : Nat) :
    gatherSrcs c srcs (s.countEvents gid t ev) rs =
      ((gatherSrcs c srcs s rs).1, (gatherSrcs c srcs s rs).2.countEvents gid t ev) := by
  rw [gatherSrcs_eq, gatherSrcs_eq c srcs s, (s.countEvents_queues gid t ev).1, (s.countEvents_queues gid t ev).2]
  exact congrArg (Prod.mk _) (State.countEvents_inbox ..).symm

theorem writeAll_count (c : Ctx) (d n : Nat) (s : State) (l : List (Nat × AluOut)) (gid : Nat) (t : Team) (ev : Nat) :
    writeAll c d n (s.countEvents gid t ev) l = (writeAll c d n s l).countEvents gid t ev := by
  induction l generalizing s with
  | nil => rfl
  | cons q l ih =>
    show writeAll c d n (writeOne c d n (s.countEvents gid t ev) q.1 q.2) l = _
    rw [writeOne_countEvents, ih]
    rfl

theorem runThreads_short (c : Ctx) (srcs : List (Nat × Nat)) (d n occ : Nat) (f : Nat → List Nat → AluOut) (hd : d < 256)
    (s : State) (rs com : List Nat) (ht : ∀ o ∈ resultsFrom c s srcs f rs, o.trap = none) :
    runThreads (shortStep c srcs d n f) occ s rs com =
      .done (countAll c (writeAll c d n (gatherSrcs c srcs s rs).2 (rs.zip (resultsFrom c s srcs f rs)))
        (resultsFrom c s srcs f rs)) occ := by
  induction rs generalizing s com with
  | nil => rfl
  | cons r rs ih =>
    have hcons : resultsFrom c s srcs f (r :: rs) =
        f r (readSrcs c r s srcs).1 :: resultsFrom c (readSrcs c r s srcs).2 srcs f rs := rfl
    rw [hcons] at ht
    have h1 := ht _ (List.mem_cons_self ..)
    rw [runThreads, shortStep_reg c srcs d n f s r hd h1]
    generalize ho : f r (readSrcs c r s srcs).1 = o at *
    generalize hs1 : (readSrcs c r s srcs).2 = s1 at *
    have hres : resultsFrom c ((writeOne c d n s1 r o).countEvents c.gid c.tm o.ev) srcs f rs =
        resultsFrom c s1 srcs f rs := by
      unfold resultsFrom
      rw [gatherSrcs_count, gatherSrcs_write]
    dsimp only
    rw [ih _ _ (by rw [hres]; exact fun o' h' => ht o' (List.mem_cons_of_mem _ h')), hres, gatherSrcs_count,
      gatherSrcs_write, writeAll_count, hcons]
    have hg : (gatherSrcs c srcs s (r :: rs)).2 = (gatherSrcs c srcs s1 rs).2 := by
      rw [gatherSrcs, hs1]
    rw [hg]
    rfl

/-! ### Short results through a channel -/

/-- The effect of one accepted message on the counter sets. -/
def sentSets (c : Ctx) (z : List CounterSet) : List CounterSet :=
  countSets z c.tm.quad c.tm.job fun k => { k with mi := addCount k.mi 1 }

/-- A counter set of the job at the quad's port is in use. -/
def hasSet (c : Ctx) (z : List CounterSet) : Bool := z.any fun k => k.port == c.tm.quad && k.job == c.tm.job

theorem acceptSend_eq (c : Ctx) (s : State) (r q : Nat) (e : BitVec 128) (v : DWord) :
    s.acceptSend c.tm r q e [v] 0 =
      { s with nextId := s.nextId + 1, sets := sentSets c s.sets,
               sendBuf := s.sendBuf ++ [{ id := s.nextId, port := c.tm.quad, dev := s.pod, quad := c.tm.quad, team := c.tm.id,
                                          rank := r, entry := q, job := c.tm.job, image := e, elems := [v], rel := 0 }] } := by
  unfold State.acceptSend sentSets
  rw [State.count_eq]
  rfl

theorem countSets_map (c : Ctx) (z : List CounterSet) (h : hasSet c z = true) (f : CounterSet → CounterSet) :
    countSets z c.tm.quad c.tm.job f =
      z.map fun k => if k.port == c.tm.quad && k.job == c.tm.job then { f k with chg := true } else k := by
  unfold countSets
  exact if_pos h

theorem hasSet_map (c : Ctx) (z : List CounterSet) (f : CounterSet → CounterSet)
    (hf : ∀ k, (f k).port = k.port ∧ (f k).job = k.job) : hasSet c (z.map f) = hasSet c z := by
  unfold hasSet
  rw [List.any_map]
  congr 1
  funext k
  simp [(hf k).1, (hf k).2]

theorem hasSet_count (c : Ctx) (z : List CounterSet) (f : CounterSet → CounterSet)
    (hf : ∀ k, (f k).port = k.port ∧ (f k).job = k.job) (h : hasSet c z = true) :
    hasSet c (countSets z c.tm.quad c.tm.job f) = true := by
  rw [countSets_map c z h, hasSet_map, h]
  intro k
  split
  · exact hf k
  · exact ⟨rfl, rfl⟩

theorem hasSet_sent (c : Ctx) (z : List CounterSet) (h : hasSet c z = true) : hasSet c (sentSets c z) = true :=
  hasSet_count c z _ (fun _ => ⟨rfl, rfl⟩) h

theorem hasSet_readInbox (c : Ctx) (m : List Queued) (z : List CounterSet) (f : Nat) (h : hasSet c z = true) :
    hasSet c (readInbox c m z f).2 = true := by
  unfold readInbox
  split
  · exact h
  · split
    · exact hasSet_count c z (fun k => { k with mc := addCount k.mc 1 }) (fun _ => ⟨rfl, rfl⟩) h
    · exact h

theorem readInbox_sent (c : Ctx) (m : List Queued) (z : List CounterSet) (f : Nat) (h : hasSet c z = true) :
    readInbox c m (sentSets c z) f = ((readInbox c m z f).1, sentSets c (readInbox c m z f).2) := by
  unfold readInbox
  split
  · rfl
  · split
    · have h1 := hasSet_sent c z h
      have h2 := hasSet_count c z (fun k => { k with mc := addCount k.mc 1 }) (fun _ => ⟨rfl, rfl⟩) h
      unfold sentSets at h1 ⊢
      rw [countSets_map c _ h1, countSets_map c _ h2, countSets_map c z h, countSets_map c z h, List.map_map, List.map_map]
      congr 1
      refine List.map_congr_left fun k _ => ?_
      simp only [Function.comp]
      by_cases hk : (k.port == c.tm.quad && k.job == c.tm.job) = true
      · simp [hk]
      · simp [hk]
    · rfl

theorem readQueues_sent (c : Ctx) (rank : Nat) (m : List Queued) (z : List CounterSet) (srcs : List (Nat × Nat))
    (h : hasSet c z = true) :
    readQueues c rank m (sentSets c z) srcs =
        ((readQueues c rank m z srcs).1, (readQueues c rank m z srcs).2.1, sentSets c (readQueues c rank m z srcs).2.2) ∧
      hasSet c (readQueues c rank m z srcs).2.2 = true := by
  induction srcs generalizing m z with
  | nil => exact ⟨rfl, h⟩
  | cons p fs ih =>
    obtain ⟨f, n⟩ := p
    have h1 := hasSet_readInbox c m z f h
    obtain ⟨h2, h3⟩ := ih (readInbox c m z f).1 (readInbox c m z f).2 h1
    refine ⟨?_, h3⟩
    simp only [readQueues, readInbox_sent c m z f h, h2]

theorem gatherQueues_sent (c : Ctx) (srcs : List (Nat × Nat)) (m : List Queued) (z : List CounterSet) (rs : List Nat)
    (h : hasSet c z = true) :
    gatherQueues c srcs m (sentSets c z) rs =
        ((gatherQueues c srcs m z rs).1, (gatherQueues c srcs m z rs).2.1, sentSets c (gatherQueues c srcs m z rs).2.2) ∧
      hasSet c (gatherQueues c srcs m z rs).2.2 = true := by
  induction rs generalizing m z with
  | nil => exact ⟨rfl, h⟩
  | cons r rs ih =>
    obtain ⟨h1, h2⟩ := readQueues_sent c r m z srcs h
    obtain ⟨h3, h4⟩ := ih (readQueues c r m z srcs).2.1 (readQueues c r m z srcs).2.2 h2
    refine ⟨?_, h4⟩
    simp only [gatherQueues, h1, h3]

/-- The counter sets after `n` accepted messages. -/
def sentTimes (c : Ctx) : Nat → List CounterSet → List CounterSet
  | 0, z => z
  | n + 1, z => sentTimes c n (sentSets c z)

theorem sentTimes_eq (c : Ctx) (n : Nat) (z : List CounterSet) (h : hasSet c z = true) :
    sentTimes c n z = z.map fun k =>
      if k.port == c.tm.quad && k.job == c.tm.job && n != 0 then { k with mi := (k.mi + n) % 2 ^ 48, chg := true } else k := by
  induction n generalizing z with
  | zero => simp [sentTimes]
  | succ n ih =>
    rw [sentTimes, ih _ (hasSet_sent c z h), sentSets, countSets_map c z h, List.map_map]
    refine List.map_congr_left fun k _ => ?_
    simp only [Function.comp]
    by_cases hk : (k.port == c.tm.quad && k.job == c.tm.job) = true
    · simp only [hk, if_true, Bool.true_and]
      cases n with
      | zero => simp [addCount]
      | succ n =>
        simp only [bne_iff_ne, ne_eq, Nat.succ_ne_zero, not_false_eq_true, if_true, addCount]
        congr 1
        rw [Nat.mod_add_mod]
        congr 1
        omega
    · simp [hk]

/-- The state after `n` accepted messages. -/
def sentState (c : Ctx) (n : Nat) (s : State) (ms : List Message) : State :=
  { s with nextId := s.nextId + n, sets := sentTimes c n s.sets, sendBuf := s.sendBuf ++ ms }

theorem shortStep_send (c : Ctx) (srcs : List (Nat × Nat)) (d n : Nat) (f : Nat → List Nat → AluOut) (s : State)
    (rank : Nat) (hd : 256 ≤ d) (ht : (f rank (readSrcs c rank s srcs).1).trap = none)
    (hf : s.sendFault c.tm (c.tm.chans.getD (d - 256) 0) [1, 2, 3] = none) (hroom : s.sendRoom c.tm.quad 1 = true)
    (hs : hasSet c s.sets = true) :
    shortStep c srcs d n f s rank = .ok ((sentState c 1 (readSrcs c rank s srcs).2
      (messagesOf c s.pod (d - 256) s.nextId [rank] [f rank (readSrcs c rank s srcs).1])).countEvents c.gid c.tm
        (f rank (readSrcs c rank s srcs).1).ev) := by
  have hq := readSrcs_eq c rank s srcs
  have hset := (readQueues_sent c rank s.inbox s.sets srcs hs).2
  unfold shortStep
  simp only [ht]
  unfold writeShort
  rw [if_neg (by omega)]
  generalize f rank (readSrcs c rank s srcs).1 = o at *
  rw [hq]
  dsimp only
  have hf' : ({ s with inbox := (readQueues c rank s.inbox s.sets srcs).2.1,
                       sets := (readQueues c rank s.inbox s.sets srcs).2.2 } : State).sendFault c.tm
      (c.tm.chans.getD (d - 256) 0) [1, 2, 3] = none := hf
  have hroom' : ({ s with inbox := (readQueues c rank s.inbox s.sets srcs).2.1,
                          sets := (readQueues c rank s.inbox s.sets srcs).2.2 } : State).sendRoom c.tm.quad 1 = true := hroom
  have hcan : ({ s with inbox := (readQueues c rank s.inbox s.sets srcs).2.1,
                        sets := (readQueues c rank s.inbox s.sets srcs).2.2 } : State).canCount c.tm.quad c.tm.job = true := by
    unfold State.canCount
    rw [Bool.or_eq_true]
    exact .inl hset
  rw [hf']
  dsimp only
  rw [hroom', hcan]
  simp only [Bool.not_true, Bool.false_eq_true, if_false]
  rw [acceptSend_eq]
  rfl

theorem sendRoom_mono (s : State) (port a b : Nat) (h : s.sendRoom port b = true) (hab : a ≤ b) : s.sendRoom port a = true := by
  unfold State.sendRoom at *
  simp only [decide_eq_true_eq] at *
  omega

theorem State.countEvents_frame (s : State) (gid : Nat) (t : Team) (ev : Nat) :
    s.countEvents gid t ev = { s with teams := (s.countEvents gid t ev).teams, gangs := (s.countEvents gid t ev).gangs,
                                      events := (s.countEvents gid t ev).events } := by
  unfold State.countEvents
  generalize List.range 5 = l
  induction l generalizing s with
  | nil => rfl
  | cons k l ih =>
    rw [List.foldl_cons, ih]
    split <;> rfl

theorem sentState_count (c : Ctx) (k : Nat) (s : State) (ms : List Message) (gid : Nat) (t : Team) (ev : Nat) :
    sentState c k (s.countEvents gid t ev) ms = (sentState c k s ms).countEvents gid t ev := by
  unfold State.countEvents
  symm
  have hset := fun (s : State) (cls : Nat) => (State.countEvent_queues s gid t cls).2
  refine foldl_commutes (fun (s : State) k => if ev.testBit k then s.countEvent gid t k else s)
    (fun s => sentState c k s ms) ?_ s _
  intro a b
  split
  · rfl
  · rfl

theorem gatherSrcs_sent (c : Ctx) (srcs : List (Nat × Nat)) (s : State) (rs : List Nat) (ms : List Message)
    (h : hasSet c s.sets = true) :
    gatherSrcs c srcs (sentState c 1 s ms) rs =
      ((gatherSrcs c srcs s rs).1, sentState c 1 (gatherSrcs c srcs s rs).2 ms) := by
  rw [gatherSrcs_eq, gatherSrcs_eq c srcs s]
  have hq := (gatherQueues_sent c srcs s.inbox s.sets rs h).1
  have h1 : (sentState c 1 s ms).sets = sentSets c s.sets := rfl
  have h2 : (sentState c 1 s ms).inbox = s.inbox := rfl
  rw [h1, h2, hq]
  rfl

theorem sentState_sentState (c : Ctx) (k : Nat) (s : State) (m : Message) (ms : List Message) :
    sentState c k (sentState c 1 s [m]) ms = sentState c (k + 1) s (m :: ms) := by
  unfold sentState
  simp only [sentTimes, List.append_assoc, List.singleton_append]
  have : s.nextId + 1 + k = s.nextId + (k + 1) := by omega
  rw [this]

theorem countEvents_sendFault (s : State) (gid : Nat) (t t' : Team) (ev : Nat) (e : BitVec 128) (ks : List Nat) :
    (s.countEvents gid t ev).sendFault t' e ks = s.sendFault t' e ks := by
  rw [State.countEvents_frame]
  rfl

theorem runThreads_send (c : Ctx) (srcs : List (Nat × Nat)) (d n occ : Nat) (f : Nat → List Nat → AluOut) (hd : 256 ≤ d)
    (s : State) (rs com : List Nat) (ht : ∀ o ∈ resultsFrom c s srcs f rs, o.trap = none)
    (hf : s.sendFault c.tm (c.tm.chans.getD (d - 256) 0) [1, 2, 3] = none)
    (hroom : s.sendRoom c.tm.quad rs.length = true) (hs : hasSet c s.sets = true) :
    runThreads (shortStep c srcs d n f) occ s rs com =
      .done (countAll c (sentState c rs.length (gatherSrcs c srcs s rs).2
        (messagesOf c s.pod (d - 256) s.nextId rs (resultsFrom c s srcs f rs))) (resultsFrom c s srcs f rs)) occ := by
  induction rs generalizing s com with
  | nil =>
    rw [runThreads]
    simp [resultsFrom, gatherSrcs, messagesOf, sentState, sentTimes, countAll]
  | cons r rs ih =>
    have hcons : resultsFrom c s srcs f (r :: rs) =
        f r (readSrcs c r s srcs).1 :: resultsFrom c (readSrcs c r s srcs).2 srcs f rs := rfl
    rw [hcons] at ht ⊢
    have h1 := ht _ (List.mem_cons_self ..)
    have hq := readSrcs_eq c r s srcs
    have hset := (readQueues_sent c r s.inbox s.sets srcs hs).2
    rw [runThreads, shortStep_send c srcs d n f s r hd h1 hf (sendRoom_mono s _ _ _ hroom (by simp)) hs]
    have hs1 : hasSet c (readSrcs c r s srcs).2.sets = true := by rw [hq]; exact hset
    have hf1 : (readSrcs c r s srcs).2.sendFault c.tm (c.tm.chans.getD (d - 256) 0) [1, 2, 3] = none := by
      rw [hq]; exact hf
    have hb1 : (readSrcs c r s srcs).2.sendBuf = s.sendBuf := by rw [hq]
    have hn1 : (readSrcs c r s srcs).2.nextId = s.nextId := by rw [hq]
    have hp1 : (readSrcs c r s srcs).2.pod = s.pod := by rw [hq]
    have hg : (gatherSrcs c srcs s (r :: rs)).2 = (gatherSrcs c srcs (readSrcs c r s srcs).2 rs).2 := by
      rw [gatherSrcs]
    generalize f r (readSrcs c r s srcs).1 = o at *
    generalize (readSrcs c r s srcs).2 = s1 at *
    dsimp only
    have hgs : ∀ ms, gatherSrcs c srcs ((sentState c 1 s1 ms).countEvents c.gid c.tm o.ev) rs =
        ((gatherSrcs c srcs s1 rs).1, (sentState c 1 (gatherSrcs c srcs s1 rs).2 ms).countEvents c.gid c.tm o.ev) := by
      intro ms
      rw [gatherSrcs_count, gatherSrcs_sent c srcs s1 rs ms hs1]
    have hres : ∀ ms, resultsFrom c ((sentState c 1 s1 ms).countEvents c.gid c.tm o.ev) srcs f rs =
        resultsFrom c s1 srcs f rs := by
      intro ms
      unfold resultsFrom
      rw [hgs]
    obtain ⟨m, hm, hm'⟩ : ∃ m, messagesOf c s.pod (d - 256) s.nextId [r] [o] = [m] ∧ ∀ rs os,
        messagesOf c s.pod (d - 256) s.nextId (r :: rs) (o :: os) = m :: messagesOf c s.pod (d - 256) (s.nextId + 1) rs os :=
      ⟨_, rfl, fun _ _ => rfl⟩
    rw [hm]
    rw [ih]
    · rw [hres, hgs]
      have hn : ((sentState c 1 s1 [m]).countEvents c.gid c.tm o.ev).nextId = s.nextId + 1 := by
        rw [State.countEvents_frame]
        show s1.nextId + 1 = _
        rw [hn1]
      have hp : ((sentState c 1 s1 [m]).countEvents c.gid c.tm o.ev).pod = s.pod := by
        rw [State.countEvents_frame]
        exact hp1
      rw [hn, hp, sentState_count, sentState_sentState, hg, hm']
      rfl
    · rw [hres]; exact fun o' h' => ht o' (List.mem_cons_of_mem _ h')
    · rw [countEvents_sendFault]; exact hf1
    · rw [State.countEvents_frame]
      unfold State.sendRoom at *
      simp only [decide_eq_true_eq, List.length_cons] at *
      show (((s1.sendBuf ++ _).filter _).length + rs.length) ≤ 256
      rw [hb1, List.filter_append, List.length_append]
      have : ([m].filter fun x => x.port == c.tm.quad).length ≤ 1 := List.length_filter_le ..
      omega
    · rw [(State.countEvents_queues _ _ _ _).2]
      exact hasSet_sent c _ hs1

/-- What a word with a short result does. -/
theorem aluWord_commit {i : Instr} {s : State} {c : Ctx} {srcs : List (Nat × Nat)} {d n : Nat} {occ : Ctx → Nat}
    {f : Ctx → Nat → List Nat → AluOut} (hr : Runs i s c) (hx : exec i s = .next (aluWord i s srcs d n occ f))
    (hfit : d < 256 → Fits c d n) : ShortCommit i s c srcs d n (occ c) (f c) := by
  unfold ShortCommit
  intro g os hsrc ht
  have hc := ctxOf_some hr.1.2
  have hrun : aluWord i s srcs d n occ f = finish c (runThreads (shortStep c srcs d n (f c)) (occ c) s c.act []) := by
    rw [aluWord_eq, runWord_runs hr, withSources_ready hc.1 hsrc]
  have hteam : ((gatherSrcs c srcs s c.act).2.team c.tm.id).alloc = c.tm.alloc := by
    rw [gatherSrcs_eq]
    show (s.team c.tm.id).alloc = _
    rw [hr.1.team]
  refine ⟨fun hd => ⟨writeAll c d n g (c.act.zip os), ?_, writeAll_takes c d n g os hteam (hfit hd)⟩, ?_⟩
  · unfold Commits
    rw [hx, hrun, runThreads_short c srcs d n (occ c) (f c) hd s c.act [] ht]
    rfl
  · intro hd hf hroom hs
    refine ⟨sentState c c.act.length g (messagesOf c s.pod (d - 256) s.nextId c.act os), ?_, ?_, ?_⟩
    · unfold Commits
      rw [hx, hrun, runThreads_send c srcs d n (occ c) (f c) hd s c.act [] ht hf hroom hs]
      rfl
    · have h1 : g.nextId = s.nextId := by show (gatherSrcs c srcs s c.act).2.nextId = _; rw [gatherSrcs_eq]
      have h2 : g.sendBuf = s.sendBuf := by show (gatherSrcs c srcs s c.act).2.sendBuf = _; rw [gatherSrcs_eq]
      unfold sentState
      rw [h1, h2]
    · show sentTimes c c.act.length g.sets = _
      have hg : hasSet c g.sets = true := by
        show hasSet c (gatherSrcs c srcs s c.act).2.sets = true
        rw [gatherSrcs_eq]
        exact (gatherQueues_sent c srcs s.inbox s.sets c.act hs).2
      rw [sentTimes_eq c _ _ hg]
      refine List.map_congr_left fun k _ => ?_
      have : (c.act.length != 0) = !c.act.isEmpty := by cases c.act <;> rfl
      rw [this]

/-- A channel that cannot be sent through traps the word at its first thread. -/
theorem aluWord_cannotSend {i : Instr} {s : State} {c : Ctx} {srcs : List (Nat × Nat)} {d n : Nat} {occ : Ctx → Nat}
    {f : Ctx → Nat → List Nat → AluOut} (hr : Runs i s c) (hx : exec i s = .next (aluWord i s srcs d n occ f))
    (ht : ∀ o ∈ resultsOf c s srcs (f c), o.trap = none) : CannotSend i s c srcs d := by
  intro hd hact hsrc cause hf
  have hc := (ctxOf_some hr.1.2).1
  rw [aluWord_eq, runWord_runs hr, withSources_ready hc hsrc] at hx
  cases ha : c.act with
  | nil => exact absurd ha hact
  | cons r rs =>
    rw [ha] at hx
    have h0 : (f c r (readSrcs c r s srcs).1).trap = none := by
      apply ht
      unfold resultsOf
      rw [ha]
      exact List.mem_cons_self ..
    have hsf : (readSrcs c r s srcs).2.sendFault c.tm (c.tm.chans.getD (d - 256) 0) [1, 2, 3] = some cause := by
      rw [readSrcs_eq]
      exact hf
    have hstep : shortStep c srcs d n (f c) s r = .trap s cause 0 0 := by
      unfold shortStep
      simp only [h0]
      unfold writeShort
      rw [if_neg (by omega)]
      simp only [hsf]
    rw [runThreads, hstep] at hx
    simpa [TrapsAt, finish, ha, filter_all] using hx

/-- All that a word with a short result does. -/
theorem aluWord_short {i : Instr} {s : State} {c : Ctx} {srcs : List (Nat × Nat)} {d n : Nat} {occ : Ctx → Nat}
    {f : Ctx → Nat → List Nat → AluOut} (hr : Runs i s c) (hx : exec i s = .next (aluWord i s srcs d n occ f))
    (hfit : d < 256 → Fits c d n) : ShortResult i s c srcs d n (occ c) (f c) :=
  ⟨aluWord_commit hr hx hfit, withSources_waits hr hx, aluWord_cannotSend hr hx⟩

/-! ### Sources are numbers of their width -/

theorem State.regs_lt (s : State) (t r k i n : Nat) : s.regs t r k i n < 2 ^ (32 * n) := by
  induction n generalizing i with
  | zero => simp [State.regs]
  | succ n ih =>
    rw [State.regs]
    split
    · exact Nat.two_pow_pos _
    · have h1 := ih (i + 1)
      have h2 := (s.reg t r k i).isLt
      have h3 : 2 ^ (32 * (n + 1)) = 2 ^ 32 * 2 ^ (32 * n) := by rw [← Nat.pow_add]; congr 1; omega
      rw [h3]
      calc _ < 2 ^ 32 + 2 ^ 32 * s.regs t r k (i + 1) n := by omega
        _ = 2 ^ 32 * (s.regs t r k (i + 1) n + 1) := by rw [Nat.mul_add]; omega
        _ ≤ _ := Nat.mul_le_mul_left _ h1

theorem readValue_lt (c : Ctx) (m : List Queued) (rank f n : Nat) : readValue c m rank f n < 2 ^ (32 * n) := by
  unfold readValue
  split
  · exact State.regs_lt ..
  · split
    · exact Nat.mod_lt _ (Nat.two_pow_pos _)
    · exact Nat.two_pow_pos _

/-- One value for each source, of its width. -/
def Sized (srcs : List (Nat × Nat)) (xs : List Nat) : Prop :=
  xs.length = srcs.length ∧ ∀ k, xs.getD k 0 < 2 ^ (32 * (srcs.getD k (0, 0)).2)

theorem readQueues_sized (c : Ctx) (rank : Nat) (m : List Queued) (z : List CounterSet) (srcs : List (Nat × Nat)) :
    Sized srcs (readQueues c rank m z srcs).1 := by
  induction srcs generalizing m z with
  | nil => exact ⟨rfl, fun k => by simp [readQueues]⟩
  | cons p fs ih =>
    obtain ⟨f, n⟩ := p
    obtain ⟨h1, h2⟩ := ih (readInbox c m z f).1 (readInbox c m z f).2
    refine ⟨by simp [readQueues, h1], fun k => ?_⟩
    cases k with
    | zero => exact readValue_lt c m rank f n
    | succ k => exact h2 k

theorem gatherSrcs_sized (c : Ctx) (srcs : List (Nat × Nat)) (s : State) (rs : List Nat) :
    ∀ xs ∈ (gatherSrcs c srcs s rs).1, Sized srcs xs := by
  rw [gatherSrcs_eq]
  dsimp only
  generalize s.inbox = m
  generalize s.sets = z
  induction rs generalizing m z with
  | nil => simp [gatherQueues]
  | cons r rs ih =>
    intro xs hx
    rcases List.mem_cons.1 hx with rfl | hx
    · exact readQueues_sized ..
    · exact ih _ _ xs hx

/-- Results that are equal on sources of their width are equal. -/
theorem resultsOf_congr {c : Ctx} {s : State} {srcs : List (Nat × Nat)} {f f' : Nat → List Nat → AluOut}
    (h : ∀ r ∈ c.act, ∀ xs, Sized srcs xs → f r xs = f' r xs) : resultsOf c s srcs f = resultsOf c s srcs f' := by
  unfold resultsOf
  refine List.map_congr_left fun p hp => ?_
  have := List.of_mem_zip hp
  exact h p.1 this.1 p.2 (gatherSrcs_sized c srcs s c.act p.2 this.2)

theorem ShortResult.congr {i : Instr} {s : State} {c : Ctx} {srcs : List (Nat × Nat)} {d n occ : Nat}
    {f f' : Nat → List Nat → AluOut} (h : ShortResult i s c srcs d n occ f)
    (hf : ∀ r ∈ c.act, ∀ xs, Sized srcs xs → f r xs = f' r xs) : ShortResult i s c srcs d n occ f' := by
  unfold ShortResult ShortCommit at *
  rw [resultsOf_congr hf] at h
  exact h

end Sys2Proof.Machine
end

