-- ==== Sys2Proof/Laws/Owed.lean ====
section
/-! SUPPORT. What a word with a long result leaves: one ticket, and a result for each register that is owed. -/

namespace Sys2Proof.Machine

open Sys2Proof

/-- The state in which acts are owed under a ticket. -/
def owedState (ticket team : Nat) (s : State) (l : List (Nat × ResultAct)) : State :=
  { s with
    nextId := s.nextId + l.length,
    tickets := s.tickets.map fun t => if t.id == ticket then { t with parts := t.parts ++ l.map (·.1) } else t,
    results := s.results ++ l.mapIdx fun k a => { id := s.nextId + k, ticket, team, rank := a.1, act := a.2 } }

theorem owedState_nil (ticket team : Nat) (s : State) : owedState ticket team s [] = s := by
  unfold owedState
  have : (s.tickets.map fun t => if t.id == ticket then { t with parts := t.parts ++ [] } else t) = s.tickets := by
    rw [← List.map_id s.tickets, List.map_map]
    refine List.map_congr_left fun t _ => ?_
    simp
  simp only [List.map_nil, List.mapIdx_nil, List.append_nil, List.length_nil, Nat.add_zero]
  simp only [List.append_nil] at this
  rw [this]

theorem owedState_append (ticket team : Nat) (s : State) (l l' : List (Nat × ResultAct)) :
    owedState ticket team (owedState ticket team s l) l' = owedState ticket team s (l ++ l') := by
  unfold owedState
  simp only [List.length_append, List.map_append, List.mapIdx_append, ← List.append_assoc, List.map_map]
  have h1 : s.nextId + l.length + l'.length = s.nextId + (l.length + l'.length) := by omega
  have h2 : ((fun t : Ticket => if t.id == ticket then { t with parts := t.parts ++ l'.map (·.1) } else t) ∘
      fun t => if t.id == ticket then { t with parts := t.parts ++ l.map (·.1) } else t) =
      fun t => if t.id == ticket then { t with parts := t.parts ++ l.map (·.1) ++ l'.map (·.1) } else t := by
    funext t
    simp only [Function.comp]
    by_cases h : t.id == ticket <;> simp [h]
  have h3 : (l'.mapIdx fun k a => ({ id := s.nextId + l.length + k, ticket, team, rank := a.1, act := a.2 } : LongResult)) =
      l'.mapIdx fun k a => ({ id := s.nextId + (k + l.length), ticket, team, rank := a.1, act := a.2 } : LongResult) := by
    congr 1
    funext k a
    have : s.nextId + l.length + k = s.nextId + (k + l.length) := by omega
    rw [this]
  rw [h1, h2, h3]

theorem owe_zero (s : State) (ticket r : Nat) : s.owe ticket r 0 = s := by
  unfold State.owe
  have : (s.tickets.map fun t => if t.id == ticket then { t with parts := t.parts ++ List.replicate 0 r } else t) =
      s.tickets := by
    conv => rhs; rw [← List.map_id s.tickets]
    refine List.map_congr_left fun t _ => ?_
    simp
  rw [this]

theorem owe_add (s : State) (ticket r a b : Nat) : (s.owe ticket r a).owe ticket r b = s.owe ticket r (a + b) := by
  unfold State.owe
  simp only [List.map_map]
  congr 1
  refine List.map_congr_left fun t _ => ?_
  simp only [Function.comp]
  by_cases h : t.id == ticket
  · simp [h, List.replicate_append_replicate]
  · simp [h]

/-- Owing `k` writes to a rank and adding as many results. -/
theorem owe_addResults (s : State) (ticket team r : Nat) (acts : List ResultAct) :
    acts.foldl (fun s a => s.addResult ticket team r a) (s.owe ticket r acts.length) =
      owedState ticket team s (acts.map fun a => (r, a)) := by
  have key : ∀ (acts : List ResultAct) (s : State), acts.foldl (fun s a => s.addResult ticket team r a) s =
      { s with nextId := s.nextId + acts.length,
               results := s.results ++ acts.mapIdx fun k a => { id := s.nextId + k, ticket, team, rank := r, act := a } } := by
    intro acts
    induction acts with
    | nil => intro s; simp
    | cons a acts ih =>
      intro s
      rw [List.foldl_cons, ih]
      unfold State.addResult
      simp only [List.length_cons, List.mapIdx_cons, List.append_assoc, List.singleton_append, Nat.add_zero]
      have h1 : s.nextId + 1 + acts.length = s.nextId + (acts.length + 1) := by omega
      have h2 : (acts.mapIdx fun k a => ({ id := s.nextId + 1 + k, ticket, team, rank := r, act := a } : LongResult)) =
          acts.mapIdx fun k a => ({ id := s.nextId + (k + 1), ticket, team, rank := r, act := a } : LongResult) := by
        congr 1
        funext k a
        have : s.nextId + 1 + k = s.nextId + (k + 1) := by omega
        rw [this]
      rw [h1, h2]
  rw [key]
  unfold owedState State.owe
  simp only [List.length_map, List.map_map]
  have h1 : ((fun p : Nat × ResultAct => p.1) ∘ fun a => (r, a)) = fun _ => r := rfl
  have h2 : acts.map (fun _ => r) = List.replicate acts.length r := by
    induction acts with
    | nil => rfl
    | cons a acts ih => simp [ih, List.replicate_succ]
  have h3 : ((acts.map fun a => (r, a)).mapIdx fun k a =>
      ({ id := s.nextId + k, ticket, team, rank := a.1, act := a.2 } : LongResult)) =
      acts.mapIdx fun k a => ({ id := s.nextId + k, ticket, team, rank := r, act := a } : LongResult) := by
    apply List.ext_getElem?
    intro k
    simp only [List.getElem?_mapIdx, List.getElem?_map]
    cases acts[k]? <;> rfl
  rw [h1, h2, h3]

/-! ### The registers that a value's writes name -/

theorem eraseDups_nodup (l : List Nat) (h : l.Nodup) : l.eraseDups = l := by
  induction l with
  | nil => rfl
  | cons a l ih =>
    rw [List.eraseDups_cons]
    obtain ⟨h1, h2⟩ := List.nodup_cons.1 h
    have : (l.filter fun b => !b == a) = l := by
      rw [List.filter_eq_self]
      intro b hb
      have : b ≠ a := fun hh => h1 (hh ▸ hb)
      simpa using this
    rw [this, ih h2]

theorem eraseDups_repeat (l : List Nat) (h : l.Nodup) (k : Nat) :
    ((List.range (k + 1)).flatMap fun _ => l).eraseDups = l := by
  rw [List.range_succ_eq_map, List.flatMap_cons, List.eraseDups_append, eraseDups_nodup l h]
  have : (((List.range k).map Nat.succ).flatMap fun _ => l).removeAll l = [] := by
    rw [List.removeAll, List.filter_eq_nil_iff]
    intro a ha
    rw [List.mem_flatMap] at ha
    obtain ⟨_, _, ha⟩ := ha
    simp [ha]
  rw [this]
  simp

theorem valueWrites_regs (depth d n v : Nat) (tan : Nat → Nat) (hd : d ≠ 255) :
    ((valueWrites depth d n v tan).map fun w => w.2.1).eraseDups = (List.range n).map fun j => d + j := by
  unfold valueWrites
  rw [if_neg hd, List.map_flatMap]
  have : (fun k => ((List.range n).map fun j =>
      ((k, d + j, BitVec.ofNat 32 ((if k = 0 then v else tan k) / 2 ^ (32 * j))) : Nat × Nat × Word)).map fun w => w.2.1) =
      fun _ => (List.range n).map fun j => d + j := by
    funext k
    rw [List.map_map]
    rfl
  rw [this]
  refine eraseDups_repeat _ ?_ depth
  rw [List.Nodup, List.pairwise_map]
  refine List.Pairwise.imp (fun h => ?_) List.nodup_range
  omega

theorem filter_range_eq (n j : Nat) (hj : j < n) : (List.range n).filter (fun x => x == j) = [j] := by
  induction n with
  | zero => omega
  | succ n ih =>
    rw [List.range_succ, List.filter_append]
    by_cases h : j = n
    · subst h
      have : (List.range j).filter (fun x => x == j) = [] := by
        rw [List.filter_eq_nil_iff]
        intro a ha
        have := List.mem_range.1 ha
        simp; omega
      rw [this]
      simp
    · rw [ih (by omega)]
      have : (n == j) = false := by simp; omega
      simp [this]

theorem valueWrites_filter (depth d n v : Nat) (tan : Nat → Nat) (hd : d ≠ 255) (j : Nat) (hj : j < n) :
    ((valueWrites depth d n v tan).filter fun w => w.2.1 == d + j) =
      (List.range (depth + 1)).map fun k => (k, d + j, valueWord (if k = 0 then v else tan k) j) := by
  unfold valueWrites valueWord
  rw [if_neg hd, List.filter_flatMap]
  have : ∀ k, (((List.range n).map fun j =>
      ((k, d + j, BitVec.ofNat 32 ((if k = 0 then v else tan k) / 2 ^ (32 * j))) : Nat × Nat × Word)).filter
        fun w => w.2.1 == d + j) = [(k, d + j, BitVec.ofNat 32 ((if k = 0 then v else tan k) / 2 ^ (32 * j)))] := by
    intro k
    rw [List.filter_map]
    have h1 : ((fun w : Nat × Nat × Word => w.2.1 == d + j) ∘
        fun j => (k, d + j, BitVec.ofNat 32 ((if k = 0 then v else tan k) / 2 ^ (32 * j)))) = fun x => x == j := by
      funext x
      simp only [Function.comp]
      by_cases h : x = j
      · subst h; simp
      · have h2 : (x == j) = false := by simpa using h
        have h3 : (d + x == d + j) = false := by simp; omega
        rw [h2, h3]
    rw [h1, filter_range_eq n j hj]
    rfl
  simp only [this]
  generalize List.range (depth + 1) = l
  induction l with
  | nil => rfl
  | cons k l ih => rw [List.flatMap_cons, ih]; rfl

/-! ### The loop -/

/-- What one Active thread is owed. -/
def actsOf (c : Ctx) (d n r : Nat) (o : AluOut) : List (Nat × ResultAct) :=
  if 256 ≤ d then [(r, .send (d - 256) (c.tm.chans.getD (d - 256) 0) (BitVec.ofNat 64 o.val))]
  else if 192 ≤ d && d < 255 && r != c.lead then []
  else (resultActs c.tm.depth d n o).map fun a => (r, a)

theorem owedActs_cons (c : Ctx) (d n : Nat) (l : List (Nat × AluOut)) :
    (l.flatMap fun q =>
      if 256 ≤ d then [(q.1, ResultAct.send (d - 256) (c.tm.chans.getD (d - 256) 0) (BitVec.ofNat 64 q.2.val))]
      else if 192 ≤ d && d < 255 && q.1 != c.lead then []
      else (resultActs c.tm.depth d n q.2).map fun a => (q.1, a)) = l.flatMap fun q => actsOf c d n q.1 q.2 := rfl

/-- What one thread does at a word with a long result. -/
def longStep (c : Ctx) (srcs : List (Nat × Nat)) (d n ticket : Nat) (f : Nat → List Nat → AluOut) (s : State) (rank : Nat) :
    ThreadOut :=
  let (xs, s1) := readSrcs c rank s srcs
  let o := f rank xs
  match o.trap with
  | some cause => .trap s cause 0 0
  | none =>
    let s2 := s1.countEvents c.gid c.tm o.ev
    if d < 256 then
      if 192 ≤ d && d < 255 && rank ≠ c.lead then .ok s2
      else .ok ((s2.owe ticket rank 1).addRegResults ticket c.tm.id rank
             (valueWrites c.tm.depth d n o.val fun k => o.tans.getD (k - 1) 0))
    else .ok ((s2.owe ticket rank 1).addResult ticket c.tm.id rank
           (.send (d - 256) (c.tm.chans.getD (d - 256) 0) (BitVec.ofNat 64 o.val)))

theorem foldl_addResult_map (s : State) (ticket team r : Nat) (l : List Nat) (g : Nat → ResultAct) :
    l.foldl (fun s i => s.addResult ticket team r (g i)) s = (l.map g).foldl (fun s a => s.addResult ticket team r a) s := by
  rw [List.foldl_map]

theorem addRegResults_owed (s : State) (ticket r depth d n v team : Nat) (tan : Nat → Nat) (o : AluOut) (hn : 0 < n)
    (hv : v = o.val) (ht : ∀ k, tan k = o.tans.getD (k - 1) 0) :
    (s.owe ticket r 1).addRegResults ticket team r (valueWrites depth d n v tan) =
      owedState ticket team s ((resultActs depth d n o).map fun a => (r, a)) := by
  unfold resultActs
  by_cases hd : d = 255
  · rw [if_pos hd]
    have : valueWrites depth d n v tan = [] := by unfold valueWrites; rw [if_pos hd]
    rw [this]
    exact owe_addResults s ticket team r [.nothing]
  · rw [if_neg hd]
    unfold State.addRegResults
    dsimp only
    rw [valueWrites_regs _ _ _ _ _ hd]
    have hlen : ((List.range n).map fun j => d + j).length = n := by simp
    have hgen : ∀ is : List Nat, is = (List.range n).map (fun j => d + j) →
        (match is with
          | [] => (s.owe ticket r 1).addResult ticket team r .nothing
          | _ => is.foldl (fun s i => s.addResult ticket team r (.regs ((valueWrites depth d n v tan).filter fun w => w.2.1 == i)))
              ((s.owe ticket r 1).owe ticket r (is.length - 1))) =
        owedState ticket team s (((List.range n).map fun j => ResultAct.regs ((List.range (depth + 1)).map fun k =>
          (k, d + j, valueWord (if k = 0 then o.val else o.tans.getD (k - 1) 0) j))).map fun a => (r, a)) := by
      intro is his
      have h0 : is.length = n := by rw [his, hlen]
      cases is with
      | nil => simp at h0; omega
      | cons i rest =>
        dsimp only
        rw [h0, owe_add, foldl_addResult_map, show 1 + (n - 1) = n from by omega, his, List.map_map]
        have hact : ((fun i => ResultAct.regs ((valueWrites depth d n v tan).filter fun w => w.2.1 == i)) ∘ fun j => d + j) =
            fun j => ResultAct.regs ((valueWrites depth d n v tan).filter fun w => w.2.1 == d + j) := rfl
        rw [hact]
        have heq : (List.range n).map (fun j => ResultAct.regs ((valueWrites depth d n v tan).filter fun w => w.2.1 == d + j)) =
            (List.range n).map fun j => ResultAct.regs ((List.range (depth + 1)).map fun k =>
              (k, d + j, valueWord (if k = 0 then o.val else o.tans.getD (k - 1) 0) j)) := by
          refine List.map_congr_left fun j hj => ?_
          rw [valueWrites_filter _ _ _ _ _ hd _ (List.mem_range.1 hj)]
          simp only [hv, ht]
        rw [heq]
        have hl : ((List.range n).map fun j => ResultAct.regs ((List.range (depth + 1)).map fun k =>
              (k, d + j, valueWord (if k = 0 then o.val else o.tans.getD (k - 1) 0) j))).length = n := by simp
        have := owe_addResults s ticket team r ((List.range n).map fun j => ResultAct.regs ((List.range (depth + 1)).map fun k =>
              (k, d + j, valueWord (if k = 0 then o.val else o.tans.getD (k - 1) 0) j)))
        rw [hl] at this
        exact this
    exact hgen _ rfl

theorem longStep_ok (c : Ctx) (srcs : List (Nat × Nat)) (d n ticket : Nat) (f : Nat → List Nat → AluOut) (s : State)
    (rank : Nat) (hn : 0 < n) (ht : (f rank (readSrcs c rank s srcs).1).trap = none) :
    longStep c srcs d n ticket f s rank = .ok (owedState ticket c.tm.id
      ((readSrcs c rank s srcs).2.countEvents c.gid c.tm (f rank (readSrcs c rank s srcs).1).ev)
      (actsOf c d n rank (f rank (readSrcs c rank s srcs).1))) := by
  unfold longStep actsOf
  simp only [ht]
  generalize f rank (readSrcs c rank s srcs).1 = o
  by_cases hd : d < 256
  · have h256 : ¬ 256 ≤ d := by omega
    rw [if_pos hd, if_neg h256]
    by_cases hg : (192 ≤ d && d < 255 && rank ≠ c.lead) = true
    · have hg' : (192 ≤ d && d < 255 && rank != c.lead) = true := by simpa using hg
      rw [if_pos hg, if_pos hg', owedState_nil]
    · have hg' : ¬ (192 ≤ d && d < 255 && rank != c.lead) = true := by simpa using hg
      rw [if_neg hg, if_neg hg', addRegResults_owed _ _ _ _ _ _ _ _ _ o hn rfl fun _ => rfl]
  · have h256 : 256 ≤ d := by omega
    rw [if_neg hd, if_pos h256]
    exact congrArg ThreadOut.ok (owe_addResults _ ticket c.tm.id rank [_])

theorem gatherSrcs_owed (c : Ctx) (srcs : List (Nat × Nat)) (s : State) (rs : List Nat) (ticket team : Nat)
    (l : List (Nat × ResultAct)) :
    gatherSrcs c srcs (owedState ticket team s l) rs =
      ((gatherSrcs c srcs s rs).1, owedState ticket team (gatherSrcs c srcs s rs).2 l) := by
  rw [gatherSrcs_eq, gatherSrcs_eq c srcs s]
  rfl

theorem owedState_count (ticket team : Nat) (s : State) (l : List (Nat × ResultAct)) (gid : Nat) (t : Team) (ev : Nat) :
    (owedState ticket team s l).countEvents gid t ev = owedState ticket team (s.countEvents gid t ev) l := by
  unfold State.countEvents
  refine foldl_commutes (fun (s : State) k => if ev.testBit k then s.countEvent gid t k else s)
    (fun s => owedState ticket team s l) ?_ s _
  intro a b
  split <;> rfl

theorem countAll_owed (c : Ctx) (ticket team : Nat) (s : State) (l : List (Nat × ResultAct)) (os : List AluOut) :
    countAll c (owedState ticket team s l) os = owedState ticket team (countAll c s os) l := by
  unfold countAll
  exact foldl_commutes (fun (s : State) (o : AluOut) => s.countEvents c.gid c.tm o.ev) (fun s => owedState ticket team s l)
    (fun a b => owedState_count ..) s os

theorem countAll_settle (c : Ctx) (ticket r : Nat) (s : State) (os : List AluOut) :
    countAll c (s.settleTicket ticket r) os = (countAll c s os).settleTicket ticket r := by
  unfold countAll
  refine foldl_commutes (fun (s : State) (o : AluOut) => s.countEvents c.gid c.tm o.ev) (fun s => s.settleTicket ticket r)
    (fun a b => ?_) s os
  unfold State.countEvents
  refine foldl_commutes (fun (s : State) k => if b.ev.testBit k then s.countEvent c.gid c.tm k else s)
    (fun s => s.settleTicket ticket r) ?_ a _
  intro a b
  split <;> rfl

theorem runThreads_long (c : Ctx) (srcs : List (Nat × Nat)) (d n ticket occ : Nat) (f : Nat → List Nat → AluOut)
    (hn : 0 < n) (s : State) (rs com : List Nat) (ht : ∀ o ∈ resultsFrom c s srcs f rs, o.trap = none) :
    runThreads (longStep c srcs d n ticket f) occ s rs com =
      .done (countAll c (owedState ticket c.tm.id (gatherSrcs c srcs s rs).2
        ((rs.zip (resultsFrom c s srcs f rs)).flatMap fun q => actsOf c d n q.1 q.2)) (resultsFrom c s srcs f rs)) occ := by
  induction rs generalizing s com with
  | nil =>
    show WordOut.done s occ = .done (owedState ticket c.tm.id s []) occ
    rw [owedState_nil]
  | cons r rs ih =>
    have hcons : resultsFrom c s srcs f (r :: rs) =
        f r (readSrcs c r s srcs).1 :: resultsFrom c (readSrcs c r s srcs).2 srcs f rs := rfl
    rw [hcons] at ht
    rw [runThreads, longStep_ok c srcs d n ticket f s r hn (ht _ (List.mem_cons_self ..)), hcons]
    generalize f r (readSrcs c r s srcs).1 = o at *
    have hg : (gatherSrcs c srcs s (r :: rs)).2 = (gatherSrcs c srcs (readSrcs c r s srcs).2 rs).2 := by rw [gatherSrcs]
    rw [hg]
    generalize (readSrcs c r s srcs).2 = s1 at *
    have hgs : gatherSrcs c srcs (owedState ticket c.tm.id (s1.countEvents c.gid c.tm o.ev) (actsOf c d n r o)) rs =
        ((gatherSrcs c srcs s1 rs).1, owedState ticket c.tm.id ((gatherSrcs c srcs s1 rs).2.countEvents c.gid c.tm o.ev)
          (actsOf c d n r o)) := by
      rw [gatherSrcs_owed, gatherSrcs_count]
    have hres : resultsFrom c (owedState ticket c.tm.id (s1.countEvents c.gid c.tm o.ev) (actsOf c d n r o)) srcs f rs =
        resultsFrom c s1 srcs f rs := by
      unfold resultsFrom
      rw [hgs]
    dsimp only
    rw [ih _ _ (by rw [hres]; exact fun o' h' => ht o' (List.mem_cons_of_mem _ h')), hres, hgs, owedState_append,
      ← owedState_count]
    rfl

theorem issue_cons (s : State) (gid team cls r : Nat) (rs : List Nat) :
    s.issue gid team cls (r :: rs) = (s.nextId, { s with
      nextId := s.nextId + 1,
      tickets := s.tickets ++ [{ id := s.nextId, cls, team, gangs := [gid], parts := r :: rs }] }) := rfl

theorem gatherSrcs_issue (c : Ctx) (srcs : List (Nat × Nat)) (s : State) (rs : List Nat) (a : Nat) (ts : List Ticket) :
    gatherSrcs c srcs { s with nextId := a, tickets := ts } rs =
      ((gatherSrcs c srcs s rs).1, { (gatherSrcs c srcs s rs).2 with nextId := a, tickets := ts }) := by
  rw [gatherSrcs_eq, gatherSrcs_eq c srcs s]

theorem settle_others (l : List Ticket) (ticket r : Nat) (h : ∀ t ∈ l, t.id ≠ ticket) :
    ((l.map fun t => if t.id == ticket then { t with parts := t.parts.erase r } else t).filter
      fun t => !(t.id == ticket && t.parts.isEmpty)) = l := by
  induction l with
  | nil => rfl
  | cons t l ih =>
    have h1 : (t.id == ticket) = false := by simpa using h t (List.mem_cons_self ..)
    rw [List.map_cons, List.filter_cons, h1]
    simp only [Bool.false_eq_true, if_false, h1, Bool.false_and, Bool.not_false, if_true]
    rw [ih fun t ht => h t (List.mem_cons_of_mem _ ht)]

theorem owe_others (l : List Ticket) (ticket : Nat) (rs : List Nat) (h : ∀ t ∈ l, t.id ≠ ticket) :
    (l.map fun t => if t.id == ticket then { t with parts := t.parts ++ rs } else t) = l := by
  conv => rhs; rw [← List.map_id l]
  refine List.map_congr_left fun t ht => ?_
  have h1 : (t.id == ticket) = false := by simpa using h t ht
  simp [h1]

theorem longWord_eq (i : Instr) (s : State) (cls : Nat) (srcs : List (Nat × Nat)) (d n : Nat) (occ : Ctx → Nat)
    (f : Ctx → Nat → List Nat → AluOut) :
    longWord i s cls srcs d n occ f =
      runWord i s fun c =>
        withSources c srcs <|
          match (if d < 256 || c.act.isEmpty then none else s.sendFault c.tm (c.tm.chans.getD (d - 256) 0) [1, 2, 3]) with
          | some cause => .trap s [] cause 0 0
          | none =>
            match runThreads (longStep c srcs d n (s.issue c.gid c.tm.id cls (if c.act.isEmpty then [] else [c.lead])).1 (f c))
                (occ c) (s.issue c.gid c.tm.id cls (if c.act.isEmpty then [] else [c.lead])).2 c.act [] with
            | .done s' occ => .done (s'.settleTicket (s.issue c.gid c.tm.id cls (if c.act.isEmpty then [] else [c.lead])).1 c.lead) occ
            | .trap s' com cause a b =>
              .trap (s'.settleTicket (s.issue c.gid c.tm.id cls (if c.act.isEmpty then [] else [c.lead])).1 c.lead) com cause a b
            | .hold s' com w =>
              .hold (s'.settleTicket (s.issue c.gid c.tm.id cls (if c.act.isEmpty then [] else [c.lead])).1 c.lead) com w
            | .left s' => .left s' := rfl

/-- What a word with a long result does. -/
theorem longWord_commit {i : Instr} {s : State} {c : Ctx} {cls : Nat} {srcs : List (Nat × Nat)} {d n : Nat}
    {occ : Ctx → Nat} {f : Ctx → Nat → List Nat → AluOut} (hr : Runs i s c)
    (hx : exec i s = .next (longWord i s cls srcs d n occ f)) (hn : 0 < n) :
    LongCommit i s c cls srcs d n (occ c) (f c) := by
  unfold LongCommit
  intro g os owed hsrc ht hd
  have hc := ctxOf_some hr.1.2
  have hsound := hr.1.1
  have hfault : (if d < 256 || c.act.isEmpty then none
      else s.sendFault c.tm (c.tm.chans.getD (d - 256) 0) [1, 2, 3]) = none := by
    rcases hd with hd | hd
    · simp [hd]
    · split
      · rfl
      · exact hd
  have hrun := runWord_runs hr fun c => withSources c srcs <|
          match (if d < 256 || c.act.isEmpty then none else s.sendFault c.tm (c.tm.chans.getD (d - 256) 0) [1, 2, 3]) with
          | some cause => .trap s [] cause 0 0
          | none =>
            match runThreads (longStep c srcs d n (s.issue c.gid c.tm.id cls (if c.act.isEmpty then [] else [c.lead])).1 (f c))
                (occ c) (s.issue c.gid c.tm.id cls (if c.act.isEmpty then [] else [c.lead])).2 c.act [] with
            | .done s' occ => .done (s'.settleTicket (s.issue c.gid c.tm.id cls (if c.act.isEmpty then [] else [c.lead])).1 c.lead) occ
            | .trap s' com cause a b =>
              .trap (s'.settleTicket (s.issue c.gid c.tm.id cls (if c.act.isEmpty then [] else [c.lead])).1 c.lead) com cause a b
            | .hold s' com w =>
              .hold (s'.settleTicket (s.issue c.gid c.tm.id cls (if c.act.isEmpty then [] else [c.lead])).1 c.lead) com w
            | .left s' => .left s'
  rw [longWord_eq, hrun, withSources_ready hc.1 hsrc, hfault] at hx
  by_cases hact : c.act = []
  · have hg : g = s := by
      show (gatherSrcs c srcs s c.act).2 = s
      rw [hact]; rfl
    have hset : s.settleTicket 0 c.lead = s := by
      unfold State.settleTicket
      rw [settle_others _ _ _ fun t ht => by have := (hsound.1.2 t ht).1; omega]
    refine ⟨s, ?_, by rw [hg], fun _ => rfl, fun h => absurd hact h⟩
    have hos : os = [] := by
      show resultsOf c s srcs (f c) = []
      unfold resultsOf
      rw [hact]
      rfl
    unfold Commits
    rw [hx, hos, hact]
    show Host.Outcome.next (finish c (.done (s.settleTicket 0 c.lead) (occ c))) = _
    rw [hset]
    rfl
  · have hne : c.act.isEmpty = false := by cases h : c.act <;> simp_all
    have hz : c.act.zip os ≠ [] ∧ ∃ r o rest, c.act.zip os = (r, o) :: rest ∧ r = c.lead := by
      have hlen := gatherSrcs_length c srcs s c.act
      have hos : os = (c.act.zip (gatherSrcs c srcs s c.act).1).map fun p => f c p.1 p.2 := rfl
      rw [hos]
      unfold Ctx.lead
      cases ha : c.act with
      | nil => exact absurd ha hact
      | cons r rs =>
        rw [ha] at hlen
        cases hgq : (gatherSrcs c srcs s (r :: rs)).1 with
        | nil => rw [hgq] at hlen; simp at hlen
        | cons x xs => exact ⟨by simp, r, f c r x, _, rfl, rfl⟩
    have howed : owed = (c.act.zip os).flatMap fun q => actsOf c d n q.1 q.2 := rfl
    have hnonempty : owed ≠ [] := by
      obtain ⟨-, r, o, rest, hzip, hlead⟩ := hz
      rw [howed, hzip, List.flatMap_cons]
      have : actsOf c d n r o ≠ [] := by
        unfold actsOf resultActs
        split
        · simp
        · subst hlead
          simp only [bne_self_eq_false, Bool.and_false, Bool.false_eq_true, if_false]
          split
          · simp
          · simp; omega
      intro h
      exact this (List.append_eq_nil_iff.1 h).1
    simp only [hne, Bool.false_eq_true, if_false, issue_cons] at hx
    have hres : ∀ a ts, resultsFrom c { s with nextId := a, tickets := ts } srcs (f c) c.act = os := by
      intro a ts
      unfold resultsFrom
      rw [gatherSrcs_issue]
      rfl
    rw [runThreads_long c srcs d n s.nextId (occ c) (f c) hn _ _ _ (by rw [hres]; exact ht), hres, gatherSrcs_issue] at hx
    have hgt : g.tickets = s.tickets := by show (gatherSrcs c srcs s c.act).2.tickets = _; rw [gatherSrcs_eq]
    have hgr : g.results = s.results := by show (gatherSrcs c srcs s c.act).2.results = _; rw [gatherSrcs_eq]
    refine ⟨(owedState s.nextId c.tm.id (({ g with nextId := s.nextId + 1, tickets := s.tickets ++
        [({ id := s.nextId, cls, team := c.tm.id, gangs := [c.gid], parts := [c.lead] } : Ticket)] } : State))
        owed).settleTicket s.nextId c.lead, ?_, rfl, fun h => absurd h hact, fun _ => ⟨rfl, ?_, ?_⟩⟩
    · unfold Commits
      rw [hx, countAll_settle]
      rfl
    · have hold : ∀ t ∈ s.tickets, t.id ≠ s.nextId := fun t ht => by have := (hsound.1.2 t ht).2; omega
      show ((List.map _ (List.map _ (s.tickets ++ _))).filter _) = _
      simp only [List.map_append, List.filter_append, owe_others _ _ _ hold, settle_others _ _ _ hold]
      congr 1
      have hp : (owed.map (·.1)).isEmpty = false := by
        cases h : owed with
        | nil => exact absurd h hnonempty
        | cons => rfl
      simp [hp]
    · show g.results ++ _ = _
      rw [hgr]

/-- All that a word with a long result does. -/
theorem longWord_result {i : Instr} {s : State} {c : Ctx} {cls : Nat} {srcs : List (Nat × Nat)} {d n : Nat}
    {occ : Ctx → Nat} {f : Ctx → Nat → List Nat → AluOut} (hr : Runs i s c)
    (hx : exec i s = .next (longWord i s cls srcs d n occ f)) (hn : 0 < n) :
    LongWordResult i s c cls srcs d n (occ c) (f c) := by
  refine ⟨longWord_commit hr hx hn, ?_, fun hd hact hsrc cause hf => ?_⟩
  · rw [longWord_eq] at hx
    exact withSources_waits hr hx
  have hc := (ctxOf_some hr.1.2).1
  have hne : c.act.isEmpty = false := by cases h : c.act <;> simp_all
  rw [longWord_eq, runWord_runs hr, withSources_ready hc hsrc] at hx
  rw [if_neg (by simp [hne, Nat.not_lt.mpr hd])] at hx
  simp only [hf] at hx
  simpa [TrapsAt, finish, filter_all] using hx

theorem LongWordResult.congr {i : Instr} {s : State} {c : Ctx} {cls : Nat} {srcs : List (Nat × Nat)} {d n occ : Nat}
    {f f' : Nat → List Nat → AluOut} (h : LongWordResult i s c cls srcs d n occ f)
    (hf : ∀ r ∈ c.act, ∀ xs, Sized srcs xs → f r xs = f' r xs) : LongWordResult i s c cls srcs d n occ f' := by
  unfold LongWordResult LongCommit at *
  rw [resultsOf_congr hf] at h
  exact h

end Sys2Proof.Machine
end

