-- ==== Sys2Proof/Laws/Predicates.lean ====
section
/-! SUPPORT. What a word with a predicate result leaves. -/

namespace Sys2Proof.Machine

open Sys2Proof

theorem preds_bit (x : BitVec 7) (p : Nat) (v : Bool) (hp : p < 7) (q : Nat) (hq : q < 7) :
    (if v then x ||| (1#7 <<< p) else x &&& ~~~(1#7 <<< p)).toNat.testBit q = if q = p then v else x.toNat.testBit q := by
  rw [BitVec.testBit_toNat, BitVec.testBit_toNat]
  by_cases h : q = p
  · subst h
    cases v <;> simp [hq]
  · have h1 : decide (q - p = 0) = false ∨ q < p := by
      rw [decide_eq_false_iff_not]
      omega
    cases v <;> rcases h1 with h1 | h1 <;> simp [h, hq, h1]

/-- The predicates of a thread after one is written. -/
theorem State.pred_setPred (s : State) (t r p : Nat) (v : Bool) (t' r' q : Nat) :
    ((s.setPred t r p v).thread t' r').pred q =
      if t' = t ∧ r' = r ∧ q = p ∧ p < 7 ∧ (s.threads.any fun x => x.team == t && x.rank == r) = true then v
      else (s.thread t' r').pred q := by
  unfold State.setPred
  by_cases hp : p < 7
  · rw [if_pos hp, State.thread_updThread s t r t' r' (fun t => { t with preds := if v then t.preds ||| (1#7 <<< p) else t.preds &&& ~~~(1#7 <<< p) })
      fun _ => ⟨rfl, rfl⟩]
    by_cases hc : t' = t ∧ r' = r ∧ (s.threads.any fun x => x.team == t && x.rank == r) = true
    · rw [if_pos hc]
      obtain ⟨rfl, rfl, ha⟩ := hc
      unfold Thread.pred
      dsimp only
      by_cases hq7 : q < 7
      · rw [preds_bit _ _ _ hp _ hq7]
        by_cases hq : q = p
        · subst hq
          have : (q == 7) = false := by simp; omega
          simp [this, ha, hp]
        · rw [if_neg hq, if_neg (fun h => hq h.2.2.1)]
      · have hlt : ∀ y : BitVec 7, y.toNat.testBit q = false := fun y => by
          rw [BitVec.testBit_toNat]
          exact BitVec.getLsbD_of_ge _ _ (by omega)
        rw [hlt, hlt, if_neg]
        rintro ⟨-, -, rfl, h, -⟩
        exact hq7 h
    · rw [if_neg hc, if_neg (fun h => hc ⟨h.1, h.2.1, h.2.2.2.2⟩)]
  · rw [if_neg hp, if_neg (fun h => hp h.2.2.2.1)]

/-- From `s` to `u` nothing but predicates differs. -/
def OnlyPreds (s u : State) : Prop :=
  u = { s with threads := u.threads } ∧
  (u.threads.map fun (t : Thread) => { t with preds := 0 }) = (s.threads.map fun (t : Thread) => { t with preds := 0 })

theorem OnlyPreds.refl (s : State) : OnlyPreds s s := ⟨rfl, rfl⟩

theorem OnlyPreds.trans {s u v : State} (h : OnlyPreds s u) (h' : OnlyPreds u v) : OnlyPreds s v := by
  obtain ⟨h1, h2⟩ := h
  obtain ⟨h3, h4⟩ := h'
  refine ⟨?_, h4.trans h2⟩
  rw [h3, h1]

theorem State.setPred_only (s : State) (t r p : Nat) (v : Bool) : OnlyPreds s (s.setPred t r p v) := by
  unfold State.setPred
  split
  · exact ⟨rfl, map_blank _ _ _ _ fun _ => rfl⟩
  · exact .refl s

theorem OnlyPreds.anyThread {s u : State} (h : OnlyPreds s u) (t r : Nat) :
    (u.threads.any fun x => x.team == t && x.rank == r) = s.threads.any fun x => x.team == t && x.rank == r :=
  any_blank _ _ _ _ h.2 fun _ => rfl

/-- Write the predicates of several threads. -/
def predAll (c : Ctx) (d : Nat) (s : State) (l : List (Nat × Bool)) : State :=
  l.foldl (fun s q => s.setPred c.tm.id q.1 d q.2) s

theorem predAll_only (c : Ctx) (d : Nat) (s : State) (l : List (Nat × Bool)) : OnlyPreds s (predAll c d s l) := by
  induction l generalizing s with
  | nil => exact .refl s
  | cons q l ih => exact (State.setPred_only ..).trans (ih _)

theorem pred_predAll (c : Ctx) (d : Nat) (s : State) (l : List (Nat × Bool)) (t' r' q : Nat) :
    ((predAll c d s l).thread t' r').pred q =
      if t' = c.tm.id ∧ q = d ∧ d < 7 ∧ (s.threads.any fun x => x.team == t' && x.rank == r') = true then
        ((l.reverse.find? fun p => p.1 == r').map (·.2)).getD ((s.thread t' r').pred q)
      else (s.thread t' r').pred q := by
  induction l generalizing s with
  | nil => simp [predAll]
  | cons p l ih =>
    have hstep : predAll c d s (p :: l) = predAll c d (s.setPred c.tm.id p.1 d p.2) l := rfl
    rw [hstep, ih, State.pred_setPred, (s.setPred_only ..).anyThread]
    by_cases hc : t' = c.tm.id ∧ q = d ∧ d < 7 ∧ (s.threads.any fun x => x.team == t' && x.rank == r') = true
    · rw [if_pos hc, if_pos hc, List.reverse_cons, List.find?_append]
      cases hf : l.reverse.find? fun p => p.1 == r' with
      | some p' => simp
      | none =>
        simp only [Option.none_or, List.find?_cons, List.find?_nil]
        obtain ⟨h1, h2, h3, h4⟩ := hc
        by_cases hr : p.1 = r'
        · subst hr
          rw [if_pos ⟨h1, rfl, h2, h3, by rw [← h1]; exact h4⟩]
          simp
        · rw [if_neg (fun h => hr h.2.1.symm)]
          have : (p.1 == r') = false := by simpa using hr
          simp [this]
    · rw [if_neg hc, if_neg hc, if_neg]
      rintro ⟨h1, h2, h3, h4, h5⟩
      exact hc ⟨h1, h3, h4, by rw [h1, h2]; exact h5⟩

theorem setPred_inbox (s : State) (m : List Queued) (z : List CounterSet) (t r p : Nat) (v : Bool) :
    ({ s with inbox := m, sets := z } : State).setPred t r p v = { s.setPred t r p v with inbox := m, sets := z } := by
  unfold State.setPred
  split <;> rfl

theorem gatherSrcs_setPred (c : Ctx) (srcs : List (Nat × Nat)) (s : State) (rs : List Nat) (t r p : Nat) (v : Bool) :
    gatherSrcs c srcs (s.setPred t r p v) rs =
      ((gatherSrcs c srcs s rs).1, (gatherSrcs c srcs s rs).2.setPred t r p v) := by
  have h1 : (s.setPred t r p v).inbox = s.inbox := by rw [(s.setPred_only t r p v).1]
  have h2 : (s.setPred t r p v).sets = s.sets := by rw [(s.setPred_only t r p v).1]
  rw [gatherSrcs_eq, gatherSrcs_eq c srcs s, h1, h2]
  exact congrArg (Prod.mk _) (setPred_inbox ..).symm

/-- What one thread does at a word with a predicate result. -/
def predStep (c : Ctx) (srcs : List (Nat × Nat)) (d : Nat) (f : Nat → List Nat → Bool) (s : State) (rank : Nat) :
    ThreadOut :=
  let (xs, s1) := readSrcs c rank s srcs
  .ok (s1.setPred c.tm.id rank d (f rank xs))

theorem predWord_eq (i : Instr) (s : State) (srcs : List (Nat × Nat)) (d : Nat) (occ : Ctx → Nat)
    (f : Ctx → Nat → List Nat → Bool) :
    predWord i s srcs d occ f =
      runWord i s fun c => withSources c srcs <| runThreads (predStep c srcs d (f c)) (occ c) s c.act [] := rfl

theorem runThreads_pred (c : Ctx) (srcs : List (Nat × Nat)) (d occ : Nat) (f : Nat → List Nat → Bool) (s : State)
    (rs com : List Nat) :
    runThreads (predStep c srcs d f) occ s rs com =
      .done (predAll c d (gatherSrcs c srcs s rs).2 ((rs.zip (gatherSrcs c srcs s rs).1).map fun p => (p.1, f p.1 p.2))) occ := by
  induction rs generalizing s com with
  | nil => rfl
  | cons r rs ih =>
    rw [runThreads]
    show runThreads (predStep c srcs d f) occ ((readSrcs c r s srcs).2.setPred c.tm.id r d (f r (readSrcs c r s srcs).1)) rs
      (com ++ [r]) = _
    rw [ih, gatherSrcs_setPred]
    rfl

theorem find_map_zip (c : Ctx) (xs : List (List Nat)) (f : Nat → List Nat → Bool) (r : Nat) :
    ((((c.act.zip xs).map fun p => (p.1, f p.1 p.2)).reverse.find? fun p => p.1 == r).map (·.2)) =
      (resultFor c.act xs r).map fun ys => f r ys := by
  unfold resultFor
  rw [← List.map_reverse, List.find?_map]
  have : (fun p : Nat × Bool => p.1 == r) ∘ (fun p : Nat × List Nat => (p.1, f p.1 p.2)) = fun p => p.1 == r := rfl
  rw [this]
  cases hf : (c.act.zip xs).reverse.find? fun p => p.1 == r with
  | none => rfl
  | some p =>
    have := List.find?_some hf
    simp only [beq_iff_eq] at this
    subst this
    rfl

/-- What a word with a predicate result does. -/
theorem predWord_commit {i : Instr} {s : State} {c : Ctx} {srcs : List (Nat × Nat)} {d : Nat} {occ : Ctx → Nat}
    {f : Ctx → Nat → List Nat → Bool} (hr : Runs i s c) (hx : exec i s = .next (predWord i s srcs d occ f)) :
    PredicateCommit i s c srcs d (occ c) (f c) := by
  unfold PredicateCommit
  intro g xs hsrc
  have hc := ctxOf_some hr.1.2
  have hrun : predWord i s srcs d occ f = finish c (runThreads (predStep c srcs d (f c)) (occ c) s c.act []) := by
    rw [predWord_eq, runWord_runs hr, withSources_ready hc.1 hsrc]
  have hg : g.threads = s.threads := by show (gatherSrcs c srcs s c.act).2.threads = _; rw [gatherSrcs_eq]
  have hgt : ∀ t r, g.thread t r = s.thread t r := by
    intro t r
    unfold State.thread
    rw [hg]
  have hall := predAll_only c d g ((c.act.zip xs).map fun p => (p.1, f c p.1 p.2))
  refine ⟨predAll c d g ((c.act.zip xs).map fun p => (p.1, f c p.1 p.2)), ?_, hall.1, ?_, ?_, ?_⟩
  · unfold Commits
    rw [hx, hrun, runThreads_pred]
  · rw [hall.2, hg]
  · intro r ys hy hd hex
    rw [pred_predAll, if_pos ⟨rfl, rfl, hd, by rw [hg]; exact hex⟩, find_map_zip, hy]
    rfl
  · intro team rank p hne
    rw [pred_predAll]
    split
    · rename_i hh
      obtain ⟨h1, h2, h3, h4⟩ := hh
      rw [find_map_zip]
      cases hres : resultFor c.act xs rank with
      | none => simp [hgt]
      | some ys =>
        exfalso
        apply hne
        refine ⟨h1, ?_, h2, h3⟩
        unfold resultFor at hres
        cases hf : (c.act.zip xs).reverse.find? fun q => q.1 == rank with
        | none => rw [hf] at hres; simp at hres
        | some q =>
          have e1 := List.find?_some hf
          have e2 := List.mem_reverse.1 (List.mem_of_find?_eq_some hf)
          simp only [beq_iff_eq] at e1
          rw [← e1]
          exact (List.of_mem_zip e2).1
    · rw [hgt]

/-- All that a word with a predicate result does. -/
theorem predWord_result {i : Instr} {s : State} {c : Ctx} {srcs : List (Nat × Nat)} {d : Nat} {occ : Ctx → Nat}
    {f : Ctx → Nat → List Nat → Bool} (hr : Runs i s c) (hx : exec i s = .next (predWord i s srcs d occ f)) :
    PredicateResult i s c srcs d (occ c) (f c) := ⟨predWord_commit hr hx, withSources_waits hr hx⟩

theorem PredicateCommit.congr {i : Instr} {s : State} {c : Ctx} {srcs : List (Nat × Nat)} {d occ : Nat}
    {f f' : Nat → List Nat → Bool} (h : PredicateCommit i s c srcs d occ f)
    (hf : ∀ r ∈ c.act, ∀ xs, Sized srcs xs → f r xs = f' r xs) : PredicateCommit i s c srcs d occ f' := by
  unfold PredicateCommit at *
  intro g xs hsrc
  obtain ⟨u, h1, h2, h3, h4, h5⟩ := h hsrc
  refine ⟨u, h1, h2, h3, fun r ys hy hd hex => ?_, h5⟩
  rw [h4 r ys hy hd hex]
  unfold resultFor at hy
  cases hfind : (c.act.zip xs).reverse.find? fun q => q.1 == r with
  | none => rw [hfind] at hy; simp at hy
  | some q =>
    rw [hfind] at hy
    have e1 := List.find?_some hfind
    have e2 := List.of_mem_zip (List.mem_reverse.1 (List.mem_of_find?_eq_some hfind))
    simp only [beq_iff_eq] at e1
    simp only [Option.map_some, Option.some.injEq] at hy
    rw [← hy]
    exact hf r (e1 ▸ e2.1) q.2 (gatherSrcs_sized c srcs s c.act q.2 e2.2)

theorem PredicateResult.congr {i : Instr} {s : State} {c : Ctx} {srcs : List (Nat × Nat)} {d occ : Nat}
    {f f' : Nat → List Nat → Bool} (h : PredicateResult i s c srcs d occ f)
    (hf : ∀ r ∈ c.act, ∀ xs, Sized srcs xs → f r xs = f' r xs) : PredicateResult i s c srcs d occ f' := ⟨h.1.congr hf, h.2⟩

end Sys2Proof.Machine
end

