-- ==== Sys2Proof/Tests/Slice0.lean ====
section
/-! SUPPORT. Tests: words written out field by field from the encoding tables of spec/ decode to their instructions, a field
that breaks a check is refused, worked examples of the spec, and for each statement of Certificates/Slice0 a state and
operands that meet its hypotheses. Expected values come from the spec. -/

namespace Sys2Proof.Tests

open Sys2Proof Sys2Proof.Machine

set_option Elab.async false

/-! ### Words, field by field -/

/-- A word from its fields: (lowest bit, value). -/
def wordOf (fs : List (Nat × Nat)) : DWord := BitVec.ofNat 64 ((fs.map fun f => f.2 * 2 ^ f.1).foldl (· + ·) 0)

/-- A format A word (02_encoding.md R34) with guard p7 decodes to the constructor's instruction. -/
def rowA (c : FmtA → Instr) (op d s1 s2 s3 t m : Nat) : Bool :=
  decide (decode (wordOf [(56, op), (52, 7), (43, d), (33, s1), (23, s2), (13, s3), (8, t), (0, m)]) =
    .ok (c { p := 7, d := .ofNat 9 d, s1 := .ofNat 10 s1, s2 := .ofNat 10 s2, s3 := .ofNat 10 s3, t := .ofNat 5 t, m := .ofNat 8 m }))

/-- Format I (R35). -/
def rowI (c : FmtI → Instr) (op d s1 h imm : Nat) : Bool :=
  decide (decode (wordOf [(56, op), (52, 7), (43, d), (33, s1), (32, h), (0, imm)]) =
    .ok (c { p := 7, d := .ofNat 9 d, s1 := .ofNat 10 s1, h := .ofNat 1 h, imm := .ofNat 32 imm }))

/-- Format B (R39). -/
def rowB (c : FmtB → Instr) (op d s1 k off : Nat) : Bool :=
  decide (decode (wordOf [(56, op), (52, 7), (43, d), (33, s1), (32, k), (0, off)]) =
    .ok (c { p := 7, d := .ofNat 9 d, s1 := .ofNat 10 s1, k := .ofNat 1 k, off := .ofNat 32 off }))

/-- Format M (R36). -/
def rowM (c : FmtM → Instr) (op d a x off w sc or pl n : Nat) : Bool :=
  decide (decode (wordOf [(56, op), (52, 7), (43, d), (33, a), (23, x), (11, off), (8, w), (5, sc), (3, or), (1, pl), (0, n)]) =
    .ok (c { p := 7, d := .ofNat 9 d, a := .ofNat 10 a, x := .ofNat 10 x, off := .ofNat 12 off, w := .ofNat 3 w, sc := .ofNat 3 sc,
             or := .ofNat 2 or, pl := .ofNat 2 pl, c := .ofNat 1 n }))

/-- Format N (R38). -/
def rowN (c : FmtN → Instr) (op d a x off ao w sc or pl n : Nat) : Bool :=
  decide (decode (wordOf [(56, op), (52, 7), (43, d), (33, a), (23, x), (15, off), (11, ao), (8, w), (5, sc), (3, or), (1, pl),
      (0, n)]) =
    .ok (c { p := 7, d := .ofNat 9 d, a := .ofNat 10 a, x := .ofNat 10 x, off := .ofNat 8 off, ao := .ofNat 4 ao, w := .ofNat 3 w,
             sc := .ofNat 3 sc, or := .ofNat 2 or, pl := .ofNat 2 pl, c := .ofNat 1 n }))

/-- Format E (R41). -/
def rowE (c : FmtE → Instr) (op q d s1 s2 imm : Nat) : Bool :=
  decide (decode (wordOf [(56, op), (52, 7), (48, q), (39, d), (29, s1), (19, s2), (0, imm)]) =
    .ok (c { p := 7, q := .ofNat 4 q, d := .ofNat 9 d, s1 := .ofNat 10 s1, s2 := .ofNat 10 s2, imm := .ofNat 19 imm }))

theorem test_decode_control : ([
    rowA .nop 0x00 0 0 0 0 0 0,
    rowA .reform 0x05 0 0 0 0 0 0,
    rowA .exit 0x06 0 0 0 0 0 0,
    rowA .yield 0x08 0 0 0 0 0 0,
    rowA .brk 0x0C 0 0 0 0 0 0,
    rowA .beat 0x09 0 0 0 0 0 0,
    rowA .vote 0x0E 40 1 0 0 3 0,
    rowA .shfl 0x0F 40 41 42 43 2 0,
    rowI .trap 0x07 0 0 0 0x12345678,
    rowI .svc 0x0D 0 0 0 9,
    rowI .ppt 0x0B 0 0 0 0x80000001,
    rowB .bra 0x01 0 0 0 0xfffffff0,
    rowB .brx 0x02 0 6 1 3,
    rowB .call 0x03 8 0 0 20,
    rowB .callRegister 0x03 8 6 1 4,
    rowB .ret 0x04 0 6 1 0].all id) = true := by decide +kernel

theorem test_decode_integer : ([
    rowA .iadd 0x10 3 1 2 0 1 16,
    rowA .isub 0x11 4 6 8 0 2 0,
    rowA .imul 0x12 3 1 2 0 0 16,
    rowA .imulh 0x13 3 1 2 0 1 0,
    rowA .imad 0x14 3 1 2 5 1 0,
    rowA .imin 0x17 3 1 2 0 13 0,
    rowA .imax 0x18 3 1 2 0 4 0,
    rowA .iabs 0x19 3 1 0 0 4 16,
    rowA .ineg 0x1A 3 1 0 0 1 0,
    rowA .and 0x1B 3 1 2 0 11 0,
    rowA .or 0x1C 4 6 8 0 12 0,
    rowA .xor 0x1D 3 1 2 0 11 0,
    rowA .not 0x1E 3 1 0 0 11 0,
    rowA .shl 0x22 4 6 9 0 12 0,
    rowA .shr 0x23 3 1 2 0 11 0,
    rowA .sar 0x24 3 1 2 0 11 0,
    rowA .fsh 0x25 3 1 2 5 11 0,
    rowA .bfx 0x26 3 1 2 0 1 0,
    rowA .bfi 0x27 3 1 2 5 11 0,
    rowA .popc 0x28 3 6 0 0 12 0,
    rowA .clz 0x29 3 1 0 0 11 0,
    rowA .brev 0x2A 3 1 0 0 11 0,
    rowA .isetp 0x2B 5 1 2 10 1 0,
    rowA .sel 0x2C 3 1 2 6 11 0,
    rowA .mov 0x2E 3 1 0 0 11 0,
    rowA .lea 0x2F 4 6 9 11 1 0,
    rowA .idiv 0x30 3 1 2 0 0 16,
    rowA .irem 0x31 3 1 2 0 1 0,
    rowA .plop 0x32 1 2 3 0 6 0,
    rowA .pmovGet 0x33 3 0 0 0 0 0,
    rowA .pmovSet 0x33 0 3 0 0 1 0,
    rowA .pmovNz 0x33 4 3 0 0 2 0,
    rowA .pmovSel 0x33 3 4 0 0 3 0,
    rowA .icvt 0x34 3 6 2 0 1 16,
    rowA .idot4 0x35 3 1 2 5 13 16,
    rowA .movs 0x36 4 5 0 0 12 0,
    rowA .movsw 0x37 12 5 0 0 11 0,
    rowA .codeSegmentSwitch 0x37 17 5 0 0 11 0,
    rowA .rget 0x38 3 1 2 0 11 0,
    rowA .rput 0x39 0 1 2 5 11 0,
    rowI .iaddi 0x15 4 6 1 0xffffffff,
    rowI .imuli 0x16 3 1 0 77,
    rowI .andi 0x1F 3 1 0 0xf0f0,
    rowI .ori 0x20 3 1 0 1,
    rowI .xori 0x21 4 6 1 2,
    rowI .movi 0x2D 3 0 0 0xdeadbeef].all id) = true := by decide +kernel

theorem test_decode_float : ([
    rowA .fadd 0x40 3 1 2 0 5 129,
    rowA .fsub 0x41 4 6 8 0 6 16,
    rowA .fmul 0x42 3 1 2 0 7 2,
    rowA .ffma 0x43 3 1 2 5 9 8,
    rowA .fmin 0x44 3 1 2 0 5 4,
    rowA .fmax 0x45 3 1 2 0 10 1,
    rowA .fdiv 0x46 3 1 2 0 5 97,
    rowA .fsqrt 0x47 3 1 0 0 5 8,
    rowA .frcp 0x48 4 6 0 0 6 0,
    rowA .frsq 0x49 3 1 0 0 5 2,
    rowA .fexp2 0x4A 3 1 0 0 7 0,
    rowA .flog2 0x4B 3 1 0 0 8 0,
    rowA .fsin 0x4C 3 1 0 0 5 0,
    rowA .fcos 0x4D 3 1 0 0 5 16,
    rowA .ftanh 0x4E 3 1 0 0 5 0,
    rowA .fsetp 0x4F 2 1 3 29 5 2,
    rowA .fclassPredicate 0x50 2 1 513 0 5 1,
    rowA .fclassRegister 0x50 3 1 0 1 5 0,
    rowA .fcvt 0x51 3 6 6 0 5 32,
    rowA .f2i 0x52 3 1 5 0 1 1,
    rowA .i2f 0x53 4 1 1 0 6 16,
    rowA .frnd 0x54 3 1 0 0 5 96,
    rowA .fscale 0x55 3 1 2 0 5 8,
    rowA .fdot2 0x56 3 1 2 5 10 0,
    rowA .fpack 0x57 3 1 2 0 9 0,
    rowA .funpk 0x58 3 1 1 0 9 2,
    rowA .ncvtEnc 0x59 3 1 2 9 5 64,
    rowA .ncvtDec 0x59 3 1 2 521 5 0,
    rowI .fmtw 0x5A 7 0 0 0xc60e].all id) = true := by decide +kernel

theorem test_decode_glaze : ([
    rowA .tget 0x60 3 1 0 2 11 0,
    rowA .tset 0x61 4 6 0 1 12 0,
    rowA .tzero 0x62 3 0 0 5 11 0,
    rowA .tseed 0x63 4 1 0 7 6 0,
    rowA .gpln 0x64 3 1 0 4 1 0,
    decide (decode (wordOf [(56, 0x0A), (52, 7), (48, 3), (44, 5), (42, 1)]) = .ok (.glz { p := 7, n := 3, msk := 5, md := 1, z := 0 }))].all id) = true := by decide +kernel

theorem test_decode_pool : ([
    rowA .casp 0x76 4 1 6 8 12 11,
    rowA .tbar 0x7C 0 0 0 0 2 0,
    rowM .ldp 0x70 4 6 255 0xfff 3 2 1 0 1,
    rowM .stp 0x71 16 6 7 5 4 1 3 0 0,
    rowM .ldpf 0x72 4 6 255 1 3 0 0 0 1,
    rowM .stpe 0x73 4 6 255 2 2 1 3 0 0,
    rowM .feset 0x74 4 6 255 2 3 0 0 0 0,
    rowM .mcst 0x77 4 6 8 2 2 0 0 0 0,
    rowN .atomp 0x75 4 6 7 129 12 3 1 3 0 1].all id) = true := by decide +kernel

theorem test_decode_global : ([
    rowA .casg 0x91 3 2 1 5 11 23,
    rowN .atomg 0x90 4 6 7 129 8 3 5 1 2 1,
    rowN .redg 0x95 4 6 255 3 11 2 3 3 1 0,
    rowN .ldk 0x92 8 6 255 1 0 4 1 1 0 0,
    rowN .sibl 0x93 4 6 255 1 2 3 0 0 1 1,
    rowN .recon 0x94 8 6 7 2 10 4 3 2 0 0].all id) = true := by decide +kernel

theorem test_decode_matrix : ([
    rowA .spkc 0xBA 4 6 9 0 11 0,
    rowA .qblk 0xBD 4 1 9 0 5 0,
    rowE .pres 0xB0 0 3 6 7 0x3fff,
    rowE .presOrg 0xB0 0 0 6 0 0x4005,
    rowE .pfree 0xB1 0 0 0 0 63,
    rowE .easld 0xB2 0 0 6 0 0x40001,
    rowE .accal 0xB5 0 3 6 0 0,
    rowE .accfr 0xB6 0 0 6 0 0,
    rowE .accz 0xB7 0 0 0 0 0x1fff,
    rowE .accrd 0xB8 0 8 6 0 485,
    rowE .accwr 0xB9 0 8 6 0 357,
    rowE .mwait 0xBB 0 3 0 0 63,
    rowE .mclass 0xBC 0 0 0 0 3,
    rowE .pwr 0xBE 0 0 6 8 197,
    rowE .mstat 0xBF 0 4 0 0 1,
    decide (decode (wordOf [(56, 0xB3), (52, 7), (46, 5), (40, 9), (30, 700), (18, 33), (9, 0x1FE), (0, 1)]) = .ok (.mloop { p := 7, acc := 5, sa := 9, eb := 700, ks := 33, ia := 0x1FE, ib := 1 })),
    decide (decode (wordOf [(56, 0xB4), (52, 7), (46, 5), (40, 9), (30, 700), (22, 2), (14, 40), (12, 1), (6, 62), (0, 3)]) = .ok (.mloops { p := 7, acc := 5, sa := 9, eb := 700, ks := 2, mv := 40, pat := 1, ia := 62, ib := 3 }))].all id) = true := by decide +kernel

theorem test_decode_sync : ([
    rowM .bari 0x7D 4 6 7 3 4 0 0 0 0,
    rowM .barx 0x79 4 6 7 3 4 0 0 0 0,
    rowM .bara 0x7A 4 6 7 3 4 0 0 0 0,
    rowM .barw 0x7B 3 6 4 3 4 0 0 0 0,
    rowM .rngi 0x80 4 6 7 3 5 0 0 0 0,
    rowM .rngwWr 0x7E 4 6 7 3 1 0 0 0 0,
    rowM .rngwRd 0x7E 4 6 7 3 0 0 0 0 0,
    rowM .rngsWr 0x7F 4 6 7 3 1 0 0 0 0,
    rowM .rngsRd 0x7F 4 6 7 3 0 0 0 0 0].all id) = true := by decide +kernel

theorem test_decode_ordering : ([
    rowM .fence 0x81 0 0 0 0 0 3 2 0 0,
    rowM .sight 0x83 0 0 0 0 0 0 0 0 0,
    rowE .fenceq 0x82 3 0 0 0 0x40001].all id) = true := by decide +kernel

theorem test_decode_region : ([
    rowM .rflush 0x85 4 6 255 3 0 4 3 0 0,
    rowM .rinv 0x86 4 6 255 3 1 0 0 0 0,
    rowM .rpref 0x87 4 6 255 3 0 0 0 0 0,
    rowE .rmap 0x84 0 0 6 0 37,
    rowE .rmapUnmap 0x84 0 0 0 0 101].all id) = true := by decide +kernel

theorem test_decode_copy : ([
    rowE .tcopy 0xA0 11 3 6 0 2,
    rowE .tstore 0xA1 1 3 6 0 1,
    rowE .tgather 0xA2 2 3 6 7 0,
    rowE .tscat 0xA3 3 3 6 7 1,
    rowE .tlay 0xA4 0 3 6 8 3,
    rowE .tstream 0xA5 1 0 6 7 2,
    rowE .tdrain 0xA6 1 0 6 7 1,
    rowE .twait 0xA7 5 3 0 0 0,
    rowE .tcancel 0xA8 6 0 0 0 0].all id) = true := by decide +kernel

theorem test_decode_tasks : ([
    rowE .spawn 0xC0 0 3 6 8 3,
    rowE .launch 0xC1 0 3 6 0 0,
    rowE .park 0xC2 0 0 6 16 0xffff,
    rowE .tqpop 0xC3 0 8 6 0 1,
    rowE .joinw 0xC4 0 3 6 0 0,
    rowE .steal 0xC5 0 8 6 0 0].all id) = true := by decide +kernel

theorem test_decode_messages : ([
    rowE .chcfg 0xD0 0 3 6 0 63,
    rowE .chcfgClear 0xD0 0 3 0 0 127,
    rowE .send 0xD1 0 3 6 0 0x2fc5,
    rowE .recv 0xD2 0 16 0 0 0x4bc1,
    rowE .quiet 0xD3 0 3 0 0 5,
    rowE .qpoll 0xD4 0 3 0 0 0,
    rowE .msgh 0xD5 0 3 6 0 15,
    rowE .msghOff 0xD5 0 3 0 0 31,
    rowE .coll 0xD6 3 4 6 0 0,
    rowE .cwait 0xD7 2 4 0 0 0,
    rowE .lossn 0xD8 0 8 0 0 15].all id) = true := by decide +kernel

theorem test_decode_system : ([
    rowE .tlbiVa 0xE0 0 0 6 8 0,
    rowE .tlbiAsid 0xE0 0 0 6 0 1,
    rowE .tlbiAll 0xE0 0 0 0 0 2,
    rowE .capr 0xE1 0 8 6 0 0,
    rowE .statr 0xE2 0 4 6 0 784,
    rowE .statw 0xE3 0 0 6 8 512,
    rowE .halt 0xE3 0 0 6 8 18,
    rowE .wdog 0xE4 0 4 6 8 0,
    rowE .slogr 0xE5 0 8 6 7 0,
    rowE .slogpReplay 0xE6 0 0 6 7 0,
    rowE .slogpDrop 0xE6 0 0 6 7 1,
    rowE .slogpAll 0xE6 0 0 6 7 2,
    rowE .eret 0xE7 0 0 0 0 0,
    rowE .eretSkip 0xE7 0 0 0 0 1,
    rowE .eretPc 0xE7 0 0 6 0 2,
    rowE .ctxsv 0xE8 0 3 6 8 0x7ffff,
    rowE .ctxld 0xE9 0 3 6 8 0,
    rowE .preemptStop 0xEA 0 3 6 0 0,
    rowE .preemptForce 0xEA 0 3 6 0 1,
    rowE .preemptResume 0xEA 0 3 6 0 2].all id) = true := by decide +kernel
/-! ### Fields that break a check (02_encoding.md R33, R43 to R51)

One ill-formed term for each kind of check of WellFormed.lean, and for each of the checks that need the team. -/

def fA (d s1 s2 s3 t m : Nat) : FmtA :=
  { p := 7, d := .ofNat 9 d, s1 := .ofNat 10 s1, s2 := .ofNat 10 s2, s3 := .ofNat 10 s3, t := .ofNat 5 t, m := .ofNat 8 m }
def fI (d s1 h imm : Nat) : FmtI := { p := 7, d := .ofNat 9 d, s1 := .ofNat 10 s1, h := .ofNat 1 h, imm := .ofNat 32 imm }
def fB (d s1 k off : Nat) : FmtB := { p := 7, d := .ofNat 9 d, s1 := .ofNat 10 s1, k := .ofNat 1 k, off := .ofNat 32 off }
def fM (d a x off w sc or pl n : Nat) : FmtM :=
  { p := 7, d := .ofNat 9 d, a := .ofNat 10 a, x := .ofNat 10 x, off := .ofNat 12 off, w := .ofNat 3 w, sc := .ofNat 3 sc,
    or := .ofNat 2 or, pl := .ofNat 2 pl, c := .ofNat 1 n }
def fN (d a x off ao w sc or pl n : Nat) : FmtN :=
  { p := 7, d := .ofNat 9 d, a := .ofNat 10 a, x := .ofNat 10 x, off := .ofNat 8 off, ao := .ofNat 4 ao, w := .ofNat 3 w,
    sc := .ofNat 3 sc, or := .ofNat 2 or, pl := .ofNat 2 pl, c := .ofNat 1 n }
def fE (q d s1 s2 imm : Nat) : FmtE :=
  { p := 7, q := .ofNat 4 q, d := .ofNat 9 d, s1 := .ofNat 10 s1, s2 := .ofNat 10 s2, imm := .ofNat 19 imm }

theorem test_ill_formed_register_fields : ([
    -- a channel index above 63, as source and as destination
    .iadd (fA 3 576 2 0 0 0), .iadd (fA 320 1 2 0 0 0),
    -- a class 1 source that names no register
    .iadd (fA 3 256 2 0 0 0),
    -- an odd pair, g62 as a pair, as source, destination, and in fields without channels
    .iadd (fA 3 4 6 0 2 0), .iadd (fA 4 254 6 0 2 0), .fclassRegister (fA 257 1 0 1 5 0), .rget (fA 5 1 2 0 12 0),
    .launch (fE 0 3 7 0 0), .wdog (fE 0 4 6 9 0),
    -- a group of g registers, and fields that name v registers or zr alone
    .ldp (fM 200 6 255 0 4 0 0 0 0), .ret (fB 0 200 1 0), .call (fB 200 0 0 0), .slogr (fE 0 200 6 7 0),
    -- predicates and format registers out of range
    .isetp (fA 8 1 2 0 0 0), .sel (fA 3 1 2 8 11 0), .fmtw (fI 16 0 0 0xC60E),
    -- a run of registers past 191
    .send (fE 0 0 190 0 0x80), .park (fE 0 0 6 184 0), .mloops { p := 7, acc := 0, sa := 0, eb := 0, ks := 2, mv := 190, pat := 0, ia := 0, ib := 0 },
    .ldp (fM 191 6 255 0 2 0 0 0 1)] : List Instr).all (fun i => !i.wellFormed) = true := by decide +kernel

theorem test_ill_formed_other_fields : ([
    -- unused fields
    .nop (fA 1 0 0 0 0 0), .trap (fI 0 0 1 0), .bra (fB 0 1 0 0), .fence (fM 0 0 0 1 0 1 1 0 0), .eret (fE 0 0 0 0 2),
    .accz (fE 0 0 0 0 0x2000), .glz { p := 7, n := 1, msk := 1, md := 0, z := 1 },
    -- T and M
    .imul (fA 3 1 2 0 4 0), .iadd (fA 3 1 2 0 0 1), .imulh (fA 3 1 2 0 0 16), .fadd (fA 3 1 2 0 5 0xA0), .fmin (fA 3 1 2 0 5 16),
    .fdiv (fA 3 1 2 0 7 0), .shl (fA 3 1 2 0 0 0), .tbar (fA 0 0 0 0 4 0), .plop (fA 0 1 2 0 8 0), .vote (fA 3 1 0 0 8 0),
    -- GLZ, layers, conditions, literals
    .glz { p := 7, n := 0, msk := 1, md := 0, z := 0 }, .glz { p := 7, n := 1, msk := 1, md := 2, z := 0 }, .tget (fA 3 1 0 0 11 0),
    .tget (fA 3 1 0 5 11 0), .tzero (fA 3 0 0 16 11 0), .isetp (fA 1 1 2 6 0 0), .isetp (fA 1 1 2 128 0 0), .fsetp (fA 1 1 2 14 5 0),
    .fclassRegister (fA 3 1 0 2 5 0), .ncvtEnc (fA 3 1 2 16 5 0), .gpln (fA 3 1 0 5 1 0), .icvt (fA 3 1 4 0 0 0), .movs (fA 3 19 0 0 11 0),
    .movs (fA 4 4 0 0 11 0), .movsw (fA 0 1 0 0 11 0), .fmtw (fI 0 0 0 0x0200), .fmtw (fI 0 0 0 0x11600),
    -- width, scope, order, policy, count
    .ldp (fM 4 6 255 0 6 0 0 0 0), .ldp (fM 4 6 255 0 2 3 1 0 0), .ldp (fM 4 6 255 0 2 0 1 0 0), .ldp (fM 4 6 255 0 2 1 3 0 0),
    .ldp (fM 4 6 255 0 2 0 0 1 0), .stp (fM 4 6 255 0 2 0 0 0 1), .ldp (fM 8 6 255 0 4 0 0 0 1), .atomp (fN 4 6 255 0 13 2 1 0 0 0),
    .atomp (fN 4 6 255 0 0 2 0 0 0 0), .redg (fN 4 6 255 0 8 2 1 0 0 0), .atomg (fN 4 6 255 0 0 2 6 0 0 0), .casp (fA 4 6 1 2 11 12),
    .barx (fM 4 6 255 0 3 0 0 0 0), .barx (fM 4 6 255 0 4 1 0 0 0), .rflush (fM 4 6 255 0 0 2 3 0 0), .rinv (fM 4 6 255 0 2 0 0 0 0),
    .rpref (fM 4 6 3 0 0 0 0 0 0), .sight (fM 0 0 0 0 0 1 0 0 0),
    -- engine words
    .fenceq (fE 6 0 0 0 1), .fenceq (fE 3 0 0 0 0), .tcopy (fE 0 3 6 0 3), .tlay (fE 1 3 6 8 0), .rmap (fE 0 0 6 0 64), .presOrg (fE 0 0 6 0 5),
    .mwait (fE 0 3 0 0 5), .accwr (fE 0 8 6 0 0x80), .qblk (fA 4 1 16 0 5 0), .spkc (fA 4 6 17 0 11 0), .mclass (fE 0 0 0 0 4),
    .mloops { p := 7, acc := 0, sa := 0, eb := 0, ks := 33, mv := 0, pat := 0, ia := 0, ib := 0 },
    .mloop { p := 7, acc := 32, sa := 0, eb := 0, ks := 1, ia := 0, ib := 0 },
    .spawn (fE 0 3 6 8 5), .send (fE 0 0 6 0 0x2040), .send (fE 0 0 6 0 0), .recv (fE 0 4 0 0 0), .recv (fE 0 16 0 0 0x800), .recv (fE 0 16 0 0 80),
    .coll (fE 4 3 6 0 0), .cwait (fE 4 3 0 0 0), .statw (fE 0 0 6 8 0x12), .halt (fE 0 0 6 8 0x10), .slogpDrop (fE 0 0 6 7 3),
    .preemptForce (fE 0 3 6 0 3), .ctxld (fE 0 3 7 8 0)] : List Instr).all (fun i => !i.wellFormed) = true := by decide +kernel

theorem test_refused_by_the_team : ([
    -- A = 8: v8, a pair and a group past the allocation, the count register
    .iadd (fA 8 1 2 0 0 0), .iadd (fA 3 8 2 0 0 0), .rget (fA 8 1 2 0 12 0), .ldp (fM 8 6 255 0 4 0 0 0 0), .ldp (fM 7 6 255 0 2 0 0 0 1),
    .launch (fE 0 3 8 0 0), .call (fB 8 0 0 0), .brx (fB 0 8 1 0),
    -- depth 1: layer 2, and a mask with bit 1
    .tget (fA 3 1 0 2 11 0), .tzero (fA 3 0 0 2 11 0),
    -- tangent tiles of the glazed layer past tile 31
    .mloop { p := 7, acc := 31, sa := 0, eb := 0, ks := 1, ia := 0, ib := 0 }] : List Instr).all
      (fun i => i.wellFormed && !i.allocated 8 1 [1]) = true := by decide +kernel

/-! ### States for the statements

A hosted team (notes/assumptions/36.md): cluster 1, team 2 at system level on quad 0 with A = 192, gang 3 at word 1 of a clause of
one word. -/

/-- One thread, its gang the issuing one. -/
def host1 : State := (State.reset.hosting 0).issuing 3

/-- `n` threads in one gang. -/
def hostN (n : Nat) : State :=
  { host1 with
    threads := (List.range n).map fun r => freshThread 2 r 192 0
    teams := host1.teams.map fun t => { t with ntid := n }
    gangs := host1.gangs.map fun g => { g with members := List.range n } }

/-- The hosted gang. -/
def gangOf (s : State) : Gang := (s.gang? 3).getD {}

/-- Set a v register. -/
def setV (s : State) (rank i v : Nat) : State := s.setReg 2 rank 0 i (.ofNat 32 v)

/-- The statement's hypothesis `Runs` holds with a thread Active, and so does `p` of the context. -/
def sees (i : Instr) (s : State) (p : Ctx → Bool) : Bool :=
  match ctxOf i s with
  | none => false
  | some c => decide (0 < s.nextId ∧ ∀ t ∈ s.tickets, 0 < t.id ∧ t.id < s.nextId) && (s.gangs.all fun g => s.listed g.team) &&
      (s.folds.all fun f => s.listed f.team) && (s.overflow.all fun f => s.listed f.team) && (s.filing.all fun f => s.listed f.team) &&
      wordTrap i c == none && !c.act.isEmpty && p c

/-- What `sees` shows: the hypotheses of a statement about the word hold together. -/
theorem sees_runs (i : Instr) (s : State) (p : Ctx → Bool) (h : sees i s p = true) :
    ∃ c, Runs i s c ∧ c.act ≠ [] ∧ p c = true := by
  unfold sees at h
  cases hc : ctxOf i s with
  | none => simp [hc] at h
  | some c =>
    simp only [hc, Bool.and_eq_true, decide_eq_true_eq, List.all_eq_true, beq_iff_eq, Bool.not_eq_true', List.isEmpty_eq_false_iff] at h
    obtain ⟨⟨⟨⟨⟨⟨⟨h1, h2⟩, h3⟩, h4⟩, h5⟩, h6⟩, h7⟩, h8⟩ := h
    exact ⟨c, ⟨⟨⟨h1, h2, h3, h4, h5⟩, hc⟩, h6⟩, h7, h8⟩

/-- The sources of a word are ready (`SourcesReady`). -/
def ready (s : State) (srcs : List (Nat × Nat)) (c : Ctx) : Bool :=
  srcFault c.tm srcs == none && (channelNeed srcs c.act.length).all fun p => decide (p.2 ≤ (s.rx c.tm.id p.1).length)

/-- (a - b) modulo 2^32. -/
def positionsB (a b : Nat) : Nat := (((a : Int) - b) % 2 ^ 32).toNat

/-- A word with register operands and no further hypothesis. -/
def runs (i : Instr) (s : State) : Bool := sees i s fun _ => true
/-! ### The hypotheses of the statements

One theorem for each statement of Certificates/Slice0 that has hypotheses; by `sees_runs` each `sees` and `runs` is a state and
a context that meet them, with a thread Active. -/

/-- An image of a channel entry that sends to team 0 of the own cluster and owns a receive queue of one message (R315). -/
def chanImage : BitVec 128 := .ofNat 128 (2 ^ 125 + 2 ^ 124 + 2 ^ 123)

/-- The hosted team with channel entries 0 and 1 configured, and a message in the queue of entry 0. -/
def hostQ : State :=
  { hostN 2 with
    teams := (hostN 2).teams.map fun t => { t with chans := (t.chans.set 0 chanImage).set 1 chanImage }
    inbox := [{ quad := 0, team := 2, queue := 0, msg := { id := 0, elems := [7] } }, { quad := 0, team := 2, queue := 0, msg := { id := 0, elems := [9] } }] }

/-- Sources, results and destinations of the shapes that ShortResult, LongWordResult and PredicateResult tell apart: a register
or a channel, ready or not, to be sent through or not, at the bounds of the field. -/
theorem witness_result_shapes :
    (sees (.iadd (fA 191 190 255 0 0 0)) host1 (fun c => ready host1 [(190, 1), (255, 1)] c) &&
    sees (.iadd (fA 254 1 2 0 0 0)) host1 (fun c => ready host1 [(1, 1), (2, 1)] c) &&
    sees (.iadd (fA 256 512 1 0 0 0)) hostQ (fun c => ready hostQ [(512, 1), (1, 1)] c &&
      hostQ.sendFault c.tm (c.tm.chans.getD 0 0) [1, 2, 3] == none && hostQ.sendRoom c.tm.quad c.act.length &&
      hostQ.sets.any fun k => k.port == c.tm.quad && k.job == c.tm.job) &&
    sees (.iadd (fA 319 1 2 0 0 0)) hostQ (fun c => ready hostQ [(1, 1), (2, 1)] c &&
      (hostQ.sendFault c.tm (c.tm.chans.getD 63 0) [1, 2, 3]).isSome) &&
    sees (.iadd (fA 3 575 2 0 0 0)) hostQ (fun c => (srcFault c.tm [(575, 1), (2, 1)]).isSome) &&
    sees (.iadd (fA 3 513 2 0 0 0)) hostQ (fun c => srcFault c.tm [(513, 1), (2, 1)] == none &&
      (channelNeed [(513, 1), (2, 1)] c.act.length).any fun p => decide ((hostQ.rx c.tm.id p.1).length < p.2)) &&
    sees (.idiv (fA 256 512 1 0 0 0)) hostQ (fun c => ready hostQ [(512, 1), (1, 1)] c &&
      hostQ.sendFault c.tm (c.tm.chans.getD 0 0) [1, 2, 3] == none) &&
    sees (.isetp (fA 7 512 1 0 0 0)) hostQ (fun c => ready hostQ [(512, 1), (1, 1)] c)) = true := by decide +kernel

theorem witness_IntegerResults : ([
    .iadd (fA 191 1 2 0 13 16), .isub (fA 190 6 8 0 3 0), .imul (fA 3 1 2 0 0 16), .imad (fA 3 1 2 5 1 0), .imin (fA 3 1 2 0 4 0),
    .imax (fA 3 1 2 0 1 0), .iabs (fA 3 1 0 0 4 16), .ineg (fA 3 1 0 0 0 0), .imulh (fA 4 6 8 0 2 0), .iaddi (fI 4 6 1 5), .imuli (fI 3 1 0 5),
    .andi (fI 3 1 0 5), .ori (fI 3 1 0 5), .xori (fI 3 1 0 5), .movi (fI 4 0 1 0x80000000), .and (fA 3 1 2 0 11 0), .or (fA 3 1 2 0 11 0),
    .xor (fA 4 6 8 0 12 0), .not (fA 3 1 0 0 11 0), .popc (fA 3 6 0 0 12 0), .clz (fA 3 1 0 0 11 0), .brev (fA 3 1 0 0 11 0),
    .shl (fA 3 1 2 0 11 0), .shr (fA 4 6 2 0 12 0), .sar (fA 3 1 2 0 11 0), .fsh (fA 3 1 2 5 11 0), .bfx (fA 3 1 2 0 0 0),
    .bfi (fA 4 6 8 5 12 0)] : List Instr).all (fun i => runs i (hostN 2)) = true := by decide +kernel

theorem witness_MoveAndConvertResults : ([
    .mov (fA 3 1 0 0 11 0), .sel (fA 4 6 8 7 12 0), .icvt (fA 3 6 2 0 1 16), .idot4 (fA 3 1 2 5 4 16), .lea (fA 4 6 9 11 0 0),
    .pmovGet (fA 3 0 0 0 0 0), .pmovSel (fA 3 7 0 0 3 0)] : List Instr).all (fun i => runs i (hostN 2)) = true := by decide +kernel

theorem witness_PredicateResults :
    (([.isetp (fA 7 6 8 125 3 0), .plop (fA 0 1 2 0 7 0), .pmovNz (fA 4 3 0 0 2 0)] : List Instr).all (fun i => runs i (hostN 2)) &&
    sees (.pmovSet (fA 0 3 0 0 1 0)) (hostN 2) (ready (hostN 2) [(3, 1)])) = true := by decide +kernel

/-- Two threads of which the second divides by zero; and one with a divisor. -/
def hostDiv : State := setV (setV (hostN 2) 0 2 5) 0 1 0x80000000

theorem witness_DivisionResults :
    (runs (.idiv (fA 3 1 2 0 0 0)) hostDiv && runs (.irem (fA 4 6 8 0 3 0)) hostDiv &&
    sees (.idiv (fA 3 1 2 0 0 16)) hostDiv (fun c => c.act == [0] ++ 1 :: [] && ready hostDiv [(1, 1), (2, 1)] c &&
      c.val 0 2 1 != 0 && c.val 1 2 1 == 0)) = true := by decide +kernel

theorem witness_RegisterFileWords :
    (([.movs (fA 4 4 0 0 12 0), .movs (fA 4 18 0 0 12 0), .movsw (fA 12 5 0 0 11 0), .movsw (fA 15 6 0 0 12 0), .codeSegmentSwitch (fA 17 5 0 0 11 0)] :
      List Instr).all (fun i => runs i (hostN 2)) &&
    -- every register inside the allocation, and one whose index is the allocation
    sees (.rget (fA 3 1 2 0 11 0)) (setV (hostN 2) 1 1 191) (fun c => c.act.all fun r => c.val r 1 1 + 1 ≤ c.tm.alloc && c.val r 2 1 ≤ c.tm.depth) &&
    sees (.rput (fA 0 1 2 5 12 0 |> fun w => { w with s1 := 6 })) (setV (hostN 2) 1 2 190) (fun c => c.act.all fun r => c.val r 2 1 + 2 ≤ c.tm.alloc) &&
    sees (.rget (fA 3 1 2 0 11 0)) (setV (hostN 2) 1 1 192) (fun c => c.act == [0] ++ 1 :: [] && c.val 0 1 1 + 1 ≤ c.tm.alloc && c.tm.alloc < c.val 1 1 1 + 1) &&
    sees (.rput (fA 0 1 2 5 11 0)) (setV (hostN 2) 1 5 1) (fun c => c.act == [0] ++ 1 :: [] && c.tm.depth < c.val 1 5 1)) = true := by
  decide +kernel

theorem witness_DecodeEncode :
    ((Instr.mloop { p := 15, acc := 31, sa := 63, eb := 1023, ks := 4095, ia := 255, ib := 511 }).wellFormed &&
    encode (.iadd (fA 319 575 255 0 13 16)) == some (wordOf [(56, 0x10), (52, 7), (43, 319), (33, 575), (23, 255), (8, 13), (0, 16)])) = true := by
  decide +kernel

/-- The hosted gang at user level, on a core without feature bits. -/
def hostUser : State :=
  { host1 with gangs := host1.gangs.map fun g => { g with sys := false }, features := 0 }

/-- The hypothesis `Issues` with a trap of the given cause. -/
def checked (i : Instr) (s : State) (cause : Option Cause) : Bool :=
  (encode i).isSome && (match ctxOf i s with | none => false | some c => wordTrap i c == cause && s.gangs.all fun g => s.listed g.team)

/-- For each of the four fates; a word that is ill-formed, forbidden and without its feature shows the order. -/
theorem witness_WordChecks :
    (checked (.tlbiAll (fE 0 0 0 0 2)) hostUser (some .privilegedInstruction) &&
    checked (.fsin (fA 192 192 0 0 7 0 |> fun w => { w with s2 := 1 })) hostUser (some .illegalOperand) &&
    checked (.fsin (fA 3 1 0 0 5 0)) hostUser (some .featureAbsent) && checked (.iadd (fA 3 1 2 0 0 0)) hostUser none &&
    -- words that decode to no instruction
    decode (wordOf [(56, 0xF0), (52, 7)]) == .illegalInstruction && decode (wordOf [(56, 0x10), (52, 7), (43, 193), (8, 2)]) == .illegalOperand false &&
    decode (wordOf [(56, 0xE0), (52, 7), (0, 3)]) == .illegalOperand true) = true := by decide +kernel

/-- The gang that runs in a hosted state, and the word it runs. -/
theorem witness_StepRunsInstruction :
    let w := wordOf [(56, 0x2D), (52, 7), (43, 3), (0, 42)]
    let s := State.reset.withFetchWord 64 w.toNat
    ((s.gangs.find? fun g => g.status == .running).map fun g => (g.id, g.status == .running, decode (g.clause.getD (g.word - 1) 0))) =
      some (3, true, .ok (.movi (fI 3 0 0 42))) ∧ s.agenda = [] ∧
      ({ s with agenda := [.word 3, .event (.steal (fE 0 8 6 0 0)), .tick 5] } : State).agenda = .word 3 :: [.event (.steal (fE 0 8 6 0 0)), .tick 5] := by
  decide +kernel

/-- Each way a word ends: before the clause's last word, at it, and with a numeric threshold to take. -/
theorem witness_WordsAndClausesEnd :
    let g : Gang := (gangOf host1)
    (g.word = 1 ∧ g.clause.length = 1 ∧ g.pendWord = false ∧ (host1.gang? 3).isSome = true ∧
      ∀ r ∈ g.members, (host1.team g.team).halt.toNat.testBit (host1.thread g.team r).role.toNat = false) ∧
    ((hostN 2).updGang 3 fun g => { g with clause := [0, 0] }).gang? 3 = some { gangOf (hostN 2) with clause := [0, 0] } ∧
    (host1.updGang 3 fun g => { g with pendWord := true }).gang? 3 = some { g with pendWord := true } := by decide +kernel

/-- A job with vectors, and one without. -/
def hostVec : State := host1.updJob 0 fun j => { j with vectors := [0x1000, 0x2000, 0x3000, 0x4000] }

theorem witness_TrapTaken :
    ((host1.gang? 3).isSome && (gangOf host1).trap == none && vectorOf (host1.job 0) (some .misaligned) == 0 &&
    vectorOf (host1.job 0) (some .debugBreak) == 0 && vectorOf (hostVec.job 0) (some .misaligned) == 0x1000 && vectorOf (hostVec.job 0) none == 0x2000 &&
    vectorOf (hostVec.job 0) (some .debugBreak) == 0x3000 && vectorOf (hostVec.job 0) (some .watchdog) == 0x4000 &&
    -- SVC through its vector comes from user level; trap state live makes a double fault
    (gangOf (hostVec.updGang 3 fun g => { g with sys := false })).sys == false &&
    (gangOf (hostVec.updGang 3 fun g => { g with trap := some {} })).trap != none) = true := by decide +kernel

/-- Three threads whose registers v6:v7 hold three targets, of which one is misaligned in `hostBrx 4`. -/
def hostBrx (x : Nat) : State := setV (setV (hostN 3) 1 6 64) 2 6 (128 + x)

theorem witness_GangHintAndBranchWords :
    (([.nop (fA 0 0 0 0 0 0), .beat (fA 0 0 0 0 0 0), .ppt (fI 0 0 0 0x80000001), .yield (fA 0 0 0 0 0 0), .bra (fB 0 0 0 0x7FFFFFFF),
      .call (fB 8 0 0 20), .callRegister (fB 8 6 1 4), .ret (fB 0 6 1 0)] : List Instr).all (fun i => runs i (hostN 2)) &&
    sees (.brx (fB 0 6 1 0)) (hostBrx 4) (fun c => c.act.any fun r => c.val r 6 2 % 8 != 0) &&
    -- three targets, owed nothing and owed a result; two; one
    sees (.brx (fB 0 6 1 0)) (hostBrx 0) (fun c => (c.act.map fun r => c.val r 6 2).eraseDups.length == 3 && (hostBrx 0).quietGang c.gid) &&
    sees (.brx (fB 0 6 1 0)) { hostBrx 0 with tickets := [{ id := 1, gangs := [3], parts := [0] }] } (fun c =>
      !(({ hostBrx 0 with tickets := [{ id := 1, gangs := [3], parts := [0] }] } : State).quietGang c.gid)) &&
    sees (.ret (fB 0 6 1 0)) (setV (hostN 2) 1 6 64) (fun c => (c.act.map fun r => c.val r 6 2).eraseDups.length == 2) &&
    sees (.ret (fB 0 6 1 0)) (hostN 2) (fun c => (c.act.map fun r => c.val r 6 2).eraseDups.length == 1)) = true := by decide +kernel

/-- A lane whose 17 entries are taken, and 16 folds. -/
def hostFull : State :=
  { hostN 2 with
    gangs := (hostN 2).gangs ++ (List.range 16).map fun i => { gangOf (hostN 2) with id := 20 + i, entry := i + 1 }
    folds := (List.range 16).map fun i => { id := 40 + i, team := 2, pc := 8 * i, threads := [(9, false, {})] } }

theorem witness_ThreadsPartAndFile :
    (((hostN 2).gang? 3).isSome && ((hostN 2).freeEntry 0 0).isSome && (hostFull.gang? 3).isSome && hostFull.freeEntry 0 0 == none &&
    !hostFull.halted 2 1 &&
    -- a fold with the key, none and all 16 taken, none and room
    (hostFull.folds.any fun x => x.pc == 8 && x.quad == 0 && x.lane == 0 && x.team == 2) && (hostFull.folds.all fun x => x.pc != 800) &&
    hostFull.folds.length == 16 && (hostN 2).folds.isEmpty) = true := by decide +kernel

theorem witness_LeavingWords :
    (sees (.exit (fA 0 0 0 0 0 0)) (hostN 2) (fun c => (hostN 2).quietGang c.gid && c.act.all fun r => !(hostN 2).halted c.tm.id r) &&
    sees (.reform (fA 0 0 0 0 0 0)) { hostN 2 with tickets := [{ id := 1, gangs := [3], parts := [0] }] } (fun c =>
      !(({ hostN 2 with tickets := [{ id := 1, gangs := [3], parts := [0] }] } : State).quietGang c.gid)) &&
    ((hostN 2).threads.any fun x => x.team == 2 && x.rank == 1) && (hostN 2).sets.any fun k => k.port == 0 && k.job == 0) = true := by
  decide +kernel

/-- The guard !p7 leaves no member Active. -/
def idle (i : Instr) (s : State) : Bool :=
  match ctxOf i s with
  | none => false
  | some c => wordTrap i c == none && c.act.isEmpty

theorem witness_TransferWords :
    (runs (.trap (fI 0 0 0 9)) (hostN 2) && runs (.svc (fI 0 0 0 9)) (hostN 2) && runs (.brk (fA 0 0 0 0 0 0)) (hostN 2) &&
    sees (.brk (fA 0 0 0 0 0 0)) ((hostN 2).updGrid 1 fun g => { g with dbg := true }) (fun c => c.grid.dbg) &&
    idle (.trap { fI 0 0 0 9 with p := 15 }) (hostN 2) && idle (.svc { fI 0 0 0 9 with p := 15 }) (hostN 2)) = true := by decide +kernel

theorem witness_VoteAndShuffleResults :
    ((List.range 8).all (fun t => sees (.vote (fA 3 (if t = 5 || t = 6 then 255 else 1) 0 0 t 0)) (hostN 32) fun c =>
      c.gang.members.length ≤ 32 && decide c.gang.members.Nodup) &&
    (List.range 8).all fun t => runs (.shfl (fA 4 6 8 10 t 0)) (hostN 2)) = true := by decide +kernel

/-- Numbers that the statements on exact results speak of: 3 × 2^0, and 5 × 2^-1 rounded to a whole number in each mode. -/
theorem witness_FloatResultsAreExact :
    (3 : ℝ) = (if false then -1 else 1) * (3 : ℕ) * 2 ^ (0 : ℤ) ∧ (-(5 / 2) : ℝ) = (if true then -1 else 1) * (5 : ℕ) * 2 ^ (-1 : ℤ) ∧
    ((3 : ℝ) ≠ 0 ∧ (0 : ℝ) ≤ 3 ∧ (0 : ℝ) < 3) := by
  refine ⟨by norm_num, by norm_num, by norm_num⟩

theorem witness_FloatWordResults : ([
    .fadd (fA 3 1 2 0 5 129), .fsub (fA 4 6 8 0 6 16), .fmul (fA 3 1 2 0 7 2), .ffma (fA 3 1 2 5 9 8), .fmin (fA 3 1 2 0 5 4), .fmax (fA 3 1 2 0 10 1),
    .frnd (fA 3 1 0 0 5 96), .fscale (fA 3 1 2 0 5 8), .fdot2 (fA 3 1 2 5 10 0), .fdiv (fA 3 1 2 0 5 97), .fsqrt (fA 3 1 0 0 5 8),
    .frcp (fA 4 6 0 0 6 0), .frsq (fA 3 1 0 0 5 2), .fexp2 (fA 3 1 0 0 7 0), .flog2 (fA 3 1 0 0 8 0), .fsin (fA 3 1 0 0 5 0), .fcos (fA 3 1 0 0 5 16),
    .ftanh (fA 3 1 0 0 5 0)] : List Instr).all (fun i => runs i (hostN 2)) = true := by decide +kernel

theorem witness_CompareConvertAndNarrowResults :
    (([.fsetp (fA 2 1 3 29 5 2), .fclassPredicate (fA 2 1 513 0 5 1), .fclassRegister (fA 3 1 0 1 5 0), .fcvt (fA 3 6 6 0 5 32), .f2i (fA 3 1 5 0 1 1),
      .i2f (fA 4 1 1 0 6 16), .fpack (fA 3 1 2 0 9 0), .funpk (fA 3 1 1 0 9 2), .fmtw (fI 15 0 0 0xC60E), .ncvtEnc (fA 3 1 2 15 5 64),
      .ncvtEnc (fA 3 1 2 256 5 0), .ncvtDec (fA 3 1 2 521 5 0), .ncvtDec (fA 3 1 2 768 5 0)] : List Instr).all (fun i => runs i (hostN 2)) &&
    -- formats of 2 and of 8 bits, without and with specials
    (descWidth 0x1200 == 2 && descWidth 0xC60E == 8 && !descSP 0x1200 && (!descSP 0xC60F || 2 ≤ descEB 0xC60F)) &&
    (FVal.nan 0).isNaN) = true := by decide +kernel

/-- A count one below its threshold, and window codes at and outside their bounds. -/
theorem witness_NumericEvents :
    let r := 6 * 2 ^ 32 + 7 * 2 ^ 8 + 3 * 2
    (r / 2 ^ 8 % 2 ^ 24 ≠ 0 ∧ r % 2 = 0 ∧ r / 2 ^ 8 % 2 ^ 24 ≤ min (r / 2 ^ 32 + 1) (2 ^ 32 - 1) ∧ r / 2 % 4 = 3) ∧
    (10 ≤ 10 ∧ (10 : Nat) ≤ 30 ∧ 0 / 2 ^ 10 < 1024 / 2 ^ 10 ∧ ¬ 0 / 2 ^ 10 < 1023 / 2 ^ 10) := by decide +kernel

theorem witness_GlazeSpans :
    (runs (.glz { p := 7, n := 15, msk := 0, md := 1, z := 0 }) host1 &&
    -- layer 1 of a team of depth 1: without a GLZ, and in a span, held or propagated
    glazedSet { depth := 1, gall := true } [0] 1 == [1] && glazedSet { depth := 1 } [wordOf [(56, 0x0A), (52, 7), (48, 1), (44, 1)], 0] 2 == [1] &&
    glazedSet { depth := 1, gall := true } [wordOf [(56, 0x0A), (52, 7), (48, 1), (44, 1), (42, 1)], 0] 2 == []) = true := by decide +kernel

/-- Glaze depth 4. -/
def hostDeep : State :=
  { hostN 2 with
    threads := (List.range 2).map fun r => freshThread 2 r 96 4
    teams := (hostN 2).teams.map fun t => { t with alloc := 96, depth := 4, gregs := List.replicate 315 0 } }

theorem witness_LayerWords : ([
    .tget (fA 3 1 0 4 11 0), .tset (fA 4 6 0 1 12 0), .tset (fA 192 1 0 4 11 0), .tzero (fA 3 0 0 15 11 0), .tseed (fA 4 1 0 8 6 0), .gpln (fA 3 1 0 4 1 0)] :
    List Instr).all (fun i => runs i hostDeep) = true := by decide +kernel
/-- The state after a word or an event. -/
def after (i : Instr) (s : State) : State := afterExec i s

/-- Two threads, of which the second holds `x` in v6. -/
def hostAt (x : Nat) : State := setV (hostN 2) 1 6 x

/-- The pool words' hypotheses: a sound address at the last byte of a share, of another slot and of the aperture; one that is
misaligned, past the share, or past the aperture's bound; and a line whose region has to be filled. -/
theorem witness_PoolWords :
    (([.ldp (fM 4 6 255 0 3 2 1 0 1), .stp (fM 4 6 255 0 0 0 0 0 0), .ldp (fM 16 6 255 0 5 0 0 0 0), .ldpf (fM 4 6 255 0 2 0 0 0 1), .stpe (fM 4 6 255 0 3 1 3 0 0),
      .feset (fM 4 6 255 0 3 0 0 0 0), .atomp (fN 4 6 255 0 12 2 2 3 0 1), .casp (fA 4 6 8 10 12 11), .mcst (fM 4 6 8 0 2 0 0 0 0)] : List Instr).all
      (fun i => runs i (hostN 2)) &&
    ([(0xFFFF, 1, none), (0x3000000, 4, none), (0x4000000, 4, some Cause.poolOutside), (0x10000, 1, some .poolOutside), (2, 4, some .misaligned),
      (0xC00002FC, 4, none), (0xC0000300, 4, some .apertureBound), (0xC00500FC, 4, none), (0xC0050100, 4, some .apertureBound)] :
      List (Nat × Nat × Option Cause)).all (fun p => sees (.ldp (fM 4 6 255 0 2 0 0 0 0)) (hostAt p.1) fun c =>
        c.act == [0] ++ 1 :: [] && c.val 1 6 1 == p.1 && accessCheck c p.1 p.2.1 true == p.2.2)) = true := by decide +kernel

/-- The hosted cluster with region 0 over its pool's first line, and a page for it at 2^32. -/
def hostRegion (st : LineState) : State :=
  let s := ((hostN 2).mapPage 0 (2 ^ 32) (allocLeaf 0x10000 true) false).getD (hostN 2)
  s.updCluster 1 fun c => { c with
    regions := c.regions.set 0 (some { image := .ofNat 256 (2 ^ 192 * 2 ^ 32 + 2 ^ 128 * 128 + 2 ^ 15) })
    lines := if st == .absent then [] else [{ line := 0, st }] }

theorem witness_lines_to_fill :
    (sees (.ldp (fM 4 6 255 0 2 0 0 0 0)) (hostRegion .absent) (fun c => lineHold c (hostRegion .absent) [0] 4 true false == some (0, 0)) &&
    sees (.ldp (fM 4 6 255 0 2 0 0 0 0)) (hostRegion .clean) (fun c => lineHold c (hostRegion .clean) [0] 4 true false == none)) = true := by
  decide +kernel

/-- An access that may perform: the one a word has just sent. -/
def mayPerform (s : State) (p : Access → Bool) : Bool :=
  s.accesses.any fun a => (s.accesses.find? fun e => decide (e.id = a.id ∧ e.state = .sent)) == some a && a.seq != 0 && (s.blockers a).isEmpty && p a

theorem witness_PoolAccessPerforms :
    (mayPerform (after (.stp (fM 4 6 255 0 2 0 0 0 0)) (hostN 2)) (fun a => a.dst.isSome &&
      ((after (.stp (fM 4 6 255 0 2 0 0 0 0)) (hostN 2)).cluster a.cluster).mapping (a.key / 128) == none) &&
    -- a word that is full is served to LDPF and refused to STPE
    mayPerform (after (.ldpf (fM 4 6 255 0 2 0 0 0 1)) (hostN 2)) (fun a => !((after (.ldpf (fM 4 6 255 0 2 0 0 0 1)) (hostN 2)).cluster a.cluster).empties.contains (a.key / 8)) &&
    mayPerform (after (.stpe (fM 4 6 255 0 2 0 0 0 0)) (hostN 2)) (fun a => !((after (.stpe (fM 4 6 255 0 2 0 0 0 0)) (hostN 2)).cluster a.cluster).empties.contains (a.key / 8)) &&
    -- the aperture: a load, and a store at its last byte
    mayPerform (after (.ldp (fM 4 6 255 0 2 0 0 0 0)) (hostAt 0xC0000000)) (fun a => a.dst == none) &&
    mayPerform (after (.stp (fM 4 6 255 0 2 0 0 0 0)) (hostAt 0xC00002FC)) (fun a => a.dst == none && a.key == 764) &&
    -- an id that no access has
    ((hostN 2).accesses.all fun a => a.id != 99)) = true := by decide +kernel

/-- Two stores of one thread to one word: the second has the first before it. -/
def hostTwice : State := after (.stp (fM 4 6 255 0 2 0 0 0 0)) (after (.stp (fM 4 6 255 0 2 0 0 0 0)) host1)

theorem witness_PoolAccessWaitsInOrder :
    ((hostTwice.accesses.any fun a => a.state == .sent && hostTwice.accesses.any fun e => e.team == a.team && e.rank == a.rank && decide (e.id < a.id) &&
      e.key == a.key && e.dst == a.dst && e.cluster == a.cluster) &&
    (hostTwice.accesses.all fun a => hostTwice.entryFor a) &&
    -- a bank with 64 waiters has no entry, and a rejected access at and before its time
    (let w : Access := { id := 7, cluster := 1, team := 2, dst := some 0, size := 8, state := .waiting 0 }
     let s := { host1 with accesses := (List.range 64).map fun i => { w with id := 100 + i } }
     !s.entryFor { w with state := .sent }) &&
    (let a : Access := { id := 7, state := .rejected 32 }
     let s := ({ host1 with now := 32 * 45045, accesses := [a] } : State)
     s.accesses.find? (fun e => e.id == 7) == some a && decide (32 ≤ s.dieClock 0 ∧ ({ s with now := 32 * 45045 - 1 } : State).dieClock 0 < 32))) = true := by
  decide +kernel

/-- A valid barrier object at pool byte 0 with PEND `pend`, and a valid ring header with N = 2^lgn slots of 8 bytes. -/
def hostBar (pend : Nat) : State := (hostN 2).poolWrite 1 0 (toBytes 16 (0xA0 + pend * 2 ^ 48 + 2 * 2 ^ 64))
def hostRing (free filled claim resv : Nat) : State :=
  (hostN 2).poolWrite 1 0 (toBytes 16 (5 * 2 ^ 120 + 2 * 2 ^ 116 + 3 * 2 ^ 112 + free * 2 ^ 80 + filled * 2 ^ 64 + claim * 2 ^ 32 + resv))

theorem witness_BarrierAndRingWords :
    (([.bari (fM 4 6 255 0 4 0 0 0 0), .barx (fM 4 6 255 0 4 0 0 0 0), .bara (fM 4 6 255 0 4 0 0 0 0), .barw (fM 3 6 4 0 4 0 0 0 0)] : List Instr).all
      (fun i => runs i (hostBar 2) && runs i (hostBar 0) && runs i (hostN 2)) &&
    ([.rngi (fM 4 6 255 0 5 0 0 0 0), .rngwWr (fM 4 6 255 0 1 0 0 0 0), .rngwRd (fM 4 6 255 0 0 0 0 0 0), .rngsWr (fM 4 6 255 0 1 0 0 0 0),
      .rngsRd (fM 4 6 255 0 0 0 0 0 0)] : List Instr).all (fun i => runs i (hostRing 4 0 0 0) && runs i (hostRing 0 4 0 4) && runs i (hostN 2)) &&
    -- a slot reserved and not published: one position, and N of them
    (positionsB 1 0 == 1 && decide (1 ≤ 2 ^ 2) && positionsB 4 0 == 4 && decide ((2 : Nat) ≤ 12)) &&
    sees (.tbar (fA 0 0 0 0 3 0)) (hostN 2) (fun c => ((hostN 2).team c.tm.id).tbar.length == 4) &&
    idle (.tbar { fA 0 0 0 0 3 0 with p := 15 }) (hostN 2)) = true := by decide +kernel

theorem witness_FenceWords :
    (runs (.fence (fM 0 0 0 0 0 2 1 0 0)) (hostN 2) && runs (.fence (fM 0 0 0 0 0 3 3 0 0)) (hostN 2) && runs (.fence (fM 0 0 0 0 0 5 2 0 0)) (hostN 2) &&
    -- nothing in flight, a write-back walk, and the acquire behind it
    (gangOf (hostN 2)).flight.isEmpty && (gangOf ((hostN 2).updGang 3 fun g => { g with flight := [0] })).flight == [0] &&
    (gangOf ((hostN 2).updGang 3 fun g => { g with flight := [5, 6] })).flight == [5, 6] &&
    runs (.fenceq (fE 2 0 0 0 0x70001)) (hostN 2) && runs (.sight (fM 0 0 0 0 0 0 0 0 0)) (hostN 2) &&
    idle (.fence { fM 0 0 0 0 0 2 1 0 0 with p := 15 }) (hostN 2)) = true := by decide +kernel

theorem witness_RegionWords : ([
    .rmap (fE 0 0 6 0 63), .rmapUnmap (fE 0 0 0 0 64), .rflush (fM 4 6 255 0 0 3 3 0 0), .rflush (fM 255 6 255 0 0 0 0 0 0), .rinv (fM 4 6 255 0 1 0 0 0 0),
    .rpref (fM 255 6 255 0 0 0 0 0 0)] : List Instr).all (fun i => runs i (hostN 2) && runs i (hostRegion .dirty)) = true := by decide +kernel

/-- A filling line: to be translated, waiting for its page, or with its data there. -/
def hostFill (f : RegionLine → RegionLine) : State := (hostRegion .absent).updCluster 1 fun c => { c with lines := [f { line := 0, st := .filling }] }

theorem witness_RegionFillEvents :
    let c := fun (s : State) => s.cluster 1
    (((c (hostRegion .clean)).line 0).st != .filling &&
    (let s := hostFill id
     ((c s).line 0).st == .filling && ((c s).line 0).walked == none && !((c s).line 0).missing && ((c s).mapping 0).isSome &&
       (match (s.translate 0 (2 ^ 32) false { r := true }).1 with | .ok .. => true | _ => false)) &&
    -- the page not present, at the last address below 2^57, and another cause
    (match (host1.translate 0 (2 ^ 57 - 1) false { r := true }).1 with | .fail .notPresent _ => true | _ => false) &&
    (match ((hostRegion .clean).translate 0 (2 ^ 32) false { k := true }).1 with | .fail cause _ => cause != .notPresent | _ => false) &&
    -- a filling line that no region maps any more
    (let s := (hostFill id).updCluster 1 fun c => { c with regions := [] }
     ((c s).line 0).st == .filling && (c s).mapping 0 == none) &&
    (let s := hostFill fun l => { l with data := some (List.replicate 128 1, List.replicate 16 1) }
     ((c s).line 0).data.isSome && (s.clusters.any fun x => x.id == 1) && memWf (c s).pool)) = true := by decide +kernel

/-- A kept page and a plain one at virtual addresses 2^32 and 2^32 + 2^16; v6:v7 of each thread hold the first. -/
def hostPages : State :=
  let s := ((hostN 2).mapPage 0 (2 ^ 32) (allocLeaf 0x10000 false) false).getD (hostN 2)
  let s := (s.mapPage 0 (2 ^ 32 + 2 ^ 16) (allocLeaf 0x20000 true) false).getD s
  setV (setV s 0 7 1) 1 7 1

theorem witness_GlobalWords :
    (([.atomg (fN 4 6 255 0 8 3 5 1 2 1), .redg (fN 4 6 255 0 11 2 3 3 1 0), .casg (fA 4 6 8 10 12 23), .ldk (fN 8 6 255 0 0 4 1 1 0 0),
      .sibl (fN 4 6 255 0 2 3 0 0 1 1), .recon (fN 8 6 255 0 10 4 3 2 0 0)] : List Instr).all (fun i => runs i hostPages && runs i (hostN 2)) &&
    -- translated, not present, and not allowed
    (match (hostPages.translate 0 (2 ^ 32) true { r := true, k := true }).1 with | .ok .. => true | _ => false) &&
    (match (hostPages.translate 0 (2 ^ 33) true { w := true, a := true }).1 with | .fail .notPresent _ => true | _ => false) &&
    (match (hostPages.translate 0 (2 ^ 32 + 2 ^ 16) true { r := true, k := true }).1 with | .fail cause _ => cause != .notPresent | _ => false)) = true := by
  decide +kernel

/-- A request to a home, at its line's last byte or where asked, and the state that holds it. -/
def reqOf (op : HomeOp) : HomeReq := { id := 10, team := 2, cluster := 1, va := 2 ^ 32, pa := 0x10000, leaf := .ofNat 64 (allocLeaf 0x10000 false), op, seq := 10, group := 2 }
def hostReq (r : HomeReq) : State := { hostPages with nextId := 200, reqs := [r], l2 := [{ slice := homeSlice r.pa r.leaf, line := r.pa / 128 }] }

/-- The request may perform (`Served`): in its order at a free line that the home holds, or busy with all that it asked for. -/
def served (s : State) (r : HomeReq) : Bool :=
  let own := (s.lineKeys.all fun p => p.1 != r.pa / 128 || p.2 == r.asid) &&
    ((s.lineKeys.any fun p => p.1 == r.pa / 128) || s.owners.all fun p => decide (r.pa / 2 ^ 16 < p.1 ∨ p.1 + p.2.1 ≤ r.pa / 2 ^ 16) || p.2.2 == r.asid)
  (s.reqs.find? fun e => e.id == r.id && (e.state == .sent || e.isListed || s.memoryDue e)) == some r && !r.op.local && decide (r.pa < 2 ^ 39) &&
  own && ((s.ringLines r).all fun l => decide (128 * l < 2 ^ 39)) && !s.noArrival r &&
  (r.state == .busy ||
    (s.reqHolds r).isEmpty && !r.releasing && r.seq != 0 && (s.reqAhead r).isEmpty && s.reaches r &&
    (s.busy.all fun b => b.line != r.pa / 128 || b.req == r.id) &&
    (s.reqs.all fun e => e.id == r.id || !e.isListed || e.pa / 128 != r.pa / 128 || (r.isListed && decide (r.listedAt ≤ e.listedAt))) &&
    !s.needsMemory r && ((s.ringLines r).all fun l => (s.busy.all fun b => b.line != l || b.req == r.id) && s.dir.all fun d => d.line != l) &&
    (!r.touches.2.2 || s.dir.all fun d => d.line != r.pa / 128))

/-- A cell with versions 3, 2, 1 of group 9, and a request on it. -/
def hostKept (r : HomeReq) : State := (hostReq r).setVersions 0x10000 [(3, 30, 9), (2, 20, 9), (1, 10, 9)] 0

theorem witness_HomeOperations :
    let ok := fun (op : HomeOp) => served (hostReq (reqOf op)) (reqOf op)
    (ok (.read 0 128) && ok (.write [(127, 1)]) && ok (.kept [(15, 5)] 0) && ok (.atomic 12 8 1 (some 4) none) && ok (.atomic 0 4 1 none none) &&
    ok (.cas 8 0 1 4) && ok (.probe 4) && ok (.sibling 2 15 4 (some 6)) && leafK (reqOf (.probe 4)).leaf &&
    (let r := { reqOf (.fill 0) with pl := 1 }
     let s : State := { hostFill id with nextId := 200, reqs := [r], l2 := [{ slice := homeSlice r.pa r.leaf, line := r.pa / 128 }] }
     served s r && ((s.cluster 1).line 0).st == .filling) &&
    -- RECON with nothing at or below its basis, with one version there, with all
    ([9, 10, 30].all fun b => let r := reqOf (.recon 0 b 0 4); served (hostKept r) r) && memWf (hostKept (reqOf (.probe 4))).mem &&
    -- a kept write that does not see fifteen versions
    (let r := reqOf (.kept [(0, 5)] 0)
     let s := (hostReq r).setVersions 0x10000 ((List.range 15).map fun i => (BitVec.ofNat 64 i, 40 - i, 9)) 0
     served s r && decide (15 ≤ ((s.versions 0x10000).filter fun v => decide (0 < v.2.1 ∧ v.2.2 ≠ 2)).length) && s.side.isEmpty)) = true := by decide +kernel

theorem witness_HomeRequestsAndLogs :
    let r := reqOf (.read 0 8)
    let s := hostReq r
    -- nothing to serve; held by an earlier access; a local step; a release at its first stage
    ((hostPages.reqs.all fun e => e.id != 10) &&
    (let q := { r with after := [11] }; !(({ hostReq q with accesses := [{ id := 11 }] } : State).reqHolds q).isEmpty) &&
    (let q := reqOf (.acquire true); (hostReq q).reqs.find? (fun e => e.id == 10 && (e.state == .sent || e.isListed)) == some q && ((hostReq q).reqHolds q).isEmpty) &&
    (let q := reqOf (.mapEntry 0 none); ((hostReq q).reqHolds q).isEmpty) &&
    (let q := { r with ord := 3, sc := 3 }; ((hostReq q).reqHolds q).isEmpty && !q.op.local && q.stage == 0) &&
    -- an earlier request of the pair; a lost seam; a busy line, with the request sent and listed
    (let q := { r with id := 11, seq := 11 }; !(({ s with reqs := [r, q] } : State).reqAhead q).isEmpty) &&
    (let q := { r with pa := 2 ^ 38 }; !({ hostReq q with seam := false } : State).reaches q) &&
    (({ s with busy := [{ line := 0x10000 / 128, req := 12, acks := 1 }] } : State).busy.any fun b => b.line == r.pa / 128 && b.req != r.id) &&
    ({ r with state := .listed 5 } : HomeReq).isListed &&
    -- a write whose line the other die holds, with one acknowledgement to come, and with two
    (let q := reqOf (.write [(0, 1)]); q.touches.2.2 && ({ line := 0x10000 / 128, coarse := false, agents := [0], vector := 0 } : DirEntry).targets == [0] &&
      ({ line := 0x10000 / 128, coarse := false, agents := [3], vector := 0 } : DirEntry).targets != []) &&
    (({ s with busy := [{ line := r.pa / 128, req := 10, acks := 2 }] } : State).busy.find? fun b => b.line == r.pa / 128) == some { line := r.pa / 128, req := 10, acks := 2 } &&
    -- a refresh that is due, for a cluster that exists
    (({ s with reqs := [{ r with state := .refreshing }] } : State).reqs.any fun q => q.cluster == 1 && q.state == .refreshing) &&
    (s.clusters.any fun x => x.id == 1)) = true := by decide +kernel

/-- A command of queue 0 that has started, with the given line. -/
def copyOf (f : CopyCommand → CopyCommand) : CopyCommand := f { id := 5, team := 2, started := true, record := .ofNat 512 (2 ^ 184) }
def hostCopy (f : CopyCommand → CopyCommand) : State := { hostPages with nextId := 200, commands := [copyOf f] }

theorem witness_CopyWords :
    (([.tcopy (fE 3 3 6 0 0), .tstore (fE 0 3 6 0 1), .tgather (fE 1 255 6 8 2), .tscat (fE 0 255 6 8 0), .tstream (fE 0 0 6 8 0), .tdrain (fE 7 0 6 8 0)] :
      List Instr).all (fun i => runs i (hostN 2)) &&
    runs (.tlay (fE 0 3 6 8 3)) (hostN 2) && runs (.twait (fE 2 3 0 0 0)) (hostN 2) && runs (.tcancel (fE 0 0 0 0 0)) (hostN 2) &&
    idle (.tcancel { fE 0 0 0 0 0 with p := 15 }) (hostN 2) &&
    -- a queue with 63 and with 64 commands
    runs (.tcopy (fE 0 255 6 0 0)) { hostN 2 with nextId := 200, commands := (List.range 63).map fun i => { id := 10 + i } } &&
    runs (.tcopy (fE 0 255 6 0 0)) { hostN 2 with nextId := 200, commands := (List.range 64).map fun i => { id := 10 + i } }) = true := by decide +kernel

/-- A running command of `hostPages` whose next line is to be issued, and what is so of the line. -/
def issues (f : CopyCommand → CopyCommand) (p : State → CopyCommand → CopyLine → Bool) : Bool :=
  let s := hostCopy f
  let k := copyOf f
  s.command? 5 == some k && k.started && !k.ended && !k.gather && match k.next 0 with
    | some l => p s k l
    | none => false

theorem witness_CopyEngineEvents :
    let has := fun (f : CopyCommand → CopyCommand) (p : State → CopyCommand → Bool) =>
      (hostCopy f).command? 5 == some (copyOf f) && p (hostCopy f) (copyOf f)
    let line := fun (f : CopyLine → CopyLine) (p : CopyLine → Bool) =>
      has (fun k => { k with lines := [f {}] }) fun _ k => k.line 0 == some (f {}) && p (f {})
    let goes := fun (s : State) (va : Nat) (w : Bool) => match (s.translate 0 va false { r := !w, w }).1 with
      | .ok _ leaf => some (leafK leaf)
      | .fail cause _ => if cause == Cause.notPresent then none else some true
    (has (fun k => { k with started := false }) (fun s k => !k.started && s.commands.find? (fun x => x.quad == 0 && x.queue == 0) == some k) &&
    has (fun k => { k with ended := true }) (fun _ k => k.ended) &&
    has (fun k => { k with record := 0, row := 1 }) (fun _ k => !k.ended && k.next 0 == none) &&
    -- a gather whose index is in a region line that is not there
    (let k := copyOf fun k => { k with kind := 2 }
     let s := { hostRegion .absent with nextId := 200, commands := [k] }
     s.command? 5 == some k && k.gather && k.index.isNone && decide (k.row < k.rows) &&
       (s.lineFor 1 (keyOf (k.list + 4 * (k.indices k.row).2.1)) 4 true k.sys).1 == some 0) &&
    -- a line read from a page, and from none
    issues (fun k => { k with record := .ofNat 512 (2 ^ 32) }) (fun s k l => k.reads && goes s l.va false == some true) &&
    issues (fun k => { k with record := .ofNat 512 (2 ^ 33) }) (fun s k l => k.reads && goes s l.va false == none) &&
    -- a line written to a plain page, to a kept one in whole words and in part, and to none by a weak and a strong command
    issues (fun k => { k with kind := 1, record := .ofNat 512 (2 ^ 32 + 2 ^ 16) }) (fun s k l =>
      !k.reads && (s.lineFor 1 (keyOf (l.dst.headD 0)) l.n true k.sys).1 == none && goes s l.va true == some false) &&
    issues (fun k => { k with kind := 1, record := .ofNat 512 (2 ^ 32 + 7 * 2 ^ 128) }) (fun s k l =>
      !k.reads && goes s l.va true == some true && l.va % 8 == 0 && l.n == 8) &&
    issues (fun k => { k with kind := 1, record := .ofNat 512 (2 ^ 32) }) (fun s _ l => goes s l.va true == some true && l.n == 1) &&
    issues (fun k => { k with kind := 1, record := .ofNat 512 (2 ^ 57 - 1) }) (fun s _ l => goes s l.va true == none && l.va == 2 ^ 57 - 1) &&
    -- a line without its data, with it for the pool, for the palette, faulted, gone and written
    line id (fun l => l.data == none) && line (fun l => { l with data := some [], dst := [0] }) (fun l => l.data.isSome && l.fault == none && !l.gone && l.dst == 0 :: []) &&
    line (fun l => { l with fault := some 0x10 }) (fun l => l.fault == some 0x10) && line (fun l => { l with gone := true }) (fun l => l.gone) &&
    line (fun l => { l with write := true }) (fun l => l.write && !((hostCopy id).reqs.any fun r => r.id == l.req)) &&
    layDst (copyOf fun k => { k with record := 0 }).record.toNat != 1 && layDst (2 ^ 502) == 1) = true := by decide +kernel

/-- The hosted team with an easel of 256 rows a core, a reservation of name 0 with four panels, and the tiles 0 and 1 allocated. -/
def hostMat : State :=
  let s := (hostN 32).updGrid 1 fun g => { g with easel := 1 }
  after (.accal (fE 0 1 12 0 0)) (setV (after (.pres (fE 0 0 10 11 (3 * 64))) s) 0 12 15)

/-- Its matrix state changed. -/
def hostMatrix (f : Matrix → Matrix) : State := { hostMat with matrix := hostMat.matrix.map f }

theorem witness_MatrixWords :
    (([.pres (fE 0 0 10 11 (63 + 255 * 64)), .presOrg (fE 0 0 6 0 16384), .presOrg (fE 0 0 6 0 16447), .pfree (fE 0 0 0 0 0), .pfree (fE 0 0 0 0 9), .accal (fE 0 0 6 0 0),
      .accfr (fE 0 0 6 0 0), .accz (fE 0 0 0 0 0), .accz (fE 0 0 0 0 (31 + 255 * 32)), .mclass (fE 0 0 0 0 3), .mwait (fE 0 3 0 0 0), .mwait (fE 0 3 0 0 32),
      .mstat (fE 0 4 0 0 0), .mstat (fE 0 4 0 0 1), .easld (fE 0 0 6 0 (1023 + 511 * 1024)), .pwr (fE 0 0 6 8 0), .pwr (fE 0 0 6 8 128), .accrd (fE 0 4 6 0 0),
      .accrd (fE 0 4 6 0 (64 + 128 + 256)), .accwr (fE 0 4 6 0 0)] : List Instr).all (fun i => runs i hostMat && runs i (hostN 2)) &&
    idle (.pres { fE 0 0 10 11 0 with p := 15 }) hostMat &&
    -- a bad configuration, no room, a name taken and free
    sees (.pres (fE 0 0 10 11 0)) (setV hostMat 0 10 (2 ^ 15)) (fun c => c.val c.lead 10 1 == 2 ^ 15) &&
    sees (.pres (fE 0 0 10 11 (128 * 64))) hostMat (fun _ => decide (hostMat.freePanels 0 < 129)) &&
    (hostMat.matrixOf 2).slots.any (fun p => p.name == some 0) && (hostMat.matrixOf 2).slots.all (fun p => p.name != some 9) &&
    (hostMat.matrixOf 2).banks.length == 4 && hostMat.window 2 == 256 && (hostN 2).window 2 == 0 &&
    -- a band claimed by another role
    (hostMatrix fun m => { m with claims := [(0, 1)] }).matrix.any (fun m => m.claims.any fun q => q.1 / 8 == 0 && q.2 != (hostMat.thread 2 0).role.toNat) &&
    -- a queue with 31 and with 32 commands
    ([31, 32].all fun n => runs (.pfree (fE 0 0 0 0 0)) { hostMat with nextId := 200, mcommands := (List.range n).map fun i => { id := 100 + i, team := 2 } }) &&
    -- a thread whose column is not a multiple of the count, behind one that passes
    sees (.accrd (fE 0 4 6 0 32)) (setV hostMat 1 6 64) (fun c => c.val 0 6 1 / 64 % 2 == 0 && c.val 1 6 1 / 64 % 2 == 1)) = true := by decide +kernel

/-- Loop words of one step and of many, dense and sparse, and a packing. -/
def loopD (acc sa eb ks ia ib : Nat) : Instr := .mloop { p := 7, acc := .ofNat 6 acc, sa := .ofNat 6 sa, eb := .ofNat 10 eb, ks := .ofNat 12 ks, ia := .ofNat 9 ia, ib := .ofNat 9 ib }
def loopS (ks : Nat) : Instr := .mloops { p := 7, acc := 0, sa := 0, eb := 0, ks := .ofNat 8 ks, mv := 20, pat := 0, ia := 0, ib := 0 }

/-- A keep mask that keeps the first half of each group of four units, in every register that a sparse loop of one step reads. -/
def hostMasks : State :=
  (List.range 32).foldl (fun s r => [20, 21, 22, 23].foldl (fun s i => setV s r i 0x33333333) s) hostMat

theorem witness_MatrixLoopWords :
    (runs (loopD 0 0 0 1 0 0) hostMat && runs (loopD 1 0 1023 0 0 0) hostMat && runs (loopS 1) hostMasks &&
    -- no bank, no reservation, no easel, rows past the reservation, no masks, a claimed band, no core with the feature
    runs (loopD 31 0 0 1 0 0) hostMat && runs (loopD 0 9 0 1 0 0) hostMat && runs (loopD 0 0 0 1 0 0) (hostN 2) && runs (loopD 0 0 0 4095 127 0) hostMat &&
    runs (loopS 32) hostMat && runs (loopD 0 0 0 1 0 0) (hostMatrix fun m => { m with claims := [(0, 1)] }) &&
    runs (loopD 0 0 0 1 0 0) { hostMat with features := 0x4F } &&
    (let c := ctxOf (loopS 1) hostMasks
     c.map (fun c => (List.range 64).all fun x => ((List.range 4).filter fun i =>
       (c.val (c.gang.members.getD (x / 2) 0) (20 + 2 * (x % 2)) 2).testBit i).length == 2) == some true) &&
    runs (.spkc (fA 4 8 48 0 11 1)) (hostN 2) && runs (.spkc (fA 4 6 15 0 11 0)) (hostN 2) && runs (.qblk (fA 4 1 15 0 5 0)) (hostN 2)) = true := by decide +kernel

/-- Quantities of the statements on a step's sum: the addends 3 and 2 · (-1/2), and the exponent of the greatest. -/
theorem witness_ElementSum :
    Int.log 2 |(3 : ℝ)| = 1 ∧ Int.log 2 |(-1 : ℝ)| ≤ 1 ∧ (3 : ℝ) ≠ 0 ∧ (-1 : ℝ) = 2 * (-1 / 2) ∧
    ({ val := .nan 0 } : MOpnd).val.isNaN = true ∧ ({ val := .nan 0, zero := true } : MOpnd).zero = true := by
  refine ⟨?_, ?_, by norm_num, by norm_num, by decide, by decide⟩
  · rw [show |(3 : ℝ)| = ((3 : ℕ) : ℝ) by norm_num, Int.log_natCast]; decide
  · rw [show |(-1 : ℝ)| = ((1 : ℕ) : ℝ) by norm_num, Int.log_natCast]; decide

/-- A team's queue with one command. -/
def hostCmd (op : MOp) (f : MCommand → MCommand) : State := { hostMat with nextId := 200, mcommands := [f { id := 100, team := 2, op }] }
def aLoop : LoopArgs := { slots := [4], tiles := [(5, 6)], ks := 2, window := 256 }

theorem witness_MatrixEngineEvents :
    let starts := fun (op : MOp) => ((hostCmd op id).mcommands.find? fun k => decide (k.id = 100 ∧ k.team = 2 ∧ k.started = false)) == some { id := 100, team := 2, op } &&
      ((hostCmd op id).team 2).stat == 0
    (starts (.loop aLoop) && starts (.easld 3 255 512 0 []) && starts (.pwr 4 [(0, 0, [1, 2, 3, 4])]) && starts (.accz 5 6 0xFF) && starts (.accwr 5 6 [(63, 127, [1, 2, 3, 4])]) &&
    starts (.accrd 5 6 1 true 255 [(0, 63, 127)]) && starts (.accfr []) && starts (.pfree 0) &&
    -- none left to start; an earlier writer of what it reads; a team that stops
    ((hostCmd (.accfr []) fun k => { k with started := true }).mcommands.all fun k => k.started) &&
    (({ hostCmd (.accfr []) (fun k => { k with reads := [20] }) with
       mcommands := [{ id := 99, team := 2, writes := [20] }, { id := 100, team := 2, reads := [20] }] } : State).mcommands.any fun e => decide (e.id < 100) && e.writes == [20]) &&
    (((hostCmd (.accfr []) id).updTeam 2 fun t => { t with stat := 1 }).team 2).stat == 1 &&
    -- a loop that runs, with a step left and at its last; none
    (hostCmd (.loop aLoop) fun k => { k with started := true }).pickLoop 0 == some ({ id := 100, team := 2, op := .loop aLoop, started := true }, aLoop) &&
    (hostCmd (.loop { aLoop with done := 1 }) fun k => { k with started := true }).pickLoop 0 ==
      some ({ id := 100, team := 2, op := .loop { aLoop with done := 1 }, started := true }, { aLoop with done := 1 }) &&
    hostMat.pickLoop 0 == none &&
    -- what a dense step's operands ask: the last row and column, a reservation without block scales, sound banks
    recBL ((hostMat.matrixOf 2).slotId 4).record == 0 && memWf ((hostMat.matrixOf 2).bankId 5).bytes && decide (63 < 64 ∧ 127 < 128) && aLoop.width == 16) = true := by
  decide +kernel

/-- A task queue's header at physical `pa`: 2^5 records, types from `types` on, TAIL and HEAD (R304). -/
def queueHeader (tail head : Nat) : Nat := 6 * 2 ^ 508 + 5 * 2 ^ 500 + 1 * 2 ^ 448 + (2 ^ 32 + 2 ^ 12) * 2 ^ 384 + (2 ^ 32 + 2 ^ 8) * 2 ^ 320 + tail * 2 ^ 64 + head
def hostTasks (op : HomeOp) (tail head : Nat) : State × HomeReq :=
  let r := reqOf op
  ({ hostReq r with mem := writeBytes (hostReq r).mem r.pa (toBytes 64 (queueHeader tail head)), l2 := (List.range 64).map fun i => { line := r.pa / 128 + i } }, r)

theorem witness_TaskQueueRows :
    (([.spawn (fE 0 0 6 8 0), .spawn (fE 0 3 6 8 3), .spawn (fE 0 0 0 8 6), .spawn (fE 0 0 0 8 4), .tqpop (fE 0 8 6 0 0), .steal (fE 0 184 6 0 1)] : List Instr).all
      (fun i => runs i (hostN 2) && runs i hostPages) &&
    -- an address that is not aligned; a page that is there, that is not, and that is refused
    (hostPages.translate 0 (2 ^ 32) false { r := true, w := true, a := true }).2.nextId == hostPages.nextId &&
    (match (hostPages.translate 0 (2 ^ 33) false { r := true, w := true, a := true }).1 with | .fail cause _ => cause == .notPresent | _ => false) &&
    hostPages.canCount 0 0 && !(({ hostPages with sets := (List.range 256).map fun j => { port := 0, job := 1 + j, mi := 1 } } : State).canCount 0 0) &&
    -- a flight over, refused, and under way
    (({ hostPages with ends := [(7, .done), (8, .refused .illegalOperand 0 0)] } : State).ends.find? fun e => e.1 == 8) == some (8, .refused .illegalOperand 0 0) &&
    -- channel entries: one that carries four words, and a full send buffer
    (hostPages.sendFault (hostPages.team 2) 0 [4]).isSome &&
    (let e : BitVec 128 := .ofNat 128 (4 * 2 ^ 125 + 2 ^ 124)
     let s := hostPages.updJob 0 fun j => { j with devices := [0] }
     s.sendFault (s.team 2) e [4] == none) &&
    -- tasks held and not
    (hostPages.updThread 2 0 fun t => { t with task := true, handler := true }).threads.any (fun t => t.task && t.handler) &&
    -- a header at home: served, with room for one record and for none, with records for one thread and for none
    ([(0, 0), (31, 0), (32, 0), (1, 2 ^ 64 - 31)].all fun p =>
      let q := hostTasks (.spawn [1] [0] (some 3)) p.1 p.2
      served q.1 q.2 && q.2.pa % 64 == 0 && readNat q.1.mem q.2.pa 64 == queueHeader p.1 p.2) &&
    ([(1, 0), (0, 0)].all fun p => let q := hostTasks (.pop true [0, 1] 8) p.1 p.2; served q.1 q.2) &&
    (match ((hostTasks (.spawn [1] [0] none) 0 0).1.translateAll 0 false true { w := true } [2 ^ 32 + 2 ^ 8]) with | (.ok pas, _) => pas.map (·.1) == [0x10100] | _ => false) &&
    (match ((hostTasks (.spawn [1] [0] none) 0 0).1.translateAll 0 false true { w := true } [2 ^ 33]) with | (.error _, _) => true | _ => false)) = true := by
  decide +kernel

/-- A launch descriptor of a grid of one cluster of one team of 32 threads with 8 registers, its kernel record at 2^32 (R295). -/
def descOk : Nat := (2 ^ 32) + 2 ^ 64 + 2 ^ 80 + 2 ^ 96 + 32 * 2 ^ 128 + 2 ^ 141 + 8 * 2 ^ 145
def kernelOk : Nat := 0x4E4B * 2 ^ 48 + 2 ^ 40
/-- The hosted device with the kernel record in a page that may be executed. -/
def hostKernel : State :=
  let s := hostPages
  { s with mem := writeBytes s.mem 0x10000 (toBytes 32 kernelOk) }

theorem witness_LaunchWord :
    (runs (.launch (fE 0 3 6 0 0)) hostPages && runs (.launch (fE 0 192 6 0 0)) hostPages &&
    -- not the leader; misaligned; 63 children and 64
    sees (.launch (fE 0 3 6 0 0)) (hostPages.updGang 3 fun g => { g with members := [1] }) (fun c => c.lead == 1) &&
    sees (.launch (fE 0 3 6 0 0)) (setV hostPages 0 6 64) (fun c => c.val c.lead 6 2 % 128 == 64) &&
    ([63, 64].all fun n => sees (.launch (fE 0 3 6 0 0)) (hostPages.updTeam 2 fun t => { t with children := List.range n }) (fun c => c.tm.children.length == n && c.lead == 0 &&
      c.val c.lead 6 2 % 128 == 0)) &&
    -- the request at home
    (let r := reqOf (.launch [0, 1] 3); served (hostReq r) r && (hostReq r).canCount 66 r.job &&
      !(({ hostReq r with sets := (List.range 256).map fun j => { port := 66, job := 1 + j, mi := 1 } } : State).canCount 66 0)) &&
    -- descriptors: the entry misaligned; a record that cannot be read; one for each row of the table; one that is accepted
    (descOk + 16) % 32 == 16 &&
    ((hostKernel.globalRead 0 { x := true } (2 ^ 33) 32).1 == none) &&
    ((hostKernel.globalRead 0 { x := true } (2 ^ 32) 32).1 == some kernelOk) &&
    ((hostKernel.globalRead 0 { r := true } 0 0).1 == some 0) &&
    ([(1, descOk + 2 ^ 57), (2, descOk - 2 ^ 64), (3, descOk - 32 * 2 ^ 128), (4, descOk + 2 ^ 173), (5, descOk + 2 ^ 179), (7, descOk + 9 * 2 ^ 220 + 2 ^ 288),
      (8, descOk + 25 * 2 ^ 448)].all fun p => match (hostKernel.checkLaunch 0 (some p.2) 0).1 with | .error row => row == p.1 | .ok _ => false) &&
    (match (({ hostKernel with features := 0 } : State).checkLaunch 0 (some (descOk + 2 ^ 192)) 0).1 with | .error row => row == 6 | _ => false) &&
    (match (hostKernel.checkLaunch 0 (some descOk) 10).1 with | .error row => row == 9 | _ => false) &&
    (match (hostKernel.checkLaunch 0 (some descOk) 0).1 with | .ok _ => true | _ => false)) = true := by decide +kernel

theorem witness_WaitingWords :
    (([.park (fE 0 0 6 8 0xFFFF), .park (fE 0 0 6 176 0), .joinw (fE 0 3 6 0 0), .joinw (fE 0 3 255 0 0)] : List Instr).all (fun i => runs i (hostN 2)) &&
    -- a handle that names a child, one that retired, and none
    sees (.joinw (fE 0 3 6 0 0)) ((hostAt 0).updTeam 2 fun t => { t with children := [0], joined := [(9, 3)] }) (fun c => c.val c.lead 6 1 == 0 && c.tm.children == [0]) &&
    sees (.joinw (fE 0 3 6 0 0)) (setV ((hostN 2).updTeam 2 fun t => { t with joined := [(9, 3)] }) 0 6 9) (fun c => c.tm.joined.any fun p => p.1 == c.val c.lead 6 1) &&
    sees (.joinw (fE 0 3 6 0 0)) (setV (hostN 2) 0 6 5) (fun c => !c.tm.children.contains (c.val c.lead 6 1)) &&
    -- an address that is not aligned; a thread that holds a task
    sees (.park (fE 0 0 6 8 1)) (setV (hostN 2) 0 6 8) (fun c => c.val 0 6 1 % 16 == 8) &&
    ((hostN 2).updThread 2 0 fun t => { t with task := true }).threads.any (fun t => t.task) &&
    -- what has waited: joined children whose grids have edges and not, all children, none
    (let s := { hostRegion .dirty with grids := (hostRegion .dirty).grids ++ ([{ id := 9, edges := [(2 ^ 32, 1)] }, { id := 10 }] : List Grid) }
     let s := s.updTeam 2 fun t => { t with joined := [(9, 3), (10, 1)] }
     (s.grid 9).edges != [] && (s.grid 10).edges == [] && (s.team 2).joined == [(9, 3), (10, 1)] && (s.team 2).children == [] &&
       (match (s.cluster 1).mapping 0 with | some (_, _, va) => decide (va < 2 ^ 32 + 1 ∧ 2 ^ 32 < va + 128) | none => false))) = true := by decide +kernel

/-- A grid of two clusters to be placed, its leader known or not. -/
def hostGrid (f : Grid → Grid) : State :=
  { hostN 2 with grids := (hostN 2).grids ++ [f { id := 9, gx := 2, regs := 8, threads := 32 }] }

/-- Two threads that have ended, and nothing left of the team. -/
def hostEnded : State := { hostN 2 with threads := (hostN 2).threads.map fun t => { t with ended := true }, tickets := [] }

theorem witness_GridEvents :
    let may := fun (s : State) (die : Nat) (quads : List Nat) =>
      s.mayPlace (s.grid 9) die && s.setOk (s.grid 9) die quads && (quads.all fun q => s.canCount q 0) && s.canCount 66 0
    -- a leader proposed, one alone at its time, one that has it
    ((hostGrid id).grid 9).id == 9 && ((hostGrid id).grid 9).leader == none && (hostGrid id).dieUp 0 && (hostGrid id).seam &&
    (let s := { hostGrid (fun g => { g with proposed := some 0 }) with now := 24000 * 45045 }; (s.grid 9).proposed == some 0 && decide (0 + 24000 * 45045 ≤ s.now)) &&
    (let s := { hostGrid (fun g => { g with proposed := some 1 }) with now := 24000 * 45045 }; (s.grid 9).proposed == some 1 && !decide (1 + 24000 * 45045 ≤ s.now)) &&
    -- the leader's placement, its last, the follower's first of a chunk; a set that does not fit
    may (hostGrid fun g => { g with leader := some 0 }) 0 [1] && may (hostGrid fun g => { g with leader := some 0, next := 1 }) 0 [31] &&
    may (hostGrid fun g => { g with leader := some 0, next := 2, granted := [[0], [1]] }) 1 [32] && !may (hostGrid fun g => { g with leader := some 0 }) 0 [32] &&
    -- a chunk for the follower, and none where it holds two
    (hostGrid fun g => { g with leader := some 0, granted := [[0]], next := 1 }).mayGrant ((hostGrid fun g => { g with leader := some 0, granted := [[0]], next := 1 }).grid 9) 1 &&
    !(hostGrid fun g => { g with leader := some 0 }).mayGrant ((hostGrid fun g => { g with leader := some 0, granted := [[], []] }).grid 9) 1 &&
    -- a team's lanes, the last included, and free entries for their gangs
    ((hostN 2).team 2).id == 2 && ((List.range 17).filter fun e => (hostN 2).gangs.all fun x => !decide (x.entry = e ∧ x.lane = 31)).length == 17 &&
    -- a set on both dies for a bonded grid
    (let s := hostGrid fun g => { g with teams := 2, bond := 2, leader := some 0 }
     let q := ((List.range 64).filter fun q => s.setOk (s.grid 9) 0 [0, q]).headD 0
     s.setOk (s.grid 9) 0 [0, q] && decide (32 ≤ q)) &&
    -- a team that has ended, its last, that has retired, and one of which something is left
    (hostEnded.threads.all fun t => t.ended) && (hostEnded.team 2).retired == false && (hostEnded.team 2).stat == 0 &&
    (let s := hostEnded.updTeam 2 fun t => { t with retired := true }; (s.team 2).retired && (s.cluster 1).leaving == none) &&
    (let s := (hostEnded.updTeam 2 fun t => { t with retired := true }).updCluster 1 fun c => { c with leaving := some [] }
     (s.team 2).retired && (s.cluster 1).leaving == some [] && !(s.cluster 1).retired) &&
    ((hostN 2).threads.any fun t => t.team == 2 && !t.ended) &&
    -- an index not yet reported
    (hostGrid fun g => { g with leader := some 1, unreported := [1] }).spans = true := by decide +kernel

/-- A message in the send buffer for the own cluster's team 0, for a handler of quad 0, for a peer. -/
def hostMsg (image : Nat) (f : State → State) : State := f { hostQ with sendBuf := [{ id := 50, team := 2, image := .ofNat 128 image }] }

theorem witness_ChannelRows :
    (([.chcfg (fE 0 0 6 0 63), .chcfgClear (fE 0 7 0 0 64), .send (fE 0 0 6 0 0x40), .send (fE 0 3 6 0 0x2E4F), .recv (fE 0 16 0 0 0), .recv (fE 0 176 0 0 0x59C1),
      .recv (fE 0 16 0 0 0x45)] : List Instr).all (fun i => runs i hostQ && runs i (hostN 2)) &&
    -- a wait with a message, without, and behind the acquire
    (let s := { hostQ with recvWaits := [{ ticket := 1, team := 2, d := 16 }] }
     s.inbox.find? (fun q => q.handler == false && q.queue == 0 && q.team == 2) != none && (s.team 2).stat == 0 && s.canCount 0 0) &&
    (hostQ.inbox.find? fun q => q.queue == 5) == none &&
    -- a queue that is busy and one that is not; images that are valid at their bounds
    (hostQ.team 2).chans.getD 0 0 == chanImage && (hostQ.team 2).chans.getD 5 0 == 0 && (hostQ.cluster 1).quads.length == 1 &&
    -- a message that goes to a team, to a handler that is there or not, and out; one that waits, and one that would cross
    ([2 ^ 125 + 2 ^ 124, 2 * 2 ^ 125 + 2 ^ 124, 3 * 2 ^ 125 + 2 ^ 124, 2 * 2 ^ 125 + 2 ^ 124 + 32 * 2 ^ 90].all fun image => (hostMsg image id).sendBuf.any fun m => m.id == 50 &&
      m.image == .ofNat 128 image && m.retryAt == 0) &&
    ((hostMsg (2 * 2 ^ 125 + 2 ^ 124) fun s => { s with handlers := [{ quad := 0, queue := 0, team := 2, lgd := 0 }] }).handlers.find? fun h => h.quad == 0 && h.queue == 0).isSome &&
    ((hostMsg 0 fun s => { s with seam := false }).spans == false) && (hostMsg (2 * 2 ^ 125) id).handlers.isEmpty &&
    ((hostMsg 0 id).teams.find? fun t => t.cluster == 1 && t.idx == 0).isSome && ((hostMsg 0 id).teams.find? fun t => t.cluster == 1 && t.idx == 11) == none &&
    -- a message behind an earlier one of its entry
    (({ hostQ with sendBuf := [{ id := 49, team := 2 }, { id := 50, team := 2 }] } : State).sendBuf.any fun x => x.team == 2 && x.entry == 0 && decide (x.id < 50))) = true := by
  decide +kernel

/-- A valid collective descriptor: a barrier of group 0 by the local member 0 (R339). -/
def descColl : Nat := 3 * 2 ^ 508 + 5 * 2 ^ 504
def collCmd : CollCommand := { id := 60, team := 2, queue := 0, desc := .ofNat 512 descColl, round := 1 }
/-- The group of this device and another, and a command of it. -/
def hostColl (f : State → State) : State := f { hostPages with nextId := 200, collGroups := [{ group := 0, n := 2, c := 1, members := [0, 1] }], colls := [collCmd] }

theorem witness_JobWords :
    (([.quiet (fE 0 0 0 0 7), .qpoll (fE 0 3 0 0 0), .qpoll (fE 0 192 0 0 0), .lossn (fE 0 4 0 0 15), .msgh (fE 0 0 6 0 15), .msghOff (fE 0 0 0 0 16), .cwait (fE 3 3 0 0 0),
      .coll (fE 0 3 6 0 0), .coll (fE 3 255 6 0 0)] : List Instr).all (fun i => runs i (hostN 2) && runs i (hostColl id)) &&
    -- the queue depth at and past its bound; a handler of the own team, of another, with a message
    sees (.msgh (fE 0 0 6 0 0)) (setV (hostN 2) 0 6 8) (fun c => c.val c.lead 6 1 == 8) && sees (.msgh (fE 0 0 6 0 0)) (setV (hostN 2) 0 6 9) (fun c => c.val c.lead 6 1 == 9) &&
    sees (.msgh (fE 0 0 6 0 0)) { hostN 2 with handlers := [{ team := 2 }] } (fun c => c.tm.id == 2) &&
    sees (.msgh (fE 0 0 6 0 0)) { hostN 2 with handlers := [{ team := 77 }] } (fun c => c.tm.id != 77) &&
    sees (.msghOff (fE 0 0 0 0 16)) { hostN 2 with handlers := [{ team := 2 }], inbox := [{ quad := 0, team := 2, handler := true }] } (fun c => c.tm.id == 2) &&
    -- messages that wait as results; a job that is broken, and one with a note
    sees (.quiet (fE 0 0 0 0 7)) { hostQ with results := [{ id := 70, ticket := 5, team := 2, act := .send 0 0 0 }] } (fun c => c.act.contains 0) &&
    sees (.qpoll (fE 0 3 0 0 0)) { hostN 2 with latches := [{ wave := 65536, kind := 2 }] } (fun c => c.tm.job == 0) &&
    sees (.lossn (fE 0 4 0 0 0)) ((hostN 2).updJob 0 fun j => { j with notes := [(1, 2)] }) (fun c => c.job.notes[0]? == some (1, 2)) &&
    -- a verdict of a later wave and of an earlier one, for a thread that waits
    (let w : QuietWait := { ticket := 1, team := 2, ranks := [0], wave := 3 }
     let s := fun wave => { hostN 2 with quiets := [w], latches := [{ wave, kind := 1 }] }
     (s 4).quiets == [w] && (s 4).canCount 0 0 && ((s 4).latches.find? fun l => l.port == 0 && l.job == 0) == some { wave := 4, kind := 1 } && decide (3 < 4 ∧ ¬ 3 < (3 : Nat)))) = true := by
  decide +kernel

theorem witness_CurfewEvents :
    let j := fun (f : Job → Job) (now : Nat) (p : State → Job → Bool) =>
      let s := { (hostN 2).updJob 0 f with now }
      match s.job? 0 with
        | some j => p s j
        | none => false
    (((hostN 2).job? 9) == none &&
    -- a wave due, and one clock before; a set to be sampled in each pass; the ends of the passes
    j id (48000 * 45045) (fun s j => j.phase == 0 && s.dieUp j.root && (s.grids.any fun g => g.job == j.id && g.status == none) && j.stands == none &&
      decide (j.waveAt + j.period * 2400 * 45045 ≤ s.now)) &&
    j id (48000 * 45045 - 1) (fun s j => j.phase == 0 && !decide (j.waveAt + j.period * 2400 * 45045 ≤ s.now)) &&
    j (fun j => { j with stands := some 7 }) (48000 * 45045) (fun s j => j.stands.isSome && (s.jobs.filter fun x => x.id == 0 && !x.closed).length == 1) &&
    -- the root's die down, and nothing to run for
    (let s := { hostN 2 with up := [false, true] }; (s.job? 0).any fun j => !s.dieUp j.root) &&
    (let s := { hostN 2 with grids := [] }; s.quiets.isEmpty && (s.job? 0).isSome) &&
    -- other devices in the job's set, with their sums free
    j (fun j => { j with phase := 1, due := [], devices := [0, 5] }) 0 (fun s j => !(j.devices.all fun d => d == s.pod) && j.due == []) &&
    j (fun j => { j with phase := 1 }) 0 (fun s j => (s.sets.find? fun k => k.port == 0 && k.job == 0).isSome && j.phase == 1 && !j.sampled.contains 0) &&
    j (fun j => { j with phase := 3, sampled := [0] }) 0 (fun _ j => j.phase == 3 && j.sampled.contains 0) &&
    j (fun j => { j with phase := 1, due := [] }) 0 (fun _ j => j.phase == 1 && j.due == []) &&
    -- verdicts: quiet, idle, and none
    j (fun j => { j with phase := 3, due := [], sumA := [5, 4, 2, 2], sumB := [5, 4, 2, 2], lossTotal := 1 }) 0 (fun _ j =>
      j.sumA == j.sumB && !j.xB && j.sumB.getD 2 0 == j.sumB.getD 3 0 && j.sumB.getD 0 0 == (j.sumB.getD 1 0 + j.lossTotal) % 2 ^ 48) &&
    j (fun j => { j with phase := 3, due := [], sumA := [5, 4, 2, 2], sumB := [5, 4, 2, 2] }) 0 (fun _ j =>
      j.sumA == j.sumB && !j.xB && j.sumB.getD 2 0 == j.sumB.getD 3 0 && j.sumB.getD 0 0 != (j.sumB.getD 1 0 + j.lossTotal) % 2 ^ 48) &&
    j (fun j => { j with phase := 3, due := [], xB := true }) 0 (fun _ j => j.phase == 3 && j.due == [] && j.xB)) = true := by decide +kernel

theorem witness_CollectiveEvents :
    -- a reduction's operands: 32 and 64 bits, signed and not, and a type that is rounded
    (([0, 0x7FFFFFFF, 0x80000000, 0xFFFFFFFF].all fun x => decide (x < 2 ^ 32)) && decide ((0 : Nat) < 4 ∧ (3 : Nat) < 4 ∧ (5 : Nat) ≤ 5 ∧ (8 : Nat) ≤ 8 ∧ (2 : Nat) < 3)) &&
    -- a group that is not there; one whose command heads its queue, and one whose command does not
    (hostColl id).collGroups.find? (fun g => g.group == 9) == none &&
    (let s := hostColl id
     match s.collGroups.find? fun g => g.group == 0 with
      | some g => g.c == 1 && (s.colls.find? fun k => k.desc.toNat / 2 ^ 490 % 2 ^ 6 == g.group && k.desc.toNat / 2 ^ 483 % 2 ^ 7 == 0 && k.round == 1) == some collCmd &&
          (s.colls.all fun x => x.team != 2 || x.queue != 0 || decide (60 ≤ x.id)) &&
          (s.collTest g descColl [(collCmd, 0)]).1 == none
      | none => false) &&
    ((hostColl fun s => { s with colls := { collCmd with id := 59, desc := 0 } :: s.colls }).colls.any fun x => x.team == 2 && x.queue == 0 && decide (x.id < 60)) &&
    -- the seam lost between two dies
    ((hostColl fun s => { s with seam := false }).dies == 2 && !(hostColl fun s => { s with seam := false }).seam) &&
    -- a source that does not translate
    (let d := descColl - 2 ^ 504 * 5 + 8 * 2 ^ 416
     let k := { collCmd with desc := .ofNat 512 d }
     ((hostColl id).collTest { group := 0, n := 2, c := 1, members := [0, 1] } d [(k, 0)]).1 != none) = true := by decide +kernel

theorem witness_StateWords :
    (([.capr (fE 0 4 6 0 0), .statr (fE 0 4 255 0 0), .statr (fE 0 4 6 0 0x317), .statw (fE 0 0 255 8 0), .statw (fE 0 0 6 8 0xFFFF), .slogr (fE 0 8 6 10 0), .slogpReplay (fE 0 0 6 10 0),
      .slogpDrop (fE 0 0 6 10 1), .slogpAll (fE 0 0 6 10 2), .halt (fE 0 0 255 8 0x12), .halt (fE 0 0 6 8 0x12), .wdog (fE 0 4 6 8 0), .wdog (fE 0 4 6 255 0)] : List Instr).all
      (fun i => runs i (hostN 2)) &&
    -- a second thread that traps behind the first, which is owed its result; numbers at and past their bounds
    sees (.capr (fE 0 4 6 0 0)) (hostAt 8) (fun c => ready (hostAt 8) [(6, 1)] c && c.act == [0] ++ 1 :: [] && c.val 0 6 1 % 16 == 0 && c.val 1 6 1 % 16 != 0) &&
    sees (.slogr (fE 0 8 6 10 0)) (hostAt 67) (fun c => c.val 0 6 1 ≤ 66 && 66 < c.val 1 6 1) && sees (.slogr (fE 0 8 6 10 0)) (setV (hostN 2) 1 10 512) (fun c => 511 < c.val 1 10 1) &&
    sees (.statr (fE 0 4 6 0 0)) (setV (hostAt 0) 1 6 256) (fun c => c.val 1 6 1 == 256) &&
    ((hostN 2).teams.find? fun t => t.quad == 0 && t.slot == 0 && !t.retired && t.stat != 3).isSome &&
    sees (.wdog (fE 0 4 6 8 0)) (hostN 2) (fun c => ((hostN 2).job? (c.val c.lead 6 1 % 2 ^ 12)).isSome) &&
    sees (.wdog (fE 0 4 6 8 0)) (setV (hostN 2) 0 6 5) (fun c => (hostN 2).job? (c.val c.lead 6 1 % 2 ^ 12) == none)) = true := by decide +kernel

theorem witness_TranslationRows :
    (([.tlbiVa (fE 0 0 6 8 0), .tlbiAsid (fE 0 0 6 0 1), .tlbiAll (fE 0 0 0 0 2)] : List Instr).all (fun i => runs i (hostN 2)) &&
    sees (.tlbiAsid (fE 0 0 6 0 1)) (setV (hostN 2) 0 6 511) (fun c => c.val c.lead 6 1 == 511) && sees (.tlbiAsid (fE 0 0 6 0 1)) (setV (hostN 2) 0 6 512) (fun c => 512 ≤ c.val c.lead 6 1) &&
    -- what is noted and held on a page, and what is not
    (let s := { (hostN 2).updGang 3 (fun g => { g with status := .held (.page 0 (2 ^ 33)), fetchHold := some (0, 2 ^ 34) }) with pageFaults := [(0, 2 ^ 17, 1)] }
     s.pageFaults.any (fun p => p.1 == 0 && p.2.1 == 2 ^ 17) && s.pageFaults.all (fun p => p.2.1 != 0) &&
       ((hostN 2).updGang 3 fun g => { g with status := .stopped (some (.page 0 (2 ^ 33))) }).gangs.any (fun g => g.status == .stopped (some (.page 0 (2 ^ 33)))) && (gangOf s).status == .held (.page 0 (2 ^ 33)) && 2 ^ 33 / 2 ^ 16 == 2 ^ 17 &&
       (gangOf s).fetchHold == some (0, 2 ^ 34))) = true := by decide +kernel

/-- The hosted gang in the handler of a trap at word `w`. -/
def hostTrap (f : TrapState → TrapState) : State :=
  (hostN 2).updGang 3 fun g => { g with trap := some (f { tpc := 0x1000, word := 2, tres := 0x1020, members := [0, 1], cause := 3 }) }

theorem witness_ReturnAndStopRows :
    ([Instr.eret (fE 0 0 0 0 0), .eretSkip (fE 0 0 0 0 1), .eretPc (fE 0 0 6 0 2)].all (fun i =>
      sees i (hostTrap id) (fun c => c.act == c.gang.members && (c.gang.trap.map (·.members)) == some c.gang.members) && sees i (hostN 2) (fun c => c.gang.trap == none) &&
      sees i (hostTrap fun t => { t with members := [0] }) (fun c => (c.gang.trap.map (·.members)) == some [0]) &&
      sees i (hostTrap fun t => { t with word := 0, pend := true }) (fun c => c.gang.trap.any fun t => t.pend) &&
      sees i (hostTrap fun t => { t with word := 3 }) (fun c => c.gang.trap.any fun t => (t.tpc + 8 * (t.word + 1)) % 2 ^ 64 == t.tres)) &&
    ([Instr.preemptStop (fE 0 3 6 0 0), .preemptForce (fE 0 3 6 0 1), .preemptResume (fE 0 3 6 0 2)].all fun i =>
      sees i (hostN 2) (fun c => c.val c.lead 6 1 == 0) && sees i (setV (hostN 2) 0 6 5) (fun c => c.val c.lead 6 1 == 5)) &&
    -- the forced limit at its time and before; the watchdog at its time, before, for a persistent grid, and once it stopped
    (let s := { (hostN 2).updCluster 1 (fun c => { c with preempt := some 0 }) with now := 480000 * 45045 }
     (s.cluster 1).preempt == some 0 && (s.cluster 1).id == 1 && max 1 ((s.job 0).wdog.toNat / 2 ^ 32 % 2 ^ 8) * 24000 * 45045 == s.now) &&
    ((hostN 2).grids.find? fun g => g.id == 9) == none &&
    (let s := { hostN 2 with now := 2 ^ 20 * 2400 * 45045 }
     s.grids.any fun g => g.id == 1 && g.status == none && g.fired != 1 && (s.job 0).wdog.toNat / 2 ^ 16 % 2 ^ 5 == 20 && (s.job 0).heldSince == none &&
       decide (g.progress + 2 ^ 20 * 2400 * 45045 ≤ s.now ∧ ¬ g.progress + 2 ^ 20 * 2400 * 45045 ≤ s.now - 1))) = true := by decide +kernel

/-- A saved cluster without teams whose image's header is in memory at 2^32, where v6:v7 point (R389). -/
def hostSaved : State :=
  let c : Cluster := { id := 9, grid := 1 }
  let s : State := { hostPages with clusters := hostPages.clusters ++ [c] }
  let header := s.imageHeader c
  { s with
    saved := [{ cluster := 9, va := 2 ^ 32, header }]
    mem := writeBytes s.mem 0x10000 (header.flatMap fun x => toBytes 8 x.toNat) }

theorem witness_ContextWords :
    (([.ctxsv (fE 0 3 6 8 0), .ctxsv (fE 0 3 6 8 0x7FFFF), .ctxld (fE 0 3 6 8 0)] : List Instr).all (fun i => runs i (hostN 2)) &&
    -- a cluster that is stopped; a handle of none; an image that is kept and one that is not
    (let s := setV ((hostN 2).updTeam 2 fun t => { t with stat := 2 }) 1 6 0
     runs (.ctxsv (fE 0 3 6 8 4)) s && (s.team 2).stat == 2) &&
    sees (.ctxsv (fE 0 3 6 8 4)) (setV (hostN 2) 0 6 5) (fun c => c.val c.lead 6 1 == 5) &&
    -- the image of a saved cluster of no team in a kept page, which agrees and may resume on no quad; and one that does not agree
    sees (.ctxld (fE 0 3 10 6 0)) hostSaved (fun c => c.val c.lead 6 2 == 2 ^ 32) &&
    (let head := hostSaved.fetchBytes 0 true (2 ^ 32) 256
     match head.2.saved.find? fun k => some (k.header.flatMap fun x => toBytes 8 x.toNat) == head.1 && !(head.2.cluster k.cluster).aborted with
      | none => false
      | some k =>
        let cl := head.2.cluster k.cluster
        let all := head.2.fetchBytes 0 true (2 ^ 32) (256 * head.2.imageUnits cl)
        match all.1 with
        | none => false
        | some bs => cl.id == 9 && all.2.imageAgrees k bs && !all.2.imageAgrees k (bs.drop 1))) = true := by decide +kernel

theorem witness_ClauseRows :
    -- a gang to be fetched, held on its page, parked, and running; a page that may be executed and one that is not there
    ((let s := (hostKernel.updGang 3 fun g => { g with status := .fetch, pc := 2 ^ 32, word := 0 })
      (s.gang? 3).any (fun g => g.status == .fetch && g.fetchHold == none) &&
        (match s.translateRun 0 true { x := true } 2 (2 ^ 32) 8 with | (.ok runs, _) => runs == [(0x10000, 8)] | _ => false) &&
        (match s.translateRun 0 true { x := true } 2 (2 ^ 33) 8 with | (.error (cause, _, va), _) => cause == .notPresent && va == 2 ^ 33 | _ => false)) &&
    ((hostKernel.gang? 9) == none) && ((hostKernel.updGang 3 fun g => { g with status := .parked }).quietGang 3) &&
    -- a lane whose gang runs; one with two that may, one of them for a trap that is pending, one with none
    ((hostN 2).gangs.any fun g => g.status == .running) && ((hostN 2).gangs.all fun g => g.lane != 5) &&
    (let s := { hostN 2 with gangs := [{ gangOf (hostN 2) with status := .ready, eligible := some 4, word := 0 },
        { gangOf (hostN 2) with id := 7, entry := 1, members := [1], status := .ready, eligible := some 2, word := 0, pending := some .watchdog }] }
     (s.gangs.all fun g => g.eligible.isSome && g.behind.isEmpty) && (s.gang? 7).isSome)) = true := by decide +kernel

theorem witness_ResultWritten :
    let s := fun (act : ResultAct) (f : State → State) => f { hostQ with results := [{ id := 70, ticket := 5, team := 2, act }] }
    ((s .nothing id).results.find? fun r => r.id == 70).isSome ∧ (s .nothing id).results.find? (fun r => r.id == 71) = none ∧
    (∀ y ∈ [(0, 191, (7 : Word)), (0, 192, 7)], y.2.1 < 192 → y.2.1 < (hostQ.team 2).alloc) ∧
    ((s (.send 0 chanImage 7) id).sendBuf.length < 256 ∧ (s (.send 0 chanImage 7) id).canCount 0 0 = true) ∧
    256 ≤ ((s (.send 0 chanImage 7) fun s => { s with sendBuf := List.replicate 256 {} }).sendBuf.filter fun m => m.port == 0).length := by decide +kernel

/-- A fold of 32 threads of a team of 64, the lane free. -/
def hostFold (f : Fold → Fold) : State :=
  let s := hostN 2
  { s with nextId := 200, gangs := [], folds := [f { id := 40, team := 2, pc := 64, threads := (List.range 32).map fun i => (i, false, {}) }] }

theorem witness_FoldEvents :
    -- a ready fold; one at its age limit and one before; one of a cluster that stops
    (((hostFold id).folds.find? fun f => f.id == 40).any (fun f => 32 ≤ f.threads.length) && ((hostFold id).cluster 1).preempt == none && ((hostFold id).team 2).stat == 0 &&
    ((hostFold id).folds.find? fun f => f.id == 41) == none && ((hostN 2).grid 1).fage == 0 &&
    (let s := { hostFold id with now := 256 * 45045 }; decide (256 ≤ s.dieClock 0 ∧ ({ s with now := s.now - 1 } : State).dieClock 0 < 256)) &&
    ((hostFold fun f => { f with threads := [(0, false, {})] }).threads.any fun t => t.team == 2 && t.rank % 32 == 1 && !t.ended) &&
    -- a lane whose 17 entries are taken, with gangs idle since long
    (let s := { hostFull with now := 300 * 45045, gangs := hostFull.gangs.map fun (g : Gang) => { g with status := .held .counters } }
     (List.range 17).all (fun e => s.gangs.any fun g => g.entry == e && g.lane == 0) && s.gangs.all fun g => g.eligible == none && g.trap == none && g.flight == [] && decide (256 ≤ s.dieClock 0 - g.idleSince))) = true := by decide +kernel

/-- Queue 0 enabled with 16 entries, a command of the code with arguments at its head. -/
def cmdOf (op addr a0 a1 a2 : Nat) : BitVec 512 := .ofNat 512 (a2 * 2 ^ 256 + a1 * 2 ^ 192 + a0 * 2 ^ 128 + addr * 2 ^ 64 + op)
def hostShegus (e : BitVec 512) : State := { hostPages with queues := (List.replicate 16 ({} : CmdQueue)).set 0 { lg := 4, enable := true, tail := 1, entries := [e] } }
/-- What CommandRow's last clause asks. -/
def legalAt (s : State) (op : Nat) : Bool :=
  let c := s.queues.getD 0 {}
  c.enable && decide (4 ≤ c.lg ∧ c.lg ≤ 12) && !c.error && c.stalled == none && match c.entries.head? with
    | some e => let v := e.toNat; v % 2 ^ 8 == op && v / 2 ^ 33 % 2 ^ 31 == 0 && v / 2 ^ 8 % 2 ^ 8 == 0 && v / 2 ^ 16 % 2 ^ 16 != 0xFFFF
    | none => false

theorem witness_ShegusCommands :
    (([1, 2, 3, 4, 5, 6, 7, 8, 9, 10, 11, 12, 13, 14].all fun op => legalAt (hostShegus (cmdOf op 0x20000 0 0 0)) op) &&
    -- a queue that is not enabled, an empty one, a notice's tag, reserved bits
    !legalAt hostPages 1 && !legalAt (hostShegus (cmdOf (1 + 0xFFFF * 2 ^ 16) 0 0 0 0)) 1 && !legalAt (hostShegus (cmdOf (1 + 2 ^ 33) 0 0 0 0)) 1 &&
    -- addresses: at the end of HBM, past it, in the host's memory, owned and not
    ((hostPages.lacksHalves (2 ^ 39 - 16) 16 true).isEmpty && hostPages.hasDie ((2 ^ 39 - 1) / 2 ^ 38) && !(hostPages.lacksHalves 0x8000000000000 64 true).isEmpty &&
      ({ hostPages with halves := [(0x200000000000, .exclusive)] } : State).lacksHalves 0x8000000000000 64 true == []) &&
    -- jobs that are open and not, with a grid that is open and with none; numbers free and taken; a group's size
    ((hostPages.job? 0).isSome && hostPages.job? 1 == none && (hostPages.grids.any fun g => g.job == 0 && g.status == none)) &&
    (hostPages.updGrid 1 fun g => { g with status := some (1, 0) }).grids.all (fun g => g.status != none) && hostPages.spills.isEmpty && decide (0 ≤ hostPages.spillMax) &&
    (let e := cmdOf 8 0x20000 63 2 2; legalAt (hostShegus e) 8 && (readNat hostPages.mem 0x20000 2 == hostPages.pod)) &&
    -- LAUNCH of the accepted descriptor of job 0
    hostPages.canCount 66 0 && 0x20000 % 128 == 0) = true := by decide +kernel

theorem witness_ShegusRanges :
    (legalAt (hostShegus (cmdOf 5 0 0 65536 0)) 5 && legalAt (hostShegus (cmdOf 5 0 511 (2 ^ 29) 7)) 5 && legalAt (hostShegus (cmdOf 5 0 512 1 0)) 5 &&
    (legalAt (hostShegus (cmdOf 6 (2 ^ 32) 0 0 0)) 6 && ({ hostShegus (cmdOf 6 (2 ^ 32) 0 0 0) with allocs := [{ va := 2 ^ 32, pa := 0x10000, bytes := 65536 }] } : State).allocs.any
      fun a => a.asid == 0 && a.va == 2 ^ 32) && legalAt (hostShegus (cmdOf 7 0 0 1 0)) 7 &&
    -- a range that lies in free pages below the areas of Shegus, the last such page, and the first behind it
    hostPages.owners.isEmpty && decide (0x3EFFFF0000 % 2 ^ 38 + 65536 ≤ shegusBase ∧ ¬ 0x3F00000000 % 2 ^ 38 + 65536 ≤ shegusBase) &&
    (hostPages.mapRange 0 (2 ^ 40) 0x30000 65536 true false 1).isSome) = true := by decide +kernel

theorem witness_HostAndErrorEvents :
    let q := fun (f : CmdQueue → CmdQueue) => (List.replicate 16 ({} : CmdQueue)).set 0 (f { lg := 4, enable := true })
    let s := hostShegus (cmdOf 1 0 0 0 0)
    -- completions with room and without; notices for queue 0
    ((s.queues.length == 16 && s.notices.isEmpty && s.noticesLost == 0 && (s.lacksHalves 0 16 true).isEmpty && decide ((0 + 2 ^ 64 - 0) % 2 ^ 64 < 2 ^ 4)) &&
    (let c := ((q fun c => { c with cpos := 16 }).getD 0 {}); c.lg == 4 && !decide ((c.cpos + 2 ^ 64 - c.chead) % 2 ^ 64 < 2 ^ 4)) &&
    -- doorbells at and past the ring's size
    (decide ((16 + 2 ^ 64 - 0) % 2 ^ 64 ≤ 2 ^ 4 ∧ 2 ^ 4 < (17 + 2 ^ 64 - 0) % 2 ^ 64 ∧ (15 : Nat) < 16 ∧ 16 ≤ (16 : Nat))) &&
    -- the window's last half, an access across two halves, and no window
    (({ hostPages with hdm := some (0, 0x20000, 65536) } : State).hdm == some (0, 0x20000, 65536) && (0x20000 + 65472) / 64 == (0x20000 + 65472 + 64 - 1) / 64 &&
      (0x20000 + 32) / 64 != (0x20000 + 32 + 64 - 1) / 64 && hostPages.hdm == none && hostPages.busy.isEmpty) &&
    (hostPages.pageKept 0x10000 && !hostPages.pageKept 0x20000) &&
    -- a half that is held and one that is not; a grant that was asked for, one for a request that waits, and none
    (({ hostPages with halves := [(0x200000000000, .modified)], hostAsks := [(0x200000000001, true)] } : State).half 0x200000000000 == some .modified &&
      0x8000000000000 / 64 == 0x200000000000) &&
    (let r := { reqOf (.read 0 8) with pa := 0x8000000000000, state := .busy }
     let b : Busy := { line := 0x8000000000000 / 128, req := 10, acks := 1 }
     let s := { hostReq r with busy := [b] }
     s.busy.find? (fun b => b.line == 0x8000000000000 / 64 / 2) == some b && (s.reqs.find? fun x => x.id == b.req) == some r && decide (b.acks ≤ 1)) &&
    -- the dies that are there and the classes of errors
    (hostPages.hasDie 1 && !hostPages.hasDie 2 && decide ((2 : Nat) < 3))) = true := by decide +kernel

theorem witness_LossAndResetEvents :
    (hostPages.seam && hostPages.dies == 2 && hostPages.dieUp 0 && hostPages.dieUp 1 && !(({ hostPages with up := [false, true] } : State).dieUp 0) &&
    !(({ hostPages with seam := false } : State).seam) && ({ hostPages with dies := 1 } : State).dies != 2 &&
    (hostPages.grids.any fun g => g.status == none) &&
    -- a clock at its lowest, at its highest, and due to rise
    ((hostPages.clocks.getD 0 (0, 0, 0)).2.2 == 16 && (({ hostPages with clocks := [(0, 0, 8), (0, 0, 9)] } : State).clocks.getD 0 (0, 0, 0)).2.2 == 8 &&
      decide ((0 : Nat) + 2400 * 45045 ≤ 2400 * 45045 ∧ ¬ (0 : Nat) + 4800 * 45045 ≤ 4800 * 45045 - 1)) &&
    -- images that are refused and taken
    ((false == false) && decide (0 < 1 ∧ (5 : Nat) < 6) && ({ hostPages with flash := [1] } : State).flash != [] && hostPages.rollback == 0) &&
    -- a bonded cluster
    (((hostPages.updCluster 1 fun c => { c with quads := [0, 32] }).cluster 1).quads.any fun q => q / 32 == 1)) = true := by decide +kernel

/-- The invariants hold of the state after reset, and of a device in use, which steps on. -/
theorem witness_StepKeepsCanonicalMemory : State.reset.canonical ∧ (hostKept (reqOf (.probe 4))).canonical := by
  unfold State.canonical
  decide +kernel
theorem witness_StepKeepsRecords : State.reset.recordsSound ∧ hostMat.recordsSound ∧ hostFull.recordsSound := by
  unfold State.recordsSound
  decide +kernel
theorem witness_step_goes_on : (match step hostMat with
    | .next t => decide (t.gangs ≠ [])
    | _ => false) = true := by decide +kernel

/-! ### Worked examples of the spec

The words are those that the spec writes out beside its examples, and the results those it states. -/

/-- The word decodes to the instruction, and the instruction encodes to the word. -/
def reads (w : Nat) (i : Instr) : Bool := decode (.ofNat 64 w) == .ok i && encode i == some (.ofNat 64 w)

theorem witness_EncodeDecode : reads 0x1570280A00000001 (.iaddi (fI 5 5 0 1)) = true := by decide +kernel

/-- 02_encoding.md (its worked clause), 03_control.md R95, 04_integer.md, 05_float.md, 06_glaze.md. -/
theorem test_words_of_the_spec_1 : (
    reads 0x7070200C7F802200 (.ldp (fM 4 6 255 4 2 0 0 0 0)) && reads 0x40A0501606000528 (.fadd { fA 10 11 12 0 5 0x28 with p := 10 }) &&
    reads 0x0370A00000000080 (.call (fB 20 0 0 0x80)) && reads 0x0470002900000000 (.ret (fB 0 20 1 0)) &&
    reads 0x1070200A03000410 (.iadd (fA 4 5 6 0 4 16)) && reads 0x2B70080401874000 (.isetp (fA 1 2 3 0x3A 0 0)) &&
    reads 0x437050160601A500 (.ffma (fA 10 11 12 13 5 0)) && reads 0x5A701800000087FC (.fmtw (fI 3 0 0 0x87FC)) &&
    reads 0x5970200A03006500 (.ncvtEnc (fA 4 5 6 3 5 0)) && reads 0x0A72240000000000 (.glz { p := 7, n := 2, msk := 2, md := 1, z := 0 }) &&
    reads 0x6070400800004B00 (.tget (fA 8 4 0 2 11 0))) = true := by decide +kernel

/-- 07_pool.md, 08_global.md, 09_copy.md, 13_ordering.md. -/
theorem test_words_of_the_spec_2 : (
    reads 0x727020107F800B51 (.ldpf (fM 4 8 255 1 3 2 2 0 1)) && reads 0x7670200C03810B08 (.casp (fA 4 6 7 8 11 8)) &&
    reads 0x7570200C7F808240 (.atomp (fN 4 6 255 1 0 2 2 0 0 0)) && reads 0x84700000C0000003 (.rmap (fE 0 0 6 0 3)) &&
    reads 0x907020107F808360 (.atomg (fN 4 8 255 1 0 3 3 0 0 0)) && reads 0x947060107F803460 (.recon (fN 12 8 255 0 6 4 3 0 0 0)) &&
    reads 0x927080107F800400 (.ldk (fN 16 8 255 0 0 4 0 0 0 0)) && reads 0xA0720380C0000000 (.tcopy (fE 2 7 6 0 0)) &&
    reads 0xA0727F80C0000000 (.tcopy (fE 2 255 6 0 0)) && reads 0xA772028000000000 (.twait (fE 2 5 0 0 0)) &&
    reads 0x8170000000000078 (.fence (fM 0 0 0 0 0 3 3 0 0)) && reads 0x8170000000000048 (.fence (fM 0 0 0 0 0 2 1 0 0)) &&
    reads 0x81700000000000B0 (.fence (fM 0 0 0 0 0 5 2 0 0))) = true := by decide +kernel

/-- 10_matrix.md, 11_tasks.md, 12_messages.md. -/
theorem test_words_of_the_spec_3 : (
    reads 0xB370810000108020 (loopD 2 1 0 4 64 32) && reads 0xB4710200008A0082 (.mloops { p := 7, acc := 4, sa := 2, eb := 0, ks := 2, mv := 40, pat := 0, ia := 2, ib := 2 }) &&
    reads 0xB0700081405800C2 (.pres (fE 0 1 10 11 0xC2)) && reads 0xB8700800C0000143 (.accrd (fE 0 16 6 0 0x143)) &&
    reads 0xC070008100800001 (.spawn (fE 0 1 8 16 1)) && reads 0xC170050180000000 (.launch (fE 0 10 12 0 0)) &&
    reads 0xD0700080C0000005 (.chcfg (fE 0 1 6 0 5)) && reads 0xD170000100000085 (.send (fE 0 0 8 0 0x85)) &&
    reads 0xD270080000000005 (.recv (fE 0 16 0 0 5)) && reads 0xD370008000000002 (.quiet (fE 0 1 0 0 2)) &&
    reads 0xD6710380C0000000 (.coll (fE 1 7 6 0 0))) = true := by decide +kernel

/-- After a word of one thread, register `i` of layer `k` has the value: written at once, or in the result owed. -/
def gives (s : State) (i : Instr) (k r v : Nat) : Bool :=
  let t := afterExec i s
  match t.results with
  | [] => t.reg 2 0 k r == .ofNat 32 v
  | rs => rs.any fun x => match x.act with
    | .regs ws => ws.contains (k, r, .ofNat 32 v)
    | _ => false

/-- 04_integer.md R112: packed bytes, saturated. -/
theorem test_iadd_packed_saturating :
    gives (setV (setV host1 0 5 0x7F8010F0) 0 6 0x0180F0F0) (.iadd (fA 4 5 6 0 4 16)) 0 4 0x7F8000E0 = true := by decide +kernel

/-- 05_float.md R129: a sum halfway between two numbers. -/
theorem test_fadd_halfway :
    let s := setV (setV host1 0 5 0x3F800000) 0 6 0x33800000
    (gives s (.fadd (fA 4 5 6 0 5 0)) 0 4 0x3F800000 && gives s (.fadd (fA 4 5 6 0 5 0x20)) 0 4 0x3F800000 &&
      gives s (.fadd (fA 4 5 6 0 5 0x80)) 0 4 0x3F800001) = true := by decide +kernel

/-- 05_float.md R142: -7.0 to a signed and to a natural number. -/
theorem test_f2i_negative :
    let s := setV host1 0 7 0xC0E00000
    (gives s (.f2i (fA 6 7 5 0 0 0x20)) 0 6 0xFFFFFFF9 && gives s (.f2i (fA 6 7 5 0 1 0x20)) 0 6 0) = true := by decide +kernel

/-- 05_float.md R151: 21 and 500 in a format of four exponent and three mantissa bits. -/
theorem test_ncvt_enc :
    let s := (fun x => { setV (setV host1 0 5 x) 0 6 2 with
      teams := host1.teams.map fun t => { t with fregs := t.fregs.set 3 0xC60E } } : Nat → State)
    (gives (s 0x41A80000) (.ncvtEnc (fA 4 5 6 3 5 0)) 0 4 0x5A0000 && gives (s 0x41A80000) (.ncvtEnc (fA 4 5 6 3 5 0x80)) 0 4 0x5B0000 &&
      gives (s 0x43FA0000) (.ncvtEnc (fA 4 5 6 3 5 0)) 0 4 0x7F0000) = true := by decide +kernel

/-- A thread of a team of depth 1 that glazes all: two registers with their tangents. -/
def hostGlz (r1 t1 r2 t2 : Nat) : State :=
  let s : State := { host1 with
    threads := [freshThread 2 0 96 1]
    teams := host1.teams.map fun t => { t with alloc := 96, depth := 1, gall := true, gregs := List.replicate 126 0 } }
  (((s.setReg 2 0 0 11 (.ofNat 32 r1)).setReg 2 0 1 11 (.ofNat 32 t1)).setReg 2 0 0 12 (.ofNat 32 r2)).setReg 2 0 1 12 (.ofNat 32 t2)

/-- 06_glaze.md R162 to R168: a product, an exponential and a quotient with their tangents. -/
theorem test_glazed_results :
    (let p := hostGlz 0x40400000 0x3F800000 0x3F000000 0x40800000
     gives p (.fmul (fA 10 11 12 0 5 0)) 0 10 0x3FC00000 && gives p (.fmul (fA 10 11 12 0 5 0)) 1 10 0x41480000 &&
     (let e := hostGlz 0x40400000 0x3E800000 0 0
      gives e (.fexp2 (fA 10 11 0 0 5 0)) 0 10 0x41000000 && gives e (.fexp2 (fA 10 11 0 0 5 0)) 1 10 0x3FB17218) &&
     let q := hostGlz 0x3F800000 0 0x40400000 0x3F800000
     gives q (.fdiv (fA 10 11 12 0 5 0)) 0 10 0x3EAAAAAB && gives q (.fdiv (fA 10 11 12 0 5 0)) 1 10 0xBDE38E39) = true := by decide +kernel

/-- 10_matrix.md R287: block scales of 960.0 and of 1000.0. -/
theorem test_qblk :
    let s := (fun x => { setV host1 0 5 x with teams := host1.teams.map fun t => { t with fregs := t.fregs.set 3 0xC60E } } : Nat → State)
    (gives (s 0x44700000) (.qblk (fA 8 5 3 0 5 0)) 0 8 0x80 && gives (s 0x44700000) (.qblk (fA 8 5 3 0 5 0)) 0 9 0x3F000000 &&
      gives (s 0x447A0000) (.qblk (fA 8 5 3 0 5 0)) 0 8 0x81 && gives (s 0x447A0000) (.qblk (fA 8 5 3 0 5 0)) 0 9 0x3EE38E39) = true := by decide +kernel

/-! ### Further clauses -/

/-- The words that FloatWordsComplete names run where their sources, registers or a channel with its messages, are ready. -/
theorem witness_FloatWordsComplete : ([
    .fadd (fA 3 1 2 0 5 129), .fsub (fA 4 6 8 0 6 16), .fmul (fA 3 1 2 0 7 2), .ffma (fA 3 1 2 5 9 8), .fmin (fA 3 1 2 0 5 4), .fmax (fA 3 1 2 0 10 1),
    .frnd (fA 3 1 0 0 5 96), .fscale (fA 3 1 2 0 5 8), .fdot2 (fA 3 1 2 5 10 0), .fdiv (fA 3 1 2 0 5 97), .fsqrt (fA 3 1 0 0 5 8),
    .frcp (fA 4 6 0 0 6 0), .frsq (fA 3 1 0 0 5 2), .fexp2 (fA 3 1 0 0 7 0), .flog2 (fA 3 1 0 0 8 0), .fsin (fA 3 1 0 0 5 0), .fcos (fA 3 1 0 0 5 16),
    .ftanh (fA 3 1 0 0 5 0)] : List Instr).all (fun i => sees i (hostN 2) (ready (hostN 2) [(1, 1)]) && sees i hostQ (ready hostQ [(256, 1)])) = true := by
  decide +kernel

theorem witness_fills_walked_and_dropped :
    -- the walkers of the die, all taken and not; a line that an acquire met, with its data there; one that somebody wants
    (hostFill id).walkerFree 0 ((hostFill id).cluster 1 |>.line 0).fid = true ∧
    (let s := hostFill fun l => { l with drop := some 4, data := some (List.replicate 128 1, List.replicate 16 1) }
     ((s.cluster 1).line 0).drop = some 4 ∧ ((s.cluster 1).line 0).data.isSome = true) ∧
    ({ hostFill id with reqs := [{ id := 5, cluster := 1, op := .walk 0 128 }] } : State).lineWanted 1 0 = true ∧ (hostFill id).lineWanted 1 0 = false := by decide +kernel

theorem witness_messages_off_the_fabric :
    let m : Message := { id := 50, port := 64, image := .ofNat 128 (3 * 2 ^ 125 + 2 ^ 124), dev := 7, elems := [1, 2] }
    let rec_ : Message := { m with image := .ofNat 128 (4 * 2 ^ 125 + 2 ^ 32) }
    let s := hostPages.updJob 0 fun j => { j with devices := [0, 7] }
    let at_ := fun (m : Message) => ({ s with sendBuf := [m] } : State)
    -- one that comes off, at the limits of its length, and one too long; a record whose queue is there and one whose is not
    (s.dieUp 0 = true ∧ (s.job? m.job).isSome = true ∧ 7 ∈ (s.job m.job).devices ∧ s.canCount 64 0 = true ∧ s.sendRoom 64 1 = true ∧
      ¬ ([1, 2, 3, 4, 5, 6, 7, 8] : List Nat).length ≤ 7) ∧
    (64 ≤ m.port ∧ (at_ m).dieClock 0 ≥ m.retryAt ∧ (at_ m).sendBuf.find? (fun x => x.id == 50) = some m) ∧
    (match s.translate 0 (2 ^ 32) false { r := true, w := true, a := true } with | (.ok .., _) => (at_ rec_).reqs.isEmpty | _ => false) = true ∧
    (match s.translate 0 (2 ^ 33) false { r := true, w := true, a := true } with | (.fail cause info, _) => (Trans.fail cause info).holds (2 ^ 33) | _ => false) = true := by
  decide +kernel

theorem witness_waves_of_peers :
    let s := (hostN 2).updJob 0 fun j => { j with devices := [0, 7], phase := 3 }
    -- a place that the root reaches, and one beyond a lost seam; a device set with a peer and one without
    (s.job? 0).any (fun j => s.reached j == [0] && !j.devices.all (· == s.pod)) = true ∧
    (let t := { s with seam := false, sets := [{ port := 32 }] }; (t.job? 0).any (fun j => t.reached j == []) = true) ∧
    ((hostN 2).job? 0).any (fun j => j.devices.all (· == (hostN 2).pod)) = true := by decide +kernel

theorem witness_collective_stages :
    let at_ := fun (f : CollCommand → CollCommand) => hostColl fun s => { s with colls := [f collCmd] }
    -- the three stages, one that waits for its lines, and an end with a valid object, without one and with a fault
    ([0, 1, 2].all fun n => (at_ fun k => { k with stage := n }).colls.any fun k => k.stage == n && k.ended.isNone) = true ∧
    (let s := { (at_ fun k => { k with reqs := [5] }) with reqs := [{ id := 5 }] }; s.colls.any fun k => k.reqs.any fun i => s.reqs.any fun r => r.id == i) = true ∧
    ([some (8, none), some (0, some 0x31)].all fun e => (at_ fun k => { k with ended := e }).colls.any fun k => k.ended == e && k.bar.isNone) = true ∧
    (let s := (hostBar 2); s.objectsFor 1 16 true [0] = (none, s) ∧ s.poolNat 1 0 16 / 2 ^ 4 % 2 ^ 4 = 0xA) := by decide +kernel

theorem witness_cached_clause :
    let s := { hostKernel with code := [(0, 0, 2 ^ 32, [BitVec.ofNat 64 (2 ^ 59), 0])] }
    s.cachedClause 0 0 (2 ^ 32) = some [BitVec.ofNat 64 (2 ^ 59), 0] ∧ hostKernel.cachedClause 0 0 (2 ^ 32) = none ∧
      s.team 2 = hostKernel.team 2 ∧ coreOf (s.team 2).quad 0 = 0 := by decide +kernel

theorem witness_layers_written_together :
    let r : LongResult := { id := 70, ticket := 5, team := 2, act := .regs [(0, 192, 7)] }
    let a : Access := { id := 71, ticket := 5, team := 2, size := 4, op := .load 192 1 [] none }
    ({ hostN 2 with results := [r], accesses := [a] } : State).matesDue r = true ∧ ({ hostN 2 with results := [r] } : State).matesDue r = false ∧
    (({ hostN 2 with results := [r, { r with id := 72, act := .regs [(1, 192, 9)] }] } : State).mates r).length = 2 := by decide +kernel

theorem witness_lines_that_shegus_recalls :
    -- a line that is busy, one that a host agent holds, and one that nobody does
    ({ hostPages with busy := [{ line := 0x20000 / 128, req := 0, acks := 0 }] } : State).heldLines 0x20000 16 = [0x20000 / 128] ∧
    ({ hostPages with dir := [{ line := 0x20000 / 128, coarse := false, agents := [3], vector := 0 }] } : State).heldLines 0x20000 16 = [0x20000 / 128] ∧
    hostPages.heldLines 0x20000 16 = [] ∧ hostPages.mayWrite 0x20000 16 = true := by decide +kernel

theorem witness_writes_of_peers :
    hostPages.dieUp 0 = true ∧ hostPages.pod ≠ 7 ∧ (0x1007F % 128 + 1 ≤ 128 ∧ ¬ 0x1007F % 128 + 2 ≤ 128) ∧ (0x8000000000 - 1) / 2 ^ 38 = 1 ∧
    hostPages.dieUp 1 = true ∧ hostPages.pageKept 0x1007F = true ∧ hostPages.pageKept 0x20000 = false := by decide +kernel

/-- A gang of a cluster on both dies, when the seam is lost. -/
theorem witness_gangs_of_a_bonded_cluster :
    let s := (hostN 2).updCluster 1 fun c => { c with quads := [0, 32] }
    (s.gangs.all fun g => (s.cluster (s.team g.team).cluster).bonded && !(s.cluster (s.team g.team).cluster).aborted &&
      s.threads.any fun x => x.team == g.team && g.members.contains x.rank) = true ∧ s.gangs ≠ [] := by decide +kernel

/-- A sliced word of 2^56 − 1 arrivals: none can be assigned. -/
def lastArrival (s : State) : State := { s with arrivals := [(homeSlice 0x10000 (.ofNat 64 (allocLeaf 0x10000 false)), 2 ^ 56 - 1)] }

/-- Versions of a request's cell that its group has not seen. -/
def unseenBits (s : State) (r : HomeReq) : Nat := ((s.versions r.pa).filter fun v => decide (0 < v.2.1 ∧ v.2.2 ≠ r.group)).length

/-- The forms of HomeOperations beside the plain ones: a fill and a read of the other die's line, a read for the host, a
write that is busy with what it asked for, a merged kept write, kept cells refused with the side log open and full, the last
arrival of a slice and none, and a queue step. -/
theorem witness_home_forms :
    let far := fun (op : HomeOp) => { reqOf op with pa := 2 ^ 38 + 0x10000 }
    (served (hostReq (far (.fill 0))) (far (.fill 0)) && ((hostReq (far (.fill 0))).cluster 1).quadOf 0 / 32 != homeDie (2 ^ 38 + 0x10000) (reqOf (.fill 0)).leaf &&
    (let r := { far (.read 1 128) with cmd := some 4 }; served (hostReq r) r) &&
    ([(true, 15), (true, 16), (false, 0)].all fun p => let r := { reqOf (.hostRead 128 p.2 p.1) with team := 0, kind := 4, src := 64 }; served (hostReq r) r) &&
    (let r := { reqOf (.write [(127, 1)]) with state := .busy }
     let s : State := { hostReq r with busy := [{ line := r.pa / 128, req := 10, acks := 0 }] }
     served s r && s.memoryDue r) &&
    (let r := { reqOf (.kept [(15, 5)] 0) with merge := true, mask := 2 ^ 127 }; served (hostReq r) r && !r.mask.testBit (8 * 15)) &&
    (let r := { reqOf (.kept [(0, 5)] 0) with log := 3 }
     let s := (hostReq r).setVersions 0x10000 ((List.range 16).map fun i => (BitVec.ofNat 64 i, 40 - i, 9)) 0
     let full : State := { s with side := (List.range 512).map fun i => { log := 3, seq := i, slot := i, req := { id := 1000 + i } } }
     served s r && decide (15 ≤ (unseenBits s r)) && (s.side.filter fun e => e.log == 3).length == 0 &&
     (full.side.filter fun e => e.log == 3).length == 512 && (full.reqHolds r).isEmpty) &&
    -- the slice's last arrival is taken, and the one after it cannot be
    (let r := reqOf (.kept [(0, 5), (1, 6)] 0)
     let s : State := { hostReq r with arrivals := [(homeSlice r.pa r.leaf, 2 ^ 56 - 2)] }
     served s r && !s.noArrival r && (lastArrival s).noArrival r && (lastArrival s).noArrival (reqOf (.atomic 0 4 1 none none)) &&
     !(lastArrival s).noArrival (reqOf (.atomic 12 4 1 (some 4) none)) && !(lastArrival s).noArrival (reqOf (.probe 4)))) = true := by
  decide +kernel

/-- Two requests of one line, the second of which waits behind the first. -/
def hostBusy (r : HomeReq) (b : Busy) : State := { hostReq r with busy := [b] }

/-- The forms of HomeRequestOrder: a line that is busy for another request, joined or rejected; an aged request that waits
for an entry of the list or of the misses; memory that is to be read; copies on the other die; a map entry at each stage. -/
theorem witness_home_order :
    let r := reqOf (.write [(0, 1)])
    let other : HomeReq := { reqOf (.read 0 8) with id := 11, seq := 11, team := 0, state := .busy }
    let line := r.pa / 128
    -- busy for another: the request sent, listed, and the list full
    ((let s : State := { hostBusy r { line, req := 11, acks := 1 } with reqs := [r, other] }
     (s.reqHolds r).isEmpty && (s.reqAhead r).isEmpty && s.reaches r && (s.busy.any fun b => b.line == line && b.req != r.id) && !s.agedAhead r 1) &&
    (let old : HomeReq := { other with id := 12, state := .rejected 5, aged := some 3, wants := 1 }
     let s : State := { hostBusy r { line, req := 11, acks := 1 } with reqs := [r, other, old] }
     s.agedAhead r 1 && !s.agedAhead r 2 && !s.agedAhead { r with aged := some 2 } 1) &&
    -- nobody is ahead; the line is not in L2; it has copies
    (let s : State := { hostReq r with l2 := [] }; s.needsMemory r && !(hostReq r).needsMemory r) &&
    (let s : State := { hostReq r with dir := [{ line, coarse := false, agents := [0, 3], vector := 0 }] }
     ((s.dir.find? fun d => d.line == line).map (·.targets)) == some [0, 3]) &&
    (let old : HomeReq := { other with id := 12, state := .sent, aged := some 3, wants := 2 }
     ({ hostReq r with reqs := [r, old] } : State).agedAhead r 2) &&
    -- a map entry: with a mapping to walk, under way, with dirty lines after the walk, and with none
    (let q := reqOf (.mapEntry 0 none)
     let s : State := { hostRegion .clean with nextId := 200, reqs := [q] }
     (s.reqHolds q).isEmpty && q.stage == 0 && ((s.cluster 1).regions[0]?).join.isSome && ((s.cluster 1).lines.all fun l => l.mask == 0) &&
     s.flying false q.after == [] &&
     (let w : HomeReq := { q with stage := 1, after := [11] }
      ({ s with reqs := [w, { other with op := .walk 0 128 }] } : State).flying false w.after == [11]) &&
     (let d := s.updCluster 1 fun c => { c with lines := [{ line := 0, st := .dirty, mask := 1 }] }
      ((d.cluster 1).mapping 0).map (·.1) == some 0 && (d.cluster 1).lines.any fun l => l.mask != 0)) &&
    -- a line's last acknowledgement and one before it
    ([1, 2].all fun k => (hostBusy { r with state := .busy } { line, req := 10, acks := k }).busy.find? (fun b => b.line == line && b.acks != 0) ==
      some { line, req := 10, acks := k })) = true := by decide +kernel

/-- The hosted region's cluster with its line as given and one access at it. -/
def hostMeets (l : RegionLine) (a : Access) : State :=
  { (hostRegion .absent).updCluster 1 fun c => { c with lines := if l.st == .absent then [] else [l] } with accesses := [a], nextId := 200 }
def lineAccess (op : PoolOp) : Access := { id := 7, cluster := 1, team := 2, dst := some 0, key := 4, size := 4, op, seq := 5, grp := 7 }
def opens (s : State) (a : Access) : Bool := s.accesses.find? (fun e => decide (e.id = a.id ∧ e.state = .sent)) == some a && (s.blockers a).isEmpty

/-- Accesses at a mapped line: a clean and a dirty one serve, a partial one what its mask names, an absent or filling one
does not, with fill slots left and without; a prefetch, an invalidation and a kept place. -/
theorem witness_accesses_at_lines :
    let load := lineAccess (.load 8 0 [] none)
    (opens (hostMeets { st := .clean } load) load &&
    opens (hostMeets { st := .dirty, mask := 1 } (lineAccess (.store [1, 2, 3, 4]))) (lineAccess (.store [1, 2, 3, 4])) &&
    (((hostMeets { st := .clean } load).cluster 1).linesIn 4 4 == [0]) &&
    ([LineState.absent, .filling, .partialLine].all fun st => opens (hostMeets { st, mask := 0xF } load) load) &&
    decide ((hostMeets { st := .absent } load).fillsOf 0 < (hostMeets { st := .absent } load).fillLimit load) &&
    -- every fill slot of the quad taken
    (let s := (hostMeets { st := .absent } load).updCluster 1 fun c => { c with lines := (List.range 992).map fun i => { line := 128 * (1 + i), st := .filling } }
     decide (s.fillLimit load ≤ s.fillsOf 0)) &&
    ([PoolOp.prefetch, .inv true, .inv false, .place].all fun op => opens (hostMeets { st := .clean } (lineAccess op)) (lineAccess op)) &&
    (let a := { lineAccess .prefetch with key := 0 }; opens (hostMeets { st := .absent } a) a && (((hostMeets { st := .absent } a).cluster 1).mapping 0).isSome)) = true := by
  decide +kernel

/-- A failed fill: its gang held at its word, a load that waits at the share, a weak store, and a load that its partial line
can serve. -/
theorem witness_FailedFill :
    let waits := fun (l : RegionLine) (a : Access) => ((hostMeets l a).cluster 1).line 0 == l && (hostMeets l a).accesses == [a]
    (waits { st := .filling } { lineAccess (.load 8 0 [] none) with state := .waiting 9 } &&
    waits { st := .filling, mask := 0xF0 } { lineAccess (.load 8 0 [] none) with state := .waiting 9 } &&
    waits { st := .filling, mask := 1, prefs := [(4, 0)] } (lineAccess (.store [1, 2, 3, 4])) &&
    ((hostRegion .filling).updGang 3 fun g => { g with status := .held (.line 1 0 2 (2 ^ 32)) }).gangs.any (fun g => g.status == .held (.line 1 0 2 (2 ^ 32))) &&
    ((hostRegion .filling).updGang 3 fun g => { g with status := .held (.accept 7) }).gangs.any (fun g => g.status == .held (.accept 7))) = true := by
  decide +kernel

/-- A walk of the region's line, at its second step. -/
def walkOf (f : HomeReq → HomeReq) : HomeReq := f { reqOf (.walk 0 256) with stage := 1 }
def hostWalk (l : RegionLine) (r : HomeReq) : State := { hostMeets l {} with accesses := [], reqs := [r] }
def walks (s : State) (r : HomeReq) : Bool := (s.reqs.find? fun e => e.id == r.id && (e.state == .sent || e.isListed || s.memoryDue e)) == some r && (s.reqHolds r).isEmpty

/-- A write-back walk: at its first step, with nothing due, with a write of its own under way, at a dirty, a filling and a
partial line, and where the page refuses the write, with room in the side log and without. -/
theorem witness_WriteBackWalks :
    (walks (hostWalk { st := .dirty, mask := 3 } (walkOf fun r => { r with stage := 0 })) (walkOf fun r => { r with stage := 0 }) &&
    ([{ st := .clean }, { st := .dirty, mask := 3 }, { st := .filling, mask := 3 }, { st := .partialLine, mask := 3 }] : List RegionLine).all
      (fun l => walks (hostWalk l (walkOf id)) (walkOf id)) &&
    (let r := walkOf fun r => { r with after := [11] }
     let s := { hostWalk { st := .clean } r with reqs := [r, { id := 11, back := true }] }
     walks s r && s.reqs.any fun e => e.id == 11) &&
    (let s := hostWalk { st := .dirty, mask := 3 } (walkOf id)
     (match (s.translate 0 (2 ^ 32) false { w := true }).1 with | .ok _ leaf => !leafK leaf | _ => false) &&
     match (({ hostN 2 with clusters := s.clusters, reqs := s.reqs } : State).translate 0 (2 ^ 32) false { w := true }).1 with | .fail .. => true | _ => false) &&
    (let s := hostWalk { st := .dirty, mask := 3 } (walkOf id)
     (({ s with side := (List.range 512).map fun i => { log := 0, slot := i, req := { id := 1000 + i } } } : State).side.filter fun e => e.log == 0).length == 512)) = true := by
  decide +kernel

/-- A fault of a copy's line: before it is recorded, at its own line and another, with an object to take FLT, that is there and
not, and with a ring to let go; a write in a full side log. -/
theorem witness_copy_faults :
    let line : CopyLine := { write := true, va := 2 ^ 33, n := 8, dst := [0], fault := some 0x10 }
    let at_ := fun (base : State) (f : CopyCommand → CopyCommand) (p : State → CopyCommand → Bool) =>
      let k := copyOf fun k => f { k with lines := [line] }
      let s : State := { base with nextId := 200, commands := [k] }
      s.command? 5 == some k && k.line 0 == some line && p s k
    (at_ hostPages id (fun _ k => !k.faulted) && at_ hostPages (fun k => { k with faulted := true, faultAt := some 3 }) (fun _ k => k.faulted && k.faultAt != some 0) &&
    at_ hostPages (fun k => { k with faulted := true, faultAt := some 0 }) (fun _ k => k.flts.isEmpty && !k.unbinds) &&
    ([LineState.clean, .absent].all fun st => at_ (hostRegion st) (fun k => { k with faulted := true, faultAt := some 0, flts := [0] }) fun s k =>
      k.flts == [0] && (s.lineFor 1 (keyOf 0) 16 true k.sys).1.isSome == (st == .absent)) &&
    ([LineState.clean, .absent].all fun st => at_ (hostRegion st) (fun k => { k with kind := 4, faulted := true, faultAt := some 0, unbinds := true }) fun s k =>
      k.unbinds && (s.lineFor 1 (keyOf k.ring) 16 true k.sys).1.isSome == (st == .absent)) &&
    -- a line to be written whose page is not present, with room in the side log and without; one whose write has left
    at_ hostPages (fun k => { k with kind := 1, lines := [{ line with fault := none }] }) (fun _ _ => true) == false &&
    (let l : CopyLine := { line with fault := none }
     let k := copyOf fun k => { k with kind := 1, lines := [l] }
     let s : State := { hostPages with nextId := 200, commands := [k] }
     let full : State := { s with side := (List.range 512).map fun i => { log := 0, slot := i } }
     k.line 0 == some l && l.req == 0 && (s.lineFor 1 (keyOf 0) 8 true k.sys).1.isNone && (s.side.filter fun e => e.log == k.quad).length == 0 &&
     (match (s.translate 0 l.va k.sys { w := true }).1 with | .fail cause _ => cause == .notPresent | _ => false) &&
     (full.side.filter fun e => e.log == k.quad).length == 512) &&
    (let l : CopyLine := { line with fault := none, req := 9 }
     let k := copyOf fun k => { k with kind := 1, lines := [l] }
     let s : State := { hostPages with nextId := 200, commands := [k], reqs := [{ id := 9 }] }
     k.line 0 == some l && (s.reqs.any fun r => r.id == l.req && !r.replay))) = true := by decide +kernel

/-- A layout record of 1 dimension of 8 bytes (R240), and a palette's. -/
def recordOk : Nat := 9 * 2 ^ 508 + 1 * 2 ^ 499 + 7 * 2 ^ 128
def recordPalette : Nat := 9 * 2 ^ 508 + 2 ^ 502 + 2 * 2 ^ 499 + 63 * 2 ^ 128 + 63 * 2 ^ 144
theorem witness_Records :
    (decide (recordOk < 2 ^ 512 ∧ 2 ^ 512 - 1 < 2 ^ 512 ∧ recordOk / 2 ^ 502 % 4 = 0 ∧ recordPalette / 2 ^ 502 % 4 = 1) &&
    sees (.tcopy (fE 3 3 6 0 0)) (hostN 2) (fun c =>
      let st := fun v => layStatus c.cluster v c.tm.depth (c.tm.gplane.toNat % 2 ^ 32)
      let pslot : Matrix := { slots := [{ id := 0, name := some 0, record := .ofNat 128 (64 * 2 ^ 108) }] }
      st recordOk == 0 && st recordPalette == 0 && st 0 == 1 && st (recordOk + 2 ^ 503) == 2 && st (recordOk + 2 ^ 505) == 3 && st (recordOk + 2 ^ 496 + 1) == 4 &&
      st (recordOk + 2 ^ 126) == 5 && st (recordOk + 2 ^ 504) == 6 && st (recordPalette - 2 ^ 128) == 7 &&
      -- refused, outside its list, without its reservation, with one too short, and with one
      recordRefusal c {} 0 0 0 0 0 == some .illegalOperand && recordRefusal c {} 2 (recordOk + 2 ^ 499) (2 ^ 30) 0 0 != none &&
      recordRefusal c {} 0 recordPalette 0 0 0 == some .slotNotReserved && recordRefusal c pslot 0 (recordPalette + 63 * 2 ^ 102) 0 0 0 == none &&
      recordRefusal c { pslot with slots := [{ id := 0, name := some 0 }] } 0 recordPalette 0 0 0 == some .shapeMismatch &&
      -- a stream without a ring, with one of its side bound, and with one that is free
      recordRefusal c {} 4 recordOk 0 0 0 == some .ringMisuse && recordRefusal c {} 4 recordOk 0 0 (5 * 2 ^ 120 + 2 ^ 127) == some .ringMisuse &&
      recordRefusal c {} 4 recordOk 0 0 (5 * 2 ^ 120) == none)) = true := by decide +kernel
theorem witness_NextLine :
    let k : CopyCommand := { record := .ofNat 512 recordOk }
    (decide (1 ≤ k.row + 1) && (k.next 0).isSome && ({ k with row := 1 } : CopyCommand).next 0 == none &&
    ({ k with kind := 2, index := some 3, record := .ofNat 512 (recordOk + 2 ^ 499) } : CopyCommand).next 0 != none &&
    ({ k with kind := 4, slot := some 0 } : CopyCommand).next (3 * 2 ^ 112) != none && ({ k with kind := 4 } : CopyCommand).next 0 == none &&
    ({ k with kind := 4, slot := some 0, loads := 0, off := 4 } : CopyCommand).next (2 * 2 ^ 112) == none &&
    ({ record := .ofNat 512 recordPalette } : CopyCommand).next 0 != none) = true := by decide +kernel

/-- Operands with infinities and NaNs, in the addend and in products. -/
theorem witness_sum_of_infinities :
    let o := fun (v : FVal) => ({ val := v } : MOpnd)
    let inf := fun s => FVal.inf s
    (!(o (inf true)).zero && (o (inf true)).val.isInf && (FVal.fin false 0 0).isZero && ({ val := .nan 0 } : MOpnd).val.isNaN &&
    -- infinities of one sign, of both, and zero times infinity
    ((({} : Addends).term (inf false)).product (o (.fin false 1 0)) (o (.fin true 1 0))).sum == (0x7F800000, 0) &&
    ((({} : Addends).term (inf false)).product (o (inf true)) (o (.fin false 1 0))).sum == (0x7FC00000, evNaN) &&
    ((({} : Addends).term (.fin false 1 0)).product (o (inf true)) (o (.fin false 0 0))).sum == (0x7FC00000, evNaN) &&
    ((({} : Addends).term (.fin false 1 0)).product { zero := true } (o (.nan 0))).sum == (0x3F800000, 0)) = true := by decide +kernel

/-- A sparse loop, one with block scales and one of two bits, and two loops of one class of which the other team's is next. -/
theorem witness_step_forms :
    let masked := { aLoop with masks := some [1] }
    let scaled := BitVec.ofNat 128 (2 ^ 64)
    let two := { hostMat with
      teams := hostMat.teams ++ [{ hostMat.team 2 with id := 9, slot := 1 }], matrix := hostMat.matrix ++ [{ hostMat.matrixOf 2 with team := 9 }],
      mcommands := [{ id := 100, team := 2, op := .loop aLoop, started := true }, { id := 101, team := 9, op := .loop aLoop, started := true }],
      mturns := [(0, 2, aLoop.cls)] }
    (masked.masks.isSome && ([2, 4, 8, 16].all fun w => decide (w ∈ [2, 4, 8, 16])) && decide (recBL scaled < 4) && decide (0 < aLoop.window) &&
    memWf ((hostMat.matrixOf 2).bankId 6).bytes && (two.pickLoop 0).map (fun p => p.1.id) == some 101 &&
    (two.mturns.find? fun t => t.1 == 0 && t.2.2 == aLoop.cls) == some (0, 2, aLoop.cls)) = true := by decide +kernel

/-- Queue steps whose header or ring lies on a kept page with no arrival left for them, and with one. -/
theorem witness_queue_arrivals :
    let q := hostTasks (.spawn [1] [0] none) 0 0
    let slice := homeSlice q.2.pa q.2.leaf
    (leafK q.2.leaf && served q.1 q.2 && q.1.arrival slice == 0 &&
    ({ q.1 with arrivals := [(slice, 2 ^ 56 - 2)] } : State).arrival slice == 2 ^ 56 - 2 &&
    served { q.1 with arrivals := [(slice, 2 ^ 56 - 2)] } q.2 &&
    (match (q.1.translateAll 0 false true { w := true } [2 ^ 33]).1 with | .error (none, _) => true | _ => false) &&
    (match (q.1.translateAll 0 false false { w := true } [2 ^ 33]).1 with | .error (some _, _) => true | _ => false)) = true := by decide +kernel

/-- What JOINW with zr waits for: a child, a launch on its way, and neither; and a wait for replays. -/
theorem witness_joined :
    let w : EngineWait := { team := 2, ranks := [0], act := .join none 8 }
    let s : State := { hostPages with engineWaits := [w] }
    ((s.team 2).children.isEmpty && (s.team 2).joined.isEmpty && s.reqs.isEmpty &&
    ((s.updTeam 2 fun t => { t with children := [4] }).team 2).children == 4 :: [] &&
    (({ s with reqs := [reqOf (.launch [0] 3)] } : State).reqs.any fun r => r.team == 2 && match r.op with | .launch .. => true | _ => false) &&
    ((s.updTeam 2 fun t => { t with joined := [(4, 1), (5, 0)] }).team 2).joined == [(4, 1), (5, 0)] &&
    ({ w with act := .replays } : EngineWait).act == .replays && ({ w with act := .tlbi 1 0 (2 ^ 32) } : EngineWait).act != .cancel) = true := by
  decide +kernel

/-- Two threads of which the second's role is halted; of which both are; and a gang with a pending cause and a live trap. -/
def hostHalted (halt : Nat) : State := ((hostN 2).updThread 2 1 fun t => { t with role := 3 }).updTeam 2 fun t => { t with halt := .ofNat _ halt }
theorem witness_halted_members :
    let halted := fun (s : State) (r : Nat) => (s.team 2).halt.toNat.testBit (s.thread 2 r).role.toNat
    (!halted (hostHalted 8) 0 && halted (hostHalted 8) 1 && halted (hostHalted 9) 0 && halted (hostHalted 9) 1 &&
    ([hostHalted 8, hostHalted 9].all fun s => (s.gang? 3).any fun g => g.members == [0] ++ 1 :: [] && g.team == 2) &&
    -- the words whose members part, and a return to a header
    ([hostHalted 8, hostHalted 9].all fun s => runs (.brx (fB 0 6 1 0)) s && runs (.reform (fA 0 0 0 0 0 0)) s && runs (.bra (fB 0 0 0 16)) s) &&
    ((hostHalted 8).updGang 3 fun g => { g with pending := some .watchdog, word := 2, done := [0] }).gangs.all fun g => g.pending.isSome && g.word != 0) = true := by
  decide +kernel

/-- VOTE's fields: sound, and each that is refused. -/
theorem witness_vote_fields :
    let w := fun (t d s1 s2 m : Nat) => (Instr.vote (fA d s1 s2 0 t m))
    ((encode (w 0 3 7 0 0)).isSome && (encode (w 8 3 7 0 0)).isSome && (encode (w 0 8 0 0 0)).isSome && (encode (w 3 256 0 0 0)).isSome && (encode (w 5 3 0 0 0)).isSome &&
    (encode (w 2 3 256 0 0)).isSome && (encode (w 0 3 0 1 0)).isSome && (encode (w 0 3 0 0 1)).isSome && runs (w 0 3 7 0 0) (hostN 2) && runs (w 5 3 255 0 0) (hostN 2)) = true := by
  decide +kernel

/-- A computed register outside for the second thread, with the first below it. -/
theorem witness_RPUT_below :
    sees (.rput (fA 0 1 2 5 11 0)) (setV (hostN 2) 1 5 1) (fun c => c.act == [0] ++ 1 :: [] && c.val 0 5 1 == 0 && decide (c.val 0 2 1 < c.tm.alloc) &&
      c.tm.depth < c.val 1 5 1) = true := by
  decide +kernel

/-- A gang of two at a barrier's word with a place in its pair, and an access that rests. -/
theorem witness_places :
    let p : Access := { id := 7, cluster := 1, team := 2, rank := 0, dst := some 0, op := .place }
    let s : State := { hostPages with accesses := [p, { p with id := 8, rank := 1, op := .load 8 0 [] none, state := .waiting 0 }] }
    ((s.accesses.find? fun a => a.op == .place && a.team == 2 && a.rank == 0) == some p && (s.accesses.find? fun a => a.op == .place && a.team == 2 && a.rank == 1) == none &&
    s.resting 2 == [8]) = true := by decide +kernel

/-- What State's agenda may hold beside events. -/
theorem witness_agenda :
    (([.event (.clauseIssue 0 0), .tick 1, .register 0x1000 none, .replicaFirst 5 0 0, .wavePeriod 0 20] : List Choice).all fun c => ({ hostPages with agenda := [c] } : State).agenda == [c]) = true := by
  decide +kernel

/-- A fold with threads that keep different things, and one that keeps a trap. -/
theorem witness_fold_carries :
    (((hostFold fun f => { f with threads := [(0, false, {}), (1, true, { sys := true }), (2, false, {})] }).folds.find? fun f => f.id == 40).any fun f =>
      ((f.threads.map (·.1)).filter fun r => (f.threads.any fun t => t.1 == r && t.2.2 == {})) == [0, 2]) = true := by decide +kernel

/-- Shegus with one die, with both, and with none; a job outside its caller's rights; a line in progress where it reads. -/
theorem witness_shegus_forms :
    let s := hostShegus (cmdOf 1 0x20000 0 0 0)
    (s.dieUp 0 && (({ s with up := [false, true] } : State).dieUp 1) && !(({ s with up := [false, false] } : State).dieUp 0) && !(({ s with up := [false, false] } : State).dieUp 1) &&
    s.denied.isEmpty && (({ s with denied := [(0, 0)] } : State).denied.contains (0, 0)) &&
    ([{ line := 0x20000 / 128, req := 9, acks := 1 }] : List Busy).any (fun b => decide (0x20000 / 128 ≤ b.line ∧ 128 * b.line < 0x20000 + 64)) &&
    s.hostPort && decide (0x1000 + 0x40 * 15 + 8 * 5 = 0x13E8)) = true := by decide +kernel

/-- Snoops: at a free line, at a busy one, and one that waited. -/
theorem witness_snoops :
    let h := 0x200000000000
    let r := { reqOf (.write [(0, 1)]) with pa := 64 * h, state := .busy }
    let s : State := { hostReq r with busy := [{ line := h / 2, req := 10, acks := 1 }] }
    (hostPages.hostPort && hostPages.dieUp 0 && (s.busy.any fun b => b.line == h / 2) && decide (0x8000000000000 ≤ 64 * h) && hostPages.busy.isEmpty &&
    (({ hostPages with snoops := [(h, true)] } : State).snoops == [(h, true)]) &&
    (({ hostPages with halves := [(h, .modified)] } : State).half h == some .modified) && hostPages.half h == none) = true := by decide +kernel

/-- A reset of die 1 that follows die 0's image, and one that does not; of the last die; of one that is refused. -/
theorem witness_reset_forms :
    let s : State := { hostPages with images := [[1], []], firmware := [3, 0] }
    (s.hasDie 1 && s.dies == 2 && s.dieUp 0 && !s.seamBroken && s.images.getD 0 [] == [1] && s.firmware.getD 0 0 == 3 && s.images.getD 0 [] != [2] &&
    !(({ s with up := [true, false] } : State).dieUp (1 - 0)) && ({ s with flash := [9] } : State).flash != [1] && decide (¬ 3 < s.rollback)) = true := by decide +kernel

/-- A number just below a multiple of 2^−27 keeps away from all of them. -/
theorem keeps_away (y d : ℝ) (t : ℤ) (hy : y = t * 2 ^ (-27 : ℤ) - d) (h0 : (2 : ℝ) ^ (-75 : ℤ) ≤ d) (h1 : d ≤ 2 ^ (-28 : ℤ)) (k j : ℤ) (hj : -27 ≤ j) :
    (2 : ℝ) ^ (-1400 : ℤ) ≤ |y - k * 2 ^ j| := by
  obtain ⟨n, rfl⟩ : ∃ n : ℕ, j = n - 27 := ⟨(j + 27).toNat, by omega⟩
  have e : (k : ℝ) * 2 ^ ((n : ℤ) - 27) = ((k * 2 ^ n : ℤ) : ℝ) * 2 ^ (-27 : ℤ) := by
    rw [sub_eq_add_neg, zpow_add₀ (by norm_num)]; push_cast; rw [zpow_natCast]; ring
  rw [e, hy]
  generalize k * 2 ^ n = z
  have small : (2 : ℝ) ^ (-1400 : ℤ) ≤ 2 ^ (-75 : ℤ) := zpow_le_zpow_right₀ (by norm_num) (by norm_num)
  have pos : (0 : ℝ) < 2 ^ (-27 : ℤ) := by positivity
  rcases le_or_gt t z with h | h
  · have hz : (t : ℝ) ≤ z := by exact_mod_cast h
    have := mul_le_mul_of_nonneg_right hz pos.le
    rw [abs_of_nonpos (by linarith [show (0 : ℝ) < 2 ^ (-75 : ℤ) by positivity])]; linarith
  · have hz : (z : ℝ) + 1 ≤ t := by exact_mod_cast h
    have half : (2 : ℝ) ^ (-27 : ℤ) = 2 * 2 ^ (-28 : ℤ) := by norm_num
    have s2 : (2 : ℝ) ^ (-75 : ℤ) ≤ 2 ^ (-28 : ℤ) := zpow_le_zpow_right₀ (by norm_num) (by norm_num)
    have := mul_le_mul_of_nonneg_right hz pos.le
    rw [abs_of_nonneg (by linarith)]; linarith

theorem witness_TranscendentalResults :
    (decodeFp fp16 1 = .fin false 1 (-24) ∧ decodeFp fp16 0x3C00 = .fin false 1024 (-10) ∧ decodeFp fp16 0x4400 = .fin false 1024 (-8) ∧
      decodeFp fp16 0x4C00 = .fin false 1024 (-6) ∧ fp16.qMin = -24) ∧
    (1 : ℝ) = (1 : ℤ) ∧ (4 : ℝ) = 2 ^ (2 : ℤ) ∧
    ∀ k j : ℤ, fp16.qMin - 3 ≤ j → |k| ≤ 2 ^ (fp16.mb + 3) →
      (2 : ℝ) ^ (-1400 : ℤ) ≤ |Real.sin (2 ^ (-24 : ℤ)) - k * 2 ^ j| ∧ (2 : ℝ) ^ (-1400 : ℤ) ≤ |Real.cos (2 ^ (-24 : ℤ)) - k * 2 ^ j| ∧
      (2 : ℝ) ^ (-1400 : ℤ) ≤ |Real.tanh 16 - k * 2 ^ j| := by
  refine ⟨by decide, by norm_num, by norm_num, fun k j hj _ => ?_⟩
  replace hj : -27 ≤ j := hj
  have hx : |(2 : ℝ) ^ (-24 : ℤ)| ≤ 1 := by rw [abs_of_pos (by positivity)]; exact zpow_le_one_of_nonpos₀ (by norm_num) (by norm_num)
  have hs := abs_le.mp (Real.sin_bound hx)
  have hc := abs_le.mp (Real.cos_bound hx)
  rw [abs_of_pos (by positivity)] at hs hc
  refine ⟨keeps_away _ (8 * 2 ^ (-27 : ℤ) - Real.sin (2 ^ (-24 : ℤ))) 8 (by push_cast; ring) ?_ ?_ k j hj,
    keeps_away _ (2 ^ 27 * 2 ^ (-27 : ℤ) - Real.cos (2 ^ (-24 : ℤ))) (2 ^ 27) (by push_cast; ring) ?_ ?_ k j hj,
    keeps_away _ (2 / (Real.exp 32 + 1)) (2 ^ 27) ?_ ?_ ?_ k j hj⟩
  · have := hs.2; norm_num at this ⊢; linarith
  · have := hs.1; norm_num at this ⊢; linarith
  · have := hc.2; norm_num at this ⊢; linarith
  · have := hc.1; norm_num at this ⊢; linarith
  · rw [Real.tanh_eq_sinh_div_cosh, Real.sinh_eq, Real.cosh_eq, Real.exp_neg, show (32 : ℝ) = 16 + 16 by norm_num, Real.exp_add]
    have := Real.exp_pos 16
    norm_num
    field_simp
    ring
  · have h : Real.exp 32 = Real.exp 1 ^ 32 := by rw [← Real.exp_nat_mul]; norm_num
    have : Real.exp 1 ^ 32 ≤ 3 ^ 32 := pow_le_pow_left₀ (Real.exp_pos 1).le Real.exp_one_lt_three.le 32
    rw [h, le_div_iff₀ (by positivity)]; norm_num at this ⊢; nlinarith
  · have h : Real.exp 32 = Real.exp 1 ^ 32 := by rw [← Real.exp_nat_mul]; norm_num
    have h2 : (2 : ℝ) ≤ Real.exp 1 := by have := Real.add_one_le_exp (1 : ℝ); linarith
    have : (2 : ℝ) ^ 32 ≤ Real.exp 1 ^ 32 := pow_le_pow_left₀ (by norm_num) h2 32
    rw [h, div_le_iff₀ (by positivity)]; norm_num at this ⊢; linarith

/-- Numbers that fit a narrow format of no exponent bits and one with, and one beyond; a signed and an unsigned format, with
specials and without; and the least, the greatest and a tie of the scale codes. -/
theorem witness_NarrowEncodings :
    ([0x8600, 0xC60E, 0xC60F, 0x4200].map descWidth = [4, 8, 8, 5] ∧ descEB 0x8600 = 0 ∧ descMB 0x8600 = 3 ∧ descBias 0x8600 = 0 ∧ descSG 0x8600 = true ∧
      descSG 0x4200 = false ∧ descSP 0xC60F = true ∧ descSP 0x8600 = false ∧ 2 ≤ descEB 0xC60F ∧ descBias 0xC60E = 7 ∧ descMB 0xC60E = 3) ∧
    (1 : ℝ) = (if false then -1 else 1) * ((1 : ℕ) : ℝ) * 2 ^ (0 : ℤ) ∧ (3 : ℝ) = (if false then -1 else 1) * ((3 : ℕ) : ℝ) * 2 ^ (0 : ℤ) ∧
    |(1 : ℝ)| / 2 ^ (-2 : ℤ) = (4 : ℕ) ∧ |(3 : ℝ)| / 2 ^ (-2 : ℤ) = (12 : ℕ) ∧ (7 : ℝ) * 2 ^ (-2 : ℤ) < 12 * 2 ^ (-2 : ℤ) ∧ (4 : ℝ) * 2 ^ (-2 : ℤ) ≤ 7 * 2 ^ (-2 : ℤ) ∧
    (-3 : ℤ) = max (Int.log 2 |(1 : ℝ)| - 3) (-9) ∧ |(1 : ℝ)| / 2 ^ (-3 : ℤ) = (8 : ℕ) ∧
    (0 : ℝ) < 9 * 2 ^ (-18 : ℤ) ∧ (9 * 2 ^ (-18 : ℤ) : ℝ) ≤ 1 ∧ (1 : ℝ) ≤ 15 * 2 ^ (13 : ℤ) ∧ (15 * 2 ^ (13 : ℤ) : ℝ) < 2 ^ (17 : ℤ) ∧
    (2 ^ (-20 : ℤ) : ℝ) < 9 * 2 ^ (-18 : ℤ) := by
  refine ⟨by decide, ?_⟩
  have h : Int.log 2 |(1 : ℝ)| = 0 := by rw [show |(1 : ℝ)| = ((1 : ℕ) : ℝ) by norm_num, Int.log_natCast]; decide
  rw [h]; norm_num

/-- Atomic operands of both widths: numbers, a NaN, infinities of both signs; and the operands of FMIN and FDOT2. -/
theorem witness_atomics_and_picks :
    (decodeFp fp32 0x7FC00000).isNaN = true ∧ decodeFp fp32 0x7F800000 = .inf false ∧ decodeFp fp32 0xFF800000 = .inf true ∧
    (decodeFp fp64 (0x7FF8 * 2 ^ 48)).isNaN = true ∧ (decodeFp fp32 0x3F800000).isNaN = false ∧ (0xFFFFFFFF : Nat) < 2 ^ (8 * 4) ∧ 2 ^ 64 - 1 < 2 ^ (8 * 8) ∧
    (decodeFp fp16 0x3C00).isNaN = false ∧ decodeFp fp16 0xFC00 = .inf true ∧ (decodeFp fp16 0x7E00).isNaN = true ∧ (decodeFp bf16 0).isZero = true := by
  decide +kernel

end Sys2Proof.Tests
end

section
/-! SUPPORT. VOTE (03_control.md R100): its opcode, the forms that are refused, and what each Active thread takes. -/

namespace Sys2Proof.Machine

open Sys2Proof Sys2Proof.Spec

/-! ### The word and its checks -/

/-- A format A word holds its opcode in its top byte (R34). -/
theorem joinA_opcode (op : Nat) (hop : op < 256) (w : FmtA) : (joinA op w).toNat / 2 ^ 56 = op := by
  have hp := w.p.isLt
  have hd := w.d.isLt
  have h1 := w.s1.isLt
  have h2 := w.s2.isLt
  have h3 := w.s3.isLt
  have ht := w.t.isLt
  have hm := w.m.isLt
  simp only [joinA, joinField, BitVec.toNat_ofNat]
  omega

/-- A word of user level with a field that fails its own check is refused (R56). -/
theorem wordTrap_of_field {i : Instr} {c : Ctx} (hp : privileged i = false) (hw : i.wellFormed = false) :
    wordTrap i c = some .illegalOperand := by
  simp [wordTrap, hp, hw]

theorem Runs.wellFormed {i : Instr} {s : State} {c : Ctx} (hr : Runs i s c) : i.wellFormed = true :=
  List.all_eq_true.2 fun _ ho => (hr.field ho).1

/-- A check that fails stops the word before any thread has committed. -/
theorem trapsAt_of_wordTrap {i : Instr} {s : State} {c : Ctx} {cause : Cause} {body : Ctx → WordOut} (hi : Issues i s c)
    (ht : wordTrap i c = some cause) (hx : exec i s = .next (runWord i s body)) : TrapsAt i s c cause 0 0 := by
  rw [runWord_trap hi ht] at hx
  simpa [TrapsAt, finish, filter_all] using hx

/-- R100's list of the fields that VOTE refuses. -/
def VoteRefused (w : FmtA) : Prop :=
  let t := w.t.toNat
  8 ≤ t ∨ w.s2 ≠ 0 ∨ w.s3 ≠ 0 ∨ w.m ≠ 0 ∨ (t ≤ 2 ∧ 7 < w.d.toNat) ∨ (2 < t ∧ 256 ≤ w.d.toNat) ∨ (t = 2 ∧ 256 ≤ w.s1.toNat) ∨
    (t ≠ 2 ∧ t ≠ 5 ∧ t ≠ 6 ∧ 7 < w.s1.toNat) ∨ ((t = 5 ∨ t = 6) ∧ w.s1.toNat ≠ 255)

theorem vote_opnds (w : FmtA) : (Instr.vote w).opnds =
    [.isTrue (decide (w.t.toNat ≤ 7)), .zero w.s2.toNat, .zero w.s3.toNat, .zero w.m.toNat,
     if w.t.toNat ≤ 2 then .pred w.d.toNat else .reg9 w.d.toNat 1,
     if w.t.toNat = 2 then .reg w.s1.toNat 1
     else if w.t.toNat = 5 || w.t.toNat = 6 then .isTrue (w.s1.toNat == 255) else .pred w.s1.toNat] := rfl

/-- The fields of a VOTE word that pass their own checks. -/
theorem vote_wellFormed {w : FmtA} (h : (Instr.vote w).wellFormed = true) :
    w.t.toNat ≤ 7 ∧ w.s2 = 0 ∧ w.s3 = 0 ∧ w.m = 0 ∧
    (if w.t.toNat ≤ 2 then w.d.toNat < 8 else w.d.toNat < 256) ∧
    (if w.t.toNat = 2 then w.s1.toNat < 256
      else if w.t.toNat = 5 ∨ w.t.toNat = 6 then w.s1.toNat = 255 else w.s1.toNat < 8) := by
  have hzero : ∀ {n : Nat} {x : BitVec n}, (Opnd.zero x.toNat).ok = true → x = 0 := fun hx =>
    BitVec.eq_of_toNat_eq (by simpa [Opnd.ok] using hx)
  rw [Instr.wellFormed, vote_opnds] at h
  simp only [List.all_cons, List.all_nil, Bool.and_eq_true, Bool.and_true] at h
  obtain ⟨ht, h2, h3, hm, hd, h1⟩ := h
  refine ⟨of_decide_eq_true ht, hzero h2, hzero h3, hzero hm, ?_, ?_⟩
  · split at hd <;> simp_all [Opnd.ok]
  · split at h1
    · simp_all [Opnd.ok]
    · split at h1 <;> simp_all [Opnd.ok]

theorem VoteRefused.wellFormed {w : FmtA} (h : VoteRefused w) : (Instr.vote w).wellFormed = false := by
  rw [← Bool.not_eq_true]
  intro hw
  obtain ⟨ht, h2, h3, hm, hd, h1⟩ := vote_wellFormed hw
  obtain h | h | h | h | h := h
  · omega
  · exact h h2
  · exact h h3
  · exact h hm
  · split_ifs at hd h1 <;> omega

/-! ### Masks of gang positions -/

theorem fromBits_eq_sum_filter (n : Nat) (f : Nat → Bool) :
    fromBits n f = (((List.range n).filter f).map fun j => 2 ^ j).sum := by
  rw [fromBits, List.sum_map_ite]
  simp

/-- The positions at which a listed rank stands are all below the number of members, so counting on to `n` adds none. -/
theorem filter_positions (members ranks : List Nat) (n : Nat) (hn : members.length ≤ n) :
    ((List.range n).filter fun j => decide (∃ r ∈ ranks, members[j]? = some r)) =
      (List.range members.length).filter fun j => ranks.contains (members.getD j 0) := by
  obtain ⟨k, rfl⟩ := Nat.exists_eq_add_of_le hn
  rw [List.range_add, List.filter_append]
  have habove : ((List.range k).map (members.length + ·)).filter (fun j => decide (∃ r ∈ ranks, members[j]? = some r)) = [] := by
    simp
  rw [habove, List.append_nil]
  refine List.filter_congr fun j hj => ?_
  have hj := List.mem_range.1 hj
  simp [hj]

theorem posMask_eq_fromBits (members ranks : List Nat) (h : members.length ≤ 32) :
    posMask members ranks = fromBits 32 fun j => decide (∃ r ∈ ranks, members[j]? = some r) := by
  rw [fromBits_eq_sum_filter, filter_positions members ranks 32 h, List.sum_eq_foldl, List.foldl_map]
  rfl

/-! ### What VOTE gives a thread -/

/-- The truth that the forms with a predicate destination give every Active thread. -/
def voteTruth (t p : Nat) (c : Ctx) : Bool :=
  match t with
  | 0 => !(votes c p).isEmpty
  | 1 => (votes c p).length == c.act.length
  | _ => c.act.all fun r => c.val r p 1 == c.val c.lead p 1

/-- The number that the forms with a register destination give a thread. -/
def voteNumber (t p : Nat) (c : Ctx) (rank : Nat) : Nat :=
  match t with
  | 3 => posMask c.gang.members (votes c p)
  | 4 => (votes c p).length
  | 5 => c.pos rank
  | 6 => posMask c.gang.members c.act
  | _ => ((votes c p).filter fun r => decide (r < rank)).length

theorem exec_vote_predicate (w : FmtA) (s : State) (h : w.t.toNat ≤ 2) :
    exec (.vote w) s = .next (predWord (.vote w) s [] w.d.toNat (fun c => occ32 c + 4)
      fun c _ _ => voteTruth w.t.toNat w.s1.toNat c) := by
  show execVote w s = _
  unfold execVote
  obtain h | h | h : w.t.toNat = 0 ∨ w.t.toNat = 1 ∨ w.t.toNat = 2 := by omega
  all_goals rw [h]; rfl

theorem exec_vote_register (w : FmtA) (s : State) (h : 2 < w.t.toNat) :
    exec (.vote w) s = .next (aluWord (.vote w) s [] w.d.toNat 1 (fun c => occ32 c + 4)
      fun c rank _ => { val := voteNumber w.t.toNat w.s1.toNat c rank }) := by
  show execVote w s = _
  unfold execVote
  obtain ⟨k, hk⟩ := Nat.exists_eq_add_of_le' h
  rw [hk]
  rfl

theorem voteTruth_any (p : Nat) (c : Ctx) : voteTruth 0 p c = decide (votes c p ≠ []) := by
  cases h : votes c p <;> simp [voteTruth, h]

theorem voteTruth_all (p : Nat) (c : Ctx) :
    voteTruth 1 p c = decide (∀ r ∈ c.act, (c.s.thread c.tm.id r).pred p = true) := by
  rw [Bool.eq_iff_iff]
  simp [voteTruth, votes, List.length_filter_eq_length_iff]

/-- All values are equal where each is equal to the first thread's. -/
theorem voteTruth_eq (p : Nat) (c : Ctx) :
    voteTruth 2 p c = decide (∀ r ∈ c.act, ∀ q ∈ c.act, c.val r p 1 = c.val q p 1) := by
  rw [Bool.eq_iff_iff]
  simp only [voteTruth, List.all_eq_true, beq_iff_eq, decide_eq_true_eq]
  constructor
  · intro h r hr q hq
    rw [h r hr, h q hq]
  · intro h r hr
    refine h r hr _ ?_
    rw [Ctx.lead]
    cases hact : c.act with
    | nil => simp [hact] at hr
    | cons x xs => simp

/-- The numbers of R100's table, with its masks written bit by bit. -/
theorem voteNumber_eq_getD {t : Nat} (hlow : 2 < t) (hhigh : t ≤ 7) (p : Nat) (c : Ctx) (rank : Nat)
    (hlen : c.gang.members.length ≤ 32) :
    let mask := fun (rs : List Nat) => fromBits 32 fun j => decide (∃ r ∈ rs, c.gang.members[j]? = some r)
    voteNumber t p c rank =
      [0, 0, 0, mask (votes c p), (votes c p).length, c.gang.members.findIdx (· == rank), mask c.act,
        ((votes c p).filter fun q => decide (q < rank)).length].getD t 0 := by
  intro mask
  have hmask : ∀ rs, posMask c.gang.members rs = mask rs := fun rs => posMask_eq_fromBits c.gang.members rs hlen
  obtain rfl | rfl | rfl | rfl | rfl : t = 3 ∨ t = 4 ∨ t = 5 ∨ t = 6 ∨ t = 7 := by omega
  · exact hmask _
  · rfl
  · rfl
  · exact hmask _
  · rfl

/-! ### The word -/

theorem vote_predicateResult {w : FmtA} {s : State} {c : Ctx} (hr : Runs (.vote w) s c) (ht : w.t.toNat ≤ 2) :
    PredicateResult (.vote w) s c [] w.d.toNat (clocks c.act.length 4 + 4) fun _ _ => voteTruth w.t.toNat w.s1.toNat c :=
  predWord_result hr (exec_vote_predicate w s ht)

theorem vote_shortResult {w : FmtA} {s : State} {c : Ctx} (hr : Runs (.vote w) s c) (ht : 2 < w.t.toNat) :
    ShortResult (.vote w) s c [] w.d.toNat 1 (clocks c.act.length 4 + 4)
      fun r _ => { val := voteNumber w.t.toNat w.s1.toNat c r } := by
  have hm : Opnd.reg9 w.d.toNat 1 ∈ (Instr.vote w).opnds := by
    simp [vote_opnds, show ¬ w.t.toNat ≤ 2 by omega]
  exact aluWord_short hr (exec_vote_register w s ht) (hr.fits_reg9 (.inl rfl) hm)

theorem vote_refused {w : FmtA} {s : State} {c : Ctx} (hi : Issues (.vote w) s c) (h : VoteRefused w) :
    TrapsAt (.vote w) s c .illegalOperand 0 0 := by
  have ht := wordTrap_of_field (c := c) rfl h.wellFormed
  rcases Nat.lt_or_ge 2 w.t.toNat with hlt | hle
  · exact trapsAt_of_wordTrap hi ht (exec_vote_register w s hlt)
  · exact trapsAt_of_wordTrap hi ht (exec_vote_predicate w s hle)

/-- Settles O17: each form gives R100's value, and a field that R100 refuses fails the word's check before any thread. -/
theorem voteResults : Obligations.VoteResults := by
  unfold Obligations.VoteResults
  refine ⟨fun w x hx => ?_, fun w s c hi _ => vote_refused hi, fun w s c hr => ?_⟩
  · obtain rfl : joinA 0x0E w = x := Option.some.inj hx
    exact joinA_opcode 0x0E (by omega) w
  have hs : c.s = s := (ctxOf_some hr.1.2).1
  subst hs
  refine ⟨fun ht => (vote_predicateResult hr ht).congr fun _ _ _ _ => ?_,
    fun ht hlen _ => (vote_shortResult hr ht).congr fun r _ _ _ => ?_⟩
  · obtain h | h | h : w.t.toNat = 0 ∨ w.t.toNat = 1 ∨ w.t.toNat = 2 := by omega
    · rw [h]; exact voteTruth_any ..
    · rw [h]; exact voteTruth_all ..
    · rw [h]; exact voteTruth_eq ..
  · rw [voteNumber_eq_getD ht (vote_wellFormed hr.wellFormed).1 _ _ _ hlen]
    rfl

end Sys2Proof.Machine
end

section
/-! SUPPORT. GLZ (06_glaze.md R161, R163): which GLZ word covers a word of a clause, and the glazed set that it gives. -/

namespace Sys2Proof.Machine

open Sys2Proof Sys2Proof.Spec

/-! ### The covering GLZ -/

/-- The word at `j` is a GLZ whose span reaches word `i` (R31). -/
def GlzReaches (clause : List DWord) (i j : Nat) : Prop :=
  clause.getD j 0 / 2 ^ 56 = 0x0A ∧ i ≤ j + 1 + (splitG (clause.getD j 0)).n.toNat

/-- The word at `j`, with fields `g`, is the first GLZ before word `i` whose span reaches it (R31, R161). -/
def GlzCovers (clause : List DWord) (i j : Nat) (g : FmtG) : Prop :=
  j + 1 < i ∧ i ≤ j + 1 + g.n.toNat ∧ j < clause.length ∧ clause.getD j 0 / 2 ^ 56 = 0x0A ∧ g = splitG (clause.getD j 0) ∧
    ∀ j' < j, ¬ GlzReaches clause i j'

theorem opcodeOf_eq_glz (w : DWord) : opcodeOf w = 0x0A ↔ w / 2 ^ 56 = 0x0A := by
  rw [← BitVec.toNat_inj, BitVec.toNat_udiv]
  rfl

/-- `GlzReaches` as `coveringGlz` tests it. -/
def glzReaches (clause : List DWord) (i j : Nat) : Bool :=
  opcodeOf (clause.getD j 0) = 0x0A && decide (i ≤ j + 1 + (splitG (clause.getD j 0)).n.toNat)

theorem glzReaches_iff (clause : List DWord) (i j : Nat) : glzReaches clause i j = true ↔ GlzReaches clause i j := by
  rw [glzReaches, Bool.and_eq_true, decide_eq_true_iff, decide_eq_true_iff, opcodeOf_eq_glz, GlzReaches]

/-- Past its end a clause reads as zeros, which are no GLZ. -/
theorem GlzReaches.lt_length {clause : List DWord} {i j : Nat} (h : GlzReaches clause i j) : j < clause.length := by
  by_contra hj
  have hop := h.1
  rw [List.getD_eq_default _ _ (Nat.le_of_not_lt hj)] at hop
  exact absurd hop (by decide)

theorem glzCovers_iff (clause : List DWord) (i j : Nat) (g : FmtG) :
    GlzCovers clause i j g ↔
      j < i - 1 ∧ GlzReaches clause i j ∧ splitG (clause.getD j 0) = g ∧ ∀ j' < j, ¬ GlzReaches clause i j' := by
  constructor
  · rintro ⟨hj, hn, -, hop, rfl, hfirst⟩
    exact ⟨by omega, ⟨hop, hn⟩, rfl, hfirst⟩
  · rintro ⟨hj, hreach, rfl, hfirst⟩
    exact ⟨by omega, hreach.2, hreach.lt_length, hreach.1, rfl, hfirst⟩

theorem coveringGlz_eq_find? (clause : List DWord) (i : Nat) :
    coveringGlz clause i =
      ((List.range (i - 1)).find? (glzReaches clause i)).map fun j => splitG (clause.getD j 0) := by
  rw [← List.findSome?_guard, List.map_findSome?, coveringGlz]
  congr 1
  funext j
  rw [Function.comp_apply, Option.guard, apply_ite (Option.map _)]
  rfl

theorem coveringGlz_eq_some (clause : List DWord) (i : Nat) (g : FmtG) :
    coveringGlz clause i = some g ↔ ∃ j, GlzCovers clause i j g := by
  rw [coveringGlz_eq_find?, Option.map_eq_some_iff]
  refine exists_congr fun j => ?_
  simp only [List.find?_range_eq_some, List.mem_range, Bool.not_eq_true', ← Bool.not_eq_true, glzReaches_iff, glzCovers_iff]
  tauto

theorem coveringGlz_eq_none (clause : List DWord) (i : Nat) :
    coveringGlz clause i = none ↔ ∀ j g, ¬ GlzCovers clause i j g := by
  rw [Option.eq_none_iff_forall_ne_some, forall_comm]
  simp only [ne_eq, coveringGlz_eq_some, not_exists]

/-- What holds of every GLZ that covers a word holds of the one that the clause finds for it. -/
theorem forall_glzCovers_iff {clause : List DWord} {i : Nat} {g : FmtG} (h : coveringGlz clause i = some g) (P : FmtG → Prop) :
    (∀ j g', GlzCovers clause i j g' → P g') ↔ P g := by
  obtain ⟨j, hj⟩ := (coveringGlz_eq_some clause i g).1 h
  refine ⟨fun hall => hall j g hj, fun hP j' g' hj' => ?_⟩
  have hg' := (coveringGlz_eq_some clause i g').2 ⟨j', hj'⟩
  exact Option.some.inj (h.symm.trans hg') ▸ hP

/-! ### The glazed set -/

theorem mem_layers (t : Team) (k : Nat) : k ∈ (List.range t.depth).map (· + 1) ↔ 1 ≤ k ∧ k ≤ t.depth := by
  rw [List.mem_map]
  constructor
  · rintro ⟨j, hj, rfl⟩
    have := List.mem_range.1 hj
    omega
  · rintro ⟨h1, hk⟩
    exact ⟨k - 1, List.mem_range.2 (by omega), by omega⟩

theorem mem_glazedBase (t : Team) (k : Nat) :
    k ∈ (if t.gall then (List.range t.depth).map (· + 1) else []) ↔ (1 ≤ k ∧ k ≤ t.depth) ∧ t.gall = true := by
  split <;> simp_all [mem_layers]

theorem mem_glazedSet_uncovered {t : Team} {clause : List DWord} {i : Nat} (h : coveringGlz clause i = none) (k : Nat) :
    k ∈ glazedSet t clause i ↔ (1 ≤ k ∧ k ≤ t.depth) ∧ t.gall = true := by
  simp only [glazedSet, h, mem_glazedBase]

theorem mem_glazedSet_prop {t : Team} {clause : List DWord} {i : Nat} {g : FmtG} (h : coveringGlz clause i = some g)
    (hmd : g.md = 0) (k : Nat) :
    k ∈ glazedSet t clause i ↔ (1 ≤ k ∧ k ≤ t.depth) ∧ (t.gall = true ∨ g.msk.toNat.testBit (k - 1) = true) := by
  simp only [glazedSet, h, hmd, if_true, List.mem_filter, mem_layers, Bool.or_eq_true, List.contains_iff_mem, mem_glazedBase]
  tauto

theorem mem_glazedSet_hold {t : Team} {clause : List DWord} {i : Nat} {g : FmtG} (h : coveringGlz clause i = some g)
    (hmd : g.md ≠ 0) (k : Nat) :
    k ∈ glazedSet t clause i ↔ (1 ≤ k ∧ k ≤ t.depth) ∧ t.gall = true ∧ g.msk.toNat.testBit (k - 1) = false := by
  simp only [glazedSet, h, hmd, if_false, List.mem_filter, mem_glazedBase, Bool.not_eq_true', and_assoc]

/-- The glazed set of R161 by its three cases: no GLZ, one that propagates and one that holds. -/
theorem mem_glazedSet_iff (t : Team) (clause : List DWord) (i k : Nat) :
    k ∈ glazedSet t clause i ↔ (1 ≤ k ∧ k ≤ t.depth) ∧
      ((∀ j g, ¬ GlzCovers clause i j g) → t.gall = true) ∧
      (∀ j g, GlzCovers clause i j g → g.md = 0 → t.gall = true ∨ g.msk.toNat.testBit (k - 1) = true) ∧
      (∀ j g, GlzCovers clause i j g → g.md ≠ 0 → t.gall = true ∧ g.msk.toNat.testBit (k - 1) = false) := by
  cases h : coveringGlz clause i with
  | none =>
    have hnone := (coveringGlz_eq_none clause i).1 h
    rw [mem_glazedSet_uncovered h]
    simp [hnone]
  | some g =>
    have hsome : ¬ ∀ j g, ¬ GlzCovers clause i j g := by simp [← coveringGlz_eq_none, h]
    rw [forall_glzCovers_iff h fun g => g.md = 0 → t.gall = true ∨ g.msk.toNat.testBit (k - 1) = true,
      forall_glzCovers_iff h fun g => g.md ≠ 0 → t.gall = true ∧ g.msk.toNat.testBit (k - 1) = false]
    by_cases hmd : g.md = 0
    · rw [mem_glazedSet_prop h hmd]
      simp only [hsome, hmd, ne_eq, not_true_eq_false, false_imp_iff, true_imp_iff, true_and, and_true]
    · rw [mem_glazedSet_hold h hmd]
      simp only [hsome, hmd, ne_eq, not_false_eq_true, false_imp_iff, true_imp_iff, true_and]

/-- Settles O22: the clause's first GLZ that reaches a word decides its glazed set, and GLZ itself ends with the state it met. -/
theorem glazeSpans : Obligations.GlazeSpans := by
  unfold Obligations.GlazeSpans
  refine ⟨fun w s c hr => ?_, fun t clause i k _ => mem_glazedSet_iff t clause i k⟩
  exact congrArg Host.Outcome.next (runWord_runs hr _)

end Sys2Proof.Machine
end
